-- ==== Sys2Proof/Word.lean ====
section
/-! DEFINITION. The words of the machine (R5, R6) and the fixed names of its parts (R14, R15). -/

namespace Sys2Proof

/-- A 64-bit word (R5). -/
abbrev Word := BitVec 64

/-- A byte, the unit of every address (R5, R83). -/
abbrev Byte := BitVec 8

/-- The contents of one vector register (R204). -/
abbrev VReg := BitVec 2048

/-- One entry of the mask stack: bit `j` governs byte `j` of a register (R206). -/
abbrev Mask := BitVec 256

/-- A core id, `32 * y + x` (R14). -/
abbrev CoreId := Fin 256

/-- The four sequencers of a core (R15). -/
inductive SeqId where
  | C | L | X | S
deriving DecidableEq, Repr

/-- The index of a sequencer (R15). -/
def SeqId.idx : SeqId → Fin 4
  | .C => 0
  | .L => 1
  | .X => 2
  | .S => 3

/-- The sequencer of an index (R15). -/
def SeqId.ofIdx : Fin 4 → SeqId
  | 0 => .C
  | 1 => .L
  | 2 => .X
  | 3 => .S

/-- Bits `[hi:lo]` of a word, as a natural number (R9). -/
def Word.bits (w : Word) (hi lo : Nat) : Nat := (w.toNat >>> lo) % 2 ^ (hi + 1 - lo)

/-- Bit `i` of a word (R6). -/
def Word.bit (w : Word) (i : Nat) : Bool := w.getLsbD i

end Sys2Proof
end

