-- ==== Sys2Proof/Syntax.lean ====
section
/-! DEFINITION. The one inductive of instructions: one constructor for each row of spec/opcode_table.json. Device
instructions carry the fields of their encodings (R154 to R176); the rows that are events of the device, accesses of the
host, firmware commands and resets carry who acts and what the outside world supplies. -/

namespace Sys2Proof

/-- Scope codes (R82). -/
inductive Scope where
  | core | clu | dev | pod
deriving DecidableEq, Repr

/-- Condition codes (R163). -/
inductive Cond where
  | eq | ne | lt | ge | ltn | gen | le | gt | len | gtn
deriving DecidableEq, Repr

/-- Access sizes of 1, 2, 4 and 8 bytes, codes 0 to 3 (R167). -/
inductive Size where
  | b1 | b2 | b4 | b8
deriving DecidableEq, Repr

/-- Atomic and reduction operations, codes 0 to 10 (R168). -/
inductive AtomOp where
  | swp | add | and | or | xor | min | max | minn | maxn | fadd | fmax
deriving DecidableEq, Repr

/-- Orders of an atomic (R90). -/
inductive Order where
  | rlx | acq | rel | acqrel
deriving DecidableEq, Repr

/-- Kinds of MARK (R89). -/
inductive MarkKind where
  | full | acq | rel
deriving DecidableEq, Repr

/-- Element types of the vector group, codes 0 to 10 (R170). -/
inductive ElemT where
  | s8 | n8 | s16 | n16 | s32 | n32 | f16 | bf16 | f32 | s64 | n64
deriving DecidableEq, Repr

/-- Operations of VRED (R212). -/
inductive RedOp where
  | add | min | max
deriving DecidableEq, Repr

/-- Block formats of VQNT and VDQ (R129). -/
inductive QFmt where
  | bq8 | bq4 | bq16
deriving DecidableEq, Repr

/-- Weight formats of BLD (R226). -/
inductive BFmt where
  | trit | s4 | s8
deriving DecidableEq, Repr

/-- Side registers of an accumulator row (R138). -/
inductive SideReg where
  | m | l | c
deriving DecidableEq, Repr

/-- A scalar register field (R158): a general register or a queue. -/
inductive SReg where
  | g (n : Fin 32)
  | q (n : Fin 8)
deriving DecidableEq, Repr

/-- A scalar B operand (R180): a register, IMM, or the extension word. -/
inductive SB where
  | reg (r : SReg)
  | imm (v : BitVec 19)
  | ext (v : Word)
deriving DecidableEq, Repr

/-- An offset, displacement or constant in IMM or in the extension word (R155). -/
inductive Off where
  | imm (v : BitVec 19)
  | ext (v : Word)
deriving DecidableEq, Repr

/-- A vector register field (R158): a vector register number or a port. -/
inductive VR where
  | v (n : Fin 48)
  | p (n : Fin 8)
deriving DecidableEq, Repr

/-- A vector B operand (R171): a register, or an element broadcast from IMM or the extension word. -/
inductive VB where
  | reg (r : VR)
  | imm (v : BitVec 19)
  | ext (v : Word)
deriving DecidableEq, Repr

/-- The shuffle patterns of VSHUF; only the rotation reads a scalar (R170, R213). -/
inductive Shuf where
  | rev | ilo | ihi | even | odd
  | rot (b : SReg)
deriving DecidableEq, Repr

/-- The target of a FLAGW: a register with the offset in IMM, or the extension word with offset 0 (R169). -/
inductive FlagT where
  | reg (b : SReg) (k : BitVec 19)
  | ext (t : Word)
deriving DecidableEq, Repr

/-- A parameter block P0 to P3 as it stands in memory, before substitution (R156). -/
structure Blk where
  p0 : Word
  p1 : Word
  p2 : Word
  p3 : Word
deriving DecidableEq, Repr

/-- A card queue: the host queue of a virtual function, or a device queue of a partition (R35). -/
inductive QueueRef where
  | host (vf : Fin 1024)
  | dev (part : Fin 32) (q : Nat)
deriving DecidableEq, Repr

/-- What a transfer that is replayed, scrubbed or read meets in the array or on the wire (R355). -/
inductive ErrKind where
  | clean | correctable | uncorrectable
deriving DecidableEq, Repr

/-- An order key (R107). -/
structure OKey where
  pkg : BitVec 16
  sid : BitVec 10
  sn  : BitVec 40
deriving DecidableEq, Repr

/-- The kinds of buffered write: plain, reduction (R108, R109 pass 2), or flag increment (pass 3). -/
inductive WKind where
  | plain
  | rred (op : AtomOp) (w8 : Bool)
  | flag
deriving DecidableEq, Repr

/-- One unit of a stepped write on its way to a target region (R371). `first` is the issue sequence number of its command's
first element; `flag` is the offset of the flag of its RST, which rises when the last unit is accepted, `after` counts the later units of the
command for the same target, which are refused with it (R109, R371), and `depth` is the chain depth of the issuing card (R51). -/
structure StepUnit where
  gid   : BitVec 16
  step  : Nat
  exp   : BitVec 6
  off   : Nat
  data  : List Byte
  kind  : WKind
  key   : OKey
  first : BitVec 40
  flag  : Option Nat
  after : Nat
  depth : Nat := 0
deriving DecidableEq, Repr

/-- One copy of a multicast RST (R313): the group, the RST's data and flag, the key of the original, and the chain depth (R51). -/
structure McCopy where
  grp  : Fin 256
  gid  : BitVec 16
  step : Nat
  exp  : BitVec 6
  off  : Nat
  flag : Option Nat
  data : List Byte
  key  : OKey
  depth : Nat := 0
deriving DecidableEq, Repr

/-- A message that one package sends another and repeats until it is answered (R115, R262 to R267, R313, R314, R379, R380): a unit of a
stepped write, an RLD, an asynchronous write with its chain depth and the number of its exchange (R98), a boundary message with the life of its sender's group (R102),
a contribution to a collective, a multicast copy, the news that a subtree has its copies, the response of a subtree, a failure
notice, and the news that a boundary has been applied, with the life of its sender's group (R97, R110). -/
inductive PReq where
  | stepped (u : StepUnit)
  | read (gid : BitVec 16) (step : Nat) (exp : BitVec 6) (off n : Nat)
  | write (exp : BitVec 6) (off : Nat) (data : List Byte) (depth n : Nat)
  | boundary (gid : BitVec 16) (n : Nat) (members : List (BitVec 16)) (life : Nat)
  | contrib (grp : Fin 256) (n : Nat) (data : List Byte)
  | copy (c : McCopy)
  | got (grp : Fin 256) (step : Nat) (key : OKey)
  | resp (grp : Fin 256) (step : Nat) (key : OKey) (acc : Nat) (refmap : Word)
  | notice (gid : BitVec 16) (lost : BitVec 16)
  | applied (gid : BitVec 16) (n life : Nat)
deriving DecidableEq, Repr

/-- A reply to a message (R329, R371, R379); a member that is ready names the life of its group (R102). -/
inductive PRep where
  | accepted
  | refused
  | retry (us : BitVec 16)
  | data (bs : List Byte)
  | notYet
  | ready (life : Nat)
  | otherLife
deriving DecidableEq, Repr

/-- The body of a packet: a message or a reply. -/
inductive PBody where
  | req (id : Nat) (r : PReq)
  | rep (id : Nat) (r : PRep)
deriving DecidableEq, Repr

/-- A packet of the Strait fabric (R115, R116). -/
structure Packet where
  src    : BitVec 16
  dst    : BitVec 16
  srcInc : BitVec 16
  dstInc : BitVec 16
  hop    : Nat
  body   : PBody
deriving DecidableEq, Repr

/-- A firmware command as taken from its 64-byte entry (R293): function, tag, EV and the argument words. -/
structure FwCmd where
  vf  : Fin 1024
  tag : BitVec 32
  ev  : Bool
  a0  : Word
  a1  : Word
  a2  : Word
  a3  : Word
  a4  : Word
  a5  : Word
deriving DecidableEq, Repr

/-- The steps of the part: the rows of spec/opcode_table.json, in its order. -/
inductive Instr where
  -- control (R162)
  | nop
  | br (d : Off)
  | bcc (c : Cond) (a b : SReg) (d : Off)
  | bbitEq (a : SReg) (b : BitVec 6) (d : Off)
  | bbitNe (a : SReg) (b : BitVec 6) (d : Off)
  | call (d : Fin 32) (t : Off)
  | jmp (a : SReg) (k : Off)
  | loop (rot : Bool) (a : SReg) (d : BitVec 19)
  | loopi (rot : Bool) (n : BitVec 12) (d : BitVec 19)
  | rep (a : SReg) (n : BitVec 19)
  | lbrk (m : BitVec 2)
  | trap (c : BitVec 16)
  | ueret
  | waitc (ld st cp : BitVec 4) (mx : BitVec 3) (rm : BitVec 4)
  | notify
  | yield
  -- scalar ALU (R165, R166)
  | add (d a : SReg) (b : SB)
  | sub (d a : SReg) (b : SB)
  | mul (d a : SReg) (b : SB)
  | mulh (d a : SReg) (b : SB)
  | mulhn (d a : SReg) (b : SB)
  | div (d a : SReg) (b : SB)
  | divn (d a : SReg) (b : SB)
  | rem (d a : SReg) (b : SB)
  | remn (d a : SReg) (b : SB)
  | and (d a : SReg) (b : SB)
  | or (d a : SReg) (b : SB)
  | xor (d a : SReg) (b : SB)
  | andn (d a : SReg) (b : SB)
  | shl (d a : SReg) (b : SB)
  | shr (d a : SReg) (b : SB)
  | sar (d a : SReg) (b : SB)
  | ror (d a : SReg) (b : SB)
  | min (d a : SReg) (b : SB)
  | max (d a : SReg) (b : SB)
  | minn (d a : SReg) (b : SB)
  | maxn (d a : SReg) (b : SB)
  | cmp (c : Cond) (d a : SReg) (b : SB)
  | clz (d a : SReg)
  | ctz (d a : SReg)
  | popc (d a : SReg)
  | ext (sgn : Bool) (d a : SReg) (b : SB)
  | bfx (sgn : Bool) (d a : SReg) (lo : BitVec 6) (w : BitVec 7)
  | bfi (d : Fin 32) (a : SReg) (lo : BitVec 6) (w : BitVec 7)
  | ldi (d : SReg) (v : Off)
  | mov (d a : SReg)
  | mfsr (d : SReg) (i : BitVec 8)
  | mtsr (i : BitVec 8) (a : SReg)
  | bset (d a : SReg) (b : SB)
  | bclr (d a : SReg) (b : SB)
  | crc (sz : Size) (d a : SReg) (b : SB)
  -- scalar memory (R167, R168)
  | ld (sgn : Bool) (sz : Size) (lm : Bool) (d a : SReg) (k : Off)
  | st (sz : Size) (lm : Bool) (v a : SReg) (k : Off)
  | lda (sgn : Bool) (sz : Size) (sc : Scope) (d a : SReg) (k : Off)
  | str (sz : Size) (sc : Scope) (v a : SReg) (k : Off)
  | ldm (lm : Bool) (d : Fin 32) (n : BitVec 5) (a : SReg) (k : Off)
  | stm (lm : Bool) (d : Fin 32) (n : BitVec 5) (a : SReg) (k : Off)
  | amo (op : AtomOp) (w8 lm : Bool) (o : Order) (sc : Scope) (d a b : SReg)
  | cas (w8 lm : Bool) (o : Order) (sc : Scope) (d a b : SReg)
  | red (op : AtomOp) (w8 lm : Bool) (o : Order) (sc : Scope) (a b : SReg)
  | spill (s : BitVec 9) (a : Fin 32) (n : BitVec 5)
  | fill (d : Fin 32) (s : BitVec 9) (n : BitVec 5)
  | pref (l2 : Bool) (a : SReg) (k : Off)
  | invl1
  | layer (a : SReg) (n : BitVec 19)
  -- ordering and synchronisation (R169)
  | mark (k : MarkKind) (sc : Scope)
  | tpost (t : Fin 8) (b : SB)
  | twait (t : Fin 8) (b : SB)
  | qstat (d : SReg) (n : Fin 8)
  | bar (level : Fin 9)
  | step (d : SReg)
  | flagw (d a : SReg) (t : FlagT)
  -- vector, mask, port and top-k (R170)
  | vadd (t : ElemT) (d a : VR) (b : VB)
  | vsub (t : ElemT) (d a : VR) (b : VB)
  | vmul (t : ElemT) (d a : VR) (b : VB)
  | vfma (t : ElemT) (d : Fin 48) (a : VR) (b : VB)
  | vmin (t : ElemT) (d a : VR) (b : VB)
  | vmax (t : ElemT) (d a : VR) (b : VB)
  | vabs (t : ElemT) (d a : VR)
  | vneg (t : ElemT) (d a : VR)
  | vand (t : ElemT) (d a : VR) (b : VB)
  | vor (t : ElemT) (d a : VR) (b : VB)
  | vxor (t : ElemT) (d a : VR) (b : VB)
  | vnot (t : ElemT) (d a : VR)
  | vshl (t : ElemT) (d a : VR) (b : VB)
  | vshr (t : ElemT) (d a : VR) (b : VB)
  | vsar (t : ElemT) (d a : VR) (b : VB)
  | vadds (t : ElemT) (d a : VR) (b : VB)
  | vsubs (t : ElemT) (d a : VR) (b : VB)
  | vdiv (t : ElemT) (d a : VR) (b : VB)
  | vsqrt (t : ElemT) (d a : VR)
  | vrcp (t : ElemT) (d a : VR)
  | vrsq (t : ElemT) (d a : VR)
  | vexp2 (t : ElemT) (d a : VR)
  | vlog2 (t : ElemT) (d a : VR)
  | vcvt (t u : ElemT) (d a : VR)
  | vcmp (t : ElemT) (c : Cond) (a : VR) (b : VB)
  | minv
  | mpop
  | mbr (d : BitVec 19)
  | mrd (d : SReg) (w : Fin 4)
  | mwr (w : Fin 4) (a : SReg)
  | vsel (t : ElemT) (d a : VR) (b : VB)
  | vred (t : ElemT) (op : RedOp) (d a : VR)
  | vbcast (t : ElemT) (d : VR) (a : SReg)
  | vmovs (t : ElemT) (d : SReg) (a : VR) (i : BitVec 8)
  | vins (t : ElemT) (d : VR) (a : SReg) (i : BitVec 8)
  | vperm (t : ElemT) (d a b : VR)
  | vshuf (t : ElemT) (p : Shuf) (d a : VR)
  | viota (t : ElemT) (d : VR) (a : SReg)
  | vld (t : ElemT) (d : VR) (a : SReg) (k : Off)
  | vst (t : ElemT) (v : VR) (a : SReg) (k : Off)
  | vgath (t : ElemT) (nr : Bool) (d : VR) (a : SReg) (b : VR)
  | vscat (t : ElemT) (v : VR) (a : SReg) (b : VR)
  | vtopk (t : ElemT) (min : Bool) (k : BitVec 7) (new : Bool) (a b : VR)
  | vtopkr (d : VR) (idx : Bool)
  | pcfg (n : Fin 8) (b : Blk)
  | prst (n : Fin 8)
  | vqnt (f : QFmt) (d a : VR)
  | vdq (f : QFmt) (d a : VR)
  -- matrix (R172)
  | bld (f : BFmt) (ev : Bool) (slot : Fin 2) (b : Blk)
  | nset (level : Fin 6) (b : Blk)
  | ngo (ev : Bool)
  | acfg (f32 keep : Bool) (d : Fin 8) (base : BitVec 10) (rows : BitVec 11) (cols : BitVec 9)
  | azero (d : Fin 8)
  | ald (ev : Bool) (d : Fin 8) (a : SReg) (k : Off)
  | smxr (s : SideReg) (d : SReg) (a : Fin 8) (b : SReg)
  | smxw (s : SideReg) (d : Fin 8) (a b : SReg)
  | ftset (i : Fin 16) (a : SReg)
  | adrn (ev : Bool) (a : Fin 8) (b : Blk)
  -- engine and remote commands (R173)
  | cpy (ev : Bool) (b : Blk)
  | cpyx (ev : Bool) (b : Blk)
  | gath (ev : Bool) (b : Blk)
  | walk (ev : Bool) (b : Blk)
  | pool (ev : Bool) (b : Blk)
  | decmp (ev : Bool) (b : Blk)
  | buck (ev : Bool) (b : Blk)
  | supd (ev : Bool) (b : Blk)
  | xall (ev : Bool) (b : Blk)
  | coll (ev : Bool) (b : Blk)
  | rst (ev : Bool) (b : Blk)
  | rld (ev : Bool) (b : Blk)
  | rred (ev : Bool) (b : Blk)
  | stepq (d : SReg) (g : Fin 16)
  -- tasks and watches (R174)
  | launch (d a : SReg) (q : BitVec 6)
  | cardw (a : SReg)
  | warm (d a : SReg)
  | wdis (a : SReg)
  | trigrd (a b : SReg) (k : BitVec 19)
  | pqpush (n : Fin 16) (a : SReg)
  | pqpop (d : SReg) (n : Fin 16)
  | prio (a : SReg) (c : Fin 4)
  | graph (d a b : SReg)
  | uevset (a : SReg) (e : Bool)
  -- system (R174)
  | sysrd (d a : SReg) (k : BitVec 19)
  | syswr (a b : SReg) (k : BitVec 19)
  | eret
  | idle
  | ctxsv (a : SReg)
  | ctxld (a : SReg)
  | preempt (a : SReg)
  | evrd (d a : SReg)
  -- events of the device
  | trapEntry (core : CoreId)
  | userEventEntry (core : CoreId)
  | loadComplete (core : CoreId) (sq : SeqId)
  | storePerformedAtHome (core : CoreId) (sq : SeqId)
  | atomicPerform (core : CoreId)
  | rateWindowExpiry (entry : Nat)
  | engineCommandComplete (core : CoreId) (sq : SeqId) (n : Nat)
  | decmpFreeTokenTaken (core : CoreId) (sq : SeqId) (n : Nat)
  | engineFault (core : CoreId) (sq : SeqId) (n : Nat)
  | nestBecomesLive (core : CoreId)
  | nestComplete (core : CoreId)
  | bldComplete (core : CoreId) (n : Nat)
  | adrnComplete (core : CoreId) (n : Nat)
  | aldComplete (core : CoreId) (n : Nat)
  | cardQueueTake (q : QueueRef)
  | cardPlacement (part : Fin 32) (x : Fin 32) (y : Fin 8)
  | agingLimitExpiry (part : Fin 32) (handle : BitVec 32)
  | preemption (part : Fin 32) (handle : BitVec 32)
  | cardResume (part : Fin 32) (x : Fin 32) (y : Fin 8)
  | cardCompletion (part : Fin 32) (handle : BitVec 32)
  | graphReplayRelease (part : Fin 32) (handle : BitVec 32)
  | steppedWriteArrival
  | stepBoundary (g : Fin 16)
  | multicastCopy
  | multicastResponse
  | peerRequest
  | peerResponse
  | retryAfterExpiry (id : Nat)
  | requestTimeout (id : Nat)
  | failureNotice
  | packetReceive (p : Packet)
  | linkFrameRetry (port : Fin 16)
  | linkDown (port : Fin 16)
  | interfaceReplay (stack : Fin 8) (failed : Bool) (ia : BitVec 52)
  | interfaceRetrain (stack : Fin 8) (ok : Bool)
  | scrub (home : Fin 17) (pa : Nat)
  | rowCaptureRelease (stack : Fin 8)
  | sketchHalving (skerry : Fin 8)
  | hotRowWriteback (part : Fin 32) (table : BitVec 12) (row : Nat)
  | pageMigration (part : Fin 32) (ia : BitVec 52)
  | prefetchFill (part : Fin 32)
  | hostRead (vf : Fin 1024) (off : BitVec 48) (n : Nat)
  | hostWrite (vf : Fin 1024) (off : BitVec 48) (data : List Byte)
  | cmdTailWrite (vf : Fin 1024) (v : BitVec 32)
  | qtailWrite (vf : Fin 1024) (v : BitVec 32)
  | cqheadWrite (vf : Fin 1024) (v : BitVec 32)
  | evheadWrite (vf : Fin 1024) (v : BitVec 32)
  | region1RegisterWrite (vf : Fin 1024) (off : BitVec 14) (data : List Byte)
  -- firmware commands (R296)
  | identify (c : FwCmd)
  | getCaps (c : FwCmd)
  | attest (c : FwCmd)
  | partCreate (c : FwCmd)
  | partDestroy (c : FwCmd)
  | partReset (c : FwCmd)
  | vfBind (c : FwCmd)
  | vfUnbind (c : FwCmd)
  | quotaSet (c : FwCmd)
  | memMap (c : FwCmd)
  | memUnmap (c : FwCmd)
  | memSplit (c : FwCmd)
  | memPin (c : FwCmd)
  | memProtect (c : FwCmd)
  | pageRestore (c : FwCmd)
  | tableDefine (c : FwCmd)
  | tableDrop (c : FwCmd)
  | exportRegion (c : FwCmd)
  | revokeRegion (c : FwCmd)
  | stepgroupJoin (c : FwCmd)
  | fabricRoutesLoad (c : FwCmd)
  | evqConfig (c : FwCmd)
  | fwStage (c : FwCmd)
  | powerCap (c : FwCmd)
  -- resets and time
  | coldReset (imageOk : Bool)
  | warmReset (imageOk : Bool)
  | criticalTemperature
  | correctedMemoryEventWindow (home : Fin 17)
deriving DecidableEq, Repr

end Sys2Proof
end

