-- ==== Sys2Proof/Decode.lean ====
section
/-! DEFINITION. The decoder of the device's instructions and the encoder, from the same tables (R154 to R174), with the
bit-field, sign-extension and byte-order helpers they share. Decoding makes steps 2, 4 and 5 of R331 and nothing else. -/

namespace Sys2Proof

/-! ### Bit fields and bytes -/

/-- The little-endian number of a list of bytes (R5). -/
def leNat : List Byte → Nat
  | [] => 0
  | b :: bs => b.toNat + 256 * leNat bs

/-- The `n` low bytes of a number, least significant first (R5). -/
def leBytes : Nat → Nat → List Byte
  | 0, _ => []
  | n + 1, v => BitVec.ofNat 8 v :: leBytes n (v / 256)

/-- The 64-bit words of a list of bytes, eight bytes a word, least significant byte first (R154). -/
def wordsOfBytes : List Byte → List Word
  | b0 :: b1 :: b2 :: b3 :: b4 :: b5 :: b6 :: b7 :: bs =>
    (b7 ++ b6 ++ b5 ++ b4 ++ b3 ++ b2 ++ b1 ++ b0 : Word) :: wordsOfBytes bs
  | _ => []

/-- The bytes of a word, least significant first (R154). -/
def bytesOfWord (w : Word) : List Byte :=
  [w.extractLsb' 0 8, w.extractLsb' 8 8, w.extractLsb' 16 8, w.extractLsb' 24 8,
   w.extractLsb' 32 8, w.extractLsb' 40 8, w.extractLsb' 48 8, w.extractLsb' 56 8]

/-- An offset, displacement or constant as a 64-bit value: IMM is sign-extended (R155). -/
def Off.val : Off → Word
  | .imm v => v.signExtend 64
  | .ext w => w

/-- A substitution marker: bits [63:58] are 0b111101 (R156). -/
def isMarker (w : Word) : Bool := w.extractLsb' 58 6 == 0b111101#6

/-- The signed offset of a marker: bits [57:5] sign-extended from 53 bits (R156). -/
def markerOffset (w : Word) : Word := (w.extractLsb' 5 53).signExtend 64

/-! ### The base word -/

/-- The fields of a base word (R154). -/
structure Fields where
  op  : BitVec 8
  d   : BitVec 6
  a   : BitVec 6
  b   : BitVec 6
  f   : BitVec 4
  x   : BitVec 2
  ge  : BitVec 1
  gn  : BitVec 1
  gr  : BitVec 5
  gb  : BitVec 6
  imm : BitVec 19
deriving DecidableEq, Repr

/-- The fields of a word (R154). -/
def fieldsOf (w : Word) : Fields where
  op  := w.extractLsb' 0 8
  d   := w.extractLsb' 8 6
  a   := w.extractLsb' 14 6
  b   := w.extractLsb' 20 6
  f   := w.extractLsb' 26 4
  x   := w.extractLsb' 30 2
  ge  := w.extractLsb' 32 1
  gn  := w.extractLsb' 33 1
  gr  := w.extractLsb' 34 5
  gb  := w.extractLsb' 39 6
  imm := w.extractLsb' 45 19

/-- The word of the fields (R154). -/
def wordOf (f : Fields) : Word :=
  f.imm ++ f.gb ++ f.gr ++ f.gn ++ f.ge ++ f.x ++ f.f ++ f.b ++ f.a ++ f.d ++ f.op

/-- The guard of an instruction with GE = 1: bit `gb` of `g[gr]`, inverted by `gn` (R157). -/
structure Guard where
  gn : Bool
  gr : BitVec 5
  gb : BitVec 6
deriving DecidableEq, Repr

/-- What follows the base word (R154). -/
inductive Tail where
  | nil
  | ext (w : Word)
  | blk (b : Blk)
deriving DecidableEq, Repr

/-- A decoded instruction: its guard, its length in bytes and what it does. -/
structure Decoded where
  guard : Option Guard
  len   : Nat
  instr : Instr
deriving DecidableEq, Repr

/-- Why a word is not an instruction, by name (R331 steps 2, 4 and 5). -/
inductive DErr where
  /-- X = 11 or an unassigned opcode, at step 2 (R334). -/
  | notAssigned
  /-- Fewer bytes than the instruction has. -/
  | truncated
  /-- An X value the opcode does not allow (R154, R155). -/
  | xNotAdmitted
  /-- GE = 0 with a guard field that is not zero (R157). -/
  | guardField
  /-- A field or sub-field the table shows as zero is not zero (R336). -/
  | nonzeroField
  /-- A field value the table calls illegal (R336, R339). -/
  | illegalValue
  /-- B = 63 in a register field without "or 63" (R336). -/
  | b63
  /-- A limit the encoding alone shows (R336). -/
  | limit
  /-- A malformed block of an engine command, a remote command or PCFG (R338). -/
  | block
  /-- A malformed block of BLD, NSET or ADRN (R338). -/
  | matrixBlock
  /-- A reserved register number, at step 5 (R158, R337). -/
  | reservedReg
deriving DecidableEq, Repr

/-- The trap cause of a decoding failure (R331, R338). -/
def DErr.cause : DErr → Nat
  | .matrixBlock => 0x14
  | .reservedReg => 0x02
  | _ => 0x01

/-- A check of step 4: the condition, or the named failure. -/
def chk (c : Bool) (e : DErr) : Except DErr Unit := if c then .ok () else .error e

/-- A field that must be zero (R336). -/
def zero {n : Nat} (v : BitVec n) : Except DErr Unit := chk (v == 0) .nonzeroField

/-! ### Fields of names -/

def Scope.code : Scope → BitVec 2
  | .core => 0 | .clu => 1 | .dev => 2 | .pod => 3

/-- Scope of a code (R82). -/
def scopeOf (c : BitVec 2) : Scope :=
  match c.toNat with
  | 0 => .core | 1 => .clu | 2 => .dev | _ => .pod

def Cond.code : Cond → BitVec 4
  | .eq => 0 | .ne => 1 | .lt => 2 | .ge => 3 | .ltn => 4 | .gen => 5 | .le => 6 | .gt => 7 | .len => 8 | .gtn => 9

/-- Condition of a code; 10 to 15 are illegal (R163). -/
def condOf (c : BitVec 4) : Except DErr Cond :=
  match c.toNat with
  | 0 => .ok .eq | 1 => .ok .ne | 2 => .ok .lt | 3 => .ok .ge | 4 => .ok .ltn
  | 5 => .ok .gen | 6 => .ok .le | 7 => .ok .gt | 8 => .ok .len | 9 => .ok .gtn
  | _ => .error .illegalValue

def Size.code : Size → BitVec 2
  | .b1 => 0 | .b2 => 1 | .b4 => 2 | .b8 => 3

/-- Access size of a code (R167). -/
def sizeOf' (c : BitVec 2) : Size :=
  match c.toNat with
  | 0 => .b1 | 1 => .b2 | 2 => .b4 | _ => .b8

def AtomOp.code : AtomOp → BitVec 4
  | .swp => 0 | .add => 1 | .and => 2 | .or => 3 | .xor => 4 | .min => 5 | .max => 6 | .minn => 7 | .maxn => 8
  | .fadd => 9 | .fmax => 10

/-- Atomic operation of a code; 11 to 15 are illegal (R168). -/
def atomOpOf (c : BitVec 4) : Except DErr AtomOp :=
  match c.toNat with
  | 0 => .ok .swp | 1 => .ok .add | 2 => .ok .and | 3 => .ok .or | 4 => .ok .xor | 5 => .ok .min | 6 => .ok .max
  | 7 => .ok .minn | 8 => .ok .maxn | 9 => .ok .fadd | 10 => .ok .fmax
  | _ => .error .illegalValue

def Order.code : Order → BitVec 2
  | .rlx => 0 | .acq => 1 | .rel => 2 | .acqrel => 3

/-- Order of a code (R90). -/
def orderOf (c : BitVec 2) : Order :=
  match c.toNat with
  | 0 => .rlx | 1 => .acq | 2 => .rel | _ => .acqrel

def MarkKind.code : MarkKind → BitVec 2
  | .full => 0 | .acq => 1 | .rel => 2

/-- Kind of a MARK; 3 is illegal (R89, R339). -/
def markKindOf (c : BitVec 2) : Except DErr MarkKind :=
  match c.toNat with
  | 0 => .ok .full | 1 => .ok .acq | 2 => .ok .rel
  | _ => .error .illegalValue

def ElemT.code : ElemT → BitVec 4
  | .s8 => 0 | .n8 => 1 | .s16 => 2 | .n16 => 3 | .s32 => 4 | .n32 => 5 | .f16 => 6 | .bf16 => 7 | .f32 => 8
  | .s64 => 9 | .n64 => 10

/-- Element type of a code; 11 to 15 are illegal (R170). -/
def elemTOf (c : BitVec 4) : Except DErr ElemT :=
  match c.toNat with
  | 0 => .ok .s8 | 1 => .ok .n8 | 2 => .ok .s16 | 3 => .ok .n16 | 4 => .ok .s32 | 5 => .ok .n32 | 6 => .ok .f16
  | 7 => .ok .bf16 | 8 => .ok .f32 | 9 => .ok .s64 | 10 => .ok .n64
  | _ => .error .illegalValue

/-- The float types (R170). -/
def ElemT.isFloat : ElemT → Bool
  | .f16 | .bf16 | .f32 => true
  | _ => false

/-- The sets of element types of the vector group (R170). -/
inductive TSet where
  | all | int | flt
deriving DecidableEq, Repr

def TSet.has : TSet → ElemT → Bool
  | .all, _ => true
  | .int, t => !t.isFloat
  | .flt, t => t.isFloat

/-- Element type of a code within a set (R170). -/
def elemTIn (s : TSet) (c : BitVec 4) : Except DErr ElemT := do
  let t ← elemTOf c
  chk (s.has t) .illegalValue
  pure t

def RedOp.code : RedOp → BitVec 2
  | .add => 0 | .min => 1 | .max => 2

def redOpOf (c : BitVec 2) : Except DErr RedOp :=
  match c.toNat with
  | 0 => .ok .add | 1 => .ok .min | 2 => .ok .max
  | _ => .error .illegalValue

def QFmt.code : QFmt → BitVec 2
  | .bq8 => 0 | .bq4 => 1 | .bq16 => 2

def qfmtOf (c : BitVec 2) : Except DErr QFmt :=
  match c.toNat with
  | 0 => .ok .bq8 | 1 => .ok .bq4 | 2 => .ok .bq16
  | _ => .error .illegalValue

def BFmt.code : BFmt → BitVec 2
  | .trit => 0 | .s4 => 1 | .s8 => 2

def bfmtOf (c : BitVec 2) : Except DErr BFmt :=
  match c.toNat with
  | 0 => .ok .trit | 1 => .ok .s4 | 2 => .ok .s8
  | _ => .error .illegalValue

def SideReg.code : SideReg → BitVec 2
  | .m => 0 | .l => 1 | .c => 2

def sideOf (c : BitVec 2) : Except DErr SideReg :=
  match c.toNat with
  | 0 => .ok .m | 1 => .ok .l | 2 => .ok .c
  | _ => .error .illegalValue

/-! ### Register fields (R158) -/

def SReg.num : SReg → BitVec 6
  | .g n => BitVec.ofNat 6 n.val
  | .q n => BitVec.ofNat 6 (32 + n.val)

/-- A scalar register field; 40 to 63 are reserved (R158, R337). -/
def sreg (n : BitVec 6) : Except DErr SReg :=
  if h : n.toNat < 32 then .ok (.g ⟨n.toNat, h⟩)
  else if h : n.toNat - 32 < 8 then .ok (.q ⟨n.toNat - 32, h⟩)
  else .error .reservedReg

/-- A field that must name a general register: a queue is reserved there (R337). -/
def greg (n : BitVec 6) : Except DErr (Fin 32) :=
  if h : n.toNat < 32 then .ok ⟨n.toNat, h⟩ else .error .reservedReg

def gnum (n : Fin 32) : BitVec 6 := BitVec.ofNat 6 n.val

def VR.num : VR → BitVec 6
  | .v n => BitVec.ofNat 6 n.val
  | .p n => BitVec.ofNat 6 (48 + n.val)

/-- A vector register field; 56 to 63 are reserved (R158, R337). -/
def vreg (n : BitVec 6) : Except DErr VR :=
  if h : n.toNat < 48 then .ok (.v ⟨n.toNat, h⟩)
  else if h : n.toNat - 48 < 8 then .ok (.p ⟨n.toNat - 48, h⟩)
  else .error .reservedReg

/-- A vector register field that admits no port (R337). -/
def vonly (n : BitVec 6) : Except DErr (Fin 48) :=
  if h : n.toNat < 48 then .ok ⟨n.toNat, h⟩ else .error .reservedReg

/-- A plain index below 8 in a 6-bit field (R158). -/
def idx8 (n : BitVec 6) : Except DErr (Fin 8) :=
  if h : n.toNat < 8 then .ok ⟨n.toNat, h⟩ else .error .nonzeroField

def num8 (n : Fin 8) : BitVec 6 := BitVec.ofNat 6 n.val

/-! ### IMM and the words that follow -/

/-- No word follows: X = 00 (R154). -/
def noTail (t : Tail) : Except DErr Unit :=
  match t with
  | .nil => .ok ()
  | _ => .error .xNotAdmitted

/-- A whole IMM, replaced by the extension word, IMM then zero (R155). -/
def whole (f : Fields) (t : Tail) : Except DErr Off :=
  match t with
  | .nil => .ok (.imm f.imm)
  | .ext w => do zero f.imm; pure (.ext w)
  | .blk _ => .error .xNotAdmitted

/-- The block, with X = 10 (R154). -/
def blockOf (t : Tail) : Except DErr Blk :=
  match t with
  | .blk b => .ok b
  | _ => .error .xNotAdmitted

/-- The checks of step 4 on a scalar B operand whose IMM is only its value (R155, R336). -/
def sbChk (f : Fields) (t : Tail) : Except DErr Unit :=
  match t with
  | .nil => if f.b == 63 then .ok () else zero f.imm
  | .ext _ => do chk (f.b == 63) .xNotAdmitted; zero f.imm
  | .blk _ => .error .xNotAdmitted

/-- A scalar B operand (R158, R180). -/
def sbOf (f : Fields) (t : Tail) : Except DErr SB :=
  if f.b == 63 then
    match t with
    | .ext w => .ok (.ext w)
    | _ => .ok (.imm f.imm)
  else do pure (.reg (← sreg f.b))

/-- The checks of step 4 on a vector B operand with its value in IMM (R155, R171): under f16 and bf16, IMM[18:16] is
zero. -/
def vbChk (ty : ElemT) (f : Fields) (t : Tail) : Except DErr Unit :=
  match t with
  | .nil =>
    if f.b == 63 then chk (!((ty == .f16 || ty == .bf16) && f.imm.extractLsb' 16 3 != 0)) .nonzeroField
    else zero f.imm
  | .ext _ => do chk (f.b == 63) .xNotAdmitted; zero f.imm
  | .blk _ => .error .xNotAdmitted

/-- A vector B operand (R158, R171). -/
def vbOf (f : Fields) (t : Tail) : Except DErr VB :=
  if f.b == 63 then
    match t with
    | .ext w => .ok (.ext w)
    | _ => .ok (.imm f.imm)
  else do pure (.reg (← vreg f.b))

/-- B is not 63 in a register field (R336). -/
def notB63 (f : Fields) : Except DErr Unit := chk (f.b != 63) .b63

/-! ### Fixed words of parameter blocks (R338) -/

/-- A fixed word holds no marker and no bit outside `m` (R338). -/
def fixedWord (w m : Word) : Bool := !isMarker w && (w &&& ~~~m) == 0

/-- BLD: [8:0] KR, 1 to 256 (R226). -/
def bldP3 (p : Word) : Bool := fixedWord p 0x1FF && decide (1 ≤ p.bits 8 0) && decide (p.bits 8 0 ≤ 256)

/-- NSET: with NW = 0, bits [47:18] are zero (R231). -/
def nsetP3 (p : Word) : Bool :=
  fixedWord p 0xFFFFFFFFFFFF && (p.bit 17 || p.bits 47 18 == 0)

/-- ADRN: ACT 2 and 3, OUT 5 to 7, SMX with NRM and SMX with ACT are illegal (R237). -/
def adrnP3 (p : Word) : Bool :=
  fixedWord p 0xFFFF7F && decide (p.bits 4 3 ≤ 1) && decide (p.bits 2 0 ≤ 4)
    && !(p.bit 5 && (p.bit 6 || p.bits 4 3 != 0))

/-- PCFG: [0] DIR (R216). -/
def pcfgP3 (p : Word) : Bool := fixedWord p 1

/-- CPY: LM bits of P1 and P0 (R249). -/
def cpyP3 (p : Word) : Bool := fixedWord p 0x3000000000000000

/-- CPYX: in the record form ESZ is zero (R250). -/
def cpyxP3 (p : Word) : Bool := fixedWord p 0x300FFFFFFFFFFFFB && !(p.bit 3 && p.bits 1 0 != 0)

/-- POOL: OUT 3 is illegal (R253). -/
def poolP3 (p : Word) : Bool := fixedWord p 3 && p.bits 1 0 != 3

/-- DECMP: SLOTB is at least 1 (R257). -/
def decmpP3 (p : Word) : Bool := fixedWord p 0x77FFFF0F && p.bits 23 8 != 0

/-- SUPD: LM bit of P0 and the table id (R261). -/
def supdP3 (p : Word) : Bool := fixedWord p 0x1000000000000FFF

/-- A record size: a multiple of 8 from 16 to 4,112 (R259). -/
def rszOk (r : Nat) : Bool := r % 8 == 0 && decide (16 ≤ r) && decide (r ≤ 4112)

/-- BUCK: table id and RSZ (R260). -/
def buckP3 (p : Word) : Bool := fixedWord p 0xFFFFFFF && rszOk (p.bits 27 12)

/-- XALL: table id, export, ASYNC and RSZ (R262). -/
def xallP3 (p : Word) : Bool := fixedWord p 0x7FFFFFFFF && rszOk (p.bits 34 19)

/-- COLL: SZ and OP belong to ASYNC = 1 only, where OP is 1 or 5 to 10 and .fadd and .fmax take 4 bytes (R263, R168). -/
def collP3 (p : Word) : Bool :=
  fixedWord p 0x1FFFFFFF &&
    (if p.bit 14 then
      decide (2 ≤ p.bits 7 6) && (p.bits 5 2 == 1 || (decide (5 ≤ p.bits 5 2) && decide (p.bits 5 2 ≤ 10)))
        && !(decide (9 ≤ p.bits 5 2) && p.bits 7 6 != 2)
    else p.bits 7 2 == 0)

/-- WALK: N 1 to 64, PGLOG 0 to 8 (R252). -/
def walkP3 (p : Word) : Bool :=
  fixedWord p 0xF7F && decide (1 ≤ p.bits 6 0) && decide (p.bits 6 0 ≤ 64) && decide (p.bits 11 8 ≤ 8)

/-- RLD: a zero word (R265). -/
def rldP3 (p : Word) : Bool := p == 0

/-- RRED: OP 1 to 10, SZ 2 or 3, .fadd and .fmax with SZ 2 (R266). -/
def rredP3 (p : Word) : Bool :=
  fixedWord p 0x3F && decide (1 ≤ p.bits 3 0) && decide (p.bits 3 0 ≤ 10) && decide (2 ≤ p.bits 5 4)
    && !(decide (9 ≤ p.bits 3 0) && p.bits 5 4 != 2)

/-- GATH and RST: P3 is a variable word (R251, R264). -/
def anyP3 (_ : Word) : Bool := true

/-! ### Forms shared by the opcodes of a group -/

/-- Nothing but the opcode (R162). -/
def formNone (i : Instr) (f : Fields) (t : Tail) : Except DErr Instr := do
  noTail t; zero f.d; zero f.a; zero f.b; zero f.f; zero f.imm
  pure i

/-- `D, A, B or 63` of the scalar ALU, F zero (R165). -/
def formAlu (mk : SReg → SReg → SB → Instr) (f : Fields) (t : Tail) : Except DErr Instr := do
  zero f.f; sbChk f t
  pure (mk (← sreg f.d) (← sreg f.a) (← sbOf f t))

/-- `D, A` of the scalar ALU (R165). -/
def formDA (mk : SReg → SReg → Instr) (f : Fields) (t : Tail) : Except DErr Instr := do
  noTail t; zero f.b; zero f.f; zero f.imm
  pure (mk (← sreg f.d) (← sreg f.a))

/-- `A` alone, a scalar register. -/
def formA (mk : SReg → Instr) (f : Fields) (t : Tail) : Except DErr Instr := do
  noTail t; zero f.d; zero f.b; zero f.f; zero f.imm
  pure (mk (← sreg f.a))

/-- `D, A, B or 63` of the vector group (R170, R171). -/
def formV3 (s : TSet) (mk : ElemT → VR → VR → VB → Instr) (f : Fields) (t : Tail) : Except DErr Instr := do
  let ty ← elemTIn s f.f
  vbChk ty f t
  pure (mk ty (← vreg f.d) (← vreg f.a) (← vbOf f t))

/-- `D, A` of the vector group (R170). -/
def formV2 (s : TSet) (mk : ElemT → VR → VR → Instr) (f : Fields) (t : Tail) : Except DErr Instr := do
  noTail t
  let ty ← elemTIn s f.f
  zero f.b; zero f.imm
  pure (mk ty (← vreg f.d) (← vreg f.a))

/-- An engine or remote command: F[0] is .ev and the block's fixed word is checked (R173, R338). -/
def formCmd (ok : Word → Bool) (mk : Bool → Blk → Instr) (f : Fields) (t : Tail) : Except DErr Instr := do
  let b ← blockOf t
  zero f.d; zero f.a; zero f.b; zero (f.f.extractLsb' 1 3); zero f.imm
  chk (ok b.p3) .block
  pure (mk (f.f.getLsbD 0) b)

/-- A load (R167): F holds the size, the sign and .lm. -/
def formLd (f : Fields) (t : Tail) : Except DErr Instr := do
  zero f.b
  let k ← whole f t
  pure (.ld (f.f.getLsbD 2) (sizeOf' (f.f.extractLsb' 0 2)) (f.f.getLsbD 3) (← sreg f.d) (← sreg f.a) k)

/-- A store (R167): F[2] is zero. -/
def formSt (f : Fields) (t : Tail) : Except DErr Instr := do
  chk (!f.f.getLsbD 2) .nonzeroField; zero f.b
  let k ← whole f t
  pure (.st (sizeOf' (f.f.extractLsb' 0 2)) (f.f.getLsbD 3) (← sreg f.d) (← sreg f.a) k)

/-- LDM and STM (R167, R336): n from 1 to 31; D + n ≤ 32 when D is below 32. -/
def formM (mk : Bool → Fin 32 → BitVec 5 → SReg → Off → Instr) (f : Fields) (t : Tail) : Except DErr Instr := do
  zero (f.f.extractLsb' 0 3)
  chk (decide (1 ≤ f.b.toNat) && decide (f.b.toNat ≤ 31)) .illegalValue
  let k ← whole f t
  chk (decide (32 ≤ f.d.toNat) || decide (f.d.toNat + f.b.toNat ≤ 32)) .limit
  pure (mk (f.f.getLsbD 3) (← greg f.d) (f.b.extractLsb' 0 5) (← sreg f.a) k)

/-- The IMM of an atomic (R168): size 4 or 8 bytes; .fadd and .fmax take 4. -/
def atomChk (op : AtomOp) (f : Fields) : Except DErr Unit := do
  zero (f.imm.extractLsb' 7 12)
  chk (f.imm.getLsbD 5) .illegalValue
  chk (!((op == .fadd || op == .fmax) && f.imm.getLsbD 4)) .illegalValue

/-- WAITC (R164). -/
def formWaitc (f : Fields) (t : Tail) : Except DErr Instr := do
  noTail t; zero f.d; zero f.a; zero f.b; zero f.f
  pure (.waitc (f.imm.extractLsb' 15 4) (f.imm.extractLsb' 11 4) (f.imm.extractLsb' 7 4) (f.imm.extractLsb' 4 3)
    (f.imm.extractLsb' 0 4))

/-- BFX and BFI (R166): B is 63, lo + w ≤ 64 and w ≥ 1. -/
def bfChk (f : Fields) (t : Tail) : Except DErr Unit := do
  noTail t
  chk (f.b == 63) .illegalValue
  zero (f.imm.extractLsb' 13 6)
  chk (decide (1 ≤ (f.imm.extractLsb' 6 7).toNat)) .illegalValue
  chk (decide ((f.imm.extractLsb' 0 6).toNat + (f.imm.extractLsb' 6 7).toNat ≤ 64)) .limit

/-- The spill slot and count of SPILL and FILL (R167, R336). -/
def spillChk (reg : BitVec 6) (f : Fields) : Except DErr Unit := do
  zero f.f
  chk (decide (1 ≤ f.b.toNat) && decide (f.b.toNat ≤ 31)) .illegalValue
  chk (decide (32 ≤ reg.toNat) || decide (reg.toNat + f.b.toNat ≤ 32)) .limit
  chk (decide (f.imm.toNat + f.b.toNat ≤ 512)) .limit

/-- ACFG's extension word (R172): type, columns, rows and base. -/
def acfgOk (w : Word) : Bool :=
  w.bits 63 31 == 0 && decide (1 ≤ w.bits 29 21) && decide (w.bits 29 21 ≤ 256) && decide (1 ≤ w.bits 20 10)
    && decide (w.bits 9 0 + w.bits 20 10 ≤ 1024)

/-- MOV, MFSR and MTSR share an opcode (R160, R165). -/
def formMov (f : Fields) (t : Tail) : Except DErr Instr := do
  noTail t; zero f.b
  match f.f.toNat with
  | 0 => do zero f.imm; pure (.mov (← sreg f.d) (← sreg f.a))
  | 1 => do zero f.a; zero (f.imm.extractLsb' 8 11); pure (.mfsr (← sreg f.d) (f.imm.extractLsb' 0 8))
  | 2 => do zero f.d; zero (f.imm.extractLsb' 8 11); pure (.mtsr (f.imm.extractLsb' 0 8) (← sreg f.a))
  | _ => .error .illegalValue

/-- BBIT (R162). -/
def formBbit (f : Fields) (t : Tail) : Except DErr Instr := do
  zero f.d
  chk (decide (f.f.toNat ≤ 1)) .illegalValue
  let k ← whole f t
  let a ← sreg f.a
  pure (if f.f == 0 then .bbitEq a f.b k else .bbitNe a f.b k)

/-- VCMP (R163, R170, R171): B = 63 takes the extension word; codes 4, 5, 8 and 9 are illegal. -/
def formVcmp (f : Fields) (t : Tail) : Except DErr Instr := do
  zero f.d
  let ty ← elemTIn .all f.f
  zero (f.imm.extractLsb' 4 15)
  let c ← condOf (f.imm.extractLsb' 0 4)
  chk (!(c == .ltn || c == .gen || c == .len || c == .gtn)) .illegalValue
  match t with
  | .nil => do chk (f.b != 63) .xNotAdmitted; pure (.vcmp ty c (← vreg f.a) (.reg (← vreg f.b)))
  | .ext w => do chk (f.b == 63) .xNotAdmitted; pure (.vcmp ty c (← vreg f.a) (.ext w))
  | .blk _ => .error .xNotAdmitted

/-- VSHUF (R170, R337): patterns 0 to 4 take B = 0; the interleaves write no port. -/
def formVshuf (f : Fields) (t : Tail) : Except DErr Instr := do
  noTail t
  let ty ← elemTIn .all f.f
  match f.imm.toNat with
  | 0 => do zero f.b; pure (.vshuf ty .rev (← vreg f.d) (← vreg f.a))
  | 1 => do zero f.b; pure (.vshuf ty .ilo (.v (← vonly f.d)) (← vreg f.a))
  | 2 => do zero f.b; pure (.vshuf ty .ihi (.v (← vonly f.d)) (← vreg f.a))
  | 3 => do zero f.b; pure (.vshuf ty .even (← vreg f.d) (← vreg f.a))
  | 4 => do zero f.b; pure (.vshuf ty .odd (← vreg f.d) (← vreg f.a))
  | 5 => do notB63 f; pure (.vshuf ty (.rot (← sreg f.b)) (← vreg f.d) (← vreg f.a))
  | _ => .error .illegalValue

/-- FLAGW (R169): the extension word is the target of B = 63, and IMM is then zero. -/
def formFlagw (f : Fields) (t : Tail) : Except DErr Instr := do
  zero f.f
  match t with
  | .nil => do
    chk (f.b != 63) .xNotAdmitted
    let d ← sreg f.d
    let a ← sreg f.a
    pure (.flagw d a (.reg (← sreg f.b) f.imm))
  | .ext w => do
    chk (f.b == 63) .xNotAdmitted
    zero f.imm
    pure (.flagw (← sreg f.d) (← sreg f.a) (.ext w))
  | .blk _ => .error .xNotAdmitted

/-- An atomic (R167, R168). -/
def formAmo (f : Fields) (t : Tail) : Except DErr Instr := do
  noTail t
  let op ← atomOpOf f.f
  notB63 f; atomChk op f
  pure (.amo op (f.imm.getLsbD 4) (f.imm.getLsbD 6) (orderOf (f.imm.extractLsb' 2 2)) (scopeOf (f.imm.extractLsb' 0 2))
    (← sreg f.d) (← sreg f.a) (← sreg f.b))

def formCas (f : Fields) (t : Tail) : Except DErr Instr := do
  noTail t; zero f.f; notB63 f; atomChk .swp f
  pure (.cas (f.imm.getLsbD 4) (f.imm.getLsbD 6) (orderOf (f.imm.extractLsb' 2 2)) (scopeOf (f.imm.extractLsb' 0 2))
    (← sreg f.d) (← sreg f.a) (← sreg f.b))

def formRed (f : Fields) (t : Tail) : Except DErr Instr := do
  noTail t; zero f.d
  let op ← atomOpOf f.f
  chk (op != .swp) .illegalValue
  notB63 f; atomChk op f
  pure (.red op (f.imm.getLsbD 4) (f.imm.getLsbD 6) (orderOf (f.imm.extractLsb' 2 2)) (scopeOf (f.imm.extractLsb' 0 2))
    (← sreg f.a) (← sreg f.b))

/-! ### The opcode map (R161 to R174) -/

/-- Control, 0x01 to 0x0F (R162). -/
def decodeControl (f : Fields) (t : Tail) : Except DErr Instr :=
  match f.op.toNat with
  | 0x01 => formNone .nop f t
  | 0x02 => do zero f.d; zero f.a; zero f.b; zero f.f; pure (.br (← whole f t))
  | 0x03 => do
    zero f.d; notB63 f
    let c ← condOf f.f
    let k ← whole f t
    pure (.bcc c (← sreg f.a) (← sreg f.b) k)
  | 0x04 => formBbit f t
  | 0x05 => do
    zero f.a; zero f.b; zero f.f
    let k ← whole f t
    pure (.call (← greg f.d) k)
  | 0x06 => do
    zero f.d; zero f.b; zero f.f
    let k ← whole f t
    pure (.jmp (← sreg f.a) k)
  | 0x07 => do
    noTail t; zero f.d; zero f.b; zero (f.f.extractLsb' 1 3); chk (decide (1 ≤ f.imm.toInt)) .limit
    pure (.loop (f.f.getLsbD 0) (← sreg f.a) f.imm)
  | 0x08 => do
    noTail t; zero f.a; zero (f.f.extractLsb' 1 3); chk (decide (1 ≤ f.imm.toInt)) .limit
    pure (.loopi (f.f.getLsbD 0) (f.d ++ f.b) f.imm)
  | 0x09 => do
    noTail t; zero f.d; zero f.b; zero f.f
    pure (.rep (← sreg f.a) f.imm)
  | 0x0A => do
    noTail t; zero f.d; zero f.a; zero f.b; zero f.f; zero (f.imm.extractLsb' 2 17)
    pure (.lbrk (f.imm.extractLsb' 0 2))
  | 0x0B => do
    noTail t; zero f.d; zero f.a; zero f.b; zero f.f; zero (f.imm.extractLsb' 16 3)
    pure (.trap (f.imm.extractLsb' 0 16))
  | 0x0C => formNone .ueret f t
  | 0x0D => formWaitc f t
  | 0x0E => formNone .notify f t
  | 0x0F => formNone .yield f t
  | _ => .error .notAssigned

/-- Scalar ALU, 0x10 to 0x2F (R165, R166). -/
def decodeAlu (f : Fields) (t : Tail) : Except DErr Instr :=
  match f.op.toNat with
  | 0x10 => formAlu .add f t
  | 0x11 => formAlu .sub f t
  | 0x12 => formAlu .mul f t
  | 0x13 => formAlu .mulh f t
  | 0x14 => formAlu .mulhn f t
  | 0x15 => formAlu .div f t
  | 0x16 => formAlu .divn f t
  | 0x17 => formAlu .rem f t
  | 0x18 => formAlu .remn f t
  | 0x19 => formAlu .and f t
  | 0x1A => formAlu .or f t
  | 0x1B => formAlu .xor f t
  | 0x1C => formAlu .andn f t
  | 0x1D => formAlu .shl f t
  | 0x1E => formAlu .shr f t
  | 0x1F => formAlu .sar f t
  | 0x20 => formAlu .ror f t
  | 0x21 => formAlu .min f t
  | 0x22 => formAlu .max f t
  | 0x23 => formAlu .minn f t
  | 0x24 => formAlu .maxn f t
  | 0x25 => do
    let c ← condOf f.f
    sbChk f t
    pure (.cmp c (← sreg f.d) (← sreg f.a) (← sbOf f t))
  | 0x26 => formDA .clz f t
  | 0x27 => formDA .ctz f t
  | 0x28 => formDA .popc f t
  | 0x29 => do
    zero (f.f.extractLsb' 1 3); sbChk f t
    pure (.ext (f.f.getLsbD 0) (← sreg f.d) (← sreg f.a) (← sbOf f t))
  | 0x2A => do
    zero (f.f.extractLsb' 1 3); bfChk f t
    pure (.bfx (f.f.getLsbD 0) (← sreg f.d) (← sreg f.a) (f.imm.extractLsb' 0 6) (f.imm.extractLsb' 6 7))
  | 0x2B => do
    zero f.f; bfChk f t
    pure (.bfi (← greg f.d) (← sreg f.a) (f.imm.extractLsb' 0 6) (f.imm.extractLsb' 6 7))
  | 0x2C => do
    zero f.a; zero f.f; chk (f.b == 63) .illegalValue
    let v ← whole f t
    pure (.ldi (← sreg f.d) v)
  | 0x2D => formMov f t
  | 0x2E => do
    zero (f.f.extractLsb' 1 3); sbChk f t
    let d ← sreg f.d
    let a ← sreg f.a
    let b ← sbOf f t
    pure (if f.f.getLsbD 0 then .bclr d a b else .bset d a b)
  | 0x2F => do
    zero (f.f.extractLsb' 2 2); sbChk f t
    pure (.crc (sizeOf' (f.f.extractLsb' 0 2)) (← sreg f.d) (← sreg f.a) (← sbOf f t))
  | _ => .error .notAssigned

/-- Scalar memory, 0x30 to 0x3D (R167, R168). -/
def decodeMem (f : Fields) (t : Tail) : Except DErr Instr :=
  match f.op.toNat with
  | 0x30 => formLd f t
  | 0x31 => formSt f t
  | 0x32 => do
    chk (!f.f.getLsbD 3) .nonzeroField; zero (f.b.extractLsb' 2 4)
    let k ← whole f t
    pure (.lda (f.f.getLsbD 2) (sizeOf' (f.f.extractLsb' 0 2)) (scopeOf (f.b.extractLsb' 0 2)) (← sreg f.d)
      (← sreg f.a) k)
  | 0x33 => do
    zero (f.f.extractLsb' 2 2); zero (f.b.extractLsb' 2 4)
    let k ← whole f t
    pure (.str (sizeOf' (f.f.extractLsb' 0 2)) (scopeOf (f.b.extractLsb' 0 2)) (← sreg f.d) (← sreg f.a) k)
  | 0x34 => formM .ldm f t
  | 0x35 => formM .stm f t
  | 0x36 => formAmo f t
  | 0x37 => formCas f t
  | 0x38 => formRed f t
  | 0x39 => do
    noTail t; zero f.d; spillChk f.a f
    pure (.spill (f.imm.extractLsb' 0 9) (← greg f.a) (f.b.extractLsb' 0 5))
  | 0x3A => do
    noTail t; zero f.a; spillChk f.d f
    pure (.fill (← greg f.d) (f.imm.extractLsb' 0 9) (f.b.extractLsb' 0 5))
  | 0x3B => do
    zero f.d; zero f.b; chk (decide (f.f.toNat ≤ 1)) .illegalValue
    let k ← whole f t
    pure (.pref (f.f.getLsbD 0) (← sreg f.a) k)
  | 0x3C => formNone .invl1 f t
  | 0x3D => do
    noTail t; zero f.d; zero f.b; zero f.f
    pure (.layer (← sreg f.a) f.imm)
  | _ => .error .notAssigned

/-- Ordering and synchronisation, 0x40 to 0x46 (R169). -/
def decodeOrder (f : Fields) (t : Tail) : Except DErr Instr :=
  match f.op.toNat with
  | 0x40 => do
    noTail t; zero f.d; zero f.a; zero f.b; zero f.imm
    let k ← markKindOf (f.f.extractLsb' 0 2)
    pure (.mark k (scopeOf (f.f.extractLsb' 2 2)))
  | 0x41 => do
    zero f.a; zero f.f
    let n ← idx8 f.d
    sbChk f t
    pure (.tpost n (← sbOf f t))
  | 0x42 => do
    zero f.a; zero f.f
    let n ← idx8 f.d
    sbChk f t
    pure (.twait n (← sbOf f t))
  | 0x43 => do
    noTail t; zero f.a; zero f.b; zero f.f; zero (f.imm.extractLsb' 3 16)
    pure (.qstat (← sreg f.d) (f.imm.extractLsb' 0 3).toFin)
  | 0x44 => do
    noTail t; zero f.d; zero f.a; zero f.b; zero f.f
    if h : f.imm.toNat < 9 then pure (.bar ⟨f.imm.toNat, h⟩) else .error .illegalValue
  | 0x45 => do
    noTail t; zero f.a; zero f.b; zero f.f; zero f.imm
    pure (.step (← sreg f.d))
  | 0x46 => formFlagw f t
  | _ => .error .notAssigned

/-- Tasks and watches, 0x50 to 0x59 (R174). -/
def decodeTask (f : Fields) (t : Tail) : Except DErr Instr := do
  noTail t; zero f.f
  match f.op.toNat with
  | 0x50 => do
    zero f.b; zero (f.imm.extractLsb' 6 13)
    pure (.launch (← sreg f.d) (← sreg f.a) (f.imm.extractLsb' 0 6))
  | 0x51 => do zero f.d; zero f.b; zero f.imm; pure (.cardw (← sreg f.a))
  | 0x52 => do zero f.b; zero f.imm; pure (.warm (← sreg f.d) (← sreg f.a))
  | 0x53 => do zero f.d; zero f.b; zero f.imm; pure (.wdis (← sreg f.a))
  | 0x54 => do zero f.d; notB63 f; pure (.trigrd (← sreg f.a) (← sreg f.b) f.imm)
  | 0x55 => do
    zero f.d; zero f.b; zero (f.imm.extractLsb' 4 15)
    pure (.pqpush (f.imm.extractLsb' 0 4).toFin (← sreg f.a))
  | 0x56 => do
    zero f.a; zero f.b; zero (f.imm.extractLsb' 4 15)
    pure (.pqpop (← sreg f.d) (f.imm.extractLsb' 0 4).toFin)
  | 0x57 => do
    zero f.d; zero f.b; zero (f.imm.extractLsb' 2 17)
    pure (.prio (← sreg f.a) (f.imm.extractLsb' 0 2).toFin)
  | 0x58 => do notB63 f; zero f.imm; pure (.graph (← sreg f.d) (← sreg f.a) (← sreg f.b))
  | 0x59 => do
    zero f.d; zero f.b; zero (f.imm.extractLsb' 1 18)
    pure (.uevset (← sreg f.a) (f.imm.getLsbD 0))
  | _ => .error .notAssigned

/-- Vector arithmetic, 0x60 to 0x77 (R170). -/
def decodeVecArith (f : Fields) (t : Tail) : Except DErr Instr :=
  match f.op.toNat with
  | 0x60 => formV3 .all .vadd f t
  | 0x61 => formV3 .all .vsub f t
  | 0x62 => formV3 .all .vmul f t
  | 0x63 => do
    let ty ← elemTIn .all f.f
    vbChk ty f t
    pure (.vfma ty (← vonly f.d) (← vreg f.a) (← vbOf f t))
  | 0x64 => formV3 .all .vmin f t
  | 0x65 => formV3 .all .vmax f t
  | 0x66 => formV2 .all .vabs f t
  | 0x67 => formV2 .all .vneg f t
  | 0x68 => formV3 .int .vand f t
  | 0x69 => formV3 .int .vor f t
  | 0x6A => formV3 .int .vxor f t
  | 0x6B => formV2 .int .vnot f t
  | 0x6C => formV3 .int .vshl f t
  | 0x6D => formV3 .int .vshr f t
  | 0x6E => formV3 .int .vsar f t
  | 0x6F => formV3 .int .vadds f t
  | 0x70 => formV3 .int .vsubs f t
  | 0x71 => formV3 .flt .vdiv f t
  | 0x72 => formV2 .flt .vsqrt f t
  | 0x73 => formV2 .flt .vrcp f t
  | 0x74 => formV2 .flt .vrsq f t
  | 0x75 => formV2 .flt .vexp2 f t
  | 0x76 => formV2 .flt .vlog2 f t
  | 0x77 => do
    noTail t
    let ty ← elemTIn .all f.f
    zero f.b; zero (f.imm.extractLsb' 4 15)
    let u ← elemTOf (f.imm.extractLsb' 0 4)
    pure (.vcvt ty u (← vreg f.d) (← vreg f.a))
  | _ => .error .notAssigned

/-- Masks, lanes, memory, top-k, ports and blocks, 0x78 to 0x8F (R170). -/
def decodeVecOther (f : Fields) (t : Tail) : Except DErr Instr :=
  match f.op.toNat with
  | 0x78 => formVcmp f t
  | 0x79 => formNone .minv f t
  | 0x7A => formNone .mpop f t
  | 0x7B => do noTail t; zero f.d; zero f.a; zero f.b; zero f.f; pure (.mbr f.imm)
  | 0x7C => do
    noTail t; zero f.a; zero f.b; zero f.f; zero (f.imm.extractLsb' 2 17)
    pure (.mrd (← sreg f.d) (f.imm.extractLsb' 0 2).toFin)
  | 0x7D => do
    noTail t; zero f.d; zero f.b; zero f.f; zero (f.imm.extractLsb' 2 17)
    pure (.mwr (f.imm.extractLsb' 0 2).toFin (← sreg f.a))
  | 0x7E => formV3 .all .vsel f t
  | 0x7F => do
    noTail t
    let ty ← elemTIn .all f.f
    zero f.b; zero (f.imm.extractLsb' 2 17)
    let o ← redOpOf (f.imm.extractLsb' 0 2)
    pure (.vred ty o (← vreg f.d) (← vreg f.a))
  | 0x80 => do
    noTail t
    let ty ← elemTIn .all f.f
    zero f.b; zero f.imm
    pure (.vbcast ty (← vreg f.d) (← sreg f.a))
  | 0x81 => do
    noTail t
    let ty ← elemTIn .all f.f
    zero f.b; zero (f.imm.extractLsb' 8 11)
    pure (.vmovs ty (← sreg f.d) (← vreg f.a) (f.imm.extractLsb' 0 8))
  | 0x82 => do
    noTail t
    let ty ← elemTIn .all f.f
    zero f.b; zero (f.imm.extractLsb' 8 11)
    pure (.vins ty (← vreg f.d) (← sreg f.a) (f.imm.extractLsb' 0 8))
  | 0x83 => do
    noTail t
    let ty ← elemTIn .all f.f
    notB63 f; zero f.imm
    pure (.vperm ty (← vreg f.d) (← vreg f.a) (← vreg f.b))
  | 0x84 => formVshuf f t
  | 0x85 => do
    noTail t
    let ty ← elemTIn .int f.f
    zero f.b; zero f.imm
    pure (.viota ty (← vreg f.d) (← sreg f.a))
  | 0x86 => do
    let ty ← elemTIn .all f.f
    zero f.b
    let k ← whole f t
    pure (.vld ty (← vreg f.d) (← sreg f.a) k)
  | 0x87 => do
    let ty ← elemTIn .all f.f
    zero f.b
    let k ← whole f t
    pure (.vst ty (← vreg f.d) (← sreg f.a) k)
  | 0x88 => do
    noTail t
    let ty ← elemTIn .all f.f
    notB63 f; zero (f.imm.extractLsb' 1 18)
    pure (.vgath ty (f.imm.getLsbD 0) (← vreg f.d) (← sreg f.a) (← vreg f.b))
  | 0x89 => do
    noTail t
    let ty ← elemTIn .all f.f
    notB63 f; zero f.imm
    pure (.vscat ty (← vreg f.d) (← sreg f.a) (← vreg f.b))
  | 0x8A => do
    noTail t; zero f.d
    let ty ← elemTIn .all f.f
    chk (ty == .s32 || ty == .f32) .illegalValue
    notB63 f; zero (f.imm.extractLsb' 9 10)
    pure (.vtopk ty (f.imm.getLsbD 0) (f.imm.extractLsb' 1 7) (f.imm.getLsbD 8) (← vreg f.a) (← vreg f.b))
  | 0x8B => do
    noTail t; zero f.a; zero f.b; zero f.f; zero (f.imm.extractLsb' 1 18)
    pure (.vtopkr (← vreg f.d) (f.imm.getLsbD 0))
  | 0x8C => do
    let b ← blockOf t
    zero f.a; zero f.b; zero f.f; zero f.imm
    let n ← idx8 f.d
    chk (pcfgP3 b.p3) .block
    pure (.pcfg n b)
  | 0x8D => do
    noTail t; zero f.a; zero f.b; zero f.f; zero f.imm
    pure (.prst (← idx8 f.d))
  | 0x8E => do
    noTail t; zero f.b; chk (f.f == 8) .illegalValue; zero (f.imm.extractLsb' 2 17)
    let q ← qfmtOf (f.imm.extractLsb' 0 2)
    pure (.vqnt q (← vreg f.d) (← vreg f.a))
  | 0x8F => do
    noTail t; zero f.b; chk (f.f == 8) .illegalValue; zero (f.imm.extractLsb' 2 17)
    let q ← qfmtOf (f.imm.extractLsb' 0 2)
    pure (.vdq q (← vreg f.d) (← vreg f.a))
  | _ => .error .notAssigned

/-- Matrix, 0xA0 to 0xA9 (R172). -/
def decodeMatrix (f : Fields) (t : Tail) : Except DErr Instr :=
  match f.op.toNat with
  | 0xA0 => do
    let b ← blockOf t
    zero (f.d.extractLsb' 1 5); zero f.a; zero f.b; zero f.imm
    chk (!f.f.getLsbD 3) .nonzeroField
    let m ← bfmtOf (f.f.extractLsb' 0 2)
    chk (bldP3 b.p3) .matrixBlock
    pure (.bld m (f.f.getLsbD 2) (f.d.extractLsb' 0 1).toFin b)
  | 0xA1 => do
    let b ← blockOf t
    zero f.d; zero f.a; zero f.b; zero f.f
    if h : f.imm.toNat < 6 then do
      chk (nsetP3 b.p3) .matrixBlock
      pure (.nset ⟨f.imm.toNat, h⟩ b)
    else .error .illegalValue
  | 0xA2 => do
    noTail t; zero f.d; zero f.a; zero f.b; zero (f.f.extractLsb' 1 3); zero f.imm
    pure (.ngo (f.f.getLsbD 0))
  | 0xA3 =>
    match t with
    | .ext w => do
      zero f.a; zero f.b; zero (f.f.extractLsb' 1 3); zero f.imm
      let n ← idx8 f.d
      chk (acfgOk w) .limit
      pure (.acfg (w.getLsbD 30) (f.f.getLsbD 0) n (w.extractLsb' 0 10) (w.extractLsb' 10 11) (w.extractLsb' 21 9))
    | _ => .error .xNotAdmitted
  | 0xA4 => do
    noTail t; zero f.a; zero f.b; zero f.f; zero f.imm
    pure (.azero (← idx8 f.d))
  | 0xA5 => do
    let b ← blockOf t
    zero f.d; zero f.b; zero (f.f.extractLsb' 1 3); zero f.imm
    let n ← idx8 f.a
    chk (adrnP3 b.p3) .matrixBlock
    pure (.adrn (f.f.getLsbD 0) n b)
  | 0xA6 => do
    noTail t; notB63 f; zero f.f; zero (f.imm.extractLsb' 2 17)
    let n ← idx8 f.a
    let s ← sideOf (f.imm.extractLsb' 0 2)
    pure (.smxr s (← sreg f.d) n (← sreg f.b))
  | 0xA7 => do
    noTail t; notB63 f; zero f.f; zero (f.imm.extractLsb' 2 17)
    let n ← idx8 f.d
    let s ← sideOf (f.imm.extractLsb' 0 2)
    pure (.smxw s n (← sreg f.a) (← sreg f.b))
  | 0xA8 => do
    noTail t; zero f.d; zero f.b; zero f.f; zero (f.imm.extractLsb' 4 15)
    pure (.ftset (f.imm.extractLsb' 0 4).toFin (← sreg f.a))
  | 0xA9 => do
    noTail t; zero f.b; zero (f.f.extractLsb' 1 3)
    let n ← idx8 f.d
    pure (.ald (f.f.getLsbD 0) n (← sreg f.a) (.imm f.imm))
  | _ => .error .notAssigned

/-- Engine and remote commands, 0xB0 to 0xB9 and 0xC0 to 0xC3 (R173, R243). -/
def decodeEngine (f : Fields) (t : Tail) : Except DErr Instr :=
  match f.op.toNat with
  | 0xB0 => formCmd cpyP3 .cpy f t
  | 0xB1 => formCmd cpyxP3 .cpyx f t
  | 0xB2 => formCmd anyP3 .gath f t
  | 0xB3 => formCmd poolP3 .pool f t
  | 0xB4 => formCmd decmpP3 .decmp f t
  | 0xB5 => formCmd supdP3 .supd f t
  | 0xB6 => formCmd buckP3 .buck f t
  | 0xB7 => formCmd xallP3 .xall f t
  | 0xB8 => formCmd collP3 .coll f t
  | 0xB9 => formCmd walkP3 .walk f t
  | 0xC0 => formCmd anyP3 .rst f t
  | 0xC1 => formCmd rldP3 .rld f t
  | 0xC2 => formCmd rredP3 .rred f t
  | 0xC3 => do
    noTail t; zero f.a; zero f.b; zero f.f; zero (f.imm.extractLsb' 4 15)
    pure (.stepq (← sreg f.d) (f.imm.extractLsb' 0 4).toFin)
  | _ => .error .notAssigned

/-- System, 0xE0 to 0xE7 (R174). -/
def decodeSystem (f : Fields) (t : Tail) : Except DErr Instr :=
  match f.op.toNat with
  | 0xE0 => do
    noTail t; zero f.b; zero f.f
    pure (.sysrd (← sreg f.d) (← sreg f.a) f.imm)
  | 0xE1 => do
    noTail t; zero f.d; notB63 f; zero f.f
    pure (.syswr (← sreg f.a) (← sreg f.b) f.imm)
  | 0xE2 => formNone .eret f t
  | 0xE3 => formNone .idle f t
  | 0xE4 => formA .ctxsv f t
  | 0xE5 => formA .ctxld f t
  | 0xE6 => formA .preempt f t
  | 0xE7 => formDA .evrd f t
  | _ => .error .notAssigned

/-- The opcodes that R161 assigns (R334). -/
def opAssigned (op : Nat) : Bool :=
  (decide (1 ≤ op) && decide (op ≤ 0x3D)) || (decide (0x40 ≤ op) && decide (op ≤ 0x46))
    || (decide (0x50 ≤ op) && decide (op ≤ 0x59)) || (decide (0x60 ≤ op) && decide (op ≤ 0x8F))
    || (decide (0xA0 ≤ op) && decide (op ≤ 0xA9)) || (decide (0xB0 ≤ op) && decide (op ≤ 0xB9))
    || (decide (0xC0 ≤ op) && decide (op ≤ 0xC3)) || (decide (0xE0 ≤ op) && decide (op ≤ 0xE7))

/-- The groups of the opcode map (R161). -/
def decodeGroup (f : Fields) (t : Tail) : Except DErr Instr :=
  if f.op.toNat < 0x10 then decodeControl f t
  else if f.op.toNat < 0x30 then decodeAlu f t
  else if f.op.toNat < 0x40 then decodeMem f t
  else if f.op.toNat < 0x50 then decodeOrder f t
  else if f.op.toNat < 0x60 then decodeTask f t
  else if f.op.toNat < 0x78 then decodeVecArith f t
  else if f.op.toNat < 0xA0 then decodeVecOther f t
  else if f.op.toNat < 0xB0 then decodeMatrix f t
  else if f.op.toNat < 0xE0 then decodeEngine f t
  else decodeSystem f t

/-- The guard fields: zero unless GE = 1 (R157). -/
def decodeGuard (f : Fields) : Except DErr (Option Guard) :=
  if f.ge == 1 then .ok (some ⟨f.gn == 1, f.gr, f.gb⟩)
  else if f.gn == 0 && f.gr == 0 && f.gb == 0 then .ok none
  else .error .guardField

/-- The length in bytes that X gives (R154); 0 for X = 11. -/
def lenOfX (x : BitVec 2) : Nat :=
  match x.toNat with
  | 0 => 8 | 1 => 16 | 2 => 40 | _ => 0

/-- Step 2 of R331: the length of an instruction, or no instruction. -/
def decodeLen (w : Word) : Except DErr Nat :=
  if (fieldsOf w).x == 3 || !opAssigned (fieldsOf w).op.toNat then .error .notAssigned
  else .ok (lenOfX (fieldsOf w).x)

/-- The words that follow a base word (R154). -/
def tailOf (x : BitVec 2) (ws : List Word) : Except DErr Tail :=
  match x.toNat, ws with
  | 0, _ => .ok .nil
  | 1, e :: _ => .ok (.ext e)
  | 2, p0 :: p1 :: p2 :: p3 :: _ => .ok (.blk ⟨p0, p1, p2, p3⟩)
  | _, _ => .error .truncated

/-- Steps 2, 4 and 5 of R331 on a base word and the words that follow it. -/
def decode (w : Word) (ws : List Word) : Except DErr Decoded := do
  let n ← decodeLen w
  let t ← tailOf (fieldsOf w).x ws
  let g ← decodeGuard (fieldsOf w)
  let i ← decodeGroup (fieldsOf w) t
  pure ⟨g, n, i⟩

/-- The decoder on bytes as memory holds them. -/
def decodeBytes (bs : List Byte) : Except DErr Decoded :=
  match wordsOfBytes bs with
  | w :: ws => decode w ws
  | [] => .error .truncated

/-- The instruction of a table word: bit 0 is the least significant bit of the first word (R154). -/
def decodeTableWord (nbits w : Nat) : Option Instr :=
  match decodeBytes (leBytes 40 (w % 2 ^ nbits)) with
  | .ok d => some d.instr
  | .error _ => none

/-! ### The encoder -/

/-- An instruction's own fields and the words that follow, before the guard is added. -/
structure Enc where
  op   : BitVec 8
  d    : BitVec 6 := 0
  a    : BitVec 6 := 0
  b    : BitVec 6 := 0
  f    : BitVec 4 := 0
  imm  : BitVec 19 := 0
  tail : Tail := .nil
deriving DecidableEq, Repr

/-- X of what follows (R154). -/
def Tail.x : Tail → BitVec 2
  | .nil => 0
  | .ext _ => 1
  | .blk _ => 2

/-- The words of what follows. -/
def Tail.words : Tail → List Word
  | .nil => []
  | .ext w => [w]
  | .blk b => [b.p0, b.p1, b.p2, b.p3]

/-- Put a whole IMM or its extension word into an encoding (R155). -/
def Enc.off (e : Enc) : Off → Enc
  | .imm v => { e with imm := v }
  | .ext w => { e with tail := .ext w }

/-- Put a scalar B operand into an encoding (R155). -/
def Enc.sb (e : Enc) : SB → Enc
  | .reg r => { e with b := r.num }
  | .imm v => { e with b := 63, imm := v }
  | .ext w => { e with b := 63, tail := .ext w }

/-- Put a vector B operand into an encoding (R155, R171). -/
def Enc.vb (e : Enc) : VB → Enc
  | .reg r => { e with b := r.num }
  | .imm v => { e with b := 63, imm := v }
  | .ext w => { e with b := 63, tail := .ext w }

/-- One bit. -/
def bit1 (b : Bool) : BitVec 1 := BitVec.ofBool b

/-- An ALU encoding with three operands (R165). -/
def encAlu (op : BitVec 8) (f : BitVec 4) (d a : SReg) (b : SB) : Enc := Enc.sb { op, d := d.num, a := a.num, f } b

/-- A vector encoding with three operands (R170). -/
def encV3 (op : BitVec 8) (t : ElemT) (d a : VR) (b : VB) : Enc := Enc.vb { op, d := d.num, a := a.num, f := t.code } b

/-- A vector encoding with two operands (R170). -/
def encV2 (op : BitVec 8) (t : ElemT) (d a : VR) : Enc := { op, d := d.num, a := a.num, f := t.code }

/-- A command encoding (R243). -/
def encCmd (op : BitVec 8) (ev : Bool) (b : Blk) : Enc := { op, f := (0 : BitVec 3) ++ bit1 ev, tail := .blk b }

/-- The IMM of an atomic (R168). -/
def atomImm (w8 lm : Bool) (o : Order) (sc : Scope) : BitVec 19 :=
  (0 : BitVec 12) ++ bit1 lm ++ (1 : BitVec 1) ++ bit1 w8 ++ o.code ++ sc.code

/-- The ACFG extension word (R172). -/
def acfgWord (f32 : Bool) (base : BitVec 10) (rows : BitVec 11) (cols : BitVec 9) : Word :=
  (0 : BitVec 33) ++ bit1 f32 ++ cols ++ rows ++ base

/-- The encoding of an instruction (R162 to R174); `none` for the rows that have no words. -/
def encodeFields : Instr → Option Enc
  | .nop => some { op := 0x01 }
  | .br d => some (Enc.off { op := 0x02 } d)
  | .bcc c a b d => some (Enc.off { op := 0x03, a := a.num, b := b.num, f := c.code } d)
  | .bbitEq a b d => some (Enc.off { op := 0x04, a := a.num, b := b } d)
  | .bbitNe a b d => some (Enc.off { op := 0x04, a := a.num, b := b, f := 1 } d)
  | .call d t => some (Enc.off { op := 0x05, d := gnum d } t)
  | .jmp a k => some (Enc.off { op := 0x06, a := a.num } k)
  | .loop r a d => some { op := 0x07, a := a.num, f := (0 : BitVec 3) ++ bit1 r, imm := d }
  | .loopi r n d => some { op := 0x08, d := n.extractLsb' 6 6, b := n.extractLsb' 0 6, f := (0 : BitVec 3) ++ bit1 r, imm := d }
  | .rep a n => some { op := 0x09, a := a.num, imm := n }
  | .lbrk m => some { op := 0x0A, imm := (0 : BitVec 17) ++ m }
  | .trap c => some { op := 0x0B, imm := (0 : BitVec 3) ++ c }
  | .ueret => some { op := 0x0C }
  | .waitc ld st cp mx rm => some { op := 0x0D, imm := ld ++ st ++ cp ++ mx ++ rm }
  | .notify => some { op := 0x0E }
  | .yield => some { op := 0x0F }
  | .add d a b => some (encAlu 0x10 0 d a b)
  | .sub d a b => some (encAlu 0x11 0 d a b)
  | .mul d a b => some (encAlu 0x12 0 d a b)
  | .mulh d a b => some (encAlu 0x13 0 d a b)
  | .mulhn d a b => some (encAlu 0x14 0 d a b)
  | .div d a b => some (encAlu 0x15 0 d a b)
  | .divn d a b => some (encAlu 0x16 0 d a b)
  | .rem d a b => some (encAlu 0x17 0 d a b)
  | .remn d a b => some (encAlu 0x18 0 d a b)
  | .and d a b => some (encAlu 0x19 0 d a b)
  | .or d a b => some (encAlu 0x1A 0 d a b)
  | .xor d a b => some (encAlu 0x1B 0 d a b)
  | .andn d a b => some (encAlu 0x1C 0 d a b)
  | .shl d a b => some (encAlu 0x1D 0 d a b)
  | .shr d a b => some (encAlu 0x1E 0 d a b)
  | .sar d a b => some (encAlu 0x1F 0 d a b)
  | .ror d a b => some (encAlu 0x20 0 d a b)
  | .min d a b => some (encAlu 0x21 0 d a b)
  | .max d a b => some (encAlu 0x22 0 d a b)
  | .minn d a b => some (encAlu 0x23 0 d a b)
  | .maxn d a b => some (encAlu 0x24 0 d a b)
  | .cmp c d a b => some (encAlu 0x25 c.code d a b)
  | .clz d a => some { op := 0x26, d := d.num, a := a.num }
  | .ctz d a => some { op := 0x27, d := d.num, a := a.num }
  | .popc d a => some { op := 0x28, d := d.num, a := a.num }
  | .ext s d a b => some (encAlu 0x29 ((0 : BitVec 3) ++ bit1 s) d a b)
  | .bfx s d a lo w =>
    some { op := 0x2A, d := d.num, a := a.num, b := 63, f := (0 : BitVec 3) ++ bit1 s, imm := (0 : BitVec 6) ++ w ++ lo }
  | .bfi d a lo w => some { op := 0x2B, d := gnum d, a := a.num, b := 63, imm := (0 : BitVec 6) ++ w ++ lo }
  | .ldi d v => some (Enc.off { op := 0x2C, d := d.num, b := 63 } v)
  | .mov d a => some { op := 0x2D, d := d.num, a := a.num }
  | .mfsr d i => some { op := 0x2D, d := d.num, f := 1, imm := (0 : BitVec 11) ++ i }
  | .mtsr i a => some { op := 0x2D, a := a.num, f := 2, imm := (0 : BitVec 11) ++ i }
  | .bset d a b => some (encAlu 0x2E 0 d a b)
  | .bclr d a b => some (encAlu 0x2E 1 d a b)
  | .crc z d a b => some (encAlu 0x2F ((0 : BitVec 2) ++ z.code) d a b)
  | .ld s z l d a k => some (Enc.off { op := 0x30, d := d.num, a := a.num, f := bit1 l ++ bit1 s ++ z.code } k)
  | .st z l v a k => some (Enc.off { op := 0x31, d := v.num, a := a.num, f := bit1 l ++ (0 : BitVec 1) ++ z.code } k)
  | .lda s z sc d a k =>
    some (Enc.off { op := 0x32, d := d.num, a := a.num, b := (0 : BitVec 4) ++ sc.code, f := (0 : BitVec 1) ++ bit1 s ++ z.code } k)
  | .str z sc v a k =>
    some (Enc.off { op := 0x33, d := v.num, a := a.num, b := (0 : BitVec 4) ++ sc.code, f := (0 : BitVec 2) ++ z.code } k)
  | .ldm l d n a k =>
    some (Enc.off { op := 0x34, d := gnum d, a := a.num, b := (0 : BitVec 1) ++ n, f := bit1 l ++ (0 : BitVec 3) } k)
  | .stm l d n a k =>
    some (Enc.off { op := 0x35, d := gnum d, a := a.num, b := (0 : BitVec 1) ++ n, f := bit1 l ++ (0 : BitVec 3) } k)
  | .amo p w8 lm o sc d a b =>
    some { op := 0x36, d := d.num, a := a.num, b := b.num, f := p.code, imm := atomImm w8 lm o sc }
  | .cas w8 lm o sc d a b => some { op := 0x37, d := d.num, a := a.num, b := b.num, imm := atomImm w8 lm o sc }
  | .red p w8 lm o sc a b => some { op := 0x38, a := a.num, b := b.num, f := p.code, imm := atomImm w8 lm o sc }
  | .spill s a n => some { op := 0x39, a := gnum a, b := (0 : BitVec 1) ++ n, imm := (0 : BitVec 10) ++ s }
  | .fill d s n => some { op := 0x3A, d := gnum d, b := (0 : BitVec 1) ++ n, imm := (0 : BitVec 10) ++ s }
  | .pref l2 a k => some (Enc.off { op := 0x3B, a := a.num, f := (0 : BitVec 3) ++ bit1 l2 } k)
  | .invl1 => some { op := 0x3C }
  | .layer a n => some { op := 0x3D, a := a.num, imm := n }
  | .mark k sc => some { op := 0x40, f := sc.code ++ k.code }
  | .tpost t b => some (Enc.sb { op := 0x41, d := num8 t } b)
  | .twait t b => some (Enc.sb { op := 0x42, d := num8 t } b)
  | .qstat d n => some { op := 0x43, d := d.num, imm := BitVec.ofNat 19 n.val }
  | .bar l => some { op := 0x44, imm := BitVec.ofNat 19 l.val }
  | .step d => some { op := 0x45, d := d.num }
  | .flagw d a (.reg b k) => some { op := 0x46, d := d.num, a := a.num, b := b.num, imm := k }
  | .flagw d a (.ext w) => some { op := 0x46, d := d.num, a := a.num, b := 63, tail := .ext w }
  | .launch d a q => some { op := 0x50, d := d.num, a := a.num, imm := (0 : BitVec 13) ++ q }
  | .cardw a => some { op := 0x51, a := a.num }
  | .warm d a => some { op := 0x52, d := d.num, a := a.num }
  | .wdis a => some { op := 0x53, a := a.num }
  | .trigrd a b k => some { op := 0x54, a := a.num, b := b.num, imm := k }
  | .pqpush n a => some { op := 0x55, a := a.num, imm := BitVec.ofNat 19 n.val }
  | .pqpop d n => some { op := 0x56, d := d.num, imm := BitVec.ofNat 19 n.val }
  | .prio a c => some { op := 0x57, a := a.num, imm := BitVec.ofNat 19 c.val }
  | .graph d a b => some { op := 0x58, d := d.num, a := a.num, b := b.num }
  | .uevset a e => some { op := 0x59, a := a.num, imm := (0 : BitVec 18) ++ bit1 e }
  | .vadd t d a b => some (encV3 0x60 t d a b)
  | .vsub t d a b => some (encV3 0x61 t d a b)
  | .vmul t d a b => some (encV3 0x62 t d a b)
  | .vfma t d a b => some (encV3 0x63 t (.v d) a b)
  | .vmin t d a b => some (encV3 0x64 t d a b)
  | .vmax t d a b => some (encV3 0x65 t d a b)
  | .vabs t d a => some (encV2 0x66 t d a)
  | .vneg t d a => some (encV2 0x67 t d a)
  | .vand t d a b => some (encV3 0x68 t d a b)
  | .vor t d a b => some (encV3 0x69 t d a b)
  | .vxor t d a b => some (encV3 0x6A t d a b)
  | .vnot t d a => some (encV2 0x6B t d a)
  | .vshl t d a b => some (encV3 0x6C t d a b)
  | .vshr t d a b => some (encV3 0x6D t d a b)
  | .vsar t d a b => some (encV3 0x6E t d a b)
  | .vadds t d a b => some (encV3 0x6F t d a b)
  | .vsubs t d a b => some (encV3 0x70 t d a b)
  | .vdiv t d a b => some (encV3 0x71 t d a b)
  | .vsqrt t d a => some (encV2 0x72 t d a)
  | .vrcp t d a => some (encV2 0x73 t d a)
  | .vrsq t d a => some (encV2 0x74 t d a)
  | .vexp2 t d a => some (encV2 0x75 t d a)
  | .vlog2 t d a => some (encV2 0x76 t d a)
  | .vcvt t u d a => some { op := 0x77, d := d.num, a := a.num, f := t.code, imm := (0 : BitVec 15) ++ u.code }
  | .vcmp t c a b => some (Enc.vb { op := 0x78, a := a.num, f := t.code, imm := (0 : BitVec 15) ++ c.code } b)
  | .minv => some { op := 0x79 }
  | .mpop => some { op := 0x7A }
  | .mbr d => some { op := 0x7B, imm := d }
  | .mrd d w => some { op := 0x7C, d := d.num, imm := BitVec.ofNat 19 w.val }
  | .mwr w a => some { op := 0x7D, a := a.num, imm := BitVec.ofNat 19 w.val }
  | .vsel t d a b => some (encV3 0x7E t d a b)
  | .vred t o d a => some { op := 0x7F, d := d.num, a := a.num, f := t.code, imm := (0 : BitVec 17) ++ o.code }
  | .vbcast t d a => some { op := 0x80, d := d.num, a := a.num, f := t.code }
  | .vmovs t d a i => some { op := 0x81, d := d.num, a := a.num, f := t.code, imm := (0 : BitVec 11) ++ i }
  | .vins t d a i => some { op := 0x82, d := d.num, a := a.num, f := t.code, imm := (0 : BitVec 11) ++ i }
  | .vperm t d a b => some { op := 0x83, d := d.num, a := a.num, b := b.num, f := t.code }
  | .vshuf t .rev d a => some { op := 0x84, d := d.num, a := a.num, f := t.code, imm := 0 }
  | .vshuf t .ilo d a => some { op := 0x84, d := d.num, a := a.num, f := t.code, imm := 1 }
  | .vshuf t .ihi d a => some { op := 0x84, d := d.num, a := a.num, f := t.code, imm := 2 }
  | .vshuf t .even d a => some { op := 0x84, d := d.num, a := a.num, f := t.code, imm := 3 }
  | .vshuf t .odd d a => some { op := 0x84, d := d.num, a := a.num, f := t.code, imm := 4 }
  | .vshuf t (.rot b) d a => some { op := 0x84, d := d.num, a := a.num, b := b.num, f := t.code, imm := 5 }
  | .viota t d a => some { op := 0x85, d := d.num, a := a.num, f := t.code }
  | .vld t d a k => some (Enc.off { op := 0x86, d := d.num, a := a.num, f := t.code } k)
  | .vst t v a k => some (Enc.off { op := 0x87, d := v.num, a := a.num, f := t.code } k)
  | .vgath t nr d a b =>
    some { op := 0x88, d := d.num, a := a.num, b := b.num, f := t.code, imm := (0 : BitVec 18) ++ bit1 nr }
  | .vscat t v a b => some { op := 0x89, d := v.num, a := a.num, b := b.num, f := t.code }
  | .vtopk t m k n a b =>
    some { op := 0x8A, a := a.num, b := b.num, f := t.code, imm := (0 : BitVec 10) ++ bit1 n ++ k ++ bit1 m }
  | .vtopkr d i => some { op := 0x8B, d := d.num, imm := (0 : BitVec 18) ++ bit1 i }
  | .pcfg n b => some { op := 0x8C, d := num8 n, tail := .blk b }
  | .prst n => some { op := 0x8D, d := num8 n }
  | .vqnt q d a => some { op := 0x8E, d := d.num, a := a.num, f := 8, imm := (0 : BitVec 17) ++ q.code }
  | .vdq q d a => some { op := 0x8F, d := d.num, a := a.num, f := 8, imm := (0 : BitVec 17) ++ q.code }
  | .bld m ev s b =>
    some { op := 0xA0, d := BitVec.ofNat 6 s.val, f := (0 : BitVec 1) ++ bit1 ev ++ m.code, tail := .blk b }
  | .nset l b => some { op := 0xA1, imm := BitVec.ofNat 19 l.val, tail := .blk b }
  | .ngo ev => some { op := 0xA2, f := (0 : BitVec 3) ++ bit1 ev }
  | .acfg f32 keep d base rows cols =>
    some { op := 0xA3, d := num8 d, f := (0 : BitVec 3) ++ bit1 keep, tail := .ext (acfgWord f32 base rows cols) }
  | .azero d => some { op := 0xA4, d := num8 d }
  | .adrn ev a b => some { op := 0xA5, a := num8 a, f := (0 : BitVec 3) ++ bit1 ev, tail := .blk b }
  | .smxr s d a b => some { op := 0xA6, d := d.num, a := num8 a, b := b.num, imm := (0 : BitVec 17) ++ s.code }
  | .smxw s d a b => some { op := 0xA7, d := num8 d, a := a.num, b := b.num, imm := (0 : BitVec 17) ++ s.code }
  | .ftset i a => some { op := 0xA8, a := a.num, imm := BitVec.ofNat 19 i.val }
  | .ald ev d a k => some (Enc.off { op := 0xA9, d := num8 d, a := a.num, f := (0 : BitVec 3) ++ bit1 ev } k)
  | .cpy ev b => some (encCmd 0xB0 ev b)
  | .cpyx ev b => some (encCmd 0xB1 ev b)
  | .gath ev b => some (encCmd 0xB2 ev b)
  | .walk ev b => some (encCmd 0xB9 ev b)
  | .pool ev b => some (encCmd 0xB3 ev b)
  | .decmp ev b => some (encCmd 0xB4 ev b)
  | .buck ev b => some (encCmd 0xB6 ev b)
  | .supd ev b => some (encCmd 0xB5 ev b)
  | .xall ev b => some (encCmd 0xB7 ev b)
  | .coll ev b => some (encCmd 0xB8 ev b)
  | .rst ev b => some (encCmd 0xC0 ev b)
  | .rld ev b => some (encCmd 0xC1 ev b)
  | .rred ev b => some (encCmd 0xC2 ev b)
  | .stepq d g => some { op := 0xC3, d := d.num, imm := BitVec.ofNat 19 g.val }
  | .sysrd d a k => some { op := 0xE0, d := d.num, a := a.num, imm := k }
  | .syswr a b k => some { op := 0xE1, a := a.num, b := b.num, imm := k }
  | .eret => some { op := 0xE2 }
  | .idle => some { op := 0xE3 }
  | .ctxsv a => some { op := 0xE4, a := a.num }
  | .ctxld a => some { op := 0xE5, a := a.num }
  | .preempt a => some { op := 0xE6, a := a.num }
  | .evrd d a => some { op := 0xE7, d := d.num, a := a.num }
  | _ => none

/-- The fields with the guard (R157). -/
def Enc.fields (e : Enc) (g : Option Guard) : Fields where
  op := e.op
  d := e.d
  a := e.a
  b := e.b
  f := e.f
  x := e.tail.x
  ge := if g.isSome then 1 else 0
  gn := bit1 (match g with | some h => h.gn | none => false)
  gr := match g with | some h => h.gr | none => 0
  gb := match g with | some h => h.gb | none => 0
  imm := e.imm

/-- The words of an instruction under a guard: its base word and the words that follow. The rows of the table that are
no device instruction have none. -/
def encode (g : Option Guard) (i : Instr) : List Word :=
  match encodeFields i with
  | some e => wordOf (e.fields g) :: e.tail.words
  | none => []

end Sys2Proof
end

