-- ==== Sys2Proof/Config.lean ====
section
/-! DEFINITION. What the manual leaves to the part or leaves open: constants without a body, so that no proof rests on a
value of them (log 2, 7, 13), and the constants of the form modelled. -/

namespace Sys2Proof.Config

/-- A free value: the n-th value that the machine draws where the manual fixes no value (log 2). The entry of a hardware
priority queue that a PQPOP takes (R42), the granules of discarded work that are still performed (R395), and where UERET resumes
after an image has been loaded (R348). -/
opaque freeNat : Nat → Nat

/-- A byte of an ATTEST report that a secret decides (R301), or of the identity that IDENTIFY reports (R297), by report field and byte
(log 7). -/
opaque trustByte : Nat → Nat → Byte

/-- The IA of a device queue's ring, which firmware places outside every partition's space (R35), by partition and queue (log
13). -/
opaque ringIa : Nat → Nat → Nat

/-- Whether the two signatures of a firmware image verify (R300), from its bytes (log 7). -/
opaque imageAccepted : List Byte → Bool

/-- The version of a firmware image (R296, FW_STAGE), from its bytes (log 7). -/
opaque imageVersion : List Byte → BitVec 32

/-- The bytes of the ROM, and of the firmware image that the part runs before any has been staged, which R300 measures (log 7). -/
opaque romImage : List Byte
opaque factoryImage : List Byte

/-- The length of the HSS signature of a report (R301; log 7). -/
opaque hssLength : Nat

/-- The signatures that the HSS key still holds at bring-up (R302; log 7). -/
opaque hssLimit : Nat

/-- The serial number of the part (R297; log 7). -/
opaque serial : Word

/-- Whether the part is of the Leeward build (R3, R297; log 7). -/
opaque leeward : Bool

/-- Whether the part is an HNX2-M, and the bytes that the system maker places behind a Skerry of an HNX2-P (R2, R297; log 53). -/
opaque modular : Bool
opaque makerBytes : Nat → Nat

/-- The bytes of memory behind a Skerry: 256 GiB in an HNX2-M (R2, R17). -/
def skerryBytes (k : Nat) : Nat := if modular then 256 * 2 ^ 30 else makerBytes k

/-- The capture threshold that firmware has set, less 512, and the rows that a capture buffer holds (R358; log 56). -/
opaque captureLimit : Nat
opaque captureRows : Nat

/-- The architecture revision that GET_CAPS reports (R297; log 7). -/
opaque revision : BitVec 32

/-- The bytes of memory in an array, where firmware allocates frames (R2, R19, R296): HBM stacks of 48 GiB, and the Skerries (log 8). -/
def frameLimit (home : Nat) : Nat :=
  if home < 8 then 48 * 2 ^ 30 else if home < 16 then skerryBytes (home - 8) else 2 ^ 52

end Sys2Proof.Config
end

