-- ==== Sys2Proof/Machine/State.lean ====
section
/-! DEFINITION. The state of the part as plain data: every piece of state that the manual gives the machine, and the
model's own agenda and counters; the reasons a step stops; the state after reset. INVENTORY.md lists each field with its
rule and its reset value. -/

namespace Sys2Proof.Machine

/-! ### Shapes -/

/-- A sparse table: key and value pairs, keys strictly rising, no pair whose value is the table's default. -/
abbrev Sparse (α : Type) := List (Nat × α)

/-- A range register (R57). -/
abbrev Range := BitVec 128

/-- The 16 range registers of a sequencer (R57). -/
abbrev RangeSet := Vector Range 16

/-- A card image: 16 words (R23). -/
abbrev CardImg := Vector Word 16

/-- A card handle (R24). -/
abbrev Handle := BitVec 32

/-! ### One sequencer -/

/-- An entry of the loop stack; an entry with count 0 is empty (R183, R285). -/
structure LoopEntry where
  start : Word
  fin   : Word
  count : Word
  rot   : Bool
deriving DecidableEq, Repr

/-- Where an access goes once it is translated (R58, R60, R65, R66): an IA with a home and its CACHE attribute, a local
memory by core and offset, or tier 6. -/
inductive Place where
  | home (ia cache : Nat)
  | lm (core : CoreId) (off : Nat)
  | system (off : Nat)
deriving DecidableEq, Repr

/-- One access of an outstanding load: the register it writes, its place, its bytes and whether they are sign-extended. -/
structure LoadPart where
  dest  : Fin 32
  place : Place
  n     : Nat
  sgn   : Bool
deriving DecidableEq, Repr

/-- An outstanding load, confirmed and not yet performed, or performed with the values it returns (R33, R192, R194). -/
structure PLoad where
  stamp : Nat
  parts : List LoadPart
  vals  : Option (List Word)
deriving DecidableEq, Repr

/-- A write that another one waits for before it is performed: its stamp, and the scope at which it must be performed
(R88). -/
structure RelWait where
  stamp : Nat
  scope : Scope
deriving DecidableEq, Repr

/-- How far a store has been performed short of its home (R84): not at all, at .core, at .clu. -/
inductive Moment where
  | issued | core | clu
deriving DecidableEq, Repr

/-- An outstanding store, confirmed at its home and not yet performed there (R84, R324); a store to local memory stands at the
tier-5 IA of its core and offset. `raised` is the stamp of its
performance at .core, `cached` is false under CACHE = 1 or 2 (R92), `counts` says that it counts in ST: the last word of an
STM, no lane of a VSCAT (R33, R194, R220). -/
structure PStore where
  stamp  : Nat
  ia     : Nat
  bytes  : List Byte
  moment : Moment
  raised : Nat
  waits  : List RelWait
  depth  : Nat
  cached : Bool
  counts : Bool
deriving DecidableEq, Repr

/-- What an atomic does to its location (R195). -/
inductive AtomKind where
  | amo (op : AtomOp) (b : Word)
  | cas (new expected : Word)
  | red (op : AtomOp) (b : Word)
deriving DecidableEq, Repr

/-- An issued atomic that is not yet performed (R90, R195). -/
structure PAtom where
  stamp : Nat
  kind  : AtomKind
  w8    : Bool
  place : Place
  order : Order
  scope : Scope
  dest  : Fin 32
  waits : List RelWait
  depth : Nat
deriving DecidableEq, Repr

/-- How a command in flight stands (R245, R327): running, or stopped by a home fault at an IA. -/
inductive CmdState where
  | running
  | stopped (ia : Nat)
deriving DecidableEq, Repr

/-- A local-memory range of a command: first byte and length (R34). -/
structure LocalRange where
  lo  : Nat
  len : Nat
deriving DecidableEq, Repr

/-- What a command reads at issue (R245): the words of its shape record or bag list. -/
abbrev IssueRecord := List Word

/-- A table descriptor (R72). -/
structure Table where
  base    : Nat
  rows    : Nat
  stride  : Nat
  elems   : Nat
  fmt     : Nat
  shard   : Nat
  shcnt   : Nat
  owner   : Nat
  ranges  : Nat
  opt     : Nat
  hotLog  : Nat
  optBase : Nat
  hotArea : Nat
deriving DecidableEq, Repr

/-- The answer to a unit sent to a package (R329, R371, R379). -/
inductive UnitAnswer where
  | pending | accepted | refused | lost
  | data (bs : List Byte)
deriving DecidableEq, Repr

/-- A unit of a remote command that has been sent: the member it goes to, its place in that member's units and its
answer. -/
structure SentUnit where
  id     : Nat
  member : Nat
  answer : UnitAnswer
deriving DecidableEq, Repr

/-- An engine or remote command in flight with its progress record (R247): the block after substitution, DONE, STAT, EVF and AUX; the
output offset of a linear DECMP, or for the ring form, an asynchronous XALL or COLL and a multicast RST 1 when their last phase has
begun; the range registers, the chain depth, the IAs and the records it took at issue; its local ranges (R34); the bytes it holds of
what it also writes (R248); the stores it waits for (R95); the step it belongs to, the sequencer whose keys it carries, the issue
sequence number of its element `sn0`, and its elements (R103, R107, R344); its units under way at other packages; the granules read
ahead for its next unit, by IA, and the granules written by its last unit that are not yet performed (R83, R95). -/
structure Cmd where
  stamp   : Nat
  op      : BitVec 8
  ev      : Bool
  blk     : Blk
  done    : Nat
  stat    : Nat
  aux     : Nat
  off     : Nat
  rng     : RangeSet
  depth   : Nat
  ias     : List Nat
  record  : IssueRecord
  table   : Option (Nat × Table)
  reads   : List LocalRange
  writes  : List LocalRange
  held    : List (Nat × List Byte)
  state   : CmdState
  resumed : Bool
  waits   : List RelWait
  stepOf  : Option (Fin 16 × Nat)
  gid     : Nat
  key0    : Nat
  sn0     : Nat
  elems   : Nat
  sent    : List SentUnit
  peeked  : List (Nat × List Byte)
  pend    : List (Nat × List Byte)
deriving DecidableEq, Repr

/-- A completed command with a non-zero status that no WAITC has reported (R328). -/
structure CmdErr where
  stamp : Nat
  op    : BitVec 8
  stat  : Nat
  done  : Nat
  rm    : Bool
deriving DecidableEq, Repr

/-- The trap frame (R321). LSTK is the loop stack itself. -/
structure Frame where
  pc    : Word
  cause : Word
  addr  : Word
  det   : Word
  repc  : Word
deriving DecidableEq, Repr

/-- The words of the instruction under a REP, fetched and checked at its first repetition (R332): its address, the repetitions that
were left, its words. -/
structure RepFetch where
  pc    : Word
  left  : Word
  words : List Word
deriving DecidableEq, Repr

/-- One sequencer (R159). `early` holds the values of the first parts of its oldest load, where they have been performed before
the others (R83), `lanes` those of the first lanes of a VGATH that stands (R219), `peeked` the local granules read for the vector access
at which X stands (R83), and `named` the buffers of completed asynchronous exchanges that no WAITC has covered yet (R98), as base and
length. -/
structure Seq where
  g        : Vector Word 32
  pc       : Word
  fpcs     : Word
  repc     : Word
  rep      : Option RepFetch
  loops    : Vector LoopEntry 4
  spill    : Sparse Word
  rng      : RangeSet
  loads    : List PLoad
  stores   : List PStore
  atoms    : List PAtom
  early    : List Word
  lanes    : List (Option Nat)
  peeked   : List (Nat × List Byte)
  named    : List (Nat × Nat)
  cmds     : List Cmd
  errs     : List CmdErr
  relWaits : List RelWait
  frame    : Frame
  trapPend : Bool
  done     : Bool
  ctxStop  : Bool
deriving DecidableEq, Repr

/-! ### C and X -/

/-- A trap that becomes pending on C away from its instructions (R327, R388): cause, address and detail. -/
structure AsyncTrap where
  cause : Nat
  addr  : Word
  det   : Word
deriving DecidableEq, Repr

/-- A replay of a graph object (R277): its own handle, the object's IA, its cards with the patch applied, and, from its release,
its instance area, the handles of its cards, those still to be enqueued and the number not yet completed. -/
structure Replay where
  handle  : Handle
  object  : Nat
  cards   : List CardImg
  queue   : Nat
  rent    : Bool
  parea   : Word
  pasize  : Nat
  ninst   : Nat
  inst    : Option Nat
  held    : Bool
  rng     : RangeSet
  handles : List Handle
  toGo    : List (Handle × CardImg)
  left    : Nat
deriving DecidableEq, Repr

/-- What a LAUNCH or a GRAPH has read while it stands (R270, R277). -/
inductive Taken where
  | image (img : CardImg)
  | graph (r : Replay)
deriving DecidableEq, Repr

/-- What C holds beside a sequencer's state (R56, R282 to R285, R348). `stand` marks a stall that neither a trap nor a user
event interrupts (R283), `held` one that a trap interrupts and a user event does not (R56), `barMet` that the BAR at which C stands has
been executed by every participant (R201), `uevRepc`, `uevRep`, `svRepc`, `svRep` and `svLoops` the repeat count, the words under it and
the loop stack that the user-event handler and the supervisor handler set aside, `svEng` an entry for a command stopped under R327 (log 3), `cardW` the handle that a CARDW
waits for (R39, R271), `engStop` that the commands of the core stand until ERET (R287, R342), and `image` what a CTXSV
that has begun to write has still to write: the place, the VA and the bytes (R83, R351). -/
structure CState where
  shadow  : Vector Word 8
  uevec   : Word
  uevEn   : Bool
  uevIn   : Bool
  uevRet  : Word
  uevq    : List (Word × Word)
  sup     : Bool
  svSeq   : SeqId
  sret    : Word
  bank    : Vector Word 32
  async   : List AsyncTrap
  bar     : Vector (BitVec 32) 9
  barWait : Option (Fin 9)
  stpW    : Option Nat
  flgW    : Bool
  stepNo  : Nat
  yieldW  : Bool
  cardW   : Option Handle
  stand   : Bool
  taken   : Option Taken
  engStop : Bool
  uevRepc : Word
  svRepc  : Word
  svLoops : Vector LoopEntry 4
  svEng   : Bool
  uevRep  : Option RepFetch
  svRep   : Option RepFetch
  held    : Bool
  barMet  : Bool
  image   : Option (Place × Nat × List Byte)
deriving DecidableEq, Repr

/-- A stream port: its block after substitution, its position, and whether it is configured (R216, R217). -/
structure Port where
  blk  : Blk
  pos  : Nat
  conf : Bool
deriving DecidableEq, Repr

/-- The top-k selection (R222). -/
structure TopK where
  begun : Bool
  f32   : Bool
  min   : Bool
  k     : Nat
  pairs : List (BitVec 32 × BitVec 32)
deriving DecidableEq, Repr

/-- A tile descriptor; ROWS 0 is unconfigured (R227, R228). -/
structure Tile where
  base : Nat
  rows : Nat
  cols : Nat
  f32  : Bool
deriving DecidableEq, Repr

/-- A level of a nest set (R230, R231). -/
structure NestLevel where
  n    : Word
  astr : Word
  rstr : BitVec 16
  btog : Bool
deriving DecidableEq, Repr

/-- A nest set: six levels, ABASE, and the nest-wide fields at their places in P3 (R230, R231). -/
structure NestSet where
  levels : Vector NestLevel 6
  abase  : Word
  wide   : Word
deriving DecidableEq, Repr

/-- A nest as NGO copied it (R232). -/
structure Nest where
  set   : NestSet
  tiles : Vector Tile 8
  ftab  : Vector Word 16
deriving DecidableEq, Repr

/-- An issued matrix operation (R240). -/
inductive MxKind where
  | bld (fmt : BFmt) (slot : Fin 2) (blk : Blk)
  | nest (n : Nest) (live : Bool)
  | adrn (tile : Tile) (blk : Blk)
  | ald (tile : Tile) (addr : Word)
deriving DecidableEq, Repr

/-- A matrix operation in flight, in issue order (R240, R55): `done` of its steps or rows are performed; of those, `again` names the
rows that a nest has rescaled, by tile and row, and `flags` are the flags raised; `peeked` holds the local granules read ahead for its
next part, by IA, and `pend` those that its last part has still to write (R83). -/
structure MxOp where
  kind  : MxKind
  ev    : Bool
  done  : Nat := 0
  again : List (Nat × Nat) := []
  flags : Word := 0
  peeked : List (Nat × List Byte) := []
  pend  : List (Nat × List Byte) := []
deriving DecidableEq, Repr

/-- What X holds beside a sequencer's state (R159). -/
structure XState where
  v      : Vector VReg 48
  rot    : BitVec 5
  masks  : List Mask
  ports  : Vector Port 8
  topk   : TopK
  tiles  : Vector Tile 8
  ftab   : Vector Word 16
  shadow : NestSet
  mx     : List MxOp
deriving DecidableEq, Repr

/-! ### One core -/

/-- A core queue: its messages, oldest first, and the pops and pushes modulo 2^32 (R31, R347). -/
structure Queue where
  msgs : List Word
  head : BitVec 32
  tail : BitVec 32
deriving DecidableEq, Repr

/-- A line of L1 or of the instruction cache: its IA in units of 128 bytes, and its bytes (R67, R69). -/
structure Line where
  ia    : Nat
  bytes : List Byte
deriving DecidableEq, Repr

/-- A B slot: format, the rows of its planes, two bits a digit, keyed 256 × plane + row, and the scales keyed 256 × segment +
column (R225, R226). -/
structure BSlot where
  fmt    : BFmt
  rows   : Sparse (BitVec 512)
  scales : Sparse (BitVec 16)
deriving DecidableEq, Repr

/-- One core (R15, R159). `late` holds lines that have been read at their homes and have not reached the core yet (R86). -/
structure Core where
  seqs   : Vector Seq 4
  c      : CState
  x      : XState
  tokens : Vector (BitVec 16) 8
  queues : Vector Queue 8
  bslots : Vector BSlot 2
  l1     : List Line
  late   : List Line
  icache : List Line
  tvec   : Word
  part   : Option (Fin 32)
  card   : Handle
deriving DecidableEq, Repr

/-! ### Homes -/

/-- A row of the hot-row directory: the row of a table, its set and way, and its state (R74, R75, R362); `back` when it has been
evicted from its way and its write-back is not yet performed. -/
structure HotRow where
  part  : Fin 32
  table : Nat
  row   : Nat
  set   : Nat
  way   : Nat
  dirty : Bool
  lost  : Bool
  data  : List Byte
  back  : Bool
deriving DecidableEq, Repr

/-- Memory and the homes. `mem` is keyed by home and physical address, `lm`, `acc` and `side` by core and place. `quar` holds the
retired frames (R359, R363) by array, address and bytes, `bad` the words in error not yet found (R355), `found` the places of errors
found whose pages wait for their quarantine (R359), `capture` the captured rows and `acts` the activations of the others in this
refresh window, by stack and row (R358), `tries` the failed replays of the transfer under way at each stack, `out` the stacks whose
interface is out of service, `dead` those whose retraining has failed (R356), `uncoded` the coded pages whose first write has taken
a second frame (R80, R366), `areaPages` the pages that TABLE_DEFINE has mapped for hot areas, which no page quota is charged for (R75,
R77), `heat` the accesses of pages of tiers 3 and 4 (R79). -/
structure Homes where
  mem     : List Host.Cell
  lm      : List Host.Cell
  acc     : Sparse (BitVec 32)
  side    : Sparse (BitVec 32)
  ptes    : Sparse Word
  quar    : List (Nat × Nat × Nat)
  bad     : Sparse Bool
  found   : List (Fin 17 × Nat)
  capture : List (Fin 8 × Nat)
  acts    : Sparse Nat
  tries   : Vector Nat 8
  out     : BitVec 17
  dead    : BitVec 17
  uncoded : List Nat
  areaPages : List Nat
  corrWin : BitVec 17
  hot     : List HotRow
  sketch  : Sparse (BitVec 16)
  looks   : Vector Nat 8
  heat    : Sparse Nat
  counts  : Sparse (BitVec 32)
deriving DecidableEq, Repr

/-! ### The scheduler -/

/-- A live-card slot: its serial number, and what it holds (R24, R271). -/
inductive SlotUse where
  | free | live | completed | discarded
deriving DecidableEq, Repr

/-- A live-card slot with the serial now in it. -/
structure Slot where
  serial : BitVec 19
  use    : SlotUse
deriving DecidableEq, Repr

/-- A device queue: its SIZELOG, the cards it holds with their handles, HEAD and TAIL (R35), and its number in the package (R298). -/
structure DevQueue where
  sizeLog : Nat
  cards   : List (Handle × CardImg × RangeSet)
  head    : BitVec 32
  tail    : BitVec 32
  num     : Nat
deriving DecidableEq, Repr

/-- An event record (R397). -/
structure Event where
  seq    : BitVec 32
  src    : Nat
  cls    : Nat
  code   : Nat
  handle : Handle
  part   : Nat
  addr   : Word
  detail : Word
deriving DecidableEq, Repr

/-- A partition (R298, R299): clusters, quotas and charges in the row order of R77, limits and thresholds, TVEC's value,
device queues, priority-queue masks, table directory, prefetch table, supervisor events, live-card slots, the handles of discarded
cards and replays (R395), and the layers announced to the prefetch engine. -/
structure Partition where
  live     : Bool
  clusters : BitVec 32
  quotas   : Vector Nat 6
  charges  : Vector Nat 6
  aging    : Nat
  promo    : Nat
  migr     : Nat
  tvec     : Word
  devqs    : List DevQueue
  pqMask   : BitVec 32
  tables   : List (Nat × Table)
  pft      : Sparse Word
  supq     : List Event
  slots    : Sparse Slot
  gone     : List Handle
  layers   : List Nat
deriving DecidableEq, Repr

/-- Where a card came from (R59): a virtual function's queue, a device queue, or a watch entry. -/
inductive CardSource where
  | host (vf : Fin 1024)
  | dev
  | trigger (entry : Nat) (seq : BitVec 32)
deriving DecidableEq, Repr

/-- How a card stands: waiting for predecessors or placement, running, pre-empted (R37, R341), or refused while it
holds a handle, which then never completes (R383). -/
inductive CardPhase where
  | waiting | running | preempted | refused
deriving DecidableEq, Repr

/-- A saved core of a pre-empted card, at its place in the rectangle (R341 to R350). -/
structure SavedCore where
  x    : Nat
  y    : Nat
  core : Core
  lm   : List Host.Cell
  acc  : Sparse (BitVec 32)
  side : Sparse (BitVec 32)
deriving DecidableEq, Repr

/-- A card from its handle to its completion (R23, R24, R37 to R41, R51). `arrival` is set when the card becomes
eligible. -/
structure Card where
  handle  : Handle
  img     : CardImg
  rng     : RangeSet
  source  : CardSource
  dep     : Nat
  arrival : Option Nat
  own     : Fin 4
  aged    : Nat
  hold    : Bool
  phase   : CardPhase
  ox      : Nat
  oy      : Nat
  depth   : Nat
  replay  : Option Handle
  pre     : Bool
  forced  : Bool
  saved   : List SavedCore
deriving DecidableEq, Repr

/-- A watch entry in use (R44, R278, R279). -/
structure Watch where
  part   : Fin 32
  armed  : Bool
  base   : Nat
  len    : Nat
  scope  : Scope
  mode   : Nat
  limit  : Nat
  once   : Bool
  rate   : Nat
  tw     : Vector Word 3
  img    : CardImg
  rng    : RangeSet
  next   : BitVec 32
  window : Nat
  lostEv : Bool
deriving DecidableEq, Repr

/-- A pending trigger record (R46, R49, R51, R53). -/
structure Record where
  entry  : Nat
  gia    : Nat
  old    : Word
  new    : Word
  count  : BitVec 32
  seq    : BitVec 32
  depth  : Nat
  handle : Option Handle
deriving DecidableEq, Repr

/-- A hardware priority queue: the partition it is assigned to and its entries (R42). -/
structure PrioQueue where
  owner   : Option (Fin 32)
  entries : List Word
deriving DecidableEq, Repr

/-- The schedulers' state. Cards, replays, watch entries and records belong to partitions. -/
structure Sched where
  parts   : Vector Partition 32
  cards   : List (Fin 32 × Card)
  replays : List (Fin 32 × Replay)
  watches : List (Nat × Watch)
  records : List (Fin 32 × Record)
  pqs     : Vector PrioQueue 32
deriving DecidableEq, Repr

/-! ### Steps and fabric -/

/-- A local step group (R100 to R102, R380, R381). `heard` holds the members that have answered ready for the step,
`told` is set when this package has told them, `gone` holds the members by whose loss the group has failed; `life` numbers this
join of the group among the package's own, `lives` holds the life of each member as it last told (R102), and `past` the
boundaries that each member has said it has applied (R97, R110). -/
structure Group where
  joined  : Bool
  gid     : BitVec 16
  members : List (BitVec 16)
  step    : Nat
  heard   : List (BitVec 16)
  told    : Bool
  failed  : Option (BitVec 16)
  gone    : List (BitVec 16)
  life    : Nat
  lives   : Sparse Nat
  past    : Sparse Nat
deriving DecidableEq, Repr

/-- The state of an export (R104, R113, R296): the first step whose writes it takes, and the step after which it is refused. -/
structure Region where
  part   : Fin 32
  base   : Nat
  bytes  : Nat
  group  : Fin 16
  rule   : Nat
  etype  : Nat
  begins : Nat
  untilStep : Option Nat
deriving DecidableEq, Repr

/-- A buffered stepped write (R105 to R109): region, step, key, place, bytes, kind, whether it lies in staging (R368), and what must have
been performed before it is applied, as its release orders, each with the core that sees it (R88). -/
structure Buffered where
  exp    : Nat
  group  : Fin 16
  step   : Nat
  key    : OKey
  off    : Nat
  data   : List Byte
  kind   : WKind
  staged : Bool
  depth  : Nat
  waits  : List (CoreId × RelWait)
deriving DecidableEq, Repr

/-- An entry of the multicast group table (R312). -/
structure McEntry where
  hdr     : Word
  members : List (BitVec 16)
deriving DecidableEq, Repr

/-- What the package holds of another one: the incarnation it knows and whether it is lost (R116, R379). -/
structure Peer where
  inc  : BitVec 16
  lost : Bool
deriving DecidableEq, Repr

/-- A request sent to a peer and not yet answered (R329, R379): who issued it, what was sent, how often, how many sends
timed out, and whether it waits for a hint. -/
structure Send where
  id     : Nat
  core   : Option (CoreId × SeqId × Nat)
  dst    : BitVec 16
  req    : PReq
  sends  : Nat
  timed  : Nat
  wait   : Bool
deriving DecidableEq, Repr

/-- The merging of the responses to one multicast RST (R314): the step group of the RST when this package has joined it, the
ports to children that are still to answer and what has been merged; at the root, the IA of the record and the chain depth of its
writes; `owed` holds the ports to subtrees that have not all their copies yet (R110, R267). -/
structure Ack where
  grp    : Fin 256
  group  : Option (Fin 16)
  step   : Nat
  key    : OKey
  left   : List (Fin 16)
  acc    : Nat
  refmap : Word
  record : Option Nat
  depth  : Nat
  owed   : List (Fin 16)
deriving DecidableEq, Repr

/-- A contribution received for an asynchronous COLL (R263): its sender, the group, the sender's count of such collectives in
the group, and its bytes. -/
structure Contrib where
  src  : BitVec 16
  grp  : Fin 256
  n    : Nat
  data : List Byte
deriving DecidableEq, Repr

/-- A peer's asynchronous write that its homes have confirmed: its sender, the id of the request, the chain depth, and the granules still
to be performed (R83). -/
structure Landing where
  src   : BitVec 16
  id    : Nat
  depth : Nat
  gs    : List (Nat × List Byte)
deriving DecidableEq, Repr

/-- Steps and the Strait fabric (R100 to R117, R312 to R316, R370 to R382). `seqnos` counts the writes of a sequencer in a
group and step (R107), `full` names the commands refused for room in a step (R371), `contrib` and `collSeq` serve asynchronous
collectives and exchanges (R98, R263), `areas` names the inbox areas of asynchronous XALLs that have come, by sender, export and
number, `landing` the writes of such areas that are under way, `inbox` holds the packets received and not yet acted on, `wire` the frames in the egress of the ports
and `tries` the failed attempts of the first frame of each (R376), and `joins` numbers the joins of groups (R102). -/
structure Fabric where
  pkg     : BitVec 16
  inc     : BitVec 16
  groups  : Vector Group 16
  regions : List (Nat × Region)
  sbuf    : List Buffered
  full    : List (BitVec 16 × Nat × OKey)
  seqnos  : Sparse Nat
  routes  : Sparse Word
  mcast   : List (Nat × McEntry)
  caps    : Sparse Word
  reqTmo  : Nat
  down    : BitVec 16
  uet     : BitVec 16
  peers   : List (Nat × Peer)
  sends   : List Send
  contrib : List (Contrib)
  collSeq : Sparse Nat
  areas   : List (BitVec 16 × Nat × Nat)
  landing : List Landing
  inbox   : List (BitVec 16 × PBody)
  wire    : List (Fin 16 × Packet)
  acks    : List Ack
  joins   : Nat
  tries   : Vector Nat 16
deriving DecidableEq, Repr

/-! ### Host and firmware -/

/-- A virtual function (R288 to R292). -/
structure VFun where
  part    : Option (Fin 32)
  rng     : RangeSet
  qring   : Nat
  qlog    : Nat
  qhead   : BitVec 32
  qtail   : BitVec 32
  ring    : List Host.Cell
  tail    : BitVec 32
  head    : BitVec 32
  cqbase  : Word
  cqlog   : Byte
  cqhead  : BitVec 32
  evhead  : BitVec 32
  cqcount : Nat
  evbase  : Nat
  evlog   : Nat
  evvec   : Nat
  evmask  : BitVec 16
  evcount : Nat
  evlost  : Nat
deriving DecidableEq, Repr

/-- What the part has sent to the host: the data of a read, or a signalled message (R288, R291). -/
inductive HostMsg where
  | data (vf : Fin 1024) (bs : List Byte)
  | signal (vf : Fin 1024) (vector : Nat)
deriving DecidableEq, Repr

/-- A command that firmware has taken (R293, R294): the command of the table, none where its code is unknown or a reserved field of
its entry is not zero, the completion ring as it was read then (R292), and, once it has begun and goes on, what it will return (R294, R309, R329). -/
structure FwEntry where
  instr  : Option Instr
  cmd    : FwCmd
  cqbase : Word
  cqlog  : Nat
  begun  : Option Word
deriving DecidableEq, Repr

/-- The host link and the management core (R288 to R304). `fwq` holds the commands taken; `stalled` the host accesses that wait
(R303, R356), of which the first `slept` came in Standby and wait for Active; `posted` the event records that have been posted and are not delivered yet, each with its partition (R399, R400);
`staged` the firmware image for the next reset and `fwim` the one that runs, where it was staged (R300); `crit` the partitions lost
by a reset at critical temperature that firmware has to report, as a mask (R394, R399). -/
structure HostSide where
  vfs     : List (Nat × VFun)
  fwq     : List FwEntry
  out     : List HostMsg
  stalled : List Instr
  slept   : Nat
  cap     : Nat
  pstate  : Nat
  posted  : List (Option (Fin 32) × Event)
  staged  : Option (List Byte)
  fwim    : Option (List Byte)
  fwver   : BitVec 32
  hssIdx  : Nat
  routeIm : List Byte
  evSeq   : Sparse (BitVec 32)
  crit    : Option Word
deriving DecidableEq, Repr

/-! ### The machine -/

/-- One move of one agent (R4): a sequencer issues, an event of the table occurs, firmware executes the oldest command it has taken from a function, a store
reaches its next moment short of home (R84), the next part of a sequencer's oldest load is performed before the rest (R83), an
atomic that may be performed is (R90), a line is read at its homes for a core ahead of a load (R86), a line is replaced (R67, R69),
an engine command does one more unit (R247), a matrix operation one more step or row (R241), the arrays suffer an error (R355), a row of a stack is activated or refreshed (R358),
the neighbour at a port acknowledges the oldest frame (R376), a posted event record is delivered (R400), or the host reads its
region 1 (R292). -/
inductive Move where
  | issue (core : CoreId) (sq : SeqId)
  | occur (i : Instr)
  | firmware (vf : Fin 1024)
  | raise (core : CoreId) (sq : SeqId) (clu : Bool)
  | part (core : CoreId) (sq : SeqId)
  | lane (core : CoreId)
  | peek (core : CoreId) (sq : SeqId) (n ia : Nat)
  | piece (core : CoreId) (sq : SeqId) (n k : Nat)
  | matrix (core : CoreId) (n : Nat)
  | mxPeek (core : CoreId) (n off : Nat)
  | mxPiece (core : CoreId) (n k : Nat)
  | vecPeek (core : CoreId) (off : Nat)
  | imagePiece (core : CoreId)
  | landPiece (n k : Nat)
  | atom (core : CoreId) (sq : SeqId) (n : Nat)
  | lateLine (core : CoreId) (ia : Nat)
  | dropL1 (core : CoreId) (ia : Nat)
  | dropIc (core : CoreId) (ia : Nat)
  | unit (core : CoreId) (sq : SeqId) (n : Nat)
  | softError (key : Nat) (unc : Bool)
  | activate (stack : Fin 8) (chan : Fin 64) (row : Nat)
  | refresh (stack : Fin 8) (chan : Fin 64) (row : Nat)
  | acked (port : Fin 16)
  | deliver (n : Nat)
  | read1 (vf : Fin 1024) (off n : Nat)
deriving DecidableEq, Repr

/-- The sequencer whose instruction is being executed, its base word and its length. -/
structure Cursor where
  core : CoreId
  sq   : SeqId
  word : Word
  len  : Nat
deriving DecidableEq, Repr

/-- The state of the package. `agenda`, `cur`, `free`, `stamp` and `clock` are the model's own (log 1, 2). -/
structure State where
  agenda : List Move
  cur    : Cursor
  free   : Nat
  stamp  : Nat
  clock  : Nat
  cores  : Vector Core 256
  hm     : Homes
  sch    : Sched
  fab    : Fabric
  hst    : HostSide
deriving DecidableEq, Repr

/-- Why the machine stops. -/
inductive Fault where
  /-- A reset whose ROM refuses the firmware image (R300): the manual gives no continuation. Raised by COLD_RESET and
  WARM_RESET. Safe: the part runs nothing until a new reset. -/
  | romRefused
deriving DecidableEq, Repr

/-- Why an instruction has no meaning here. -/
inductive Refusal where
  /-- An instruction whose meaning is not written. Raised by `exec` alone. Safe: nothing is claimed of it. -/
  | notModelled (mnemonic : String)
deriving DecidableEq, Repr

/-! ### Reset -/

def LoopEntry.empty : LoopEntry := ⟨0, 0, 0, false⟩

def Frame.zero : Frame := ⟨0, 0, 0, 0, 0⟩

/-- A sequencer of a core without a card (R285; log 3). -/
def Seq.reset : Seq where
  g := Vector.replicate 32 0
  pc := 0
  fpcs := 0
  repc := 0
  rep := none
  loops := Vector.replicate 4 LoopEntry.empty
  spill := []
  rng := Vector.replicate 16 0
  loads := []
  stores := []
  atoms := []
  early := []
  lanes := []
  peeked := []
  named := []
  cmds := []
  errs := []
  relWaits := []
  frame := Frame.zero
  trapPend := false
  done := true
  ctxStop := false

def CState.reset : CState where
  shadow := Vector.replicate 8 0
  uevec := 0
  uevEn := false
  uevIn := false
  uevRet := 0
  uevq := []
  sup := false
  svSeq := .C
  sret := 0
  bank := Vector.replicate 32 0
  async := []
  bar := Vector.replicate 9 0
  barWait := none
  stpW := none
  flgW := false
  stepNo := 0
  yieldW := false
  cardW := none
  stand := false
  taken := none
  engStop := false
  uevRepc := 0
  svRepc := 0
  svLoops := Vector.replicate 4 LoopEntry.empty
  svEng := false
  uevRep := none
  svRep := none
  held := false
  barMet := false
  image := none

def Port.empty : Port := ⟨⟨0, 0, 0, 0⟩, 0, false⟩

def TopK.empty : TopK := ⟨false, false, false, 0, []⟩

def Tile.unset : Tile := ⟨0, 0, 0, false⟩

def NestLevel.zero : NestLevel := ⟨0, 0, 0, false⟩

def NestSet.zero : NestSet := ⟨Vector.replicate 6 NestLevel.zero, 0, 0⟩

def XState.reset : XState where
  v := Vector.replicate 48 0
  rot := 0
  masks := []
  ports := Vector.replicate 8 Port.empty
  topk := TopK.empty
  tiles := Vector.replicate 8 Tile.unset
  ftab := Vector.replicate 16 0
  shadow := NestSet.zero
  mx := []

def Queue.empty : Queue := ⟨[], 0, 0⟩

def BSlot.zero : BSlot := ⟨.trit, [], []⟩

def Core.reset : Core where
  seqs := Vector.replicate 4 Seq.reset
  c := CState.reset
  x := XState.reset
  tokens := Vector.replicate 8 0
  queues := Vector.replicate 8 Queue.empty
  bslots := Vector.replicate 2 BSlot.zero
  l1 := []
  late := []
  icache := []
  tvec := 0
  part := none
  card := 0

def Homes.reset : Homes where
  mem := []
  lm := []
  acc := []
  side := []
  ptes := []
  quar := []
  bad := []
  found := []
  capture := []
  acts := []
  tries := Vector.replicate 8 0
  out := 0
  dead := 0
  uncoded := []
  areaPages := []
  corrWin := 0
  hot := []
  sketch := []
  looks := Vector.replicate 8 0
  heat := []
  counts := []

/-- A partition that does not exist (R304). -/
def Partition.absent : Partition where
  live := false
  clusters := 0
  quotas := Vector.replicate 6 0
  charges := Vector.replicate 6 0
  aging := 1000
  promo := 64
  migr := 4096
  tvec := 0
  devqs := []
  pqMask := 0
  tables := []
  pft := []
  supq := []
  slots := []
  gone := []
  layers := []

def Sched.reset : Sched where
  parts := Vector.replicate 32 Partition.absent
  cards := []
  replays := []
  watches := []
  records := []
  pqs := Vector.replicate 32 ⟨none, []⟩

/-- A local group that no group has been joined at (R100). -/
def Group.absent : Group := ⟨false, 0, [], 0, [], false, none, [], 0, [], []⟩

/-- Steps and fabric after the first bring-up: incarnation 1, no route, no group (R116, R304). -/
def Fabric.reset : Fabric where
  pkg := 0
  inc := 1
  groups := Vector.replicate 16 Group.absent
  regions := []
  sbuf := []
  full := []
  seqnos := []
  routes := []
  mcast := []
  caps := []
  reqTmo := 20
  down := 0
  uet := 0
  peers := []
  sends := []
  contrib := []
  collSeq := []
  areas := []
  landing := []
  inbox := []
  wire := []
  acks := []
  joins := 0
  tries := Vector.replicate 16 0

/-- A virtual function that is not bound (R288, R292). -/
def VFun.zero : VFun where
  part := none
  rng := Vector.replicate 16 0
  qring := 0
  qlog := 0
  qhead := 0
  qtail := 0
  ring := []
  tail := 0
  head := 0
  cqbase := 0
  cqlog := 0
  cqhead := 0
  evhead := 0
  cqcount := 0
  evbase := 0
  evlog := 0
  evvec := 0
  evmask := 0
  evcount := 0
  evlost := 0

def HostSide.reset : HostSide where
  vfs := []
  fwq := []
  out := []
  stalled := []
  slept := 0
  cap := 1600
  pstate := 0
  posted := []
  staged := none
  fwim := none
  fwver := 0
  hssIdx := 0
  routeIm := []
  evSeq := []
  crit := none

/-- The machine right after its first bring-up (R304): no partition, no card, no group, no route, on-die memory zero,
VF 0's command queue open. -/
def State.reset : State where
  agenda := []
  cur := ⟨0, .C, 0, 8⟩
  free := 0
  stamp := 0
  clock := 0
  cores := Vector.replicate 256 Core.reset
  hm := Homes.reset
  sch := Sched.reset
  fab := Fabric.reset
  hst := HostSide.reset

end Sys2Proof.Machine
end

