-- ==== Sys2Proof/Machine/Base.lean ====
section
/-! DEFINITION. Sparse tables, bit helpers, and the accessors of cores, sequencers and partitions through which every
meaning reads and writes the state. -/

namespace Sys2Proof.Machine

/-! ### Sparse tables -/

/-- Read a sparse table whose unlisted keys hold `z`. -/
def sget {α : Type} (z : α) : List (Nat × α) → Nat → α
  | [], _ => z
  | (k, v) :: t, i => if k = i then v else sget z t i

/-- Place a key and its value in rising order of keys, replacing the key's old entry. -/
def sput {α : Type} : List (Nat × α) → Nat → α → List (Nat × α)
  | [], i, v => [(i, v)]
  | (k, w) :: t, i, v =>
    if i < k then (i, v) :: (k, w) :: t
    else if k = i then (i, v) :: t
    else (k, w) :: sput t i v

/-- Remove a key. -/
def sdel {α : Type} : List (Nat × α) → Nat → List (Nat × α)
  | [], _ => []
  | (k, w) :: t, i => if k = i then sdel t i else (k, w) :: sdel t i

/-- Write a sparse table: writing what an unlisted key holds removes the entry. -/
def sset {α : Type} [DecidableEq α] (z : α) (l : List (Nat × α)) (i : Nat) (v : α) : List (Nat × α) :=
  if v = z then sdel l i else sput l i v

/-- The canonical form: keys strictly rising and no entry that holds the default. -/
def swf {α : Type} [DecidableEq α] (z : α) : List (Nat × α) → Bool
  | [] => true
  | (_, v) :: [] => decide (v ≠ z)
  | (k, v) :: (k', v') :: t => decide (v ≠ z) && decide (k < k') && swf z ((k', v') :: t)

/-- Look a key up in a directory. -/
def dget {α : Type} : List (Nat × α) → Nat → Option α
  | [], _ => none
  | (k, v) :: t, i => if k = i then some v else dget t i

/-- The memory form of R61's bytes: what an unlisted byte reads as is 0 (log 4). -/
def Memory.unlisted : Byte := 0

/-- The canonical form of a memory. -/
def Memory.wf (m : List Host.Cell) : Bool := swf Memory.unlisted m

/-- One byte of a memory. -/
def Memory.get (m : List Host.Cell) (k : Nat) : Byte := sget Memory.unlisted m k

/-- Write one byte of a memory. -/
def Memory.set (m : List Host.Cell) (k : Nat) (b : Byte) : List Host.Cell := sset Memory.unlisted m k b

/-- The `n` bytes from a key up. -/
def Memory.read (m : List Host.Cell) (k : Nat) : Nat → List Byte
  | 0 => []
  | n + 1 => Memory.get m k :: Memory.read m (k + 1) n

/-- Write bytes from a key up. -/
def Memory.write (m : List Host.Cell) (k : Nat) : List Byte → List Host.Cell
  | [] => m
  | b :: bs => Memory.write (Memory.set m k b) (k + 1) bs

/-! ### Numbers -/

/-- Bits `[hi:lo]` of a number. -/
def nbits (v hi lo : Nat) : Nat := (v >>> lo) % 2 ^ (hi + 1 - lo)

/-- Round up to a multiple of 8. -/
def align8 (n : Nat) : Nat := (n + 7) / 8 * 8

/-- Add a signed offset to a number, modulo 2^64. -/
def addOff (a : Nat) (k : Int) : Nat := ((Int.ofNat a + k) % 18446744073709551616).toNat

/-- A word of a number. -/
abbrev word (n : Nat) : Word := BitVec.ofNat 64 n

/-- The numbers 0 to n − 1. -/
def upTo (n : Nat) : List Nat := List.range n

/-- The number of 1 bits of a number below 2^n (R165). -/
def popCount : Nat → Nat → Nat
  | 0, _ => 0
  | n + 1, v => v % 2 + popCount n (v / 2)

/-- One step of CRC-32C over a bit (R191). -/
def crcBit (c : BitVec 32) : BitVec 32 := if c.getLsbD 0 then (c >>> 1) ^^^ 0x82F63B78#32 else c >>> 1

/-- CRC-32C over a byte, without the final inversion (R191). -/
def crcByte (c : BitVec 32) (b : Byte) : BitVec 32 :=
  crcBit (crcBit (crcBit (crcBit (crcBit (crcBit (crcBit (crcBit (c ^^^ b.setWidth 32))))))))

/-- CRC-32C over bytes in ascending order (R75, R76, R191). -/
def crcBytes (c : BitVec 32) : List Byte → BitVec 32
  | [] => c
  | b :: bs => crcBytes (crcByte c b) bs

/-! ### Cores and sequencers -/

/-- Vector lookup with a natural index; out of range gives the default. -/
def vget {α : Type} {n : Nat} (v : Vector α n) (i : Nat) (z : α) : α := if h : i < n then v[i] else z

/-- Vector update with a natural index; out of range changes nothing. -/
def vset {α : Type} {n : Nat} (v : Vector α n) (i : Nat) (x : α) : Vector α n := if h : i < n then v.set i x else v

/-- The core with an id (R14). -/
def State.core (s : State) (c : CoreId) : Core := s.cores[c.val]

/-- Replace a core. -/
def State.setCore (s : State) (c : CoreId) (k : Core) : State := { s with cores := s.cores.set c.val k }

/-- A sequencer of a core (R15). -/
def Core.seq (k : Core) (q : SeqId) : Seq := k.seqs[q.idx.val]

/-- Replace a sequencer of a core. -/
def Core.setSeq (k : Core) (q : SeqId) (x : Seq) : Core := { k with seqs := k.seqs.set q.idx.val x }

/-- A sequencer of the package. -/
def State.seq (s : State) (c : CoreId) (q : SeqId) : Seq := (s.core c).seq q

/-- Replace a sequencer of the package. -/
def State.setSeq (s : State) (c : CoreId) (q : SeqId) (x : Seq) : State := s.setCore c ((s.core c).setSeq q x)

/-- The core of the sequencer now issuing. -/
def State.here (s : State) : Core := s.core s.cur.core

/-- Replace the core of the sequencer now issuing. -/
def State.setHere (s : State) (k : Core) : State := s.setCore s.cur.core k

/-- The sequencer now issuing. -/
def State.me (s : State) : Seq := s.here.seq s.cur.sq

/-- Replace the sequencer now issuing. -/
def State.setMe (s : State) (x : Seq) : State := s.setSeq s.cur.core s.cur.sq x

/-- C's further state, on the issuing core. -/
def State.c (s : State) : CState := s.here.c

def State.setC (s : State) (x : CState) : State := s.setHere { s.here with c := x }

/-- X's further state, on the issuing core. -/
def State.x (s : State) : XState := s.here.x

def State.setX (s : State) (x : XState) : State := s.setHere { s.here with x := x }

/-- The global id of a sequencer: four times the core id plus its index (R15). -/
def globalId (c : CoreId) (q : SeqId) : Nat := 4 * c.val + q.idx.val

/-- The x and y of a core (R14). -/
def coreX (c : CoreId) : Nat := c.val % 32

def coreY (c : CoreId) : Nat := c.val / 32

/-- The cluster of a core (R14). -/
def clusterOf (c : CoreId) : Nat := 8 * (coreY c / 2) + coreX c / 4

/-- The core at (x, y), if there is one (R14). -/
def coreAt (x y : Nat) : Option CoreId :=
  if h : x < 32 ∧ y < 8 then some ⟨32 * y + x, by omega⟩ else none

/-- Every core id. -/
def allCores : List CoreId := List.finRange 256

/-- The cores of a cluster, by id (R14). -/
def clusterCores (k : Nat) : List CoreId :=
  ((upTo 8).filterMap fun i => coreAt (4 * (k % 8) + i % 4) (2 * (k / 8) + i / 4))

/-- The die of a core: columns 0 to 15 are die 0 (R14). -/
def dieOf (c : CoreId) : Nat := if coreX c < 16 then 0 else 1

/-- The sequencers in index order (R15). -/
def allSeqs : List SeqId := [.C, .L, .X, .S]

/-- A general register; g0 reads 0 (R158). -/
def Seq.rd (x : Seq) (n : Fin 32) : Word := if n = 0 then 0 else x.g[n.val]

/-- Write a general register; a write to g0 is discarded (R158). -/
def Seq.wr (x : Seq) (n : Fin 32) (v : Word) : Seq := if n = 0 then x else { x with g := x.g.set n.val v }

/-- Write a run of registers in the order given. -/
def Seq.wrs (x : Seq) : List (Fin 32 × Word) → Seq
  | [] => x
  | (n, v) :: t => Seq.wrs (x.wr n v) t

/-! ### Partitions, cards, functions -/

/-- A partition. -/
def State.part (s : State) (p : Fin 32) : Partition := s.sch.parts[p.val]

/-- Replace a partition. -/
def State.setPart (s : State) (p : Fin 32) (x : Partition) : State :=
  { s with sch := { s.sch with parts := s.sch.parts.set p.val x } }

/-- The partition of a core, 0 when it has none (R60: only a core in a partition makes IAs). -/
def Core.partNo (k : Core) : Fin 32 := k.part.getD 0

/-- The card of a partition with a handle (R24). -/
def State.card? (s : State) (p : Fin 32) (h : Handle) : Option Card :=
  (s.sch.cards.find? fun c => c.1 = p && c.2.handle = h).map (·.2)

/-- Replace the card with the same handle. -/
def State.setCard (s : State) (p : Fin 32) (c : Card) : State :=
  { s with sch := { s.sch with
      cards := s.sch.cards.map fun d => if d.1 = p && d.2.handle = c.handle then (p, c) else d } }

/-- Remove a card. -/
def State.delCard (s : State) (p : Fin 32) (h : Handle) : State :=
  { s with sch := { s.sch with cards := s.sch.cards.filter fun d => !(d.1 = p && d.2.handle = h) } }

/-- The card on a core. -/
def State.cardOn (s : State) (c : CoreId) : Option Card :=
  if (s.core c).card = 0 then none else s.card? (s.core c).partNo (s.core c).card

/-- A virtual function (R288). -/
def State.vf (s : State) (v : Fin 1024) : VFun := (dget s.hst.vfs v.val).getD VFun.zero

/-- Replace a virtual function. -/
def State.setVf (s : State) (v : Fin 1024) (x : VFun) : State :=
  { s with hst := { s.hst with vfs := sput s.hst.vfs v.val x } }

/-- The next stamp. -/
def State.tick (s : State) : State := { s with stamp := s.stamp + 1 }

/-- Draw a free value below a bound (log 2). -/
def State.draw (s : State) (bound : Nat) : Nat × State :=
  (Config.freeNat s.free % bound, { s with free := s.free + 1 })

/-! ### Fields of a card image (R23) -/

/-- A byte-addressed field of a card image. -/
def CardImg.field (i : CardImg) (off size : Nat) : Nat :=
  ((i.toList.getD (off / 8) 0).toNat >>> (8 * (off % 8))) % 2 ^ (8 * size)

def CardImg.code (i : CardImg) : Word := i[0]

/-- The entry of a sequencer in 8-byte units; 0xFFFF runs nothing (R23). -/
def CardImg.entry (i : CardImg) (q : SeqId) : Nat := CardImg.field i (8 + 2 * q.idx.val) 2

def CardImg.wlog (i : CardImg) : Nat := CardImg.field i 0x10 1

def CardImg.hlog (i : CardImg) : Nat := CardImg.field i 0x11 1

def CardImg.orgx (i : CardImg) : Nat := CardImg.field i 0x12 1

def CardImg.orgy (i : CardImg) : Nat := CardImg.field i 0x13 1

def CardImg.cls (i : CardImg) : Nat := CardImg.field i 0x14 1

def CardImg.flags (i : CardImg) : Nat := CardImg.field i 0x15 1

def CardImg.fixed (i : CardImg) : Bool := CardImg.flags i % 2 == 1

def CardImg.stepped (i : CardImg) : Bool := CardImg.flags i / 2 % 2 == 1

def CardImg.fused (i : CardImg) : Bool := CardImg.flags i / 4 % 2 == 1

def CardImg.npre (i : CardImg) : Bool := CardImg.flags i / 8 % 2 == 1

def CardImg.stepGrp (i : CardImg) : Fin 16 := ⟨CardImg.field i 0x16 1 % 16, Nat.mod_lt _ (by decide)⟩

def CardImg.cact (i : CardImg) : Nat := CardImg.field i 0x17 1

def CardImg.dep (i : CardImg) : Nat := CardImg.field i 0x18 2

def CardImg.qpool (i : CardImg) : Nat := CardImg.field i 0x1A 1

/-- The base of the elastic pool, a local offset (R23, R32). -/
def CardImg.poolBase (i : CardImg) : Nat := 8 * (CardImg.field i 0x1C 4 % 2 ^ 18)

/-- The slots of the elastic pool (R23). -/
def CardImg.poolSize (i : CardImg) : Nat := CardImg.field i 0x1C 4 / 2 ^ 18 % 2 ^ 13

def CardImg.cwaddr (i : CardImg) : Word := i[4]

def CardImg.cwval (i : CardImg) : Word := i[5]

def CardImg.succ (i : CardImg) (n : Nat) : Handle := BitVec.ofNat 32 (CardImg.field i (0x30 + 4 * n) 4)

/-- Producer and consumer index of queue `n` (R23). -/
def CardImg.qbind (i : CardImg) (n : Nat) : Nat × Nat :=
  let v := CardImg.field i 0x38 4 >>> (4 * n)
  (v % 4, v / 4 % 4)

/-- Producer and consumer index of token `n` (R23). -/
def CardImg.tbind (i : CardImg) (n : Nat) : Nat × Nat :=
  let v := CardImg.field i 0x3C 4 >>> (4 * n)
  (v % 4, v / 4 % 4)

/-- P-word `n` (R23). -/
def CardImg.pword (i : CardImg) (n : Fin 8) : Word := i[8 + n.val]

/-- A card image from its 128 bytes. -/
def CardImg.ofBytes (bs : List Byte) : CardImg :=
  Vector.ofFn fun i => word (leNat ((bs.drop (8 * i.val)).take 8))

/-- The cores of a rectangle (R25). -/
def rectCores (ox oy w h : Nat) : List CoreId :=
  (upTo (w * h)).filterMap fun i => coreAt (ox + i % w) (oy + i / w)

/-- The cores that a running card holds. -/
def Card.cores (c : Card) : List CoreId := rectCores c.ox c.oy (2 ^ CardImg.wlog c.img) (2 ^ CardImg.hlog c.img)

/-! ### Range registers (R57) -/

def Range.v (r : Range) : Bool := r.getLsbD 127

def Range.rd (r : Range) : Bool := r.getLsbD 126

def Range.wr (r : Range) : Bool := r.getLsbD 125

def Range.ex (r : Range) : Bool := r.getLsbD 124

def Range.cache (r : Range) : Nat := (r.extractLsb' 122 2).toNat

def Range.hint (r : Range) : Nat := (r.extractLsb' 120 2).toNat

def Range.iabase (r : Range) : Nat := (r.extractLsb' 72 35).toNat

def Range.size (r : Range) : Nat := (r.extractLsb' 36 36).toNat

def Range.vbase (r : Range) : Nat := (r.extractLsb' 0 36).toNat

/-! ### Counters (R369, R382, R401) -/

/-- Raise a reliability counter by one, saturating; its key is its offset in tier 6. -/
def State.count (s : State) (key : Nat) : State :=
  let v := sget 0 s.hm.counts key
  { s with hm := { s.hm with counts := sset 0 s.hm.counts key (if v.toNat = 2 ^ 32 - 1 then v else v + 1) } }

end Sys2Proof.Machine
end

