-- ==== Sys2Proof/Machine/Mem.lean ====
section
/-! DEFINITION. Addresses and homes: range registers (R58), the fields of an IA (R60), page tables and physical places
(R61, R62, R64), coded pages (R80, R255, R256), the hot-row directory (R74, R75), and the reads and writes of bytes at
their homes and in local memory. Nothing here checks a watch or posts an event. -/

namespace Sys2Proof.Machine

/-! ### Intermediate addresses (R60) -/

def iaPart (ia : Nat) : Fin 32 := ⟨ia / 2 ^ 47 % 32, Nat.mod_lt _ (by decide)⟩

def iaTier (ia : Nat) : Nat := ia / 2 ^ 44 % 8

def iaOff (ia : Nat) : Nat := ia % 2 ^ 44

/-- The lowest bit of a tier's selection field, and its width (R60). -/
def selLo (tier : Nat) : Nat := if tier = 3 then 16 else 12

def selBits (tier : Nat) : Nat :=
  match tier with
  | 0 => 3 | 1 => 2 | 2 => 2 | 3 => 3 | _ => 0

/-- The home of an IA: HBM stacks 0 to 7, Skerries 8 to 15, the Causeway port 16 (R17, R60). -/
def homeOf (ia : Nat) : Option (Fin 17) :=
  let o := iaOff ia
  match iaTier ia with
  | 0 => some (Fin.ofNat 17 (nbits o 14 12 ^^^ nbits o 23 21 ^^^ nbits o 32 30))
  | 1 => some (Fin.ofNat 17 (nbits o 13 12 ^^^ nbits o 22 21 ^^^ nbits o 31 30))
  | 2 => some (Fin.ofNat 17 (4 + (nbits o 13 12 ^^^ nbits o 22 21 ^^^ nbits o 31 30)))
  | 3 => some (Fin.ofNat 17 (8 + (nbits o 18 16 ^^^ nbits o 27 25 ^^^ nbits o 36 34)))
  | 4 => some 16
  | _ => none

/-! ### Range registers (R58) -/

/-- A virtual address is canonical (R57). -/
def canonical (va : Nat) : Bool :=
  nbits va 63 48 == (if nbits va 47 47 == 1 then 0xFFFF else 0)

/-- A range register matches an access of `n` bytes at VA bits [47:0] (R58). A register whose IA span leaves its tier
matches nothing. -/
def Range.hits (r : Range) (v48 n : Nat) : Bool :=
  Range.v r && decide (Range.vbase r * 4096 ≤ v48)
    && decide (v48 + n ≤ (Range.vbase r + Range.size r) * 4096)
    && decide (iaOff (Range.iabase r * 4096) + Range.size r * 4096 ≤ 2 ^ 44)

/-- The first matching register and the IA (R58). -/
def rangeFind (part : Nat) (rs : List Range) (v48 n : Nat) : Option (Range × Nat) :=
  match rs with
  | [] => none
  | r :: t =>
    if Range.hits r v48 n then
      some (r, part * 2 ^ 47 + (Range.iabase r * 4096 + (v48 - Range.vbase r * 4096)) % 2 ^ 47)
    else rangeFind part t v48 n

/-- The permission an access needs (R58). -/
inductive Perm where
  | rd | wr | ex
deriving DecidableEq, Repr

def Perm.of (r : Range) : Perm → Bool
  | .rd => Range.rd r
  | .wr => Range.wr r
  | .ex => Range.ex r

/-- A translated access: its IA, and CACHE and HINT of the register (R57). -/
structure Trans where
  ia    : Nat
  cache : Nat
  hint  : Nat
deriving DecidableEq, Repr

/-- Translate an access of `n` bytes through a range set (R58): a miss is cause 0x06, a missing permission 0x07. -/
def translate (part : Fin 32) (rs : RangeSet) (va n : Nat) (p : Perm) : Except Nat Trans :=
  if canonical va then
    match rangeFind part.val rs.toList (va % 2 ^ 48) n with
    | none => .error 0x06
    | some (r, ia) => if p.of r then .ok ⟨ia, Range.cache r, Range.hint r⟩ else .error 0x07
  else .error 0x06

/-! ### Page tables (R61, R62, R64) -/

/-- Bytes of a page of a size code (R61). -/
def pageSize (code : Nat) : Nat := 4096 * 4 ^ code

/-- The key of a page-table entry: home, partition, size code and the page's place in the partition. -/
def pteKey (home : Fin 17) (part : Fin 32) (code base : Nat) : Nat :=
  ((home.val * 32 + part.val) * 16 + code) * 2 ^ 47 + base % 2 ^ 47

def pteP (w : Word) : Bool := w.bit 63
def pteW (w : Word) : Bool := w.bit 62
def ptePin (w : Word) : Bool := w.bit 61
def pteStp (w : Word) : Bool := w.bit 60
def pteRule (w : Word) : Nat := w.bits 59 57
def pteEtype (w : Word) : Nat := w.bits 56 54
def pteCmp (w : Word) : Bool := w.bit 53
def ptePsn (w : Word) : Bool := w.bit 52
def pteFrame (w : Word) : Nat := w.bits 51 12 * 4096
def pteQcls (w : Word) : Nat := w.bits 7 5
def pteRaw (w : Word) : Bool := w.bit 4

/-- Set or clear one bit of an entry. -/
def pteSet (w : Word) (i : Nat) (b : Bool) : Word :=
  if b then w ||| (1#64 <<< i) else w &&& ~~~(1#64 <<< i)

/-- An entry that no lookup accepts: an invalid SIZE, RULE or ETYPE (R62, R364). -/
def pteBad (w : Word) : Bool :=
  decide (10 ≤ w.bits 11 8) || decide (6 ≤ pteRule w) || (pteRule w != 0 && decide (5 ≤ pteEtype w))

/-- A page-table entry that matches an IA at its home; `hbm` when its frame is an HBM one to which the page has migrated
(R79). -/
structure Hit where
  home : Fin 17
  key  : Nat
  pte  : Word
  size : Nat
  base : Nat
  hbm  : Bool
deriving DecidableEq, Repr

/-- The key beside an entry's that records its migration: a word that is no present entry, with the frame that the page came
from in PFN's place and bit 0 set (log 8). -/
def movedKey (k : Nat) : Nat := k + 2 ^ 62

/-- The page of an entry is migrated. -/
def movedAt (ptes : Sparse Word) (k : Nat) : Bool := sget 0 ptes (movedKey k) != 0

/-- The entry of one size code at a home that matches an IA. -/
def hitOf (ptes : Sparse Word) (home : Fin 17) (ia code : Nat) : Option Hit :=
  let size := pageSize code
  let base := ia / size * size
  let key := pteKey home (iaPart ia) code base
  let w := sget 0 ptes key
  if pteP w then some ⟨home, key, w, size, base, movedAt ptes key⟩ else none

/-- The present entry of the smallest size (R64). -/
def lookup (ptes : Sparse Word) (ia : Nat) : Option Hit :=
  match homeOf ia with
  | none => none
  | some h => (upTo 10).findSome? (hitOf ptes h ia)

/-- The selection bits that lie inside a page (R61). -/
def inPageSel (tier size : Nat) : Nat :=
  min (selBits tier) (Nat.log2 size - selLo tier)

/-- The home-local place of an IA in its frame: the in-page offset without the in-page selection bits (R61). -/
def homeLocal (tier size off : Nat) : Nat :=
  let k := inPageSel tier size
  off / 2 ^ (selLo tier + k) * 2 ^ selLo tier + off % 2 ^ selLo tier

/-- The bytes of a page's frame at one of its homes (R61). -/
def frameBytes (tier size : Nat) : Nat := size / 2 ^ inPageSel tier size

/-- The physical address of an IA under an entry (R61). -/
def Hit.phys (h : Hit) (ia : Nat) : Nat := pteFrame h.pte + homeLocal (iaTier ia) h.size (ia - h.base)

/-- The array in which a home's frame lies: the home's own memory, or for a migrated page the HBM stack of the same index;
the Causeway port's pages migrate to stack 0 (log 8). -/
def arrayOf (home : Fin 17) (hbm : Bool) : Fin 17 := if hbm then Fin.ofNat 17 (home.val % 8) else home

/-- The array that holds the frame of an entry. -/
def Hit.arr (h : Hit) : Fin 17 := arrayOf h.home h.hbm

/-- The memory key of an IA under an entry: the array and the physical address. -/
def Hit.memKey (h : Hit) (ia : Nat) : Nat := h.arr.val * 2 ^ 52 + h.phys ia

/-- The homes that hold parts of a page (R61). -/
def pageHomes (base size : Nat) : List (Fin 17) :=
  let tier := iaTier base
  ((upTo (2 ^ inPageSel tier size)).filterMap fun i => homeOf (base + i * 2 ^ selLo tier)).eraseDups

/-- Two runs of bytes share a byte. -/
def overlap (a n b m : Nat) : Bool := decide (a < b + m) && decide (b < a + n) && decide (0 < n) && decide (0 < m)

/-- A page-table entry with its page, and whether the page is migrated. -/
structure PteAt where
  home : Fin 17
  part : Fin 32
  code : Nat
  base : Nat
  pte  : Word
  hbm  : Bool := false
deriving DecidableEq, Repr

/-- The page of a key of the page tables. -/
def pteAt (k : Nat) (w : Word) : PteAt :=
  let p : Fin 32 := Fin.ofNat 32 (k / 2 ^ 47 / 16)
  { home := Fin.ofNat 17 (k / 2 ^ 47 / 512), part := p, code := k / 2 ^ 47 % 16, base := p.val * 2 ^ 47 + k % 2 ^ 47, pte := w }

/-- The array that holds an entry's frame. -/
def PteAt.arr (e : PteAt) : Fin 17 := arrayOf e.home e.hbm

/-- The bytes of an entry's frame. -/
def PteAt.frameBytes (e : PteAt) : Nat := Sys2Proof.Machine.frameBytes (iaTier e.base) (pageSize e.code)

/-- The present entries of all homes. -/
def State.entries (s : State) : List PteAt :=
  (s.hm.ptes.filter fun e => pteP e.2).map fun e => { pteAt e.1 e.2 with hbm := movedAt s.hm.ptes e.1 }

/-! ### Frames (log 8) -/

/-- The runs of physical addresses in use in an array: frames of present pages and retired ones. -/
def State.framesUsed (s : State) (arr : Fin 17) : List (Nat × Nat) :=
  ((s.entries.filter fun e => e.arr = arr).map fun e => (pteFrame e.pte, e.frameBytes))
    ++ (s.hm.quar.filter fun f => f.1 = arr.val).map (·.2)

/-- The bytes of a context image (R345). -/
def saveImageBytes : Nat := 0x34C000

/-- The bytes that firmware reserves at each HBM stack for a partition: an eighth, in pages, of its save pool of two images a core
(R343), which lies at the top of the stack (log 8). -/
def poolShare (clusters : BitVec 32) : Nat := (2 * (8 * popCount 32 clusters.toNat) * saveImageBytes / 8 + 4095) / 4096 * 4096

/-- The first address of an array beyond what firmware may hand out: the save pools of the live partitions lie above it. -/
def State.frameTop (s : State) (arr : Fin 17) : Nat :=
  if arr.val < 8 then
    Config.frameLimit arr.val - ((s.sch.parts.toList.filter (·.live)).map fun p => poolShare p.clusters).sum
  else Config.frameLimit arr.val

/-- The save pool of a new partition finds room at every HBM stack (R343). -/
def State.poolRoom (s : State) (clusters : BitVec 32) : Bool :=
  (upTo 8).all fun a =>
    let arr : Fin 17 := Fin.ofNat 17 a
    (s.framesUsed arr).all fun u => decide (u.1 + u.2 + poolShare clusters ≤ s.frameTop arr)

/-- The lowest free aligned run of `n` bytes in an array. -/
def State.freeFrame (s : State) (arr : Fin 17) (n : Nat) : Option Nat :=
  let used := s.framesUsed arr
  let starts := 0 :: used.map fun u => (u.1 + u.2 + n - 1) / n * n
  let ok := starts.filter fun a => decide (a + n ≤ s.frameTop arr) && used.all fun u => !overlap a n u.1 u.2
  match ok with
  | [] => none
  | a :: t => some (t.foldl min a)

/-- Free frames for a page at each of its homes: in its tier's memory, or in HBM for a migrated page. A stack that has failed has
none (R356). -/
def State.framesFor (s : State) (base size : Nat) (hbm : Bool) : Option (List (Fin 17 × Nat)) :=
  (pageHomes base size).mapM fun h =>
    let a := arrayOf h hbm
    if s.hm.dead.getLsbD a.val then none
    else (s.freeFrame a (frameBytes (iaTier base) size)).map fun f => (h, f)

/-- An entry with its frame replaced. -/
def pteWithFrame (w : Word) (a : Nat) : Word := (w &&& ~~~(0xFFFFFFFFFF#64 <<< 12)) ||| word a

/-- Set the entries of a page at its homes from the frames given. -/
def State.placePage (s : State) (part : Fin 32) (code base : Nat) (frames : List (Fin 17 × Nat)) (f : Word → Word) : State :=
  { s with hm := { s.hm with ptes := frames.foldl (fun m h =>
      let k := pteKey h.1 part code base
      sset 0 m k (pteWithFrame (f (sget 0 m k)) h.2)) s.hm.ptes } }

/-- The size code of an entry's page. -/
def Hit.code (h : Hit) : Nat := Nat.log2 (h.size / 4096) / 2

/-- A key of local memory: core and offset (R65). -/
def lmKey (c : CoreId) (off : Nat) : Nat := c.val * 2 ^ 21 + off

/-- Bytes of a core's local memory. -/
def lmRead (s : State) (c : CoreId) (off n : Nat) : List Byte := Memory.read s.hm.lm (lmKey c off) n

/-- Write bytes of a core's local memory. -/
def lmWrite (s : State) (c : CoreId) (off : Nat) (bs : List Byte) : State :=
  { s with hm := { s.hm with lm := Memory.write s.hm.lm (lmKey c off) bs } }

/-! ### Coded blocks (R255, R256) -/

/-- A coded block's header: code, decoded bytes, payload bytes, CRC. -/
structure CodedHeader where
  code   : Nat
  outLen : Nat
  inLen  : Nat
  crc    : BitVec 32
deriving DecidableEq, Repr

/-- Read a header; none when it breaks R255's table. -/
def codedHeader (bs : List Byte) : Option CodedHeader :=
  let f := fun o n => leNat ((bs.drop o).take n)
  if f 0 2 = 0xD3C0 ∧ f 2 1 ≤ 1 ∧ f 3 1 = 0 ∧ 1 ≤ f 4 4 ∧ f 4 4 ≤ 65536 ∧ (f 2 1 = 0 → f 8 4 = f 4 4) then
    some ⟨f 2 1, f 4 4, f 8 4, BitVec.ofNat 32 (f 12 4)⟩
  else none

/-- The bits of a payload in stream order (R256). -/
def streamBits (bs : List Byte) : List Bool :=
  bs.flatMap fun b => (upTo 8).map fun i => b.getLsbD i

/-- Read `n` trits of a ternary stream: their two-bit patterns and the bits left (R125, R256). -/
def ternary : Nat → List Bool → Option (List Nat × List Bool)
  | 0, bits => some ([], bits)
  | n + 1, false :: t => (ternary n t).map fun r => (0 :: r.1, r.2)
  | n + 1, true :: false :: t => (ternary n t).map fun r => (1 :: r.1, r.2)
  | n + 1, true :: true :: t => (ternary n t).map fun r => (3 :: r.1, r.2)
  | _ + 1, _ => none

/-- Pack two-bit patterns four to a byte, the first lowest (R125). -/
def packTrits : List Nat → List Byte
  | a :: b :: c :: d :: t => BitVec.ofNat 8 (a + 4 * b + 16 * c + 64 * d) :: packTrits t
  | _ => []

/-- Decode a payload (R256); none when the stream and INLEN do not fit each other. -/
def decodePayload (h : CodedHeader) (payload : List Byte) : Option (List Byte) :=
  if h.code = 0 then some payload
  else
    match ternary (4 * h.outLen) (streamBits payload) with
    | none => none
    | some (ts, rest) =>
      if rest.length < 8 ∧ rest.all (· == false) then some (packTrits ts) else none

/-- The 32-bit form of CRC-32C (R191). -/
def crc32c (bs : List Byte) : BitVec 32 := crcBytes 0xFFFFFFFF#32 bs ^^^ 0xFFFFFFFF#32

/-- The result of decoding one block of coded bytes: what it decodes to and the bytes it took, or the status (R246). -/
def decodeBlock (bs : List Byte) : Except Nat (List Byte × Nat) :=
  match codedHeader (bs.take 16) with
  | none => .error 0x04
  | some h =>
    let payload := (bs.drop 16).take h.inLen
    if payload.length < h.inLen then .error 0x04
    else
      match decodePayload h payload with
      | none => .error 0x04
      | some out => if crc32c out = h.crc then .ok (out, align8 (16 + h.inLen)) else .error 0x05

/-- Decode the blocks of a page whose decoded bytes must sum to the page (R366); the fuel bounds the blocks. -/
def decodePage : Nat → List Byte → Nat → Option (List Byte)
  | _, _, 0 => some []
  | 0, _, _ => none
  | fuel + 1, bs, left =>
    match decodeBlock bs with
    | .error _ => none
    | .ok (out, used) =>
      if out.length ≤ left then (decodePage fuel (bs.drop used) (left - out.length)).map (out ++ ·) else none

/-! ### Tables and the hot-row directory (R72 to R75) -/

/-- The bytes of a row (R73). -/
def Table.rowBytes (t : Table) : Nat :=
  match t.fmt with
  | 0 => t.elems + 4
  | 1 => t.elems / 2 + 4
  | 2 => 2 * t.elems
  | _ => 4 * t.elems + 4

/-- The row of a table of tier 3 that holds an IA, among tables that meet a test: table id, local row and the byte within the row. -/
def rowOf (ok : Table → Bool) (tables : List (Nat × Table)) (ia : Nat) : Option (Nat × Table × Nat × Nat) :=
  tables.findSome? fun e =>
    let t := e.2
    if !ok t ∨ iaTier t.base ≠ 3 ∨ ia < t.base ∨ t.stride = 0 then none
    else
      let r := (ia - t.base) / t.stride
      let o := (ia - t.base) % t.stride
      if r < t.rows ∧ o < t.rowBytes then some (e.1, t, r, o) else none

/-- The row of tables with a hot area that holds an IA of tier 3 (R74). -/
def State.rowAt (s : State) (ia : Nat) : Option (Nat × Table × Nat × Nat) :=
  if iaTier ia = 3 then rowOf (·.hotLog ≠ 0xFF) (s.part (iaPart ia)).tables ia else none

/-- The hot copy of a row. -/
def State.hotCopy (s : State) (p : Fin 32) (t r : Nat) : Option HotRow :=
  s.hm.hot.find? fun h => h.part = p ∧ h.table = t ∧ h.row = r

/-- The set of a row in its table's hot area (R75). -/
def hotSet (t : Table) (id r : Nat) : Nat :=
  (crcBytes 0xFFFFFFFF#32 (leBytes 2 id ++ leBytes 8 r)).toNat % 2 ^ t.hotLog

/-- The four sketch counters of a row, by key (R76). -/
def sketchKeys (skerry : Nat) (p : Fin 32) (id r : Nat) : List Nat :=
  (upTo 4).map fun i =>
    (skerry * 4 + i) * 65536
      + (crcBytes (BitVec.ofNat 32 (i + 1)) (leBytes 1 p.val ++ leBytes 2 id ++ leBytes 8 r)).toNat % 65536

/-- A row's sketch estimate: the least of its four counters (R76). -/
def State.estimate (s : State) (skerry : Nat) (p : Fin 32) (id r : Nat) : Nat :=
  ((sketchKeys skerry p id r).map fun k => (sget 0 s.hm.sketch k).toNat).foldl min 65535

/-- The Skerry of a row's first byte (R74). -/
def rowSkerry (t : Table) (r : Nat) : Nat := (((homeOf (t.base + r * t.stride)).getD 8).val - 8) % 8

/-- Bytes of one way of a hot area: STRIDE rounded up to 64 (R75). -/
def Table.slot (t : Table) : Nat := (t.stride + 63) / 64 * 64

/-- The IA of a way. -/
def Table.wayIa (t : Table) (set way : Nat) : Nat := t.hotArea + (set * 16 + way) * t.slot

/-- The IA of a local row. -/
def Table.rowIa (t : Table) (l : Nat) : Nat := t.base + l * t.stride

/-- Bytes at their physical places, without the directory or the decoder: the present entry at each byte's home. -/
def State.rawBytes (s : State) (ia : Nat) : Nat → List Byte
  | 0 => []
  | n + 1 =>
    (match lookup s.hm.ptes ia with
      | some h => Memory.get s.hm.mem (h.memKey ia)
      | none => 0) :: State.rawBytes s (ia + 1) n

/-- Write bytes at their physical places. -/
def State.rawWrite (s : State) (ia : Nat) : List Byte → State
  | [] => s
  | b :: bs =>
    State.rawWrite
      (match lookup s.hm.ptes ia with
        | some h => { s with hm := { s.hm with mem := Memory.set s.hm.mem (h.memKey ia) b } }
        | none => s) (ia + 1) bs

/-- The bytes of a whole page, coded as they stand. -/
def State.pageBytes (s : State) (h : Hit) : List Byte := s.rawBytes h.base h.size

/-- The decoded bytes of a coded page (R80, R366). -/
def State.pageDecoded (s : State) (h : Hit) : Option (List Byte) := decodePage h.size (s.pageBytes h) h.size

/-- One byte of a frame as a reader beneath the directory gets it: decoded from a coded page, else as it stands (R80). -/
def State.frameByte (s : State) (ia : Nat) : Byte :=
  match lookup s.hm.ptes ia with
  | none => 0
  | some h =>
    if pteCmp h.pte && !pteRaw h.pte then ((s.pageDecoded h).getD []).getD (ia - h.base) 0 else Memory.get s.hm.mem (h.memKey ia)

/-- Bytes of frames beneath the directory. -/
def State.frameBytes (s : State) (ia n : Nat) : List Byte := (upTo n).map fun i => s.frameByte (ia + i)

/-- The word of the array that holds a memory key (R355). -/
def badKey (k : Nat) : Nat := k / 8

/-- Words that are written anew are in error no longer (R354). -/
def State.rewriteWords (s : State) (ia n : Nat) : State :=
  let ks := (upTo n).filterMap fun i => (lookup s.hm.ptes (ia + i)).map fun h => badKey (h.memKey (ia + i))
  if s.hm.bad.isEmpty then s else { s with hm := { s.hm with bad := s.hm.bad.filter fun e => !ks.contains e.1 } }

/-- Make a coded page uncoded before its first write (R80, R366): its decoded bytes go to fresh frames and CMP is cleared at every
home; the capacity-page charge grows by the page. Without a free frame nothing changes (log 8). -/
def State.uncode (s : State) (h : Hit) : State :=
  match s.pageDecoded h, s.framesFor h.base h.size false with
  | some bs, some frames =>
    let p := iaPart h.base
    let s := s.placePage p h.code h.base frames fun w => pteSet w 53 false
    let s := (s.rewriteWords h.base h.size).rawWrite h.base bs
    let s := { s with hm := { s.hm with uncoded := h.base :: s.hm.uncoded } }
    let pt := s.part p
    s.setPart p { pt with charges := vset pt.charges 2 (vget pt.charges 2 0 + h.size) }
  | _, _ => s

/-- A page that is decoded at its first write: coded, and no raw view. -/
def Hit.coded (h : Hit) : Bool := pteCmp h.pte && !pteRaw h.pte

/-- The first write to a coded page needs an uncoded frame that is free and within the capacity-page quota (R366). -/
def State.uncodeFits (s : State) (h : Hit) : Bool :=
  let p := iaPart h.base
  decide (vget (s.part p).charges 2 0 + h.size ≤ vget (s.part p).quotas 2 0) && (s.framesFor h.base h.size false).isSome

/-- The coded pages that hold bytes of a run. -/
def State.codedIn (s : State) (ia n : Nat) : List Hit :=
  ((upTo n).filterMap fun i => (lookup s.hm.ptes (ia + i)).filter Hit.coded).eraseDups

/-- The coded pages that a write of a byte decodes: its own, and those under its row, which the write-back of the row writes too (R74,
R80). -/
def State.firstWrites (s : State) (ia : Nat) : List Hit :=
  match s.rowAt ia with
  | none => s.codedIn ia 1
  | some (_, t, r, _) => (s.codedIn ia 1 ++ s.codedIn (t.rowIa r) t.rowBytes).eraseDups

/-- Uncode pages one after the other; none when one of them does not fit (R366, R367). -/
def State.uncodeEach (s : State) : List Hit → Option State
  | [] => some s
  | h :: t => if s.uncodeFits h then State.uncodeEach (s.uncode h) t else none

/-- Make the coded pages that a write of a run of bytes decodes uncoded (R80). -/
def State.uncodeRun (s : State) (ia : Nat) : Nat → State
  | 0 => s
  | n + 1 => State.uncodeRun ((s.firstWrites ia).foldl State.uncode s) (ia + 1) n

/-- Write a dirty hot row back to LPDDR 6, over bad words too; a coded page under it is uncoded first (R74, R80, R362). Two cases the
manual leaves open (log 8): bytes whose page MEM_UNMAP has unmapped are dropped with the copy, and a copy that took no store, dirty only
because of a bad word under it (R362), is dropped where the quota cannot take the uncoded page. -/
def State.writeBack (s : State) (t : Table) (h : HotRow) : State :=
  if h.dirty && !h.lost then
    match s.uncodeEach (s.codedIn (t.rowIa h.row) h.data.length) with
    | none => s
    | some s => (s.rewriteWords (t.rowIa h.row) h.data.length).rawWrite (t.rowIa h.row) h.data
  else s

/-- The least way of a list by sketch estimate, each row's in its own Skerry, the first of equals (R75, R76). -/
def leastWay (s : State) (t : Table) : List HotRow → Option HotRow
  | [] => none
  | h :: l =>
    match leastWay s t l with
    | none => some h
    | some m =>
      if s.estimate (rowSkerry t m.row) m.part m.table m.row < s.estimate (rowSkerry t h.row) h.part h.table h.row then some m
      else some h

/-- The occupied ways of a set, in way order. -/
def State.waysOf (s : State) (p : Fin 32) (id set : Nat) : List HotRow :=
  (upTo 16).filterMap fun w => s.hm.hot.find? fun h => h.part = p ∧ h.table = id ∧ h.set = set ∧ h.way = w ∧ h.back = false

/-- A way that rows may be placed in: no page under it is poisoned and its stacks are in service (R356, R360). -/
def State.wayOk (s : State) (t : Table) (set way : Nat) : Bool :=
  [t.wayIa set way, t.wayIa set way + t.slot - 1].all fun a =>
    match lookup s.hm.ptes a with
    | some h => !ptePsn h.pte && !s.hm.out.getLsbD h.arr.val
    | none => true

/-- A way from which a row's write-back is in progress (R75). -/
def State.wayBusy (s : State) (p : Fin 32) (id set way : Nat) : Bool :=
  s.hm.hot.any fun h => h.back && h.part = p && h.table = id && h.set = set && h.way = way

/-- The way that an allocation takes, and the row it evicts: the lowest empty way, else the one of lowest estimate, the lowest way
of equals. A lost row keeps its way, and one whose write-back is in progress is not taken (R75, R362). -/
def State.allocWay (s : State) (p : Fin 32) (id : Nat) (t : Table) (r : Nat) : Option (Nat × Option HotRow) :=
  let set := hotSet t id r
  let rows := s.waysOf p id set
  let ok := fun w => s.wayOk t set w && !s.wayBusy p id set w
  match (upTo 16).find? fun w => ok w && !(rows.any fun h => h.way = w) with
  | some w => some (w, none)
  | none => (leastWay s t (rows.filter fun h => !h.lost && ok h.way)).map fun v => (v.way, some v)

/-- An allocation that finds no way waits until the write-backs of its set are performed (R75). -/
def State.settleWays (s : State) (p : Fin 32) (id : Nat) (t : Table) (r : Nat) : State :=
  if (s.allocWay p id t r).isSome then s
  else (s.hm.hot.filter fun h => h.back && h.part = p && h.table = id && h.set = hotSet t id r).foldl (fun s h =>
    let s := s.writeBack t h
    { s with hm := { s.hm with hot := s.hm.hot.filter fun c => c != h } }) s

/-- Take a row out of its way: a clean one is absent at once, the hot copy of a dirty one stays current until its write-back is
performed (R74). -/
def State.evict (s : State) (v : HotRow) : State :=
  { s with hm := { s.hm with
      hot := if v.dirty then s.hm.hot.map fun h => if h = v then { h with back := true } else h
        else s.hm.hot.filter fun h => h != v } }

/-- A word under a run of bytes holds an uncorrectable error that has not been found (R355). -/
def State.runBad (s : State) (ia n : Nat) : Bool :=
  !s.hm.bad.isEmpty && (upTo n).any fun i => match lookup s.hm.ptes (ia + i) with
    | some h => dget s.hm.bad (badKey (h.memKey (ia + i))) == some true
    | none => false

/-- Allocate a way for a row and copy it in (R74, R75). A row that holds an error, which a store confirmed before the error struck
reaches, is not copied: the store is performed beneath (log 45). -/
def State.hotAlloc (s : State) (p : Fin 32) (id : Nat) (t : Table) (r : Nat) : State :=
  if s.runBad (t.rowIa r) t.rowBytes then s else
  let s := s.settleWays p id t r
  match s.allocWay p id t r with
  | none => s
  | some (w, v) =>
    let set := hotSet t id r
    let s := (match v with | some v => s.evict v | none => s).rewriteWords (t.wayIa set w) t.rowBytes
    { s with hm := { s.hm with
        hot := s.hm.hot ++ [⟨p, id, r, set, w, false, false, s.frameBytes (t.rowIa r) t.rowBytes, false⟩] } }

/-- The hot copy that holds a byte, with the byte's place in it (R74). -/
def State.hotAt (s : State) (ia : Nat) : Option (HotRow × Nat) :=
  (s.rowAt ia).bind fun r => (s.hotCopy (iaPart ia) r.1 r.2.2.1).map fun c => (c, r.2.2.2)

/-- One byte as a reader at its home gets it: from the hot copy of its row, else from its frame; a raw view returns the bytes of the
frame (R74, R80). -/
def State.homeByte (s : State) (ia : Nat) : Byte :=
  match lookup s.hm.ptes ia with
  | none => 0
  | some h =>
    match s.hotAt ia with
    | some (c, o) => if pteRaw h.pte then s.frameByte ia else c.data.getD o 0
    | none => s.frameByte ia

/-- Bytes as a reader at their homes gets them. -/
def State.homeBytes (s : State) (ia : Nat) : Nat → List Byte
  | 0 => []
  | n + 1 => s.homeByte ia :: State.homeBytes s (ia + 1) n

/-- The IA whose array word serves an access: the slot of the hot copy of a row, else its own (R74). -/
def State.arrayIa (s : State) (ia : Nat) : Nat :=
  match s.rowAt ia with
  | none => ia
  | some (id, t, r, o) =>
    match s.hotCopy (iaPart ia) id r with
    | none => ia
    | some c => if c.back then ia else t.wayIa c.set c.way + o

/-- The words that a write of `n` bytes covers whole are in error no longer; a row that is absent is written in the way it is
allocated (R354). -/
def State.overwrite (s : State) (ia n : Nat) : State :=
  if s.hm.bad.isEmpty then s
  else (upTo (n / 8 + 1)).foldl (fun s i =>
    let g := (ia + 7) / 8 * 8 + 8 * i
    if g + 8 ≤ ia + n ∧ ((s.rowAt g).isNone ∨ (s.hotAt g).isSome) then s.rewriteWords (s.arrayIa g) 8 else s) s

/-- Replace one byte of a list. -/
def setAt : List Byte → Nat → Byte → List Byte
  | [], _, _ => []
  | _ :: t, 0, b => b :: t
  | a :: t, i + 1, b => a :: setAt t i b

/-- Write a byte of a row in its hot copy, which becomes dirty (R74). -/
def State.hotPut (s : State) (p : Fin 32) (id r o : Nat) (b : Byte) : State :=
  { s with hm := { s.hm with
      hot := s.hm.hot.map fun c =>
        if c.part = p ∧ c.table = id ∧ c.row = r then { c with dirty := true, data := setAt c.data o b } else c } }

/-- One byte written at its home: a coded page is uncoded first, a row of a table with a hot area is written in its hot
copy, which is allocated when absent and becomes dirty (R74, R80). With no way to take, it is written beneath (log 8). -/
def State.homePut (s : State) (ia : Nat) (b : Byte) : State :=
  match lookup s.hm.ptes ia with
  | none => s
  | some h =>
    let s := if pteCmp h.pte then s.uncode h else s
    match s.rowAt ia with
    | none => s.rawWrite ia [b]
    | some (id, t, r, o) =>
      let p := iaPart ia
      let s := if (s.hotCopy p id r).isSome then s else s.hotAlloc p id t r
      if (s.hotCopy p id r).isSome then s.hotPut p id r o b else s.rawWrite ia [b]

/-- Bytes written at their homes. -/
def State.homeWrite (s : State) (ia : Nat) : List Byte → State
  | [] => s
  | b :: bs => State.homeWrite (s.homePut ia b) (ia + 1) bs

/-! ### Confirmation at the home (R324, R360, R364) -/

/-- Why a home refuses an access: no present entry, no permission, poison (R321 causes 0x08, 0x09, 0x19). -/
inductive HomeErr where
  | unmapped | perm | poison
deriving DecidableEq, Repr

def HomeErr.cause : HomeErr → Nat
  | .unmapped => 0x08
  | .perm => 0x09
  | .poison => 0x19

/-- Confirm an access to a byte at its home: present with valid fields, permitted, not poisoned (R324, R360, R364). Stepped pages
are confirmed as others: who may access them is R105's matter. -/
def State.confirm (s : State) (ia : Nat) (write : Bool) : Except HomeErr Hit :=
  match lookup s.hm.ptes ia with
  | none => .error .unmapped
  | some h =>
    if pteBad h.pte then .error .unmapped
    else if write && (!pteW h.pte || pteRaw h.pte) then .error .perm
    else if ptePsn h.pte then .error .poison
    else if (s.hotAt ia).any (fun c => c.1.lost) then .error .poison
    else if write && (s.uncodeEach (s.firstWrites ia)).isNone then .error .perm
    else .ok h

/-- Confirm `n` bytes from an IA up; the first refusal with its IA. The pages that a write decodes must fit together (R366). -/
def State.confirmAll (s : State) (write : Bool) : Nat → Nat → Except (HomeErr × Nat) Unit
  | _, 0 => .ok ()
  | ia, n + 1 =>
    match s.confirm ia write with
    | .error e => .error (e, ia)
    | .ok _ => State.confirmAll (if write then (s.firstWrites ia).foldl State.uncode s else s) write (ia + 1) n

/-- A byte's page is stepped (R104). -/
def State.isStepped (s : State) (ia : Nat) : Bool :=
  match lookup s.hm.ptes ia with
  | some h => pteStp h.pte
  | none => false

/-- The tiers that have a home (R17, R60). -/
def hasHome (ia : Nat) : Bool := decide (iaTier ia ≤ 4)

/-! ### The window of tier 5 (R66) -/

/-- The core and local offset that an IA of tier 5 names; none when bits [43:29] are set or the core is not of the
issuing core's cluster (R66). -/
def windowOf (c : CoreId) (ia : Nat) : Option (CoreId × Nat) :=
  let o := iaOff ia
  if nbits o 43 29 = 0 then
    let t : CoreId := Fin.ofNat 256 (nbits o 28 21)
    if clusterOf t = clusterOf c then some (t, nbits o 20 0) else none
  else none

/-! ### Elastic pools (R32) -/

/-- The pool region of the card on a core, as a local range. -/
def State.poolOf (s : State) (c : CoreId) : LocalRange :=
  match s.cardOn c with
  | some k => ⟨CardImg.poolBase k.img, 8 * CardImg.poolSize k.img⟩
  | none => ⟨0, 0⟩

/-- A window range lies in the cluster of the issuing core, and on no pool of its card (R32, R66). -/
def State.windowRange (s : State) (c : CoreId) (ia n : Nat) : Bool :=
  let o := iaOff ia
  let m := 2 ^ 21
  decide (o + n ≤ 2 ^ 29) && (upTo ((o + n - 1) / m - o / m + 1)).all fun i =>
    let d : CoreId := Fin.ofNat 256 (o / m + i)
    let lo := max o ((o / m + i) * m)
    let hi := min (o + n) ((o / m + i + 1) * m)
    clusterOf d == clusterOf c
      && !(decide ((s.core d).card = (s.core c).card) && overlap (lo % m) (hi - lo) (s.poolOf d).lo (s.poolOf d).len)

/-- A local access of a core: beyond local memory it is a range miss, on the card's pool a range-permission trap (R32,
R65). -/
def State.checkLocal (s : State) (c : CoreId) (off n : Nat) : Except Nat Unit :=
  if off + n > 0x200000 then .error 0x06
  else if overlap off n (s.poolOf c).lo (s.poolOf c).len then .error 0x07
  else .ok ()

end Sys2Proof.Machine
end

