-- ==== Sys2Proof/Machine/Watch.lean ====
section
/-! DEFINITION. Event records and the queues of partitions (R397 to R400); live-card slots (R24); watch entries and trigger
records (R44 to R54, R386, R387); and the one operation that performs a write at its homes, with its watch checks (R45). -/

namespace Sys2Proof.Machine

/-! ### Event records -/

/-- The 32 bytes of an event record (R397). -/
def Event.bytes (e : Event) : List Byte :=
  leBytes 4 e.seq.toNat ++ leBytes 2 e.src ++ leBytes 1 e.cls ++ leBytes 1 e.code ++ leBytes 4 e.handle.toNat
    ++ leBytes 1 e.part ++ leBytes 3 0 ++ leBytes 8 e.addr.toNat ++ leBytes 8 e.detail.toNat

/-- Source ids (R398). -/
def srcCore (c : CoreId) : Nat := c.val
def srcHome (h : Fin 17) : Nat := 0x100 + h.val
def srcSched (p : Fin 32) : Nat := 0x120 + p.val
def srcFirmware : Nat := 0x140
def srcPort (n : Fin 16) : Nat := 0x150 + n.val
def srcStep : Nat := 0x160

/-- Counter keys of the package block (R401): tier-6 offsets. -/
def cntPackage (i : Nat) : Nat := 0x10900 + 8 * i

/-- A byte as firmware reads it (log 16). -/
def State.hostGet (s : State) (ia : Nat) : Byte :=
  if iaTier ia = 4 && (lookup s.hm.ptes ia).isNone then Memory.get s.hm.mem (16 * 2 ^ 52 + iaOff ia) else s.homeByte ia

/-- Bytes as firmware reads them. -/
def State.hostBytes (s : State) (ia n : Nat) : List Byte := (upTo n).map fun i => s.hostGet (ia + i)

/-- Post a record to a partition's supervisor event queue; a full queue drops it and counts EVDROP (R399). -/
def State.postSup (s : State) (p : Fin 32) (e : Event) : State :=
  if (s.part p).supq.length ≥ 1024 then s.count (cntPackage 7)
  else s.setPart p { s.part p with supq := (s.part p).supq ++ [e] }

/-- The functions bound to a partition. -/
def State.boundTo (s : State) (p : Fin 32) : List (Fin 1024) :=
  s.hst.vfs.filterMap fun e =>
    if h : e.1 < 1024 then if e.2.part = some p then some ⟨e.1, h⟩ else none else none

/-- The classes that reach the event rings of a partition's functions (R399). -/
def ringClass (c : Nat) : Bool := c == 1 || c == 3 || c == 6 || c == 7 || c == 9

/-- Take the next sequence number of a source (R397). -/
def State.nextEvSeq (s : State) (src : Nat) : BitVec 32 × State :=
  let n := sget 0 s.hst.evSeq src
  (n, { s with hst := { s.hst with evSeq := sset 0 s.hst.evSeq src (n + 1) } })

/-- A record is posted, and is delivered later (R399, R400). -/
def State.send (s : State) (p : Option (Fin 32)) (e : Event) : State :=
  { s with hst := { s.hst with posted := s.hst.posted ++ [(p, { e with part := (p.map (·.val)).getD 0 })] } }

/-- Post a record of a source to a partition (R399). -/
def State.post (s : State) (p : Fin 32) (src cls code : Nat) (h : Handle) (addr detail : Word) : State :=
  let (n, s) := s.nextEvSeq src
  s.send (some p) ⟨n, src, cls, code, h, p.val, addr, detail⟩

/-- Post a record that names no partition, for VF 0's ring (R399). -/
def State.postVf0 (s : State) (src cls code : Nat) (addr detail : Word) : State :=
  let (n, s) := s.nextEvSeq src
  s.send none ⟨n, src, cls, code, 0, 0, addr, detail⟩

/-- Post a task event (R384, R385): the scheduler of the partition is its source (log 10). -/
def State.postTask (s : State) (p : Fin 32) (h : Handle) (addr detail : Word) : State :=
  s.post p (srcSched p) 6 (detail.toNat % 256) h addr detail

/-! ### Live-card slots (R24) -/

/-- The least number from `i` up, within the fuel, that satisfies a test. -/
def searchUp (f : Nat → Bool) : Nat → Nat → Option Nat
  | 0, _ => none
  | fuel + 1, i => if f i then some i else searchUp f fuel (i + 1)

/-- A slot that has never been used. -/
def Slot.fresh : Slot := ⟨0, .free⟩

/-- A partition's slot. -/
def Partition.slot (p : Partition) (i : Nat) : Slot := (dget p.slots i).getD Slot.fresh

/-- The handle of a slot's serial (R24). -/
def slotHandle (i : Nat) (serial : BitVec 19) : Handle := serial ++ BitVec.ofNat 13 i

/-- The slot and serial that a handle names (R24, R271). -/
def handleSlot (h : Handle) : Nat := (h.extractLsb' 0 13).toNat
def handleSerial (h : Handle) : BitVec 19 := h.extractLsb' 13 19

/-- The slot that the next handle takes: the lowest never used, else the lowest that is not live (log 8). -/
def Partition.pickSlot (p : Partition) : Option Nat :=
  match searchUp (fun i => (p.slot i).use == .free) 8192 0 with
  | some i => some i
  | none => searchUp (fun i => (p.slot i).use != .live) 8192 0

/-- Assign a handle (R24): the slot's serial is incremented, and a handle is never 0. A slot's first serial, which R24 does not give, is 1
(log 8). -/
def State.newHandle (s : State) (p : Fin 32) : Option (Handle × State) :=
  match (s.part p).pickSlot with
  | none => none
  | some i =>
    let n := ((s.part p).slot i).serial + 1
    let n := if n = 0 ∧ i = 0 then 1 else n
    let pt := s.part p
    some (slotHandle i n, s.setPart p { pt with
      slots := sput pt.slots i ⟨n, .live⟩, gone := pt.gone.filter fun h => h != slotHandle i n })

/-- Set what a handle's slot holds. The handle of a discarded card or replay is kept (R395). -/
def State.setSlot (s : State) (p : Fin 32) (h : Handle) (u : SlotUse) : State :=
  let i := handleSlot h
  let pt := s.part p
  s.setPart p { pt with slots := sput pt.slots i ⟨handleSerial h, u⟩, gone := if u = .discarded then h :: pt.gone else pt.gone }

/-- A handle names a live card or replay: its slot still holds it. -/
def Partition.liveHandle (p : Partition) (h : Handle) : Bool :=
  (p.slot (handleSlot h)).use == .live && (p.slot (handleSlot h)).serial == handleSerial h

/-! ### Watches -/

/-- A watch entry in use. -/
def State.watch? (s : State) (n : Nat) : Option Watch := dget s.sch.watches n

def State.setWatch (s : State) (n : Nat) (w : Watch) : State :=
  { s with sch := { s.sch with watches := sput s.sch.watches n w } }

/-- Free a watch entry and return it to its partition's quota (R77, R279). -/
def State.dropWatch (s : State) (n : Nat) : State :=
  match s.watch? n with
  | none => s
  | some w =>
    let pt := s.part w.part
    let s := s.setPart w.part { pt with charges := vset pt.charges 4 (vget pt.charges 4 0 - 1) }
    { s with sch := { s.sch with watches := sdel s.sch.watches n } }

/-- The pending records of an entry, in SEQ order of creation. -/
def State.recordsOf (s : State) (n : Nat) : List Record :=
  (s.sch.records.filter fun r => r.2.entry = n).map (·.2)

/-- An entry that is disarmed returns to the quota when no record of it is left (R279). -/
def State.settleWatch (s : State) (n : Nat) : State :=
  match s.watch? n with
  | none => s
  | some w => if w.armed || !(s.recordsOf n).isEmpty then s else s.dropWatch n

/-- The template as a card of its own: DEP, SUCC0 and SUCC1 count as zero (R50). -/
def triggerImg (i : CardImg) : CardImg :=
  (i.set 3 (i[3] &&& ~~~0xFFFF#64)).set 6 0

/-- The card of a record that has received its handle (R24, R53): eligible at its template's class. -/
def triggerCard (w : Watch) (r : Record) (h : Handle) (clock : Nat) : Card where
  handle := h
  img := triggerImg w.img
  rng := w.rng
  source := .trigger r.entry r.seq
  dep := 0
  arrival := some clock
  own := Fin.ofNat 4 (CardImg.cls w.img)
  aged := 0
  hold := false
  phase := .waiting
  ox := 0
  oy := 0
  depth := r.depth
  replay := none
  pre := false
  forced := false
  saved := []

/-- Give a record its handle when a slot is free (R24). -/
def State.handleRecord (s : State) (w : Watch) (r : Record) : State :=
  match s.newHandle w.part with
  | none => s
  | some (h, s) =>
    { s with
      clock := s.clock + 1
      sch := { s.sch with
        records := s.sch.records.map fun e =>
          if e.2.entry = r.entry ∧ e.2.seq = r.seq then (e.1, { e.2 with handle := some h }) else e
        cards := s.sch.cards ++ [(w.part, triggerCard w r h s.clock)] } }

/-- A slot that has become free serves the records that wait for a handle (R24). -/
def State.serveRecords (s : State) (p : Fin 32) : State :=
  (s.sch.records.filter fun r => r.1 = p && r.2.handle.isNone).foldl (fun s r =>
    match s.watch? r.2.entry with
    | some w => s.handleRecord w r.2
    | none => s) s

/-- The detail of a task event about a record (R386, R387): code, entry, depth. -/
def triggerDetail (code n depth : Nat) : Word := word (code + n * 2 ^ 16 + depth * 2 ^ 32)

/-- A runaway trigger: the entry is disarmed and a task event is posted (R386). -/
def State.runaway (s : State) (n : Nat) (w : Watch) (gia code depth : Nat) : State :=
  let s := s.setWatch n { w with armed := false }
  let s := s.postTask w.part 0 (word gia) (triggerDetail code n depth)
  s.settleWatch n

/-- Create a record, or find that it would break a limit (R49, R51, R386, R387). -/
def State.makeRecord (s : State) (n : Nat) (w : Watch) (gia : Nat) (old new : Word) (depth : Nat) : State :=
  if depth > w.limit then s.runaway n w gia 0x20 depth
  else if w.rate ≠ 0 ∧ w.window ≥ w.rate then s.runaway n w gia 0x21 depth
  else if s.sch.records.length ≥ 16384 then
    let s := s.setWatch n { w with next := w.next + 1, window := w.window + 1, lostEv := true }
    if w.lostEv then s else s.postTask w.part 0 (word gia) (triggerDetail 0x22 n depth)
  else
    let r : Record := ⟨n, gia, old, new, 1, w.next, depth, none⟩
    let s := s.setWatch n
      { w with next := w.next + 1, window := w.window + 1, lostEv := false, armed := !w.once }
    let s := { s with sch := { s.sch with records := s.sch.records ++ [(w.part, r)] } }
    s.handleRecord w r

/-- Coalesce a granule store into a pending record (R49, R51). -/
def Record.merge (r : Record) (new : Word) (depth : Nat) : Record :=
  { r with
    new := new
    count := if r.count.toNat = 2 ^ 32 - 1 then r.count else r.count + 1
    depth := max r.depth depth }

/-- One granule store seen by one entry (R48 to R51). `depth` is the storing card's. -/
def State.watchOne (s : State) (n : Nat) (w : Watch) (gia : Nat) (old new : Word) (depth : Nat) : State :=
  let found : Option Record :=
    match w.mode with
    | 0 => (s.recordsOf n).find? fun r => r.gia = gia
    | 1 => (s.recordsOf n).head?
    | _ => none
  match found with
  | none => s.makeRecord n w gia old new (depth + 1)
  | some r =>
    if depth + 1 > w.limit then s.runaway n w gia 0x20 (depth + 1)
    else
      { s with sch := { s.sch with
          records := s.sch.records.map fun e =>
            if e.2.entry = n ∧ e.2.seq = r.seq then (e.1, e.2.merge new (depth + 1)) else e } }

/-- An entry watches a granule: it is armed and the granule lies in its range (R44). -/
def Watch.sees (w : Watch) (gia : Nat) : Bool := w.armed && decide (w.base ≤ gia) && decide (gia < w.base + w.len)

/-- A granule store, for watching: a silent one triggers nothing (R48). -/
def State.granuleStore (s : State) (gia : Nat) (old new : Word) (depth : Nat) : State :=
  if old = new then s
  else
    ((s.sch.watches.filter fun e => e.2.sees gia).map (·.1)).foldl (fun s n =>
      match s.watch? n with
      | some w => if w.sees gia then s.watchOne n w gia old new depth else s
      | none => s) s

/-! ### Performing a write at its homes -/

/-- The granule of an IA. -/
def granule (ia : Nat) : Nat := ia / 8 * 8

/-- The value of a granule at its home. -/
def State.granVal (s : State) (gia : Nat) : Word := word (leNat (s.homeBytes gia 8))

/-- The part of a run of bytes that lies in the granule of its first byte, and the rest. -/
def cutGranule (ia : Nat) (bs : List Byte) : List Byte × List Byte := bs.splitAt (8 - ia % 8)

/-- Cut a run of bytes at granules; the fuel bounds them. -/
def granules : Nat → Nat → List Byte → List (Nat × List Byte)
  | 0, _, _ => []
  | _ + 1, _, [] => []
  | fuel + 1, ia, b :: bs =>
    let (now, rest) := cutGranule ia (b :: bs)
    (ia, now) :: granules fuel (ia + now.length) rest

/-- Perform a write at its homes, granule by granule in ascending address, with the watch checks of each (R45, R84). The
fuel bounds the granules. -/
def State.performRun (s : State) (depth : Nat) : Nat → Nat → List Byte → State
  | 0, _, _ => s
  | _ + 1, _, [] => s
  | fuel + 1, ia, b :: bs =>
    let (now, rest) := cutGranule ia (b :: bs)
    let g := granule ia
    let old := s.granVal g
    let s := s.homeWrite ia now
    let s := s.granuleStore g old (s.granVal g) depth
    State.performRun s depth fuel (ia + now.length) rest

/-- Perform a write of an agent of a chain depth at its homes (R45, R51, R84). Without a watch entry the bytes alone
change. -/
def State.perform (s : State) (ia : Nat) (bs : List Byte) (depth : Nat) : State :=
  let s := s.overwrite ia bs.length
  if s.sch.watches.isEmpty then s.homeWrite ia bs else s.performRun depth bs.length ia bs

/-- The place of a byte of local memory in tier 5 (R60, R66). -/
def lmIa (c : CoreId) (off : Nat) : Nat := 5 * 2 ^ 44 + c.val * 2 ^ 21 + off

/-- Perform a write at its homes, or in local memory (R84). -/
def State.performAt (s : State) (ia : Nat) (bs : List Byte) (depth : Nat) : State :=
  if iaTier ia = 5 then lmWrite s (Fin.ofNat 256 (nbits ia 28 21)) (nbits ia 20 0) bs else s.perform ia bs depth

end Sys2Proof.Machine
end

