-- ==== Sys2Proof/Machine/Ops.lean ====
section
/-! DEFINITION. The operations that every meaning shares: completing an instruction with its loop-end check (R184 to R188),
taking a branch (R185), raising a trap, taking it and returning from it (R283, R284, R321 to R326), user events (R55, R56),
and the machine fault with its discard (R298, R394, R395). -/

namespace Sys2Proof.Machine

/-! ### How an instruction can stop -/

/-- A trap: its cause, TFADDR and TFDET (R321). -/
structure Trap where
  cause : Nat
  addr  : Word
  det   : Word
deriving DecidableEq, Repr

/-- An instruction that does not complete: it stalls, or raises a trap, on the state before it or on what its refused access
has left of that state (a poisoned page, a counter). -/
inductive Stop where
  | stall
  | hold
  | trap (t : Trap)
  | after (s : State) (t : Trap)
deriving DecidableEq, Repr

/-- A trap whose detail is the base word (R321). -/
def State.wordTrap (s : State) (cause : Nat) : Stop := .trap ⟨cause, 0, s.cur.word⟩

/-- The access detail (R322). -/
def accessDetail (op lane : Nat) (fetch lm wr atom : Bool) : Word :=
  word (op + (if atom then 2 ^ 8 else 0) + (if wr then 2 ^ 9 else 0) + (if lm then 2 ^ 10 else 0)
    + (if fetch then 2 ^ 11 else 0) + lane * 2 ^ 16)

/-- The opcode of the instruction being executed. -/
def State.opcode (s : State) : Nat := s.cur.word.toNat % 256

/-! ### Loops and the program counter -/

/-- The depth of a loop stack: its entries with count ≠ 0 (R285). -/
def loopDepth (l : Vector LoopEntry 4) : Nat := (l.toList.filter fun e => e.count != 0).length

/-- The innermost entry. -/
def loopTop (l : Vector LoopEntry 4) : LoopEntry := vget l (loopDepth l - 1) LoopEntry.empty

/-- Pop the innermost entry. -/
def loopPop (l : Vector LoopEntry 4) : Vector LoopEntry 4 := vset l (loopDepth l - 1) LoopEntry.empty

/-- Advance the rotation (R205). -/
def advanceRot (r : BitVec 5) : BitVec 5 := r + 31

/-- The loop-end check at an address (R184): the loop stack, the rotation, and the loop start when a loop jumps back. -/
def loopEnd (pc : Word) : Nat → Vector LoopEntry 4 → BitVec 5 → Vector LoopEntry 4 × BitVec 5 × Option Word
  | 0, l, r => (l, r, none)
  | fuel + 1, l, r =>
    let e := loopTop l
    if loopDepth l = 0 || e.fin != pc then (l, r, none)
    else
      let r := if e.rot then advanceRot r else r
      if e.count != 1 then (vset l (loopDepth l - 1) { e with count := e.count - 1 }, r, some e.start)
      else loopEnd pc fuel (loopPop l) r

/-- Set the rotation of X. -/
def State.setRot (s : State) (r : BitVec 5) : State := if r = s.x.rot then s else s.setX { s.x with rot := r }

/-- Pass the end of the instruction at `pc` without a transfer of control (R184). -/
def State.passEnd (s : State) (pc : Word) (len : Nat) : State :=
  let q := s.me
  if loopDepth q.loops = 0 then s.setMe { q with pc := pc + word len }
  else
    let e := loopEnd pc 4 q.loops s.x.rot
    (s.setMe { q with loops := e.1, pc := e.2.2.getD (pc + word len) }).setRot e.2.1

/-- Complete the instruction being executed without a transfer of control: under REP it is executed again while the count
is not spent (R187), else the loop-end check is made (R184). -/
def State.complete (s : State) : State :=
  let q := s.me
  if 1 < q.repc.toNat then s.setMe { q with repc := q.repc - 1 }
  else
    let s := if q.repc = 0 then s else s.setMe { q with repc := 0 }
    s.passEnd q.pc s.cur.len

/-- An address lies in the body of a loop entry (R185). -/
def LoopEntry.holds (e : LoopEntry) (pc : Word) : Bool := decide (e.start.toNat ≤ pc.toNat) && decide (pc.toNat ≤ e.fin.toNat)

/-- The entries that stay when a branch is taken, innermost first (R185): those that hold the branch and not the target go, up to the
first one that holds the target. -/
def leaveEntries (pc target : Word) : List LoopEntry → List LoopEntry
  | [] => []
  | e :: t =>
    if e.holds target then e :: t
    else if e.holds pc then leaveEntries pc target t
    else e :: leaveEntries pc target t

/-- Pop the entries that a taken branch leaves (R185). -/
def loopLeave (pc target : Word) (l : Vector LoopEntry 4) : Vector LoopEntry 4 :=
  let es := (leaveEntries pc target (l.toList.filter fun e => e.count != 0).reverse).reverse
  Vector.ofFn fun (i : Fin 4) => es.getD i.val LoopEntry.empty

/-- Take a branch of BR, BCC, BBIT, JMP or MBR (R181, R185). -/
def State.branch (s : State) (target : Word) : State :=
  let q := s.me
  s.setMe { q with pc := target, loops := loopLeave q.pc target q.loops }

/-- The target of a displacement (R181). -/
def State.target (s : State) (d : Word) : Word := s.me.pc + 8 * d

/-! ### Outstanding operations (R33) -/

def Seq.ldCount (q : Seq) : Nat :=
  q.loads.length + (q.atoms.filter fun a => match a.kind with | .red .. => false | _ => true).length

def Seq.stCount (q : Seq) : Nat :=
  (q.stores.filter fun x => x.counts).length + (q.atoms.filter fun a => match a.kind with | .red .. => true | _ => false).length

/-- The remote commands (R176). -/
def isRemote (op : BitVec 8) : Bool :=
  op == 0xC0 || op == 0xC1 || op == 0xC2 || op == 0xB7 || op == 0xB8

def Seq.cpCount (q : Seq) : Nat := (q.cmds.filter fun c => !isRemote c.op).length

def Seq.rmCount (q : Seq) : Nat := (q.cmds.filter fun c => isRemote c.op).length

/-! ### Machine faults and discard (R298, R394, R395) -/

/-- A core without a card: its sequencers, C and X as at reset; the supervisor bank, TVEC, the caches and what memory it
holds stay (R283). -/
def Core.idle (k : Core) : Core :=
  { k with
    seqs := Vector.replicate 4 Seq.reset
    c := { CState.reset with bank := if k.c.sup then (k.seq .C).g else k.c.bank }
    x := XState.reset
    tokens := Vector.replicate 8 0
    queues := Vector.replicate 8 Queue.empty
    card := 0 }

/-- Perform or drop the granules of a store in flight, each by a free value (R395, log 2). -/
def State.dropStore (s : State) (depth : Nat) : Nat → Nat → List Byte → State
  | 0, _, _ => s
  | _ + 1, _, [] => s
  | fuel + 1, ia, b :: bs =>
    let (now, rest) := cutGranule ia (b :: bs)
    let (v, s) := s.draw 2
    let s := if v = 1 then s.performAt ia now depth else s
    State.dropStore s depth fuel (ia + now.length) rest

/-- The bytes that a CTXSV under way has still to write. -/
def CState.imageRun (c : CState) : List (Nat × List Byte) :=
  match c.image with
  | some (.home ia _, _, bs) => [(ia, bs)]
  | some (.lm d o, _, bs) => [(lmIa d o, bs)]
  | _ => []

/-- What the instructions, commands and matrix operations of a core have still to write. -/
def Core.pendGrans (k : Core) : List (Nat × List Byte) :=
  k.c.imageRun ++ (k.x.mx.flatMap (·.pend)) ++ allSeqs.flatMap fun q => (k.seq q).cmds.flatMap (·.pend)

/-- The writes in flight of a core are discarded (R395). -/
def State.dropStores (s : State) (c : CoreId) : State :=
  let s1 := (allSeqs.flatMap fun q => (s.seq c q).stores).foldl (fun s st =>
    s.dropStore st.depth st.bytes.length st.ia st.bytes) s
  (s.core c).pendGrans.foldl (fun t g => t.dropStore (((s.cardOn c).map (·.depth)).getD 0) g.2.length g.1 g.2) s1

/-- Take the card off a core and discard what it has under way there. -/
def State.discardCore (s : State) (c : CoreId) : State :=
  let s := s.dropStores c
  let s := s.setCore c (s.core c).idle
  { s with fab := { s.fab with
      sends := s.fab.sends.filter fun m => match m.core with | some (d, _, _) => d != c | none => true } }

/-- The pool slots a card is charged for: once per core of its rectangle (R32, R77). -/
def CardImg.poolCharge (i : CardImg) : Nat := CardImg.poolSize i * 2 ^ (CardImg.wlog i + CardImg.hlog i)

/-- Release a placed card's pool slots (R77). -/
def State.releasePool (s : State) (p : Fin 32) (c : Card) : State :=
  let pt := s.part p
  s.setPart p { pt with charges := vset pt.charges 5 (vget pt.charges 5 0 - CardImg.poolCharge c.img) }

/-- A card has been placed and not completed. -/
def Card.placed (c : Card) : Bool := c.phase == .running || c.phase == .preempted

/-- Discard one card (R395): its cores are freed and its handle names a discarded card. -/
def State.discardCard (s : State) (p : Fin 32) (c : Card) : State :=
  let s := if c.phase == .running then c.cores.foldl State.discardCore s else s
  let s := if c.placed then s.releasePool p c else s
  let s := s.setSlot p c.handle .discarded
  s.delCard p c.handle

/-- Discard all work of a partition (R298, R395): cards, replays, watch entries and records, queued events, engine
progress, and the cards standing in its queues (log 11). A card that a store in flight still triggers is discarded with the rest. -/
def State.discardPart (s : State) (p : Fin 32) : State :=
  let s := ((s.sch.cards.filter fun c => c.1 = p).map (·.2)).foldl (fun s c => s.discardCard p c) s
  let s := (allCores.filter fun c => (s.core c).part = some p).foldl State.discardCore s
  let pt := s.part p
  let s := s.setPart p
    { pt with
      supq := []
      charges := vset pt.charges 4 0
      devqs := pt.devqs.map fun d => { d with cards := [], head := d.tail }
      slots := pt.slots.map fun e => (e.1, if e.2.use == .live then { e.2 with use := .discarded } else e.2)
      gone := ((pt.slots.filter fun e => e.2.use == .live).map fun e => slotHandle e.1 e.2.serial) ++ pt.gone }
  { s with
    sch := { s.sch with
      cards := s.sch.cards.filter fun c => c.1 != p
      replays := s.sch.replays.filter fun r => r.1 != p
      watches := s.sch.watches.filter fun w => w.2.part != p
      records := s.sch.records.filter fun r => r.1 != p }
    hst := { s.hst with
      vfs := s.hst.vfs.map fun e => if e.2.part = some p then (e.1, { e.2 with qhead := e.2.qtail }) else e } }

/-- The n32 mask of partitions (R399). -/
def partMask (ps : List (Fin 32)) : Word := ps.foldl (fun w p => w ||| (1#64 <<< p.val)) 0

/-- A machine fault of partitions (R394, R395): their work is discarded, then each receives the record. -/
def State.machineFault (s : State) (src code : Nat) (ps : List (Fin 32)) (addr : Word) : State :=
  let s := s.count (cntPackage 8)
  let s := ps.foldl State.discardPart s
  let (n, s) := s.nextEvSeq src
  ps.foldl (fun s p => s.send (some p) ⟨n, src, 1, code, 0, p.val, addr, partMask ps⟩) s

/-! ### Raising a trap, taking it, returning from it -/

/-- A sequencer raises a trap (R321): its frame is written and it stops. -/
def Seq.raise (q : Seq) (pc : Word) (t : Trap) : Seq :=
  { q with frame := ⟨pc, word t.cause, t.addr, t.det, q.repc⟩, trapPend := true }

/-- A trap of a sequencer at an address: it waits until the loads and atomics issued before have written their registers
(R323). It ends the standing of an instruction of C. A trap of C at supervisor privilege is a machine fault of the card's
partition instead (R326). -/
def State.raise (s : State) (c : CoreId) (q : SeqId) (pc : Word) (t : Trap) : State :=
  if (s.seq c q).ldCount ≠ 0 then s
  else if q = .C ∧ (s.core c).c.sup then s.machineFault (srcCore c) 0x06 [(s.core c).partNo] 0
  else
    let s := s.setSeq c q ((s.seq c q).raise pc t)
    if q = .C then
      let k := s.core c
      s.setCore c { k with c := { k.c with stand := false, flgW := false, taken := none, cardW := none } }
    else s

/-- Swap g1 to g31 of C with the supervisor bank (R283). -/
def swapBank (q : Seq) (b : Vector Word 32) : Seq × Vector Word 32 := ({ q with g := b }, q.g)

/-- C enters the handler for sequencer `v` of its core (R283): its pc, repeat count and loop stack are set aside, the
supervisor bank is swapped in, and it continues at TVEC at supervisor privilege. -/
def Core.enterHandler (k : Core) (v : SeqId) (eng : Bool) : Core :=
  let q := k.seq .C
  let (q', b) := swapBank q k.c.bank
  let k := k.setSeq .C { q' with pc := k.tvec, repc := 0, rep := none, loops := Vector.replicate 4 LoopEntry.empty }
  let k := k.setSeq v { k.seq v with trapPend := false }
  { k with c := { k.c with
      sup := true, svSeq := v, bank := b, sret := if v = .C then k.c.sret else q.pc
      svRepc := q.repc, svRep := q.rep, svLoops := q.loops, svEng := eng, barWait := none, yieldW := false, cardW := none
      held := false } }

/-- C stands where a trap interrupts it (R283): it is not at supervisor privilege, and in no instruction that a trap does not
interrupt, but for a trap that its STEP itself has raised (R388), nor at a BAR that every participant has executed (R201). -/
def Core.heedsTrap (k : Core) : Bool :=
  !k.c.sup && !k.c.stand && (k.c.stpW.isNone || (k.seq .C).trapPend) && !k.c.flgW && !k.c.barMet

/-- C may take a trap: it stands where one interrupts it, and its loads and atomics have written their registers. -/
def Core.mayTake (k : Core) : Bool := k.heedsTrap && (k.seq .C).ldCount == 0

/-- The lowest sequencer of a core with a trap pending (R283). -/
def Core.pending (k : Core) : Option SeqId := allSeqs.find? fun q => (k.seq q).trapPend

/-- C takes the next trap of its core, lowest sequencer first (R283, R327): its own, then one that became pending on C away from its
instructions, whose frame is C's next instruction, then those of the others. -/
def Core.takeTrap (k : Core) : Core :=
  match (k.seq .C).trapPend, k.c.async with
  | false, t :: ts =>
    let q := k.seq .C
    let k := k.setSeq .C (q.raise q.pc ⟨t.cause, t.addr, t.det⟩)
    let k := { k with c := { k.c with async := ts } }
    k.enterHandler .C (t.cause = 0x0B)
  | _, _ =>
    match k.pending with
    | some v => k.enterHandler v false
    | none => k

/-- A trap of the core waits for C. -/
def Core.trapWaits (k : Core) : Bool := k.pending.isSome || !k.c.async.isEmpty

/-- Taking an exception (R283): the trap entry of a core, when C may take a trap and one is pending. -/
def State.trapEntry (s : State) (c : CoreId) : State :=
  if (s.core c).mayTake && (s.core c).trapWaits then s.setCore c (s.core c).takeTrap else s

/-- A command stopped under R327 resumes at the ERET of its entry. -/
def Cmd.resume (x : Cmd) : Cmd :=
  match x.state with
  | .stopped _ => { x with state := .running, resumed := true }
  | .running => x

/-- Returning from an exception (R284): C swaps its user registers back; the handled sequencer resumes from its frame; C
resumes at SRET, or from its own frame; sequencers stopped by CTXSV or CTXLD resume; so do the commands of R327. -/
def Core.leaveHandler (k : Core) : Core :=
  let v := k.c.svSeq
  let q := k.seq .C
  let (q', b) := swapBank q k.c.bank
  let k := k.setSeq .C { q' with pc := k.c.sret, repc := k.c.svRepc, rep := k.c.svRep, loops := k.c.svLoops }
  let w := k.seq v
  let k := k.setSeq v { w with pc := w.frame.pc, repc := w.frame.repc, rep := none }
  let eng := k.c.svEng
  { k with
    c := { k.c with sup := false, bank := b, svEng := false, svRep := none, engStop := false }
    seqs := k.seqs.map fun q =>
      { q with ctxStop := false, lanes := [], peeked := [], cmds := if eng then q.cmds.map Cmd.resume else q.cmds } }

/-! ### User events (R55, R56) -/

/-- Post a user event to C of a core (R55, R272, R388): C that has executed NOTIFY discards it; a 17th is the overflow
trap on C. -/
def Core.postUser (k : Core) (g24 g25 : Word) : Core :=
  if (k.seq .C).done then k
  else if k.c.uevq.length < 16 then { k with c := { k.c with uevq := k.c.uevq ++ [(g24, g25)] } }
  else { k with c := { k.c with async := k.c.async ++ [⟨0x12, 0, g24⟩] } }

/-- A user event is next for C: enabled, one queued, in no handler, and in no stall that holds it: of those of C an event interrupts the
ones that R56, R273 and R287 name (R56, R283). -/
def Core.heedsUser (k : Core) : Bool :=
  k.c.uevEn && !k.c.uevq.isEmpty && !k.c.uevIn && !k.c.sup && !k.c.stand && k.c.stpW.isNone && !k.c.flgW
    && !k.c.held && !k.c.barMet && !(k.seq .C).done && !(k.seq .C).trapPend && k.card != 0

/-- C can take a user event: one is next, and its loads and atomics have written their registers. -/
def Core.userReady (k : Core) : Bool := k.heedsUser && (k.seq .C).ldCount == 0

/-- Swap g24 to g31 of C with the handler shadow (R56). -/
def Core.swapShadow (k : Core) : Core :=
  let q := k.seq .C
  let g := Vector.ofFn fun (i : Fin 32) => if i.val < 24 then q.g[i.val] else vget k.c.shadow (i.val - 24) 0
  let sh := Vector.ofFn fun (i : Fin 8) => vget q.g (i.val + 24) 0
  { k.setSeq .C { q with g := g } with c := { k.c with shadow := sh } }

/-- C takes its oldest user event (R56). -/
def Core.enterUser (k : Core) : Core :=
  match k.c.uevq with
  | [] => k
  | (a, b) :: rest =>
    let pc := (k.seq .C).pc
    let rc := (k.seq .C).repc
    let rf := (k.seq .C).rep
    let k := k.swapShadow
    let q := (k.seq .C).wr 24 a
    let q := { q.wr 25 b with pc := k.c.uevec, repc := 0, rep := none }
    { k.setSeq .C q with c := { k.c with
        uevq := rest, uevIn := true, uevRet := pc, uevRepc := rc, uevRep := rf, barWait := none, yieldW := false
        cardW := none } }

/-- Leave the user-event handler (R56): the shadow is swapped back and C resumes where it was interrupted. -/
def Core.leaveUser (k : Core) : Core :=
  let k := k.swapShadow
  let q := k.seq .C
  { k.setSeq .C { q with pc := k.c.uevRet, repc := k.c.uevRepc, rep := k.c.uevRep } with
    c := { k.c with uevIn := false, uevRep := none } }

end Sys2Proof.Machine
end

