-- ==== Sys2Proof/Machine/Wire.lean ====
section
/-! DEFINITION. Putting packets on the Strait ports (R114 to R116, R376, R377). -/

namespace Sys2Proof.Machine

/-- The route entry of a destination (R114). -/
def State.route (s : State) (dst : BitVec 16) : Word := sget 0 s.fab.routes dst.toNat

def routeV (w : Word) : Bool := w.bit 63
def routeDist (w : Word) : Nat := w.bits 58 56
def routeAlt (w : Word) : Nat := w.bits 55 54

/-- The candidate ports of an entry that are up, in order (R114, R376). -/
def State.candidates (s : State) (w : Word) : List (Fin 16) :=
  ((upTo (routeAlt w + 1)).map fun i => Fin.ofNat 16 (w.bits (4 * i + 3) (4 * i))).filter fun p =>
    !s.fab.down.getLsbD p.val

/-- What the package holds of a peer (R116). -/
def State.peer (s : State) (p : BitVec 16) : Peer := (dget s.fab.peers p.toNat).getD ⟨0, false⟩

def State.setPeer (s : State) (p : BitVec 16) (x : Peer) : State :=
  { s with fab := { s.fab with peers := sput s.fab.peers p.toNat x } }

/-- What may travel over an Ultra Ethernet port: asynchronous exchanges and their answers, and nothing of steps (R117). -/
def PBody.crosses : PBody → Bool
  | .req _ (.write ..) => true
  | .req _ (.contrib ..) => true
  | .rep _ .accepted => true
  | .rep _ .refused => true
  | .rep _ (.retry _) => true
  | _ => false

/-- A port may carry a body (R117). -/
def State.carries (s : State) (p : Fin 16) (b : PBody) : Bool := !s.fab.uet.getLsbD p.val || PBody.crosses b

/-- Put a packet on a candidate port of its destination; without one it is dropped and counted (R376). -/
def State.emit (s : State) (k : Packet) : State :=
  match ((if routeV (s.route k.dst) then s.candidates (s.route k.dst) else []).filter fun p => s.carries p k.body).head? with
  | none => s.count (cntPackage 2)
  | some p => { s with fab := { s.fab with wire := s.fab.wire ++ [(p, k)] } }

/-- Send a packet of this package (R115, R116). -/
def State.transmit (s : State) (dst : BitVec 16) (b : PBody) : State :=
  s.emit ⟨s.fab.pkg, dst, s.fab.inc, (s.peer dst).inc, 0, b⟩

/-- Keep a message until it is answered (R379). -/
def State.keepSend (s : State) (who : Option (CoreId × SeqId × Nat)) (dst : BitVec 16) (r : PReq) : State :=
  { s with fab := { s.fab with sends := s.fab.sends ++ [Send.mk s.stamp who dst r 1 0 false] } }.tick

/-- Send a message to a peer and keep it until it is answered (R115, R379); it is named by the stamp at which it is sent. -/
def State.sendReq (s : State) (who : Option (CoreId × SeqId × Nat)) (dst : BitVec 16) (r : PReq) : Nat × State :=
  (s.stamp, (s.transmit dst (.req s.stamp r)).keepSend who dst r)

end Sys2Proof.Machine
end

