-- ==== Sys2Proof/Machine/Poison.lean ====
section
/-! DEFINITION. Errors of the arrays: correction, poison and quarantine (R355 to R362, R366), the failure of a step group (R380,
R395), the writes that a home has confirmed, and the delivery of records to their rings (R291, R399, R400). -/

namespace Sys2Proof.Machine

/-! ### Counters of the homes (R369, R401) -/

/-- The kinds of counter a home keeps. -/
inductive HomeCnt where
  | ifReplay | ifExh | eccCor | eccUnc | actCap | actFall | poison | quotaFail | migSkip | decFail
deriving DecidableEq, Repr

/-- The place of a counter in a stack's block, a Skerry's block and the port's block. -/
def HomeCnt.slots : HomeCnt → Option Nat × Option Nat × Option Nat
  | .ifReplay => (some 0, none, none)
  | .ifExh => (some 1, none, none)
  | .eccCor => (some 2, some 0, none)
  | .eccUnc => (some 3, some 1, none)
  | .actCap => (some 4, none, none)
  | .actFall => (some 5, none, none)
  | .poison => (some 6, some 2, some 0)
  | .quotaFail => (some 7, some 5, some 2)
  | .migSkip => (none, some 3, some 1)
  | .decFail => (none, some 4, none)

/-- The tier-6 offset of a home's counter, if the home keeps it. -/
def HomeCnt.key (c : HomeCnt) (h : Fin 17) : Option Nat :=
  if h.val < 8 then c.slots.1.map fun i => 0x10000 + 0x80 * h.val + 8 * i
  else if h.val < 16 then c.slots.2.1.map fun i => 0x10400 + 0x80 * (h.val - 8) + 8 * i
  else c.slots.2.2.map fun i => 0x10800 + 8 * i

/-- Increment a home's counter. -/
def State.countHome (s : State) (c : HomeCnt) (h : Fin 17) : State :=
  match c.key h with
  | some k => s.count k
  | none => s

/-! ### Failure of a step group (R380, R395) -/

/-- The group of a participant card: FLAGS.STEP, and C runs (R101). -/
def Card.groupOf (c : Card) : Option (Fin 16) :=
  if CardImg.stepped c.img && CardImg.entry c.img .C != 0xFFFF then some (CardImg.stepGrp c.img) else none

/-- The cards that stand somewhere with a handle and wait for a predecessor, each with its partition, handle and image: taken ones
whose count is not zero, those of device queues and those of released replays (R37, R277). -/
def State.waitingCards (s : State) : List (Fin 32 × Handle × CardImg) :=
  (s.sch.cards.filter fun c => c.2.phase == .waiting && decide (0 < c.2.dep)).map (fun c => (c.1, c.2.handle, c.2.img))
    ++ ((List.finRange 32).flatMap fun p => (s.part p).devqs.flatMap fun d =>
      (d.cards.filter fun e => decide (0 < CardImg.dep e.2.1)).map fun e => (p, e.1, e.2.1))
    ++ s.sch.replays.flatMap fun r => (r.2.toGo.filter fun e => decide (0 < CardImg.dep e.2)).map fun e => (r.1, e.1, e.2)

/-- Some cards with those that wait on them through SUCC0 or SUCC1, transitively (R395); the fuel bounds the chain. -/
def waiters (cards : List (Fin 32 × Handle × CardImg)) : Nat → List (Fin 32 × Handle × CardImg) → List (Fin 32 × Handle × CardImg)
  | 0, ds => ds
  | fuel + 1, ds =>
    let succs := ds.flatMap fun d => [(d.1, CardImg.succ d.2.2 0), (d.1, CardImg.succ d.2.2 1)]
    let more := cards.filter fun c => succs.contains (c.1, c.2.1) && !(ds.any fun d => d.1 = c.1 && d.2.1 = c.2.1)
    if more.isEmpty then ds else waiters cards fuel (ds ++ more)

/-- Discard a card wherever it stands: one that is not taken yet leaves its replay, and its queue when the scheduler comes to it
(R395). -/
def State.discardHandle (s : State) (p : Fin 32) (h : Handle) : State :=
  match s.card? p h with
  | some c => s.discardCard p c
  | none =>
    let s := { s with sch := { s.sch with replays := s.sch.replays.map fun (r : Fin 32 × Replay) =>
      if r.1 = p then (r.1, { r.2 with toGo := r.2.toGo.filter fun e => !(e.1 == h) }) else r } }
    s.setSlot p h .discarded

/-- Discard the participant cards of a group that have been placed, and those that wait on them (R395). -/
def State.discardGroup (s : State) (g : Fin 16) : State :=
  let ds := (s.sch.cards.filter fun c => c.2.placed && c.2.groupOf == some g).map fun c => (c.1, c.2.handle, c.2.img)
  let cs := s.waitingCards
  let ws := waiters cs cs.length ds
  let s := ws.foldl (fun s d => s.discardHandle d.1 d.2.1) s
  ((ws.map (·.1)).eraseDups).foldl State.serveRecords s

/-- Release the charges of buffered writes (R77, R368). -/
def State.releaseBuf (s : State) (bs : List Buffered) : State :=
  bs.foldl (fun s b =>
    match dget s.fab.regions b.exp with
    | none => s
    | some r =>
      let pt := s.part r.part
      s.setPart r.part { pt with charges := vset pt.charges 3 (vget pt.charges 3 0 - b.data.length) }) s

/-- The partitions of a group's placed participant cards and of its regions. -/
def State.groupParts (s : State) (g : Fin 16) : List (Fin 32) :=
  ((s.sch.cards.filter fun c => c.2.placed && c.2.groupOf == some g).map (·.1)
    ++ (s.fab.regions.filter fun r => r.2.group = g).map fun r => r.2.part).eraseDups

/-- The work and the buffered writes of a group are discarded and it stands failed, naming the first member lost (R380, R395). -/
def State.stopGroup (s : State) (g : Fin 16) (lost : BitVec 16) : State :=
  let s := s.discardGroup g
  let s := s.releaseBuf (s.fab.sbuf.filter fun b => b.group = g)
  let gr := s.fab.groups[g.val]
  { s with fab := { s.fab with
    sbuf := s.fab.sbuf.filter fun b => b.group != g
    acks := s.fab.acks.filter fun a => a.group != some g
    groups := s.fab.groups.set g.val { gr with failed := some (gr.failed.getD lost), gone := gr.gone ++ [lost] } } }

/-- A machine fault of partitions and of step groups (R394 to R396): it is counted once, their work is discarded at one point, and
one record goes to the partitions and to those of the groups, or to VF 0 when it names none. -/
def State.faultOf (s : State) (src code : Nat) (ps : List (Fin 32)) (gs : List (Fin 16)) (lost : BitVec 16) (addr detail : Word) :
    State :=
  let rcp := (ps ++ gs.flatMap s.groupParts).eraseDups
  let s := s.count (cntPackage 8)
  let s := ps.foldl State.discardPart s
  let s := gs.foldl (fun s g => s.stopGroup g lost) s
  let (n, s) := s.nextEvSeq src
  if rcp.isEmpty then s.send none ⟨n, src, 1, code, 0, 0, addr, detail⟩
  else rcp.foldl (fun s p => s.send (some p) ⟨n, src, 1, code, 0, p.val, addr, detail⟩) s

/-- A member tells every other member of a group, but for the one that is lost, that the group has failed (R380). -/
def State.notifyGroup (s : State) (g : Fin 16) (lost : BitVec 16) : State :=
  let gr := s.fab.groups[g.val]
  (gr.members.filter fun m => m != s.fab.pkg && m != lost).foldl (fun s m => (s.sendReq none m (.notice gr.gid lost)).2) s

/-- A joined group fails because a member of it is lost, which the group has not failed by before (R380): the record names the
last boundary applied here. -/
def State.failGroup (s : State) (g : Fin 16) (lost : BitVec 16) (src code : Nat) (addr : Word) : State :=
  let gr := s.fab.groups[g.val]
  if !gr.joined || gr.gone.contains lost then s else s.faultOf src code [] [g] lost addr (word gr.step - 1)

/-- A member finds its group failed and tells every other member (R380). -/
def State.failTold (s : State) (g : Fin 16) (lost : BitVec 16) (src code : Nat) (addr : Word) : State :=
  let gr := s.fab.groups[g.val]
  if !gr.joined || gr.gone.contains lost then s else (s.failGroup g lost src code addr).notifyGroup g lost

/-! ### Poison and quarantine (R359, R361, R362) -/

/-- The entries whose frame in an array holds a physical address. -/
def State.mappers (s : State) (arr : Fin 17) (phys : Nat) : List PteAt :=
  s.entries.filter fun e => e.arr = arr && decide (pteFrame e.pte ≤ phys) && decide (phys < pteFrame e.pte + e.frameBytes)

/-- Change the entries of a page at all its homes. -/
def State.mapPage (s : State) (part : Fin 32) (code base : Nat) (f : Word → Word) : State :=
  { s with hm := { s.hm with ptes := (pageHomes base (pageSize code)).foldl (fun m h =>
      let k := pteKey h part code base
      let w := sget 0 m k
      if pteP w then sset 0 m k (f w) else m) s.hm.ptes } }

/-- Quarantine one page of one partition: PSN at every home, each counted, its frames retired until a restore. -/
def State.quarantine (s : State) (e : PteAt) : State :=
  let homes := pageHomes e.base (pageSize e.code)
  let frames := homes.filterMap fun h =>
    let w := sget 0 s.hm.ptes (pteKey h e.part e.code e.base)
    if pteP w then some ((arrayOf h e.hbm).val, pteFrame w, e.frameBytes) else none
  let s := s.mapPage e.part e.code e.base fun w => pteSet w 52 true
  let s := homes.foldl (fun s h => s.countHome .poison h) s
  { s with hm := { s.hm with quar := s.hm.quar ++ frames.filter fun f => !s.hm.quar.contains f } }

/-- The rows whose ways share a byte with a page (R362). -/
def State.rowsIn (s : State) (part : Fin 32) (base size : Nat) : List HotRow :=
  s.hm.hot.filter fun h => h.part = part && !h.back &&
    match dget (s.part part).tables h.table with
    | some t => overlap (t.wayIa h.set h.way) t.slot base size
    | none => false

/-- Rows of a hot-area page that is lost: clean ones are dropped, dirty ones are marked lost with their event (R362). -/
def State.loseRows (s : State) (part : Fin 32) (base size : Nat) (src : Nat) : State :=
  let rows := s.rowsIn part base size
  let s := { s with hm := { s.hm with
    hot := (s.hm.hot.filter fun h => !(rows.contains h && !h.dirty)).map fun h =>
      if rows.contains h then { h with lost := true } else h } }
  (rows.filter (·.dirty)).foldl (fun s h =>
    s.post part src 3 1 0 (word ((dget (s.part part).tables h.table).elim 0 fun t => t.wayIa h.set h.way))
      (word (h.table + h.row * 2 ^ 12))) s

/-- A stepped page's group. -/
def State.groupAt (s : State) (ia : Nat) : Option (Fin 16) :=
  (s.fab.regions.find? fun r => r.2.base ≤ ia && ia < r.2.base + r.2.bytes).map fun r => r.2.group

/-- Accesses that a home has confirmed and not yet performed reach a range (R63, R324). -/
def State.pendingIn (s : State) (base n : Nat) : Bool :=
  (s.fab.landing.any fun l => l.gs.any fun g => overlap g.1 g.2.length base n) || allCores.any fun c => allSeqs.any fun q =>
    let x := s.seq c q
    (x.stores.any fun t => overlap t.ia t.bytes.length base n)
      || (x.loads.any fun l => l.vals.isNone && l.parts.any fun d =>
        match d.place with | .home ia _ => overlap ia d.n base n | _ => false)
      || (x.atoms.any fun a => match a.place with | .home ia _ => overlap ia 8 base n | _ => false)
      || (q == .C && (s.core c).pendGrans.any fun g => overlap g.1 g.2.length base n)

/-- Confirmed accesses to a page of an entry, or to the rows whose ways it holds, are not yet performed. -/
def State.pendingAt (s : State) (e : PteAt) : Bool :=
  s.pendingIn e.base (pageSize e.code)
    || (s.rowsIn e.part e.base (pageSize e.code)).any fun r =>
      (dget (s.part e.part).tables r.table).any fun t => s.pendingIn (t.rowIa r.row) t.rowBytes

/-- The quarantine of every page that some frames hold takes effect (R359, R361, R362): the partitions receive their events, and a
frame of several partitions or of a stepped page is a machine fault. -/
def State.condemn (s : State) (src : Nat) (es : List PteAt) : State :=
  let s := es.foldl State.quarantine s
  let s := es.foldl (fun s e => s.loseRows e.part e.base (pageSize e.code) src) s
  let s := es.foldl (fun s e => s.post e.part src 3 0 0 (word e.base) 0) s
  let gs := ((es.filter fun e => pteStp e.pte).filterMap fun e => (s.groupAt e.base).map fun g => (g, e.base))
  let s := gs.foldl (fun s g =>
    let own := s.fab.pkg
    (s.faultOf src 0x03 [] [g.1] own (word g.2) (partMask (s.groupParts g.1))).notifyGroup g.1 own) s
  let ps := (es.map (·.part)).eraseDups
  match ps, es with
  | _ :: _ :: _, e :: _ => s.machineFault src 0x02 ps (word e.base)
  | _, _ => s

/-- An uncorrectable error has been found in a frame: the pages that it holds are quarantined at once, or, while accesses that a
home has confirmed are not yet performed there, as soon as they have been (R324, R359; log 45). -/
def State.poison (s : State) (home : Fin 17) (phys : Nat) : State :=
  let es := s.mappers home phys
  if es.any s.pendingAt then
    if s.hm.found.contains (home, phys) then s else { s with hm := { s.hm with found := s.hm.found ++ [(home, phys)] } }
  else s.condemn (srcHome home) (es.filter fun e => !ptePsn e.pte)

/-- Quarantine the pages of the errors found whose confirmed accesses have all been performed. -/
def State.settleFound (s : State) : State :=
  s.hm.found.foldl (fun s f =>
    let s := { s with hm := { s.hm with found := s.hm.found.filter fun g => g != f } }
    s.poison f.1 f.2) s

/-- An error that has not been found yet, of the word of an IA (R355). -/
def State.badAt (s : State) (ia : Nat) : Option (Hit × Bool) :=
  match lookup s.hm.ptes ia with
  | none => none
  | some h => (dget s.hm.bad (badKey (h.memKey ia))).map fun u => (h, u)

/-- A correctable error is found (R355, R357): the word is corrected and written back, counted at its array, and reported at most
once in a window of it. -/
def State.correct (s : State) (h : Hit) (ia : Nat) : State :=
  let s := { s with hm := { s.hm with bad := sdel s.hm.bad (badKey (h.memKey ia)) } }
  let s := s.countHome .eccCor h.arr
  if s.hm.corrWin.getLsbD h.arr.val then s
  else
    let s := { s with hm := { s.hm with corrWin := s.hm.corrWin ||| (1#17 <<< h.arr.val) } }
    let n := match HomeCnt.eccCor.key h.arr with | some k => sget 0 s.hm.counts k | none => 0
    s.post (iaPart ia) (srcHome h.arr) 2 0 0 (word ia) (n.setWidth 64)

/-- An uncorrectable error of the word at an IA is found (R359, R362): under a hot copy it only makes that copy dirty. The word
stays in error until its page is quarantined. -/
def State.uncorrect (s : State) (h : Hit) (ia : Nat) : State :=
  let s := if s.hm.found.contains (h.arr, h.phys ia) then s else s.countHome .eccUnc h.arr
  match s.hotAt ia with
  | some c => { s with hm := { s.hm with hot := s.hm.hot.map fun d => if d = c.1 then { d with dirty := true } else d } }
  | none =>
    let s := s.poison h.arr (h.phys ia)
    if (lookup s.hm.ptes ia).any (fun g => ptePsn g.pte) then
      { s with hm := { s.hm with bad := sdel s.hm.bad (badKey (h.memKey ia)) } }
    else s

/-- A page that an access decodes does not decode (R366); a byte with a hot copy is not decoded. -/
def State.undecodable (s : State) (ia : Nat) : Option Hit :=
  match lookup s.hm.ptes ia with
  | none => none
  | some h => if h.coded && !ptePsn h.pte && (s.hotAt ia).isNone && (s.pageDecoded h).isNone then some h else none

/-- An access to a page of tier 3 or 4 is counted by its home's tracker (R79). -/
def State.heatUp (s : State) (ia : Nat) : State :=
  if iaTier ia = 3 ∨ iaTier ia = 4 then
    match lookup s.hm.ptes ia with
    | none => s
    | some h => { s with hm := { s.hm with heat := sput s.hm.heat h.key (sget 0 s.hm.heat h.key + 1) } }
  else s

/-- What the words under `n` bytes from an IA hold for an access, byte by byte, but for bytes that it does not read: corrected words
change nothing else; an uncorrectable one, or a page that does not decode, ends in an error with the state that leaves and the
byte. -/
def State.meetFrom (s : State) (skip : Nat → Bool) (ia : Nat) : Nat → Except (State × Nat) State
  | 0 => .ok s
  | n + 1 =>
    match s.undecodable ia with
    | some h => .error ((s.countHome .decFail h.home).poison h.arr (h.phys ia), ia)
    | none =>
      match (if skip ia then none else s.badAt (s.arrayIa ia)) with
      | none => State.meetFrom s skip (ia + 1) n
      | some (h, false) => State.meetFrom (s.correct h (s.arrayIa ia)) skip (ia + 1) n
      | some (h, true) => .error (s.uncorrect h (s.arrayIa ia), ia)

/-- No word is in error and no page is coded: an access meets nothing in the arrays. -/
def State.sound (s : State) : Bool := s.hm.bad.isEmpty && s.hm.ptes.all fun e => !pteCmp e.2

/-- What a read meets in the arrays. The tracker counts it. -/
def State.meet (s : State) (ia n : Nat) : Except (State × Nat) State :=
  let s := s.heatUp ia
  if s.sound then .ok s else s.meetFrom (fun _ => false) ia n

/-- The rows of tables with a hot area that a run of bytes meets, each once. -/
def State.rowsMet (s : State) (ia n : Nat) : List (Nat × Table × Nat) :=
  ((upTo n).filterMap fun i => (s.rowAt (ia + i)).map fun r => (r.1, r.2.1, r.2.2.1)).eraseDups

/-- The dirty row that an allocation evicts is read for its write-back; one whose way holds an uncorrectable error is lost with its
page, and the next is taken (R359, R362). The fuel bounds the ways. -/
def State.clearWay (s : State) (p : Fin 32) (id : Nat) (t : Table) (r : Nat) : Nat → State
  | 0 => s
  | fuel + 1 =>
    match s.allocWay p id t r with
    | some (w, some v) =>
      if v.dirty then
        match s.meetFrom (fun _ => false) (t.wayIa v.set w) t.rowBytes with
        | .ok u => u
        | .error (u, _) => if (u.hotCopy v.part v.table v.row).any (·.lost) then State.clearWay u p id t r fuel else u
      else s
    | _ => s

/-- The way of an absent row is made ready for it. -/
def State.makeWay (s : State) (p : Fin 32) (r : Nat × Table × Nat) : State :=
  if (s.hotCopy p r.1 r.2.2).isSome then s else (s.settleWays p r.1 r.2.1 r.2.2).clearWay p r.1 r.2.1 r.2.2 17

/-- What copying an absent row into the directory meets: the row it evicts, and the whole row in its frame (R74, R354). -/
def State.meetRow (s : State) (p : Fin 32) (id : Nat) (t : Table) (r : Nat) : Except (State × Nat) State :=
  if (s.hotCopy p id r).isSome then .ok s else (s.makeWay p (id, t, r)).meetFrom (fun _ => false) (t.rowIa r) t.rowBytes

/-- The rows that a write reaches are ready for it. -/
def State.meetRows (s : State) (p : Fin 32) : List (Nat × Table × Nat) → Except (State × Nat) State
  | [] => .ok s
  | (id, t, r) :: l =>
    match s.meetRow p id t r with
    | .error e => .error e
    | .ok u => State.meetRows u p l

/-- A write of `n` bytes at an IA covers the whole word of a byte. -/
def coversWord (a n ia : Nat) : Bool := decide (a ≤ ia / 8 * 8) && decide (ia / 8 * 8 + 8 ≤ a + n)

/-- What a write meets in the arrays (R354): it reads the words that it covers in part, the page that it decodes, and the rows that it
copies in. The tracker counts it, once: when a store is performed later, its error was met, or not, as it was confirmed. -/
def State.meetWrite (s : State) (ia n : Nat) : Except (State × Nat) State :=
  let s := s.heatUp ia
  if s.sound then .ok s
  else
    match s.meetRows (iaPart ia) (s.rowsMet ia n) with
    | .error (u, a) => .error (u, if ia ≤ a ∧ a < ia + n then a else ia)
    | .ok u => u.meetFrom (coversWord ia n) ia n

/-- A write that a home has confirmed is performed there, or in local memory (R84, R324): the errors of its words were met when it was
confirmed, and a word that has failed since stays in error where the write does not cover it whole (R354, R359; log 45). -/
def State.land (s : State) (ia : Nat) (bs : List Byte) (depth : Nat) : State :=
  if iaTier ia = 5 then s.performAt ia bs depth
  else
    let s := if s.sound then s else (s.rowsMet ia bs.length).foldl (fun s r => s.makeWay (iaPart ia) r) s
    s.perform ia bs depth

/-- The stacks out of service include the array of an entry. -/
def State.outAt (s : State) (ia : Nat) : Bool :=
  match lookup s.hm.ptes ia with
  | some h => s.hm.out.getLsbD h.arr.val
  | none => false

/-- A home that serves an IA is out of service: its own, the stack of its frame, or that of the hot way of its row (R356). -/
def State.homeDown (s : State) (ia : Nat) : Bool :=
  s.hm.out != 0 &&
    ((match homeOf ia with | some h => s.hm.out.getLsbD h.val | none => false) || s.outAt ia || s.outAt (s.arrayIa ia))

/-! ### Records reach their rings (R291, R399, R400) -/

/-- Bytes that firmware and the ring writers put at an IA of tier 4 (R291, R294, R296): through the page that maps it, or, where no
page does, at the host physical address of its offset (log 16). It is no store of R45. -/
def State.hostBytesPut (s : State) (ia : Nat) : List Byte → State
  | [] => s
  | b :: bs =>
    State.hostBytesPut
      (if iaTier ia = 4 && (lookup s.hm.ptes ia).isNone then
        { s with hm := { s.hm with mem := Memory.set s.hm.mem (16 * 2 ^ 52 + iaOff ia) b } }
      else s.homePut ia b) (ia + 1) bs

/-- Firmware and the ring writers write host memory. Through a page that has migrated, words written whole are in error no longer, and a
write that meets an uncorrectable error, a poisoned page or a stack out of service is not made (R354, R356, R359; log 16). -/
def State.hostPut (s : State) (ia : Nat) (bs : List Byte) : State :=
  let n := bs.length
  if (upTo n).any fun i => s.homeDown (ia + i) || (lookup s.hm.ptes (ia + i)).any fun h => ptePsn h.pte then s
  else
    match s.meetWrite ia n with
    | .error (u, _) => u
    | .ok u => (u.overwrite ia n).hostBytesPut ia bs

/-- Post a record to the event ring of a function (R291): dropped and counted when the ring is full, else written at its
place in host memory and signalled unless the mask suppresses its class. -/
def State.postRing (s : State) (v : Fin 1024) (e : Event) : State :=
  let f := s.vf v
  if f.evlog = 0 then s
  else if (f.evcount + 2 ^ 32 - f.evhead.toNat) % 2 ^ 32 ≥ 2 ^ f.evlog then s.setVf v { f with evlost := f.evlost + 1 }
  else
    let s := s.hostPut (f.evbase + 32 * (f.evcount % 2 ^ f.evlog)) e.bytes
    let s := s.setVf v { f with evcount := f.evcount + 1 }
    if f.evmask.getLsbD e.cls then s else { s with hst := { s.hst with out := s.hst.out ++ [.signal v f.evvec] } }

/-- One record reaches a partition: its supervisor queue, and its functions' rings for the classes of R399. -/
def State.recordTo (s : State) (p : Fin 32) (e : Event) : State :=
  let s := s.postSup p e
  if ringClass e.cls then (s.boundTo p).foldl (fun s v => s.postRing v e) s else s

/-- The n-th posted record is delivered, when no earlier one of its source is still to be, whatever partition either names, but for the
copies of one record: to its partition, or to VF 0's ring where it names none (R399, R400; log 10). -/
def State.deliver (s : State) (n : Nat) : State :=
  match s.hst.posted[n]? with
  | none => s
  | some (p, e) =>
    if (s.hst.posted.take n).any fun d => d.2.src = e.src && (d.2.seq != e.seq || d.1 = p) then s
    else
      let s := { s with hst := { s.hst with posted := s.hst.posted.eraseIdx n } }
      match p with
      | some p => s.recordTo p e
      | none => s.postRing 0 e

end Sys2Proof.Machine
end

