-- ==== Sys2Proof/Machine/Operands.lean ====
section
/-! DEFINITION. Scalar operands: general registers, the pop and push of queues (R29, R31, R32, R179), IMM and the extension
word (R155, R180), and the substitution of a parameter block (R156). -/

namespace Sys2Proof.Machine

/-! ### Deciding an instruction's fate (R331 steps 7 to 9) -/

/-- C stands in an instruction whose stall a user event does not interrupt (R56). -/
def State.holdC (s : State) : State := if s.cur.sq = .C then s.setC { s.c with held := true } else s

/-- What an instruction that does not complete leaves: the same state when it stalls, noted for C where a user event does not
interrupt the stall, else its trap, raised on the state
before the instruction or on what its refused access leaves of it (R323, R333, R359); a card that the refusal has discarded
takes no trap. -/
def State.halt (s : State) : Stop → State
  | .stall => s
  | .hold => s.holdC
  | .trap t => s.raise s.cur.core s.cur.sq s.me.pc t
  | .after u t =>
    if s.me.ldCount ≠ 0 then s
    else if u.here.card = s.here.card then u.raise s.cur.core s.cur.sq s.me.pc t
    else u

/-- The outcome of an instruction's own rule: the next state, or what it leaves when it does not complete. -/
def finish (s : State) (r : Except Stop State) : Host.Outcome State Fault Refusal :=
  match r with
  | .ok t => .next t
  | .error e => .next (s.halt e)

/-- The sequencers that a form is granted to (R175). -/
inductive Who where
  | all | c | cl | cs | ls | l | x | s
deriving DecidableEq, Repr

def Who.has : Who → SeqId → Bool
  | .all, _ => true
  | .c, q => q == .C
  | .cl, q => q == .C || q == .L
  | .cs, q => q == .C || q == .S
  | .ls, q => q == .L || q == .S
  | .l, q => q == .L
  | .x, q => q == .X
  | .s, q => q == .S

/-- Steps 7 and 9 of R331: the sequencer is permitted, then the instruction's own rule decides. -/
def device (who : Who) (s : State) (body : State → Except Stop State) : Host.Outcome State Fault Refusal :=
  if who.has s.cur.sq then finish s (body s) else finish s (.error (s.wordTrap 0x03))

/-- Steps 7 to 9 of R331 for a form of the system group: C alone, at supervisor privilege. -/
def system (s : State) (body : State → Except Stop State) : Host.Outcome State Fault Refusal :=
  device .c s fun s => if s.c.sup then body s else .error (s.wordTrap 0x04)

/-! ### Queues -/

/-- Producer and consumer of queue `n` on the issuing core; without a card every queue is unbound. -/
def State.qbind (s : State) (n : Fin 8) : Nat × Nat :=
  match s.cardOn s.cur.core with
  | some c => CardImg.qbind c.img n.val
  | none => (0, 0)

/-- Pop a queue (R31, R32, R179): only its consumer may; an empty queue stalls. -/
def State.pop (s : State) (n : Fin 8) : Except Stop (Word × State) :=
  let (p, c) := s.qbind n
  if p = c ∨ c ≠ s.cur.sq.idx.val then .error (s.wordTrap 0x03)
  else
    let q := s.here.queues[n.val]
    match q.msgs with
    | [] => .error .stall
    | m :: t => .ok (m, s.setHere { s.here with queues := s.here.queues.set n.val { q with msgs := t, head := q.head + 1 } })

/-- The pool slots that a core's queues hold: what each holds beyond its 16 hardware slots (R32, R347). -/
def Core.poolUsed (k : Core) : Nat := (k.queues.toList.map fun q => q.msgs.length - 16).sum

/-- What a sequencer has observed and written is performed at .core: its loads, its atomics and its stores (R30, R88). -/
def Seq.coreReleased (q : Seq) : Bool :=
  q.loads.all (fun l => l.vals.isSome) && q.atoms.isEmpty && q.stores.all fun st => st.moment != .issued

/-- Whether a queue takes a message (R31, R32): only its producer may push; a push is a release at .core; a full queue stalls
without the pool, and takes a pool slot with it. -/
def State.pushRoom (s : State) (n : Fin 8) : Except Stop Unit :=
  let (p, c) := s.qbind n
  if p = c ∨ p ≠ s.cur.sq.idx.val then .error (s.wordTrap 0x03)
  else if !s.me.coreReleased then .error .hold
  else if s.here.queues[n.val].msgs.length < 16 then .ok ()
  else
    match s.cardOn s.cur.core with
    | none => .error .hold
    | some k =>
      if CardImg.qpool k.img / 2 ^ n.val % 2 = 0 then .error .hold
      else if s.here.poolUsed < CardImg.poolSize k.img then .ok ()
      else .error (s.wordTrap 0x0F)

/-- Push a message (R31, R32). What a borrowed slot leaves in its pool's bytes of local memory no rule says: they stay as they were
(log 35). -/
def State.push (s : State) (n : Fin 8) (v : Word) : Except Stop State :=
  match s.pushRoom n with
  | .error e => .error e
  | .ok () =>
    let q := s.here.queues[n.val]
    .ok (s.setHere
      { s.here with queues := s.here.queues.set n.val { q with msgs := q.msgs ++ [v], tail := q.tail + 1 } })

/-! ### Registers -/

/-- Read a scalar source: a general register, or the pop of a queue (R158, R179). -/
def State.readS (s : State) : SReg → Except Stop (Word × State)
  | .g n => .ok (s.me.rd n, s)
  | .q n => s.pop n

/-- Write a scalar destination: a general register, or a push (R158, R179). -/
def State.writeS (s : State) (r : SReg) (v : Word) : Except Stop State :=
  match r with
  | .g n => .ok (s.setMe (s.me.wr n v))
  | .q n => s.push n v

/-- Read a scalar B operand, IMM signed (R155, R180). -/
def State.readB (s : State) : SB → Except Stop (Word × State)
  | .reg r => s.readS r
  | .imm v => .ok (v.signExtend 64, s)
  | .ext w => .ok (w, s)

/-- Read a scalar B operand whose IMM is natural (R155, R169). -/
def State.readN (s : State) : SB → Except Stop (Word × State)
  | .reg r => s.readS r
  | .imm v => .ok (v.setWidth 64, s)
  | .ext w => .ok (w, s)

/-- A word of a parameter block after substitution (R156). -/
def Seq.subst (q : Seq) (w : Word) : Word :=
  if isMarker w then q.rd ⟨(w.extractLsb' 0 5).toNat, by omega⟩ + markerOffset w else w

/-- A parameter block after substitution. Fixed words hold no marker, so they stand (R156, R338). -/
def Seq.substBlk (q : Seq) (b : Blk) : Blk := ⟨q.subst b.p0, q.subst b.p1, q.subst b.p2, q.subst b.p3⟩

/-! ### Guards and dependences -/

/-- The guard is on (R157). -/
def guardOn (q : Seq) : Option Guard → Bool
  | none => true
  | some g => (q.rd g.gr.toFin).getLsbD g.gb.toNat != g.gn

end Sys2Proof.Machine

namespace Sys2Proof

/-- The general register of a scalar field, if it is one. -/
def SReg.regs : SReg → List (Fin 32)
  | .g n => [n]
  | .q _ => []

def SB.regs : SB → List (Fin 32)
  | .reg r => r.regs
  | _ => []

/-- The registers that the markers of a block name (R156). -/
def Blk.regs (b : Blk) : List (Fin 32) :=
  [b.p0, b.p1, b.p2, b.p3].filterMap fun w =>
    if isMarker w then some ⟨(w.extractLsb' 0 5).toNat, by omega⟩ else none

/-- The `n` registers from a first one up. -/
def runRegs (d : Fin 32) (n : Nat) : List (Fin 32) :=
  (List.range n).map fun i => Fin.ofNat 32 (d.val + i)

/-- The general registers that an instruction reads or writes (R179). -/
def Instr.regs : Instr → List (Fin 32)
  | .bcc _ a b _ => a.regs ++ b.regs
  | .bbitEq a _ _ | .bbitNe a _ _ | .jmp a _ | .loop _ a _ | .rep a _ | .mtsr _ a | .pref _ a _ | .layer a _
  | .cardw a | .wdis a | .pqpush _ a | .prio a _ | .uevset a _ | .mwr _ a | .ftset _ a | .ald _ _ a _
  | .ctxsv a | .ctxld a | .preempt a => a.regs
  | .call d _ => [d]
  | .add d a b | .sub d a b | .mul d a b | .mulh d a b | .mulhn d a b | .div d a b | .divn d a b | .rem d a b
  | .remn d a b | .and d a b | .or d a b | .xor d a b | .andn d a b | .shl d a b | .shr d a b | .sar d a b
  | .ror d a b | .min d a b | .max d a b | .minn d a b | .maxn d a b | .bset d a b | .bclr d a b => d.regs ++ a.regs ++ b.regs
  | .cmp _ d a b | .ext _ d a b | .crc _ d a b => d.regs ++ a.regs ++ b.regs
  | .clz d a | .ctz d a | .popc d a | .mov d a | .warm d a | .evrd d a => d.regs ++ a.regs
  | .bfx _ d a _ _ => d.regs ++ a.regs
  | .bfi d a _ _ => d :: a.regs
  | .ldi d _ | .mfsr d _ | .qstat d _ | .step d | .mrd d _ | .stepq d _ | .pqpop d _ => d.regs
  | .ld _ _ _ d a _ | .lda _ _ _ d a _ => d.regs ++ a.regs
  | .st _ _ v a _ | .str _ _ v a _ => v.regs ++ a.regs
  | .ldm _ d n a _ | .stm _ d n a _ => runRegs d n.toNat ++ a.regs
  | .amo _ _ _ _ _ d a b | .cas _ _ _ _ d a b | .graph d a b => d.regs ++ a.regs ++ b.regs
  | .red _ _ _ _ _ a b | .trigrd a b _ | .syswr a b _ => a.regs ++ b.regs
  | .spill _ a n => runRegs a n.toNat
  | .fill d _ n => runRegs d n.toNat
  | .tpost _ b | .twait _ b => b.regs
  | .flagw d a (.reg b _) => d.regs ++ a.regs ++ b.regs
  | .flagw d a (.ext _) => d.regs ++ a.regs
  | .launch d a _ | .sysrd d a _ => d.regs ++ a.regs
  | .vbcast _ _ a | .vins _ _ a _ | .viota _ _ a | .vld _ _ a _ | .vst _ _ a _ | .vgath _ _ _ a _ | .vscat _ _ a _ => a.regs
  | .vmovs _ d _ _ => d.regs
  | .vshuf _ (.rot b) _ _ => b.regs
  | .smxr _ d _ b => d.regs ++ b.regs
  | .smxw _ _ a b => a.regs ++ b.regs
  | .pcfg _ b | .bld _ _ _ b | .nset _ b | .adrn _ _ b | .cpy _ b | .cpyx _ b | .gath _ b | .walk _ b | .pool _ b
  | .decmp _ b | .buck _ b | .supd _ b | .xall _ b | .coll _ b | .rst _ b | .rld _ b | .rred _ b => b.regs
  | _ => []

end Sys2Proof

namespace Sys2Proof.Machine

/-- A register waits for an outstanding load or atomic (R179). -/
def Seq.waitsFor (q : Seq) (n : Fin 32) : Bool :=
  (q.loads.any fun l => l.parts.any fun r => r.dest = n && n != 0) ||
    (q.atoms.any fun a => match a.kind with | .red .. => false | _ => a.dest = n && n != 0)

end Sys2Proof.Machine
end

