-- ==== Sys2Proof/Machine/Flags.lean ====
section
/-! DEFINITION. Conditions (R163) and the sticky flags of FPCS (R118). -/

namespace Sys2Proof

/-- A condition on two scalars: codes 2, 3, 6 and 7 compare signed, 4, 5, 8 and 9 natural (R163, R181). -/
def Cond.holds (c : Cond) (a b : Word) : Bool :=
  match c with
  | .eq => a == b
  | .ne => a != b
  | .lt => a.slt b
  | .ge => b.sle a
  | .ltn => a.ult b
  | .gen => b.ule a
  | .le => a.sle b
  | .gt => b.slt a
  | .len => a.ule b
  | .gtn => b.ult a

end Sys2Proof

namespace Sys2Proof.Machine

/-- The sticky flags that an operation raises, by their places in FPCS (R118). -/
structure Flags where
  nx  : Bool := false
  uf  : Bool := false
  of  : Bool := false
  dz  : Bool := false
  nv  : Bool := false
  vsat : Bool := false
  acs : Bool := false
  trb : Bool := false
  scb : Bool := false
deriving DecidableEq, Repr

/-- No flag. -/
def Flags.none : Flags := {}

/-- Both sets of flags. -/
def Flags.or (a b : Flags) : Flags :=
  ⟨a.nx || b.nx, a.uf || b.uf, a.of || b.of, a.dz || b.dz, a.nv || b.nv, a.vsat || b.vsat, a.acs || b.acs,
   a.trb || b.trb, a.scb || b.scb⟩

/-- The flags at their places in FPCS (R118). -/
def Flags.mask (f : Flags) : Word :=
  word ((if f.nx then 1 else 0) + (if f.uf then 2 else 0) + (if f.of then 4 else 0) + (if f.dz then 8 else 0)
    + (if f.nv then 16 else 0) + (if f.vsat then 64 else 0) + (if f.acs then 128 else 0) + (if f.trb then 256 else 0)
    + (if f.scb then 512 else 0))

/-- Set flags of a sequencer; a set flag stays set (R118). -/
def Seq.raiseFlags (q : Seq) (f : Flags) : Seq := { q with fpcs := q.fpcs ||| f.mask }

/-- Set flags of the issuing sequencer. -/
def State.raiseFlags (s : State) (f : Flags) : State :=
  if f = Flags.none then s else s.setMe (s.me.raiseFlags f)

/-- The rounding field RM (R118). -/
def Seq.rm (q : Seq) : Nat := q.fpcs.bits 11 10

/-- The flags of FPCS, bits [9:6] and [4:0] (R118). -/
def fpcsFlags : Word := 0x3DF#64

/-- What MTSR leaves in FPCS: RM takes the bits written, and a flag written 1 is cleared (R118, R160). -/
def fpcsWrite (old v : Word) : Word := (v &&& 0xC00#64) ||| (old &&& fpcsFlags &&& ~~~v)

end Sys2Proof.Machine
end

