-- ==== Sys2Proof/Machine/Issue.lean ====
section
/-! DEFINITION. The fetch of a sequencer's next instruction and the checks before its own rule: steps 1 to 6 of R331, the
instruction cache (R69), the dependences of R179, and how a program is placed for a first step. -/

namespace Sys2Proof.Machine

/-! ### Fetch -/

/-- The trap of a failed fetch (R335, R322). -/
def fetchTrap (cause addr : Nat) : Trap := ⟨cause, word addr, accessDetail 0 0 true false false false⟩

/-- The line of the instruction cache that holds an IA (R69). -/
def Core.icLine (k : Core) (ia : Nat) : Option Line := k.icache.find? fun l => l.ia = ia / 128

/-- The home's answer to a fetch: refused (R324, R360), on a stepped page of no participant (R370), or the state in which the
line is read. -/
def State.fetchHome (s : State) (c : CoreId) (va ia : Nat) : Except Stop State :=
  if s.homeDown ia then .error .stall
  else
    match s.confirm ia false with
    | .error e => .error (.trap (fetchTrap e.cause ia))
    | .ok h =>
      if pteStp h.pte && !((s.cardOn c).any fun k => k.groupOf.isSome && k.groupOf == s.groupAt ia) then
        .error (.trap ⟨0x18, word va, s.cur.word⟩)
      else
        match s.meet (ia / 128 * 128) 128 with
        | .error (u, _) => .error (.after u (fetchTrap 0x19 ia))
        | .ok u => .ok u

/-- The word at an IA through the instruction cache, which fills its line; its 64 KiB hold 512 lines (R19, R69). -/
def State.fetchIa (s : State) (c : CoreId) (va ia : Nat) : Except Stop (Word × State) :=
  if iaTier ia > 4 then .error (.trap (fetchTrap 0x07 va))
  else
    match (s.core c).icLine ia with
    | some l => .ok (word (leNat ((l.bytes.drop (ia % 128)).take 8)), s)
    | none =>
      match s.fetchHome c va ia with
      | .error t => .error t
      | .ok s =>
        let bs := s.homeBytes (ia / 128 * 128) 128
        let k := s.core c
        .ok (word (leNat ((bs.drop (ia % 128)).take 8)), s.setCore c { k with icache := ⟨ia / 128, bs⟩ :: k.icache.take 511 })

/-- The word at an address: at supervisor privilege an IA, else a VA through the range registers with EX (R58, R181,
R283). -/
def State.fetchWord (s : State) (c : CoreId) (q : SeqId) (va : Nat) : Except Stop (Word × State) :=
  if va % 8 ≠ 0 then .error (.trap (fetchTrap 0x05 va))
  else if q = .C ∧ (s.core c).c.sup then s.fetchIa c va (va % 2 ^ 52)
  else
    match translate (s.core c).partNo (s.seq c q).rng va 8 .ex with
    | .error e => .error (.trap (fetchTrap e va))
    | .ok t => s.fetchIa c va t.ia

/-- The words from an address up (R335). -/
def State.fetchWords (s : State) (c : CoreId) (q : SeqId) (va : Nat) : Nat → Except Stop (List Word × State)
  | 0 => .ok ([], s)
  | n + 1 =>
    match s.fetchWord c q (va % 2 ^ 64) with
    | .error t => .error t
    | .ok (w, s) =>
      match State.fetchWords s c q (va + 8) n with
      | .error t => .error t
      | .ok (ws, s) => .ok (w :: ws, s)

/-! ### Issue -/

/-- A sequencer may issue: C in its handler may; else it must carry a card, not have reached NOTIFY, hold no trap and not be
stopped, and C must have no trap or user event to take at its next instruction boundary (R56, R283). -/
def State.mayIssue (s : State) (c : CoreId) (q : SeqId) : Bool :=
  let k := s.core c
  let x := k.seq q
  if q == .C && k.c.sup then true
  else
    k.card != 0 && !x.done && !x.trapPend && !x.ctxStop && !(k.c.sup && k.c.svSeq == q)
      && (q != .C || (!k.heedsUser && !(k.heedsTrap && k.trapWaits)))

/-- What an issue comes to before the instruction's own rule: a state that the step ends in, or an instruction to execute. -/
inductive Issue where
  | over (s : State)
  | run (i : Instr) (s : State)

/-- A trap of the encoding itself (R332). -/
def State.encodingTrap (s : State) (e : DErr) : Trap := ⟨e.cause, 0, s.cur.word⟩

/-- Keep the words of an instruction under a REP for its later repetitions (R332). -/
def State.keepRep (s : State) (ws : List Word) : State :=
  let q := s.me
  if q.repc = 0 ∧ q.rep = none then s
  else s.setMe { q with rep := if q.repc = 0 then none else some ⟨q.pc, q.repc, ws⟩ }

/-- The words of a later repetition (R332). -/
def Seq.repeated (q : Seq) : Option (List Word) :=
  match q.rep with
  | some r => if q.repc ≠ 0 ∧ r.pc = q.pc ∧ (r.left = q.repc ∨ r.left = q.repc + 1) then some r.words else none
  | none => none

/-- Steps 4 to 6 of R331 and the dependences of R179, with all the words fetched. -/
def State.judge (s : State) (ws : List Word) : Issue :=
  let c := s.cur.core
  let q := s.cur.sq
  match decode s.cur.word ws with
  | .error e => .over (s.raise c q s.me.pc (s.encodingTrap e))
  | .ok d =>
    let s := s.keepRep (s.cur.word :: ws)
    let regs := match d.guard with | some g => [g.gr.toFin] | none => []
    if regs.any s.me.waitsFor then .over s
    else if !guardOn s.me d.guard then .over s.complete
    else if d.instr.regs.any s.me.waitsFor then .over s
    else .run d.instr s

/-- Steps 1 to 3 of R331, then the rest. -/
def State.fetchIssue (s : State) (c : CoreId) (q : SeqId) : Issue :=
  let pc := s.me.pc
  match s.fetchWord c q pc.toNat with
  | .error e => .over (s.halt e)
  | .ok (w, s) =>
    let s := { s with cur := ⟨c, q, w, 8⟩ }
    match decodeLen w with
    | .error e => .over (s.raise c q pc (s.encodingTrap e))
    | .ok n =>
      let s := { s with cur := ⟨c, q, w, n⟩ }
      match s.fetchWords c q (pc.toNat + 8) (n / 8 - 1) with
      | .error e => .over (s.halt e)
      | .ok (ws, s) => ({ s with cur := ⟨c, q, w, n⟩ } : State).judge ws

/-- C that stood in an instruction begins it afresh: whether a user event may interrupt it is for this evaluation to say (R56). -/
def State.freeC (s : State) : State :=
  if s.cur.sq = .C ∧ s.c.held = true then s.setC { s.c with held := false } else s

/-- Steps 1 to 6 of R331 for a sequencer that may issue; steps 1 to 5 are made once under a REP (R332). -/
def State.issue (s : State) (c : CoreId) (q : SeqId) : Issue :=
  let s := { s with cur := ⟨c, q, 0, 8⟩ }
  if !s.mayIssue c q then .over s
  else
    let s := s.freeC
    match s.me.repeated with
    | some (w :: ws) => ({ s with cur := ⟨c, q, w, 8 * (ws.length + 1)⟩ } : State).judge ws
    | _ => s.fetchIssue c q

/-! ### A program placed for its first step -/

/-- The sequencer that a first instruction is placed for: the first one that R175 grants its opcode. -/
def firstSeq (op : Nat) : SeqId :=
  if (0x60 ≤ op ∧ op < 0xB0) then .X
  else if op = 0xB0 ∨ op = 0xB1 ∨ op = 0xB2 ∨ op = 0xB3 ∨ op = 0xB4 ∨ op = 0xB9 ∨ op = 0xC1 then .L
  else if 0xB5 ≤ op ∧ op ≤ 0xC2 then .S
  else .C

/-- The card that carries a placed program: a 1 × 1 card with all its fields zero. -/
def bareCard (h : Handle) : Card where
  handle := h
  img := Vector.replicate 16 0
  rng := Vector.replicate 16 0
  source := .dev
  dep := 0
  arrival := some 0
  own := 0
  aged := 0
  hold := false
  phase := .running
  ox := 0
  oy := 0
  depth := 0
  replay := none
  pre := false
  forced := false
  saved := []

/-- The range register that maps VA 0 to 1 GiB of tier 0, with RD, WR and EX. -/
def bareRange : Range := (0xF#4 ++ 0#17 ++ 0#35 ++ 0x40000#36 ++ 0#36 : BitVec 128)

/-- The page-table entries of a 1 GiB page at offset 0 of tier 0 of partition 0, writable, frame 0 at every stack. -/
def barePtes : Sparse Word :=
  (upTo 8).foldl (fun m h => sput m (pteKey (Fin.ofNat 17 h) 0 9 0) 0xC000000000000900#64) []

/-- A sequencer that starts at VA 0 through the bare range register. -/
def bareSeq : Seq := { Seq.reset with done := false, rng := (Vector.replicate 16 0).set 0 bareRange }

/-- A machine with partition 0 on cluster 0, a bare card on core 0, and `q` of core 0 about to issue from VA 0. -/
def State.placed (s : State) (q : SeqId) : State :=
  let k := s.core 0
  let s := s.setCore 0 { (k.setSeq q bareSeq) with part := some 0, card := 1 }
  let pt := s.part 0
  let s := s.setPart 0 { pt with live := true, clusters := 1, slots := [(1, ⟨0, .live⟩)] }
  { s with
    agenda := [.issue 0 q]
    hm := { s.hm with ptes := barePtes }
    sch := { s.sch with cards := [(0, bareCard 1)] } }

end Sys2Proof.Machine
end

