-- ==== Sys2Proof/Machine/Control.lean ====
section
/-! DEFINITION. The control group: branches, loops, REP, TRAP, WAITC, and NOTIFY, YIELD and UERET (R181 to R189, R198, R272,
R273, R282). -/

namespace Sys2Proof.Machine

/-- NOP (R189): nothing. -/
def execNop (s : State) : Host.Outcome State Fault Refusal :=
  device .all s fun s => .ok s.complete

/-- BR (R181). -/
def execBr (d : Off) (s : State) : Host.Outcome State Fault Refusal :=
  device .all s fun s => .ok (s.branch (s.target d.val))

/-- A branch that is taken, or passes (R181, R182). -/
def State.branchIf (s : State) (t : Bool) (d : Off) : State := if t then s.branch (s.target d.val) else s.complete

/-- BCC (R163, R181). -/
def execBcc (c : Cond) (a b : SReg) (d : Off) (s : State) : Host.Outcome State Fault Refusal :=
  device .all s fun s => do
    let (x, s) ← s.readS a
    let (y, s) ← s.readS b
    pure (s.branchIf (c.holds x y) d)

/-- BBIT.EQ (R181): taken when bit b of a is 0. -/
def execBbitEq (a : SReg) (b : BitVec 6) (d : Off) (s : State) : Host.Outcome State Fault Refusal :=
  device .all s fun s => do
    let (x, s) ← s.readS a
    pure (s.branchIf (!x.getLsbD b.toNat) d)

/-- BBIT.NE (R181): taken when bit b of a is 1. -/
def execBbitNe (a : SReg) (b : BitVec 6) (d : Off) (s : State) : Host.Outcome State Fault Refusal :=
  device .all s fun s => do
    let (x, s) ← s.readS a
    pure (s.branchIf (x.getLsbD b.toNat) d)

/-- CALL (R181): the link is the address of the next instruction; the loop stack stays (R185). -/
def execCall (d : Fin 32) (t : Off) (s : State) : Host.Outcome State Fault Refusal :=
  device .all s fun s =>
    let q := s.me.wr d (s.me.pc + word s.cur.len)
    .ok (s.setMe { q with pc := s.target t.val })

/-- JMP (R181): a target that is no multiple of 8 is misaligned, cause 0x05. -/
def execJmp (a : SReg) (k : Off) (s : State) : Host.Outcome State Fault Refusal :=
  device .all s fun s => do
    let (x, s) ← s.readS a
    let t := x + k.val
    if t.toNat % 8 = 0 then pure (s.branch t)
    else .error (.trap ⟨0x05, t, accessDetail s.opcode 0 false false false false⟩)

/-- The length of the instruction at an address, from the word there, fetched ahead (R183, R186, R187): a fetch fault is the
reader's own, X = 11 is cause 0x01. -/
def State.lenAt (s : State) (a : Word) : Except Stop (Nat × State) :=
  match s.fetchWord s.cur.core s.cur.sq a.toNat with
  | .error e => .error e
  | .ok (w, s) => if (fieldsOf w).x = 3 then .error (s.wordTrap 0x01) else .ok (lenOfX (fieldsOf w).x, s)

/-- Open a loop (R183). The skip of a count of 0 is no loop end of an outer loop whose last instruction this is: the manual does not say
whether it is a taken transfer (R184; DESIGN CHOICE, log 59). -/
def State.openLoop (s : State) (rot : Bool) (cnt : Word) (d : BitVec 19) : Except Stop State := do
  let fin := s.me.pc + 8 * d.signExtend 64
  if cnt = 0 then
    let (n, s) ← s.lenAt fin
    pure (s.setMe { s.me with pc := fin + word n })
  else if loopDepth s.me.loops = 4 then .error (s.wordTrap 0x15)
  else
    let q := s.me
    pure (s.setMe { q with
      loops := vset q.loops (loopDepth q.loops) ⟨q.pc + 8, fin, cnt, rot⟩
      pc := q.pc + 8 })

/-- LOOP (R183): .rot belongs to X (R339). -/
def execLoop (rot : Bool) (a : SReg) (d : BitVec 19) (s : State) : Host.Outcome State Fault Refusal :=
  device .all s fun s => do
    if rot && s.cur.sq != .X then .error (s.wordTrap 0x01)
    let (x, s) ← s.readS a
    s.openLoop rot x d

/-- LOOPI (R183): the count is D × 64 + B. -/
def execLoopi (rot : Bool) (n : BitVec 12) (d : BitVec 19) (s : State) : Host.Outcome State Fault Refusal :=
  device .all s fun s => do
    if rot && s.cur.sq != .X then .error (s.wordTrap 0x01)
    s.openLoop rot (n.setWidth 64) d

/-- The opcodes that may follow REP (R187). -/
def repOk (op : Nat) : Bool :=
  (decide (0x10 ≤ op) && decide (op ≤ 0x38)) || op == 0x3B || op == 0x40 || op == 0x41 || op == 0x42
    || (decide (0x60 ≤ op) && decide (op ≤ 0x8F) && op != 0x7B && op != 0x8C && op != 0x8D)

/-- An address is the end of a loop body (R187). -/
def Seq.endsLoop (q : Seq) (pc : Word) : Bool := q.loops.toList.any fun e => e.count != 0 && e.fin == pc

/-- REP (R187): the word that follows is read for its form, and its length when the count is 0. -/
def execRep (a : SReg) (n : BitVec 19) (s : State) : Host.Outcome State Fault Refusal :=
  device .all s fun s => do
    let (x, s) ← s.readS a
    let cnt := x + n.setWidth 64
    let next := s.me.pc + 8
    if s.me.endsLoop s.me.pc then .error (s.wordTrap 0x01)
    match s.fetchWord s.cur.core s.cur.sq next.toNat with
    | .error e => .error e
    | .ok (w, s) =>
      if (fieldsOf w).x = 3 || !repOk (fieldsOf w).op.toNat then .error (s.wordTrap 0x01)
      else if cnt = 0 then pure (s.passEnd next (lenOfX (fieldsOf w).x))
      else pure (s.setMe { s.me with repc := cnt, pc := next })

/-- Pop `n` entries. -/
def loopPopN : Nat → Vector LoopEntry 4 → Vector LoopEntry 4
  | 0, l => l
  | n + 1, l => loopPopN n (loopPop l)

/-- LBRK (R186): pops m + 1 entries and goes on after the end of the outermost one popped. -/
def execLbrk (m : BitVec 2) (s : State) : Host.Outcome State Fault Refusal :=
  device .all s fun s => do
    let l := s.me.loops
    if loopDepth l < m.toNat + 1 then .error (s.wordTrap 0x15)
    let fin := (vget l (loopDepth l - (m.toNat + 1)) LoopEntry.empty).fin
    let (n, s) ← s.lenAt fin
    pure (s.setMe { s.me with loops := loopPopN (m.toNat + 1) l, pc := fin + word n })

/-- TRAP (R189): it completes with its loop-end check, and the software trap, cause 0x11, holds where execution goes on. -/
def execTrap (c : BitVec 16) (s : State) : Host.Outcome State Fault Refusal :=
  device .all s fun s =>
    if s.me.ldCount ≠ 0 then .error .hold
    else
    let t := s.complete
    .ok (t.raise t.cur.core t.cur.sq t.me.pc ⟨0x11, 0, c.setWidth 64⟩)

/-- UERET (R56, R282): outside the handler it is illegal. -/
def execUeret (s : State) : Host.Outcome State Fault Refusal :=
  device .c s fun s =>
    if s.me.ldCount ≠ 0 then .error .hold
    else if s.c.uevIn && !s.c.sup then .ok (s.setHere s.here.leaveUser) else .error (s.wordTrap 0x01)

/-- The engine detail (R322). -/
def engineDetail (done op stat : Nat) : Word := word (done % 2 ^ 40 * 2 ^ 24 + op * 2 ^ 16 + stat)

/-- The counts of WAITC hold: a count above its maximum acts as the maximum (R33, R164, R198). -/
def State.waitcMet (s : State) (ld st cp : BitVec 4) (mx : BitVec 3) (rm : BitVec 4) : Bool :=
  let q := s.me
  decide (q.ldCount ≤ min ld.toNat 14) && decide (q.stCount ≤ min st.toNat 14) && decide (q.cpCount ≤ min cp.toNat 14)
    && decide ((if s.cur.sq == .X then s.x.mx.length else 0) ≤ min mx.toNat 6) && decide (q.rmCount ≤ min rm.toNat 14)

/-- The error of the command issued first. -/
def firstErr : List CmdErr → Option CmdErr
  | [] => none
  | e :: t =>
    match firstErr t with
    | none => some e
    | some f => if f.stamp < e.stamp then some f else some e

/-- The card of a core uses the fused L1 (R68). -/
def State.fusedAt (s : State) (c : CoreId) : Bool := (s.cardOn c).any fun k => CardImg.fused k.img

/-- The lines of the buffers that the asynchronous exchanges covered by a WAITC name leave L1, those on their way to the cluster with
them: their participants' writes are acquired, and nothing else is (R98). -/
def State.seeNamed (s : State) : State :=
  if s.me.named.isEmpty then s
  else
    let c := s.cur.core
    let s := s.me.named.foldl (fun s b =>
      let keep := fun (l : Line) => !overlap (l.ia * 128) 128 b.1 b.2
      (clusterCores (clusterOf c)).foldl (fun s d =>
        let k := s.core d
        s.setCore d { k with l1 := if d = c ∨ s.fusedAt c then k.l1.filter keep else k.l1, late := k.late.filter keep }) s) s
    s.setMe { s.me with named := [] }

/-- WAITC (R98, R198, R328): it stalls until its counts hold; an unreported error of a covered command is then reported by the
trap of cause 0x0B, once. -/
def execWaitc (ld st cp : BitVec 4) (mx : BitVec 3) (rm : BitVec 4) (s : State) : Host.Outcome State Fault Refusal :=
  device .all s fun s =>
    if !s.waitcMet ld st cp mx rm then .error .stall
    else
      match firstErr s.me.errs with
      | none => .ok s.seeNamed.complete
      | some e =>
        if s.me.ldCount ≠ 0 then .error .stall
        else
        let t := s.setMe { s.me with errs := s.me.errs.filter fun f => f.stamp != e.stamp }
        .ok (t.raise t.cur.core t.cur.sq t.me.pc ⟨0x0B, 0, engineDetail e.done e.op.toNat e.stat⟩)

/-- The stores in flight that a sequencer can see: its own, those of its core at .core, those of its cluster at .clu (R84,
R86). -/
def State.seenStores (s : State) (c : CoreId) (q : SeqId) : List (CoreId × SeqId × PStore) :=
  (clusterCores (clusterOf c)).flatMap fun d =>
    allSeqs.flatMap fun r =>
      ((s.seq d r).stores.filter fun st =>
        (d == c && r == q) || st.moment == .clu || (d == c && st.moment == .core)).map fun st => (d, r, st)

/-- No store that the issuing sequencer can see is still short of its home: a release at .dev has nothing to wait for (R88). -/
def State.allHome (s : State) : Bool :=
  (s.seenStores s.cur.core s.cur.sq).isEmpty && s.me.atoms.isEmpty

/-- Every outstanding-operation counter of the issuing sequencer is zero (R41). -/
def State.idleCounts (s : State) : Bool := s.waitcMet 0 0 0 0 0

/-- NOTIFY (R41, R272): it waits for its counters, releases at .dev, and the sequencer executes nothing further. At supervisor
privilege it is illegal. -/
def execNotify (s : State) : Host.Outcome State Fault Refusal :=
  device .all s fun s =>
    if s.cur.sq == .C && s.c.sup then .error (s.wordTrap 0x01)
    else if !s.idleCounts || !s.allHome then .error .hold
    else
      let t := s.complete
      let t := t.setMe { t.me with done := true }
      .ok (if t.cur.sq == .C then t.setC { t.c with uevq := [] } else t)

/-- YIELD (R273): it only passes, but for C of a card with NPRE = 1 that the scheduler has chosen for pre-emption, which stops
there. -/
def execYield (s : State) : Host.Outcome State Fault Refusal :=
  device .all s fun s =>
    let held := match s.cardOn s.cur.core with
      | some k => CardImg.npre k.img && k.pre
      | none => false
    if s.cur.sq == .C && !s.c.sup && held then .ok (s.setC { s.c with yieldW := true })
    else
      let t := s.complete
      .ok (if t.cur.sq == .C && t.c.yieldW then t.setC { t.c with yieldW := false } else t)

end Sys2Proof.Machine
end

