-- ==== Sys2Proof/Machine/Float.lean ====
section
/-! DEFINITION. Floating point (R121 to R124): every result is computed exactly, or to far more bits than any format keeps
with a sticky bit for the rest, and rounded once. -/

namespace Sys2Proof.Machine

/-- A binary format: exponent and fraction bits (R121). -/
structure Fmt where
  eb : Nat
  fb : Nat
deriving DecidableEq, Repr

def fmtF32 : Fmt := ⟨8, 23⟩
def fmtF16 : Fmt := ⟨5, 10⟩
def fmtBf16 : Fmt := ⟨8, 7⟩

/-- Bits of a value. -/
def Fmt.width (f : Fmt) : Nat := 1 + f.eb + f.fb

def Fmt.bias (f : Fmt) : Nat := 2 ^ (f.eb - 1) - 1

/-- The exponent of the least bit of a subnormal. -/
def Fmt.qmin (f : Fmt) : Int := 1 - (f.bias : Int) - (f.fb : Int)

/-- The encoding of +∞; the sign is the bit above. -/
def Fmt.infBits (f : Fmt) : Nat := (2 ^ f.eb - 1) * 2 ^ f.fb

/-- The canonical quiet NaN (R121). -/
def Fmt.nanBits (f : Fmt) : Nat := f.infBits + 2 ^ (f.fb - 1)

/-- The sign bit. -/
def Fmt.signBit (f : Fmt) (neg : Bool) : Nat := if neg then 2 ^ (f.eb + f.fb) else 0

/-- A value of a format: a finite non-zero number is m × 2^e. -/
inductive FV where
  | nan (sig : Bool)
  | inf (neg : Bool)
  | zero (neg : Bool)
  | fin (neg : Bool) (m : Nat) (e : Int)
deriving DecidableEq, Repr

/-- The value of an encoding (R121). -/
def Fmt.decode (f : Fmt) (b : Nat) : FV :=
  let neg := b / 2 ^ (f.eb + f.fb) % 2 = 1
  let e := b / 2 ^ f.fb % 2 ^ f.eb
  let m := b % 2 ^ f.fb
  if e = 2 ^ f.eb - 1 then if m = 0 then .inf neg else .nan (m < 2 ^ (f.fb - 1))
  else if e = 0 then if m = 0 then .zero neg else .fin neg m f.qmin
  else .fin neg (m + 2 ^ f.fb) (f.qmin + (e : Int) - 1)

/-- A result: its encoding and the flags raised. -/
structure FRes where
  bits  : Nat
  flags : Flags
deriving DecidableEq, Repr

/-- Whether a magnitude is rounded up: `odd` is the kept low bit, `half` compares the rest with one half, `inex` says that
there is a rest. RM is 0 nearest even, 1 toward zero, 2 down, 3 up (R118). -/
def roundUp (rm : Nat) (neg odd : Bool) (half : Ordering) (inex : Bool) : Bool :=
  match rm with
  | 0 => half == .gt || (half == .eq && odd)
  | 1 => false
  | 2 => neg && inex
  | _ => !neg && inex

/-- A magnitude m × 2^e, with `st` for a non-zero rest below, cut at 2^q and rounded: the integer and whether it is inexact.
With `st`, e lies below q. -/
def cutAt (rm : Nat) (neg : Bool) (m : Nat) (e : Int) (st : Bool) (q : Int) : Nat × Bool :=
  if q ≤ e then (m * 2 ^ (e - q).toNat, st)
  else
    let sh := (q - e).toNat
    let r := m / 2 ^ sh
    let rest := m % 2 ^ sh
    let half : Ordering :=
      if rest < 2 ^ (sh - 1) then .lt else if rest = 2 ^ (sh - 1) ∧ !st then .eq else .gt
    let inex := rest != 0 || st
    (if roundUp rm neg (r % 2 == 1) half inex then r + 1 else r, inex)

/-- Overflow (R122): an infinity, or the largest finite value where the mode points away from it. -/
def Fmt.overflow (f : Fmt) (rm : Nat) (neg : Bool) : Nat :=
  let up := match rm with
    | 0 => true
    | 1 => false
    | 2 => neg
    | _ => !neg
  f.signBit neg + (if up then f.infBits else f.infBits - 1)

/-- Round a non-zero magnitude m × 2^e, with a sticky rest, to a format (R122, R123). Tininess is detected after
rounding. -/
def Fmt.round (f : Fmt) (rm : Nat) (neg : Bool) (m : Nat) (e : Int) (st : Bool) : FRes :=
  let top : Int := (Nat.log2 m : Int) + e
  let free := top - (f.fb : Int)
  let q := max free f.qmin
  let (r, inex) := cutAt rm neg m e st q
  let enc := (q - f.qmin).toNat * 2 ^ f.fb + r
  if f.infBits ≤ enc then ⟨f.overflow rm neg, { of := true, nx := true }⟩
  else
    let tiny := decide (top < f.qmin + (f.fb : Int)) &&
      !(decide (top + 1 = f.qmin + (f.fb : Int)) && decide ((cutAt rm neg m e st free).1 = 2 ^ (f.fb + 1)))
    ⟨f.signBit neg + enc, { nx := inex, uf := inex && tiny }⟩

/-- The canonical NaN, with NV when the operation is invalid (R123). -/
def Fmt.nan (f : Fmt) (nv : Bool) : FRes := ⟨f.nanBits, { nv := nv }⟩

def Fmt.inf (f : Fmt) (neg : Bool) : FRes := ⟨f.signBit neg + f.infBits, Flags.none⟩

def Fmt.zero (f : Fmt) (neg : Bool) : FRes := ⟨f.signBit neg, Flags.none⟩

/-- An operand is a signalling NaN. -/
def FV.sig : FV → Bool
  | .nan s => s
  | _ => false

def FV.isNan : FV → Bool
  | .nan _ => true
  | _ => false

def FV.neg? : FV → Bool
  | .nan _ => false
  | .inf n | .zero n | .fin n _ _ => n

/-- The value with the other sign. -/
def FV.flip : FV → FV
  | .nan s => .nan s
  | .inf n => .inf !n
  | .zero n => .zero !n
  | .fin n m e => .fin (!n) m e

/-- A finite value as an integer times 2^e; zero for the others. -/
def FV.at (v : FV) (e : Int) : Int :=
  match v with
  | .fin n m x => (if n then -1 else 1) * (m : Int) * 2 ^ (x - e).toNat
  | _ => 0

/-- The exponent of a finite value's least bit; 0 for zero. -/
def FV.low : FV → Int
  | .fin _ _ e => e
  | _ => 0

/-- An exact signed sum n × 2^e rounded; a zero sum takes the sign given (R122). -/
def Fmt.ofSum (f : Fmt) (rm : Nat) (n e : Int) (zneg : Bool) : FRes :=
  if n = 0 then f.zero zneg else f.round rm (n < 0) n.natAbs e false

/-- The sum of two values. -/
def Fmt.addV (f : Fmt) (rm : Nat) (a b : FV) : FRes :=
  match a, b with
  | .nan s, .nan t => f.nan (s || t)
  | .nan s, _ => f.nan s
  | _, .nan t => f.nan t
  | .inf m, .inf n => if m = n then f.inf m else f.nan true
  | .inf m, _ => f.inf m
  | _, .inf n => f.inf n
  | .zero m, .zero n => f.zero (if m = n then m else rm = 2)
  | x, y =>
    let e := min x.low y.low
    let e := match x, y with
      | .fin _ _ p, .zero _ => p
      | .zero _, .fin _ _ p => p
      | _, _ => e
    f.ofSum rm (x.at e + y.at e) e (rm = 2)

def Fmt.add (f : Fmt) (rm a b : Nat) : FRes := f.addV rm (f.decode a) (f.decode b)

def Fmt.sub (f : Fmt) (rm a b : Nat) : FRes := f.addV rm (f.decode a) (f.decode b).flip

/-- The exact product of two values; an invalid one is a signalling NaN. -/
def mulV (a b : FV) : FV :=
  match a, b with
  | .nan s, .nan t => .nan (s || t)
  | .nan s, _ => .nan s
  | _, .nan t => .nan t
  | .inf _, .zero _ => .nan true
  | .zero _, .inf _ => .nan true
  | .inf m, y => .inf (m != y.neg?)
  | x, .inf n => .inf (x.neg? != n)
  | .fin m p e, .fin n q g => .fin (m != n) (p * q) (e + g)
  | x, y => .zero (x.neg? != y.neg?)

/-- A value rounded to a format. -/
def Fmt.ofV (f : Fmt) (rm : Nat) (v : FV) : FRes :=
  match v with
  | .nan s => f.nan s
  | .inf n => f.inf n
  | .zero n => f.zero n
  | .fin n m e => f.round rm n m e false

def Fmt.mul (f : Fmt) (rm a b : Nat) : FRes := f.ofV rm (mulV (f.decode a) (f.decode b))

/-- a × b + c with one rounding (R122). -/
def Fmt.fma (f : Fmt) (rm a b c : Nat) : FRes := f.addV rm (mulV (f.decode a) (f.decode b)) (f.decode c)

/-- A quotient p/q × 2^e of positive numbers, rounded: the quotient is taken to at least 64 bits. -/
def Fmt.quot (f : Fmt) (rm : Nat) (neg : Bool) (p q : Nat) (e : Int) : FRes :=
  let k := 64 + Nat.log2 q + 1
  let n := p * 2 ^ k
  f.round rm neg (n / q) (e - (k : Int)) (n % q != 0)

/-- a / b (R122, R123). -/
def Fmt.div (f : Fmt) (rm a b : Nat) : FRes :=
  match f.decode a, f.decode b with
  | .nan s, .nan t => f.nan (s || t)
  | .nan s, _ => f.nan s
  | _, .nan t => f.nan t
  | .inf _, .inf _ => f.nan true
  | .zero _, .zero _ => f.nan true
  | .inf m, y => f.inf (m != y.neg?)
  | x, .inf n => f.zero (x.neg? != n)
  | .zero m, y => f.zero (m != y.neg?)
  | .fin m _ _, .zero n => { f.inf (m != n) with flags := { dz := true } }
  | .fin m p e, .fin n q g => f.quot rm (m != n) p q (e - g)

/-- The integer square root by Newton's iteration from above; the fuel bounds the iterations. -/
def isqrtFrom (n : Nat) : Nat → Nat → Nat
  | 0, x => x
  | fuel + 1, x =>
    let y := (x + n / x) / 2
    if y < x then isqrtFrom n fuel y else x

/-- ⌊√n⌋. -/
def isqrt (n : Nat) : Nat := if n = 0 then 0 else isqrtFrom n (Nat.log2 n + 2) (2 ^ (Nat.log2 n / 2 + 1))

/-- √a (R122, R123). -/
def Fmt.sqrt (f : Fmt) (rm a : Nat) : FRes :=
  match f.decode a with
  | .nan s => f.nan s
  | .zero n => f.zero n
  | .inf n => if n then f.nan true else f.inf false
  | .fin true _ _ => f.nan true
  | .fin false m e =>
    let odd := (e % 2).toNat
    let n := m * 2 ^ odd * 2 ^ 128
    let r := isqrt n
    f.round rm false r ((e - (odd : Int)) / 2 - 64) (r * r != n)

/-- 1 / a. -/
def Fmt.rcp (f : Fmt) (rm a : Nat) : FRes :=
  match f.decode a with
  | .nan s => f.nan s
  | .inf n => f.zero n
  | .zero n => { f.inf n with flags := { dz := true } }
  | .fin n m e => f.quot rm n 1 m (-e)

/-- 1 / √a; of −0 it is −∞, as IEEE 754's rSqrt. -/
def Fmt.rsq (f : Fmt) (rm a : Nat) : FRes :=
  match f.decode a with
  | .nan s => f.nan s
  | .inf n => if n then f.nan true else f.zero false
  | .zero n => { f.inf n with flags := { dz := true } }
  | .fin true _ _ => f.nan true
  | .fin false m e =>
    let odd := (e % 2).toNat
    let m := m * 2 ^ odd
    let r := isqrt (2 ^ 256 / m)
    f.round rm false r (-((e - (odd : Int)) / 2) - 128) (m * r * r != 2 ^ 256)

/-- The working precision of 2^x and log2: far below it no exact result of a format's value comes near a rounding
boundary without lying on it. -/
def workBits : Nat := 512

/-- 2^(0.b1 b2 …) scaled by 2^workBits, from below: `c` is the scaled root for the bit before. -/
def exp2Frac : List Bool → Nat → Nat → Nat
  | [], _, acc => acc
  | b :: bs, c, acc =>
    let c := isqrt (c * 2 ^ workBits)
    exp2Frac bs c (if b then acc * c / 2 ^ workBits else acc)

/-- The fraction bits of n / 2^k, most significant first. -/
def fracBits (n : Nat) : Nat → List Bool
  | 0 => []
  | k + 1 => (n / 2 ^ k % 2 == 1) :: fracBits n k

/-- 2^a (R122): exact for an integer, otherwise irrational. -/
def Fmt.exp2 (f : Fmt) (rm a : Nat) : FRes :=
  match f.decode a with
  | .nan s => f.nan s
  | .inf n => if n then f.zero false else f.inf false
  | .zero _ => ⟨f.bias * 2 ^ f.fb, Flags.none⟩
  | .fin neg m e =>
    if 20 < (Nat.log2 m : Int) + e then
      f.round rm false (2 ^ 64) (if neg then -100000 else 100000) true
    else
      let v : Int := if neg then -(m : Int) else m
      let d := 2 ^ (-e).toNat
      let v := v * 2 ^ e.toNat
      let k := v.fdiv d
      let r := (v - k * d).toNat
      if r = 0 then f.round rm false (2 ^ 64) (k - 64) false
      else f.round rm false (exp2Frac (fracBits r (-e).toNat) (2 ^ (workBits + 1)) (2 ^ workBits)) (k - (workBits : Int)) true

/-- The first `n` fraction bits of log2 y, for y in [1, 2) scaled by 2^workBits, as an integer, from below. -/
def log2Frac : Nat → Nat → Nat → Nat
  | 0, _, acc => acc
  | n + 1, y, acc =>
    let z := y * y / 2 ^ workBits
    if 2 ^ (workBits + 1) ≤ z then log2Frac n (z / 2) (2 * acc + 1) else log2Frac n z (2 * acc)

/-- log2 a (R122, R123): exact for a power of two, otherwise irrational. -/
def Fmt.log2 (f : Fmt) (rm a : Nat) : FRes :=
  match f.decode a with
  | .nan s => f.nan s
  | .zero _ => { f.inf true with flags := { dz := true } }
  | .inf n => if n then f.nan true else f.inf false
  | .fin true _ _ => f.nan true
  | .fin false m e =>
    let l := Nat.log2 m
    let k : Int := (l : Int) + e
    if m = 2 ^ l then
      if k = 0 then f.zero false else f.round rm (k < 0) (k.natAbs * 2 ^ 64) (-64) false
    else
      let fr := log2Frac 200 (m * 2 ^ workBits / 2 ^ l) 0
      let v : Int := k * 2 ^ 200 + (fr : Int)
      if 0 ≤ v then f.round rm false v.toNat (-200) true else f.round rm true ((-v).toNat - 1) (-200) true

/-! ### Comparison, least and greatest (R108) -/

/-- Order of two values that are no NaN, −0 and +0 equal. -/
def FV.compare (a b : FV) : Ordering :=
  match a, b with
  | .inf true, .inf true => .eq
  | .inf false, .inf false => .eq
  | .inf n, _ => if n then .lt else .gt
  | _, .inf n => if n then .gt else .lt
  | x, y =>
    let e := min x.low y.low
    Ord.compare (x.at e) (y.at e)

/-- Order with −0 below +0. -/
def FV.total (a b : FV) : Ordering :=
  match FV.compare a b with
  | .eq => if a.neg? == b.neg? then .eq else if a.neg? then .lt else .gt
  | o => o

/-- The greater, or with `least` the less, of two encodings under R108's NaN and signed-zero rule. -/
def Fmt.pick (f : Fmt) (least : Bool) (a b : Nat) : Nat :=
  let x := f.decode a
  let y := f.decode b
  if x.isNan then (if y.isNan then f.nanBits else b)
  else if y.isNan then a
  else if FV.total x y == (if least then .gt else .lt) then b else a

/-! ### Conversions (R124) -/

/-- An integer to a float. -/
def Fmt.ofInt (f : Fmt) (rm : Nat) (n : Int) : FRes := f.ofSum rm n 0 false

/-- Round m × 2^e to an integer magnitude, and whether it is inexact. -/
def roundInt (rm : Nat) (neg : Bool) (m : Nat) (e : Int) : Nat × Bool := cutAt rm neg m e false 0

/-- A float to an integer between two bounds (R124). -/
def Fmt.toInt (f : Fmt) (rm b : Nat) (lo hi : Int) : Int × Flags :=
  match f.decode b with
  | .nan _ => (0, { nv := true })
  | .inf n => (if n then lo else hi, { nv := true })
  | .zero _ => (0, Flags.none)
  | .fin n m e =>
    if 200 < (Nat.log2 m : Int) + e then (if n then lo else hi, { nv := true })
    else
      let (r, inex) := roundInt rm n m e
      let v : Int := if n then -(r : Int) else r
      if v < lo then (lo, { nv := true }) else if hi < v then (hi, { nv := true }) else (v, { nx := inex })

end Sys2Proof.Machine
end

