-- ==== Sys2Proof/Machine/Stepped.lean ====
section
/-! DEFINITION. Stepped regions and the step buffer: who is a participant (R101), the order key (R107), the room (R368) and
the buffering of a write (R105). The operations of atomics and reductions (R108, R168, R195). -/

namespace Sys2Proof.Machine

/-! ### The operations of atomics (R195) -/

/-- The bytes of an operation's operand. -/
def opBytes (w8 : Bool) : Nat := if w8 then 8 else 4

/-- The low bytes of a word, sign-extended. -/
def sext (w8 : Bool) (v : Word) : Word := if w8 then v else (v.setWidth 32).signExtend 64

/-- The low bytes of a word, zero-extended. -/
def zext (w8 : Bool) (v : Word) : Word := if w8 then v else (v.setWidth 32).setWidth 64

/-- Op of R195, on the low 4 or 8 bytes. -/
def atomApply (op : AtomOp) (w8 : Bool) (old b : Word) : Word :=
  zext w8 (match op with
    | .swp => b
    | .add => old + b
    | .and => old &&& b
    | .or => old ||| b
    | .xor => old ^^^ b
    | .min => if (sext w8 old).sle (sext w8 b) then old else b
    | .max => if (sext w8 old).sle (sext w8 b) then b else old
    | .minn => if (zext w8 old).ule (zext w8 b) then old else b
    | .maxn => if (zext w8 old).ule (zext w8 b) then b else old
    | .fadd => word (fmtF32.add 0 (zext false old).toNat (zext false b).toNat).bits
    | .fmax => word (fmtF32.pick false (zext false old).toNat (zext false b).toNat))

/-! ### Regions and participants -/

/-- The region that holds an IA, with its export id (R104). -/
def State.regionAt (s : State) (ia : Nat) : Option (Nat × Region) :=
  s.fab.regions.find? fun r => r.2.base ≤ ia && ia < r.2.base + r.2.bytes

/-- The group of which a core's sequencers are participant agents (R101). -/
def State.agentGroup (s : State) (c : CoreId) : Option (Fin 16) := (s.cardOn c).bind Card.groupOf

/-- The step that the accesses of a core of a group belong to now (R103): that of its C, and once C has notified, or stands at FLAGW, the
group's present one, in which its other sequencers remain (R101, R315), or the next one when this package has said that it is ready for
the present one's boundary (R110, R374). -/
def State.stepAt (s : State) (c : CoreId) (g : Fin 16) : Nat :=
  let k := s.core c
  let gr := s.fab.groups[g.val]
  if (k.seq .C).done || k.c.flgW then max k.c.stepNo (if gr.told then gr.step + 1 else gr.step) else k.c.stepNo

/-- The chain depth of a core's card (R51). -/
def State.depthOf (s : State) (c : CoreId) : Nat := ((s.cardOn c).map (·.depth)).getD 0

/-- Bytes of an element under a region's rule: ORDERED takes bytes (R108). -/
def Region.elem (r : Region) : Nat := if r.rule = 0 then 1 else if r.etype ≤ 2 then 4 else 8

/-- A run of bytes covers whole aligned elements. -/
def Region.whole (r : Region) (off n : Nat) : Bool := off % r.elem == 0 && n % r.elem == 0

/-! ### Keys and room -/

/-- The place of a sequencer's counter of buffered writes: per group and step (R107). -/
def seqnoKey (g : Fin 16) (step gid : Nat) : Nat := (g.val * 2 + step % 2) * 1024 + gid

/-- The next issue sequence number of a sequencer in a group and step. -/
def State.seqno (s : State) (g : Fin 16) (step gid : Nat) : Nat := sget 0 s.fab.seqnos (seqnoKey g step gid)

/-- Take `n` issue sequence numbers. -/
def State.takeSeqnos (s : State) (g : Fin 16) (step gid n : Nat) : State :=
  let k := seqnoKey g step gid
  { s with fab := { s.fab with seqnos := sset 0 s.fab.seqnos k (sget 0 s.fab.seqnos k + n) } }

/-- The order key of a write of this package (R107). -/
def State.okey (s : State) (gid sn : Nat) : OKey := ⟨s.fab.pkg, BitVec.ofNat 10 gid, BitVec.ofNat 40 sn⟩

/-- Bytes buffered in staging, or in the overflow. -/
def State.bufUsed (s : State) (staged : Bool) : Nat :=
  ((s.fab.sbuf.filter fun b => b.staged == staged).map fun b => b.data.length).sum

/-- Where a write of `n` bytes to a region finds room (R368): in staging, in the overflow, or nowhere. -/
def State.room (s : State) (r : Region) (n : Nat) : Option Bool :=
  let pt := s.part r.part
  if vget pt.charges 3 0 + n > vget pt.quotas 3 0 then none
  else if s.bufUsed true + n ≤ 32 * 2 ^ 20 then some true
  else if s.bufUsed false + n ≤ 4 * 2 ^ 30 then some false
  else none

/-- Buffer one write at this package, charging its region's partition (R105, R368). -/
def State.buffer (s : State) (exp : Nat) (r : Region) (step : Nat) (key : OKey) (off : Nat) (data : List Byte)
    (kind : WKind) (depth : Nat) (waits : List (CoreId × RelWait) := []) : Option State :=
  match s.room r data.length with
  | none => none
  | some st =>
    let pt := s.part r.part
    let s := s.setPart r.part { pt with charges := vset pt.charges 3 (vget pt.charges 3 0 + data.length) }
    some { s with fab := { s.fab with
      sbuf := s.fab.sbuf ++ [⟨exp, r.group, step, key, off, data, kind, st, depth, waits⟩] } }

/-- A region takes no write of a step: its revocation takes effect before it (R113). -/
def Region.closed (r : Region) (step : Nat) : Bool :=
  match r.untilStep with
  | some u => decide (u < step)
  | none => false

end Sys2Proof.Machine
end

