-- ==== Sys2Proof/Machine/Access.lean ====
section
/-! DEFINITION. Scalar, vector and atomic accesses: translation and its traps (R58, R66, R286, R333), confirmation at the home
(R324, R364, R370), what a load returns (R85, R86, R92), the issue and performance of stores (R84, R85, R88), the caches (R67,
R68, R92) and the atomics (R90, R195). -/

namespace Sys2Proof.Machine

/-! ### Requests and their translation -/

/-- One access of an instruction: its lane (0 but for VGATH and VSCAT), its address and its bytes. -/
structure Req where
  lane : Nat
  va   : Nat
  n    : Nat
deriving DecidableEq, Repr

/-- The kinds of access. -/
inductive AKind where
  | load | store | atom
deriving DecidableEq, Repr

def AKind.wr (k : AKind) : Bool := k != .load

def AKind.perm (k : AKind) : Perm := if k.wr then .wr else .rd

/-- The trap of an access (R321, R322). -/
def State.accTrap (s : State) (k : AKind) (lm : Bool) (cause addr lane : Nat) : Trap :=
  ⟨cause, word addr, accessDetail s.opcode lane false lm k.wr (k == .atom)⟩

/-- The place of a global access, or its cause (R58, R60, R66, R286). -/
def State.reach (s : State) (k : AKind) (va n : Nat) : Except Nat Place :=
  match translate s.here.partNo s.me.rng va n k.perm with
  | .error e => .error e
  | .ok t =>
    match iaTier t.ia with
    | 5 =>
      match windowOf s.cur.core t.ia with
      | none => .error 0x07
      | some (c, o) =>
        if 2 ^ 21 < o + n then
          if s.windowRange s.cur.core t.ia n then .ok (.lm c o) else .error 0x07
        else if (s.core c).card = s.here.card && overlap o n (s.poolOf c).lo (s.poolOf c).len then .error 0x07
        else .ok (.lm c o)
    | 6 => if k = .atom then .error 0x07 else if n ≠ 8 then .error 0x05 else .ok (.system (iaOff t.ia))
    | 7 => .error 0x07
    | _ => .ok (.home t.ia t.cache)

/-- The place of a local access, or its cause (R32, R65). -/
def State.reachLm (s : State) (off n : Nat) : Except Nat Place :=
  match s.checkLocal s.cur.core off n with
  | .error e => .error e
  | .ok () => .ok (.lm s.cur.core off)

/-- The first request that fails with one of some causes. -/
def firstFail (rs : List (Req × Except Nat Place)) (causes : List Nat) : Option (Req × Nat) :=
  rs.findSome? fun r =>
    match r.2 with
    | .error e => if causes.contains e then some (r.1, e) else none
    | .ok _ => none

/-- The places of the requests, or the trap of the first check that one of them fails: alignment, then misses, then
permissions (R333). -/
def State.places (s : State) (k : AKind) (lm : Bool) (align : Nat) (reqs : List Req) :
    Except Stop (List (Req × Place)) :=
  match reqs.find? fun r => r.va % align != 0 with
  | some r => .error (.trap (s.accTrap k lm 0x05 r.va r.lane))
  | none =>
    let rs := reqs.map fun r => (r, if lm then s.reachLm r.va r.n else s.reach k r.va r.n)
    match (firstFail rs [0x06]).or ((firstFail rs [0x05]).or (firstFail rs [0x07])) with
    | some (r, e) => .error (.trap (s.accTrap k lm e r.va r.lane))
    | none => .ok (rs.filterMap fun r => match r.2 with | .ok p => some (r.1, p) | .error _ => none)

/-! ### L1 -/

/-- The core whose L1 holds a line for a core: its own, or the cluster's slice (R67, R68). -/
def State.l1Home (s : State) (c : CoreId) (ia : Nat) : CoreId :=
  if s.fusedAt c then (clusterCores (clusterOf c)).getD (nbits ia 9 7) c else c

/-- A line of the L1 that serves a core. -/
def State.l1Line (s : State) (c : CoreId) (ia : Nat) : Option Line :=
  (s.core (s.l1Home c ia)).l1.find? fun l => l.ia = ia / 128

/-- Remove the line of an IA from the L1 that serves a core (R67). -/
def State.l1Drop (s : State) (c : CoreId) (ia : Nat) : State :=
  let h := s.l1Home c ia
  let k := s.core h
  s.setCore h { k with l1 := k.l1.filter fun l => l.ia != ia / 128 }

/-- Place a line in the L1 that serves a core; its 256 KiB hold 2,048 lines, and the one placed first makes room (R19, R67). -/
def State.l1Put (s : State) (c : CoreId) (l : Line) : State :=
  let s := s.l1Drop c (l.ia * 128)
  let h := s.l1Home c (l.ia * 128)
  let k := s.core h
  s.setCore h { k with l1 := l :: k.l1.take 2047 }

/-- Empty a core's L1. -/
def State.l1Empty (s : State) (c : CoreId) : State := s.setCore c { s.core c with l1 := [] }

/-- Invalidate the L1 of a core, or all slices of its cluster for a fused card (R92, R197). -/
def State.l1Invalidate (s : State) (c : CoreId) : State :=
  if s.fusedAt c then (clusterCores (clusterOf c)).foldl State.l1Empty s else s.l1Empty c

/-! ### Lines under way (R86)

A load may return a value older than the latest at its home, read before a write of another cluster arrived (R86). A line that the
agenda reads ahead stands in `late` until a load of the core takes it. What a sequencer of the cluster has written or read since,
and what an acquire obliges it to see, is never older than a line that stands. -/

/-- Some core of the cluster has a line under way. -/
def State.lateIn (s : State) (c : CoreId) : Bool := (clusterCores (clusterOf c)).any fun d => !(s.core d).late.isEmpty

/-- Drop the lines under way of the cluster of a core, those of an IA or all. -/
def State.lateDrop (s : State) (c : CoreId) (ia : Option Nat) : State :=
  if s.lateIn c then
    (clusterCores (clusterOf c)).foldl (fun s d =>
      let k := s.core d
      s.setCore d { k with late := k.late.filter fun l => ia.any fun a => l.ia != a / 128 }) s
  else s

/-- What an acquire does to the caches (R92). -/
def State.acquire (s : State) (c : CoreId) (sc : Scope) : State :=
  match sc with
  | .core => s
  | .clu => if s.fusedAt c then s else s.l1Empty c
  | _ => (s.l1Invalidate c).lateDrop c none

/-! ### What a load returns -/

/-- A store covers a byte. -/
def PStore.covers (st : PStore) (a : Nat) : Bool := decide (st.ia ≤ a) && decide (a < st.ia + st.bytes.length)

/-- The store's byte. -/
def PStore.byte (st : PStore) (a : Nat) : Byte := st.bytes.getD (a - st.ia) 0

/-- A store shares a byte with a run of bytes. -/
def PStore.meets (st : PStore) (a n : Nat) : Bool := overlap st.ia st.bytes.length a n

/-- The last store by a measure. -/
def lastBy (f : PStore → Nat) : List PStore → Option PStore
  | [] => none
  | x :: t =>
    match lastBy f t with
    | none => some x
    | some y => if f x > f y then some x else some y

/-- The byte that the stores of a list performed at .clu leave over a base: the last in their order (R84, R86). -/
def raisedByte (seen : List PStore) (a : Nat) (base : Byte) : Byte :=
  match lastBy (·.raised) (seen.filter fun st => st.moment == .clu && st.covers a) with
  | some st => st.byte a
  | none => base

/-- Map a function of the address over bytes. -/
def overBytes (f : Nat → Byte → Byte) (a : Nat) : List Byte → List Byte
  | [] => []
  | b :: bs => f a b :: overBytes f (a + 1) bs

/-- Granules taken ahead, over bytes read now (R83). -/
def overGranules (gs : List (Nat × List Byte)) (ia : Nat) (bs : List Byte) : List Byte :=
  if gs.isEmpty then bs
  else overBytes (fun a b => ((gs.find? fun g => g.1 == a / 8 * 8).bind fun g => g.2[a % 8]?).getD b) ia bs

/-- The stores in flight that a load of a cluster returns: those performed at .clu that share a byte with it (R86). -/
def State.overlay (s : State) (c : CoreId) (ia n : Nat) : List PStore :=
  (clusterCores (clusterOf c)).flatMap fun d => allSeqs.flatMap fun r =>
    (s.seq d r).stores.filter fun st => st.moment == .clu && st.meets ia n

/-- A place shares a byte with a run at another. -/
def Place.meets (p : Place) (n : Nat) (q : Place) (m : Nat) : Bool :=
  match p, q with
  | .home a _, .home b _ => overlap a n b m
  | .lm c a, .lm d b => c == d && overlap a n b m
  | _, _ => false

/-- The IA of a place that stores may share. -/
def Place.ia? : Place → Option Nat
  | .home ia _ => some ia
  | .lm d o => some (lmIa d o)
  | .system _ => none

/-- An atomic of a sequencer issued before a stamp shares a byte with a place. -/
def Seq.atomBefore (x : Seq) (stamp : Nat) (p : Place) (n : Nat) : Bool :=
  x.atoms.any fun a => decide (a.stamp < stamp) && a.place.meets (if a.w8 then 8 else 4) p n

/-- A load cannot be performed yet: an earlier store of its sequencer to its bytes has not been performed at .clu or in local memory,
an earlier atomic to them not at all (R85 point 3, R86 point 1), or a store of its core to them has been performed at .core alone,
so that an acquire at .core may oblige the load to return it (R87; log 22). -/
def State.loadHeld (s : State) (c : CoreId) (q : SeqId) (stamp : Nat) (p : Place) (n : Nat) : Bool :=
  (s.seq c q).atomBefore stamp p n ||
    match p.ia? with
    | none => false
    | some ia => allSeqs.any fun r => (s.seq c r).stores.any fun st => st.meets ia n && st.moment != .clu &&
        (if r == q then decide (st.stamp < stamp) else st.moment == .core)

/-- A line may be filled: the homes that serve it are up, every byte is confirmed, and no word of it is in error. -/
def State.lineOk (s : State) (ia : Nat) : Bool :=
  let a := ia / 128 * 128
  (s.hm.out == 0 || !(upTo 128).any fun i => s.homeDown (a + i)) &&
    (s.sound || !(upTo 128).any fun i => (s.badAt (s.arrayIa (a + i))).isSome || (s.undecodable (a + i)).isSome) &&
    (match s.confirmAll false a 128 with | .ok () => true | .error _ => false)

/-- The line of an IA that is under way to the core whose L1 serves a core. -/
def State.lateLine (s : State) (c : CoreId) (ia : Nat) : Option Line :=
  (s.core (s.l1Home c ia)).late.find? fun l => l.ia = ia / 128

/-- A line is read at its homes for a core ahead of its loads (R86). -/
def State.readAhead (s : State) (c : CoreId) (ia : Nat) : State :=
  if s.isStepped ia || !s.lineOk ia then s
  else
    let h := s.l1Home c ia
    let k := s.core h
    s.setCore h { k with late := ⟨ia / 128, s.homeBytes (ia / 128 * 128) 128⟩ :: k.late.filter fun l => l.ia != ia / 128 }

/-- Bytes of a held line. -/
def Line.slice (l : Line) (ia n : Nat) : List Byte := (l.bytes.drop (ia - l.ia * 128)).take n

/-- A held line with bytes replaced. -/
def Line.patch (l : Line) (ia : Nat) (bs : List Byte) : Line :=
  let o := ia - l.ia * 128
  { l with bytes := l.bytes.take o ++ bs ++ l.bytes.drop (o + bs.length) }

/-- Bytes within a line that reach a core from their homes: those of the line under way, if there is one, else the homes' own (R86).
Lines under way to other cores of the cluster are dropped. -/
def State.arriving (s : State) (c : CoreId) (ia n : Nat) : List Byte × State :=
  match s.lateLine c ia with
  | some l => (l.slice ia n, s.lateDrop c (some ia))
  | none => (s.homeBytes ia n, s.lateDrop c (some ia))

/-- Fill the line of an IA, when it may be filled and is not held (R67). -/
def State.l1Fill (s : State) (c : CoreId) (ia : Nat) : State :=
  if (s.l1Line c ia).isSome || !s.lineOk ia then s
  else
    let (bs, s) := s.arriving c (ia / 128 * 128) 128
    s.l1Put c ⟨ia / 128, bs⟩

/-- What a plain load returns at this moment (R86, R92), and the caches after it: from L1 under CACHE = 0, which it fills, else from
home, with the stores performed at .clu over it. A held line takes what the load returns, so that no later load returns an older
value; the single copy of a fused L1 is updated by the stores themselves. -/
def State.cachedRead (s : State) (c : CoreId) (ia n cache : Nat) : List Byte × State :=
  let s := if cache = 0 then s.l1Fill c ia else s
  let (base, s) := match (if cache = 0 then s.l1Line c ia else none) with
    | some l => (l.slice ia n, s)
    | none => s.arriving c ia n
  let shared := overBytes (raisedByte (s.overlay c ia n)) ia base
  match s.l1Line c ia with
  | some l => (shared, if shared = l.slice ia n then s else s.l1Put c (l.patch ia shared))
  | none => (shared, s)

/-- A read of tier 6 (R286, R401). -/
def State.systemRead (s : State) (c : CoreId) (off : Nat) : Word :=
  let p := (s.core c).partNo
  if off = 0 then s.fab.pkg.setWidth 64
  else if off = 8 then word p.val
  else if off = 0x10 then (s.part p).clusters.setWidth 64
  else if off = 0x18 then s.fab.inc.setWidth 64
  else if 0x100 ≤ off ∧ off < 0x180 ∧ off % 8 = 0 then
    let g := vget s.fab.groups ((off - 0x100) / 8) Group.absent
    if g.joined then word g.step else BitVec.allOnes 64
  else if 0x10000 ≤ off ∧ off < 0x20000 ∧ off % 8 = 0 then (sget 0 s.hm.counts off).setWidth 64
  else 0

/-- What a load of a place returns at this moment, and the caches after it. A stepped page reads as its last boundary left it
(R106). -/
def State.readPlace (s : State) (c : CoreId) (p : Place) (n : Nat) : List Byte × State :=
  match p with
  | .lm d o => (lmRead s d o n, s)
  | .system o => (leBytes 8 (s.systemRead c o).toNat, s)
  | .home ia cache => if s.isStepped ia then (s.homeBytes ia n, s) else s.cachedRead c ia n cache

/-- A word of bytes, zero- or sign-extended (R192). -/
def loadWord (sgn : Bool) (bs : List Byte) : Word := extVal' sgn (word (leNat bs)) (8 * bs.length)
where
  /-- The low `n` bits extended. -/
  extVal' (sgn : Bool) (a : Word) (n : Nat) : Word :=
    if sgn then (a <<< (64 - n)).sshiftRight (64 - n) else a

/-- The values of the parts of a load, performed in order. -/
def State.readParts (s : State) (c : CoreId) : List LoadPart → List Word × State
  | [] => ([], s)
  | p :: t =>
    let (bs, s) := s.readPlace c p.place p.n
    let (ws, s) := State.readParts s c t
    (loadWord p.sgn bs :: ws, s)

/-- A part of a load cannot be performed yet: it is held, or its home is out of service. -/
def State.partHeld (s : State) (c : CoreId) (q : SeqId) (stamp : Nat) (p : LoadPart) : Bool :=
  s.loadHeld c q stamp p.place p.n || match p.place with | .home ia _ => s.homeDown ia | _ => false

/-! ### Confirmation at the home -/

/-- What an access meets in the arrays; an uncorrectable error refuses it on the state before the instruction (R359, R360). -/
def State.meetFor (s0 s : State) (m : State → Except (State × Nat) State) (t : Trap) : Except Stop State :=
  match m s with
  | .ok u => .ok u
  | .error _ =>
    match m s0 with
    | .error (u, _) => .error (.after u t)
    | .ok _ => .error (.trap t)

/-- The home's answer to one load of a place (R324, R360, R370): a held line asks no home. -/
def State.askLoad (s0 s : State) (r : Req) (p : Place) : Except Stop State :=
  match p with
  | .home ia cache =>
    let c := s.cur.core
    if cache = 0 && (s.l1Line c ia).isSome && !s.isStepped ia then .ok s
    else if s.homeDown ia then .error .hold
    else
      match s.confirmAll false ia r.n with
      | .error (e, a) => .error (.trap (s.accTrap .load false e.cause a r.lane))
      | .ok () =>
        if s.isStepped ia && !(s.agentGroup c).any (fun g => s.groupAt ia == some g) then
          .error (.trap ⟨0x18, word r.va, s.cur.word⟩)
        else
          let t := s.accTrap .load false 0x19 ia r.lane
          if s.isStepped ia || cache ≠ 0 then s0.meetFor s (·.meet ia r.n) t
          else s0.meetFor s (·.meet (ia / 128 * 128) 128) t
  | _ => .ok s

/-- A refusal of a write by permission that an uncoded frame beyond the quota causes is counted (R366, R369). -/
def State.refusedWrite (s : State) (ia : Nat) : State :=
  match lookup s.hm.ptes ia with
  | some h =>
    if !pteBad h.pte && pteW h.pte && !pteRaw h.pte && !ptePsn h.pte && (s.uncodeEach (s.firstWrites ia)).isNone then
      s.countHome .quotaFail h.home
    else s
  | none => s

/-- The home's answer to one write of a place (R324, R360, R364, R370): a stepped page takes whole elements of participants; a coded
page is decoded, and charged, before its first write is performed (R80, R366). -/
def State.askStore (s0 s : State) (k : AKind) (stepOk : Bool) (r : Req) (p : Place) : Except Stop State :=
  match p with
  | .home ia _ =>
    if s.homeDown ia then .error .hold
    else if s.isStepped ia then
      if !stepOk then .error (.trap (s.accTrap k false 0x09 ia r.lane))
      else if !(s.agentGroup s.cur.core).any (fun g => s.groupAt ia == some g) then
        .error (.trap ⟨0x18, word r.va, s.cur.word⟩)
      else
        match s.regionAt ia with
        | none => .error (.trap (s.accTrap k false 0x08 ia r.lane))
        | some (_, rg) =>
          match s.confirm ia true with
          | .error e => .error (.trap (s.accTrap k false e.cause ia r.lane))
          | .ok _ =>
          if k = .store && !rg.whole (ia - rg.base) r.n then .error (.trap (s.accTrap k false 0x05 r.va r.lane))
          else if rg.closed (s.stepAt s.cur.core rg.group) then .error .hold
          else .ok s
    else
      match s.confirmAll true ia r.n with
      | .error (e, a) =>
        let t := s.accTrap k false e.cause a r.lane
        .error (if e = .perm then .after (s0.refusedWrite a) t else .trap t)
      | .ok () =>
        match s0.meetFor s (·.meetWrite ia r.n) (s.accTrap k false 0x19 ia r.lane) with
        | .error e => .error e
        | .ok s => .ok (s.uncodeRun ia r.n)
  | _ => .ok s

/-! ### Issue of loads -/

/-- Nothing of a sequencer's loads and atomics is under way. -/
def Seq.quiet (q : Seq) : Bool := q.loads.isEmpty && q.atoms.isEmpty

/-- An acquire that has not been performed: no later load, store or atomic is performed before it (R87). -/
def PAtom.acquires (a : PAtom) : Bool := match a.order with | .acq | .acqrel => true | _ => false

/-- The class LD has room (R33), and no acquire of the sequencer is under way. -/
def Seq.ldRoom (q : Seq) : Bool := decide (q.ldCount < 14) && !(q.atoms.any PAtom.acquires)

/-- The class ST has room (R33), and no acquire of the sequencer is under way. -/
def Seq.stRoom (q : Seq) : Bool := decide (q.stCount < 14) && !(q.atoms.any PAtom.acquires)

/-- Ask the home of each access of a load. -/
def State.askLoads (s0 s : State) : List (Req × Place) → Except Stop State
  | [] => .ok s
  | (r, p) :: t =>
    match s0.askLoad s r p with
    | .error e => .error e
    | .ok s => State.askLoads s0 s t

/-- Ask the home of each access of a store. -/
def State.askStores (s0 s : State) (k : AKind) (stepOk : Bool) : List (Req × Place) → Except Stop State
  | [] => .ok s
  | (r, p) :: t =>
    match s0.askStore s k stepOk r p with
    | .error e => .error e
    | .ok s => State.askStores s0 s k stepOk t

/-- Count an outstanding load of the issuing sequencer. -/
def State.addLoad (s : State) (parts : List LoadPart) (vals : Option (List Word)) : State :=
  let s := s.setMe { s.me with loads := s.me.loads ++ [⟨s.stamp, parts, vals⟩] }
  s.tick

/-- Issue a load: to general registers it stays outstanding, to a queue it is performed at once and pushed. -/
def State.issueLoad (s0 s : State) (lm : Bool) (align : Nat) (reqs : List Req) (d : SReg) (regs : List (Fin 32)) (sgn : Bool) :
    Except Stop State := do
  let ps ← s.places .load lm align reqs
  if !s.me.ldRoom then .error .hold
  let s ← s0.askLoads s ps
  let parts := (ps.zip regs).map fun x => LoadPart.mk x.2 x.1.2 x.1.1.n sgn
  match d with
  | .g _ => .ok (s.addLoad parts none)
  | .q n =>
    if !s.me.quiet || parts.any (s.partHeld s.cur.core s.cur.sq s.stamp) then .error .hold
    else
      let (vs, s) := s.readParts s.cur.core parts
      s.push n (vs.headD 0)

/-- The oldest load of a sequencer is performed, if it is not yet, and its registers are written (R33, R192, R194). LDM's base
register lies among them and is written with the rest. -/
def State.completeLoad (s : State) (c : CoreId) (q : SeqId) : State :=
  match (s.seq c q).loads with
  | [] => s
  | l :: rest =>
    let todo := l.parts.drop (s.seq c q).early.length
    if l.vals.isNone && todo.any (s.partHeld c q l.stamp) then s
    else
      let (vs, s) := match l.vals with
        | some vs => (vs, s)
        | none =>
          let (ws, t) := s.readParts c todo
          ((s.seq c q).early ++ ws, t)
      let x := s.seq c q
      (s.setSeq c q { x.wrs ((l.parts.zip vs).map fun p => (p.1.dest, p.2)) with loads := rest, early := [] }).settleFound

/-- The next part of the oldest load of a sequencer is performed before the rest: an LDM is no single access (R83, R194). -/
def State.performPart (s : State) (c : CoreId) (q : SeqId) : State :=
  let x := s.seq c q
  match x.loads with
  | [] => s
  | l :: _ =>
    match l.parts.drop x.early.length with
    | p :: _ :: _ =>
      if l.vals.isSome || s.partHeld c q l.stamp p then s
      else
        let (ws, s) := s.readParts c [p]
        let x := s.seq c q
        s.setSeq c q { x with early := x.early ++ ws }
    | _ => s

/-! ### Stores -/

/-- A wait is met: the write it names has been performed at the scope (R88). -/
def State.waitMet (s : State) (c : CoreId) (w : RelWait) : Bool :=
  !((clusterCores (clusterOf c)).any fun d => allSeqs.any fun q =>
    ((s.seq d q).stores.any fun st => st.stamp == w.stamp && (match w.scope, st.moment with
      | .core, m => m == .issued
      | .clu, m => m != .clu
      | _, _ => true)) || (s.seq d q).atoms.any fun a => a.stamp == w.stamp)

/-- The waits of a release at a scope: the stores that its sequencer sees and its own atomics (R88). -/
def State.covered (s : State) (c : CoreId) (q : SeqId) (sc : Scope) : List RelWait :=
  ((s.seenStores c q).map fun x => ⟨x.2.2.stamp, sc⟩) ++ (s.seq c q).atoms.map fun a => ⟨a.stamp, sc⟩

/-- Every store that a sequencer sees has been performed at a scope. -/
def State.coveredAt (s : State) (c : CoreId) (q : SeqId) (sc : Scope) : Bool :=
  (s.covered c q sc).all (s.waitMet c)

/-- Enter a store into its sequencer's order (R85). -/
def State.enterStore (s : State) (ia : Nat) (bs : List Byte) (cache : Nat) (counts : Bool) (waits : List RelWait) : State :=
  let c := s.cur.core
  let s := if cache = 0 then s else s.l1Drop c ia
  let st : PStore := ⟨s.stamp, ia, bs, .issued, 0, waits ++ s.me.relWaits, s.depthOf c, cache == 0, counts⟩
  (s.setMe { s.me with stores := s.me.stores ++ [st] }).tick

/-- The home of an IA, for the counter of a refused charge. -/
def homeAt (ia : Nat) : Fin 17 := (homeOf ia).getD 16

/-- Buffer a stepped write of a participant agent at this package (R105, R107), behind what its release and those before it order before
it (R88); without room the whole instruction is refused, and `at0` is the address that its trap reports (R368). -/
def State.bufferMine (s0 s : State) (k : AKind) (lane at0 ia : Nat) (bs : List Byte) (kind : WKind) (waits : List RelWait) :
    Except Stop State :=
  match s.regionAt ia with
  | none => .error (.trap (s.accTrap k false 0x08 ia lane))
  | some (e, r) =>
    let gid := globalId s.cur.core s.cur.sq
    let step := s.stepAt s.cur.core r.group
    let key := s.okey gid (s.seqno r.group step gid)
    match s.buffer e r step key (ia - r.base) bs kind (s.depthOf s.cur.core) ((waits ++ s.me.relWaits).map fun w => (s.cur.core, w)) with
    | some s => .ok (s.takeSeqnos r.group step gid 1)
    | none => .error (.after (s0.countHome .quotaFail (homeAt ia)) (s.accTrap k false 0x0C (granule at0) lane))

/-- Perform or enter the writes of a store instruction, in order; `counts` holds of the request whose write counts in ST, `at0` is the
first IA of an instruction that is refused as one (R368). -/
def State.putStores (s0 s : State) (waits : List RelWait) (counts : Req → Bool) (at0 : Option Nat) :
    List ((Req × Place) × List Byte) → Except Stop State
  | [] => .ok s
  | ((r, p), bs) :: t =>
    match p with
    | .system _ => State.putStores s0 s waits counts at0 t
    | .lm d o => State.putStores s0 (s.enterStore (lmIa d o) bs 0 (counts r) waits) waits counts at0 t
    | .home ia cache =>
      if s.isStepped ia then
        match s0.bufferMine s .store r.lane (at0.getD ia) ia bs .plain waits with
        | .error e => .error e
        | .ok s => State.putStores s0 s waits counts at0 t
      else State.putStores s0 (s.enterStore ia bs cache (counts r) waits) waits counts at0 t

/-- A place whose writes are outstanding stores: a plain location with a home, or local memory. -/
def State.plain (s : State) (p : Place) : Bool :=
  match p with
  | .home ia _ => !s.isStepped ia
  | .lm .. => true
  | .system _ => false

/-- The last request of a list whose write is outstanding: it counts in ST for the whole instruction (R194). -/
def State.lastPlain (s : State) (ps : List (Req × Place)) : Option Req :=
  ((ps.filter fun x => s.plain x.2).getLast?).map (·.1)

/-- Issue a store of words or lanes: all checks first, then the writes. Every home is asked before any lane is stored, so a home fault
leaves none stored, which is one of the outcomes of R220 (log 57). -/
def State.issueStore (s0 s : State) (lm : Bool) (align : Nat) (reqs : List (Req × List Byte)) (waits : List RelWait)
    (counted : Bool) : Except Stop State := do
  let ps ← s.places .store lm align (reqs.map (·.1))
  if counted && !s.me.stRoom || s.me.atoms.any PAtom.acquires then .error .hold
  let s ← s0.askStores s .store true ps
  let at0 := if counted then (ps.head?.bind fun p => p.2.ia?) else none
  s0.putStores s waits (fun r => counted && s.lastPlain ps == some r) at0 (ps.zip (reqs.map (·.2)))

/-- A store may be performed: what its release waits for has been performed at its scope, and no earlier atomic of its sequencer to its
bytes is under way (R85, R88, R90). A store and an earlier load of one sequencer are performed in either order (R85). -/
def State.storeReady (s : State) (c : CoreId) (q : SeqId) (st : PStore) : Bool :=
  st.waits.all (s.waitMet c) && !((s.seq c q).atoms.any fun a =>
    decide (a.stamp < st.stamp) && (a.place.ia?.any fun ia => st.meets ia (opBytes a.w8)))

/-- Raise one store of a sequencer's list in program order (R84, R85): the oldest one short of .clu from .core to .clu, or the
oldest issued one to .core. A store to local memory has no such moment: it is performed at all scopes at once. -/
def raiseFirst (ready : PStore → Bool) (clu : Bool) (stamp : Nat) : List PStore → List PStore
  | [] => []
  | st :: t =>
    match st.moment, clu with
    | .clu, _ => st :: raiseFirst ready clu stamp t
    | .core, true => { st with moment := .clu } :: t
    | .core, false => st :: raiseFirst ready clu stamp t
    | .issued, true => st :: t
    | .issued, false =>
      if ready st && iaTier st.ia != 5 then { st with moment := .core, raised := stamp } :: t else st :: t

/-- A store of a sequencer reaches its next moment. At .clu, the lines under way in the cluster are older than it. -/
def State.raiseStore (s : State) (c : CoreId) (q : SeqId) (clu : Bool) : State :=
  let x := s.seq c q
  let s := (s.setSeq c q { x with stores := raiseFirst (s.storeReady c q) clu s.stamp x.stores }).tick
  if clu then s.lateDrop c none else s

/-- No store of the cluster that is performed at .core or .clu and not at its home, other than those of the same sequencer,
must be performed at its home before a store (R84). -/
def State.storeFirst (s : State) (c : CoreId) (q : SeqId) (st : PStore) : Bool :=
  !((clusterCores (clusterOf c)).any fun d => allSeqs.any fun r => !(d == c && r == q) && (s.seq d r).stores.any fun t =>
    t.moment != .issued && t.meets st.ia st.bytes.length && (st.moment == .issued || decide (t.raised < st.raised)))

/-- A write at its home updates the line that the storing core's L1 holds (R67), and a store under CACHE = 1 or 2 removes it
(R92). -/
def State.l1Update (s : State) (c : CoreId) (st : PStore) : State :=
  if !st.cached then s.l1Drop c st.ia
  else
    match s.l1Line c st.ia with
    | none => s
    | some l =>
      let seen := s.overlay c st.ia st.bytes.length
      s.l1Put c (l.patch st.ia (overBytes (raisedByte (seen.filter fun t => decide (st.raised ≤ t.raised))) st.ia st.bytes))

/-- The oldest store of a sequencer is performed at its home or in local memory (R84). Where its page is gone with its stack nothing is
written (R356). -/
def State.performStore (s : State) (c : CoreId) (q : SeqId) : State :=
  match (s.seq c q).stores with
  | [] => s
  | st :: rest =>
    if !s.storeReady c q st || !s.storeFirst c q st || s.homeDown st.ia then s
    else
      let s := s.setSeq c q { s.seq c q with stores := rest }
      if iaTier st.ia = 5 then s.performAt st.ia st.bytes st.depth
      else
      match s.confirm st.ia true with
      | .error _ => s.settleFound
      | .ok _ => (((s.land st.ia st.bytes st.depth).l1Update c st).lateDrop c (some st.ia)).settleFound

/-! ### Atomics -/

/-- The result of an atomic: what it writes, if it writes (R195). -/
def AtomKind.write (k : AtomKind) (w8 : Bool) (old : Word) : Option Word :=
  match k with
  | .amo op b => some (atomApply op w8 old b)
  | .red op b => some (atomApply op w8 old b)
  | .cas new e => if old = zext w8 e then some (zext w8 new) else none

/-- An issued atomic counts in ST and returns nothing: a RED. -/
def AtomKind.isRed : AtomKind → Bool
  | .red .. => true
  | _ => false

/-- An atomic is a release (R88). -/
def PAtom.releases (a : PAtom) : Bool := match a.order with | .rel | .acqrel => true | _ => false

/-- An atomic may be performed: its release's waits are met and its sequencer's earlier loads performed, no earlier atomic of its
sequencer shares its location, and no store of the cluster that shares a byte with it is performed short of its home, nor any
earlier one of its own sequencer is under way (R85, R88, R90). A relaxed atomic waits for nothing else. -/
def State.atomReady (s : State) (c : CoreId) (q : SeqId) (a : PAtom) : Bool :=
  let x := s.seq c q
  a.waits.all (s.waitMet c) && (!a.releases || x.loads.all fun l => l.vals.isSome || decide (a.stamp < l.stamp))
    && !x.atomBefore a.stamp a.place (opBytes a.w8) &&
    match a.place with
    | .home ia _ =>
      !s.homeDown ia && !((clusterCores (clusterOf c)).any fun d => allSeqs.any fun r => (s.seq d r).stores.any fun t =>
        t.meets ia (opBytes a.w8) && (t.moment != .issued || (d == c && r == q && decide (t.stamp < a.stamp))))
    | .lm d o => !(x.stores.any fun t => t.meets (lmIa d o) (opBytes a.w8) && decide (t.stamp < a.stamp))
    | .system _ => true

/-- The atomic is done: its old value goes to its register as a load's does, and its acquire acts (R87, R90). -/
def State.atomDone (s : State) (c : CoreId) (q : SeqId) (a : PAtom) (old : Word) : State :=
  let x := s.seq c q
  let x := { x with atoms := x.atoms.filter fun b => b.stamp != a.stamp }
  let x := if a.kind.isRed then x
    else { x with loads := x.loads ++ [⟨a.stamp, [⟨a.dest, a.place, opBytes a.w8, false⟩], some [zext a.w8 old]⟩] }
  let s := s.setSeq c q x
  match a.order with
  | .acq | .acqrel => s.acquire c a.scope
  | _ => s

/-- Perform an atomic indivisibly at its home or in local memory (R90, R195). -/
def State.performAtom (s : State) (c : CoreId) (q : SeqId) (a : PAtom) : State :=
  let n := opBytes a.w8
  match a.place with
  | .home ia _ =>
    let old := word (leNat (s.homeBytes ia n))
    let s := match a.kind.write a.w8 old with
      | some v => s.perform ia (leBytes n v.toNat) a.depth
      | none => s
    (((s.l1Drop c ia).lateDrop c (some ia)).atomDone c q a old).settleFound
  | .lm d o =>
    let old := word (leNat (lmRead s d o n))
    let s := match a.kind.write a.w8 old with
      | some v => lmWrite s d o (leBytes n v.toNat)
      | none => s
    s.atomDone c q a old
  | .system _ => s.atomDone c q a 0

/-- Issue an atomic (R195): a RED of a participant to a stepped region is buffered as an RRED, an AMO or CAS is refused there
(R370). One that acquires there does so at its issue, for it returns nothing (R196, log 20). -/
def State.issueAtom (s0 s : State) (lm : Bool) (kind : AtomKind) (w8 : Bool) (o : Order) (sc : Scope) (d : Fin 32) (va : Nat) :
    Except Stop State := do
  let r : Req := ⟨0, va, opBytes w8⟩
  let ps ← s.places .atom lm r.n [r]
  if !(if kind.isRed then s.me.stRoom else s.me.ldRoom) then .error .hold
  let s ← s0.askStores s .atom kind.isRed ps
  let c := s.cur.core
  let waits := match o with | .rel | .acqrel => s.covered c s.cur.sq sc | _ => []
  match ps with
  | [(_, .home ia cache)] =>
    match kind, s.isStepped ia with
    | .red op b, true => do
      let s ← s0.bufferMine s .atom 0 ia ia (leBytes r.n b.toNat) (.rred op w8) waits
      pure (match o with | .acq | .acqrel => s.acquire c sc | _ => s)
    | _, _ => .ok (s.setMe { s.me with
        atoms := s.me.atoms ++ [⟨s.stamp, kind, w8, .home ia cache, o, sc, d, waits ++ s.me.relWaits, s.depthOf c⟩] }).tick
  | [(_, p)] =>
    .ok (s.setMe { s.me with
      atoms := s.me.atoms ++ [⟨s.stamp, kind, w8, p, o, sc, d, waits ++ s.me.relWaits, s.depthOf c⟩] }).tick
  | _ => .error .hold

/-- The core's atomic that was issued first and may be performed. -/
def State.nextAtom (s : State) (c : CoreId) : Option (SeqId × PAtom) :=
  (allSeqs.flatMap fun q => ((s.seq c q).atoms.filter (s.atomReady c q)).map fun a => (q, a)).foldl (fun best x =>
      match best with
      | none => some x
      | some b => if x.2.stamp < b.2.stamp then some x else some b) none

/-- An atomic of a sequencer, by its place in the list, is performed when it may be. -/
def State.performNth (s : State) (c : CoreId) (q : SeqId) (n : Nat) : State :=
  match (s.seq c q).atoms[n]? with
  | some a => if s.atomReady c q a then s.performAtom c q a else s
  | none => s

end Sys2Proof.Machine
end

