-- ==== Sys2Proof/Machine/Scalar.lean ====
section
/-! DEFINITION. The scalar ALU group (R160, R165, R166, R190, R191). -/

namespace Sys2Proof.Machine

/-! ### The results (R120, R190, R191) -/

/-- The high half of the signed product (R190). -/
def mulhVal (a b : Word) : Word := (a.signExtend 128 * b.signExtend 128).extractLsb' 64 64

/-- The high half of the natural product (R190). -/
def mulhnVal (a b : Word) : Word := (a.setWidth 128 * b.setWidth 128).extractLsb' 64 64

/-- The signed quotient, truncated; its corners are R120's. -/
def divVal (a b : Word) : Word := if b = 0 then BitVec.allOnes 64 else a.sdiv b

/-- The natural quotient (R120). -/
def divnVal (a b : Word) : Word := if b = 0 then BitVec.allOnes 64 else a / b

/-- The signed remainder, of the dividend's sign (R120). -/
def remVal (a b : Word) : Word := if b = 0 then a else a.srem b

/-- The natural remainder (R120). -/
def remnVal (a b : Word) : Word := if b = 0 then a else a % b

/-- A shift amount: b mod 64 (R120). -/
def shAmt (b : Word) : Nat := b.toNat % 64

def clzVal : Nat → Word → Nat
  | 0, _ => 0
  | n + 1, a => if a.getLsbD n then 0 else 1 + clzVal n a

def ctzVal : Nat → Nat → Word → Nat
  | 0, _, _ => 0
  | n + 1, i, a => if a.getLsbD i then 0 else 1 + ctzVal n (i + 1) a

/-- The low `n` bits, 1 to 64, zero- or sign-extended (R165). -/
def extVal (sgn : Bool) (a : Word) (n : Nat) : Word :=
  if sgn then (a <<< (64 - n)).sshiftRight (64 - n) else (a <<< (64 - n)) >>> (64 - n)

/-- BFX (R191). -/
def bfxVal (sgn : Bool) (a : Word) (lo w : Nat) : Word := extVal sgn (a >>> lo) w

/-- BFI (R191). -/
def bfiVal (d a : Word) (lo w : Nat) : Word :=
  let m := (BitVec.allOnes 64 >>> (64 - w)) <<< lo
  (d &&& ~~~m) ||| ((a <<< lo) &&& m)

def Size.bytes' : Size → Nat
  | .b1 => 1 | .b2 => 2 | .b4 => 4 | .b8 => 8

/-- CRC (R191): the running value in the low 32 bits of a, over the low bytes of b. -/
def crcVal (sz : Size) (a b : Word) : Word :=
  (crcBytes (a.setWidth 32) (leBytes (Size.bytes' sz) b.toNat)).setWidth 64

def minVal (a b : Word) : Word := if a.sle b then a else b
def maxVal (a b : Word) : Word := if a.sle b then b else a
def minnVal (a b : Word) : Word := if a.ule b then a else b
def maxnVal (a b : Word) : Word := if a.ule b then b else a

/-- One bit of a word. -/
def oneBit (b : Word) : Word := 1#64 <<< shAmt b

/-! ### The forms -/

/-- g[D] := f(a, b) (R180, R190). -/
def alu3 (f : Word → Word → Word) (d a : SReg) (b : SB) (s : State) : Host.Outcome State Fault Refusal :=
  device .all s fun s => do
    let (x, s) ← s.readS a
    let (y, s) ← s.readB b
    let s ← s.writeS d (f x y)
    pure s.complete

/-- g[D] := f(a) (R190). -/
def alu2 (f : Word → Word) (d a : SReg) (s : State) : Host.Outcome State Fault Refusal :=
  device .all s fun s => do
    let (x, s) ← s.readS a
    let s ← s.writeS d (f x)
    pure s.complete

/-- ADD (R190). -/
def execAdd (d a : SReg) (b : SB) (s : State) : Host.Outcome State Fault Refusal := alu3 (· + ·) d a b s
/-- SUB (R190). -/
def execSub (d a : SReg) (b : SB) (s : State) : Host.Outcome State Fault Refusal := alu3 (· - ·) d a b s
/-- MUL (R190). -/
def execMul (d a : SReg) (b : SB) (s : State) : Host.Outcome State Fault Refusal := alu3 (· * ·) d a b s
/-- MULH (R190). -/
def execMulh (d a : SReg) (b : SB) (s : State) : Host.Outcome State Fault Refusal := alu3 mulhVal d a b s
/-- MULHN (R190). -/
def execMulhn (d a : SReg) (b : SB) (s : State) : Host.Outcome State Fault Refusal := alu3 mulhnVal d a b s
/-- DIV (R120, R190). -/
def execDiv (d a : SReg) (b : SB) (s : State) : Host.Outcome State Fault Refusal := alu3 divVal d a b s
/-- DIVN (R120, R190). -/
def execDivn (d a : SReg) (b : SB) (s : State) : Host.Outcome State Fault Refusal := alu3 divnVal d a b s
/-- REM (R120, R190). -/
def execRem (d a : SReg) (b : SB) (s : State) : Host.Outcome State Fault Refusal := alu3 remVal d a b s
/-- REMN (R120, R190). -/
def execRemn (d a : SReg) (b : SB) (s : State) : Host.Outcome State Fault Refusal := alu3 remnVal d a b s
/-- AND (R190). -/
def execAnd (d a : SReg) (b : SB) (s : State) : Host.Outcome State Fault Refusal := alu3 (· &&& ·) d a b s
/-- OR (R190). -/
def execOr (d a : SReg) (b : SB) (s : State) : Host.Outcome State Fault Refusal := alu3 (· ||| ·) d a b s
/-- XOR (R190). -/
def execXor (d a : SReg) (b : SB) (s : State) : Host.Outcome State Fault Refusal := alu3 (· ^^^ ·) d a b s
/-- ANDN (R165): a and not b. -/
def execAndn (d a : SReg) (b : SB) (s : State) : Host.Outcome State Fault Refusal := alu3 (fun x y => x &&& ~~~y) d a b s
/-- SHL (R190). -/
def execShl (d a : SReg) (b : SB) (s : State) : Host.Outcome State Fault Refusal := alu3 (fun x y => x <<< shAmt y) d a b s
/-- SHR (R190). -/
def execShr (d a : SReg) (b : SB) (s : State) : Host.Outcome State Fault Refusal := alu3 (fun x y => x >>> shAmt y) d a b s
/-- SAR (R190). -/
def execSar (d a : SReg) (b : SB) (s : State) : Host.Outcome State Fault Refusal :=
  alu3 (fun x y => x.sshiftRight (shAmt y)) d a b s
/-- ROR (R190). -/
def execRor (d a : SReg) (b : SB) (s : State) : Host.Outcome State Fault Refusal :=
  alu3 (fun x y => x.rotateRight (shAmt y)) d a b s
/-- MIN (R165): signed. -/
def execMin (d a : SReg) (b : SB) (s : State) : Host.Outcome State Fault Refusal := alu3 minVal d a b s
/-- MAX (R165): signed. -/
def execMax (d a : SReg) (b : SB) (s : State) : Host.Outcome State Fault Refusal := alu3 maxVal d a b s
/-- MINN (R165): natural. -/
def execMinn (d a : SReg) (b : SB) (s : State) : Host.Outcome State Fault Refusal := alu3 minnVal d a b s
/-- MAXN (R165): natural. -/
def execMaxn (d a : SReg) (b : SB) (s : State) : Host.Outcome State Fault Refusal := alu3 maxnVal d a b s
/-- CMP (R163, R190): 1 when the condition holds, else 0. -/
def execCmp (c : Cond) (d a : SReg) (b : SB) (s : State) : Host.Outcome State Fault Refusal :=
  alu3 (fun x y => if c.holds x y then 1 else 0) d a b s
/-- CLZ (R165). -/
def execClz (d a : SReg) (s : State) : Host.Outcome State Fault Refusal := alu2 (fun x => word (clzVal 64 x)) d a s
/-- CTZ (R165). -/
def execCtz (d a : SReg) (s : State) : Host.Outcome State Fault Refusal := alu2 (fun x => word (ctzVal 64 0 x)) d a s
/-- POPC (R165). -/
def execPopc (d a : SReg) (s : State) : Host.Outcome State Fault Refusal := alu2 (fun x => word (popCount 64 x.toNat)) d a s

/-- EXT (R190): an n outside 1 to 64 is illegal. -/
def execExt (sgn : Bool) (d a : SReg) (b : SB) (s : State) : Host.Outcome State Fault Refusal :=
  device .all s fun s => do
    let (x, s) ← s.readS a
    let (y, s) ← s.readB b
    if y.toNat < 1 || 64 < y.toNat then .error (s.wordTrap 0x01)
    let s ← s.writeS d (extVal sgn x y.toNat)
    pure s.complete

/-- BFX (R191). -/
def execBfx (sgn : Bool) (d a : SReg) (lo : BitVec 6) (w : BitVec 7) (s : State) : Host.Outcome State Fault Refusal :=
  alu2 (fun x => bfxVal sgn x lo.toNat w.toNat) d a s

/-- BFI (R191): g[D] is read after A. -/
def execBfi (d : Fin 32) (a : SReg) (lo : BitVec 6) (w : BitVec 7) (s : State) : Host.Outcome State Fault Refusal :=
  device .all s fun s => do
    let (x, s) ← s.readS a
    let s ← s.writeS (.g d) (bfiVal (s.me.rd d) x lo.toNat w.toNat)
    pure s.complete

/-- LDI (R165). -/
def execLdi (d : SReg) (v : Off) (s : State) : Host.Outcome State Fault Refusal :=
  device .all s fun s => do
    let s ← s.writeS d v.val
    pure s.complete

/-- MOV (R165). -/
def execMov (d a : SReg) (s : State) : Host.Outcome State Fault Refusal := alu2 id d a s

/-- A special register's value; indices 5 to 255 are reserved (R160). -/
def State.special (s : State) (i : BitVec 8) : Option Word :=
  match i.toNat with
  | 0 => some s.me.fpcs
  | 1 => some (word (globalId s.cur.core s.cur.sq))
  | 2 => some (word s.here.partNo.val)
  | 3 => some (if s.cur.sq == .X then s.x.rot.setWidth 64 else 0)
  | 4 => some s.me.repc
  | _ => none

/-- MFSR (R160). -/
def execMfsr (d : SReg) (i : BitVec 8) (s : State) : Host.Outcome State Fault Refusal :=
  device .all s fun s =>
    match s.special i with
    | none => .error (s.wordTrap 0x01)
    | some v => do
      let s ← s.writeS d v
      pure s.complete

/-- MTSR (R118, R160): FPCS takes RM and clears flags; writes to the read-only registers are ignored. -/
def execMtsr (i : BitVec 8) (a : SReg) (s : State) : Host.Outcome State Fault Refusal :=
  device .all s fun s =>
    match s.special i with
    | none => .error (s.wordTrap 0x01)
    | some _ => do
      let (x, s) ← s.readS a
      let s := if i = 0 then s.setMe { s.me with fpcs := fpcsWrite s.me.fpcs x } else s
      pure s.complete

/-- BSET (R190). -/
def execBset (d a : SReg) (b : SB) (s : State) : Host.Outcome State Fault Refusal :=
  alu3 (fun x y => x ||| oneBit y) d a b s
/-- BCLR (R190). -/
def execBclr (d a : SReg) (b : SB) (s : State) : Host.Outcome State Fault Refusal :=
  alu3 (fun x y => x &&& ~~~oneBit y) d a b s
/-- CRC (R191). -/
def execCrc (sz : Size) (d a : SReg) (b : SB) (s : State) : Host.Outcome State Fault Refusal := alu3 (crcVal sz) d a b s

end Sys2Proof.Machine
end

