-- ==== Sys2Proof/Machine/Memory.lean ====
section
/-! DEFINITION. The scalar memory group (R192 to R197), and the events by which loads, stores and atomics are performed (R33,
R84, R90). -/

namespace Sys2Proof.Machine

/-- The address of a form with an offset. -/
def addrOf (a : Word) (k : Off) : Nat := (a + k.val).toNat

/-! ### Loads and stores -/

/-- LD (R192). -/
def execLd (sgn : Bool) (sz : Size) (lm : Bool) (d a : SReg) (k : Off) (s : State) : Host.Outcome State Fault Refusal :=
  device .cl s fun s0 => do
    let (x, s) ← s0.readS a
    let n := Size.bytes' sz
    let s ← s0.issueLoad s lm n [⟨0, addrOf x k, n⟩] d (match d with | .g r => [r] | .q _ => [0]) sgn
    pure s.complete

/-- ST (R192): D is read after A. -/
def execSt (sz : Size) (lm : Bool) (v a : SReg) (k : Off) (s : State) : Host.Outcome State Fault Refusal :=
  device .cs s fun s0 => do
    let (x, s) ← s0.readS a
    let (y, s) ← s.readS v
    let n := Size.bytes' sz
    let s ← s0.issueStore s lm n [(⟨0, addrOf x k, n⟩, leBytes n y.toNat)] [] true
    pure s.complete

/-- The scope acts at the package (R82). -/
def Scope.wide : Scope → Bool
  | .core | .clu => false
  | .dev | .pod => true

/-- LDA (R87, R92, R93, R193): an acquire, performed in program order. It returns what reaches the core from the home, never what
L1 holds, so that one repeated returns every write in the end (R93); at .dev and .pod the stores performed at .clu are performed at
their home first. -/
def State.issueLda (s0 s : State) (r : Req) (sc : Scope) (d : SReg) (sgn : Bool) : Except Stop State := do
  let ps ← s.places .load false r.n [r]
  if !s.me.ldRoom || !(s.me.loads.all fun l => l.vals.isSome) then .error .hold
  let c := s.cur.core
  let ps := ps.map fun p => (p.1, match p.2 with
    | .home ia cache => Place.home ia (max cache 1)
    | p => p)
  let parts := ps.map fun p => LoadPart.mk (match d with | .g n => n | .q _ => 0) p.2 r.n sgn
  if parts.any fun p => s.partHeld c s.cur.sq s.stamp p || (Scope.wide sc && match p.place with
      | .home ia _ => !(s.overlay c ia r.n).isEmpty
      | _ => false) then
    .error .hold
  let s ← s0.askLoads s ps
  let (vs, s) := (s.acquire c sc).readParts c parts
  match d with
  | .g _ => .ok (s.addLoad parts (some vs))
  | .q n => s.push n (vs.headD 0)

/-- LDA (R193). -/
def execLda (sgn : Bool) (sz : Size) (sc : Scope) (d a : SReg) (k : Off) (s : State) : Host.Outcome State Fault Refusal :=
  device .cl s fun s0 => do
    let (x, s) ← s0.readS a
    let s ← s0.issueLda s ⟨0, addrOf x k, Size.bytes' sz⟩ sc d sgn
    pure s.complete

/-- STR (R88, R193): a release of its own store. -/
def execStr (sz : Size) (sc : Scope) (v a : SReg) (k : Off) (s : State) : Host.Outcome State Fault Refusal :=
  device .cs s fun s0 => do
    let (x, s) ← s0.readS a
    let (y, s) ← s.readS v
    let n := Size.bytes' sz
    if !(s.me.loads.all fun l => l.vals.isSome) then .error .hold
    let s ← s0.issueStore s false n [(⟨0, addrOf x k, n⟩, leBytes n y.toNat)] (s.covered s.cur.core s.cur.sq sc) true
    pure s.complete

/-- The consecutive words of LDM and STM (R194). -/
def wordReqs (addr n : Nat) : List Req := (upTo n).map fun i => ⟨0, (addr + 8 * i) % 2 ^ 64, 8⟩

/-- LDM (R194). -/
def execLdm (lm : Bool) (d : Fin 32) (n : BitVec 5) (a : SReg) (k : Off) (s : State) : Host.Outcome State Fault Refusal :=
  device .cl s fun s0 => do
    let (x, s) ← s0.readS a
    let s ← s0.issueLoad s lm 8 (wordReqs (addrOf x k) n.toNat) (.g d) (runRegs d n.toNat) false
    pure s.complete

/-- STM (R194). -/
def execStm (lm : Bool) (d : Fin 32) (n : BitVec 5) (a : SReg) (k : Off) (s : State) : Host.Outcome State Fault Refusal :=
  device .cs s fun s0 => do
    let (x, s) ← s0.readS a
    let data := (runRegs d n.toNat).map fun r => leBytes 8 (s.me.rd r).toNat
    let s ← s0.issueStore s lm 8 ((wordReqs (addrOf x k) n.toNat).zip data) [] true
    pure s.complete

/-! ### Atomics (R90, R195, R196) -/

/-- Issue an atomic whose result goes to a register or a queue. With a queue it stalls until it can be performed, is performed
at once, and its old value is pushed. -/
def State.issueAtomTo (s0 s : State) (lm : Bool) (kind : AtomKind) (w8 : Bool) (o : Order) (sc : Scope) (d : SReg) (va : Nat) :
    Except Stop State :=
  match d with
  | .g r => s0.issueAtom s lm kind w8 o sc r va
  | .q n => do
    let s ← s0.issueAtom s lm kind w8 o sc 0 va
    let c := s.cur.core
    let q := s.cur.sq
    match s.me.atoms.getLast? with
    | none => .error .hold
    | some a =>
      if !s.atomReady c q a then .error .hold
      else
        let s := s.performAtom c q a
        let v := (s.me.loads.getLast?.bind fun l => l.vals.bind (·.head?)).getD 0
        let s := s.setMe { s.me with loads := s.me.loads.dropLast }
        s.push n v

/-- AMO (R195). -/
def execAmo (op : AtomOp) (w8 lm : Bool) (o : Order) (sc : Scope) (d a b : SReg) (s : State) : Host.Outcome State Fault Refusal :=
  device .c s fun s0 => do
    let (x, s) ← s0.readS a
    let (y, s) ← s.readS b
    let s ← s0.issueAtomTo s lm (.amo op y) w8 o sc d x.toNat
    pure s.complete

/-- CAS (R195): D is read after A and B. -/
def execCas (w8 lm : Bool) (o : Order) (sc : Scope) (d a b : SReg) (s : State) : Host.Outcome State Fault Refusal :=
  device .c s fun s0 => do
    let (x, s) ← s0.readS a
    let (y, s) ← s.readS b
    let (z, s) ← s.readS d
    let s ← s0.issueAtomTo s lm (.cas z y) w8 o sc d x.toNat
    pure s.complete

/-- RED (R195). -/
def execRed (op : AtomOp) (w8 lm : Bool) (o : Order) (sc : Scope) (a b : SReg) (s : State) : Host.Outcome State Fault Refusal :=
  device .c s fun s0 => do
    let (x, s) ← s0.readS a
    let (y, s) ← s.readS b
    let s ← s0.issueAtom s lm (.red op y) w8 o sc 0 x.toNat
    pure s.complete

/-! ### Spill, prefetch, L1, layer (R197) -/

/-- SPILL: registers to the spill file, in order. -/
def spillRegs (q : Seq) (s : Nat) : List (Fin 32) → Sparse Word
  | [] => q.spill
  | r :: t => sset 0 (spillRegs q (s + 1) t) s (q.rd r)

/-- SPILL (R197). -/
def execSpill (n : BitVec 9) (a : Fin 32) (cnt : BitVec 5) (s : State) : Host.Outcome State Fault Refusal :=
  device .all s fun s =>
    .ok (s.setMe { s.me with spill := spillRegs s.me n.toNat (runRegs a cnt.toNat) }).complete

/-- FILL (R197). -/
def execFill (d : Fin 32) (n : BitVec 9) (cnt : BitVec 5) (s : State) : Host.Outcome State Fault Refusal :=
  device .all s fun s =>
    let q := s.me
    let ws := (runRegs d cnt.toNat).zip ((upTo cnt.toNat).map fun i => sget 0 q.spill (n.toNat + i))
    .ok (s.setMe (q.wrs ws)).complete

/-- PREF (R197): it fills the line where the CACHE attribute and the home permit, and never traps. -/
def execPref (l2 : Bool) (a : SReg) (k : Off) (s : State) : Host.Outcome State Fault Refusal :=
  device .cl s fun s => do
    let (x, s) ← s.readS a
    let s := match translate s.here.partNo s.me.rng (addrOf x k) 1 .rd with
      | .ok t => if !l2 && hasHome t.ia && t.cache == 0 && !s.isStepped t.ia then s.l1Fill s.cur.core t.ia else s
      | .error _ => s
    pure s.complete

/-- INVL1 (R93, R197): every earlier load has been performed; later ones read their homes anew. -/
def execInvl1 (s : State) : Host.Outcome State Fault Refusal :=
  device .cl s fun s =>
    if !(s.me.loads.all fun l => l.vals.isSome) then .error .hold
    else .ok ((s.l1Invalidate s.cur.core).lateDrop s.cur.core none).complete

/-- LAYER (R78, R197): the layer is announced to the partition's prefetch engine. -/
def execLayer (a : SReg) (n : BitVec 19) (s : State) : Host.Outcome State Fault Refusal :=
  device .c s fun s => do
    let (x, s) ← s.readS a
    let p := s.here.partNo
    let l := (x.toNat + n.toNat) % 65536
    pure (s.setPart p { s.part p with layers := (s.part p).layers ++ [l] }).complete

/-! ### Events -/

/-- LOAD_COMPLETE (R33). -/
def execLoadComplete (core : CoreId) (sq : SeqId) (s : State) : Host.Outcome State Fault Refusal := .next (s.completeLoad core sq)

/-- STORE_PERFORMED_AT_HOME (R84). -/
def execStorePerformedAtHome (core : CoreId) (sq : SeqId) (s : State) : Host.Outcome State Fault Refusal :=
  .next (s.performStore core sq)

/-- ATOMIC_PERFORM (R90): of the atomics that may be performed, the one issued first. -/
def execAtomicPerform (core : CoreId) (s : State) : Host.Outcome State Fault Refusal :=
  match s.nextAtom core with
  | none => .next s
  | some (q, a) => .next (s.performAtom core q a)

end Sys2Proof.Machine
end

