-- ==== Sys2Proof/Machine/Ordering.lean ====
section
/-! DEFINITION. The ordering and synchronisation group (R87 to R91, R198 to R203): MARK, tokens, QSTAT, BAR, STEP, FLAGW. -/

namespace Sys2Proof.Machine

/-! ### MARK (R87 to R89, R199) -/

/-- Every load of a sequencer has been performed, and of its atomics no more than REDs, which load nothing, are under way. -/
def Seq.loaded (q : Seq) : Bool := q.loads.all (fun l => l.vals.isSome) && q.atoms.all fun a => a.kind.isRed

/-- The sequencer's own stores have been performed at a scope, its REDs among them. -/
def State.ownAt (s : State) (sc : Scope) : Bool :=
  s.me.atoms.isEmpty && s.me.stores.all fun st => match sc, st.moment with
    | .core, m => m != .issued
    | .clu, m => m == .clu
    | _, _ => false

/-- The part of a release that stands for later stores: they wait for what the sequencer sees (R88). Waits that are met are
dropped. -/
def State.releaseLater (s : State) (sc : Scope) : State :=
  let w := (s.me.relWaits ++ s.covered s.cur.core s.cur.sq sc).filter fun w => !s.waitMet s.cur.core w
  s.setMe { s.me with relWaits := w }

/-- MARK full: its own stores are performed at the scope before later loads (R89). -/
def State.markFull (s : State) (sc : Scope) : Except Stop State :=
  if s.me.loaded && s.ownAt sc then .ok ((s.releaseLater sc).acquire s.cur.core sc) else .error .hold

/-- MARK (R89, R199). -/
def execMark (k : MarkKind) (sc : Scope) (s : State) : Host.Outcome State Fault Refusal :=
  device .all s fun s =>
    match k with
    | .full => do
      let s ← s.markFull sc
      pure s.complete
    | .acq => if s.me.loaded then .ok (s.acquire s.cur.core sc).complete else .error .hold
    | .rel => if s.me.loaded then .ok (s.releaseLater sc).complete else .error .hold

/-! ### Tokens and queues (R29, R30, R200) -/

/-- Producer and consumer of a token on the issuing core; without a card every token is unbound. -/
def State.tbind (s : State) (n : Fin 8) : Nat × Nat :=
  match s.cardOn s.cur.core with
  | some c => CardImg.tbind c.img n.val
  | none => (0, 0)

/-- TPOST (R29, R30, R200): the producer adds; a release at .core. -/
def execTpost (t : Fin 8) (b : SB) (s : State) : Host.Outcome State Fault Refusal :=
  device .all s fun s => do
    let (p, c) := s.tbind t
    if p = c ∨ p ≠ s.cur.sq.idx.val then .error (s.wordTrap 0x03)
    let (x, s) ← s.readN b
    let v := s.here.tokens[t.val]
    if x.toNat > 65535 ∨ v.toNat + x.toNat > 65535 then .error (s.wordTrap 0x10)
    if !s.me.coreReleased then .error .hold
    pure (s.setHere { s.here with tokens := s.here.tokens.set t.val (v + x.setWidth 16) }).complete

/-- TWAIT (R29, R30, R200): the consumer waits for the count and subtracts it; an acquire at .core. -/
def execTwait (t : Fin 8) (b : SB) (s : State) : Host.Outcome State Fault Refusal :=
  device .all s fun s => do
    let (p, c) := s.tbind t
    if p = c ∨ c ≠ s.cur.sq.idx.val then .error (s.wordTrap 0x03)
    let (x, s) ← s.readN b
    if x.toNat > 65535 then .error (s.wordTrap 0x10)
    let v := s.here.tokens[t.val]
    if v.toNat < x.toNat then .error .stall
    pure (s.setHere { s.here with tokens := s.here.tokens.set t.val (v - x.setWidth 16) }).complete

/-- QSTAT (R169, R200): the messages held, 0 for an unbound queue, and the free slots of the pool. -/
def execQstat (d : SReg) (n : Fin 8) (s : State) : Host.Outcome State Fault Refusal :=
  device .all s fun s => do
    let (p, c) := s.qbind n
    let held := if p = c then 0 else s.here.queues[n.val].msgs.length
    let size := ((s.cardOn s.cur.core).map fun k => CardImg.poolSize k.img).getD 0
    let s ← s.writeS d (word ((size - s.here.poolUsed) % 65536 * 65536 + held % 65536))
    pure s.complete

/-! ### BAR (R26, R201) -/

/-- The level-k sub-rectangle of a core of a card (R26). -/
def levelCores (k : Card) (level : Nat) (c : CoreId) : List CoreId :=
  let h := min (level / 2) 3
  let w := min (2 ^ CardImg.wlog k.img) (2 ^ (level - h))
  let t := min (2 ^ CardImg.hlog k.img) (2 ^ h)
  rectCores (k.ox + (coreX c - k.ox) / w * w) (k.oy + (coreY c - k.oy) / t * t) w t

/-- The barrier scope of a sub-rectangle (R201). -/
def barScope : List CoreId → Scope
  | [] => .core
  | [_] => .core
  | c :: t => if t.all fun d => clusterOf d == clusterOf c then .clu else .dev

/-- A participant has executed its j-th BAR of a level, where `j` BARs have been completed by the core that asks: it has
completed more, or stands at it. -/
def Core.atBar (k : Core) (level : Fin 9) (j : BitVec 32) : Bool :=
  let n := k.c.bar[level.val]
  (n == j && k.c.barWait == some level && !k.c.barMet) || (n - j != 0 && (n - j).toNat < 2 ^ 31)

/-- The j-th BAR of a level has been executed by every participant: for those that stand at it, it counts, and nothing interrupts it
any more (R201). -/
def Core.meetBar (k : Core) (level : Fin 9) (j : BitVec 32) : Core :=
  if k.c.barWait = some level ∧ k.c.bar[level.val] = j ∧ k.c.barMet = false then
    { k with c := { k.c with barMet := true, bar := k.c.bar.set level.val (j + 1) } }
  else k

/-- BAR (R201): C stands at it, its own writes and those it sees performed at the barrier scope, until every participant has
executed its own. -/
def execBar (level : Fin 9) (s : State) : Host.Outcome State Fault Refusal :=
  device .c s fun s =>
    let cores := match s.cardOn s.cur.core with
      | some k => levelCores k level.val s.cur.core
      | none => [s.cur.core]
    let sc := barScope cores
    let passes := fun (t : State) =>
      ((t.setC { t.c with barWait := none, barMet := false }).acquire t.cur.core sc).complete
    if s.c.barMet then .ok (passes s)
    else if !s.me.loaded || !s.coveredAt s.cur.core s.cur.sq sc then .error .stall
    else
      let j := s.c.bar[level.val]
      let t := s.setC { s.c with barWait := some level }
      if cores.all fun d => (t.core d).atBar level j then
        .ok (passes (cores.foldl (fun u d => u.setCore d ((u.core d).meetBar level j)) t))
      else .ok t

/-! ### STEP and FLAGW (R97, R101, R202, R203, R315) -/

/-- The trap of a failed group (R321, R381). -/
def lostTrap (g : Fin 16) (lost : BitVec 16) : Trap := ⟨0x0E, 0, word (g.val + lost.toNat * 65536)⟩

/-- Every record of a multicast RST of the steps up to one that this package is to write has been written (R113, R314). -/
def State.acksDone (s : State) (g : Fin 16) (n : Nat) : Bool :=
  !(s.fab.acks.any fun a => a.group = some g && decide (a.step ≤ n) && a.record.isSome)

/-- Boundary n of a group has completed (R97, R110): it has been applied here, and every other member has said that it has applied
it, or the next one has passed. -/
def State.boundaryPast (s : State) (g : Fin 16) (n : Nat) : Bool :=
  let gr := s.fab.groups[g.val]
  decide (n + 1 < gr.step) || (decide (n < gr.step) && gr.members.all fun m => m == s.fab.pkg || decide (n < sget 0 gr.past m.toNat))

/-- The boundary before the step of a core's C has completed. -/
def State.boundaryBefore (s : State) (g : Fin 16) : Bool :=
  match s.c.stepNo with
  | 0 => true
  | n + 1 => s.boundaryPast g n

/-- The queue of an instruction's destination would take its result (R179, R388). -/
def State.roomFor (s : State) : SReg → Except Stop Unit
  | .g _ => .ok ()
  | .q n => s.pushRoom n

/-- STEP (R97, R110, R202): its execution is counted once, when the boundary before its own has completed, and it returns when its
own has. A queue that cannot take its result holds it before any effect (R179). -/
def execStep (d : SReg) (s : State) : Host.Outcome State Fault Refusal :=
  device .c s fun s =>
    match s.agentGroup s.cur.core with
    | none => .error (.trap ⟨0x18, 0, s.cur.word⟩)
    | some g =>
      let gr := s.fab.groups[g.val]
      match gr.failed with
      | some p => .error (.trap (lostTrap g p))
      | none =>
        match s.c.stpW with
        | none =>
          match s.roomFor d with
          | .error e => .error e
          | .ok () =>
          if !s.me.loaded || !s.coveredAt s.cur.core s.cur.sq .dev || !s.boundaryBefore g then
            .ok (s.setC { s.c with stand := true })
          else .ok (s.setC { s.c with stand := false, stpW := some s.c.stepNo, stepNo := s.c.stepNo + 1 })
        | some n =>
          if !s.boundaryPast g n || !s.acksDone g n then .error .hold
          else do
            let s ← s.writeS d (word (n + 1))
            let s := s.setC { s.c with stpW := none }
            pure (s.acquire s.cur.core .dev).complete

/-- The target of a FLAGW, and its offset. -/
def State.flagTarget (s : State) : FlagT → Except Stop (Word × Word × State)
  | .reg b k => do
    let (t, s) ← s.readS b
    pure (t, k.signExtend 64, s)
  | .ext t => .ok (t, 0, s)

/-- FLAGW (R203, R314, R315): a boundary that it has passed counts as a STEP that has returned, with the records of its multicasts
written. A queue that cannot take its result holds it before any effect (R179); neither a trap nor a user event interrupts it (R203,
R283). -/
def execFlagw (d a : SReg) (t : FlagT) (s : State) : Host.Outcome State Fault Refusal :=
  device .c s fun s0 => do
    let (x, s) ← s0.readS a
    let (target, k, s) ← s.flagTarget t
    if !s.c.flgW then s.roomFor d
    let stands : Except Stop State := .ok (s0.setC { s0.c with stand := true })
    let r : Req := ⟨0, (x + k).toNat, 8⟩
    let ps ← s.places .load false 8 [r]
    let no : Stop := .trap ⟨0x18, word r.va, s.cur.word⟩
    match ps, s.agentGroup s.cur.core with
    | [(_, .home ia _)], some g =>
      match s.fab.groups[g.val].failed with
      | some p => .error (.trap (lostTrap g p))
      | none =>
        if s.c.flgW && !(s.boundaryBefore g && s.acksDone g (s.c.stepNo - 1)) || s.homeDown ia then stands
        else match s.confirm ia false with
        | .error e => .error (.trap (s.accTrap .load false e.cause ia 0))
        | .ok _ =>
          if !s.isStepped ia || s.groupAt ia != some g then .error no
          let s ← s0.meetFor s (·.meet ia 8) (s.accTrap .load false 0x19 ia 0)
          let f := word (leNat (s.homeBytes ia 8))
          if (f - target).toNat < 2 ^ 63 then
            if !s.me.loaded then stands
            else do
              let s ← s.writeS d f
              let s := s.setC { s.c with flgW := false, stand := false }
              pure (s.acquire s.cur.core .dev).complete
          else if !s.me.loaded || !s.coveredAt s.cur.core s.cur.sq .dev then stands
          else pure (s0.setC { s0.c with flgW := true, stand := false })
    | _, _ => .error no

end Sys2Proof.Machine
end

