-- ==== Sys2Proof/Machine/Lanes.lean ====
section
/-! DEFINITION. Vector operands: lanes (R204), rotating registers (R205), the mask stack (R206, R207), ports (R216, R217), and
the results of one lane (R209 to R212). -/

namespace Sys2Proof

/-- Bits of an element (R204). -/
def ElemT.width : ElemT → Nat
  | .s8 | .n8 => 8
  | .s16 | .n16 | .f16 | .bf16 => 16
  | .s32 | .n32 | .f32 => 32
  | .s64 | .n64 => 64

/-- Bytes of an element. -/
def ElemT.bytes (t : ElemT) : Nat := t.width / 8

/-- Lanes of a register (R204). -/
def ElemT.lanes (t : ElemT) : Nat := 2048 / t.width

/-- A signed integer type. -/
def ElemT.signed : ElemT → Bool
  | .s8 | .s16 | .s32 | .s64 => true
  | _ => false

/-- The format of a float type (R121). -/
def ElemT.fmt : ElemT → Machine.Fmt
  | .f16 => Machine.fmtF16
  | .bf16 => Machine.fmtBf16
  | _ => Machine.fmtF32

/-- The bits of a lane as an integer of the type; float bits read as signed. -/
def ElemT.toInt (t : ElemT) (a : Nat) : Int :=
  if (t.signed || t.isFloat) && 2 ^ (t.width - 1) ≤ a then (a : Int) - 2 ^ t.width else a

/-- The bits of an integer, modulo the width. -/
def ElemT.ofInt (t : ElemT) (v : Int) : Nat := (v % 2 ^ t.width).toNat

/-- The least and the greatest integer of a type. -/
def ElemT.least (t : ElemT) : Int := if t.signed then -(2 ^ (t.width - 1)) else 0

def ElemT.greatest (t : ElemT) : Int := if t.signed then 2 ^ (t.width - 1) - 1 else 2 ^ t.width - 1

/-- Sat, and whether it clamps. -/
def ElemT.sat (t : ElemT) (v : Int) : Int × Bool :=
  if v < t.least then (t.least, true) else if t.greatest < v then (t.greatest, true) else (v, false)

end Sys2Proof

namespace Sys2Proof.Machine

/-! ### Lanes -/

/-- The `n` fields of `w` bits of a number, lowest first. -/
def fields (w : Nat) : Nat → Nat → List Nat
  | 0, _ => []
  | n + 1, v => v % 2 ^ w :: fields w n (v / 2 ^ w)

/-- The number of fields of `w` bits. -/
def ofFields (w : Nat) : List Nat → Nat
  | [] => 0
  | x :: t => x % 2 ^ w + 2 ^ w * ofFields w t

/-- The lanes of a register under a type (R204). -/
def lanesOf (t : ElemT) (v : VReg) : List Nat := fields t.width t.lanes v.toNat

/-- A register of its lanes. -/
def ofLanes (t : ElemT) (ls : List Nat) : VReg := BitVec.ofNat 2048 (ofFields t.width ls)

/-- The top entry of the mask stack, all ones when it is empty (R206). -/
def XState.top (x : XState) : Mask := x.masks.headD (BitVec.allOnes 256)

/-- Which lanes of a type are active (R206). -/
def XState.active (x : XState) (t : ElemT) : List Bool := (upTo t.lanes).map fun i => x.top.getLsbD (i * t.bytes)

/-- All lanes of a type. -/
def everyLane (t : ElemT) : List Bool := List.replicate t.lanes true

/-- The rotating map (R205). -/
def XState.phys (x : XState) (n : Fin 48) : Nat := if n.val < 16 then n.val else 16 + (n.val - 16 + x.rot.toNat) % 32

/-- A vector register by its number (R205). -/
def XState.vreg (x : XState) (n : Fin 48) : VReg := vget x.v (x.phys n) 0

/-- Write a vector register by its number. -/
def XState.setVreg (x : XState) (n : Fin 48) (v : VReg) : XState := { x with v := vset x.v (x.phys n) v }

/-! ### Ports (R216, R217) -/

def Port.addr (p : Port) : Nat := p.blk.p0.toNat

def Port.count (p : Port) : Nat := p.blk.p1.toNat

def Port.stride (p : Port) : Int := p.blk.p2.toInt

def Port.writes (p : Port) : Bool := p.blk.p3.bit 0

/-- The local offset of the vector at the position. -/
def Port.here (p : Port) : Nat := ((p.addr : Int) + p.pos * p.stride).toNat

/-- The walk is cyclic. -/
def Port.advance (p : Port) : Port := { p with pos := if p.pos + 1 ≥ p.count then 0 else p.pos + 1 }

/-- Reads of local memory by X follow its own stores there (R85). -/
def State.lmClear (s : State) (off n : Nat) : Bool :=
  !(s.me.stores.any fun st => st.meets (lmIa s.cur.core off) n)

/-- A vector of local memory; granules of it that have been read ahead are not read again (R83). -/
def State.lmVec (s : State) (off : Nat) : VReg :=
  BitVec.ofNat 2048 (leNat (overGranules s.me.peeked (lmIa s.cur.core off) (lmRead s s.cur.core off 256)))

/-- What has been read ahead of the vector at an offset is used up. -/
def State.lmUsed (s : State) (off : Nat) : State :=
  if s.me.peeked.isEmpty then s
  else s.setMe { s.me with peeked := s.me.peeked.filter fun g => !overlap g.1 8 (lmIa s.cur.core off) 256 }

/-- Write the active lanes' bytes of a vector to local memory. -/
def State.lmPutLanes (s : State) (off wb : Nat) : List Bool → List Nat → State
  | b :: bs, x :: xs =>
    let s := if b then lmWrite s s.cur.core off (leBytes wb x) else s
    State.lmPutLanes s (off + wb) wb bs xs
  | _, _ => s

/-- Read a vector source: a register, or the pop of a port (R217). -/
def State.readV (s : State) : VR → Except Stop (VReg × State)
  | .v n => .ok (s.x.vreg n, s)
  | .p n =>
    let p := s.x.ports[n.val]
    if !p.conf || p.writes then .error (s.wordTrap 0x01)
    else if !s.lmClear p.here 256 then .error .hold
    else .ok (s.lmVec p.here, (s.setX { s.x with ports := s.x.ports.set n.val p.advance }).lmUsed p.here)

/-- The element that B = 63 broadcasts (R171). -/
def immElem (t : ElemT) (v : BitVec 19) : Nat :=
  match t with
  | .f32 => v.toNat * 2 ^ 13
  | .f16 | .bf16 => v.toNat % 2 ^ 16
  | t => t.ofInt v.toInt

/-- Read a vector B operand as lanes. -/
def State.readVB (s : State) (t : ElemT) : VB → Except Stop (List Nat × State)
  | .reg r => do
    let (v, s) ← s.readV r
    pure (lanesOf t v, s)
  | .imm v => .ok (List.replicate t.lanes (immElem t v), s)
  | .ext w => .ok (List.replicate t.lanes (w.toNat % 2 ^ t.width), s)

/-- Take the new lane where the lane is written, else the old one. -/
def mergeLanes : List Bool → List Nat → List Nat → List Nat
  | b :: bs, x :: xs, y :: ys => (if b then x else y) :: mergeLanes bs xs ys
  | _, _, _ => []

/-- A vector destination may be written: a port must be a configured write port (R217). -/
def State.destOk (s : State) : VR → Except Stop Unit
  | .v _ => .ok ()
  | .p n =>
    let p := s.x.ports[n.val]
    if !p.conf || !p.writes then .error (s.wordTrap 0x01) else .ok ()

/-- Push some lanes to a port (R217). -/
def State.pushPort (s : State) (t : ElemT) (n : Fin 8) (act : List Bool) (ls : List Nat) : Except Stop State :=
  match s.destOk (.p n) with
  | .error e => .error e
  | .ok () =>
    if !s.me.stores.isEmpty then .error .hold
    else
      let p := s.x.ports[n.val]
      let s := s.lmPutLanes p.here t.bytes act ls
      .ok (s.setX { s.x with ports := s.x.ports.set n.val p.advance })

/-- Write a vector destination: the lanes `act` of a register, or a push of the active lanes to a port (R207, R217). -/
def State.writeV (s : State) (t : ElemT) (d : VR) (act : List Bool) (ls : List Nat) : Except Stop State :=
  match d with
  | .v n => .ok (s.setX (s.x.setVreg n (ofLanes t (mergeLanes act ls (lanesOf t (s.x.vreg n))))))
  | .p n => s.pushPort t n (s.x.active t) ls

/-! ### Results of lanes -/

/-- A lane's result and its flags. -/
abbrev LaneRes := Nat × Flags

/-- A float result as a lane. -/
def FRes.lane (r : FRes) : LaneRes := (r.bits, r.flags)

/-- A result without flags. -/
def plain (v : Nat) : LaneRes := (v, Flags.none)

/-- An operand is a signalling NaN. -/
def sigNv (f : Fmt) (a b : Nat) : Flags := { nv := (f.decode a).sig || (f.decode b).sig }

/-- VADD and VSUB (R209). -/
def laneAdd (t : ElemT) (rm : Nat) (a b : Nat) : LaneRes :=
  if t.isFloat then (t.fmt.add rm a b).lane else plain (t.ofInt (t.toInt a + t.toInt b))

def laneSub (t : ElemT) (rm : Nat) (a b : Nat) : LaneRes :=
  if t.isFloat then (t.fmt.sub rm a b).lane else plain (t.ofInt (t.toInt a - t.toInt b))

/-- VMUL (R209). -/
def laneMul (t : ElemT) (rm : Nat) (a b : Nat) : LaneRes :=
  if t.isFloat then (t.fmt.mul rm a b).lane else plain (t.ofInt (t.toInt a * t.toInt b))

/-- VFMA (R209). -/
def laneFma (t : ElemT) (rm : Nat) (a b d : Nat) : LaneRes :=
  if t.isFloat then (t.fmt.fma rm a b d).lane else plain (t.ofInt (t.toInt a * t.toInt b + t.toInt d))

/-- VMIN and VMAX (R108, R209). -/
def lanePick (t : ElemT) (least : Bool) (a b : Nat) : LaneRes :=
  if t.isFloat then (t.fmt.pick least a b, sigNv t.fmt a b)
  else plain (if (t.toInt b < t.toInt a) == least then b else a)

/-- VABS and VNEG of a float (R209): the sign alone, but a NaN gives the canonical one. -/
def laneSign (f : Fmt) (a : Nat) (g : Nat → Nat) : LaneRes :=
  match f.decode a with
  | .nan s => (f.nanBits, { nv := s })
  | _ => plain (g a)

def laneAbs (t : ElemT) (a : Nat) : LaneRes :=
  if t.isFloat then laneSign t.fmt a fun a => a % 2 ^ (t.width - 1) else plain (t.ofInt (t.toInt a).natAbs)

def laneNeg (t : ElemT) (a : Nat) : LaneRes :=
  if t.isFloat then laneSign t.fmt a fun a => (a + 2 ^ (t.width - 1)) % 2 ^ t.width else plain (t.ofInt (-(t.toInt a)))

/-- VSHL, VSHR, VSAR (R209): the amount modulo the width. -/
def laneShl (t : ElemT) (a b : Nat) : Nat := a * 2 ^ (b % t.width) % 2 ^ t.width

def laneShr (t : ElemT) (a b : Nat) : Nat := a / 2 ^ (b % t.width)

/-- A shift right with the sign in (R209): for a natural type too the lane's top bit is shifted in, for R209 names no other sign (DESIGN
CHOICE, log 59). -/
def laneSar (t : ElemT) (a b : Nat) : Nat :=
  let v : Int := if 2 ^ (t.width - 1) ≤ a then (a : Int) - 2 ^ t.width else a
  t.ofInt (v.fdiv (2 ^ (b % t.width)))

/-- VADDS and VSUBS (R209). -/
def laneSat (t : ElemT) (v : Int) : LaneRes :=
  let (r, c) := t.sat v
  (t.ofInt r, { vsat := c })

/-- A condition on two lanes (R163, R208). -/
def ordHolds (c : Cond) (o : Ordering) : Bool :=
  match c with
  | .eq => o == .eq
  | .ne => o != .eq
  | .lt | .ltn => o == .lt
  | .ge | .gen => o != .lt
  | .le | .len => o != .gt
  | .gt | .gtn => o == .gt

/-- VCMP of one lane. -/
def laneCmp (t : ElemT) (c : Cond) (a b : Nat) : Bool × Flags :=
  if t.isFloat then
    let x := t.fmt.decode a
    let y := t.fmt.decode b
    (if x.isNan || y.isNan then c == .ne else ordHolds c (FV.compare x y), sigNv t.fmt a b)
  else (ordHolds c (Ord.compare (t.toInt a) (t.toInt b)), Flags.none)

/-- Convert of VCVT (R124, R211). -/
def laneCvt (t u : ElemT) (rm : Nat) (a : Nat) : LaneRes :=
  if t == u then
    if t.isFloat && (t.fmt.decode a).isNan then (t.fmt.nanBits, { nv := (t.fmt.decode a).sig }) else plain a
  else if t.isFloat then
    if u.isFloat then (u.fmt.ofV rm (t.fmt.decode a)).lane
    else
      let (v, f) := t.fmt.toInt rm a u.least u.greatest
      (u.ofInt v, f)
  else if u.isFloat then (u.fmt.ofInt rm (t.toInt a)).lane
  else laneSat u (t.toInt a)

/-- Apply a function to the active lanes; inactive ones have no result and set no flag (R207, R209). -/
def mapLanes (f : Nat → LaneRes) : List Bool → List Nat → List Nat × Flags
  | b :: bs, x :: xs =>
    let (r, g) := mapLanes f bs xs
    if b then ((f x).1 :: r, (f x).2.or g) else (0 :: r, g)
  | _, _ => ([], Flags.none)

/-- As `mapLanes`, over two operands. -/
def mapLanes2 (f : Nat → Nat → LaneRes) : List Bool → List Nat → List Nat → List Nat × Flags
  | b :: bs, x :: xs, y :: ys =>
    let (r, g) := mapLanes2 f bs xs ys
    if b then ((f x y).1 :: r, (f x y).2.or g) else (0 :: r, g)
  | _, _, _ => ([], Flags.none)

/-- As `mapLanes`, over three operands. -/
def mapLanes3 (f : Nat → Nat → Nat → LaneRes) : List Bool → List Nat → List Nat → List Nat → List Nat × Flags
  | b :: bs, x :: xs, y :: ys, z :: zs =>
    let (r, g) := mapLanes3 f bs xs ys zs
    if b then ((f x y z).1 :: r, (f x y z).2.or g) else (0 :: r, g)
  | _, _, _, _ => ([], Flags.none)

/-- One level of the tree of VRED (R212). -/
def redLevel (f : Nat → Nat → LaneRes) : List Nat → List Nat × Flags
  | a :: b :: t =>
    let (r, g) := redLevel f t
    ((f a b).1 :: r, (f a b).2.or g)
  | l => (l, Flags.none)

/-- The tree of VRED; the fuel bounds its levels. -/
def redTree (f : Nat → Nat → LaneRes) : Nat → List Nat → Nat × Flags
  | 0, l => (l.headD 0, Flags.none)
  | fuel + 1, l =>
    let (l', g) := redLevel f l
    let (r, h) := redTree f fuel l'
    (r, g.or h)

/-- The identity of VRED for inactive lanes (R212). -/
def redId (t : ElemT) (op : RedOp) : Nat :=
  match op with
  | .add => if t.isFloat then t.fmt.signBit true else 0
  | .min => if t.isFloat then t.fmt.infBits else t.ofInt t.greatest
  | .max => if t.isFloat then t.fmt.signBit true + t.fmt.infBits else t.ofInt t.least

/-- The operation of VRED. -/
def redOp (t : ElemT) (rm : Nat) (op : RedOp) : Nat → Nat → LaneRes :=
  match op with
  | .add => laneAdd t rm
  | .min => lanePick t true
  | .max => lanePick t false

/-! ### Block quantisation (R128 to R130, R221) -/

/-- A rational rounded to an integer magnitude, and whether it is inexact. -/
def roundRat (rm : Nat) (neg : Bool) (n d : Nat) : Nat × Bool :=
  let r := n / d
  let rest := n % d
  let half : Ordering := Ord.compare (2 * rest) d
  (if roundUp rm neg (r % 2 == 1) half (rest != 0) then r + 1 else r, rest != 0)

/-- The smallest sc16 of exponent 1 to 254 whose value is at least m × 2^x / q (R130). -/
def scaleFor (m : Nat) (x : Int) (q : Nat) : Nat :=
  let j : Int := (Nat.log2 m : Int) - (Nat.log2 q : Int)
  let below := decide (m * 2 ^ (-j).toNat < q * 2 ^ j.toNat)
  let j := if below then j - 1 else j
  -- m / q lies in [2^j, 2^(j+1)): f is the least with 256 + f ≥ 256 m / (q 2^j)
  let n := 256 * m * 2 ^ (-j).toNat
  let d := q * 2 ^ j.toNat
  let f := (n + d - 1) / d - 256
  let e : Int := j + x + 127
  let (e, f) := if f ≥ 256 then (e + 1, 0) else (e, f)
  if e < 1 then 0x0100 else e.toNat * 256 + f

/-- The value of an sc16 of exponent 1 to 254, as an integer times 2^e. -/
def sc16Val (s : Nat) : Nat × Int := (256 + s % 256, ((s / 256 : Nat) : Int) - 135)

def QFmt.qmax : QFmt → Nat
  | .bq8 => 127
  | .bq4 => 7
  | .bq16 => 32767

/-- Quantise a lane by a scale: q, and whether q × s differs from the lane (R130, R221). -/
def quantLane (rm : Nat) (s : Nat) (a : Nat) : Int × Bool :=
  match fmtF32.decode a with
  | .fin n m e =>
    let (k, g) := sc16Val s
    let d := e - g
    let (r, x) := roundRat rm n (m * 2 ^ d.toNat) (k * 2 ^ (-d).toNat)
    (if n then -(r : Int) else r, x)
  | _ => (0, false)

/-- The largest magnitude of finite lanes, as bits without sign. -/
def amax : List Nat → Nat
  | [] => 0
  | a :: t => max (a % 2 ^ 31) (amax t)

/-- VQNT of 64 lanes (R130): the scale, the elements, and the flags. -/
def quantise (f : QFmt) (rm : Nat) (ls : List Nat) : Nat × List Int × Flags :=
  if ls.any fun a => a % 2 ^ 31 ≥ fmtF32.infBits then (0xFF00, ls.map fun _ => 0, { nv := true, scb := true })
  else
    match fmtF32.decode (amax ls) with
    | .fin _ m e =>
      let s := scaleFor m e (QFmt.qmax f)
      let qs := ls.map (quantLane rm s)
      (s, qs.map (·.1), { nx := qs.any (·.2) })
    | _ => (0, ls.map fun _ => 0, Flags.none)

/-- The register of a block (R221). -/
def blockReg (f : QFmt) (s : Nat) (qs : List Int) : VReg :=
  let w := match f with | .bq8 => 8 | .bq4 => 4 | .bq16 => 16
  BitVec.ofNat 2048 (ofFields w (qs.map fun q => (q % 2 ^ w).toNat) + s * 2 ^ (254 * 8))

/-- The elements and the scale of a block in a register (R221). -/
def blockOf (f : QFmt) (v : VReg) : Nat × List Int :=
  let w := match f with | .bq8 => 8 | .bq4 => 4 | .bq16 => 16
  (v.toNat / 2 ^ (254 * 8), (fields w 64 v.toNat).map fun (x : Nat) => if 2 ^ (w - 1) ≤ x then (x : Int) - 2 ^ w else (x : Int))

/-- VDQ of one element (R130). -/
def dequantLane (rm : Nat) (s : Nat) (q : Int) : LaneRes :=
  if s / 256 = 255 then (fmtF32.nanBits, { scb := true })
  else if s / 256 = 0 then plain 0
  else
    let (k, g) := sc16Val s
    (fmtF32.ofSum rm (q * k) g false).lane

end Sys2Proof.Machine
end

