-- ==== Sys2Proof/Machine/Vector.lean ====
section
/-! DEFINITION. The vector, mask, port and top-k group (R204 to R224). -/

namespace Sys2Proof.Machine

/-! ### Element instructions (R209 to R211) -/

/-- A one-operand element instruction. -/
def State.elem1 (s : State) (t : ElemT) (d a : VR) (f : Nat → LaneRes) : Except Stop State := do
  let (x, s) ← s.readV a
  let act := s.x.active t
  let (r, g) := mapLanes f act (lanesOf t x)
  let s ← s.writeV t d act r
  pure (s.raiseFlags g).complete

/-- A two-operand element instruction. -/
def State.elem2 (s : State) (t : ElemT) (d a : VR) (b : VB) (f : Nat → Nat → LaneRes) : Except Stop State := do
  let (x, s) ← s.readV a
  let (y, s) ← s.readVB t b
  let act := s.x.active t
  let (r, g) := mapLanes2 f act (lanesOf t x) y
  let s ← s.writeV t d act r
  pure (s.raiseFlags g).complete

def execVadd (t : ElemT) (d a : VR) (b : VB) (s : State) : Host.Outcome State Fault Refusal :=
  device .x s fun s => s.elem2 t d a b (laneAdd t s.me.rm)

def execVsub (t : ElemT) (d a : VR) (b : VB) (s : State) : Host.Outcome State Fault Refusal :=
  device .x s fun s => s.elem2 t d a b (laneSub t s.me.rm)

def execVmul (t : ElemT) (d a : VR) (b : VB) (s : State) : Host.Outcome State Fault Refusal :=
  device .x s fun s => s.elem2 t d a b (laneMul t s.me.rm)

/-- VFMA (R209): D is a source as well. -/
def execVfma (t : ElemT) (d : Fin 48) (a : VR) (b : VB) (s : State) : Host.Outcome State Fault Refusal :=
  device .x s fun s => do
    let (x, s) ← s.readV a
    let (y, s) ← s.readVB t b
    let act := s.x.active t
    let (r, g) := mapLanes3 (laneFma t s.me.rm) act (lanesOf t x) y (lanesOf t (s.x.vreg d))
    let s ← s.writeV t (.v d) act r
    pure (s.raiseFlags g).complete

def execVmin (t : ElemT) (d a : VR) (b : VB) (s : State) : Host.Outcome State Fault Refusal :=
  device .x s fun s => s.elem2 t d a b (lanePick t true)

def execVmax (t : ElemT) (d a : VR) (b : VB) (s : State) : Host.Outcome State Fault Refusal :=
  device .x s fun s => s.elem2 t d a b (lanePick t false)

def execVabs (t : ElemT) (d a : VR) (s : State) : Host.Outcome State Fault Refusal :=
  device .x s fun s => s.elem1 t d a (laneAbs t)

def execVneg (t : ElemT) (d a : VR) (s : State) : Host.Outcome State Fault Refusal :=
  device .x s fun s => s.elem1 t d a (laneNeg t)

def execVand (t : ElemT) (d a : VR) (b : VB) (s : State) : Host.Outcome State Fault Refusal :=
  device .x s fun s => s.elem2 t d a b fun x y => plain (x &&& y)

def execVor (t : ElemT) (d a : VR) (b : VB) (s : State) : Host.Outcome State Fault Refusal :=
  device .x s fun s => s.elem2 t d a b fun x y => plain (x ||| y)

def execVxor (t : ElemT) (d a : VR) (b : VB) (s : State) : Host.Outcome State Fault Refusal :=
  device .x s fun s => s.elem2 t d a b fun x y => plain (x ^^^ y)

def execVnot (t : ElemT) (d a : VR) (s : State) : Host.Outcome State Fault Refusal :=
  device .x s fun s => s.elem1 t d a fun x => plain (2 ^ t.width - 1 - x)

def execVshl (t : ElemT) (d a : VR) (b : VB) (s : State) : Host.Outcome State Fault Refusal :=
  device .x s fun s => s.elem2 t d a b fun x y => plain (laneShl t x y)

def execVshr (t : ElemT) (d a : VR) (b : VB) (s : State) : Host.Outcome State Fault Refusal :=
  device .x s fun s => s.elem2 t d a b fun x y => plain (laneShr t x y)

def execVsar (t : ElemT) (d a : VR) (b : VB) (s : State) : Host.Outcome State Fault Refusal :=
  device .x s fun s => s.elem2 t d a b fun x y => plain (laneSar t x y)

def execVadds (t : ElemT) (d a : VR) (b : VB) (s : State) : Host.Outcome State Fault Refusal :=
  device .x s fun s => s.elem2 t d a b fun x y => laneSat t (t.toInt x + t.toInt y)

def execVsubs (t : ElemT) (d a : VR) (b : VB) (s : State) : Host.Outcome State Fault Refusal :=
  device .x s fun s => s.elem2 t d a b fun x y => laneSat t (t.toInt x - t.toInt y)

def execVdiv (t : ElemT) (d a : VR) (b : VB) (s : State) : Host.Outcome State Fault Refusal :=
  device .x s fun s => s.elem2 t d a b fun x y => (t.fmt.div s.me.rm x y).lane

def execVsqrt (t : ElemT) (d a : VR) (s : State) : Host.Outcome State Fault Refusal :=
  device .x s fun s => s.elem1 t d a fun x => (t.fmt.sqrt s.me.rm x).lane

def execVrcp (t : ElemT) (d a : VR) (s : State) : Host.Outcome State Fault Refusal :=
  device .x s fun s => s.elem1 t d a fun x => (t.fmt.rcp s.me.rm x).lane

def execVrsq (t : ElemT) (d a : VR) (s : State) : Host.Outcome State Fault Refusal :=
  device .x s fun s => s.elem1 t d a fun x => (t.fmt.rsq s.me.rm x).lane

def execVexp2 (t : ElemT) (d a : VR) (s : State) : Host.Outcome State Fault Refusal :=
  device .x s fun s => s.elem1 t d a fun x => (t.fmt.exp2 s.me.rm x).lane

def execVlog2 (t : ElemT) (d a : VR) (s : State) : Host.Outcome State Fault Refusal :=
  device .x s fun s => s.elem1 t d a fun x => (t.fmt.log2 s.me.rm x).lane

/-- The sources of VCVT's lanes: the low ones of `a`, padded to the lanes of U (R211). -/
def padTo (n : Nat) (l : List Nat) : List Nat := (l ++ List.replicate (n - l.length) 0).take n

/-- VCVT (R211): lanes beyond the narrower count are 0. -/
def execVcvt (t u : ElemT) (d a : VR) (s : State) : Host.Outcome State Fault Refusal :=
  device .x s fun s => do
    let (x, s) ← s.readV a
    let m := 2048 / max t.width u.width
    let act := s.x.active u
    let src := (lanesOf t x).take m
    let (r, g) := mapLanes (laneCvt t u s.me.rm) (act.take m) src
    let s ← s.writeV u d act (padTo u.lanes r)
    pure (s.raiseFlags g).complete

/-! ### Masks (R206 to R208) -/

/-- A mask of lanes: every byte of a lane alike. -/
def laneMask (t : ElemT) (bs : List Bool) : Mask :=
  BitVec.ofNat 256 (ofFields t.bytes (bs.map fun b => if b then 2 ^ t.bytes - 1 else 0))

/-- Lanes compared, with their flags; inactive lanes set none. -/
def cmpLanes (t : ElemT) (c : Cond) : List Bool → List Nat → List Nat → List Bool × Flags
  | b :: bs, x :: xs, y :: ys =>
    let (r, g) := cmpLanes t c bs xs ys
    let (h, f) := laneCmp t c x y
    (h :: r, if b then f.or g else g)
  | _, _, _ => ([], Flags.none)

/-- VCMP (R208): pushes top and c. At depth 16 the trap 0x16 comes before a port operand's 0x01 (log 57). -/
def execVcmp (t : ElemT) (c : Cond) (a : VR) (b : VB) (s : State) : Host.Outcome State Fault Refusal :=
  device .x s fun s => do
    if s.x.masks.length ≥ 16 then .error (s.wordTrap 0x16)
    let (x, s) ← s.readV a
    let (y, s) ← s.readVB t b
    let (r, g) := cmpLanes t c (s.x.active t) (lanesOf t x) y
    let s := s.setX { s.x with masks := (s.x.top &&& laneMask t r) :: s.x.masks }
    pure (s.raiseFlags g).complete

/-- MINV (R208). -/
def execMinv (s : State) : Host.Outcome State Fault Refusal :=
  device .x s fun s =>
    match s.x.masks with
    | [] => .error (s.wordTrap 0x16)
    | m :: t => .ok (s.setX { s.x with masks := (~~~m &&& t.headD (BitVec.allOnes 256)) :: t }).complete

/-- MPOP (R208). -/
def execMpop (s : State) : Host.Outcome State Fault Refusal :=
  device .x s fun s =>
    match s.x.masks with
    | [] => .error (s.wordTrap 0x16)
    | _ :: t => .ok (s.setX { s.x with masks := t }).complete

/-- MBR (R208): taken when the top entry is all zeros. -/
def execMbr (d : BitVec 19) (s : State) : Host.Outcome State Fault Refusal :=
  device .x s fun s => .ok (if s.x.top = 0 then s.branch (s.target (d.signExtend 64)) else s.complete)

/-- MRD (R208). -/
def execMrd (d : SReg) (w : Fin 4) (s : State) : Host.Outcome State Fault Refusal :=
  device .x s fun s => do
    let s ← s.writeS d (s.x.top.extractLsb' (64 * w.val) 64)
    pure s.complete

/-- A mask with its word `w` replaced. -/
def maskWord (m : Mask) (w : Fin 4) (v : Word) : Mask :=
  (m &&& ~~~((BitVec.allOnes 64).setWidth 256 <<< (64 * w.val))) ||| (v.setWidth 256 <<< (64 * w.val))

/-- MWR (R208). -/
def execMwr (w : Fin 4) (a : SReg) (s : State) : Host.Outcome State Fault Refusal :=
  device .x s fun s => do
    let (v, s) ← s.readS a
    match s.x.masks with
    | [] => .error (s.wordTrap 0x16)
    | m :: t => pure (s.setX { s.x with masks := maskWord m w v :: t }).complete

/-- VSEL (R213): the top entry selects, every lane is written. -/
def execVsel (t : ElemT) (d a : VR) (b : VB) (s : State) : Host.Outcome State Fault Refusal :=
  device .x s fun s => do
    let (x, s) ← s.readV a
    let (y, s) ← s.readVB t b
    let s ← s.writeV t d (everyLane t) (mergeLanes (s.x.active t) (lanesOf t x) y)
    pure s.complete

/-! ### Reduction and lane movement (R212, R213) -/

/-- VRED (R212): the whole of vD is written. -/
def execVred (t : ElemT) (op : RedOp) (d a : VR) (s : State) : Host.Outcome State Fault Refusal :=
  device .x s fun s => do
    let (x, s) ← s.readV a
    let ls := mergeLanes (s.x.active t) (lanesOf t x) (List.replicate t.lanes (redId t op))
    let (r, g) := redTree (redOp t s.me.rm op) 8 ls
    let s ← s.writeV t d (everyLane t) (padTo t.lanes [r])
    pure (s.raiseFlags g).complete

/-- VBCAST (R213). -/
def execVbcast (t : ElemT) (d : VR) (a : SReg) (s : State) : Host.Outcome State Fault Refusal :=
  device .x s fun s => do
    let (v, s) ← s.readS a
    let s ← s.writeV t d (s.x.active t) (List.replicate t.lanes (v.toNat % 2 ^ t.width))
    pure s.complete

/-- VMOVS (R213): a lane index beyond the lanes is cause 0x01. -/
def execVmovs (t : ElemT) (d : SReg) (a : VR) (i : BitVec 8) (s : State) : Host.Outcome State Fault Refusal :=
  device .x s fun s => do
    let (x, s) ← s.readV a
    if t.lanes ≤ i.toNat then .error (s.wordTrap 0x01)
    let v := (lanesOf t x).getD i.toNat 0
    let s ← s.writeS d (if t.signed then BitVec.ofInt 64 (t.toInt v) else word v)
    pure s.complete

/-- VINS (R213): one lane is written, in a register or at a port, whatever the mask holds; the others stay. -/
def execVins (t : ElemT) (d : VR) (a : SReg) (i : BitVec 8) (s : State) : Host.Outcome State Fault Refusal :=
  device .x s fun s => do
    let (v, s) ← s.readS a
    if t.lanes ≤ i.toNat then .error (s.wordTrap 0x01)
    let act := (upTo t.lanes).map fun j => j == i.toNat
    let ls := List.replicate t.lanes (v.toNat % 2 ^ t.width)
    let s ← match d with
      | .v _ => s.writeV t d act ls
      | .p n => s.pushPort t n act ls
    pure s.complete

/-- VPERM (R213). -/
def execVperm (t : ElemT) (d a b : VR) (s : State) : Host.Outcome State Fault Refusal :=
  device .x s fun s => do
    let (x, s) ← s.readV a
    let (y, s) ← s.readV b
    let ls := lanesOf t x
    let s ← s.writeV t d (s.x.active t) ((lanesOf t y).map fun j => ls.getD (j % t.lanes) 0)
    pure s.complete

/-- Interleave two lists. -/
def interleave : List Nat → List Nat → List Nat
  | a :: as, b :: bs => a :: b :: interleave as bs
  | _, _ => []

/-- Every second element from the first. -/
def evens : List Nat → List Nat
  | a :: _ :: t => a :: evens t
  | l => l

/-- The lanes of VSHUF, from the lanes of vA and of the old vD (R213). -/
def shufLanes (n : Nat) (a d : List Nat) (r : Nat) : Shuf → List Nat
  | .rev => a.reverse
  | .ilo => interleave (a.take (n / 2)) (d.take (n / 2))
  | .ihi => interleave (a.drop (n / 2)) (d.drop (n / 2))
  | .even => padTo n (evens a)
  | .odd => padTo n (evens (a.drop 1))
  | .rot _ => a.drop (r % n) ++ a.take (r % n)

/-- VSHUF (R213). -/
def execVshuf (t : ElemT) (p : Shuf) (d a : VR) (s : State) : Host.Outcome State Fault Refusal :=
  device .x s fun s => do
    let (x, s) ← s.readV a
    let (r, s) ← match p with
      | .rot b => s.readS b
      | _ => .ok (0, s)
    let old := match d with | .v n => lanesOf t (s.x.vreg n) | .p _ => []
    let s ← s.writeV t d (s.x.active t) (shufLanes t.lanes (lanesOf t x) old r.toNat p)
    pure s.complete

/-- VIOTA (R213). -/
def execViota (t : ElemT) (d : VR) (a : SReg) (s : State) : Host.Outcome State Fault Refusal :=
  device .x s fun s => do
    let (v, s) ← s.readS a
    let s ← s.writeV t d (s.x.active t) ((upTo t.lanes).map fun i => (v.toNat + i) % 2 ^ t.width)
    pure s.complete

/-! ### Local and global memory (R214, R219, R220) -/

/-- The offset of VLD and VST, checked over all 256 bytes (R214). -/
def State.vecPlace (s : State) (t : ElemT) (k : AKind) (o : Nat) : Except Stop Unit := do
  let _ ← s.places k true t.bytes [⟨0, o, 256⟩]
  pure ()

/-- VLD (R214). -/
def execVld (t : ElemT) (d : VR) (a : SReg) (k : Off) (s : State) : Host.Outcome State Fault Refusal :=
  device .x s fun s => do
    let (x, s) ← s.readS a
    let o := addrOf x k
    s.destOk d
    s.vecPlace t .load o
    if !s.lmClear o 256 then .error .hold
    let s ← s.writeV t d (s.x.active t) (lanesOf t (s.lmVec o))
    pure (s.lmUsed o).complete

/-- VST (R214): the vector source is read after the address. -/
def execVst (t : ElemT) (v : VR) (a : SReg) (k : Off) (s : State) : Host.Outcome State Fault Refusal :=
  device .x s fun s => do
    let (x, s) ← s.readS a
    let (y, s) ← s.readV v
    let o := addrOf x k
    s.vecPlace t .store o
    if !s.me.stores.isEmpty then .error .hold
    pure (s.lmPutLanes o t.bytes (s.x.active t) (lanesOf t y)).complete

/-- The requests of the active lanes of VGATH and VSCAT (R219). -/
def laneReqs (t : ElemT) (base : Word) (act : List Bool) (offs : List Nat) : List Req :=
  ((upTo t.lanes).zip (act.zip offs)).filterMap fun x =>
    if x.2.1 then
      let o := if 2 ^ (t.width - 1) ≤ x.2.2 then (x.2.2 : Int) - 2 ^ t.width else x.2.2
      some ⟨x.1, addOff base.toNat o, t.bytes⟩
    else none

/-- A lane without a present page entry at its home (R219). -/
def State.absent (s : State) (p : Place) : Bool :=
  match p with
  | .home ia cache =>
    !(cache = 0 && (s.l1Line s.cur.core ia).isSome) && !s.homeDown ia && (lookup s.hm.ptes ia).isNone
  | _ => false

/-- One lane of VGATH is loaded: its value, none for a lane that is not resident under .nr (R219). -/
def State.gatherLane (s0 s : State) (nr : Bool) (r : Req) (p : Place) : Except Stop (Option Nat × State) :=
  if s.absent p then
    if nr then .ok (none, s)
    else .error (.trap (s.accTrap .load false 0x0A (p.ia?.getD 0) r.lane))
  else if s.loadHeld s.cur.core s.cur.sq s.stamp p r.n then .error .hold
  else
    match s0.askLoad s r p with
    | .error e => .error e
    | .ok s =>
      let (bs, s) := s.readPlace s.cur.core p r.n
      .ok (some (leNat bs), s)

/-- Load the lanes of VGATH in ascending order: values and residence by lane (R219); `got` holds those of the first lanes that are
loaded already. -/
def State.gatherLanes (s0 s : State) (nr : Bool) : List (Option Nat) → List (Req × Place) →
    Except Stop (List (Nat × Option Nat) × State)
  | _, [] => .ok ([], s)
  | v :: got, (r, _) :: t => do
    let (l, s) ← State.gatherLanes s0 s nr got t
    pure ((r.lane, v) :: l, s)
  | [], (r, p) :: t => do
    let (v, s) ← s0.gatherLane s nr r p
    let (l, s) ← State.gatherLanes s0 s nr [] t
    pure ((r.lane, v) :: l, s)

/-- The lanes of a VGATH to load, after the checks that precede every load (R219, R333); 0x16 comes first among them (log 57). -/
def State.gatherPlaces (s : State) (t : ElemT) (nr : Bool) (d : VR) (a : SReg) (b : VR) :
    Except Stop (List (Req × Place) × State) := do
  if nr && s.x.masks.length ≥ 16 then .error (s.wordTrap 0x16)
  let (x, s) ← s.readS a
  let (y, s) ← s.readV b
  s.destOk d
  let ps ← s.places .load false t.bytes (laneReqs t x (s.x.active t) (lanesOf t y))
  if !s.me.quiet then .error .hold
  pure (ps, s)

/-- VGATH (R219). The entry that .nr pushes counts an inactive lane as not resident (log 57). -/
def execVgath (t : ElemT) (nr : Bool) (d : VR) (a : SReg) (b : VR) (s : State) : Host.Outcome State Fault Refusal :=
  device .x s fun s0 => do
    let (ps, s) ← s0.gatherPlaces t nr d a b
    let (l, s) ← s0.gatherLanes s nr s.me.lanes ps
    let s ← s.writeV t d (s.x.active t) ((upTo t.lanes).map fun i => ((dget l i).bind id).getD 0)
    let res := laneMask t ((upTo t.lanes).map fun i => ((dget l i).bind id).isSome)
    let s := if nr then s.setX { s.x with masks := (s.x.top &&& res) :: s.x.masks } else s
    pure (s.setMe { s.me with lanes := [] }).complete

/-- The next lane of the VGATH at which X of a core stands is loaded ahead of the rest: each lane is a load of its own (R83, R219). -/
def State.performLane (s : State) (c : CoreId) : State :=
  match s.issue c .X with
  | .run (.vgath t nr d a b) u =>
    match u.gatherPlaces t nr d a b with
    | .error _ => s
    | .ok (ps, _) =>
      match ps[u.me.lanes.length]? with
      | none => s
      | some (r, p) =>
        match u.gatherLane u nr r p with
        | .error _ => s
        | .ok (v, w) => { w.setMe { w.me with lanes := w.me.lanes ++ [v] } with cur := s.cur }
  | _ => s

/-- VSCAT (R220): the lane stores enter X's store order. -/
def execVscat (t : ElemT) (v : VR) (a : SReg) (b : VR) (s : State) : Host.Outcome State Fault Refusal :=
  device .x s fun s0 => do
    let (x, s) ← s0.readS a
    let (y, s) ← s.readV b
    let (z, s) ← s.readV v
    let vals := lanesOf t z
    let reqs := (laneReqs t x (s.x.active t) (lanesOf t y)).map fun r => (r, leBytes t.bytes (vals.getD r.lane 0))
    let s ← s0.issueStore s false t.bytes reqs [] false
    pure s.complete

/-! ### Top-k (R140, R222, R223) -/

/-- The order of two keys by value, best first. -/
def keyOrder (f32 least : Bool) (a b : BitVec 32) : Ordering :=
  let o := if f32 then FV.compare (fmtF32.decode a.toNat) (fmtF32.decode b.toNat) else Ord.compare a.toInt b.toInt
  if least then o else o.swap

/-- A pair ranks at or above another: the better key, then the lower index; of equal pairs the lower key bits. -/
def ranks (f32 least : Bool) (p q : BitVec 32 × BitVec 32) : Bool :=
  match keyOrder f32 least p.1 q.1 with
  | .lt => true
  | .gt => false
  | .eq => if p.2 = q.2 then p.1.ule q.1 else p.2.ult q.2

/-- Insert a pair in rank order. -/
def rankIn (f32 least : Bool) (p : BitVec 32 × BitVec 32) : List (BitVec 32 × BitVec 32) → List (BitVec 32 × BitVec 32)
  | [] => [p]
  | q :: t => if ranks f32 least p q then p :: q :: t else q :: rankIn f32 least p t

/-- VTOPK (R222). -/
def execVtopk (t : ElemT) (min : Bool) (k : BitVec 7) (new : Bool) (a b : VR) (s : State) : Host.Outcome State Fault Refusal :=
  device .x s fun s => do
    let (x, s) ← s.readV a
    let (y, s) ← s.readV b
    let f := t == .f32
    let tk := s.x.topk
    if k.toNat = 0 ∨ 64 < k.toNat then .error (s.wordTrap 0x01)
    if !new && !(tk.begun && tk.f32 == f && tk.k == k.toNat && tk.min == min) then .error (s.wordTrap 0x01)
    let held := if new then [] else tk.pairs
    let offered := ((s.x.active t).zip ((lanesOf t x).zip (lanesOf t y))).filterMap fun o =>
      if o.1 && !(f && (fmtF32.decode o.2.1).isNan) then some (BitVec.ofNat 32 o.2.1, BitVec.ofNat 32 o.2.2) else none
    let pairs := (offered.foldl (fun l p => rankIn f min p l) held).take k.toNat
    pure (s.setX { s.x with topk := ⟨true, f, min, k.toNat, pairs⟩ }).complete

/-- VTOPKR (R223). -/
def execVtopkr (d : VR) (idx : Bool) (s : State) : Host.Outcome State Fault Refusal :=
  device .x s fun s => do
    let tk := s.x.topk
    let empty := if idx then 2 ^ 32 - 1 else if tk.begun && !tk.f32 then 2 ^ 31 else fmtF32.nanBits
    let ls := (upTo 64).map fun j =>
      match tk.pairs[j]? with
      | some p => if idx then p.2.toNat else p.1.toNat
      | none => empty
    let s ← s.writeV .n32 d (everyLane .n32) ls
    pure s.complete

/-! ### Ports (R216, R218) -/

/-- What PCFG holds against the pool is the bytes of the vectors, not the gaps between them: R216 names vectors 0 and N − 1, R32 the
configured range (DESIGN CHOICE, log 59). The first vector of a walk that shares a byte with a range, if one does: `k` steps of `str` from `a`, `n` vectors. -/
def walkHits (a : Int) (str : Int) (n : Nat) (lo len : Nat) : Option Int :=
  -- the walk in ascending order
  let b := if str < 0 then a + ((n : Int) - 1) * str else a
  let d := if str < 0 then -str else str
  let i : Int := if d = 0 then 0 else max 0 ((((lo : Int) - 255 - b) + d - 1).fdiv d)
  let v := b + i * d
  if i < (n : Int) && decide ((lo : Int) < v + 256) && decide (v < (lo + len : Nat)) && decide (0 < len) then some v else none

/-- What is wrong with the walk of a configured port, given the pool: the cause and the place (R216). -/
def Port.fault (p : Port) (pool : LocalRange) : Option (Nat × Int) :=
  let first : Int := p.addr
  let last : Int := p.addr + ((p.count : Int) - 1) * p.stride
  let lo := min first last
  let hi := max first last
  if p.count = 0 ∨ 2 ^ 32 ≤ p.count then some (0x01, 0)
  else if p.addr % 8 ≠ 0 ∨ p.stride % 8 ≠ 0 then some (0x05, p.addr)
  else if lo < 0 ∨ 0x1FFF00 < lo then some (0x06, lo)
  else if 0x1FFF00 < hi then some (0x06, hi)
  else (walkHits first p.stride p.count pool.lo pool.len).map fun v => (0x07, v)

/-- PCFG (R216). -/
def execPcfg (n : Fin 8) (b : Blk) (s : State) : Host.Outcome State Fault Refusal :=
  device .x s fun s =>
    let p : Port := ⟨s.me.substBlk b, 0, true⟩
    match p.fault (s.poolOf s.cur.core) with
    | none => .ok (s.setX { s.x with ports := s.x.ports.set n.val p }).complete
    | some (0x01, _) => .error (s.wordTrap 0x01)
    | some (c, a) => .error (.trap ⟨c, BitVec.ofInt 64 a, accessDetail s.opcode 0 false true false false⟩)

/-- PRST (R218). -/
def execPrst (n : Fin 8) (s : State) : Host.Outcome State Fault Refusal :=
  device .x s fun s =>
    let p := s.x.ports[n.val]
    if !p.conf then .error (s.wordTrap 0x01)
    else .ok (s.setX { s.x with ports := s.x.ports.set n.val { p with pos := 0 } }).complete

/-! ### Block quantisation (R221) -/

/-- VQNT (R130, R221). -/
def execVqnt (f : QFmt) (d a : VR) (s : State) : Host.Outcome State Fault Refusal :=
  device .x s fun s => do
    let (x, s) ← s.readV a
    let (sc, qs, g) := quantise f s.me.rm (lanesOf .f32 x)
    let s ← s.writeV .f32 d (everyLane .f32) (lanesOf .f32 (blockReg f sc qs))
    pure (s.raiseFlags g).complete

/-- VDQ (R130, R221). -/
def execVdq (f : QFmt) (d a : VR) (s : State) : Host.Outcome State Fault Refusal :=
  device .x s fun s => do
    let (x, s) ← s.readV a
    let (sc, qs) := blockOf f x
    let (r, g) := mapLanes2 (fun i _ => dequantLane s.me.rm sc (qs.getD i 0)) (everyLane .f32) (upTo 64) (upTo 64)
    let s ← s.writeV .f32 d (everyLane .f32) r
    pure (s.raiseFlags g).complete

end Sys2Proof.Machine
end

