-- ==== Sys2Proof/Machine/Matrix.lean ====
section
/-! DEFINITION. The matrix group and its events (R125 to R132, R138, R139, R225 to R242): B slots, tiles, nests, drains. -/

namespace Sys2Proof.Machine

/-! ### Local ranges and their checks (R226, R237) -/

/-- A local access of a matrix operation: offset, bytes, the alignment of its offset. -/
structure LmUse where
  off   : Nat
  len   : Nat
  align : Nat
deriving DecidableEq, Repr

/-- A trap of a matrix operation at a local offset (R321, R322). -/
def State.mxTrap (s : State) (wr : Bool) (cause addr : Nat) : Stop :=
  .trap ⟨cause, word addr, accessDetail s.opcode 0 false true wr false⟩

/-- The least offset of some. -/
def leastOff : List LmUse → Option Nat
  | [] => none
  | u :: t => match leastOff t with
    | none => some u.off
    | some o => some (min u.off o)

/-- Alignment, then bounds, then the pool, each over all accesses; the lowest offset that fails is reported (R333). -/
def State.lmUses (s : State) (wr : Bool) (us : List LmUse) : Except Stop Unit :=
  let pool := s.poolOf s.cur.core
  match leastOff (us.filter fun u => u.off % u.align != 0) with
  | some o => .error (s.mxTrap wr 0x05 o)
  | none =>
    match leastOff (us.filter fun u => decide (u.off + u.len > 0x200000)) with
    | some o => .error (s.mxTrap wr 0x06 o)
    | none =>
      match leastOff (us.filter fun u => overlap u.off u.len pool.lo pool.len) with
      | some o => .error (s.mxTrap wr 0x07 o)
      | none => .ok ()

/-- Rows of a walk. -/
def rowUses (base str n len align : Nat) : List LmUse := (upTo n).map fun k => ⟨base + k * str, len, align⟩

def allOnes64 : Word := BitVec.allOnes 64

/-! ### Accumulator memory (R227) -/

def accKey (c : CoreId) (w : Nat) : Nat := c.val * 262144 + w

def State.acc (s : State) (c : CoreId) (w : Nat) : BitVec 32 := sget 0 s.hm.acc (accKey c w)

def State.setAcc (s : State) (c : CoreId) (w : Nat) (v : BitVec 32) : State :=
  { s with hm := { s.hm with acc := sset 0 s.hm.acc (accKey c w) v } }

/-- Write consecutive words. -/
def State.setAccs (s : State) (c : CoreId) (w : Nat) : List (BitVec 32) → State
  | [] => s
  | v :: t => State.setAccs (s.setAcc c w v) c (w + 1) t

/-- The key of a side register: entry p holds m, l and c. -/
def sideKey (c : CoreId) (p : Nat) (r : SideReg) : Nat :=
  (c.val * 1024 + p) * 3 + (match r with | .m => 0 | .l => 1 | .c => 2)

def State.side (s : State) (c : CoreId) (p : Nat) (r : SideReg) : BitVec 32 := sget 0 s.hm.side (sideKey c p r)

def State.setSide (s : State) (c : CoreId) (p : Nat) (r : SideReg) (v : BitVec 32) : State :=
  { s with hm := { s.hm with side := sset 0 s.hm.side (sideKey c p r) v } }

/-- The initial values of a side entry (R138). -/
def State.clearSide (s : State) (c : CoreId) (p : Nat) : State :=
  ((s.setSide c p .m 0xFF800000).setSide c p .l 0).setSide c p .c 0x3F800000

/-- The word of element (r, o) of a tile (R227). -/
def Tile.word (t : Tile) (r o : Nat) : Nat := 256 * t.base + r * t.cols + o

/-- Zero a tile and set its side entries to their initial values (R228, R229). -/
def State.clearTile (s : State) (c : CoreId) (t : Tile) : State :=
  let s := s.setAccs c (t.word 0 0) (List.replicate (t.rows * t.cols) 0)
  ((upTo t.rows).map fun r => t.base + r).foldl (fun s p => s.clearSide c p) s

/-- A row of a tile. -/
def State.tileRow (s : State) (c : CoreId) (t : Tile) (r : Nat) : List Nat :=
  (upTo t.cols).map fun o => (s.acc c (t.word r o)).toNat

def State.setTileRow (s : State) (c : CoreId) (t : Tile) (r : Nat) (vs : List Nat) : State :=
  s.setAccs c (t.word r 0) (vs.map fun v => BitVec.ofNat 32 v)

/-! ### Weights (R125 to R127, R226) -/

/-- The digits of a weight, plane 0 first (R126). -/
def ternaryDigits : Nat → Int → List Int
  | 0, _ => []
  | n + 1, v =>
    let t := v - 3 * (v + 1).fdiv 3
    t :: ternaryDigits n ((v - t) / 3)

/-- The pattern of a digit (R125). -/
def tritPattern (t : Int) : Nat := if t = 1 then 1 else if t = -1 then 3 else 0

/-- The digit of a pattern; 0b10 reads 0 (R125). -/
def tritValue (p : Nat) : Int := if p = 1 then 1 else if p = 3 then -1 else 0

def bfmtPlanes : BFmt → Nat
  | .trit => 1
  | .s4 => 3
  | .s8 => 6

/-- Bytes of a row of weights (R226). -/
def bfmtRow : BFmt → Nat
  | .trit => 64
  | .s4 => 128
  | .s8 => 256

/-- A field as a signed number. -/
def signedField (w x : Nat) : Int := if 2 ^ (w - 1) ≤ x then (x : Int) - 2 ^ w else x

/-- The 256 weights of a row, and whether a trit pattern 0b10 was read (R226). -/
def rowWeights (f : BFmt) (bs : List Byte) : List Int × Bool :=
  let v := leNat bs
  match f with
  | .trit => let ps := fields 2 256 v; (ps.map tritValue, ps.any (· == 2))
  | .s4 => ((fields 4 256 v).map (signedField 4), false)
  | .s8 => ((fields 8 256 v).map (signedField 8), false)

/-- The planes of a row, packed two bits a digit. -/
def rowPlanes (f : BFmt) (ws : List Int) : List (BitVec 512) :=
  let ds := ws.map (ternaryDigits (bfmtPlanes f))
  (upTo (bfmtPlanes f)).map fun p => BitVec.ofNat 512 (ofFields 2 (ds.map fun d => tritPattern (d.getD p 0)))

/-- The weights of row `k` of a slot, its planes recombined (R127). -/
def BSlot.row (b : BSlot) (k : Nat) : List Int :=
  let ps := ((upTo (bfmtPlanes b.fmt)).map fun p => (fields 2 256 (sget 0 b.rows (256 * p + k)).toNat).map tritValue).reverse
  ps.foldl (fun acc d => (acc.zip d).map fun x => 3 * x.1 + x.2) (List.replicate 256 0)

/-- Load one part of a BLD: row `k` of the KR rows, which the first clears the slot for, or after them the scales (R226). -/
def State.bldPart (s : State) (c : CoreId) (f : BFmt) (slot : Fin 2) (b : Blk) (k : Nat) : State × Flags :=
  let core := s.core c
  let old := if k = 0 then ⟨f, [], []⟩ else core.bslots[slot.val]
  let put := fun (sl : BSlot) => s.setCore c { core with bslots := core.bslots.set slot.val sl }
  if k < b.p3.bits 8 0 then
    let (ws, trb) := rowWeights f (lmRead s c (b.p0.toNat + k * b.p2.toNat) (bfmtRow f))
    (put { old with rows := ((upTo (bfmtPlanes f)).zip (rowPlanes f ws)).foldl (fun m x => sset 0 m (256 * x.1 + k) x.2) old.rows },
      { trb := trb })
  else
    let scs := if b.p1 = allOnes64 then List.replicate 1024 0x7F00 else fields 16 1024 (leNat (lmRead s c b.p1.toNat 2048))
    (put { old with scales := ((upTo 1024).zip scs).foldr (fun x m => sset 0 m x.1 (BitVec.ofNat 16 x.2)) [] },
      { scb := scs.any fun x => x / 256 == 255 })

/-! ### Segments (R131, R132) -/

/-- The A vector at an offset: 256 s8 or s16 elements (R233). -/
def State.aVec (s : State) (c : CoreId) (a16 : Bool) (off : Nat) : List Int :=
  if a16 then (fields 16 256 (leNat (lmRead s c off 512))).map (signedField 16)
  else (fields 8 256 (leNat (lmRead s c off 256))).map (signedField 8)

/-- Add a multiple of a row to partial sums. -/
def addScaled (acc : List Int) (a : Int) (row : List Int) : List Int := (acc.zip row).map fun x => x.1 + a * x.2

/-- The exact dot product. -/
def dot (a b : List Int) : Int := ((a.zip b).map fun x => x.1 * x.2).foldl (· + ·) 0

/-- The 64 entries of a segment. -/
def segOf {α : Type} (seg : Nat) (l : List α) : List α := (l.drop (64 * seg)).take 64

/-- The partials of a segment for each output (R234). -/
def partials (tr : Bool) (rows : List (List Int)) (a : List Int) (seg : Nat) : List Int :=
  if tr then rows.map fun r => dot (segOf seg a) (segOf seg r)
  else ((segOf seg a).zip (segOf seg rows)).foldl (fun acc x => addScaled acc x.1 x.2) (List.replicate 256 0)

/-- An exact product p × sA × sB as a value: a zero scale makes it +0, an invalid one NaN (R128, R131). -/
def scaled (p : Int) (sa sb : Nat) : FV :=
  if sa / 256 = 255 ∨ sb / 256 = 255 then .nan true
  else if sa / 256 = 0 ∨ sb / 256 = 0 ∨ p = 0 then .zero false
  else
    let (m, e) := sc16Val sa
    let (n, g) := sc16Val sb
    .fin (p < 0) (p.natAbs * m * n) (e + g)

/-- One addition into an element (R131). -/
def addSegment (f32 : Bool) (acc : Nat) (p : Int) (sa sb : Nat) : LaneRes :=
  if f32 then
    let r := fmtF32.addV 0 (fmtF32.decode acc) (scaled p sa sb)
    (r.bits, { r.flags with scb := sa / 256 == 255 || sb / 256 == 255 })
  else
    let t := signedField 32 acc + p
    let v := max (-(2 ^ 31)) (min (2 ^ 31 - 1) t)
    ((v % 2 ^ 32).toNat, { acs := v != t })

/-- Add the four segments of one A vector to a row (R131 to R133). -/
def addRow (f32 : Bool) (sas : List Nat) (scale : Nat → Nat → Nat) (parts : List (List Int)) (row : List Nat) :
    List Nat × Flags :=
  (upTo 4).foldl (fun r seg =>
    let (vs, g) := r
    let (ws, h) := mapLanes3 (fun acc o _ =>
      addSegment f32 acc ((parts.getD seg []).getD o 0) (sas.getD seg 0) (scale seg o))
      (List.replicate vs.length true) vs (upTo vs.length) vs
    (ws, g.or h)) (row, Flags.none)

/-! ### Nests (R230 to R236) -/

/-- The fields of a step: nest-wide, or from a format-table entry (R231, R235, R236). -/
structure NestFields where
  acc  : Nat
  a16  : Bool
  rs   : Bool
  bsel : Nat
  nosc : Bool
deriving DecidableEq, Repr

/-- The nest-wide fields of P3 (R231). -/
def wideFields (w : Word) : NestFields := ⟨w.bits 20 18, w.bit 22, w.bit 23, w.bits 25 25, w.bit 26⟩

/-- The fields of a format-table entry (R235). -/
def ftabFields (w : Word) : NestFields := ⟨w.bits 2 0, w.bit 4, w.bit 5, w.bits 3 3, w.bit 6⟩

def NestSet.ft (n : NestSet) : Bool := n.wide.bit 24
def NestSet.tr (n : NestSet) : Bool := n.wide.bit 21
def NestSet.sc (n : NestSet) : Nat := n.wide.bits 47 27
def NestSet.base (n : NestSet) : Int := n.abase.toInt

/-- The iterations of a level: absent levels run once (R230). -/
def NestLevel.times (l : NestLevel) : Nat := max 1 (l.n.toNat % 2 ^ 32)

/-- The iterations of a nest. -/
def NestSet.steps (n : NestSet) : Nat := (n.levels.toList.map NestLevel.times).foldl (· * ·) 1

/-- The counters of step `k`, i0 fastest (R233). -/
def counters : List Nat → Nat → List Nat
  | [], _ => []
  | t :: ts, k => k % t :: counters ts (k / t)

def NestSet.counters (n : NestSet) (k : Nat) : List Nat :=
  Machine.counters (n.levels.toList.map NestLevel.times) k

/-- The fields of a step by i5. -/
def Nest.fields (n : Nest) (i5 : Nat) : NestFields :=
  if n.set.ft then ftabFields (vget n.ftab (i5 % 16) 0) else wideFields n.set.wide

/-- Σ i_L × stride_L. -/
def linear (is : List Nat) (ss : List Int) : Int := ((is.zip ss).map fun x => (x.1 : Int) * x.2).foldl (· + ·) 0

def NestSet.astrs (n : NestSet) : List Int := n.levels.toList.map fun l => l.astr.toInt
def NestSet.rstrs (n : NestSet) : List Int := n.levels.toList.map fun l => l.rstr.toInt

/-- The ratio R (R233). -/
def NestFields.ratio (f : NestFields) : Nat := if f.a16 then 64 else 32

/-- Bytes of an A vector. -/
def NestFields.aLen (f : NestFields) : Nat := if f.a16 then 512 else 256


/-- A step: its fields, A address, row, slot and scale address. -/
structure NestStep where
  f    : NestFields
  a    : Int
  r    : Int
  slot : Nat
  sc   : Int
deriving DecidableEq, Repr

/-- Step `k` of a nest (R233). -/
def Nest.step (n : Nest) (k : Nat) : NestStep :=
  let is := n.set.counters k
  let f := n.fields (is.getD 5 0)
  let d := linear is n.set.astrs
  let tog := ((is.zip (n.set.levels.toList.map (·.btog))).map fun x => if x.2 then x.1 else 0).foldl (· + ·) 0
  ⟨f, n.set.base + d, linear is n.set.rstrs, (f.bsel + tog) % 2, n.set.sc + d.fdiv f.ratio⟩

/-- The classes of steps with the same fields: the fields with the least and the greatest i5. -/
def Nest.classes (n : Nest) : List (NestFields × Nat × Nat) :=
  let t5 := (n.set.levels[5]).times
  if n.set.ft then
    (upTo (min 16 t5)).map fun e => (ftabFields (vget n.ftab e 0), e, e + 16 * ((t5 - 1 - e) / 16))
  else [(wideFields n.set.wide, 0, t5 - 1)]

/-- The least and the greatest of Σ i_L × stride_L over the levels below 5 and i5 between two values (R232). -/
def extremes (ls : List (Nat × Int)) (lo5 hi5 : Nat) (s5 : Int) : Int × Int :=
  ls.foldl (fun m x =>
    let v := ((x.1 : Int) - 1) * x.2
    (m.1 + min 0 v, m.2 + max 0 v)) (min (lo5 * s5) (hi5 * s5), max (lo5 * s5) (hi5 * s5))

def NestSet.aRange (n : NestSet) (lo hi : Nat) : Int × Int :=
  extremes (((n.levels.toList.take 5).map NestLevel.times).zip (n.astrs.take 5)) lo hi (n.astrs.getD 5 0)

def NestSet.rRange (n : NestSet) (lo hi : Nat) : Int × Int :=
  extremes (((n.levels.toList.take 5).map NestLevel.times).zip (n.rstrs.take 5)) lo hi (n.rstrs.getD 5 0)

/-- The first of the steps from `k` on that satisfies a test, within the fuel. -/
def firstStep (f : Nat → Bool) : Nat → Nat → Option Nat
  | 0, _ => none
  | fuel + 1, k => if f k then some k else firstStep f fuel (k + 1)

/-- The bytes of a step that lie in the pool: its A vector's or its scales'. -/
def Nest.inPool (n : Nest) (pool : LocalRange) (k : Nat) : Bool :=
  let st := n.step k
  overlap st.a.toNat st.f.aLen pool.lo pool.len || (!st.f.nosc && overlap st.sc.toNat 8 pool.lo pool.len)

/-- A scale address of a class of steps that is not a multiple of 8, if one is: of its first step, whose i5 is given, or of the step
that a moving level leads to from there. By format-table entries i5 moves by 16 (R232, R233, R235). -/
def Nest.badScale (n : Nest) (ratio : Int) (lo5 : Nat) : Option Int :=
  let first := (n.set.sc : Int) + ((lo5 : Int) * n.set.astrs.getD 5 0).fdiv ratio
  let moves := (((n.set.levels.toList.zip n.set.astrs).take (if n.set.ft then 5 else 6)).filter fun x => decide (1 < x.1.times)).map Prod.snd
  if first % 8 ≠ 0 then some first else (moves.find? fun a => a / ratio % 8 != 0).map fun a => first + a / ratio

/-- The checks of NGO (R232). -/
def State.checkNest (s : State) (n : Nest) : Except Stop Unit := do
  let cs := n.classes
  let tile := fun (f : NestFields) => vget n.tiles f.acc Tile.unset
  if n.set.levels.toList.any fun l => decide (2 ^ 32 ≤ l.n.toNat) then .error (s.wordTrap 0x14)
  if cs.any fun c => (tile c.1).rows == 0 then .error (s.wordTrap 0x13)
  if cs.any fun c => c.1.rs && !(tile c.1).f32 then .error (s.wordTrap 0x14)
  if cs.any fun c =>
      let r := n.set.rRange c.2.1 c.2.2
      decide (r.1 < 0) || decide (((tile c.1).rows : Int) ≤ r.2) then .error (s.wordTrap 0x14)
  if cs.any fun c => !c.1.nosc && n.set.astrs.any fun a => a % c.1.ratio != 0 then .error (s.wordTrap 0x14)
  let trap := fun (c : Nat) (a : Int) => Stop.trap ⟨c, BitVec.ofInt 64 a, accessDetail s.opcode 0 false true false false⟩
  -- alignment of A vectors and of scales
  let moving := (n.set.levels.toList.zip n.set.astrs).filter fun x => decide (1 < x.1.times)
  if n.set.base % 8 ≠ 0 then .error (trap 0x05 n.set.base)
  match moving.find? fun x => x.2 % 8 != 0 with
  | some x => .error (trap 0x05 (n.set.base + x.2))
  | none => pure ()
  match cs.findSome? fun c => if c.1.nosc then none else n.badScale c.1.ratio c.2.1 with
  | some a => .error (trap 0x05 a)
  | none => pure ()
  -- bounds
  let lim : Int := 0x200000
  match cs.find? fun c =>
      let r := n.set.aRange c.2.1 c.2.2
      decide (n.set.base + r.1 < 0) || decide (lim < n.set.base + r.2 + c.1.aLen) with
  | some c =>
    let r := n.set.aRange c.2.1 c.2.2
    .error (trap 0x06 (if n.set.base + r.1 < 0 then n.set.base + r.1 else n.set.base + r.2))
  | none => pure ()
  match cs.find? fun c =>
      let r := n.set.aRange c.2.1 c.2.2
      !c.1.nosc && (decide ((n.set.sc : Int) + r.1.fdiv c.1.ratio < 0) || decide (lim < n.set.sc + r.2.fdiv c.1.ratio + 8)) with
  | some c =>
    let r := n.set.aRange c.2.1 c.2.2
    let lo := (n.set.sc : Int) + r.1.fdiv c.1.ratio
    .error (trap 0x06 (if lo < 0 then lo else n.set.sc + r.2.fdiv c.1.ratio))
  | none => pure ()
  -- the pool
  let pool := s.poolOf s.cur.core
  if pool.len ≠ 0 then
    match firstStep (n.inPool pool) n.set.steps 0 with
    | some k => .error (trap 0x07 (n.step k).a)
    | none => pure ()

/-- The rows that a nest has rescaled, and its flags so far. -/
structure NestRun where
  s     : State
  done  : List (Nat × Nat)
  flags : Flags

/-- One step of a nest (R233). `rows` holds the weights of the two slots. -/
def NestRun.step (x : NestRun) (c : CoreId) (n : Nest) (rows : Nat → List (List Int)) (k : Nat) : NestRun :=
  let st := n.step k
  let t := vget n.tiles st.f.acc Tile.unset
  let r := st.r.toNat
  let row := x.s.tileRow c t r
  let again := x.done.contains (st.f.acc, r)
  let (row, g) :=
    if st.f.rs && !again then
      mapLanes (fun o => (fmtF32.mul 0 o (x.s.side c (t.base + r) .c).toNat).lane) (List.replicate row.length true) row
    else (row, Flags.none)
  let a := x.s.aVec c st.f.a16 st.a.toNat
  let sas := if !st.f.nosc then fields 16 4 (leNat (lmRead x.s c st.sc.toNat 8)) else List.replicate 4 0x7F00
  let slot := vget (x.s.core c).bslots st.slot BSlot.zero
  let parts := (upTo 4).map (partials n.set.tr (rows st.slot) a)
  let (row, h) := addRow t.f32 sas (fun seg o => (sget 0 slot.scales (256 * seg + o)).toNat) parts row
  ⟨x.s.setTileRow c t r row, if st.f.rs && !again then (st.f.acc, r) :: x.done else x.done, (x.flags.or g).or h⟩

/-- The steps of a nest in order (R132). -/
def NestRun.steps (c : CoreId) (n : Nest) (rows : Nat → List (List Int)) : Nat → Nat → NestRun → NestRun
  | 0, _, x => x
  | fuel + 1, k, x => NestRun.steps c n rows fuel (k + 1) (x.step c n rows k)

/-- Run `fuel` steps of a nest from step `k` on. -/
def State.runNest (s : State) (c : CoreId) (n : Nest) (k fuel : Nat) (again : List (Nat × Nat)) : NestRun :=
  let w0 := (upTo 256).map (vget (s.core c).bslots 0 BSlot.zero).row
  let w1 := (upTo 256).map (vget (s.core c).bslots 1 BSlot.zero).row
  NestRun.steps c n (fun i => if i = 0 then w0 else w1) fuel k ⟨s, again, Flags.none⟩

/-! ### Drains (R237 to R239) -/

def adrnOut (b : Blk) : Nat := b.p3.bits 2 0
def adrnRelu (b : Blk) : Bool := b.p3.bits 4 3 == 1
def adrnSmx (b : Blk) : Bool := b.p3.bit 5
def adrnNrm (b : Blk) : Bool := b.p3.bit 6
def adrnOsc (b : Blk) : Nat := b.p3.bits 23 8

/-- Bytes of an output element (R237). -/
def adrnSize (b : Blk) : Nat :=
  if adrnSmx b then 1
  else match adrnOut b with
    | 0 => 4 | 1 => 2 | 2 => 2 | 3 => 1 | _ => 4

/-- Bytes between output rows. -/
def adrnStr (t : Tile) (b : Blk) : Nat := if b.p2 = allOnes64 then t.cols * adrnSize b else b.p2.toNat

/-- The exact sum of two values; an invalid one is a signalling NaN; a zero sum is +0 but for −0 + −0. -/
def sumV (a b : FV) : FV :=
  match a, b with
  | .nan s, .nan t => .nan (s || t)
  | .nan s, _ => .nan s
  | _, .nan t => .nan t
  | .inf m, .inf n => if m = n then .inf m else .nan true
  | .inf m, _ => .inf m
  | _, .inf n => .inf n
  | .zero m, .zero n => .zero (m && n)
  | .zero _, y => y
  | x, .zero _ => x
  | x, y =>
    let e := min x.low y.low
    let v := x.at e + y.at e
    if v = 0 then .zero false else .fin (v < 0) v.natAbs e

/-- ScaleVal as a value (R128). -/
def scaleV (s : Nat) : FV :=
  if s / 256 = 255 then .nan true
  else if s / 256 = 0 then .zero false
  else .fin false (sc16Val s).1 (sc16Val s).2

/-- An element as a value. -/
def elemV (f32 : Bool) (v : Nat) : FV :=
  if f32 then fmtF32.decode v
  else
    let i := signedField 32 v
    if i = 0 then .zero false else .fin (i < 0) i.natAbs 0

/-- An integer output (R238): a NaN gives 0 and NV, a clamp sets VSAT; NX says that the rounding was inexact, whether the integer is
then clamped or not (R123, log 58). -/
def intOut (w : Nat) (v : FV) : LaneRes :=
  let lo : Int := -(2 ^ (w - 1))
  let hi : Int := 2 ^ (w - 1) - 1
  let put := fun (i : Int) => (i % 2 ^ w).toNat
  match v with
  | .nan _ => (0, { nv := true })
  | .inf n => (put (if n then lo else hi), { vsat := true })
  | .zero _ => plain 0
  | .fin n m e =>
    let (r, x) := roundInt 0 n m e
    let i : Int := if n then -(r : Int) else r
    if i < lo then (put lo, { vsat := true, nx := x }) else if hi < i then (put hi, { vsat := true, nx := x }) else (put i, { nx := x })

/-- The value before rounding of an element of a drain: x × OSC + bias (R238). -/
def drainV (x : FV) (osc : Nat) (bias : Option Nat) : FV :=
  sumV (mulV x (scaleV osc)) (match bias with | some b => fmtF32.decode b | none => .zero false)

/-- The flags that an invalid OSC or a NaN bias adds (R238). -/
def drainFlags (osc : Nat) (bias : Option Nat) : Flags :=
  { nv := decide (osc / 256 = 255) || (match bias with | some b => (fmtF32.decode b).isNan | none => false)
    scb := decide (osc / 256 = 255) }

/-- One element of a drain without SMX (R238). -/
def drainElem (b : Blk) (f32 : Bool) (l : Nat) (v : Nat) (bias : Option Nat) : LaneRes :=
  let n := fmtF32.div 0 v l
  let x := if adrnNrm b then fmtF32.decode n.bits else elemV f32 v
  let g := if adrnNrm b then n.flags else Flags.none
  let y := drainV x (adrnOsc b) bias
  let y := match y with
    | .inf true => if adrnRelu b then .zero false else y
    | .fin true _ _ => if adrnRelu b then .zero false else y
    | y => y
  let (r, h) := match adrnOut b with
    | 0 => (fmtF32.ofV 0 y).lane
    | 1 => (fmtF16.ofV 0 y).lane
    | 2 => (fmtBf16.ofV 0 y).lane
    | 3 => intOut 8 y
    | _ => intOut 32 y
  (r, (g.or h).or (drainFlags (adrnOsc b) bias))

/-- The biases of a drain. -/
def State.drainBias (s : State) (c : CoreId) (t : Tile) (b : Blk) : List (Option Nat) :=
  if b.p1 = allOnes64 then List.replicate t.cols none
  else ((fields 32 t.cols (leNat (lmRead s c b.p1.toNat (4 * t.cols)))).map some)

/-- One row of a drain without SMX. -/
def State.drainRow (s : State) (c : CoreId) (t : Tile) (b : Blk) (r : Nat) : List Byte × Flags :=
  let l := (s.side c (t.base + r) .l).toNat
  ((s.tileRow c t r).zip (s.drainBias c t b)).foldr (fun x acc =>
    let (v, g) := drainElem b t.f32 l x.1 x.2
    (leBytes (adrnSize b) v ++ acc.1, g.or acc.2)) ([], Flags.none)

/-- The element S_o of a softmax drain (R239). -/
def scoreOf (b : Blk) (v : Nat) (bias : Option Nat) : LaneRes :=
  let r := fmtF32.ofV 0 (drainV (fmtF32.decode v) (adrnOsc b) bias)
  (r.bits, r.flags.or (drainFlags (adrnOsc b) bias))

/-- RN(Exp2(RN(x − m))) with its flags (R138). -/
def expDiff (x m : Nat) : LaneRes :=
  let d := fmtF32.sub 0 x m
  let e := fmtF32.exp2 0 d.bits
  (e.bits, d.flags.or e.flags)

/-- The greatest of some scores that are no NaN, or −∞ (R138). Of zeros of both signs, which R138 does not order, +0 is the greater, as
in R108 (log 57). -/
def greatestScore (ls : List Nat) : Nat :=
  ls.foldl (fun m x => if (fmtF32.decode x).isNan then m else fmtF32.pick false m x) (fmtF32.signBit true + fmtF32.infBits)

/-- q of R139; NX says that P × 128 was rounded (R123, log 58). -/
def softQ (p : Nat) : LaneRes :=
  match fmtF32.decode p with
  | .nan _ => (0, { nv := true })
  | .fin false m e => (min 127 (roundInt 0 false m (e + 7)).1, { nx := (roundInt 0 false m (e + 7)).2 })
  | .inf false => plain 127
  | _ => plain 0

/-- One row of a softmax drain (R138, R239): its bytes, the side registers m, l and c, and the flags. An m that SMXW made a NaN is
ignored in max(m, mx), which R138 does not say (log 57). -/
def softRow (ss : List Nat) (m l : Nat) : List Byte × (Nat × Nat × Nat) × Flags :=
  let ninf := fmtF32.signBit true + fmtF32.infBits
  let mn := fmtF32.pick false m (greatestScore ss)
  let one := 0x3F800000
  let (c, gc) : LaneRes := if mn = ninf then plain one else expDiff m mn
  let (ps, gp) := mapLanes (fun x => if mn = ninf then plain 0 else expDiff x mn) (List.replicate ss.length true) ss
  let t := fmtF32.mul 0 l c
  let (sum, gs) := ps.foldl (fun (a : LaneRes) p =>
    let r := fmtF32.add 0 a.1 p
    (r.bits, a.2.or r.flags)) (t.bits, t.flags)
  let (qs, gq) := mapLanes softQ (List.replicate ps.length true) ps
  (qs.map fun q => BitVec.ofNat 8 q, (mn, sum, c), ((gc.or gp).or gs).or gq)

/-- Drain one row: the state after it and the flags. -/
def State.drainOne (s : State) (c : CoreId) (t : Tile) (b : Blk) (r : Nat) : State × Flags :=
  let off := b.p0.toNat + r * adrnStr t b
  if adrnSmx b then
    let p := t.base + r
    let (ss, g) := mapLanes2 (fun v i => scoreOf b v ((s.drainBias c t b).getD i none)) (List.replicate t.cols true)
      (s.tileRow c t r) (upTo t.cols)
    let (bs, (m, l, cc), h) := softRow ss (s.side c p .m).toNat (s.side c p .l).toNat
    let s := lmWrite s c off bs
    let s := ((s.setSide c p .m (BitVec.ofNat 32 m)).setSide c p .l (BitVec.ofNat 32 l)).setSide c p .c (BitVec.ofNat 32 cc)
    (s, g.or h)
  else
    let (bs, g) := s.drainRow c t b r
    (lmWrite s c off bs, g)

/-! ### Order among matrix operations (R240) -/

/-- What an operation touches: slots, accumulator words, side entries, local bytes, each read and written. -/
structure MxUse where
  slotR : List Nat := []
  slotW : List Nat := []
  accR  : List LocalRange := []
  accW  : List LocalRange := []
  sideR : List LocalRange := []
  sideW : List LocalRange := []
  lmR   : List LocalRange := []
  lmW   : List LocalRange := []
deriving DecidableEq, Repr

/-- The words of a tile, and its side entries. -/
def Tile.words (t : Tile) : LocalRange := ⟨256 * t.base, t.rows * t.cols⟩
def Tile.sides (t : Tile) : LocalRange := ⟨t.base, t.rows⟩

/-- The slots that a nest may select. -/
def Nest.slots (n : Nest) : List Nat :=
  if n.set.levels.toList.any fun l => l.btog && decide (1 < l.times) then [0, 1]
  else (n.classes.map fun c => c.1.bsel).eraseDups

/-- The local bytes that the steps of a nest read: A vectors and A scales (R233). -/
def Nest.lmReads (n : Nest) : List LocalRange :=
  (upTo n.set.steps).flatMap fun k =>
    let st := n.step k
    ⟨st.a.toNat, st.f.aLen⟩ :: if st.f.nosc then [] else [⟨st.sc.toNat, 8⟩]

/-- The tile rows of the steps of a nest, each with its tile. -/
def Nest.tileRows (n : Nest) : List (Tile × Nat) :=
  (upTo n.set.steps).map fun k =>
    let st := n.step k
    (vget n.tiles st.f.acc Tile.unset, st.r.toNat)

/-- What an operation in flight touches. ALD writes no side entry, though the table of R240 names it beside the writers of words and side
entries: R229 leaves the side entries unchanged (DEDUCED, log 60). ADRN reads side entries for NRM and SMX alone (R237, R239). -/
def MxKind.use : MxKind → MxUse
  | .bld f slot b =>
    { slotW := [slot.val]
      lmR := (upTo (b.p3.bits 8 0)).map (fun k => ⟨b.p0.toNat + k * b.p2.toNat, bfmtRow f⟩)
        ++ (if b.p1 = allOnes64 then [] else [⟨b.p1.toNat, 2048⟩]) }
  | .nest n _ =>
    let rs := n.tileRows
    let sides := rs.map fun x => ⟨x.1.base + x.2, 1⟩
    { slotR := n.slots, accW := rs.map fun x => ⟨x.1.word x.2 0, x.1.cols⟩, sideR := sides, sideW := sides, lmR := n.lmReads }
  | .adrn t b =>
    { accR := [t.words], sideR := if adrnSmx b || adrnNrm b then [t.sides] else [], sideW := if adrnSmx b then [t.sides] else []
      lmR := if b.p1 = allOnes64 then [] else [⟨b.p1.toNat, 4 * t.cols⟩]
      lmW := (upTo t.rows).map fun r => ⟨b.p0.toNat + r * adrnStr t b, t.cols * adrnSize b⟩ }
  | .ald t a => { accW := [t.words], lmR := [⟨a.toNat, 4 * (t.rows * t.cols)⟩] }

/-- Two lists of ranges share an element. -/
def rangesMeet (a b : List LocalRange) : Bool := a.any fun x => b.any fun y => overlap x.lo x.len y.lo y.len

/-- Two operations share a resource that one of them writes (R240). -/
def MxUse.clash (a b : MxUse) : Bool :=
  a.slotW.any (fun i => b.slotR.contains i || b.slotW.contains i) || b.slotW.any (fun i => a.slotR.contains i)
    || rangesMeet a.accW (b.accR ++ b.accW) || rangesMeet b.accW a.accR
    || rangesMeet a.sideW (b.sideR ++ b.sideW) || rangesMeet b.sideW a.sideR
    || rangesMeet a.lmW (b.lmR ++ b.lmW) || rangesMeet b.lmW a.lmR

/-- Operation `n` of a core's X may run: it shares nothing with an earlier one, and a nest is live. -/
def Core.mxReady (k : Core) (n : Nat) : Bool :=
  match k.x.mx[n]? with
  | none => false
  | some op =>
    (match op.kind with | .nest _ l => l | _ => true) && !(k.x.mx.take n).any fun e => e.kind.use.clash op.kind.use

/-- No operation in flight touches what an immediate one writes or reads (R229, R241). -/
def State.mxFree (s : State) (u : MxUse) : Bool := !(s.x.mx.any fun e => e.kind.use.clash u)

/-- The steps or rows of an operation, and the scales of a BLD. -/
def MxOp.parts (o : MxOp) : Nat :=
  match o.kind with
  | .bld _ _ b => b.p3.bits 8 0 + 1
  | .nest n _ => n.set.steps
  | .adrn t _ => t.rows
  | .ald t _ => t.rows

/-- Perform some parts in order, each with its flags. -/
def State.partsInOrder (f : State → Nat → State × Flags) : State → Nat → Nat → State × Word
  | s, _, 0 => (s, 0)
  | s, k, fuel + 1 =>
    let (s, g) := f s k
    let (s, w) := State.partsInOrder f s (k + 1) fuel
    (s, g.mask ||| w)

/-- One row of an ALD (R229). -/
def State.aldRow (s : State) (c : CoreId) (t : Tile) (a : Word) (r : Nat) : State :=
  s.setTileRow c t r (fields 32 t.cols (leNat (lmRead s c (a.toNat + 4 * t.cols * r) (4 * t.cols))))

/-- The next parts of an operation are performed, in order (R132, R226, R229, R237). -/
def State.mxRun (s : State) (c : CoreId) (o : MxOp) (fuel : Nat) : State × MxOp :=
  let o' := { o with done := o.done + fuel }
  let plain := fun (x : State × Word) => (x.1, { o' with flags := o.flags ||| x.2 })
  match o.kind with
  | .bld f slot b => plain (State.partsInOrder (fun s k => s.bldPart c f slot b k) s o.done fuel)
  | .nest n _ =>
    let x := s.runNest c n o.done fuel o.again
    (x.s, { o' with again := x.done, flags := o.flags ||| x.flags.mask })
  | .adrn t b => plain (State.partsInOrder (fun s r => s.drainOne c t b r) s o.done fuel)
  | .ald t a => plain (State.partsInOrder (fun s r => (s.aldRow c t a r, Flags.none)) s o.done fuel)

/-- Local memory with granules written. -/
def State.withLocal (s : State) (gs : List (Nat × List Byte)) : State :=
  { s with hm := { s.hm with lm := gs.foldl (fun m g => Memory.write m (iaOff g.1) g.2) s.hm.lm } }

/-- Replace operation `n` of a core's X. -/
def State.setMx (s : State) (c : CoreId) (n : Nat) (o : MxOp) : State :=
  let k := s.core c
  s.setCore c { k with x := { k.x with mx := k.x.mx.set n o } }

/-- The local bytes that the next part of an operation writes. -/
def MxOp.out (o : MxOp) : Option LocalRange :=
  match o.kind with
  | .adrn t b => some ⟨b.p0.toNat + o.done * adrnStr t b, t.cols * adrnSize b⟩
  | _ => none

/-- The next part of an operation is performed, with the granules that it has read ahead; what it writes to local memory is still to be
written, granule by granule (R83). -/
def State.mxOne (s : State) (c : CoreId) (o : MxOp) : State × MxOp :=
  let (t, o') := (s.withLocal o.peeked).mxRun c o 1
  let out := match o.out with
    | some r => granules r.len (lmIa c r.lo) (lmRead t c r.lo r.len)
    | none => []
  ({ t with hm := { t.hm with lm := s.hm.lm } }, { o' with peeked := [], pend := out })

/-- An operation that may run does its next step or row, and has more to do: what X and the other agents do in between falls between
the steps (R241). -/
def State.mxPart (s : State) (c : CoreId) (n : Nat) : State :=
  match (s.core c).x.mx[n]? with
  | none => s
  | some o =>
    if !(s.core c).mxReady n || !decide (o.done + 1 < o.parts) then s
    else
      let (s, o) := (s.withLocal o.pend).mxOne c o
      s.setMx c n o

/-- An operation that may run reads one granule of local memory ahead of the rest of its next step or row (R83). -/
def State.mxPeek (s : State) (c : CoreId) (n off : Nat) : State :=
  match (s.core c).x.mx[n]? with
  | none => s
  | some o =>
    let a := lmIa c (off / 8 * 8)
    if !(s.core c).mxReady n || !o.pend.isEmpty || o.peeked.any (fun g => g.1 == a) then s
    else s.setMx c n { o with peeked := o.peeked ++ [(a, lmRead s c (off / 8 * 8) 8)] }

/-- One granule that the last row of an operation writes is written (R83). -/
def State.mxPiece (s : State) (c : CoreId) (n k : Nat) : State :=
  match (s.core c).x.mx[n]? with
  | none => s
  | some o =>
    match o.pend[k]? with
    | none => s
    | some g => (s.withLocal [g]).setMx c n { o with pend := o.pend.eraseIdx k }

/-- Remove operation `n` with its flags and post its user event (R55, R56). -/
def State.mxDone (s : State) (c : CoreId) (n : Nat) (op : MxOp) (opc : Nat) (g25 : Word) : State :=
  let k := s.core c
  let q := k.seq .X
  let k := k.setSeq .X { q with fpcs := q.fpcs ||| op.flags }
  let k := { k with x := { k.x with mx := k.x.mx.eraseIdx n } }
  s.setCore c (if op.ev then k.postUser (word (opc + 2 * 256)) g25 else k)

/-! ### The instructions -/

/-- Issue a matrix operation (R33, R240, R241). -/
def State.mxIssue (s : State) (k : MxKind) (ev : Bool) : Except Stop State :=
  if 6 ≤ s.x.mx.length ∨ !s.me.quiet ∨ s.me.stores.any (fun st => iaTier st.ia == 5) then .error .hold
  else .ok (s.setX { s.x with mx := s.x.mx ++ [{ kind := k, ev := ev }] }).complete

/-- BLD (R226). -/
def execBld (f : BFmt) (ev : Bool) (slot : Fin 2) (b : Blk) (s : State) : Host.Outcome State Fault Refusal :=
  device .x s fun s => do
    let k := s.me.substBlk b
    if k.p2.toNat % 8 ≠ 0 && k.p0.toNat % 8 = 0 then .error (s.mxTrap false 0x05 k.p0.toNat)
    s.lmUses false (rowUses k.p0.toNat k.p2.toNat (k.p3.bits 8 0) (bfmtRow f) 8
      ++ (if k.p1 = allOnes64 then [] else [⟨k.p1.toNat, 2048, 8⟩]))
    s.mxIssue (.bld f slot k) ev

/-- NSET (R231). -/
def execNset (level : Fin 6) (b : Blk) (s : State) : Host.Outcome State Fault Refusal :=
  device .x s fun s =>
    let k := s.me.substBlk b
    let sh := s.x.shadow
    let sh := { sh with
      levels := sh.levels.set level.val ⟨k.p0, k.p2, k.p3.extractLsb' 0 16, k.p3.bit 16⟩
      abase := if k.p1 = allOnes64 then sh.abase else k.p1
      wide := if k.p3.bit 17 then k.p3 &&& 0xFFFFFFFC0000#64 else sh.wide }
    .ok (s.setX { s.x with shadow := sh }).complete

/-- NGO (R232): it waits while a pending set exists. -/
def execNgo (ev : Bool) (s : State) : Host.Outcome State Fault Refusal :=
  device .x s fun s => do
    let n : Nest := ⟨s.x.shadow, s.x.tiles, s.x.ftab⟩
    s.checkNest n
    if s.x.mx.any fun e => match e.kind with | .nest _ l => !l | _ => false then .error .hold
    s.mxIssue (.nest n false) ev

/-- ACFG (R228): .keep needs a configured tile of the same type. -/
def execAcfg (f32 keep : Bool) (d : Fin 8) (base : BitVec 10) (rows : BitVec 11) (cols : BitVec 9) (s : State) :
    Host.Outcome State Fault Refusal :=
  device .x s fun s => do
    let t : Tile := ⟨base.toNat, rows.toNat, cols.toNat, f32⟩
    let old := s.x.tiles[d.val]
    if keep && (old.rows == 0 || old.f32 != f32) then .error (s.wordTrap 0x13)
    if !keep && !s.mxFree { accW := [t.words], sideW := [t.sides] } then .error .hold
    let s := s.setX { s.x with tiles := s.x.tiles.set d.val t }
    pure (if keep then s else s.clearTile s.cur.core t).complete

/-- A configured tile, or cause 0x13. -/
def State.tile (s : State) (d : Fin 8) : Except Stop Tile :=
  let t := s.x.tiles[d.val]
  if t.rows = 0 then .error (s.wordTrap 0x13) else .ok t

/-- AZERO (R229). -/
def execAzero (d : Fin 8) (s : State) : Host.Outcome State Fault Refusal :=
  device .x s fun s => do
    let t ← s.tile d
    if !s.mxFree { accW := [t.words], sideW := [t.sides] } then .error .hold
    pure (s.clearTile s.cur.core t).complete

/-- ALD (R229). -/
def execAld (ev : Bool) (d : Fin 8) (a : SReg) (k : Off) (s : State) : Host.Outcome State Fault Refusal :=
  device .x s fun s => do
    let (x, s) ← s.readS a
    let o := addrOf x k
    let t ← s.tile d
    s.lmUses false [⟨o, 4 * (t.rows * t.cols), 8⟩]
    s.mxIssue (.ald t (word o)) ev

/-- SMXR (R229). -/
def execSmxr (r : SideReg) (d : SReg) (a : Fin 8) (b : SReg) (s : State) : Host.Outcome State Fault Refusal :=
  device .x s fun s => do
    let (x, s) ← s.readS b
    let t ← s.tile a
    if t.rows ≤ x.toNat then .error (s.wordTrap 0x14)
    let p := t.base + x.toNat
    if !s.mxFree { sideR := [⟨p, 1⟩] } then .error .hold
    let s ← s.writeS d ((s.side s.cur.core p r).setWidth 64)
    pure s.complete

/-- SMXW (R229). -/
def execSmxw (r : SideReg) (d : Fin 8) (a b : SReg) (s : State) : Host.Outcome State Fault Refusal :=
  device .x s fun s => do
    let (v, s) ← s.readS a
    let (x, s) ← s.readS b
    let t ← s.tile d
    if t.rows ≤ x.toNat then .error (s.wordTrap 0x14)
    let p := t.base + x.toNat
    if !s.mxFree { sideW := [⟨p, 1⟩] } then .error .hold
    pure (s.setSide s.cur.core p r (v.setWidth 32)).complete

/-- FTSET (R235). -/
def execFtset (i : Fin 16) (a : SReg) (s : State) : Host.Outcome State Fault Refusal :=
  device .x s fun s => do
    let (v, s) ← s.readS a
    if v.bits 63 7 ≠ 0 then .error (s.wordTrap 0x14)
    pure (s.setX { s.x with ftab := s.x.ftab.set i.val v }).complete

/-- ADRN (R237). -/
def execAdrn (ev : Bool) (a : Fin 8) (b : Blk) (s : State) : Host.Outcome State Fault Refusal :=
  device .x s fun s => do
    let k := s.me.substBlk b
    let t ← s.tile a
    if (adrnSmx k || adrnNrm k) && !t.f32 then .error (s.wordTrap 0x14)
    let sz := adrnSize k
    if adrnStr t k % sz ≠ 0 && k.p0.toNat % sz = 0 then .error (s.mxTrap true 0x05 k.p0.toNat)
    s.lmUses true (rowUses k.p0.toNat (adrnStr t k) t.rows (t.cols * sz) sz
      ++ (if k.p1 = allOnes64 then [] else [⟨k.p1.toNat, 4 * t.cols, 4⟩]))
    s.mxIssue (.adrn t { k with p2 := word (adrnStr t k) }) ev

/-! ### The events -/

/-- NEST_BECOMES_LIVE (R232): the pending set becomes live when no nest is live. -/
def execNestBecomesLive (core : CoreId) (s : State) : Host.Outcome State Fault Refusal :=
  let k := s.core core
  if k.x.mx.any fun e => match e.kind with | .nest _ l => l | _ => false then .next s
  else .next (s.setCore core { k with x := { k.x with mx := k.x.mx.map fun e =>
    match e.kind with | .nest n _ => { e with kind := .nest n true } | _ => e } })

/-- The place of the live nest. -/
def Core.liveNest (k : Core) : Option (Nat × MxOp × Nest) :=
  ((upTo k.x.mx.length).zip k.x.mx).findSome? fun x =>
    match x.2.kind with | .nest n true => some (x.1, x.2, n) | _ => none

/-- What an operation has left to do is done: a part for which it has read ahead is performed with what it has read. -/
def State.mxRest (s : State) (c : CoreId) (o : MxOp) : State × MxOp :=
  let s := if o.pend.isEmpty then s else s.withLocal o.pend
  if o.peeked.isEmpty || o.parts ≤ o.done then s.mxRun c o (o.parts - o.done)
  else
    let (s, o) := s.mxOne c o
    (s.withLocal o.pend).mxRun c o (o.parts - o.done)

/-- Operation `n` of a core, when it may run, performs what it has left to do and completes. -/
def State.mxFinish (s : State) (c : CoreId) (n : Nat) (o : MxOp) (opc : Nat) (g25 : Word) : State :=
  if !(s.core c).mxReady n then s
  else
    let (s, o) := s.mxRest c o
    s.mxDone c n o opc g25

/-- NEST_COMPLETE (R233): the live nest performs its steps. -/
def execNestComplete (core : CoreId) (s : State) : Host.Outcome State Fault Refusal :=
  match (s.core core).liveNest with
  | none => .next s
  | some (i, op, n) => .next (s.mxFinish core i op 0xA2 n.set.abase)

/-- BLD_COMPLETE (R226). -/
def execBldComplete (core : CoreId) (n : Nat) (s : State) : Host.Outcome State Fault Refusal :=
  match (s.core core).x.mx[n]? with
  | none => .next s
  | some o =>
    match o.kind with
    | .bld _ _ b => .next (s.mxFinish core n o 0xA0 b.p0)
    | _ => .next s

/-- ADRN_COMPLETE (R237 to R239). -/
def execAdrnComplete (core : CoreId) (n : Nat) (s : State) : Host.Outcome State Fault Refusal :=
  match (s.core core).x.mx[n]? with
  | none => .next s
  | some o =>
    match o.kind with
    | .adrn _ b => .next (s.mxFinish core n o 0xA5 b.p0)
    | _ => .next s

/-- ALD_COMPLETE (R229). -/
def execAldComplete (core : CoreId) (n : Nat) (s : State) : Host.Outcome State Fault Refusal :=
  match (s.core core).x.mx[n]? with
  | none => .next s
  | some o =>
    match o.kind with
    | .ald _ a => .next (s.mxFinish core n o 0xA9 a)
    | _ => .next s

end Sys2Proof.Machine
end

