-- ==== Sys2Proof/Machine/Engine.lean ====
section
/-! DEFINITION. What all engine commands share (R243 to R248, R268, R327): the ranges checked at issue, the command with its
progress record, the accesses of an engine, completion and the stop at a home fault. -/

namespace Sys2Proof.Machine

/-! ### Ranges known at issue (R244, R333) -/

/-- A range of a command: its space, address, bytes, the alignment of its address, and whether it is written. `peer` is set
for the ranges that may lie in tier 7 and must name a stepped region (R267). -/
structure EUse where
  lm    : Bool
  addr  : Nat
  n     : Nat
  align : Nat
  wr    : Bool
  peer  : Bool := false
deriving DecidableEq, Repr

/-- The place of a range, a local offset or an IA, or the cause that refuses it (R244, R267). An empty range has place 0. -/
def State.usePlace (s : State) (u : EUse) : Except Nat Nat :=
  if u.n = 0 then .ok 0
  else if u.lm then (s.checkLocal s.cur.core u.addr u.n).map fun _ => u.addr
  else
    match translate s.here.partNo s.me.rng u.addr u.n (if u.wr then .wr else .rd) with
    | .error e => .error e
    | .ok t =>
      match iaTier t.ia with
      | 5 => if !u.peer && s.windowRange s.cur.core t.ia u.n then .ok t.ia else .error 0x07
      | 6 => .error 0x07
      | 7 => if u.peer then .ok t.ia else .error 0x07
      | _ => if u.peer && !s.isStepped t.ia then .error 0x07 else .ok t.ia

/-- The trap of a range. -/
def State.useTrap (s : State) (u : EUse) (cause : Nat) : Stop :=
  .trap ⟨cause, word u.addr, accessDetail s.opcode 0 false u.lm u.wr false⟩

/-- The range of lowest address among some. -/
def lowestUse : List EUse → Option EUse
  | [] => none
  | u :: t =>
    match lowestUse t with
    | none => some u
    | some v => if v.addr < u.addr then some v else some u

/-- The lowest address of a range that fails a check (R333): of a local range the first byte that lies outside local memory or
in the pool, of a global one its first, since one range register covers all of it or none (R244). -/
def State.lowestFail (s : State) (cause : Nat) (u : EUse) : Nat :=
  if !u.lm then u.addr
  else if cause = 0x06 then max u.addr (2 ^ 21)
  else max u.addr (s.poolOf s.cur.core).lo

/-- The ranges that a cause refuses, each from its lowest address that fails. -/
def State.refusedBy (s : State) (cause : Nat) (us : List EUse) : List EUse :=
  (us.filter fun u => match s.usePlace u with | .error e => e == cause | .ok _ => false).map fun u =>
    { u with addr := s.lowestFail cause u }

/-- Alignment, then misses, then permissions, each over all ranges; the lowest address that fails is reported (R333). -/
def State.useRanges (s : State) (us : List EUse) : Except Stop (List Nat) :=
  match lowestUse (us.filter fun u => u.addr % u.align != 0) with
  | some u => .error (s.useTrap u 0x05)
  | none =>
    match lowestUse (s.refusedBy 0x06 us) with
    | some u => .error (s.useTrap u 0x06)
    | none =>
      match lowestUse (s.refusedBy 0x07 us) with
      | some u => .error (s.useTrap u 0x07)
      | none => .ok (us.map fun u => match s.usePlace u with | .ok a => a | .error _ => 0)

/-- The local ranges among some that are read, and those that are written. -/
def localReads (us : List EUse) : List LocalRange := (us.filter fun u => u.lm && !u.wr && u.n != 0).map fun u => ⟨u.addr, u.n⟩
def localWrites (us : List EUse) : List LocalRange := (us.filter fun u => u.lm && u.wr && u.n != 0).map fun u => ⟨u.addr, u.n⟩

/-! ### A command from its issue (R245, R247) -/

/-- A command as its instruction makes it, before it enters its class. -/
def State.newCmd (s : State) (ev : Bool) (b : Blk) : Cmd where
  stamp := s.stamp
  op := BitVec.ofNat 8 s.opcode
  ev := ev
  blk := b
  done := 0
  stat := 0
  aux := 0
  off := 0
  rng := s.me.rng
  depth := s.depthOf s.cur.core
  ias := []
  record := []
  table := none
  reads := []
  writes := []
  held := []
  state := .running
  resumed := false
  waits := s.covered s.cur.core s.cur.sq .dev
  stepOf := none
  gid := 0
  key0 := 0
  sn0 := 0
  elems := 0
  sent := []
  peeked := []
  pend := []

/-- Issue a command (R33, R95, R402): it enters its class when that has room and the sequencer's loads are performed. The
stores that the sequencer sees are performed before the command reads. -/
def State.issueCmd (s : State) (x : Cmd) : Except Stop State :=
  let n := if isRemote x.op then s.me.rmCount else s.me.cpCount
  if 14 ≤ n ∨ !s.me.loaded then .error .hold
  else .ok (s.setMe { s.me with cmds := s.me.cmds ++ [x] }).tick.complete

/-- An input read at issue waits for the earlier commands of its sequencer that write it, and for its earlier stores to it (R85,
R245). -/
def State.settled (s : State) (off n : Nat) : Bool :=
  !(s.me.cmds.any fun e => e.writes.any fun r => overlap r.lo r.len off n)
    && !s.loadHeld s.cur.core s.cur.sq s.stamp (.lm s.cur.core off) n

/-- A store or an atomic that the sequencer sees to some global bytes has not been performed at its home (R87, R95). -/
def State.seenTo (s : State) (ia n : Nat) : Bool :=
  ((s.seenStores s.cur.core s.cur.sq).any fun x => x.2.2.meets ia n)
    || s.me.atoms.any fun a => a.place.meets (opBytes a.w8) (.home ia 0) n

/-- Local bytes that a command takes at issue, as local memory holds them. -/
def State.issueBytes (s : State) (off n : Nat) : List Byte := lmRead s s.cur.core off n

/-- A word of bytes. -/
def wordAt (bs : List Byte) (off n : Nat) : Nat := leNat ((bs.drop off).take n)

/-- Some of a command's ranges share a byte with ranges of another. -/
def Cmd.clash (a b : Cmd) : Bool :=
  rangesMeet a.writes (b.reads ++ b.writes) || rangesMeet b.writes a.reads

/-- The command of a sequencer at a place, when it may run: it is not stopped, what it waits for has been performed, and no
earlier command shares local bytes with it that one of them writes, and CTXSV or CTXLD does not hold it (R34, R95, R342). -/
def State.readyCmd (s : State) (c : CoreId) (q : SeqId) (i : Nat) : Option Cmd :=
  let cs := (s.seq c q).cmds
  match cs[i]? with
  | none => none
  | some x =>
    if x.state = .running && x.stat = 0 && (isRemote x.op || !(s.core c).c.engStop) && x.waits.all (s.waitMet c) && !((cs.take i).any fun e => e.clash x) then some x
    else none

/-- Replace a command by its stamp. -/
def State.putCmd (s : State) (c : CoreId) (q : SeqId) (x : Cmd) : State :=
  let k := s.seq c q
  s.setSeq c q { k with cmds := k.cmds.map fun e => if e.stamp = x.stamp then x else e }

/-- A command of a sequencer by its stamp. -/
def Seq.cmd? (k : Seq) (stamp : Nat) : Option Cmd := k.cmds.find? fun e => e.stamp = stamp

/-- A command completes (R55, R245, R246): it leaves its class, its status is kept for WAITC, and its user event is posted. -/
def State.endCmd (s : State) (c : CoreId) (q : SeqId) (x : Cmd) : State :=
  let k := s.seq c q
  let k := { k with
    cmds := k.cmds.filter fun e => e.stamp != x.stamp
    errs := if x.stat = 0 then k.errs else k.errs ++ [⟨x.stamp, x.op, x.stat, x.done, isRemote x.op⟩] }
  let s := s.setSeq c q k
  if x.ev then
    s.setCore c ((s.core c).postUser (word (x.op.toNat + 256 * q.idx.val + 1024 * x.stat)) x.blk.p0)
  else s

/-- The engine-fault event of a command, and its trap that becomes pending on C (R327, R399). -/
def State.engineFault (s : State) (c : CoreId) (x : Cmd) (ia : Nat) : State :=
  let d := engineDetail x.done x.op.toNat 0x06
  let k := s.core c
  let s := s.setCore c { k with c := { k.c with async := k.c.async ++ [⟨0x0B, word ia, d⟩] } }
  s.post k.partNo (srcCore c) 4 0 k.card (word ia) d

/-- A unit of a command meets a home fault (R327): the command stops, the event is posted and the trap becomes pending on C. A
command that has been resumed completes with status 0x06 instead. A card that the fault has discarded has no command left. -/
def State.stopCmd (s : State) (c : CoreId) (q : SeqId) (x : Cmd) (ia : Nat) : State :=
  if ((s.seq c q).cmd? x.stamp).isNone then s
  else if x.resumed then s.putCmd c q { x with stat := 0x06 }
  else (s.putCmd c q { x with state := .stopped ia }).engineFault c x ia

/-- A unit of a command meets a stepped page of a group that its core does not take part in: a home fault that is never resumed
(R370). -/
def State.foreignCmd (s : State) (c : CoreId) (q : SeqId) (x : Cmd) (ia : Nat) : State :=
  if ((s.seq c q).cmd? x.stamp).isNone then s else (s.putCmd c q { x with stat := 0x06 }).engineFault c x ia

/-! ### What a unit comes to -/

/-- A unit that is not simply performed: it cannot go on yet, no unit is left, it is under way, it meets a home fault at an address,
or one that is never resumed, or the command ends with a status. -/
inductive UEnd where
  | wait
  | over
  | more (s : State) (x : Cmd)
  | fault (s : State) (ia : Nat)
  | foreign (s : State) (ia : Nat)
  | status (s : State) (st : Nat)

/-- A home of some bytes is out of service (R356). -/
def State.anyDown (s : State) (ia n : Nat) : Bool := s.hm.out != 0 && (upTo n).any fun i => s.homeDown (ia + i)

/-- The first byte of a range on a stepped page whose group the core is no participant of (R370). -/
def State.foreignStep (s : State) (c : CoreId) (ia n : Nat) : Option Nat :=
  ((upTo n).find? fun i => s.isStepped (ia + i) && !((s.agentGroup c).any fun g => s.groupAt (ia + i) == some g)).map (ia + ·)

/-- Bytes that a command reads (R105, R248, R324): at their homes, or in a local-memory window; granules that it has read ahead are not
read again (R83). -/
def State.engineRead (s : State) (c : CoreId) (x : Cmd) (ia n : Nat) : Except UEnd (List Byte × State) :=
  if iaTier ia = 5 then .ok (overGranules x.peeked ia (Memory.read s.hm.lm (iaOff ia) n), s)
  else if s.anyDown ia n then .error .wait
  else
    match s.confirmAll false ia n with
    | .error (_, a) => .error (.fault s a)
    | .ok () =>
      match s.foreignStep c ia n with
      | some a => .error (.foreign s a)
      | none =>
        match s.meet ia n with
        | .error (u, a) => .error (.fault u a)
        | .ok u => .ok (overGranules x.peeked ia (u.homeBytes ia n), u)

/-- Local bytes that a command reads: those it holds, else those of local memory, at once or read ahead (R83, R248). -/
def State.cmdBytes (s : State) (c : CoreId) (x : Cmd) (off n : Nat) : List Byte :=
  (upTo n).map fun i =>
    match x.held.find? fun h => h.1 ≤ off + i && off + i < h.1 + h.2.length with
    | some h => h.2.getD (off + i - h.1) 0
    | none => (overGranules x.peeked (lmIa c (off + i)) [Memory.get s.hm.lm (lmKey c (off + i))]).headD 0

/-- A command that reads local bytes it also writes takes them before it writes any (R248). -/
def State.holdCmd (s : State) (c : CoreId) (x : Cmd) : Cmd :=
  if x.held.isEmpty && x.done = 0 && rangesMeet x.reads x.writes then
    { x with held := x.reads.map fun r => (r.lo, overGranules x.peeked (lmIa c r.lo) (lmRead s c r.lo r.len)) }
  else x

/-- Cut a write where a page begins, but for pages of one stepped region, which a unit meets as one range (R371); `at0` is the
command's byte at the first piece. The fuel bounds the pieces. -/
def State.cutPages (s : State) : Nat → Nat → Nat → List Byte → List (Nat × Nat × List Byte)
  | 0, _, _, _ => []
  | _ + 1, _, _, [] => []
  | fuel + 1, at0, ia, b :: bs =>
    let n := match (if s.isStepped ia then s.regionAt ia else none) with
      | some (_, r) => r.base + r.bytes - ia
      | none => 4096 - ia % 4096
    let (now, rest) := (b :: bs).splitAt n
    (at0, ia, now) :: State.cutPages s fuel (at0 + now.length) (ia + now.length) rest

/-- Remove the lines of a written range from the issuing core's L1, and those on their way to its cluster (R86, R248). -/
def State.dropLines (s : State) (c : CoreId) (ia n : Nat) : State :=
  (upTo ((ia % 128 + n + 127) / 128)).foldl (fun s i => (s.l1Drop c (ia + 128 * i)).lateDrop c (some (ia + 128 * i))) s

/-- Why a piece of a unit cannot be performed, to be met on the state before the unit: it is done whole or not at all. -/
abbrev PieceEnd := State → UEnd

/-- A command is to write bytes, granule by granule in any order (R83, R95). -/
def Cmd.put (x : Cmd) (ia : Nat) (bs : List Byte) : Cmd := { x with pend := x.pend ++ granules bs.length ia bs }

/-- A granule that a command writes is performed at its home, or in local memory (R45, R84, R248). -/
def State.putGranule (s : State) (c : CoreId) (depth : Nat) (g : Nat × List Byte) : State :=
  if iaTier g.1 = 5 then { s with hm := { s.hm with lm := Memory.write s.hm.lm (iaOff g.1) g.2 } }
  else (s.land g.1 g.2 depth).dropLines c g.1 g.2.length

/-- The granules of some writes are performed. -/
def State.putGranules (s : State) (c : CoreId) (depth : Nat) (gs : List (Nat × List Byte)) : State :=
  gs.foldl (fun s g => s.putGranule c depth g) s

/-- The last unit of a command is performed as far as it is not yet; none while a home it writes is out of service (R356). -/
def State.settleCmd (s : State) (c : CoreId) (q : SeqId) (x : Cmd) : Option (State × Cmd) :=
  if x.pend.isEmpty then some (s, x)
  else if x.pend.any fun g => s.homeDown g.1 then none
  else
    let y := { x with pend := [] }
    some ((s.putGranules c x.depth x.pend).putCmd c q y, y)

/-- A home confirms the bytes that an engine writes to a page that is not stepped (R80, R248, R324, R366). -/
def State.engineConfirm (s : State) (ia : Nat) (bs : List Byte) : Except PieceEnd State :=
  if s.anyDown ia bs.length then .error fun _ => .wait
  else
    match s.confirmAll true ia bs.length with
    | .error (e, a) => .error fun s => .fault (if e = .perm then s.refusedWrite a else s) a
    | .ok () =>
      match s.meetWrite ia bs.length with
      | .error (_, a) => .error fun s => match s.meetWrite ia bs.length with
        | .error (u, a) => .fault u a
        | .ok u => .fault u a
      | .ok u => .ok (u.uncodeRun ia bs.length)

/-! ### Arrival of a stepped write at its target (R105, R107, R109, R368, R371) -/

/-- The local group with a pod-wide id that is joined and has not failed. -/
def State.localGroup (s : State) (gid : BitVec 16) : Option (Fin 16) :=
  (List.finRange 16).find? fun g =>
    let r := s.fab.groups[g.val]
    r.joined && r.gid == gid && r.failed.isNone

/-- The region that a unit may be buffered for: export, group, step, source, range, flag and elements agree (R371 rules 1
to 4). -/
def State.targetOf (s : State) (src : BitVec 16) (u : StepUnit) : Option Region :=
  match s.localGroup u.gid, dget s.fab.regions u.exp.toNat with
  | some g, some r =>
    let gr := s.fab.groups[g.val]
    let inside := decide (u.off + u.data.length ≤ r.bytes) && match u.flag with
      | some f => decide (f + 8 ≤ r.bytes)
      | none => true
    if r.group = g && decide (gr.step ≤ u.step) && decide (r.begins ≤ u.step)
        && !r.closed u.step && gr.members.contains src && inside && r.whole u.off u.data.length then some r
    else none
  | _, _ => none

/-- The key of a command's first element. -/
def unitCmdKey (u : StepUnit) : OKey := ⟨u.key.pkg, u.key.sid, u.first.setWidth 40⟩

/-- Refused units are counted (R382): the one that is refused, and the later ones of its command for this target (R371). -/
def State.refuseUnits (s : State) : Nat → State
  | 0 => s
  | n + 1 => State.refuseUnits (s.count (cntPackage 0)) n

/-- A unit is accepted and buffered; else none, with the region when only room is wanting (R371). A second write with a key that the
target holds replaces the first (R247). -/
def State.takeUnit (s : State) (src : BitVec 16) (u : StepUnit) : Except (Option Region) State :=
  match s.targetOf src u with
  | none => .error none
  | some r =>
    if s.fab.full.contains (u.gid, u.step, (unitCmdKey u)) then .error none
    else
      let exp := u.exp.toNat
      let twin := fun (b : Buffered) => decide (b.exp = exp ∧ b.step = u.step ∧ b.key = u.key ∧ b.off = u.off ∧ b.kind = u.kind)
      let s0 := (s.releaseBuf (s.fab.sbuf.filter twin))
      let s0 := { s0 with fab := { s0.fab with sbuf := s0.fab.sbuf.filter fun b => !twin b } }
      match s0.buffer exp r u.step u.key u.off u.data u.kind u.depth with
      | none => .error (some r)
      | some t =>
        match u.flag, u.after with
        | some f, 0 =>
          let has := t.fab.sbuf.any fun b => decide (b.exp = exp ∧ b.step = u.step ∧ b.key = u.key ∧ b.kind = .flag)
          if has then .ok t
          else .ok { t with fab := { t.fab with
            sbuf := t.fab.sbuf ++ [⟨exp, r.group, u.step, u.key, f, [], .flag, true, u.depth, []⟩] } }
        | _, _ => .ok t

/-- A unit is refused: it and the later ones of its command for this target are counted, and for want of room none of them is
accepted any more (R369, R371, R382). -/
def State.refuseUnit (s : State) (u : StepUnit) : Option Region → State
  | none => s.refuseUnits (u.after + 1)
  | some r =>
    (({ s with fab := { s.fab with full := s.fab.full ++ [(u.gid, u.step, (unitCmdKey u))] } }).refuseUnits (u.after + 1)).countHome
      .quotaFail (homeAt (r.base + u.off))

/-- A unit arrives: it is accepted and buffered, or refused whole. -/
def State.arriveUnit (s : State) (src : BitVec 16) (u : StepUnit) : Bool × State :=
  match s.takeUnit src u with
  | .ok t => (true, t)
  | .error r => (false, s.refuseUnit u r)

/-- The element of a write range: that of the region that holds it whole, else the byte (R107, R108). -/
def State.elemOf (s : State) (ia n : Nat) : Nat :=
  match s.regionAt ia with
  | some (_, r) => if ia + n ≤ r.base + r.bytes then r.elem else 1
  | none => 1

/-- The step that a command belongs to (R103): the step its core stands in, when it writes stepped pages of its group. -/
def State.stepNow (s : State) : Option (Fin 16 × Nat) := (s.agentGroup s.cur.core).map fun g => (g, s.stepAt s.cur.core g)

/-- A range of IAs meets a stepped region of a group. -/
def State.meetsStep (s : State) (ia n : Nat) : Bool :=
  s.fab.regions.any fun r => overlap r.2.base r.2.bytes ia n && s.isStepped r.2.base

/-- A command that may write stepped pages takes its step and its issue sequence numbers at issue (R103, R107). -/
def State.takeStep (s : State) (x : Cmd) (m : Nat) : Cmd × State :=
  match s.stepNow with
  | none => (x, s)
  | some (g, n) =>
    let gid := globalId s.cur.core s.cur.sq
    ({ x with stepOf := some (g, n), gid := gid, key0 := s.seqno g n gid, sn0 := 0, elems := m }, s.takeSeqnos g n gid m)

/-- The key of a command's element `sn` (R107): it carries the sequencer that the command had when it took its numbers, or has since its
card was resumed (R344). -/
def State.cmdKey (s : State) (x : Cmd) (sn : Nat) : OKey := s.okey x.gid (x.key0 + sn - x.sn0)

/-- The unit of a command for a region of this package; `after` counts its later units there. -/
def State.ownUnit (s : State) (x : Cmd) (exp : Nat) (off : Nat) (bs : List Byte) (kind : WKind) (sn after : Nat) : Option StepUnit :=
  x.stepOf.map fun g =>
    ⟨s.fab.groups[g.1.val].gid, g.2, BitVec.ofNat 6 exp, off, bs, kind, s.cmdKey x sn,
      BitVec.ofNat 40 x.key0, none, after, x.depth⟩

/-- One piece of an engine write: buffered on stepped pages, or confirmed by its home, to be performed granule by granule there or in a
window. `sn` is the issue sequence number of its first element within the command, `after` counts the later units of the command for a
region (R371). -/
def State.enginePiece (s : State) (c : CoreId) (x : Cmd) (after : Region → Nat) (sn ia : Nat) (bs : List Byte) :
    Except PieceEnd (State × Cmd) :=
  if iaTier ia = 5 then .ok (s, x.put ia bs)
  else if s.isStepped ia then
    match s.confirmAll true ia bs.length, s.foreignStep c ia bs.length with
    | .error (_, a), _ => .error fun s => .fault s a
    | _, some a => .error fun s => .foreign s a
    | _, _ =>
      match s.regionAt ia with
      | none => .error fun s => .foreign s ia
      | some (e, r) =>
        match s.ownUnit x e (ia - r.base) bs .plain sn (after r) with
        | none => .error fun s => .foreign s ia
        | some u =>
          match s.takeUnit s.fab.pkg u with
          | .ok t => .ok (t, x)
          | .error r => .error fun s => .status (s.refuseUnit u r) 0x08
  else (s.engineConfirm ia bs).map fun t => (t, x.put ia bs)

/-- Make the pieces of an engine write in order; `elem` is the bytes of an element. -/
def State.enginePieces (s : State) (c : CoreId) (x : Cmd) (after : Region → Nat) (elem : Nat) :
    List (Nat × Nat × List Byte) → Except PieceEnd (State × Cmd)
  | [] => .ok (s, x)
  | (at0, ia, bs) :: t =>
    match s.enginePiece c x after (at0 / elem) ia bs with
    | .error e => .error e
    | .ok (s, x) => State.enginePieces s c x after elem t

/-- What a unit of a command writes to global memory, as places and bytes with the command's byte at each; all of it is confirmed, or
the unit has no effect but what its end says, on the state `s0` before it (R95, R105, R248, R371). -/
def State.engineWrites (s0 s : State) (c : CoreId) (x : Cmd) (after : Region → Nat) (elem : Nat)
    (ws : List (Nat × Nat × List Byte)) : Except UEnd (State × Cmd) :=
  match s.enginePieces c x after elem (ws.flatMap fun w => s.cutPages (w.2.2.length + 1) w.1 w.2.1 w.2.2) with
  | .ok t => .ok t
  | .error e => .error (e s0)

/-- An engine write of a unit to one range of global memory. -/
def State.engineWrite (s : State) (c : CoreId) (x : Cmd) (after : Region → Nat) (elem at0 ia : Nat) (bs : List Byte) :
    Except UEnd (State × Cmd) :=
  s.engineWrites s c x after elem [(at0, ia, bs)]

end Sys2Proof.Machine
end

