-- ==== Sys2Proof/Machine/Tables.lean ====
section
/-! DEFINITION. Table rows as the engines use them (R72 to R76, R133 to R137): shards, lookups and promotion, exact pooling and
the optimisers. -/

namespace Sys2Proof.Machine

/-! ### Shards (R72) -/

/-- The last shard whose first row does not exceed a row. -/
def shardIn (r : Nat) : List Nat → Nat → Option (Nat × Nat)
  | f :: g :: t, s => if f ≤ r ∧ r < g then some (s, r - f) else shardIn r (g :: t) (s + 1)
  | _, _ => none

/-- The shard and local row of a global row; none in no shard. -/
def State.shardOf (s : State) (c : CoreId) (x : Cmd) (t : Table) (r : Nat) : Except UEnd (Option (Nat × Nat) × State) :=
  if t.shard = 1 then .ok (some (r % t.shcnt, r / t.shcnt), s)
  else if t.shard = 2 then
    match s.engineRead c x t.ranges (8 * (t.shcnt + 1)) with
    | .error e => .error e
    | .ok (bs, s) => .ok (shardIn r ((upTo (t.shcnt + 1)).map fun i => wordAt bs (8 * i) 8) 0, s)
  else .ok (some (0, r), s)

/-- The owners of a table's shards, in shard order. -/
def State.owners (s : State) (c : CoreId) (x : Cmd) (t : Table) : Except UEnd (List Nat × State) :=
  match s.engineRead c x t.owner (2 * t.shcnt) with
  | .error e => .error e
  | .ok (bs, s) => .ok ((upTo t.shcnt).map fun i => wordAt bs (2 * i) 2, s)

/-- The local row of a global row (R246, R251): statuses 0x01 and 0x02. ROWS bounds the rows held here, so a row of a shard that
this package does not own is refused by its owner first. -/
def State.localRow (s : State) (c : CoreId) (x : Cmd) (t : Table) (r : Nat) : Except UEnd (Nat × State) :=
  match s.shardOf c x t r with
  | .error e => .error e
  | .ok (none, s) => .error (.status s 0x01)
  | .ok (some (sh, l), s) =>
    if t.shard = 0 ∧ t.rows ≤ l then .error (.status s 0x01)
    else
      match s.owners c x t with
      | .error e => .error e
      | .ok (os, s) =>
        if os.getD sh 0 ≠ s.fab.pkg.toNat then .error (.status s 0x02)
        else if t.rows ≤ l then .error (.status s 0x01)
        else .ok (l, s)

/-! ### Lookups and promotion (R74 to R76) -/

/-- Halve every counter of a Skerry's sketch once 2^20 lookups have been made (R76). -/
def State.halveSketch (s : State) (sk : Nat) : State :=
  if vget s.hm.looks sk 0 < 2 ^ 20 then s
  else
    let lo := sk * 4 * 65536
    { s with hm := { s.hm with
        looks := vset s.hm.looks sk 0
        sketch := s.hm.sketch.filterMap fun e =>
          if lo ≤ e.1 ∧ e.1 < lo + 4 * 65536 then (if e.2 / 2 = 0 then none else some (e.1, e.2 / 2)) else some e } }

/-- Promote an absent row, unless the victim's estimate in its own Skerry is at least as high (R76). The row is read from its frame and
the victim from its way; one that holds an error there is not promoted (R354, R359). -/
def State.promote (s : State) (p : Fin 32) (id : Nat) (t : Table) (l est : Nat) : State :=
  if t.hotLog = 0xFF ∨ (s.hotCopy p id l).isSome ∨ est < (s.part p).promo then s
  else
    match s.allocWay p id t l with
    | none => s
    | some (_, v) =>
      if v.any fun v => decide (est ≤ s.estimate (rowSkerry t v.row) v.part v.table v.row) then s
      else if s.sound then s.hotAlloc p id t l
      else
        match s.meetRow p id t l with
        | .ok u => u.hotAlloc p id t l
        | .error (u, _) => u

/-- A lookup of a row of the capacity tier (R76). -/
def State.lookupRow (s : State) (p : Fin 32) (id : Nat) (t : Table) (l : Nat) : State :=
  if iaTier t.base ≠ 3 then s
  else
    let sk := rowSkerry t l
    let s := s.halveSketch sk
    let keys := sketchKeys sk p id l
    let m := s.estimate sk p id l
    let sketch := keys.foldl (fun (z : Sparse (BitVec 16)) k =>
      if (sget 0 s.hm.sketch k).toNat = m ∧ m < 65535 then sset 0 z k (BitVec.ofNat 16 (m + 1)) else z) s.hm.sketch
    let s := { s with hm := { s.hm with sketch := sketch, looks := vset s.hm.looks sk (vget s.hm.looks sk 0 + 1) } }
    s.promote p id t l (s.estimate sk p id l)

/-- The rows of tables of the capacity tier that a run of bytes meets, each once (R76). -/
def State.rowsRead (s : State) (ia n : Nat) : List (Nat × Table × Nat) :=
  if iaTier ia ≠ 3 then []
  else ((upTo n).filterMap fun i =>
    (rowOf (fun _ => true) (s.part (iaPart ia)).tables (ia + i)).map fun r => (r.1, r.2.1, r.2.2.1)).eraseDups

/-- Read a row through the directory, as one lookup (R74, R76). -/
def State.readRow (s : State) (c : CoreId) (x : Cmd) (id : Nat) (t : Table) (l : Nat) : Except UEnd (List Byte × State) :=
  match s.engineRead c x (t.rowIa l) t.rowBytes with
  | .error e => .error e
  | .ok (bs, s) => .ok (bs, s.lookupRow (s.core c).partNo id t l)

/-! ### Exact pooling (R133, R134) -/

/-- The value of an f16 in units of 2^−24; none for an infinity or a NaN. -/
def f16Units (b : Nat) : Option Int :=
  match fmtF16.decode b with
  | .fin n m e => some (FV.at (.fin n m e) (-24))
  | .zero _ => some 0
  | _ => none

/-- The exact value of element `j` of a row in units of 2^−24 (R133); none when its scale, bias or element is infinite or
NaN. f32r rows are not pooled. -/
def Table.valueUnits (t : Table) (row : List Byte) (j : Nat) : Option Int :=
  match t.fmt with
  | 2 => f16Units (wordAt row (2 * j) 2)
  | f =>
    let at0 := if f = 0 then t.elems else t.elems / 2
    let q := if f = 0 then wordAt row j 1 else wordAt row (j / 2) 1 / 16 ^ (j % 2) % 16
    match f16Units (wordAt row at0 2), f16Units (wordAt row (at0 + 2) 2) with
    | some sc, some b => some (q * sc + b)
    | _, _ => none

/-- Add an entry's products to the sums of a bag, in units of 2^−48. -/
def poolAdd (t : Table) (w : Option Int) (row : List Byte) (acc : List (Option Int)) : List (Option Int) :=
  (acc.zip (upTo t.elems)).map fun x =>
    match x.1, w, t.valueUnits row x.2 with
    | some a, some w, some v => some (a + w * v)
    | _, _, _ => none

/-- The format of an output code (R253). -/
def poolFmt (out : Nat) : Fmt := match out with | 0 => fmtF32 | 1 => fmtF16 | _ => fmtBf16

def poolSize (out : Nat) : Nat := if out = 0 then 4 else 2

/-- A sum rounded once (R134). -/
def poolRound (f : Fmt) : Option Int → Nat
  | none => f.nanBits
  | some a => (f.ofSum 0 a (-48) false).bits

/-- Bytes padded with zeros to a multiple of 8. -/
def pad8 (bs : List Byte) : List Byte := bs ++ List.replicate (align8 bs.length - bs.length) 0

/-- The output bytes of a bag (R254). -/
def poolBytes (out : Nat) (acc : List (Option Int)) : List Byte :=
  pad8 (acc.flatMap fun a => leBytes (poolSize out) (poolRound (poolFmt out) a))

/-! ### Updates (R136, R137) -/

/-- The bits of an f32 operation under RN. -/
def rn (r : FRes) : Nat := r.bits

/-- Coalesce gradients in the order given (R136). -/
def coalesce : List (List Nat) → List Nat
  | [] => []
  | g :: gs => gs.foldl (fun acc h => (acc.zip h).map fun x => rn (fmtF32.add 0 x.1 x.2)) g

/-- One SGD step. -/
def sgd (lr : Nat) (w g : List Nat) : List Nat :=
  (w.zip g).map fun x => rn (fmtF32.sub 0 x.1 (rn (fmtF32.mul 0 lr x.2)))

/-- A weight after a step divided by `den`. -/
def stepBy (lr den w g : Nat) : Nat := rn (fmtF32.sub 0 w (rn (fmtF32.div 0 (rn (fmtF32.mul 0 lr g)) den)))

/-- The denominator of an accumulator. -/
def denOf (eps acc : Nat) : Nat := rn (fmtF32.add 0 (rn (fmtF32.sqrt 0 acc)) eps)

/-- Row-wise Adagrad: the weights and the accumulator. -/
def rowAdagrad (lr eps : Nat) (w g : List Nat) (acc : Nat) : List Nat × Nat :=
  let sq := g.foldl (fun a x => rn (fmtF32.add 0 a (rn (fmtF32.mul 0 x x)))) 0
  let m := rn (fmtF32.div 0 sq (rn (fmtF32.ofInt 0 g.length)))
  let acc := rn (fmtF32.add 0 acc m)
  let den := denOf eps acc
  ((w.zip g).map fun x => stepBy lr den x.1 x.2, acc)

/-- Element-wise Adagrad: the weights and the state row. -/
def elemAdagrad (lr eps : Nat) (w g st : List Nat) : List Nat × List Nat :=
  let st := (st.zip g).map fun x => rn (fmtF32.add 0 x.1 (rn (fmtF32.mul 0 x.2 x.2)))
  (((w.zip g).zip st).map fun x => stepBy lr (denOf eps x.2) x.1.1 x.1.2, st)

/-- The f32 words of bytes. -/
def f32s (n : Nat) (bs : List Byte) : List Nat := (upTo n).map fun i => wordAt bs (4 * i) 4

def f32Bytes (ws : List Nat) : List Byte := ws.flatMap (leBytes 4)

/-- What a step of an optimiser writes, as places and bytes, from the row and the bytes of its state row (R137, R261). -/
def Table.stepRow (t : Table) (l lr eps : Nat) (g : List Nat) (row st : List Byte) : List (Nat × List Byte) :=
  let w := f32s t.elems row
  match t.opt with
  | 0 => [(t.rowIa l, f32Bytes (sgd lr w g))]
  | 1 =>
    let (w, a) := rowAdagrad lr eps w g (wordAt row (4 * t.elems) 4)
    [(t.rowIa l, f32Bytes (w ++ [a]))]
  | _ =>
    let (w, st) := elemAdagrad lr eps w g (f32s t.elems st)
    [(t.optBase + l * t.stride, f32Bytes st), (t.rowIa l, f32Bytes w)]

/-- The state row of a table under OPT 2. -/
def State.stateRow (s : State) (c : CoreId) (x : Cmd) (t : Table) (l : Nat) : Except UEnd (List Byte × State) :=
  if 2 ≤ t.opt then s.engineRead c x (t.optBase + l * t.stride) (4 * t.elems) else .ok ([], s)

/-- Some writes, each with the byte of the command at which it stands, from a byte on. -/
def placedAt : Nat → List (Nat × List Byte) → List (Nat × Nat × List Byte)
  | _, [] => []
  | o, (ia, bs) :: t => (o, ia, bs) :: placedAt (o + bs.length) t

/-- Apply the optimiser of a table to a row, as one operation at its home, which has no effect when it faults (R71, R247, R261). `g` is
the coalesced gradient, `after` the later rows of the command; a row takes issue sequence numbers for its row of state and itself. -/
def State.applyRow (s : State) (c : CoreId) (x : Cmd) (id : Nat) (t : Table) (l lr eps : Nat) (g : List Nat)
    (after : Nat) : Except UEnd State :=
  match s.readRow c { x with peeked := [] } id t l with
  | .error e => .error e
  | .ok (row, u) =>
    match u.stateRow c { x with peeked := [] } t l with
    | .error e => .error e
    | .ok (st, u) =>
      (s.engineWrites u c { x with pend := [] } (fun _ => after) 4
        (placedAt (4 * (2 * t.elems + 1) * x.done) (t.stepRow l lr eps g row st))).map fun r => r.1.putGranules c x.depth r.2.pend

end Sys2Proof.Machine
end

