-- ==== Sys2Proof/Machine/Units.lean ====
section
/-! DEFINITION. One unit of each engine command that acts on this package (R247, R249 to R261). -/

namespace Sys2Proof.Machine

/-- The LM bit of word Pi (R244). -/
def Blk.lm (b : Blk) (i : Nat) : Bool := b.p3.bit (60 + i)

/-- What a failed translation of a VA is reported with: the IA where a range register gives one, else the VA, for there is no IA (R327,
log 25). -/
def faultAt (part : Fin 32) (rs : RangeSet) (va n : Nat) : Nat :=
  if canonical va then ((rangeFind part.val rs.toList (va % 2 ^ 48) n).map (·.2)).getD va else va

/-- A VA translated when the command reads it, through the range registers it took at issue (R252, R257). A failure stops it
as a home fault does. -/
def State.lateIa (s : State) (c : CoreId) (x : Cmd) (va n : Nat) : Except UEnd Nat :=
  match translate (s.core c).partNo x.rng va n .rd with
  | .error _ => .error (.fault s (faultAt (s.core c).partNo x.rng va n))
  | .ok t =>
    match iaTier t.ia with
    | 5 => if s.windowRange c t.ia n then .ok t.ia else .error (.fault s t.ia)
    | 6 => .error (.fault s t.ia)
    | 7 => .error (.fault s t.ia)
    | _ => .ok t.ia

/-- Bytes of word P`i` of a block's range: local or global. -/
def State.sideRead (s : State) (c : CoreId) (x : Cmd) (lm : Bool) (a n : Nat) : Except UEnd (List Byte × State) :=
  if lm then .ok (s.cmdBytes c x a n, s) else s.engineRead c x a n

/-- A command is to write local bytes of its core. -/
def Cmd.putLm (x : Cmd) (c : CoreId) (off : Nat) (bs : List Byte) : Cmd := x.put (lmIa c off) bs

/-- Write bytes to a range of a command: local or global. -/
def State.sideWrite (s : State) (c : CoreId) (x : Cmd) (after : Region → Nat) (lm : Bool) (elem at0 a : Nat)
    (bs : List Byte) : Except UEnd (State × Cmd) :=
  if lm then .ok (s, x.putLm c a bs) else s.engineWrite c x after elem at0 a bs

/-! ### CPY and CPYX (R249, R250) -/

/-- The units of a command of `n` bytes after the present one, which a target that refuses it refuses with it (R371). -/
def restUnits (x : Cmd) (n : Nat) : Nat := (n + 255) / 256 - x.done - 1

/-- A unit of CPY: 256 bytes. -/
def State.cpyUnit (s : State) (c : CoreId) (x : Cmd) : Except UEnd (State × Cmd) := do
  let n := x.blk.p2.toNat
  let o := 256 * x.done
  if n ≤ o then .error .over
  let dst := x.ias.getD 0 0
  let (bs, u) ← s.sideRead c x (Blk.lm x.blk 1) (x.ias.getD 1 0 + o) (min 256 (n - o))
  u.sideWrite c x (fun r => restUnits x (min n (r.base + r.bytes - dst))) (Blk.lm x.blk 0) (x.record.headD 1).toNat o (dst + o) bs

/-- A tensor to copy: bytes of an element, and extent, source stride and destination stride of each dimension. -/
structure Shape where
  esz  : Nat
  dims : List (Nat × Int × Int)
deriving DecidableEq, Repr

/-- Dimensions from words. -/
def dimsOf : List Word → List (Nat × Int × Int)
  | e :: a :: b :: t => (e.toNat, a.toInt, b.toInt) :: dimsOf t
  | _ => []

def dimWords : List (Nat × Int × Int) → List Word
  | [] => []
  | (e, a, b) :: t => word e :: BitVec.ofInt 64 a :: BitVec.ofInt 64 b :: dimWords t

/-- Elements of a tensor. -/
def Shape.count (h : Shape) : Nat := (h.dims.map (·.1)).foldl (· * ·) 1

/-- The least and the greatest offset over the elements, by their strides. -/
def Shape.span (h : Shape) (f : Nat × Int × Int → Int) : Int × Int :=
  h.dims.foldl (fun m d =>
    let v := ((d.1 : Int) - 1) * f d
    (m.1 + min 0 v, m.2 + max 0 v)) (0, 0)

def srcStride (d : Nat × Int × Int) : Int := d.2.1
def dstStride (d : Nat × Int × Int) : Int := d.2.2

/-- The offset of element `k` above the lowest one, i0 fastest. -/
def Shape.at (h : Shape) (f : Nat × Int × Int → Int) (k : Nat) : Nat :=
  (linear (counters (h.dims.map (·.1)) k) (h.dims.map f) - (h.span f).1).toNat

/-- The tensor that a CPYX took at issue: its record holds the element of the region, the element size and the dimensions. -/
def Cmd.shape (x : Cmd) : Shape := ⟨(x.record.getD 1 1).toNat, dimsOf (x.record.drop 2)⟩

/-- A unit of CPYX: one element. `ias` holds the places of the lowest elements. -/
def State.cpyxUnit (s : State) (c : CoreId) (x : Cmd) : Except UEnd (State × Cmd) := do
  let h := x.shape
  let k := x.done
  if h.count ≤ k then .error .over
  let (bs, s) ← s.sideRead c x (Blk.lm x.blk 1) (x.ias.getD 1 0 + h.at srcStride k) h.esz
  let after := fun (r : Region) => ((upTo h.count).drop (k + 1)).countP fun j =>
    overlap (x.ias.getD 0 0 + h.at dstStride j) h.esz r.base r.bytes
  s.sideWrite c x after (Blk.lm x.blk 0) (x.record.headD 1).toNat (k * h.esz) (x.ias.getD 0 0 + h.at dstStride k) bs

/-! ### GATH and WALK (R251, R252) -/

/-- The table a command took at issue; without one it ends with status 0x01 (R246). -/
def Cmd.tableOr (x : Cmd) (s : State) : Except UEnd (Nat × Table) :=
  match x.table with
  | none => .error (.status s 0x01)
  | some t => .ok t

/-- A unit of GATH: one row, padded, and one lookup (R76). -/
def State.gathUnit (s : State) (c : CoreId) (x : Cmd) : Except UEnd (State × Cmd) := do
  let (id, t) ← x.tableOr s
  let i := x.done
  if x.blk.p3.toNat ≤ i then .error .over
  let (l, s) ← s.localRow c x t (leNat (s.cmdBytes c x (x.blk.p2.toNat + 8 * i) 8))
  let (bs, s) ← s.readRow c x id t l
  let n := t.rowBytes
  pure (s, x.putLm c (x.blk.p0.toNat + i * align8 n) (bs ++ List.replicate (align8 n - n) 0))

def walkCount (b : Blk) : Nat := b.p3.bits 6 0
def walkBytes (b : Blk) : Nat := 2 ^ (b.p3.bits 11 8 + 8)

/-- A unit of WALK: one page. Each table row it reads is a lookup (R76). -/
def State.walkUnit (s : State) (c : CoreId) (x : Cmd) : Except UEnd (State × Cmd) := do
  let j := x.done
  if walkCount x.blk ≤ j then .error .over
  let n := walkBytes x.blk
  let p := leNat (s.cmdBytes c x (x.blk.p2.toNat + 4 * j) 4)
  let dst := x.blk.p0.toNat + j * n
  if p = 0xFFFFFFFF then pure (s, x.putLm c dst (List.replicate n 0))
  else
    let bia ← s.lateIa c x ((x.blk.p1.toNat + 8 * p) % 2 ^ 64) 8
    let (vb, s) ← s.engineRead c x bia 8
    let va := leNat vb
    if va % 8 ≠ 0 then .error (.fault s va)
    let ia ← s.lateIa c x va n
    let (bs, s) ← s.engineRead c x ia n
    let s := (s.rowsRead ia n).foldl (fun s r => s.lookupRow (iaPart ia) r.1 r.2.1 r.2.2) s
    pure (s, x.putLm c dst bs)

/-! ### POOL (R253, R254) -/

def poolOut (b : Blk) : Nat := b.p3.bits 1 0

/-- A bag of a record: the offsets of its indices and of its weights if it has any, and its entries. -/
structure Bag where
  idx : Nat
  wgt : Option Nat
  cnt : Nat
deriving DecidableEq, Repr

def bagOf (loc cnt : Word) : Bag :=
  ⟨loc.bits 20 0, if loc.bit 42 then none else some (loc.bits 41 21), cnt.toNat⟩

/-- The bags of a bag list's words. -/
def bagsOf : List Word → List Bag
  | a :: b :: t => bagOf a b :: bagsOf t
  | _ => []

/-- Pool the entries of a bag from the i-th on. -/
def State.poolEntries (s : State) (c : CoreId) (x : Cmd) (id : Nat) (t : Table) (b : Bag) :
    Nat → Nat → List (Option Int) → Except UEnd (List (Option Int) × State)
  | 0, _, acc => .ok (acc, s)
  | fuel + 1, i, acc =>
    match s.localRow c x t (leNat (s.cmdBytes c x (b.idx + 8 * i) 8)) with
    | .error e => .error e
    | .ok (l, s) =>
      match s.readRow c x id t l with
      | .error e => .error e
      | .ok (row, s) =>
        let w := match b.wgt with
          | none => some (2 ^ 24 : Int)
          | some o => f16Units (leNat (s.cmdBytes c x (o + 2 * i) 2))
        State.poolEntries s c x id t b fuel (i + 1) (poolAdd t w row acc)

/-- A unit of POOL: one bag. -/
def State.poolUnit (s : State) (c : CoreId) (x : Cmd) : Except UEnd (State × Cmd) := do
  let (id, t) ← x.tableOr s
  if t.fmt = 3 then .error (.status s 0x03)
  match (bagsOf x.record)[x.done]? with
  | none => .error .over
  | some b =>
    let (acc, s) ← s.poolEntries c x id t b b.cnt 0 (List.replicate t.elems (some 0))
    let o := poolOut x.blk
    pure (s, x.putLm c (x.blk.p0.toNat + x.done * align8 (t.elems * poolSize o)) (poolBytes o acc))

/-! ### DECMP (R255 to R258) -/

def decmpSlots (b : Blk) : Nat := b.p3.bits 3 0
def decmpSlotBytes (b : Blk) : Nat := 8 * b.p3.bits 23 8
def decmpTf (b : Blk) : Fin 8 := Fin.ofNat 8 (b.p3.bits 26 24)
def decmpTe (b : Blk) : Fin 8 := Fin.ofNat 8 (b.p3.bits 30 28)

/-- Trits of a stream as far as it goes. -/
def tritsSoFar : Nat → List Bool → List Nat
  | 0, _ => []
  | n + 1, false :: t => 0 :: tritsSoFar n t
  | n + 1, true :: false :: t => 1 :: tritsSoFar n t
  | n + 1, true :: true :: t => 3 :: tritsSoFar n t
  | _ + 1, _ => []

/-- What a block decodes to: its bytes, or the bytes up to the failure and the status (R246, R255, R256). -/
def decodeInto (h : CodedHeader) (payload : List Byte) : List Byte × Nat :=
  match decodePayload h payload with
  | none => (packTrits (tritsSoFar (4 * h.outLen) (streamBits payload)), 0x04)
  | some out => (out, if crc32c out = h.crc then 0 else 0x05)

/-- The header and payload of the block that a DECMP stands at. -/
def State.codedAt (s : State) (c : CoreId) (x : Cmd) : Except UEnd (CodedHeader × List Byte × State) := do
  let va := (x.blk.p1.toNat + x.aux) % 2 ^ 64
  let ia ← s.lateIa c x va 16
  let (hb, s) ← s.engineRead c x ia 16
  match codedHeader hb with
  | none => .error (.status s 0x04)
  | some h =>
    if h.inLen = 0 then pure (h, [], s)
    else
      let pv := (va + 16) % 2 ^ 64
      let pa ← s.lateIa c x pv h.inLen
      let (bs, s) ← s.engineRead c x pa h.inLen
      pure (h, bs, s)

/-- Adjust a token counter of a core. -/
def State.setToken (s : State) (c : CoreId) (t : Fin 8) (f : BitVec 16 → BitVec 16) : State :=
  let k := s.core c
  s.setCore c { k with tokens := k.tokens.set t.val (f k.tokens[t.val]) }

/-- Decode the block that a DECMP stands at: in the ring form it takes TE once the payload is read, and waits while TE is 0; then the
block is written, or the command ends with its status once what it has decoded is written (R257). The bytes of the block and of its
output. -/
def State.decmpBlock (s : State) (c : CoreId) (x : Cmd) : Except UEnd (Nat × Nat × State × Cmd) := do
  let ring := decmpSlots x.blk ≠ 0
  let (h, payload, s) ← s.codedAt c x
  let te := decmpTe x.blk
  if ring ∧ (s.core c).tokens[te.val] = 0 then .error .wait
  let s := if ring then s.setToken c te (· - 1) else s
  let sb := decmpSlotBytes x.blk
  let base := x.blk.p0.toNat
  let dst := if ring then base + x.done % decmpSlots x.blk * sb else base + x.off
  let room := if ring then sb else sb - x.off
  if room < h.outLen then .error (.status s 0x0B)
  let (out, st) := decodeInto h payload
  let x := x.putLm c dst out
  if st ≠ 0 then .error (.more s { x with stat := st })
  pure (16 + align8 h.inLen, align8 h.outLen, s, x)

/-- A unit of DECMP: one block. In the ring form its last phase, which `off` marks, posts TF, and waits while TF stands at its maximum
(R258). -/
def State.decmpUnit (s : State) (c : CoreId) (x : Cmd) : Except UEnd (State × Cmd) := do
  if x.blk.p2.toNat ≤ x.done then .error .over
  let tf := decmpTf x.blk
  if decmpSlots x.blk ≠ 0 ∧ x.off = 1 then
    if (s.core c).tokens[tf.val] = 65535 then .error .wait
    pure (s.setToken c tf (· + 1), { x with off := 0 })
  else
    let (used, made, s, x) ← s.decmpBlock c x
    if decmpSlots x.blk ≠ 0 then .error (.more s { x with aux := x.aux + used, off := 1 })
    else pure (s, { x with aux := x.aux + used, off := x.off + made })

/-! ### BUCK and SUPD (R259 to R261) -/

def buckRsz (b : Blk) : Nat := b.p3.bits 27 12
def tblOfP3 (b : Blk) : Nat := b.p3.bits 11 0

/-- A record with POS and SRC set (R260). -/
def placeRecord (bs : List Byte) (pos : Nat) (src : BitVec 16) : List Byte :=
  bs.take 8 ++ leBytes 4 pos ++ leBytes 2 src.toNat ++ bs.drop 14

/-- The shard of each record. A row in no shard, or of an own shard beyond ROWS, is beyond the table's rows; under a modulo
table ROWS bounds every shard (log 26). -/
def State.recordShards (s : State) (c : CoreId) (x : Cmd) (t : Table) : List Nat → Except UEnd (List Nat × State)
  | [] => .ok ([], s)
  | r :: rs =>
    match s.shardOf c x t r with
    | .error e => .error e
    | .ok (none, s) => .error (.status s 0x01)
    | .ok (some (sh, l), s) =>
      match (if t.shard = 2 then s.owners c x t else .ok ([], s)) with
      | .error e => .error e
      | .ok (os, s) =>
        if t.rows ≤ l ∧ (t.shard ≠ 2 ∨ os.getD sh 0 = s.fab.pkg.toNat) then .error (.status s 0x01)
        else
          match State.recordShards s c x t rs with
          | .error e => .error e
          | .ok (shs, s) => .ok (sh :: shs, s)

/-- The unit of BUCK: the whole command. The 4 bytes that pad an odd number of counts are zero, which R260 does not say (DESIGN CHOICE,
log 59). -/
def State.buckUnit (s : State) (c : CoreId) (x : Cmd) : Except UEnd (State × Cmd) := do
  let (_, t) ← x.tableOr s
  if x.done ≠ 0 then .error .over
  let n := x.blk.p2.toNat
  let rsz := buckRsz x.blk
  let recs := (upTo n).map fun i => s.cmdBytes c x (x.blk.p1.toNat + i * rsz) rsz
  let (shs, s) ← s.recordShards c x t (recs.map fun r => wordAt r 0 8)
  let placed := (recs.zip (upTo n)).map fun r => placeRecord r.1 r.2 s.fab.pkg
  let groups := (upTo t.shcnt).map fun sh => ((placed.zip shs).filter fun r => r.2 = sh).map (·.1)
  let head := pad8 (groups.flatMap fun g => leBytes 4 g.length)
  pure (s, x.putLm c x.blk.p0.toNat (head ++ (groups.flatMap fun g => g.flatMap id)))

/-- A gradient record: its sort key and its elements. -/
structure Grad where
  row : Nat
  src : Nat
  pos : Nat
  g   : List Nat
deriving DecidableEq, Repr

/-- Bytes of a record of SUPD: 16 + 4 × ELEMS, a multiple of 8 (R261). -/
def supdRsz (t : Table) : Nat := align8 (16 + 4 * t.elems)

def gradOf (t : Table) (bs : List Byte) : Grad :=
  ⟨wordAt bs 0 8, wordAt bs 12 2, wordAt bs 8 4, f32s t.elems (bs.drop 16)⟩

/-- Place a record after all those that do not exceed it by (ROW, SRC, POS). -/
def gradInsert (g : Grad) : List Grad → List Grad
  | [] => [g]
  | h :: t =>
    if h.row < g.row ∨ (h.row = g.row ∧ (h.src < g.src ∨ (h.src = g.src ∧ h.pos ≤ g.pos))) then h :: gradInsert g t
    else g :: h :: t

/-- The records sorted; equal ones keep their list order (R261). -/
def gradSort (gs : List Grad) : List Grad := gs.foldl (fun l g => gradInsert g l) []

/-- A unit of SUPD: one distinct row, in ascending order. The records are read before the first one. -/
def State.supdUnit (s : State) (c : CoreId) (x : Cmd) : Except UEnd (State × Cmd) := do
  let (id, t) ← x.tableOr s
  if t.fmt ≠ 3 then .error (.status s 0x03)
  let n := x.blk.p1.toNat
  let rsz := supdRsz t
  let (raw, s) ← match x.held with
    | h :: _ => pure (h.2, s)
    | [] => s.sideRead c x (Blk.lm x.blk 0) (x.ias.getD 0 0) (n * rsz)
  let gs := gradSort ((upTo n).map fun i => gradOf t ((raw.drop (i * rsz)).take rsz))
  let x := { x with held := [(0, raw)] }
  let rows := (gs.map (·.row)).eraseDups
  match rows[x.done]? with
  | none => .error .over
  | some r =>
    let (l, s) ← s.localRow c x t r
    let g := coalesce ((gs.filter fun h => h.row = r).map (·.g))
    let s ← s.applyRow c x id t l (x.blk.p2.bits 31 0) (x.blk.p2.bits 63 32) g (rows.length - x.done - 1)
    pure (s, x)

end Sys2Proof.Machine
end

