-- ==== Sys2Proof/Machine/Remote.lean ====
section
/-! DEFINITION. One unit of each remote command and of the exchanges (R262 to R267, R312, R313, R371, R372, R381), and the running
of a command unit by unit (R247, R327). -/

namespace Sys2Proof.Machine

/-! ### Requests -/

/-- A peer can be sent to: its route is valid and it is not lost (R379). -/
def State.reachable (s : State) (p : BitVec 16) : Bool := routeV (s.route p) && !(s.peer p).lost

/-- Send a unit of a command to a peer, once, and wait for its answer (R247, R372). -/
def State.askPeer (s : State) (c : CoreId) (q : SeqId) (x : Cmd) (dst : BitVec 16) (r : PReq) :
    Except UEnd (List Byte × State × Cmd) :=
  match x.sent.find? fun u => u.member = x.done with
  | none =>
    if !s.reachable dst then .error (.status s 0x0A)
    else
      let (id, s) := s.sendReq (some (c, q, x.stamp)) dst r
      .error (.more s { x with sent := x.sent ++ [⟨id, x.done, .pending⟩] })
  | some u =>
    match u.answer with
    | .pending => .error .wait
    | .accepted => .ok ([], s, x)
    | .data bs => .ok (bs, s, x)
    | .refused => .error (.status s 0x08)
    | .lost => .error (.status s 0x0A)

/-- The group of a stepped command, or status 0x0A when it has failed (R381). -/
def State.liveGroup (s : State) (x : Cmd) : Except UEnd (Fin 16 × Nat) :=
  match x.stepOf with
  | none => .error (.status s 0x0A)
  | some (g, n) => if s.fab.groups[g.val].failed.isSome then .error (.status s 0x0A) else .ok (g, n)

/-- A target of a stepped write: package, export, offset (R60, R264). -/
structure Target where
  pkg : BitVec 16
  exp : Nat
  off : Nat
deriving DecidableEq, Repr

/-- The target that an IA names: a tier-7 name, or a stepped region of this package. -/
def State.target? (s : State) (ia : Nat) : Target :=
  if iaTier ia = 7 then ⟨BitVec.ofNat 16 (nbits ia 43 34), nbits ia 33 28, nbits ia 27 0⟩
  else
    match s.regionAt ia with
    | some (e, r) => ⟨s.fab.pkg, e, ia - r.base⟩
    | none => ⟨s.fab.pkg, 0, 2 ^ 28⟩

/-- Deliver one stepped unit of a command to its target, and learn whether it is accepted (R105, R371, R372). -/
def State.deliverUnit (s : State) (c : CoreId) (q : SeqId) (x : Cmd) (dst : BitVec 16) (u : StepUnit) :
    Except UEnd (State × Cmd) :=
  if dst = s.fab.pkg then
    match s.arriveUnit s.fab.pkg u with
    | (true, t) => .ok (t, x)
    | (false, t) => .error (.status t 0x08)
  else (s.askPeer c q x dst (.stepped u)).map fun r => (r.2.1, r.2.2)

/-- A stepped unit of a command. -/
def State.unitTo (s : State) (x : Cmd) (g : Fin 16 × Nat) (exp off : Nat) (bs : List Byte)
    (kind : WKind) (sn : Nat) (flag : Option Nat) (after : Nat) : StepUnit :=
  ⟨s.fab.groups[g.1.val].gid, g.2, BitVec.ofNat 6 exp, off, bs, kind, s.cmdKey x sn,
    BitVec.ofNat 40 x.key0, flag, after, x.depth⟩

/-! ### RST, RRED, RLD (R264 to R267) -/

/-- The target that a command took at issue, and the offset of its flag. -/
def Cmd.target (x : Cmd) : Target := ⟨BitVec.ofNat 16 (x.ias.getD 0 0), x.ias.getD 1 0, x.ias.getD 2 0⟩
def Cmd.flagOff (x : Cmd) : Option Nat := x.ias[3]?

/-- A unit of a unicast RST, or of an RRED: 256 bytes. -/
def State.rstUnit (s : State) (c : CoreId) (q : SeqId) (x : Cmd) (kind : WKind) (elem : Nat) : Except UEnd (State × Cmd) := do
  let n := x.blk.p2.toNat
  let o := 256 * x.done
  let g ← s.liveGroup x
  if n ≤ o then .error .over
  let bs := s.cmdBytes c x (x.blk.p1.toNat + o) (min 256 (n - o))
  let t := x.target
  s.deliverUnit c q x t.pkg (s.unitTo x g t.exp (t.off + o) bs kind (o / elem) x.flagOff (restUnits x n))

/-- The region that an RLD of a step reads, if it may (R103, R105). -/
def State.readTarget (s : State) (src gid : BitVec 16) (step exp off n : Nat) : Option Region :=
  match s.localGroup gid, dget s.fab.regions exp with
  | some g, some r =>
    if r.group = g && decide (r.begins ≤ step) && !r.closed step && s.fab.groups[g.val].members.contains src
        && decide (off + n ≤ r.bytes) then some r
    else none
  | _, _ => none

/-- A unit of RLD: 256 bytes as the last boundary left them (R106, R265). -/
def State.rldUnit (s : State) (c : CoreId) (q : SeqId) (x : Cmd) : Except UEnd (State × Cmd) := do
  let n := x.blk.p2.toNat
  let o := 256 * x.done
  let (g, step) ← s.liveGroup x
  if n ≤ o then .error .over
  let gr := s.fab.groups[g.val]
  let k := min 256 (n - o)
  let t := x.target
  if t.pkg = s.fab.pkg then
    if gr.step < step then .error .wait
    match s.readTarget s.fab.pkg gr.gid step t.exp (t.off + o) k with
    | none => .error (.status s 0x08)
    | some r =>
      let (bs, s) ← s.engineRead c x (r.base + t.off + o) k
      pure (s, x.putLm c (x.blk.p0.toNat + o) bs)
  else
    let (bs, s, x) ← s.askPeer c q x t.pkg (.read gr.gid step (BitVec.ofNat 6 t.exp) (t.off + o) k)
    pure (s, x.putLm c (x.blk.p0.toNat + o) bs)

/-! ### Multicast RST (R112, R113, R312 to R314) -/

/-- An entry of the multicast table. -/
def State.mcEntry (s : State) (m : Nat) : McEntry := (dget s.fab.mcast m).getD ⟨0, []⟩

def mcV (e : McEntry) : Bool := e.hdr.bit 63
def mcSelf (e : McEntry) : Nat := e.hdr.bits 62 56
def mcRoot (e : McEntry) : Bool := e.hdr.bit 48
def mcParent (e : McEntry) : Fin 16 := Fin.ofNat 16 (e.hdr.bits 47 44)
def mcDepth (e : McEntry) : Nat := e.hdr.bits 43 41
def mcKids (e : McEntry) : List (Fin 16) := (List.finRange 16).filter fun p => e.hdr.bit p.val

/-- The fields of a multicast name (R264). -/
def mcName (w : Word) : Bool := w.bits 63 62 == 2
def mcGroup (w : Word) : Fin 256 := Fin.ofNat 256 (w.bits 61 54)
def mcFlag (w : Word) : Option Nat := if w.bit 47 then some (8 * w.bits 46 28) else none

/-- The neighbour at a port: the package one hop away through it (R114). -/
def State.neighbour (s : State) (p : Fin 16) : BitVec 16 :=
  match s.fab.routes.find? fun e => routeV e.2 && routeDist e.2 == 1 && (upTo (routeAlt e.2 + 1)).any fun i =>
    e.2.bits (4 * i + 3) (4 * i) == p.val with
  | some e => BitVec.ofNat 16 e.1
  | none => 0

/-- Send a packet along a tree edge; a port that is down, or carries nothing of steps, yields to another candidate of the neighbour
(R117, R313, R376). -/
def State.sendPort (s : State) (p : Fin 16) (hop : Nat) (b : PBody) : State :=
  let dst := s.neighbour p
  let k : Packet := ⟨s.fab.pkg, dst, s.fab.inc, (s.peer dst).inc, hop, b⟩
  if s.fab.down.getLsbD p.val || !s.carries p b then s.emit k
  else { s with fab := { s.fab with wire := s.fab.wire ++ [(p, k)] } }

/-- Take a copy as the member of an entry's SELF: it is accepted whole, or refused whole (R313, R371). -/
def State.takeCopy (s : State) (src : BitVec 16) (m : McCopy) : Bool × State :=
  let u : StepUnit := ⟨m.gid, m.step, m.exp, m.off, m.data, .plain, m.key, m.key.sn, m.flag, 0, m.depth⟩
  match s.arriveUnit src u with
  | (true, t) => (true, t)
  | (false, t) => (false, t.refuseUnits ((m.data.length + 255) / 256 - 1))

/-- Send a copy along a tree edge, and keep it until the child has it (R313, R377). -/
def State.sendCopy (s : State) (hop : Nat) (m : McCopy) (p : Fin 16) : State :=
  (s.sendPort p hop (.req s.stamp (.copy m))).keepSend none (s.neighbour p) (.copy m)

/-- The parent learns that every package of this subtree has its copy. -/
def State.tellGot (s : State) (e : McEntry) (a : Ack) : State :=
  if a.record.isNone && a.owed.isEmpty then (s.sendReq none (s.neighbour (mcParent e)) (.got a.grp a.step a.key)).2 else s

/-- A copy reaches a package of the tree: the member takes it, and it goes on to the children (R313). The merging of the
responses begins. -/
def State.spreadCopy (s : State) (e : McEntry) (m : McCopy) (src : BitVec 16) (group : Option (Fin 16)) (record : Option Nat) :
    State :=
  let self := mcSelf e
  let (ok, s) := if self = 127 then (false, s) else s.takeCopy src m
  let acc := if self ≠ 127 && ok then 1 else 0
  let ref : Word := if self ≠ 127 && !ok then 1#64 <<< self else 0
  let s := (mcKids e).foldl (State.sendCopy · (mcDepth e) m) s
  let a : Ack := ⟨m.grp, group, m.step, m.key, mcKids e, acc, ref, record, m.depth, mcKids e⟩
  ({ s with fab := { s.fab with acks := s.fab.acks ++ [a] } } : State).tellGot e a

/-- The copies of a multicast RST have reached every package of the tree (R110, R267); a child that is lost ends it. -/
def State.mcastDone (s : State) (m : Fin 256) (step : Nat) (key : OKey) : Except UEnd Unit :=
  match s.fab.acks.find? fun a => a.grp = m && a.step = step && a.key = key with
  | none => .ok ()
  | some a =>
    if a.owed.any fun p => (s.peer (s.neighbour p)).lost then .error (.status s 0x0A)
    else if a.owed.isEmpty then .ok ()
    else .error .wait

/-- A unit of a multicast RST: the first one sends the copies. When every package has its copy the command completes with status 0
(R267, R372). -/
def State.mcastUnit (s : State) (c : CoreId) (x : Cmd) : Except UEnd (State × Cmd) := do
  let n := x.blk.p2.toNat
  let g ← s.liveGroup x
  if n ≤ 256 * x.done then .error .over
  let w := x.blk.p0
  let key := s.cmdKey x 0
  if x.off = 1 then
    s.mcastDone (mcGroup w) g.2 key
    pure (s, x)
  else
    let m : McCopy := ⟨mcGroup w, s.fab.groups[g.1.val].gid, g.2, w.extractLsb' 48 6, w.bits 27 0, mcFlag w,
      s.cmdBytes c x x.blk.p1.toNat n, key, x.depth⟩
    .error (.more (s.spreadCopy (s.mcEntry (mcGroup w).val) m s.fab.pkg (some g.1) (some (x.ias.getD 0 0))) { x with off := 1 })

/-! ### Asynchronous writes (R98, R262, R263) -/

/-- The export that an asynchronous write may reach: one that is not stepped, and holds the range. -/
def State.plainExport (s : State) (exp off n : Nat) : Option Region :=
  match dget s.fab.regions exp with
  | some r => if !s.isStepped r.base && decide (off + n ≤ r.bytes) then some r else none
  | none => none

/-- A write performed directly in an export of this package. -/
def State.directWrite (s : State) (c : CoreId) (x : Cmd) (exp off : Nat) (bs : List Byte) : Except UEnd (State × Cmd) :=
  match s.plainExport exp off bs.length with
  | none => .error (.status s 0x08)
  | some r => s.engineWrite c x (fun _ => 0) 8 0 (r.base + off) bs

/-- The buffer that an asynchronous exchange names is this package's export; the WAITC that covers it acquires it (R98). -/
def State.nameBuffer (s : State) (c : CoreId) (q : SeqId) (exp : Nat) : State :=
  match dget s.fab.regions exp with
  | some r =>
    let k := s.seq c q
    s.setSeq c q { k with named := k.named ++ [(r.base, r.bytes)] }
  | none => s

/-! ### XALL (R262) -/

def xallExp (b : Blk) : Nat := b.p3.bits 17 12
def xallAsync (b : Blk) : Bool := b.p3.bit 18
def xallRsz (b : Blk) : Nat := b.p3.bits 34 19

/-- What an XALL took at issue: the owners of the shards and the counts of the buckets. -/
def Cmd.xallOwners (x : Cmd) (t : Table) : List Nat := (x.record.take t.shcnt).map (·.toNat)
def Cmd.xallCounts (x : Cmd) (t : Table) : List Nat := ((x.record.drop t.shcnt).take t.shcnt).map (·.toNat)

/-- The members in ascending order of their least owned shard: packages and the shards they own. -/
def xallMembers (owners : List Nat) : List (Nat × List Nat) :=
  (owners.eraseDups).map fun p => (p, (upTo owners.length).filter fun s => owners.getD s 0 == p)

/-- The first byte of bucket `sh` after the counts, and the bytes of a member's area. -/
def bucketAt (counts : List Nat) (rsz sh : Nat) : Nat := ((counts.take sh).map (· * rsz)).sum

def areaLen (counts : List Nat) (rsz : Nat) (shs : List Nat) : Nat := (shs.map fun sh => 8 + counts.getD sh 0 * rsz).sum

/-- The inbox area for a member. -/
def State.areaBytes (s : State) (c : CoreId) (x : Cmd) (t : Table) (shs : List Nat) : List Byte :=
  let counts := x.xallCounts t
  let rsz := xallRsz x.blk
  let base := x.blk.p0.toNat + align8 (4 * t.shcnt)
  shs.flatMap fun sh =>
    leBytes 8 (counts.getD sh 0) ++ s.cmdBytes c x (base + bucketAt counts rsz sh) (counts.getD sh 0 * rsz)

/-- Read the owners and the bucket counts of an XALL (R262). -/
def State.xallTake (s : State) (c : CoreId) (x : Cmd) (t : Table) : Except UEnd (Cmd × State) :=
  match s.owners c x t with
  | .error e => .error e
  | .ok (os, s) =>
    let counts := (upTo t.shcnt).map fun i => word (leNat (s.cmdBytes c x (x.blk.p0.toNat + 4 * i) 4))
    .ok ({ x with record := os.map word ++ counts }, s)

/-- Bytes of the bucket set of an XALL. -/
def Cmd.xallLen (x : Cmd) (t : Table) : Nat :=
  align8 (4 * t.shcnt) + bucketAt (x.xallCounts t) (xallRsz x.blk) t.shcnt

/-- The eight-byte words that an XALL sends: its issue sequence numbers (R267). -/
def Cmd.xallWords (x : Cmd) (t : Table) : Nat :=
  ((xallMembers (x.xallOwners t)).map fun m => areaLen (x.xallCounts t) (xallRsz x.blk) m.2 / 8).sum

/-- An XALL whose owners could not be read at issue takes them, and its issue sequence numbers, before its first unit. -/
def State.xallReady (s : State) (c : CoreId) (q : SeqId) (x : Cmd) (t : Table) : Except UEnd (Cmd × State) :=
  if !x.record.isEmpty then .ok (x, s)
  else
    match s.xallTake c x t with
    | .error e => .error e
    | .ok (x, s) =>
      if 0x200000 < x.blk.p0.toNat + x.xallLen t then .error (.status s 0x06)
      else
        match x.stepOf with
        | none => .ok (x, s)
        | some (g, n) =>
          .ok ({ x with gid := globalId c q, key0 := s.seqno g n (globalId c q), elems := x.xallWords t },
            s.takeSeqnos g n (globalId c q) (x.xallWords t))

/-- An asynchronous XALL whose own areas have gone waits for those of every other member (R98), and ends with status 0x0A when one that
is missing cannot come. -/
def State.xallEnd (s : State) (x : Cmd) (ms : List (Nat × List Nat)) : Except UEnd (State × Cmd) := do
  let e := xallExp x.blk
  let missing := (ms.map fun m => BitVec.ofNat 16 m.1).filter fun p => p != s.fab.pkg && !s.fab.areas.contains (p, e, x.aux)
  if missing.any fun p => !s.reachable p then .error (.status s 0x0A)
  if !missing.isEmpty then .error .wait
  let s := { s with fab := { s.fab with areas := s.fab.areas.filter fun a => !(a.2.1 = e && a.2.2 = x.aux) } }
  .error (.more s { x with off := 1 })

/-- A unit of XALL: one destination member. -/
def State.xallUnit (s : State) (c : CoreId) (q : SeqId) (x : Cmd) : Except UEnd (State × Cmd) := do
  if !xallAsync x.blk then let _ ← s.liveGroup x
  let (_, t) ← x.tableOr s
  let (x, s) ← s.xallReady c q x t
  let owners := x.xallOwners t
  let counts := x.xallCounts t
  let rsz := xallRsz x.blk
  let me := (owners.findIdx? (· == s.fab.pkg.toNat))
  match me with
  | none => .error (.status s 0x09)
  | some me =>
    let ms := xallMembers owners
    match ms[x.done]? with
    | none => if xallAsync x.blk && x.off = 0 then s.xallEnd x ms else .error .over
    | some (p, shs) =>
      let len := areaLen counts rsz shs
      if x.blk.p2.toNat < len then .error (.status s 0x0B)
      let bs := s.areaBytes c x t shs
      let off := x.blk.p1.toNat + me * x.blk.p2.toNat
      let dst : BitVec 16 := BitVec.ofNat 16 p
      if xallAsync x.blk then
        if dst = s.fab.pkg then s.directWrite c x (xallExp x.blk) off bs
        else
          let (_, s, x) ← s.askPeer c q x dst (.write (BitVec.ofNat 6 (xallExp x.blk)) off bs x.depth x.aux)
          pure (s, x)
      else
        let g ← s.liveGroup x
        let sn := ((ms.take x.done).map fun m => areaLen counts rsz m.2 / 8).sum
        s.deliverUnit c q x dst (s.unitTo x g (xallExp x.blk) off bs .plain sn none 0)

/-! ### COLL (R263) -/

def collKind (b : Blk) : Nat := b.p3.bits 1 0
def collOp (b : Blk) : Nat := b.p3.bits 5 2
def collW8 (b : Blk) : Bool := b.p3.bits 7 6 == 3
def collExp (b : Blk) : Nat := b.p3.bits 13 8
def collAsync (b : Blk) : Bool := b.p3.bit 14
def collGrp (b : Blk) : Fin 256 := Fin.ofNat 256 (b.p3.bits 22 15)
def collRoot (b : Blk) : Nat := b.p3.bits 28 23

/-- The operation of a code of R168. -/
def atomOfCode (n : Nat) : AtomOp :=
  match n with
  | 0 => .swp | 1 => .add | 2 => .and | 3 => .or | 4 => .xor | 5 => .min | 6 => .max | 7 => .minn | 8 => .maxn | 9 => .fadd
  | _ => .fmax

/-- What the member at `me` of `m` sends to the member at `j`: the offset within its contribution and the bytes; none when it
sends nothing. -/
def collPart (b : Blk) (m me j : Nat) : Option (Nat × Nat) :=
  let n := b.p2.toNat
  match collKind b with
  | 2 => if me = collRoot b then some (0, n) else none
  | 3 => some (j * (n / m), n / m)
  | _ => some (0, n)

/-- Where the bytes of the member at `i` go in a member's export. -/
def collOff (b : Blk) (i : Nat) : Nat := if collKind b = 1 then b.p1.toNat + i * b.p2.toNat else b.p1.toNat

/-- The members whose contributions a member awaits. -/
def collFrom (b : Blk) (ms : List (BitVec 16)) : List (BitVec 16) :=
  if collKind b = 2 then (ms[collRoot b]?).toList else ms

/-- Combine contributions element by element (R263). -/
def collReduce (op : AtomOp) (w8 : Bool) (acc bs : List Byte) : List Byte :=
  let w := opBytes w8
  (upTo (acc.length / w)).flatMap fun i =>
    leBytes w (atomApply op w8 (word (wordAt acc (w * i) w)) (word (wordAt bs (w * i) w))).toNat

/-- Place a contribution in ascending package id. -/
def contribInsert (x : Contrib) : List Contrib → List Contrib
  | [] => [x]
  | y :: t => if y.src.toNat < x.src.toNat then y :: contribInsert x t else x :: y :: t

/-- The contributions to one collective that have arrived, in ascending package id. -/
def State.contribsOf (s : State) (grp : Fin 256) (n : Nat) : List Contrib :=
  (s.fab.contrib.filter fun x => x.grp = grp && x.n = n).foldl (fun l x => contribInsert x l) []

/-- Write the result of an asynchronous collective in this member's export, once every contribution has arrived. -/
def State.collResult (s : State) (c : CoreId) (x : Cmd) (ms : List (BitVec 16)) : Except UEnd (State × Cmd) := do
  let b := x.blk
  let cs := s.contribsOf (collGrp b) x.aux
  let want := collFrom b ms
  let missing := want.filter fun p => !(cs.any fun k => k.src = p)
  if missing.any fun p => p != s.fab.pkg && !s.reachable p then .error (.status s 0x0A)
  if !missing.isEmpty then .error .wait
  let (s, x) ← match collKind b with
    | 1 => cs.foldlM (fun z k => State.directWrite z.1 c z.2 (collExp b) (collOff b (ms.idxOf k.src)) k.data) (s, x)
    | 2 => cs.foldlM (fun z k => State.directWrite z.1 c z.2 (collExp b) (collOff b 0) k.data) (s, x)
    | _ =>
      match cs with
      | [] => pure (s, x)
      | k :: ks =>
        let r := ks.foldl (fun acc e => collReduce (atomOfCode (collOp b)) (collW8 b) acc e.data) k.data
        s.directWrite c x (collExp b) b.p1.toNat r
  let s := { s with fab := { s.fab with contrib := s.fab.contrib.filter fun k => !(k.grp = collGrp b && k.n = x.aux) } }
  .error (.more s { x with off := 1 })

/-- A unit of COLL: one destination member. Before the first route image it ends with status 0x0A (R304). -/
def State.collUnit (s : State) (c : CoreId) (q : SeqId) (x : Cmd) : Except UEnd (State × Cmd) := do
  let b := x.blk
  let e := s.mcEntry (collGrp b).val
  if !collAsync b then let _ ← s.liveGroup x
  if !mcV e && !(s.fab.routes.any fun r => routeV r.2) then .error (.status s 0x0A)
  if !mcV e || mcSelf e = 127 then .error (.status s 0x09)
  let ms := e.members
  let me := mcSelf e
  let j := x.done
  match ms[j]? with
  | none => if collAsync b && x.off = 0 then s.collResult c x ms else .error .over
  | some dst =>
    match collPart b ms.length me j with
    | none => pure (s, x)
    | some (o, n) =>
      let bs := s.cmdBytes c x (b.p0.toNat + o) n
      if collAsync b then
        if dst = s.fab.pkg then
          pure ({ s with fab := { s.fab with contrib := s.fab.contrib ++ [⟨dst, collGrp b, x.aux, bs⟩] } }, x)
        else
          let (_, s, x) ← s.askPeer c q x dst (.contrib (collGrp b) x.aux bs)
          pure (s, x)
      else
        let g ← s.liveGroup x
        let sn := ((upTo j).map fun i => match collPart b ms.length me i with | some (_, k) => k / 8 | none => 0).sum
        s.deliverUnit c q x dst (s.unitTo x g (collExp b) (collOff b me) bs .plain sn none 0)

/-! ### Running a command -/

/-- The issue sequence number, within a command that is saved at a unit, of the first element of its next one (R107, R247). -/
def Cmd.nextElem (x : Cmd) : Nat :=
  match x.op.toNat with
  | 0xB0 => 256 * x.done / (x.record.headD 1).toNat
  | 0xB1 => x.shape.esz * x.done / (x.record.headD 1).toNat
  | _ => x.table.elim 0 fun t => (2 * t.2.elems + 1) * x.done

/-- The next unit of a command, by its opcode. -/
def State.nextUnit (s : State) (c : CoreId) (q : SeqId) (x : Cmd) : Except UEnd (State × Cmd) :=
  match x.op.toNat with
  | 0xB0 => s.cpyUnit c x
  | 0xB1 => s.cpyxUnit c x
  | 0xB2 => s.gathUnit c x
  | 0xB3 => s.poolUnit c x
  | 0xB4 => s.decmpUnit c x
  | 0xB5 => s.supdUnit c x
  | 0xB6 => s.buckUnit c x
  | 0xB7 => s.xallUnit c q x
  | 0xB8 => s.collUnit c q x
  | 0xB9 => s.walkUnit c x
  | 0xC0 => if mcName x.blk.p0 then s.mcastUnit c x else s.rstUnit c q x .plain 8
  | 0xC1 => s.rldUnit c q x
  | _ => s.rstUnit c q x (.rred (atomOfCode (x.blk.p3.bits 3 0)) (x.blk.p3.bits 5 4 == 3)) (opBytes (x.blk.p3.bits 5 4 == 3))

/-- What running a command once came to: it goes on, it waits or is stopped, or no unit of it is left. -/
inductive Ran where
  | on | stuck | over
deriving DecidableEq, Repr

/-- Run the next unit of the command at a place of a sequencer's list, when what its last unit writes has been performed: it reads what it
has not read ahead, and what it writes is performed from now on, granule by granule (R83, R95, R247). -/
def State.runUnit (s0 : State) (c : CoreId) (q : SeqId) (i : Nat) : Ran × State :=
  match (s0.readyCmd c q i).bind fun x => s0.settleCmd c q x with
  | none => (.stuck, s0)
  | some (s, x) =>
    let x := s.holdCmd c x
    let y := { x with peeked := [] }
    match s.nextUnit c q x with
    | .ok (t, z) => (.on, t.putCmd c q { z with done := z.done + 1, peeked := [] })
    | .error .wait => (.stuck, s)
    | .error .over => (.over, s)
    | .error (.more t z) => (.on, t.putCmd c q { z with peeked := [] })
    | .error (.fault t ia) => (.stuck, t.stopCmd c q y ia)
    | .error (.foreign t ia) => (.over, t.foreignCmd c q y ia)
    | .error (.status t st) => (.over, t.putCmd c q { y with stat := st })

/-- A granule may be read ahead: in local memory, or confirmed by a home that serves it, on a page that is not stepped, with no word of
it in error. -/
def State.mayPeek (s : State) (ia : Nat) : Bool :=
  iaTier ia = 5 || (hasHome ia && !s.homeDown ia && !s.isStepped ia
    && (s.sound || ((s.badAt (s.arrayIa ia)).isNone && (s.undecodable ia).isNone))
    && (match s.confirmAll false ia 8 with | .ok () => true | .error _ => false))

/-- The bytes of a granule. -/
def State.granuleNow (s : State) (ia : Nat) : List Byte :=
  if iaTier ia = 5 then Memory.read s.hm.lm (iaOff ia) 8 else s.homeBytes ia 8

/-- A command reads one granule of its next unit ahead of the rest (R83). -/
def State.peekCmd (s : State) (c : CoreId) (q : SeqId) (i ia : Nat) : State :=
  let a := granule ia
  match s.readyCmd c q i with
  | none => s
  | some x =>
    if !x.pend.isEmpty || (x.peeked.any fun g => g.1 == a) || !s.mayPeek a then s
    else s.putCmd c q { x with peeked := x.peeked ++ [(a, s.granuleNow a)] }

/-- Granule `k` of some writes may be performed next: no earlier one shares a byte with it, and its home serves. -/
def State.mayPut (s : State) (gs : List (Nat × List Byte)) (k : Nat) : Option (Nat × List Byte) :=
  gs[k]?.bind fun g =>
    if ((gs.take k).any fun h => overlap h.1 h.2.length g.1 g.2.length) || s.homeDown g.1 then none else some g

/-- One granule that a command's last unit writes is performed (R83, R95). -/
def State.runPiece (s : State) (c : CoreId) (q : SeqId) (i k : Nat) : State :=
  match (s.seq c q).cmds[i]? with
  | none => s
  | some x =>
    match s.mayPut x.pend k with
    | none => s
    | some g => (s.putGranule c x.depth g).putCmd c q { x with pend := x.pend.eraseIdx k }

/-- Run a command as far as it goes; the fuel bounds the units. -/
def State.runCmd (s : State) (c : CoreId) (q : SeqId) (i : Nat) : Nat → Ran × State
  | 0 => (.stuck, s)
  | fuel + 1 =>
    match s.runUnit c q i with
    | (.on, t) => State.runCmd t c q i fuel
    | r => r

/-- A bound on the units of a command. -/
def Cmd.bound (x : Cmd) : Nat :=
  match x.op.toNat with
  | 0xB1 => x.shape.count
  | 0xB2 => x.blk.p3.toNat
  | 0xB3 => x.record.length
  | 0xB5 => x.blk.p1.toNat
  | 0xB0 | 0xC0 | 0xC1 | 0xC2 => x.blk.p2.toNat / 256 + 1
  | 0xB4 => x.blk.p2.toNat
  | _ => 1024

/-- Run the command at a place to where it completes, waits or stops. A command that already has its status is over when what it has
written is performed. -/
def State.runAll (s : State) (c : CoreId) (q : SeqId) (i : Nat) : Ran × State :=
  match (s.seq c q).cmds[i]? with
  | none => (.stuck, s)
  | some x =>
    if x.stat ≠ 0 then
      match s.settleCmd c q x with
      | none => (.stuck, s)
      | some (t, _) => (.over, t)
    else s.runCmd c q i (2 * x.bound + 5)

/-! ### Peers that are lost (R379, R380) -/

/-- A command names a package (R380): as its target, or among the members it sends to. -/
def State.cmdNames (s : State) (x : Cmd) (p : BitVec 16) : Bool :=
  match x.op.toNat with
  | 0xB7 => x.table.any fun t => (x.xallOwners t.2).contains p.toNat
  | 0xB8 => (s.mcEntry (collGrp x.blk).val).members.contains p
  | 0xC0 =>
    if mcName x.blk.p0 then
      let e := s.mcEntry (mcGroup x.blk.p0).val
      e.members.contains p || (mcKids e).any fun k => s.neighbour k == p
    else x.target.pkg == p
  | 0xC1 => x.target.pkg == p
  | 0xC2 => x.target.pkg == p
  | _ => false

/-- The commands in flight that name a lost peer complete with status 0x0A (R380); what they have sent is forgotten. -/
def State.losePeer (s : State) (p : BitVec 16) : State :=
  let mark := fun (x : Cmd) => if x.stat = 0 && s.cmdNames x p then { x with stat := 0x0A } else x
  let lost := fun (d : Send) => match d.core with
    | none => false
    | some (c, q, stamp) => (s.seq c q).cmds.any fun x => x.stamp = stamp && s.cmdNames x p
  { s with
    cores := s.cores.map fun k => { k with seqs := k.seqs.map fun q => { q with cmds := q.cmds.map mark } }
    fab := { s.fab with sends := s.fab.sends.filter fun d => !lost d } }

/-- An asynchronous XALL or COLL that completes leaves the buffer it names to be acquired (R98). -/
def State.endNamed (s : State) (c : CoreId) (q : SeqId) (x : Cmd) : State :=
  if x.op = 0xB7 ∧ xallAsync x.blk then s.nameBuffer c q (xallExp x.blk)
  else if x.op = 0xB8 ∧ collAsync x.blk then s.nameBuffer c q (collExp x.blk)
  else s

/-- ENGINE_COMMAND_COMPLETE (R245): the remaining units are performed and the command leaves its class. -/
def State.completeCmd (s : State) (c : CoreId) (q : SeqId) (i : Nat) : State :=
  match s.runAll c q i with
  | (.over, t) =>
    match (t.seq c q).cmds[i]? with
    | some x => (t.endNamed c q x).endCmd c q x
    | none => t
  | (_, t) => t

end Sys2Proof.Machine
end

