-- ==== Sys2Proof/Machine/Engines.lean ====
section
/-! DEFINITION. The issue of every engine and remote command (R243 to R268, R312, R370, R375), STEPQ (R173), and the events of
commands in flight (R245, R257, R327). -/

namespace Sys2Proof.Machine

/-! ### Shared checks -/

/-- A variable word outside its limits (R338). -/
def State.limit (s : State) (ok : Bool) : Except Stop Unit := if ok then .ok () else .error (s.wordTrap 0x01)

/-- A stepped-mode command needs a participant (R370); its trap reports the VA given, or 0 (R321). -/
def State.needStep (s : State) (va : Nat := 0) : Except Stop Unit :=
  if (s.agentGroup s.cur.core).isNone then .error (.trap ⟨0x18, word va, s.cur.word⟩) else .ok ()

/-- The table of an id in the issuing partition's directory (R72). -/
def State.tableNow (s : State) (id : Nat) : Option (Nat × Table) :=
  (dget (s.part s.here.partNo).tables id).map fun t => (id, t)

/-- Bytes of a row rounded up, when the table is defined. -/
def rowSpan (t : Option (Nat × Table)) : Nat := match t with | some t => align8 t.2.rowBytes | none => 0

/-- A command that writes a global range takes its step when the range is stepped (R103, R107). -/
def State.stepFor (s : State) (x : Cmd) (lm : Bool) (ia n : Nat) (elem : Nat) : Cmd × State :=
  if !lm && s.meetsStep ia n then s.takeStep x ((n + elem - 1) / elem) else (x, s)

/-! ### CPY and CPYX -/

/-- The issue of CPY (R249). -/
def State.issueCpy (s : State) (ev : Bool) (b : Blk) : Except Stop State := do
  let n := b.p2.toNat
  s.limit (decide (n ≤ 2 ^ 40))
  let us : List EUse := [⟨Blk.lm b 0, b.p0.toNat, n, 1, true, false⟩, ⟨Blk.lm b 1, b.p1.toNat, n, 1, false, false⟩]
  let ias ← s.useRanges us
  let dst := ias.getD 0 0
  let elem := if Blk.lm b 0 then 1 else s.elemOf dst n
  let x := { s.newCmd ev b with ias := ias, record := [word elem], reads := localReads us, writes := localWrites us }
  let (x, s) := s.stepFor x (Blk.lm b 0) dst n elem
  s.issueCmd x

/-- CPY (R249). -/
def execCpy (ev : Bool) (b : Blk) (s : State) : Host.Outcome State Fault Refusal :=
  device .ls s fun s => s.issueCpy ev (s.me.substBlk b)

/-- The inline tensor of a CPYX. -/
def inlineShape (b : Blk) : Shape :=
  let e := 2 ^ b.p3.bits 1 0
  let e0 := b.p2.bits 15 0
  let e1 := b.p2.bits 31 16
  let e2 := b.p2.bits 47 32
  ⟨e, [(e0, e, e), (e1, 8 * b.p3.bits 19 4, e * e0), (e2, 8 * b.p3.bits 35 20, e * e0 * e1),
    (b.p2.bits 63 48, 8 * b.p3.bits 51 36, e * e0 * e1 * e2)]⟩

/-- Read a shape record at issue (R245, R250): its bytes lie in local memory, no earlier command is still to write them, and it
is well-formed. -/
def State.shapeRecord (s : State) (off : Nat) : Except Stop Shape := do
  let _ ← s.useRanges [⟨true, off, 8, 8, false, false⟩]
  if !s.settled off 8 then .error .hold
  let hdr := word (leNat (s.issueBytes off 8))
  let d := hdr.bits 3 0
  s.limit (decide (1 ≤ d) && decide (d ≤ 8) && hdr.bits 63 6 == 0)
  let _ ← s.useRanges [⟨true, off, 8 + 24 * d, 8, false, false⟩]
  if !s.settled off (8 + 24 * d) then .error .hold
  let bs := (s.issueBytes off (8 + 24 * d)).drop 8
  let ws := (upTo (3 * d)).map fun i => word (wordAt bs (8 * i) 8)
  let h : Shape := ⟨2 ^ hdr.bits 5 4, dimsOf ws⟩
  s.limit (h.dims.all fun x => decide (x.1 < 2 ^ 32) && x.2.1 % h.esz == 0 && x.2.2 % h.esz == 0)
  pure h

/-- The range that the elements of a side span. -/
def Shape.use (h : Shape) (f : Nat × Int × Int → Int) (lm : Bool) (a : Word) (wr : Bool) : EUse :=
  if h.count = 0 then ⟨lm, a.toNat, 0, h.esz, wr, false⟩
  else
    let r := h.span f
    ⟨lm, addOff a.toNat r.1, (r.2 - r.1).toNat + h.esz, h.esz, wr, false⟩

/-- The issue of CPYX (R250). -/
def State.issueCpyx (s : State) (ev : Bool) (b : Blk) : Except Stop State := do
  let rec? := b.p3.bit 3
  let h ← if rec? then s.shapeRecord b.p2.toNat else pure (inlineShape b)
  let us := [h.use dstStride (Blk.lm b 0) b.p0 true, h.use srcStride (Blk.lm b 1) b.p1 false]
  let ias ← s.useRanges us
  let dst := ias.getD 0 0
  let n := ((us[0]?).map (·.n)).getD 0
  let elem := if Blk.lm b 0 then 1 else s.elemOf dst n
  let x := { s.newCmd ev b with
    ias := ias, record := word elem :: word h.esz :: dimWords h.dims, reads := localReads us, writes := localWrites us }
  let (x, s) := if !Blk.lm b 0 && s.meetsStep dst n then s.takeStep x ((h.count * h.esz + elem - 1) / elem) else (x, s)
  s.issueCmd x

/-- CPYX (R250). -/
def execCpyx (ev : Bool) (b : Blk) (s : State) : Host.Outcome State Fault Refusal :=
  device .ls s fun s => s.issueCpyx ev (s.me.substBlk b)

/-! ### GATH, WALK, POOL -/

/-- The issue of GATH (R251). -/
def State.issueGath (s : State) (ev : Bool) (b : Blk) : Except Stop State := do
  let n := b.p3.toNat
  s.limit (decide (b.p1.toNat ≤ 4095) && decide (n ≤ 65536))
  let t := s.tableNow b.p1.toNat
  let us : List EUse := [⟨true, b.p0.toNat, n * rowSpan t, 8, true, false⟩, ⟨true, b.p2.toNat, 8 * n, 8, false, false⟩]
  let _ ← s.useRanges us
  s.issueCmd { s.newCmd ev b with table := t, reads := localReads us, writes := localWrites us }

/-- GATH (R251). -/
def execGath (ev : Bool) (b : Blk) (s : State) : Host.Outcome State Fault Refusal :=
  device .l s fun s => s.issueGath ev (s.me.substBlk b)

/-- The issue of WALK (R252). -/
def State.issueWalk (s : State) (ev : Bool) (b : Blk) : Except Stop State := do
  let n := walkCount b
  let us : List EUse := [⟨true, b.p0.toNat, n * walkBytes b, 8, true, false⟩, ⟨false, b.p1.toNat, 0, 8, false, false⟩,
    ⟨true, b.p2.toNat, 4 * n, 4, false, false⟩]
  let _ ← s.useRanges us
  s.issueCmd { s.newCmd ev b with reads := localReads us, writes := localWrites us }

/-- WALK (R252). -/
def execWalk (ev : Bool) (b : Blk) (s : State) : Host.Outcome State Fault Refusal :=
  device .l s fun s => s.issueWalk ev (s.me.substBlk b)

/-- Read a bag list at issue (R245, R253): its words, two for each bag. -/
def State.bagList (s : State) (off : Nat) : Except Stop (List Word) := do
  let _ ← s.useRanges [⟨true, off, 8, 8, false, false⟩]
  if !s.settled off 8 then .error .hold
  let w := word (leNat (s.issueBytes off 8))
  s.limit (decide (w.toNat ≤ 65536))
  let len := 8 + 16 * w.toNat
  let _ ← s.useRanges [⟨true, off, len, 8, false, false⟩]
  if !s.settled off len then .error .hold
  let bs := (s.issueBytes off len).drop 8
  let ws := (upTo (2 * w.toNat)).map fun i => word (wordAt bs (8 * i) 8)
  s.limit ((upTo w.toNat).all fun i =>
    let loc := ws.getD (2 * i) 0
    let cnt := ws.getD (2 * i + 1) 0
    loc.bits 63 43 == 0 && decide (cnt.toNat ≤ 65536) && loc.bits 20 0 % 8 == 0 && (loc.bit 42 || loc.bits 41 21 % 2 == 0))
  pure ws

/-- The issue of POOL (R253, R254). -/
def State.issuePool (s : State) (ev : Bool) (b : Blk) : Except Stop State := do
  s.limit (decide (b.p1.toNat ≤ 4095))
  let _ ← s.useRanges [⟨true, b.p0.toNat, 0, 8, true, false⟩, ⟨true, b.p2.toNat, 0, 8, false, false⟩]
  let ws ← s.bagList b.p2.toNat
  let t := s.tableNow b.p1.toNat
  let bags := bagsOf ws
  let ob := match t with
    | some t => if t.2.fmt = 3 then 0 else align8 (t.2.elems * poolSize (poolOut b))
    | none => 0
  let us : List EUse := ⟨true, b.p0.toNat, bags.length * ob, 8, true, false⟩ :: bags.flatMap fun g =>
    ⟨true, g.idx, 8 * g.cnt, 8, false, false⟩ :: (match g.wgt with | some o => [⟨true, o, 2 * g.cnt, 2, false, false⟩] | none => [])
  let _ ← s.useRanges us
  s.issueCmd { s.newCmd ev b with record := ws, table := t, reads := localReads us, writes := localWrites us }

/-- POOL (R253, R254). -/
def execPool (ev : Bool) (b : Blk) (s : State) : Host.Outcome State Fault Refusal :=
  device .l s fun s => s.issuePool ev (s.me.substBlk b)

/-! ### DECMP, BUCK, SUPD -/

/-- The tokens of a ring are bound to the issuing sequencer (R257). -/
def State.ringBound (s : State) (b : Blk) : Bool :=
  let (pe, ce) := s.tbind (decmpTe b)
  let (pf, cf) := s.tbind (decmpTf b)
  let me := s.cur.sq.idx.val
  decmpTe b != decmpTf b && pe != ce && pf != cf && ce == me && pf == me

/-- The issue of DECMP (R257). -/
def State.issueDecmp (s : State) (ev : Bool) (b : Blk) : Except Stop State := do
  s.limit (decide (1 ≤ b.p2.toNat) && decide (b.p2.toNat < 2 ^ 32))
  if decmpSlots b ≠ 0 ∧ !s.ringBound b then .error (s.wordTrap 0x03)
  let us : List EUse := [⟨true, b.p0.toNat, max (decmpSlots b) 1 * decmpSlotBytes b, 8, true, false⟩,
    ⟨false, b.p1.toNat, 16, 8, false, false⟩]
  let _ ← s.useRanges us
  s.issueCmd { s.newCmd ev b with reads := localReads us, writes := localWrites us }

/-- DECMP (R257). -/
def execDecmp (ev : Bool) (b : Blk) (s : State) : Host.Outcome State Fault Refusal :=
  device .l s fun s => s.issueDecmp ev (s.me.substBlk b)

/-- The issue of BUCK (R260). -/
def State.issueBuck (s : State) (ev : Bool) (b : Blk) : Except Stop State := do
  let n := b.p2.toNat
  s.limit (decide (n ≤ 65536))
  let t := s.tableNow (tblOfP3 b)
  let cnt := match t with | some t => align8 (4 * t.2.shcnt) | none => 0
  let us : List EUse := [⟨true, b.p0.toNat, (if t.isSome then cnt + n * buckRsz b else 0), 8, true, false⟩,
    ⟨true, b.p1.toNat, n * buckRsz b, 8, false, false⟩]
  let _ ← s.useRanges us
  s.issueCmd { s.newCmd ev b with table := t, reads := localReads us, writes := localWrites us }

/-- BUCK (R260). -/
def execBuck (ev : Bool) (b : Blk) (s : State) : Host.Outcome State Fault Refusal :=
  device .s s fun s => s.issueBuck ev (s.me.substBlk b)

/-- The bytes of a table's local rows and of its optimiser state meet a stepped region. -/
def State.tableStepped (s : State) (t : Table) : Bool :=
  s.meetsStep t.base (t.rows * t.stride) || (t.opt == 2 && s.meetsStep t.optBase (t.rows * t.stride))

/-- The issue of SUPD (R261). -/
def State.issueSupd (s : State) (ev : Bool) (b : Blk) : Except Stop State := do
  let n := b.p1.toNat
  s.limit (decide (n ≤ 65536))
  let t := s.tableNow (tblOfP3 b)
  let rsz := match t with | some t => supdRsz t.2 | none => 0
  let us : List EUse := [⟨Blk.lm b 0, b.p0.toNat, n * rsz, 8, false, false⟩]
  let ias ← s.useRanges us
  let x := { s.newCmd ev b with ias := ias, table := t, reads := localReads us, writes := localWrites us }
  let (x, s) := match t with
    | some t => if s.tableStepped t.2 then s.takeStep x (n * (2 * t.2.elems + 1)) else (x, s)
    | none => (x, s)
  s.issueCmd x

/-- SUPD (R261). -/
def execSupd (ev : Bool) (b : Blk) (s : State) : Host.Outcome State Fault Refusal :=
  device .s s fun s => s.issueSupd ev (s.me.substBlk b)

/-! ### XALL and COLL -/

/-- An asynchronous exchange takes the number of its export's next (R98, log 34); a stepped one takes its step. -/
def State.xallNumber (s : State) (x : Cmd) (m : Nat) : Cmd × State :=
  if xallAsync x.blk then
    let k := 256 + xallExp x.blk
    let n := sget 0 s.fab.collSeq k
    ({ x with aux := n }, { s with fab := { s.fab with collSeq := sset 0 s.fab.collSeq k (n + 1) } })
  else s.takeStep x m

/-- XALL (R262). -/
def execXall (ev : Bool) (b : Blk) (s : State) : Host.Outcome State Fault Refusal :=
  device .s s fun s => do
    let b := s.me.substBlk b
    s.limit (b.p2.toNat % 8 == 0)
    let t := s.tableNow (tblOfP3 b)
    let hdr := match t with | some t => align8 (4 * t.2.shcnt) | none => 0
    let us := fun n => ([⟨true, b.p0.toNat, n, 8, false, false⟩, ⟨false, b.p1.toNat, 0, 8, true, false⟩] : List EUse)
    let _ ← s.useRanges (us hdr)
    let x := { s.newCmd ev b with table := t }
    match t with
    | none =>
      if !xallAsync b then s.needStep
      let (x, s) := s.xallNumber x 0
      s.issueCmd { x with reads := localReads (us hdr) }
    | some (_, d) =>
      if !s.settled b.p0.toNat hdr || s.seenTo d.owner (2 * d.shcnt) then .error .hold
      let (x, s) := match s.xallTake s.cur.core { x with held := [(b.p0.toNat, s.issueBytes b.p0.toNat hdr)] } d with
        | .ok (y, u) => ({ y with held := [] }, u)
        | .error _ => (x, s)
      let len := if x.record.isEmpty then hdr else x.xallLen d
      let _ ← s.useRanges (us len)
      if !xallAsync b then s.needStep
      let (x, s) := s.xallNumber x (x.xallWords d)
      s.issueCmd { x with reads := localReads (us len) }

/-- The package's own capability vector holds every operation; a peer's is what the route image gave (R375). A peer without a route
is none that a command is refused for: the command completes with status 0x0A (R304, R379). -/
def State.capable (s : State) (p : BitVec 16) (op : Nat) : Bool :=
  p == s.fab.pkg || !routeV (s.route p) || (sget 0 s.fab.caps p.toNat).bit op

/-- COLL (R263). -/
def execColl (ev : Bool) (b : Blk) (s : State) : Host.Outcome State Fault Refusal :=
  device .s s fun s => do
    let b := s.me.substBlk b
    let n := b.p2.toNat
    let e := s.mcEntry (collGrp b).val
    let m := e.members.length
    s.limit (n % 8 == 0 && (collKind b != 3 || !mcV e || n % (8 * m) == 0))
    let us : List EUse := [⟨true, b.p0.toNat, n, 8, false, false⟩, ⟨false, b.p1.toNat, 0, 8, true, false⟩]
    let _ ← s.useRanges us
    let x := { s.newCmd ev b with reads := localReads us }
    if collAsync b then
      if mcV e && e.members.any (fun p => !s.capable p (collOp b)) then .error (s.wordTrap 0x0D)
      let g := (collGrp b).val
      let k := sget 0 s.fab.collSeq g
      let s := { s with fab := { s.fab with collSeq := sset 0 s.fab.collSeq g (k + 1) } }
      s.issueCmd { x with aux := k }
    else
      s.needStep
      let words := ((upTo m).map fun j => match collPart b m (mcSelf e) j with | some (_, k) => k / 8 | none => 0).sum
      let (x, s) := s.takeStep x words
      s.issueCmd x

/-! ### RST, RLD, RRED -/

/-- The places of a target as a command keeps them. -/
def Target.ias (t : Target) : List Nat := [t.pkg.toNat, t.exp, t.off]

/-- The offset of a flag in the target of its RST; a flag elsewhere lies outside the export (R264, R371). -/
def flagIn (t f : Target) : Nat := if t.pkg = f.pkg ∧ t.exp = f.exp then f.off else 2 ^ 28

/-- A multicast RST (R264, R312): the acknowledgement record lies in a page that is not stepped. -/
def State.issueMcast (s : State) (ev : Bool) (b : Blk) : Except Stop State := do
  let n := b.p2.toNat
  let from? : EUse := ⟨true, b.p1.toNat, n, 8, false, false⟩
  let ack : EUse := ⟨false, b.p3.toNat, 32, 32, true, false⟩
  let ias ← s.useRanges [from?, ack]
  let ia := ias.getD 1 0
  if !hasHome ia || s.isStepped ia then .error (s.useTrap ack 0x07)
  let e := s.mcEntry (mcGroup b.p0).val
  if !mcV e || !mcRoot e then .error (s.wordTrap 0x0D)
  s.needStep
  let (x, s) := s.takeStep { s.newCmd ev b with ias := [ia], reads := localReads [from?] } (n / 8)
  s.issueCmd x

/-- RST (R264). -/
def execRst (ev : Bool) (b : Blk) (s : State) : Host.Outcome State Fault Refusal :=
  device .s s fun s => do
    let b := s.me.substBlk b
    let n := b.p2.toNat
    s.limit (n % 8 == 0 && decide (8 ≤ n) && decide (n ≤ 0x200000))
    if mcName b.p0 then s.issueMcast ev b
    else
      let flag : List EUse := if b.p3 = 0 then [] else [⟨false, b.p3.toNat, 8, 8, true, true⟩]
      let us : List EUse := [⟨true, b.p1.toNat, n, 8, false, false⟩, ⟨false, b.p0.toNat, n, 1, true, true⟩] ++ flag
      let ias ← s.useRanges us
      s.needStep b.p0.toNat
      let t := s.target? (ias.getD 1 0)
      let fs := match ias[2]? with | some f => [flagIn t (s.target? f)] | none => []
      let (x, s) := s.takeStep { s.newCmd ev b with ias := t.ias ++ fs, reads := localReads us } (n / 8)
      s.issueCmd x

/-- RLD (R265). -/
def execRld (ev : Bool) (b : Blk) (s : State) : Host.Outcome State Fault Refusal :=
  device .l s fun s => do
    let b := s.me.substBlk b
    let n := b.p2.toNat
    s.limit (n % 8 == 0 && decide (8 ≤ n) && decide (n ≤ 0x200000))
    let us : List EUse := [⟨true, b.p0.toNat, n, 8, true, false⟩, ⟨false, b.p1.toNat, n, 8, false, true⟩]
    let ias ← s.useRanges us
    s.needStep b.p1.toNat
    let (x, s) := s.takeStep { s.newCmd ev b with ias := (s.target? (ias.getD 1 0)).ias, writes := localWrites us } 0
    s.issueCmd x

/-- RRED (R266, R375). -/
def execRred (ev : Bool) (b : Blk) (s : State) : Host.Outcome State Fault Refusal :=
  device .s s fun s => do
    let b := s.me.substBlk b
    let n := b.p2.toNat
    let w := opBytes (b.p3.bits 5 4 == 3)
    s.limit (n % w == 0 && decide (n ≤ 0x200000))
    let us : List EUse := [⟨true, b.p1.toNat, n, 8, false, false⟩, ⟨false, b.p0.toNat, max n 1, w, true, true⟩]
    let ias ← s.useRanges us
    let t := s.target? (ias.getD 1 0)
    if !s.capable t.pkg (b.p3.bits 3 0) then .error (s.wordTrap 0x0D)
    s.needStep b.p0.toNat
    let (x, s) := s.takeStep { s.newCmd ev b with ias := t.ias, reads := localReads us } (n / w)
    s.issueCmd x

/-- STEPQ (R173, R381): the step number of a local group, all ones where none has been joined. -/
def execStepq (d : SReg) (g : Fin 16) (s : State) : Host.Outcome State Fault Refusal :=
  device .all s fun s => do
    let gr := s.fab.groups[g.val]
    match gr.joined, gr.failed with
    | true, some p => .error (.trap (lostTrap g p))
    | j, _ =>
      let s ← s.writeS d (if j then word gr.step else BitVec.allOnes 64)
      pure s.complete

/-! ### Events -/

/-- ENGINE_COMMAND_COMPLETE (R245). -/
def execEngineCommandComplete (core : CoreId) (sq : SeqId) (n : Nat) (s : State) : Host.Outcome State Fault Refusal :=
  .next (s.completeCmd core sq n)

/-- DECMP_FREE_TOKEN_TAKEN (R257, R258): a ring DECMP takes the free token and decodes its next block, or posts the full token that it
owes. -/
def execDecmpFreeTokenTaken (core : CoreId) (sq : SeqId) (n : Nat) (s : State) : Host.Outcome State Fault Refusal :=
  match (s.seq core sq).cmds[n]? with
  | some x => if x.op = 0xB4 ∧ decmpSlots x.blk ≠ 0 then .next (s.runUnit core sq n).2 else .next s
  | none => .next s

/-- ENGINE_FAULT (R327): a command runs to the unit that meets a home fault, and stops there. -/
def execEngineFault (core : CoreId) (sq : SeqId) (n : Nat) (s : State) : Host.Outcome State Fault Refusal :=
  .next (s.runAll core sq n).2

end Sys2Proof.Machine
end

