-- ==== Sys2Proof/Machine/Cards.lean ====
section
/-! DEFINITION. Cards as the schedulers see them: the checks of a card (R23, R25, R100, R384), handles (R24, R271), effective
classes (R38, R39), and the card's image in memory. -/

namespace Sys2Proof.Machine

/-! ### Checks (R23, R25, R384) -/

/-- A core belongs to the clusters of a partition (R298). -/
def State.inPart (s : State) (p : Fin 32) (c : CoreId) : Bool := (s.part p).clusters.getLsbD (clusterOf c)

/-- A rectangle is aligned and lies in the partition's clusters (R25). -/
def State.fits (s : State) (p : Fin 32) (ox oy w h : Nat) : Bool :=
  ox % w == 0 && oy % h == 0 && decide (ox + w ≤ 32) && decide (oy + h ≤ 8) && (rectCores ox oy w h).all (s.inPart p)

/-- The aligned positions of a rectangle, row by row. -/
def positions (w h : Nat) : List (Nat × Nat) :=
  (upTo (8 / h)).flatMap fun j => (upTo (32 / w)).map fun i => (w * i, h * j)

def CardImg.width (i : CardImg) : Nat := 2 ^ (CardImg.wlog i % 8)

def CardImg.height (i : CardImg) : Nat := 2 ^ (CardImg.hlog i % 4)

/-- The positions that a card may take: its fixed origin, or any (R25). -/
def CardImg.places (i : CardImg) : List (Nat × Nat) :=
  if CardImg.fixed i then [(CardImg.orgx i, CardImg.orgy i)] else positions (CardImg.width i) (CardImg.height i)

/-- A pool lies in local memory (R23). -/
def poolOk (i : CardImg) : Bool :=
  decide (CardImg.field i 0x1C 4 < 2 ^ 31) && decide (CardImg.poolSize i ≤ 4096)
    && decide (CardImg.poolBase i + 8 * CardImg.poolSize i ≤ 0x200000)

/-- The completion word of a card lies in the partition (R23). -/
def cwordOk (p : Fin 32) (i : CardImg) : Bool :=
  CardImg.cact i % 2 == 0
    || ((CardImg.cwaddr i).toNat % 8 == 0 && (CardImg.cwaddr i).bits 63 52 == 0 && (CardImg.cwaddr i).bits 51 47 == p.val)

/-- Every field of a card is within the limits of R23's table, its reserved fields are zero, and its step group is joined
(R100). -/
def State.fieldsOk (s : State) (p : Fin 32) (i : CardImg) : Bool :=
  (CardImg.code i).toNat % 256 == 0 && canonical (CardImg.code i).toNat
    && decide (CardImg.wlog i ≤ 5) && decide (CardImg.hlog i ≤ 3) && decide (CardImg.orgx i ≤ 31)
    && decide (CardImg.orgy i ≤ 7) && decide (CardImg.cls i ≤ 3) && decide (CardImg.flags i ≤ 15)
    && decide (CardImg.field i 0x16 1 ≤ 15) && decide (CardImg.cact i ≤ 3) && CardImg.field i 0x1B 1 == 0
    && poolOk i && cwordOk p i
    && (!CardImg.stepped i || s.fab.groups[(CardImg.stepGrp i).val].joined)

/-- The code of R384 that a card breaks, the lowest first (log 13). -/
def State.cardFault (s : State) (p : Fin 32) (i : CardImg) : Option Nat :=
  let w := CardImg.width i
  let h := CardImg.height i
  if !s.fieldsOk p i then some 0x01
  else if CardImg.fixed i && !s.fits p (CardImg.orgx i) (CardImg.orgy i) w h then some 0x02
  else if !((positions w h).any fun o => s.fits p o.1 o.2 w h) then some 0x03
  else if CardImg.poolCharge i > vget (s.part p).quotas 5 0 then some 0x04
  else if CardImg.fused i && (CardImg.wlog i < 2 || CardImg.hlog i < 1) then some 0x05
  else none

/-! ### Handles (R24, R271) -/

/-- What a handle comes to under R271: still live, over, or no handle of the partition. -/
inductive HandleIs where
  | live | over | none
deriving DecidableEq, Repr

/-- The test of a handle by CARDW (R271, R395). -/
def State.handleIs (s : State) (p : Fin 32) (v : Word) (own : Handle) : HandleIs :=
  let h : Handle := v.setWidth 32
  if v.bits 63 32 ≠ 0 ∨ v = 0 ∨ h = own ∨ h ∈ (s.part p).gone then .none
  else
    let sl := (s.part p).slot (handleSlot h)
    let d := (sl.serial - handleSerial h).toNat
    if d = 0 then
      match sl.use with
      | .live => .live
      | .completed => .over
      | _ => .none
    else if d ≤ 2 ^ 18 then .over
    else .none

/-! ### Waits and effective classes (R38, R39) -/

/-- The cores of a card with their state: those it runs on, or those it was saved from. -/
def State.coresOf (s : State) (c : Card) : List Core :=
  match c.phase with
  | .running => c.cores.map s.core
  | .preempted => c.saved.map (·.core)
  | _ => []

/-- A participant of a core has not executed STEP `n` (R101, R202); one that stands at FLAGW counts as having done so (R315). -/
def Core.beforeStep (k : Core) (n : Nat) : Bool := !(k.seq .C).done && !k.c.flgW && decide (k.c.stepNo ≤ n)

/-- A card stands at a STEP of a group that another card of the group has not executed (R39). -/
def State.stepWait (s : State) (a b : Card) : Bool :=
  a.placed && b.placed && a.groupOf.isSome && a.groupOf == b.groupOf && (s.coresOf a).any fun k =>
    match k.c.stpW with
    | some n => (s.coresOf b).any fun j => j.beforeStep n
    | none => false

/-- A card of a partition waits for another card (R39): at a CARDW, through a dependence, or at a STEP. -/
def State.waitsOn (s : State) (a b : Fin 32 × Card) : Bool :=
  (a.1 == b.1 && (((s.coresOf a.2).any fun k => k.c.cardW == some b.2.handle)
      || (decide (0 < a.2.dep) && a.2.handle != 0
        && (CardImg.succ b.2.img 0 == a.2.handle || CardImg.succ b.2.img 1 == a.2.handle))))
    || s.stepWait a.2 b.2

/-- The class of a card by its own class and its aging (R38 rule 3). -/
def Card.ownClass (c : Card) : Nat := max c.own.val (min 2 (c.own.val + c.aged))

/-- One round of lending: every card takes the greatest class of those that wait for it. -/
def lendOnce (waits : (Fin 32 × Card) → (Fin 32 × Card) → Bool) (cs : List ((Fin 32 × Card) × Nat)) :
    List ((Fin 32 × Card) × Nat) :=
  cs.map fun b => (b.1, ((cs.filter fun a => a.2 > b.2 && waits a.1 b.1).map (·.2)).foldl max b.2)

/-- Lending along chains of waits; four rounds of rising classes and the length of the chain bound it. -/
def lend (waits : (Fin 32 × Card) → (Fin 32 × Card) → Bool) : Nat → List ((Fin 32 × Card) × Nat) → List ((Fin 32 × Card) × Nat)
  | 0, cs => cs
  | n + 1, cs =>
    let ds := lendOnce waits cs
    if ds.map (·.2) = cs.map (·.2) then cs else lend waits n ds

/-- Every card with its effective class (R38, R39, R390). -/
def State.classes (s : State) : List ((Fin 32 × Card) × Nat) :=
  lend s.waitsOn (3 * s.sch.cards.length) (s.sch.cards.map fun c => (c, c.2.ownClass))

/-- The effective class of a card. -/
def State.classOf (s : State) (p : Fin 32) (h : Handle) : Nat :=
  ((s.classes.find? fun e => e.1.1 = p && e.1.2.handle = h).map (·.2)).getD 0

/-! ### Cards that enter a queue (R24, R35, R270) -/

/-- A device queue of a partition, by its index (R270). -/
def Partition.devq (p : Partition) (q : Nat) : Option DevQueue := p.devqs[q]?

/-- A device queue has no room (R35). -/
def DevQueue.full (d : DevQueue) : Bool := decide (2 ^ d.sizeLog ≤ d.cards.length)

/-- Write a card into the next slot of a device queue (R35, R270). -/
def State.enqueue (s : State) (p : Fin 32) (q : Nat) (h : Handle) (i : CardImg) (rng : RangeSet) : State :=
  let pt := s.part p
  match pt.devq q with
  | none => s
  | some d => s.setPart p { pt with devqs := pt.devqs.set q { d with cards := d.cards ++ [(h, i, rng)], tail := d.tail + 1 } }

/-- A card that the scheduler takes, waiting for its predecessors and its placement (R37). -/
def newCard (h : Handle) (i : CardImg) (rng : RangeSet) (src : CardSource) (replay : Option Handle) : Card where
  handle := h
  img := i
  rng := rng
  source := src
  dep := CardImg.dep i
  arrival := none
  own := Fin.ofNat 4 (CardImg.cls i)
  aged := 0
  hold := false
  phase := .waiting
  ox := 0
  oy := 0
  depth := 0
  replay := replay
  pre := false
  forced := false
  saved := []

/-- A card becomes eligible: it arrives (R37). -/
def State.arrive (s : State) (p : Fin 32) (h : Handle) : State :=
  match s.card? p h with
  | none => s
  | some c => { s.setCard p { c with arrival := some s.clock } with clock := s.clock + 1 }

/-- The card with a class of its own set (R274). -/
def CardImg.withClass (i : CardImg) (c : Fin 4) : CardImg :=
  i.set 2 ((i[2] &&& ~~~(0xFF#64 <<< 32)) ||| (word c.val <<< 32))

/-- The class of a live card is set, wherever it stands (R274). -/
def State.setClass (s : State) (p : Fin 32) (h : Handle) (c : Fin 4) : State :=
  let pt := s.part p
  let s := s.setPart p { pt with devqs := pt.devqs.map fun d =>
    { d with cards := d.cards.map fun e => if e.1 = h then (e.1, CardImg.withClass e.2.1 c, e.2.2) else e } }
  { s with sch := { s.sch with
      cards := s.sch.cards.map fun e =>
        if e.1 = p && e.2.handle = h then (e.1, { e.2 with own := c, aged := 0 }) else e
      replays := s.sch.replays.map fun r =>
        if r.1 = p then
          (r.1, { r.2 with toGo := r.2.toGo.map fun e => if e.1 = h then (e.1, CardImg.withClass e.2 c) else e })
        else r } }

/-! ### Reading records (R58, R270, R324) -/

/-- A part of a place. -/
def Place.plus (p : Place) (o : Nat) : Place :=
  match p with
  | .home ia c => .home (ia + o) c
  | .lm c off => .lm c (off + o)
  | .system off => .system (off + o)

/-- Read pieces of a record, each within a line, as loads of C; the fuel bounds the pieces. -/
def State.readPieces (s0 s : State) (p : Place) (va : Nat) : Nat → Nat → Except Stop (List Byte × State)
  | 0, _ => .ok ([], s)
  | _ + 1, 0 => .ok ([], s)
  | fuel + 1, n =>
    let k := min n (128 - va % 128)
    if s.loadHeld s.cur.core s.cur.sq s.stamp p k then .error .hold
    else
    match s0.askLoad s ⟨0, va, k⟩ p with
    | .error e => .error e
    | .ok s =>
      let (bs, s) := s.readPlace s.cur.core p k
      match State.readPieces s0 s (p.plus k) (va + k) fuel (n - k) with
      | .error e => .error e
      | .ok (rest, s) => .ok (bs ++ rest, s)

/-- Read `n` bytes at a VA as one read (R270, R277, R278). -/
def State.readRecord (s0 s : State) (va align n : Nat) : Except Stop (List Byte × State) := do
  let ps ← s.places .load false align [⟨0, va, n⟩]
  match ps with
  | [(_, p)] => s0.readPieces s p va (n / 64 + 2) n
  | _ => .error .hold

/-- The launch trap (R321). -/
def State.launchTrap (s : State) (va : Nat) : Stop := .trap ⟨0x17, word va, s.cur.word⟩

/-- An instruction of C that a trap does not interrupt (R283): it stands until it completes. The body answers whether it has
completed. -/
def standing (s : State) (body : State → Except Stop (Bool × State)) : Host.Outcome State Fault Refusal :=
  device .c s fun s =>
    match body s with
    | .error .stall => .ok (s.setC { s.c with stand := true })
    | .error .hold => .ok (s.setC { s.c with stand := true })
    | .error e => .error e
    | .ok (true, t) => .ok (t.setC { t.c with stand := false, taken := none })
    | .ok (false, t) => .ok (t.setC { t.c with stand := true })

/-- The order of a MARK rel at .dev before an effect at once (R88, R96): the loads of C, and all that it sees. -/
def State.released (s : State) : Bool := s.me.loaded && s.coveredAt s.cur.core s.cur.sq .dev

end Sys2Proof.Machine
end

