-- ==== Sys2Proof/Machine/Tasks.lean ====
section
/-! DEFINITION. The task and watch group: launching, waiting, priorities, graphs, watches, the priority queues and UEVSET
(R42, R44 to R50, R269 to R282). -/

namespace Sys2Proof.Machine

/-! ### LAUNCH (R270) -/

/-- LAUNCH takes a slot of its queue, or stands holding the image it has read. -/
def State.launchCard (s0 s : State) (d : SReg) (q : Nat) (i : CardImg) : Except Stop (Bool × State) :=
  let p := s.here.partNo
  let held := s0.setC { s0.c with taken := some (.image i) }
  match (s.part p).devq q with
  | none => .error .hold
  | some dq =>
    if dq.full then .ok (false, held)
    else
      match s.newHandle p with
      | none => .ok (false, held)
      | some (h, t) =>
        match (t.enqueue p q h i s.me.rng).writeS d (h.setWidth 64) with
        | .error .hold => .ok (false, held)
        | .error e => .error e
        | .ok t => .ok (true, t.complete)

/-- LAUNCH (R270). -/
def execLaunch (d a : SReg) (q : BitVec 6) (s : State) : Host.Outcome State Fault Refusal :=
  standing s fun s0 => do
    let (x, s) ← s0.readS a
    match s0.c.taken with
    | some (.image i) => s0.launchCard s d q.toNat i
    | _ =>
      let (bs, s) ← s0.readRecord s x.toNat 128 128
      if !s0.released then .error .hold
      let i := CardImg.ofBytes bs
      let p := s.here.partNo
      if ((s.part p).devq q.toNat).isNone || (s.cardFault p i).isSome then .error (s.launchTrap x.toNat)
      s0.launchCard s d q.toNat i

/-! ### CARDW and PRIO (R271, R274) -/

/-- CARDW (R271): on return it acquires at .dev. -/
def execCardw (a : SReg) (s : State) : Host.Outcome State Fault Refusal :=
  device .c s fun s0 => do
    let (x, s) ← s0.readS a
    match s.handleIs s.here.partNo x s.here.card with
    | .none => .error (s.launchTrap 0)
    | .live => pure (s0.setC { s0.c with cardW := some (x.setWidth 32) })
    | .over =>
      if !s.me.loaded then .error .stall
      pure ((s.setC { s.c with cardW := none }).acquire s.cur.core .dev).complete

/-- PRIO (R274). -/
def execPrio (a : SReg) (c : Fin 4) (s : State) : Host.Outcome State Fault Refusal :=
  device .c s fun s => do
    let (x, s) ← s.readS a
    let p := s.here.partNo
    if x = 0 ∨ x = s.here.card.setWidth 64 then pure (s.setClass p s.here.card c).complete
    else
      match s.handleIs p x s.here.card with
      | .none => .error (s.launchTrap 0)
      | .over => pure s.complete
      | .live => pure (s.setClass p (x.setWidth 32) c).complete

/-! ### Graphs (R275 to R277) -/

/-- The header of a graph object. -/
structure GraphHead where
  ncard  : Nat
  rent   : Bool
  queue  : Nat
  parea  : Word
  pasize : Nat
  ninst  : Nat
deriving DecidableEq, Repr

/-- The header within its limits (R275). -/
def graphHead (bs : List Byte) : Option GraphHead :=
  let g : GraphHead := ⟨wordAt bs 4 2, wordAt bs 6 1 == 1, wordAt bs 7 1, word (wordAt bs 8 8), wordAt bs 0x10 4, wordAt bs 0x14 2⟩
  let sizes :=
    if g.rent then g.parea.toNat % 64 == 0 && g.pasize % 64 == 0 && decide (64 ≤ g.pasize) && decide (1 ≤ g.ninst)
      && decide (g.ninst ≤ 64)
    else g.parea == 0 && g.pasize == 0 && g.ninst == 0
  if wordAt bs 0 4 = 0x6AF00001 ∧ 1 ≤ g.ncard ∧ g.ncard ≤ 1024 ∧ wordAt bs 6 1 ≤ 1 ∧ g.queue ≤ 63 ∧ sizes
      ∧ ((bs.drop 0x16).take 42).all (· == 0) then some g
  else none

/-- The cards of an object. -/
def graphCards (n : Nat) (bs : List Byte) : List CardImg := (upTo n).map fun i => CardImg.ofBytes (bs.drop (0x40 + 128 * i))

/-- Every edge runs to a higher index (R275). -/
def edgeOk (n i : Nat) (h : Handle) : Bool := h == 0 || (decide (i + 1 < h.toNat) && decide (h.toNat ≤ n))

/-- The number of edges to a card. -/
def inEdges (cs : List CardImg) (j : Nat) : Nat :=
  (cs.map fun c => (if (CardImg.succ c 0).toNat = j + 1 then 1 else 0) + (if (CardImg.succ c 1).toNat = j + 1 then 1 else 0)).sum

/-- The edges and dependence counts of an object agree (R275). -/
def graphOk (cs : List CardImg) : Bool :=
  (upTo cs.length).all fun i =>
    match cs[i]? with
    | none => false
    | some c => edgeOk cs.length i (CardImg.succ c 0) && edgeOk cs.length i (CardImg.succ c 1) && CardImg.dep c == inEdges cs i

/-- A patch entry: card, P-word, value; none when a reserved bit is set or it names no card (R276, R389). -/
def patchEntry (ncard : Nat) (bs : List Byte) : Option (Nat × Fin 8 × Word) :=
  let w := wordAt bs 0 8
  if w < 2 ^ 13 ∧ w % 1024 < ncard then some (w % 1024, Fin.ofNat 8 (w / 1024), word (wordAt bs 8 8)) else none

/-- The entries of a patch after its first word. -/
def patchEntries (ncard : Nat) : Nat → List Byte → Option (List (Nat × Fin 8 × Word))
  | 0, _ => some []
  | n + 1, bs =>
    match patchEntry ncard bs, patchEntries ncard n (bs.drop 16) with
    | some e, some t => some (e :: t)
    | _, _ => none

/-- The card with a P-word replaced. -/
def CardImg.withP (i : CardImg) (n : Fin 8) (v : Word) : CardImg := i.set (8 + n.val) v

/-- Apply patch entries in order (R276). -/
def applyPatch (cs : List CardImg) : List (Nat × Fin 8 × Word) → List CardImg
  | [] => cs
  | (c, n, v) :: t =>
    applyPatch (match cs[c]? with | some i => cs.set c (CardImg.withP i n v) | none => cs) t

/-- The IA of a place; the tier-5 one of a local window. -/
def Place.ia : Place → Nat
  | .home ia _ => ia
  | .lm c o => lmIa c o
  | .system o => 6 * 2 ^ 44 + o

/-- Read records at some places whole, in order. -/
def State.readPlaces (s0 s : State) : List (Req × Place) → Except Stop (List (List Byte) × State)
  | [] => .ok ([], s)
  | (r, p) :: t => do
    let (bs, s) ← s0.readPieces s p r.va (r.n / 64 + 2) r.n
    let (rest, s) ← State.readPlaces s0 s t
    pure (bs :: rest, s)

/-- Read some records: every one is translated before any is read (R333). -/
def State.readRecords (s0 s : State) (rs : List Req) : Except Stop (List (List Byte) × State) := do
  let ps ← s.places .load false 1 rs
  s0.readPlaces s ps

/-- The entries of a patch (R276): at most 4,096. -/
def patchOf (ncard : Nat) (bs : List Byte) : Option (List (Nat × Fin 8 × Word)) :=
  if 4096 < wordAt bs 0 8 then none else patchEntries ncard (wordAt bs 0 8) (bs.drop 8)

/-- The replay of an object and a patch that have been read (R275 to R277): 0x17 where they, or a card, break a rule. -/
def State.graphOf (s : State) (obj ia : Nat) (patch : Option Nat) (bs pbs : List Byte) : Except Stop Replay := do
  match graphHead bs with
  | none => .error (s.launchTrap obj)
  | some g =>
    let cs := graphCards g.ncard bs
    if !graphOk cs then .error (s.launchTrap obj)
    let es ← match patch with
      | none => .ok []
      | some v =>
        match patchOf g.ncard pbs with
        | none => .error (s.launchTrap v)
        | some es => .ok es
    let cs := applyPatch cs es
    let p := s.here.partNo
    if ((s.part p).devq g.queue).isNone || cs.any (fun c => (s.cardFault p c).isSome) then .error (s.launchTrap obj)
    pure ⟨0, ia, cs, g.queue, g.rent, g.parea, g.pasize, g.ninst, none, true, s.me.rng, [], [], g.ncard⟩

/-- Read an object and its patch whole, as far as the limits of NCARD and NPATCH, and then check them and every card (R277 step 2,
R333). -/
def State.readGraph (s0 s : State) (obj : Nat) (patch : Option Nat) : Except Stop (Replay × State) := do
  if obj % 128 ≠ 0 then .error (.trap (s.accTrap .load false 0x05 obj 0))
  if patch.any (fun v => v % 8 != 0) then .error (.trap (s.accTrap .load false 0x05 (patch.getD 0) 0))
  let both := fun (n m : Nat) => (⟨0, obj, n⟩ : Req) :: patch.toList.map fun v => ⟨0, v, m⟩
  let (heads, s) ← s0.readRecords s (both 64 8)
  let n := 0x40 + 128 * min (wordAt (heads.headD []) 4 2) 1024
  let m := 8 + 16 * min (leNat (heads.getD 1 [])) 4096
  let ps ← s.places .load false 1 (both n m)
  let (bodies, s) ← s0.readPlaces s ps
  let r ← s.graphOf obj ((ps.head?.map fun p => p.2.ia).getD 0) patch (bodies.headD []) (bodies.getD 1 [])
  pure (r, s)

/-- The instance areas of an object that are in use. -/
def areasUsed (rs : List Replay) : List Nat := rs.filterMap (·.inst)

/-- The lowest instance area not in use (R277). -/
def freeArea (r : Replay) (others : List Replay) : Option Nat := (upTo r.ninst).find? fun j => !(areasUsed others).contains j

/-- A held replay may be released, given the replays of its object in GRAPH order (R277 step 5). -/
def mayRelease (r : Replay) (all : List Replay) : Bool :=
  let before := all.takeWhile fun x => x.handle != r.handle
  if r.rent then (before.all fun x => !x.held) && (freeArea r all).isSome else before.isEmpty

/-- The replays of an object of a partition. -/
def State.replaysOf (s : State) (p : Fin 32) (obj : Nat) : List Replay :=
  (s.sch.replays.filter fun r => r.1 = p && r.2.object = obj).map (·.2)

/-- The bounds on replays are reached (R277 step 3). -/
def State.replaysFull (s : State) (p : Fin 32) (obj : Nat) : Bool :=
  let rs := s.replaysOf p obj
  decide (64 ≤ (rs.filter fun r => r.held && !mayRelease r rs).length)
    || decide (4096 ≤ ((s.sch.replays.filter fun r => r.1 = p).map (·.2.object)).eraseDups.length)

/-- GRAPH assigns its replay handle, or stands holding what it has read. -/
def State.startReplay (s0 s : State) (d : SReg) (r : Replay) : Except Stop (Bool × State) :=
  let p := s.here.partNo
  let held := s0.setC { s0.c with taken := some (.graph r) }
  if s.replaysFull p r.object then .ok (false, held)
  else
    match s.newHandle p with
    | none => .ok (false, held)
    | some (h, t) =>
      let t := { t with sch := { t.sch with replays := t.sch.replays ++ [(p, { r with handle := h })] } }
      match t.writeS d (h.setWidth 64) with
      | .error .hold => .ok (false, held)
      | .error e => .error e
      | .ok t => .ok (true, t.complete)

/-- GRAPH (R277). -/
def execGraph (d a b : SReg) (s : State) : Host.Outcome State Fault Refusal :=
  standing s fun s0 => do
    let (x, s) ← s0.readS a
    let (y, s) ← s.readS b
    match s0.c.taken with
    | some (.graph r) => s0.startReplay s d r
    | _ =>
      let (r, s) ← s0.readGraph s x.toNat (if b = .g 0 then none else some y.toNat)
      if !s0.released then .error .hold
      s0.startReplay s d r

/-! ### WARM, WDIS, TRIGRD (R44, R46, R278 to R280) -/

/-- The scope of a watch descriptor (R44). -/
def watchScope (n : Nat) : Scope := match n with | 0 => .core | 1 => .clu | _ => .dev

/-- A descriptor is within its limits (R44, R278). -/
def watchOk (p : Fin 32) (bs : List Byte) : Bool :=
  let base := wordAt bs 0 8
  let len := wordAt bs 8 4
  let tmpl := wordAt bs 0x18 8
  base % 8 == 0 && decide (base < 2 ^ 52) && iaPart base == p && decide (iaTier base ≤ 3)
    && len % 8 == 0 && decide (8 ≤ len) && decide (len ≤ 0x100000) && decide (iaOff base + len ≤ 2 ^ 44)
    && decide (wordAt bs 0x0C 1 ≤ 2) && decide (wordAt bs 0x0D 1 ≤ 2)
    && decide (1 ≤ wordAt bs 0x0E 1) && decide (wordAt bs 0x0E 1 ≤ 15) && decide (wordAt bs 0x0F 1 ≤ 1)
    && wordAt bs 0x14 4 == 0 && wordAt bs 0x38 8 == 0
    && tmpl % 128 == 0 && decide (tmpl < 2 ^ 52) && iaPart tmpl == p && hasHome tmpl

/-- A template fits the scope of its entry (R44). -/
def scopeFits (sc : Nat) (i : CardImg) : Bool :=
  match sc with
  | 0 => CardImg.fixed i && CardImg.wlog i == 0 && CardImg.hlog i == 0
  | 1 => CardImg.fixed i &&
      (rectCores (CardImg.orgx i) (CardImg.orgy i) (CardImg.width i) (CardImg.height i)).all fun c =>
        coreAt (CardImg.orgx i) (CardImg.orgy i) |>.any fun o => clusterOf o == clusterOf c
  | _ => true

/-- The watch entry of a descriptor and its template. -/
def watchEntry (p : Fin 32) (bs : List Byte) (i : CardImg) (rng : RangeSet) : Watch where
  part := p
  armed := true
  base := wordAt bs 0 8
  len := wordAt bs 8 4
  scope := watchScope (wordAt bs 0x0C 1)
  mode := wordAt bs 0x0D 1
  limit := wordAt bs 0x0E 1
  once := wordAt bs 0x0F 1 == 1
  rate := wordAt bs 0x10 4
  tw := #v[word (wordAt bs 0x20 8), word (wordAt bs 0x28 8), word (wordAt bs 0x30 8)]
  img := i
  rng := rng
  next := 0
  window := 0
  lostEv := false

/-- Arm the lowest free entry, within the partition's quota (R77, R278). -/
def State.arm (s : State) (w : Watch) : Option (Nat × State) :=
  let pt := s.part w.part
  if vget pt.quotas 4 0 ≤ vget pt.charges 4 0 then none
  else
    match searchUp (fun n => (s.watch? n).isNone) 4096 0 with
    | none => none
    | some n =>
      some (n, (s.setPart w.part { pt with charges := vset pt.charges 4 (vget pt.charges 4 0 + 1) }).setWatch n w)

/-- WARM (R278). -/
def execWarm (d a : SReg) (s : State) : Host.Outcome State Fault Refusal :=
  standing s fun s0 => do
    let (x, s) ← s0.readS a
    let va := x.toNat
    let s ← s.markFull .dev
    let (bs, s) ← s0.readRecord s va 64 64
    let p := s.here.partNo
    let tmpl := wordAt bs 0x18 8
    if iaPart (wordAt bs 0 8 % 2 ^ 52) ≠ p ∨ iaPart (tmpl % 2 ^ 52) ≠ p ∨ 2 ^ 52 ≤ tmpl ∨ !hasHome tmpl then .error (s.launchTrap va)
    let (ts, s) ← s0.readPieces s (.home tmpl 1) tmpl 4 128
    let i := CardImg.ofBytes ts
    if !watchOk p bs || (s.cardFault p i).isSome || !scopeFits (wordAt bs 0x0C 1) i then .error (s.launchTrap va)
    let (v, s) := match s.arm (watchEntry p bs i s.me.rng) with
      | none => (BitVec.allOnes 64, s)
      | some (n, s) => (word n, s)
    let s ← s.writeS d v
    pure (true, s.complete)

/-- The records of an entry are discarded with their cards that have not started (R279). -/
def State.dropRecords (s : State) (p : Fin 32) (n : Nat) : State :=
  let rs := s.recordsOf n
  let s := (rs.filterMap (·.handle)).foldl (fun s h => (s.setSlot p h .discarded).delCard p h) s
  ({ s with sch := { s.sch with records := s.sch.records.filter fun r => r.2.entry != n } }).serveRecords p

/-- WDIS (R279): an entry that stands for the partition is disarmed, and its records are discarded. -/
def execWdis (a : SReg) (s : State) : Host.Outcome State Fault Refusal :=
  standing s fun s => do
    let (x, s) ← s.readS a
    let p := s.here.partNo
    match s.watch? x.toNat with
    | some w =>
      if x.toNat ≤ 4095 ∧ w.part = p then pure (true, ((s.dropRecords p x.toNat).dropWatch x.toNat).complete)
      else pure (true, s.complete)
    | none => pure (true, s.complete)

/-- The 40 bytes of a record (R46), pending. -/
def Record.bytes (r : Record) : List Byte :=
  leBytes 8 r.gia ++ leBytes 8 r.old.toNat ++ leBytes 8 r.new.toNat ++ leBytes 4 r.count.toNat ++ leBytes 4 r.seq.toNat
    ++ leBytes 2 r.entry ++ leBytes 1 r.depth ++ leBytes 1 0 ++ leBytes 4 0

/-- What TRIGRD writes (R280): the pending record of lowest SEQ, else zeros and the entry number. -/
def State.trigBytes (s : State) (n : Nat) : List Byte :=
  let none' : Record := ⟨n, 0, 0, 0, 0, 0, 0, none⟩
  match s.watch? n with
  | some w => if w.armed && w.part == s.here.partNo then (((s.recordsOf n).head?).getD none').bytes else none'.bytes
  | none => none'.bytes

/-- TRIGRD (R280). -/
def execTrigrd (a b : SReg) (k : BitVec 19) (s : State) : Host.Outcome State Fault Refusal :=
  device .c s fun s0 => do
    let (x, s) ← s0.readS a
    let (y, s) ← s.readS b
    if 4095 < y.toNat then .error (s.launchTrap 0)
    let bs := s.trigBytes y.toNat
    let reqs := wordReqs (addrOf x (.imm k)) 5
    let s ← s0.issueStore s false 8 (reqs.zip ((upTo 5).map fun i => (bs.drop (8 * i)).take 8)) [] true
    pure s.complete

/-! ### Priority queues (R42, R281) -/

/-- The priority queue that a form names: one of the core's die, assigned to the card's partition. -/
def State.pq (s : State) (n : Fin 16) : Except Stop (Fin 32) :=
  let i := Fin.ofNat 32 (16 * dieOf s.cur.core + n.val)
  if s.sch.pqs[i.val].owner = some s.here.partNo then .ok i else .error (s.launchTrap 0)

def State.setPq (s : State) (i : Fin 32) (es : List Word) : State :=
  { s with sch := { s.sch with pqs := s.sch.pqs.set i.val { s.sch.pqs[i.val] with entries := es } } }

/-- The key of an entry (R42). -/
def pqKey (w : Word) : Nat := w.bits 63 32

/-- The entries that a pop may take: those with fewer than 8 entries of a lesser key (R42). -/
def pqTakes (es : List Word) : List Word := es.filter fun e => decide ((es.filter fun f => pqKey f < pqKey e).length < 8)

/-- PQPUSH (R281): a release at .dev. -/
def execPqpush (n : Fin 16) (a : SReg) (s : State) : Host.Outcome State Fault Refusal :=
  device .c s fun s0 => do
    let (x, s) ← s0.readS a
    let i ← s.pq n
    if x = BitVec.allOnes 64 then .error (s.launchTrap 0)
    let es := s.sch.pqs[i.val].entries
    if 8192 ≤ es.length || !s.released then .error .hold
    pure (s.setPq i (es ++ [x])).complete

/-- PQPOP (R281): the entry is a free value among those that R42 admits; an acquire at .dev. -/
def execPqpop (d : SReg) (n : Fin 16) (s : State) : Host.Outcome State Fault Refusal :=
  device .c s fun s => do
    let i ← s.pq n
    let es := s.sch.pqs[i.val].entries
    if es.isEmpty then
      let s ← s.writeS d (BitVec.allOnes 64)
      pure s.complete
    else
      let takes := pqTakes es
      let (k, s) := s.draw takes.length
      let e := takes.getD k 0
      let s ← (s.setPq i (es.erase e)).writeS d e
      pure (s.acquire s.cur.core .dev).complete

/-! ### UEVSET (R282) -/

/-- UEVSET (R282). -/
def execUevset (a : SReg) (e : Bool) (s : State) : Host.Outcome State Fault Refusal :=
  device .c s fun s => do
    let (x, s) ← s.readS a
    if x.toNat % 8 ≠ 0 then .error (.trap ⟨0x05, x, accessDetail s.opcode 0 false false false false⟩)
    pure (s.setC { s.c with uevec := x, uevEn := e }).complete

/-! ### Events -/

/-- RATE_WINDOW_EXPIRY (R386): the next window of an entry opens. -/
def execRateWindowExpiry (entry : Nat) (s : State) : Host.Outcome State Fault Refusal :=
  match s.watch? entry with
  | some w => .next (s.setWatch entry { w with window := 0 })
  | none => .next s

/-- USER_EVENT_ENTRY (R56). -/
def execUserEventEntry (core : CoreId) (s : State) : Host.Outcome State Fault Refusal :=
  if (s.core core).userReady && !((s.core core).mayTake && (s.core core).trapWaits) then
    .next (s.setCore core (s.core core).enterUser)
  else .next s

/-- TRAP_ENTRY (R283). -/
def execTrapEntry (core : CoreId) (s : State) : Host.Outcome State Fault Refusal := .next (s.trapEntry core)

end Sys2Proof.Machine
end

