-- ==== Sys2Proof/Machine/Context.lean ====
section
/-! DEFINITION. The context image (R345 to R350): what a core saves, the bytes of an image, and a saved core from its bytes. -/

namespace Sys2Proof.Machine

/-! ### A core's own part of memory -/

/-- The cells of a run of keys, counted from its first one. -/
def cutCells {α : Type} (lo n : Nat) (l : List (Nat × α)) : List (Nat × α) :=
  (l.filter fun e => decide (lo ≤ e.1) && decide (e.1 < lo + n)).map fun e => (e.1 - lo, e.2)

/-- Replace the cells of a run of keys. -/
def putCells {α : Type} (lo n : Nat) (l new : List (Nat × α)) : List (Nat × α) :=
  l.filter (fun e => decide (e.1 < lo)) ++ new.map (fun e => (lo + e.1, e.2)) ++ l.filter fun e => decide (lo + n ≤ e.1)

/-- A sparse table from a function of its keys below a bound. -/
def sparseOf {α : Type} [DecidableEq α] (z : α) (n : Nat) (f : Nat → α) : Sparse α :=
  (upTo n).filterMap fun i => if f i = z then none else some (i, f i)

/-! ### The user state of C (R283, R284) -/

/-- A core as the card sees it: at supervisor privilege, C with its own registers and the point at which ERET resumes it, and the
handled sequencer at its frame. -/
def Core.userView (k : Core) : Core :=
  if !k.c.sup then k
  else
    let q := k.seq .C
    let k := k.setSeq .C { q with g := k.c.bank, pc := k.c.sret, repc := k.c.svRepc, loops := k.c.svLoops }
    let w := k.seq k.c.svSeq
    k.setSeq k.c.svSeq { w with pc := w.frame.pc, repc := w.frame.repc }

/-- Give a core the state of a card, as ERET will resume it: what belongs to the core itself stays. -/
def Core.withUser (k u : Core) : Core :=
  let cs : CState := { u.c with
    sup := k.c.sup, svSeq := k.c.svSeq, bank := k.c.bank, sret := k.c.sret, svRepc := k.c.svRepc, svLoops := k.c.svLoops
    svEng := k.c.svEng, engStop := k.c.engStop }
  let r : Core := { u with l1 := k.l1, late := k.late, icache := k.icache, tvec := k.tvec, part := k.part, card := k.card, c := cs }
  if !k.c.sup then r
  else
    let q := u.seq .C
    let v := k.c.svSeq
    let r := r.setSeq .C { q with
      g := (k.seq .C).g, pc := (k.seq .C).pc, repc := (k.seq .C).repc, loops := (k.seq .C).loops }
    let w := r.seq v
    let r := r.setSeq v { w with frame := { w.frame with pc := (u.seq v).pc, repc := (u.seq v).repc } }
    { r with c := { r.c with bank := q.g, sret := q.pc, svRepc := q.repc, svLoops := q.loops } }

/-- A core without what its sequencers and commands have read ahead (R83). -/
def Core.dropAhead (k : Core) : Core :=
  { k with seqs := k.seqs.map fun q => { q with peeked := [], cmds := q.cmds.map fun x => { x with peeked := [] } } }

/-- Save a core of a card (R341, R345): its user state, local memory, accumulators and side entries. -/
def State.saveCore (s : State) (c : CoreId) (ox oy : Nat) : SavedCore :=
  ⟨coreX c - ox, coreY c - oy, (s.core c).userView.dropAhead, cutCells (lmKey c 0) (2 ^ 21) s.hm.lm, cutCells (c.val * 262144) 262144 s.hm.acc,
    cutCells (c.val * 3072) 3072 s.hm.side⟩

/-- Load a saved core into a core (R341, R351). -/
def State.loadCore (s : State) (c : CoreId) (x : SavedCore) : State :=
  let s := s.setCore c ((s.core c).withUser x.core)
  { s with hm := { s.hm with
      lm := putCells (lmKey c 0) (2 ^ 21) s.hm.lm x.lm
      acc := putCells (c.val * 262144) 262144 s.hm.acc x.acc
      side := putCells (c.val * 3072) 3072 s.hm.side x.side } }

/-! ### The bytes of an image -/

def zeros (n : Nat) : List Byte := List.replicate n 0

/-- Bytes followed by zeros up to a length. -/
def zeroTo (n : Nat) (bs : List Byte) : List Byte := bs ++ zeros (n - bs.length)

def w8 (w : Word) : List Byte := leBytes 8 w.toNat

def bitNat (b : Bool) : Nat := if b then 1 else 0

/-- The status of a command in its progress record: a stopped one holds 0x06 (R327, R342). -/
def Cmd.savedStat (x : Cmd) : Nat := match x.state with | .stopped _ => 0x06 | .running => x.stat

/-- A progress record (R247), with the 8 zero bytes that follow it. -/
def Cmd.bytes (q : SeqId) (x : Cmd) : List Byte :=
  w8 x.blk.p0 ++ w8 x.blk.p1 ++ w8 x.blk.p2 ++ w8 x.blk.p3 ++ leBytes 8 x.done ++ leBytes 1 x.op.toNat ++ leBytes 1 q.idx.val
    ++ leBytes 1 x.savedStat ++ leBytes 1 (bitNat x.ev) ++ zeros 4 ++ leBytes 8 (if x.op = 0xB4 then x.aux else 0) ++ zeros 8

/-- Whether a trap of a sequencer is pending, and its frame (R348): one pending on C away from its instructions has the frame that its
entry would write (log 9). -/
def pendFrame (q : SeqId) (x : Seq) (c : CState) : Bool × Frame :=
  match q == .C && !x.trapPend, c.async with
  | true, t :: _ => (true, ⟨x.pc, word t.cause, t.addr, t.det, x.repc⟩)
  | _, _ => (x.trapPend, x.frame)

/-- STATE of a sequencer block (R348). -/
def stateWord (q : SeqId) (x : Seq) (c : CState) : Word :=
  let isC := q == .C
  word (x.cmds.length * 256 + bitNat (isC && c.uevIn) * 16 + bitNat (isC && c.flgW) * 8 + bitNat (isC && c.stpW.isSome) * 4
    + bitNat x.done * 2 + bitNat (pendFrame q x c).1)

/-- A loop entry of an image. -/
def LoopEntry.bytes (e : LoopEntry) : List Byte :=
  if e.count = 0 then zeros 32 else w8 e.start ++ w8 e.fin ++ w8 e.count ++ leBytes 8 (bitNat e.rot)

/-- The part of a sequencer block that C alone has. -/
def CState.bytes (c : CState) : List Byte :=
  c.shadow.toList.flatMap w8 ++ leBytes 8 (c.uevec.toNat + bitNat c.uevEn) ++ c.bar.toList.flatMap fun n => leBytes 4 n.toNat

/-- A sequencer block (R348). -/
def seqBytes (q : SeqId) (x : Seq) (c : CState) : List Byte :=
  let f := (pendFrame q x c).2
  zeroTo 0x1000
    (zeros 8 ++ (x.g.toList.drop 1).flatMap w8 ++ w8 x.pc ++ w8 x.repc ++ w8 x.fpcs ++ w8 (stateWord q x c)
      ++ w8 f.pc ++ w8 f.cause ++ w8 f.addr ++ w8 f.det ++ w8 f.repc ++ zeros 8
      ++ x.loops.toList.flatMap LoopEntry.bytes ++ x.rng.toList.flatMap (fun r => leBytes 16 r.toNat) ++ zeros 48
      ++ zeroTo (14 * 64) (x.cmds.flatMap (Cmd.bytes q)) ++ (if q = .C then c.bytes else []))
    ++ (upTo 512).flatMap fun i => w8 (sget 0 x.spill i)

/-- A tile descriptor in the layout of ACFG's extension word (R349). -/
def Tile.image (t : Tile) : Word :=
  if t.rows = 0 then 0
  else acfgWord t.f32 (BitVec.ofNat 10 t.base) (BitVec.ofNat 11 t.rows) (BitVec.ofNat 9 t.cols)

/-- The X extension (R349). -/
def XState.bytes (x : XState) : List Byte :=
  let t := x.topk
  let head := bitNat t.begun + 2 * bitNat t.f32 + 4 * bitNat t.min + 8 * t.k + 1024 * t.pairs.length
  zeroTo 0x4000
    (x.v.toList.flatMap (fun v => leBytes 256 v.toNat) ++ zeroTo 0x200 (x.masks.reverse.flatMap fun m => leBytes 32 m.toNat)
      ++ leBytes 8 x.masks.length ++ leBytes 8 x.rot.toNat ++ leBytes 8 head
      ++ zeroTo 0x200 (t.pairs.flatMap fun p => leBytes 4 p.1.toNat ++ leBytes 4 p.2.toNat) ++ zeros 8
      ++ x.ports.toList.flatMap (fun p => w8 p.blk.p0 ++ w8 p.blk.p1 ++ w8 p.blk.p2 ++ w8 p.blk.p3
          ++ leBytes 4 p.pos ++ leBytes 4 (bitNat p.conf) ++ zeros 8)
      ++ x.tiles.toList.flatMap (fun t => w8 t.image) ++ x.ftab.toList.flatMap w8
      ++ x.shadow.levels.toList.flatMap (fun l => w8 l.n ++ w8 l.astr ++ w8 (l.rstr.signExtend 64) ++ leBytes 8 (bitNat l.btog))
      ++ w8 x.shadow.abase ++ w8 x.shadow.wide)

/-- A B slot area (R350). -/
def BSlot.bytes (b : BSlot) : List Byte :=
  zeroTo 0x800 (leBytes 8 b.fmt.code.toNat) ++ ((upTo 1024).flatMap fun i => leBytes 2 (sget 0 b.scales i).toNat)
    ++ (upTo 6).flatMap fun k => (upTo 256).flatMap fun r => leBytes 64 (sget 0 b.rows (256 * k + r)).toNat

/-- The header, with a checksum (R346). -/
def headBytes (p : Fin 32) (h : Handle) (depth : Nat) (x : SavedCore) (crc : Nat) : List Byte :=
  leBytes 4 0x6AF00002 ++ leBytes 2 1 ++ leBytes 1 p.val ++ leBytes 1 (x.x + 32 * x.y) ++ leBytes 4 h.toNat ++ leBytes 1 depth
    ++ zeros 3 ++ leBytes 4 crc ++ zeros 4 ++ leBytes 8 0x34C000 ++ zeros 32

/-- The core-wide state (R347). -/
def coreBytes (k : Core) : List Byte :=
  zeroTo 0xFC0
    (k.tokens.toList.flatMap (fun t => leBytes 2 t.toNat) ++ leBytes 8 k.c.uevq.length ++ zeros 8
      ++ zeroTo 256 (k.c.uevq.flatMap fun e => w8 e.1 ++ w8 e.2)
      ++ k.queues.toList.flatMap fun q => leBytes 4 q.head.toNat ++ leBytes 4 q.tail.toNat)

/-- What follows the header of an image (R345). -/
def bodyBytes (x : SavedCore) : List Byte :=
  let k := x.core
  coreBytes k ++ allSeqs.flatMap (fun q => zeroTo 0x2000 (seqBytes q (k.seq q) k.c))
    ++ zeroTo 0x9000 (k.queues.toList.flatMap fun q => q.msgs.flatMap w8)
    ++ k.x.bytes ++ k.bslots.toList.flatMap BSlot.bytes
    ++ ((upTo 1024).flatMap fun p => ((upTo 3).flatMap fun r => leBytes 4 (sget 0 x.side (3 * p + r)).toNat) ++ zeros 4)
    ++ ((upTo 262144).flatMap fun w => leBytes 4 (sget 0 x.acc w).toNat)
    ++ (upTo 2097152).map fun o => Memory.get x.lm o

/-- The image of a saved core (R345, R346). -/
def imageBytes (p : Fin 32) (h : Handle) (depth : Nat) (x : SavedCore) : List Byte :=
  let body := bodyBytes x
  headBytes p h depth x (crc32c (headBytes p h depth x 0 ++ body)).toNat ++ body

/-! ### A saved core from the bytes of an image -/

/-- Bytes of an image. -/
def cut (bs : List Byte) (off n : Nat) : List Byte := (bs.drop off).take n

/-- A word of an image. -/
def wd (bs : List Byte) (off : Nat) : Word := word (wordAt bs off 8)

/-- A command of a progress record before it is issued again: its opcode, its block and its fields. -/
structure Progress where
  op   : Nat
  ev   : Bool
  blk  : Blk
  done : Nat
  stat : Nat
  aux  : Nat
deriving DecidableEq, Repr

/-- The progress record in some bytes. -/
def progressOf (bs : List Byte) : Progress :=
  ⟨wordAt bs 0x28 1, wordAt bs 0x2B 1 == 1, ⟨wd bs 0, wd bs 8, wd bs 16, wd bs 24⟩, wordAt bs 0x20 8, wordAt bs 0x2A 1, wordAt bs 0x30 8⟩

/-- The sequencers that may issue a command, and the fixed fields of its P3 (R175, R249 to R261). -/
def commandOk (q : SeqId) (op : Nat) (p3 : Word) : Bool :=
  match op with
  | 0xB0 => (q == .L || q == .S) && cpyP3 p3
  | 0xB1 => (q == .L || q == .S) && cpyxP3 p3
  | 0xB2 => q == .L
  | 0xB3 => q == .L && poolP3 p3
  | 0xB4 => q == .L && decmpP3 p3
  | 0xB5 => q == .S && supdP3 p3
  | 0xB6 => q == .S && buckP3 p3
  | 0xB9 => q == .L && walkP3 p3
  | _ => false

/-- The units of a command that has been issued; of SUPD no more than its records (R247). -/
def Cmd.units (x : Cmd) : Nat :=
  match x.op.toNat with
  | 0xB0 => (x.blk.p2.toNat + 255) / 256
  | 0xB1 => x.shape.count
  | 0xB2 => x.blk.p3.toNat
  | 0xB3 => (bagsOf x.record).length
  | 0xB4 => x.blk.p2.toNat
  | 0xB5 => x.blk.p1.toNat
  | 0xB6 => 1
  | _ => walkCount x.blk

/-- The bytes that a linear DECMP has written when `n` blocks are done, from their headers, and the offset of the next one. -/
def State.decmpSums (s : State) (c : CoreId) (x : Cmd) : Nat → Option (Nat × Nat)
  | 0 => some (0, 0)
  | n + 1 =>
    match State.decmpSums s c x n with
    | none => none
    | some (off, aux) =>
      match s.codedAt c { x with aux := aux } with
      | .error _ => none
      | .ok (h, _, _) => some (off + align8 h.outLen, aux + 16 + align8 h.inLen)

/-- The fabric after a command that stands at a unit has taken its step's numbers for the elements it has left (R107, R344); `s` is
the state before its issue. -/
def State.renumbered (s : State) (x : Cmd) (f : Fabric) : Fabric :=
  match x.stepOf with
  | none => f
  | some (g, n) => (s.takeSeqnos g n x.gid (x.elems - x.nextElem)).fab

/-- Issue the command of a progress record again on a core whose sequencer holds the loaded range registers and no command: it
takes its ranges, records, step and, for the elements it has left, issue sequence numbers anew (R342, R344, R348). -/
def State.reissue (s : State) (c : CoreId) (q : SeqId) (r : Progress) : Option (Cmd × State) :=
  if !commandOk q r.op r.blk.p3 || (r.stat != 0 && r.stat != 6) then none
  else
  let s := { s with cur := ⟨c, q, word r.op, 40⟩ }
  let issued := match r.op with
    | 0xB0 => s.issueCpy r.ev r.blk
    | 0xB1 => s.issueCpyx r.ev r.blk
    | 0xB2 => s.issueGath r.ev r.blk
    | 0xB3 => s.issuePool r.ev r.blk
    | 0xB4 => s.issueDecmp r.ev r.blk
    | 0xB5 => s.issueSupd r.ev r.blk
    | 0xB6 => s.issueBuck r.ev r.blk
    | 0xB9 => s.issueWalk r.ev r.blk
    | _ => .error .hold
  match issued with
  | .error _ => none
  | .ok t =>
    match (t.seq c q).cmds.getLast? with
    | none => none
    | some x =>
      let x := { x with
        done := r.done, aux := if r.op = 0xB4 then r.aux else 0, stat := if r.stat = 6 then 0 else r.stat
        state := if r.stat = 6 then .stopped 0 else .running }
      let x := { x with sn0 := x.nextElem }
      let fab := s.renumbered x t.fab
      if x.units < r.done then none
      else if r.op = 0xB4 ∧ decmpSlots r.blk = 0 then
        match s.decmpSums c x r.done with
        | some (off, aux) => if aux = r.aux then some ({ x with off := off }, { s with fab := fab }) else none
        | none => none
      else some (x, { s with fab := fab })

/-- The commands of the records of a sequencer block, in order. -/
def State.reissueAll (s : State) (c : CoreId) (q : SeqId) : List Progress → Option (List Cmd × State)
  | [] => some ([], s)
  | r :: t =>
    match s.reissue c q r with
    | none => none
    | some (x, s) => (State.reissueAll s c q t).map fun e => (x :: e.1, e.2)

/-- The progress records of a sequencer block. -/
def recordsIn (bs : List Byte) : List Progress :=
  (upTo ((wd bs 0x118).bits 11 8)).map fun i => progressOf (cut bs (0x300 + 64 * i) 64)

/-- The bits of FPCS that are not reserved (R118). -/
def fpcsBits : Word := 0xFDF#64

/-- The fields of a sequencer block whose reserved bits a register keeps, and its number of records, are within their limits (R57,
R118, R285, R340, R348, R351). -/
def blockOk (bs : List Byte) : Bool :=
  wd bs 0x110 &&& ~~~fpcsBits == 0 && decide (wordAt bs 0x128 8 < 256) && decide ((wd bs 0x118).bits 11 8 ≤ 14)
    && (upTo 16).all fun i => (wd bs (0x1D8 + 16 * i)).bits 55 43 == 0

/-- A sequencer from its block, without its commands (R348). -/
def seqOf (bs : List Byte) : Seq :=
  let st := wd bs 0x118
  { Seq.reset with
    g := Vector.ofFn fun i => if i.val = 0 then 0 else wd bs (8 * i.val)
    pc := wd bs 0x100
    repc := wd bs 0x108
    fpcs := wd bs 0x110
    frame := ⟨wd bs 0x120, wd bs 0x128, wd bs 0x130, wd bs 0x138, wd bs 0x140⟩
    loops := Vector.ofFn fun i =>
      ⟨wd bs (0x150 + 32 * i.val), wd bs (0x158 + 32 * i.val), wd bs (0x160 + 32 * i.val), (wd bs (0x168 + 32 * i.val)).bit 0⟩
    rng := Vector.ofFn fun i => BitVec.ofNat 128 (wordAt bs (0x1D0 + 16 * i.val) 16)
    spill := sparseOf 0 512 fun i => wd bs (0x1000 + 8 * i)
    trapPend := st.bit 0
    done := st.bit 1 }

/-- The X extension (R349). -/
def xOf (bs : List Byte) : XState :=
  let n := min (wordAt bs 0x3200 8) 17
  let t := wd bs 0x3210
  { XState.reset with
    v := Vector.ofFn fun i => BitVec.ofNat 2048 (wordAt bs (256 * i.val) 256)
    masks := ((upTo n).map fun i => BitVec.ofNat 256 (wordAt bs (0x3000 + 32 * i) 32)).reverse
    rot := BitVec.ofNat 5 (wordAt bs 0x3208 8)
    topk := ⟨t.bit 0, t.bit 1, t.bit 2, t.bits 9 3, (upTo (t.bits 16 10)).map fun i =>
      (BitVec.ofNat 32 (wordAt bs (0x3218 + 8 * i) 4), BitVec.ofNat 32 (wordAt bs (0x321C + 8 * i) 4))⟩
    ports := Vector.ofFn fun i =>
      let o := 0x3420 + 48 * i.val
      ⟨⟨wd bs o, wd bs (o + 8), wd bs (o + 16), wd bs (o + 24)⟩, wordAt bs (o + 32) 4, wordAt bs (o + 36) 4 == 1⟩
    tiles := Vector.ofFn fun i =>
      let w := wd bs (0x35A0 + 8 * i.val)
      if w = 0 then Tile.unset else ⟨w.bits 9 0, w.bits 20 10, w.bits 29 21, w.bit 30⟩
    ftab := Vector.ofFn fun i => wd bs (0x35E0 + 8 * i.val)
    shadow :=
      { levels := Vector.ofFn fun i =>
          let o := 0x3660 + 32 * i.val
          ⟨wd bs o, wd bs (o + 8), BitVec.ofNat 16 (wordAt bs (o + 16) 2), wordAt bs (o + 24) 1 == 1⟩
        abase := wd bs 0x3720
        wide := wd bs 0x3728 } }

/-- The format of a B slot's code. -/
def bfmtOf (n : Nat) : BFmt := match n with | 1 => .s4 | 2 => .s8 | _ => .trit

/-- The fields of an X extension that are no more than bits are within their limits (R216, R222, R228, R231, R235, R349, R351): the mask
depth, the top-k selection, the ports, the tiles, the format table and the nest-wide fields. -/
def xOk (pool : LocalRange) (bs : List Byte) : Bool :=
  let t := wd bs 0x3210
  let x := xOf bs
  decide (wordAt bs 0x3200 8 ≤ 16)
    && (if t.bit 0 then decide (1 ≤ t.bits 9 3) && decide (t.bits 9 3 ≤ 64) && decide (t.bits 16 10 ≤ t.bits 9 3) else t == 0)
    && x.ports.toList.all (fun p =>
      if p.conf then p.blk.p3.bits 63 1 == 0 && (p.fault pool).isNone && decide (p.pos < p.count) else p == Port.empty)
    && (upTo 8).all (fun i => let w := wd bs (0x35A0 + 8 * i); w == 0 || acfgOk w)
    && x.ftab.toList.all (fun w => w.bits 63 7 == 0)
    && wd bs 0x3728 &&& ~~~0xFFFFFFFC0000#64 == 0

/-- A B slot (R350). -/
def bslotOf (bs : List Byte) : BSlot :=
  ⟨bfmtOf (wordAt bs 0 1), sparseOf 0 1536 fun i => BitVec.ofNat 512 (wordAt bs (0x1000 + 64 * i) 64),
    sparseOf 0 1024 fun i => BitVec.ofNat 16 (wordAt bs (0x800 + 2 * i) 2)⟩

/-- The planes of a B slot beyond those of its format are zero (R350). -/
def bslotOk (bs : List Byte) : Bool := (bslotOf bs).rows.all fun e => decide (e.1 / 256 < bfmtPlanes (bslotOf bs).fmt)

/-- The messages of the queues before queue `n`. -/
def msgsBefore (bs : List Byte) (n : Nat) : Nat :=
  ((upTo n).map fun i => (wordAt bs (0x164 + 8 * i) 4 + 2 ^ 32 - wordAt bs (0x160 + 8 * i) 4) % 2 ^ 32).sum

/-- A queue of an image (R347). -/
def queueOf (bs : List Byte) (n : Nat) : Queue :=
  let a := msgsBefore bs n
  ⟨(upTo (min (msgsBefore bs (n + 1) - a) 4608)).map fun i => wd bs (0x9000 + 8 * (a + i)), BitVec.ofNat 32 (wordAt bs (0x160 + 8 * n) 4),
    BitVec.ofNat 32 (wordAt bs (0x164 + 8 * n) 4)⟩

/-- What C holds beside its sequencer block (R347, R348). -/
def cOf (bs : List Byte) (stepNo : Nat) : CState :=
  let b := bs.drop 0x1000
  let st := wd b 0x118
  let u := wd b 0x6C0
  { CState.reset with
    shadow := Vector.ofFn fun i => wd b (0x680 + 8 * i.val)
    uevec := u &&& ~~~7#64
    uevEn := u.bit 0
    uevIn := st.bit 4
    uevq := (upTo (min (wordAt bs 0x50 8) 16)).map fun i => (wd bs (0x60 + 16 * i), wd bs (0x68 + 16 * i))
    flgW := st.bit 3
    stpW := if st.bit 2 then some (stepNo - 1) else none
    stepNo := stepNo
    bar := Vector.ofFn fun i => BitVec.ofNat 32 (wordAt b (0x6C8 + 4 * i.val) 4) }

/-- A saved core from an image, without its commands. -/
def savedOf (bs : List Byte) (stepNo : Nat) : SavedCore :=
  let k : Core := { Core.reset with
    seqs := Vector.ofFn fun i => seqOf (bs.drop (0x1000 + 0x2000 * i.val))
    c := cOf bs stepNo
    x := xOf (bs.drop 0x12000)
    tokens := Vector.ofFn fun i => BitVec.ofNat 16 (wordAt bs (0x40 + 2 * i.val) 2)
    queues := Vector.ofFn fun i => queueOf bs i.val
    bslots := Vector.ofFn fun i => bslotOf (bs.drop (0x16000 + 0x19000 * i.val)) }
  ⟨wordAt bs 7 1 % 32, wordAt bs 7 1 / 32, k, sparseOf 0 2097152 fun o => bs.getD (0x14C000 + o) 0,
    sparseOf 0 262144 fun w => BitVec.ofNat 32 (wordAt bs (0x4C000 + 4 * w) 4),
    sparseOf 0 3072 fun i => BitVec.ofNat 32 (wordAt bs (0x48000 + 16 * (i / 3) + 4 * (i % 3)) 4)⟩

/-- The commands of some sequencers of an image issued again on a core that has been loaded, each with a stamp of its own, in
order. -/
def State.reissueSeqs (s : State) (c : CoreId) (bs : List Byte) : List SeqId → Option (List (SeqId × List Cmd) × State)
  | [] => some ([], s)
  | q :: t =>
    match s.reissueAll c q (recordsIn (bs.drop (0x1000 + 0x2000 * q.idx.val))) with
    | none => none
    | some (xs, u) =>
      let xs := (xs.zip (upTo 16)).map fun e => { e.1 with stamp := s.stamp + 16 * q.idx.val + e.2 }
      (State.reissueSeqs u c bs t).map fun e => ((q, xs) :: e.1, e.2)

/-- Messages beyond the hardware slots of an image fit the card's pool (R351). -/
def queuesFit (i : CardImg) (k : Core) : Bool :=
  (upTo 8).all (fun n => decide ((vget k.queues n Queue.empty).msgs.length ≤ 16) || CardImg.qpool i / 2 ^ n % 2 == 1)
    && decide (k.poolUsed ≤ CardImg.poolSize i)

/-- The card on a core and the core's place in it agree with an image's header (R351). -/
def headerOk (p : Fin 32) (c : CoreId) (k : Card) (bs : List Byte) : Bool :=
  wordAt bs 0 4 == 0x6AF00002 && wordAt bs 4 2 == 1 && wordAt bs 0x18 8 == 0x34C000 && decide (wordAt bs 0x0C 1 ≤ 15) && wordAt bs 6 1 == p.val
    && wordAt bs 8 4 == k.handle.toNat && wordAt bs 7 1 == (coreX c - k.ox) + 32 * (coreY c - k.oy)

/-- Where UERET resumes is no field of an image (R348): on a core loaded inside the user-event handler it is a free value, a
multiple of 8 as every pc is, and so is the repeat count there (log 9). -/
def Core.freeReturn (n : Nat) (k : Core) : Core :=
  if k.c.uevIn then { k with c := { k.c with uevRet := word (8 * Config.freeNat n), uevRepc := word (Config.freeNat (n + 1)) } } else k

/-- The traps pending on C away from its instructions in an image: the one of the frame, and where it is no engine fault, that of the
commands stopped by one, whose IA is no field of an image: a free value (log 9). -/
def asyncOf (n : Nat) (q : Seq) (stopped : List Cmd) : List AsyncTrap :=
  if q.trapPend ∧ q.frame.pc = q.pc ∧ q.frame.repc = q.repc ∧ (q.frame.cause = 0x0B ∨ q.frame.cause = 0x12) then
    ⟨q.frame.cause.toNat, q.frame.addr, q.frame.det⟩ ::
      (if q.frame.cause = 0x0B then []
      else stopped.head?.toList.map fun y => ⟨0x0B, word (Config.freeNat n), engineDetail y.done y.op.toNat 0x06⟩)
  else []

/-- A core with its pending traps put where they came from. -/
def Core.withAsync (n : Nat) (stopped : List Cmd) (k : Core) : Core :=
  let ts := asyncOf n (k.seq .C) stopped
  if ts.isEmpty then k
  else
    let k := k.setSeq .C { k.seq .C with trapPend := false }
    { k with c := { k.c with async := ts } }

/-- Load an image into a core, or refuse it (R351). An image whose fields are within their limits and whose reserved bytes are
zero is the image of what it loads. Commands stopped by a fault whose trap has been taken resume at the ERET of the handler that
loads them (R327, log 9). -/
def State.loadImage (s : State) (c : CoreId) (k : Card) (bs : List Byte) : Option State :=
  let p := (s.core c).partNo
  let x := savedOf bs (s.core c).c.stepNo
  if !headerOk p c k bs || !queuesFit k.img x.core || !(allSeqs.all fun q => blockOk (bs.drop (0x1000 + 0x2000 * q.idx.val)))
      || !xOk (s.poolOf c) (bs.drop 0x12000) || !(upTo 2).all (fun i => bslotOk (bs.drop (0x16000 + 0x19000 * i))) then none
  else
    match (s.loadCore c x).reissueSeqs c bs allSeqs with
    | none => none
    | some (ls, u) =>
      let full := ls.foldl (fun (k : Core) e => k.setSeq e.1 { k.seq e.1 with cmds := e.2 }) x.core
      let stopped := (ls.flatMap (·.2)).filter fun y => y.state != .running
      let full := full.withAsync (s.free + 2) stopped
      if imageBytes p k.handle (wordAt bs 0x0C 1) { x with core := full } = bs then
        let t := { s.loadCore c { x with core := full.freeReturn s.free } with fab := u.fab, stamp := s.stamp + 64, free := s.free + 3 }
        let k := t.core c
        some (t.setCore c { k with c := { k.c with
          svEng := k.c.svEng || (!stopped.isEmpty && !(k.c.async.any fun a => a.cause == 0x0B)) } })
      else none

end Sys2Proof.Machine
end

