-- ==== Sys2Proof/Machine/System.lean ====
section
/-! DEFINITION. The system group (R283 to R287, R351): SYSRD and SYSWR with their register map, ERET, IDLE, EVRD, PREEMPT, CTXSV and
CTXLD. -/

namespace Sys2Proof.Machine

/-! ### The register map (R285) -/

/-- A register of a sequencer, or one that the core or its partition has. -/
inductive SysReg where
  | greg (q : SeqId) (n : Fin 32)
  | rng (q : SeqId) (i : Nat)
  | tf (q : SeqId) (i : Nat)
  | lstk (q : SeqId) (i : Nat)
  | sfpcs (q : SeqId)
  | srot (q : SeqId)
  | ocnt (q : SeqId)
  | tvec | sstat | sret | uev | cardh | evcnt
  | pft (i : Nat)
deriving DecidableEq, Repr

/-- The register of an index; none outside the map. -/
def sysReg (idx : Nat) : Option SysReg :=
  if idx < 0x4000 then
    let q := SeqId.ofIdx (Fin.ofNat 4 (idx / 4096))
    let r := idx % 4096
    if r < 0x20 then some (.greg q (Fin.ofNat 32 r))
    else if r < 0x40 then some (.rng q (r - 0x20))
    else if r < 0x45 then some (.tf q (r - 0x40))
    else if 0x48 ≤ r ∧ r < 0x58 then some (.lstk q (r - 0x48))
    else if r = 0x58 then some (.sfpcs q)
    else if r = 0x59 then some (.srot q)
    else if r = 0x5A then some (.ocnt q)
    else none
  else if idx = 0x4000 then some .tvec
  else if idx = 0x4001 then some .sstat
  else if idx = 0x4002 then some .sret
  else if idx = 0x4003 then some .uev
  else if idx = 0x4004 then some .cardh
  else if idx = 0x4005 then some .evcnt
  else if 0x4400 ≤ idx ∧ idx < 0x4800 then some (.pft (idx - 0x4400))
  else none

/-- The outstanding counts of a sequencer in the layout of R164. -/
def Core.ocnt (k : Core) (q : SeqId) : Word :=
  let x := k.seq q
  word (x.ldCount * 2 ^ 15 + x.stCount * 2 ^ 11 + x.cpCount * 2 ^ 7 + (if q == .X then k.x.mx.length else 0) * 2 ^ 4 + x.rmCount)

/-- SSTAT. -/
def Core.sstat (k : Core) : Word :=
  word (k.c.svSeq.idx.val + 4 * bitNat k.c.sup
    + ((allSeqs.filter fun q => (k.seq q).trapPend || (q == .C && !k.c.async.isEmpty)).map fun q => 2 ^ (4 + q.idx.val)).sum)

/-- A word of a loop entry. -/
def LoopEntry.word (e : LoopEntry) (w : Nat) : Word :=
  match w with | 0 => e.start | 1 => e.fin | 2 => e.count | _ => Machine.word (bitNat e.rot)

/-- A loop entry with a word replaced. -/
def LoopEntry.withWord (e : LoopEntry) (w : Nat) (v : Word) : LoopEntry :=
  match w with
  | 0 => { e with start := v } | 1 => { e with fin := v } | 2 => { e with count := v } | _ => { e with rot := v.getLsbD 0 }

/-- A word of the frame. -/
def Frame.word (f : Frame) (i : Nat) : Word := match i with | 0 => f.pc | 1 => f.cause | 2 => f.addr | 3 => f.det | _ => f.repc

/-- The frame with a word replaced; TFCAUSE keeps its upper bits zero. TFDET keeps all 64 bits as written, those that the layouts of R322
call reserved among them, for it is listed RW; whether R7 and R340 hold for them the manual leaves open (DESIGN CHOICE, log 59). -/
def Frame.withWord (f : Frame) (i : Nat) (v : Word) : Frame :=
  match i with
  | 0 => { f with pc := v } | 1 => { f with cause := v &&& 0xFF#64 } | 2 => { f with addr := v } | 3 => { f with det := v }
  | _ => { f with repc := v }

/-- Half of a range register. -/
def rngHalf (r : Range) (hi : Bool) : Word := if hi then r.extractLsb' 64 64 else r.extractLsb' 0 64

/-- A range register with a half replaced; the reserved bits stay zero (R57). -/
def rngPut (r : Range) (hi : Bool) (v : Word) : Range :=
  if hi then (v &&& ~~~(0x1FFF#64 <<< 43)) ++ r.extractLsb' 0 64 else r.extractLsb' 64 64 ++ v

/-- The value of a register (R285). -/
def State.sysRead (s : State) (r : SysReg) : Word :=
  let k := s.here
  let u := k.userView
  match r with
  | .greg q n => (u.seq q).rd n
  | .rng q i => rngHalf (vget (k.seq q).rng (i / 2) 0) (i % 2 == 1)
  | .tf q i => (k.seq q).frame.word i
  | .lstk q i => (vget (u.seq q).loops (i / 4) LoopEntry.empty).word (i % 4)
  | .sfpcs q => (k.seq q).fpcs
  | .srot q => if q = .X then k.x.rot.setWidth 64 else 0
  | .ocnt q => k.ocnt q
  | .tvec => k.tvec
  | .sstat => k.sstat
  | .sret => k.c.sret
  | .uev => (k.c.uevec &&& ~~~7#64) ||| word (bitNat k.c.uevEn)
  | .cardh => k.card.setWidth 64
  | .evcnt => word (s.part k.partNo).supq.length
  | .pft i => sget 0 (s.part k.partNo).pft i

/-- SYSRD (R285). -/
def execSysrd (d a : SReg) (k : BitVec 19) (s : State) : Host.Outcome State Fault Refusal :=
  system s fun s => do
    let (x, s) ← s.readS a
    match sysReg (x + k.setWidth 64).toNat with
    | none => .error (s.wordTrap 0x01)
    | some r =>
      let s ← s.writeS d (s.sysRead r)
      pure s.complete

/-- A sequencer that is stopped, while C runs its handler (R285). -/
def Core.stopped (k : Core) (q : SeqId) : Bool :=
  let x := k.seq q
  q == .C || x.trapPend || x.ctxStop || x.done || (k.c.sup && k.c.svSeq == q)

/-- A user register of a sequencer written from C's handler; g0 is not written. -/
def Core.putGreg (k : Core) (q : SeqId) (n : Fin 32) (v : Word) : Core :=
  if n = 0 then k
  else if q = .C then { k with c := { k.c with bank := k.c.bank.set n.val v } }
  else k.setSeq q ((k.seq q).wr n v)

/-- A loop stack written from C's handler. -/
def Core.putLoops (k : Core) (q : SeqId) (f : Vector LoopEntry 4 → Vector LoopEntry 4) : Core :=
  if q = .C then { k with c := { k.c with svLoops := f k.c.svLoops } }
  else k.setSeq q { k.seq q with loops := f (k.seq q).loops }

/-- The bits of a word of the prefetch table that are not reserved (R78). -/
def pftBits (i : Nat) : Word := if i % 4 = 0 then 0xFFFFFFFF#64 else if i % 4 = 3 then 0 else ~~~0#64

/-- A register that only a stopped sequencer's is written (R285). -/
def SysReg.needsStop : SysReg → Option SeqId
  | .greg q _ | .tf q _ | .lstk q _ | .sfpcs q | .srot q => some q
  | _ => none

/-- Write a register (R285). TVEC is stored as written, also where it is no multiple of 8 or lies outside tiers 0 to 2, of which the manual
does not speak (DESIGN CHOICE, log 59). -/
def State.sysWrite (s : State) (r : SysReg) (v : Word) : State :=
  let k := s.here
  match r with
  | .greg q n => s.setHere (k.putGreg q n v)
  | .rng q i =>
    let x := k.seq q
    s.setHere (k.setSeq q { x with rng := vset x.rng (i / 2) (rngPut (vget x.rng (i / 2) 0) (i % 2 == 1) v) })
  | .tf q i => s.setHere (k.setSeq q { k.seq q with frame := (k.seq q).frame.withWord i v })
  | .lstk q i => s.setHere (k.putLoops q fun l => vset l (i / 4) ((vget l (i / 4) LoopEntry.empty).withWord (i % 4) v))
  | .sfpcs q => s.setHere (k.setSeq q { k.seq q with fpcs := v &&& fpcsBits })
  | .srot q => if q = .X then s.setX { k.x with rot := v.setWidth 5 } else s
  | .tvec => s.setHere { k with tvec := v }
  | .pft i => s.setPart k.partNo { s.part k.partNo with pft := sset 0 (s.part k.partNo).pft i (v &&& pftBits i) }
  | .ocnt _ | .sstat | .sret | .uev | .cardh | .evcnt => s

/-- SYSWR (R285). -/
def execSyswr (a b : SReg) (k : BitVec 19) (s : State) : Host.Outcome State Fault Refusal :=
  system s fun s => do
    let (x, s) ← s.readS a
    let (y, s) ← s.readS b
    match sysReg (x + k.setWidth 64).toNat with
    | none => .error (s.wordTrap 0x01)
    | some r =>
      if r.needsStop.any fun q => !s.here.stopped q then .error (s.wordTrap 0x04)
      pure (s.sysWrite r y).complete

/-! ### ERET, IDLE, PREEMPT (R284, R287) -/

/-- ERET (R284). -/
def execEret (s : State) : Host.Outcome State Fault Refusal :=
  system s fun s => if s.me.ldCount ≠ 0 then .error .stall else .ok (s.setHere s.here.leaveHandler)

/-- IDLE (R287). -/
def execIdle (s : State) : Host.Outcome State Fault Refusal :=
  system s fun s =>
    if s.here.trapWaits || !(s.part s.here.partNo).supq.isEmpty then .ok s.complete else .error .stall

/-- PREEMPT (R287, R343): a running card is to be pre-empted, whatever its NPRE. On a live replay, of which R287 does not speak, it has no
effect (DESIGN CHOICE, log 59). -/
def execPreempt (a : SReg) (s : State) : Host.Outcome State Fault Refusal :=
  system s fun s => do
    let (x, s) ← s.readS a
    let p := s.here.partNo
    match s.handleIs p x s.here.card with
    | .none => .error (s.launchTrap 0)
    | .over => pure s.complete
    | .live =>
      match s.card? p (x.setWidth 32) with
      | some c => pure (if c.phase = .running then s.setCard p { c with forced := true } else s).complete
      | none => pure s.complete

/-! ### Stores of C that are performed at once (EVRD, CTXSV) -/

/-- The pieces of a write, each within a line; the fuel bounds them. -/
def writePieces (p : Place) (va : Nat) : Nat → List Byte → List (Req × Place × List Byte)
  | 0, _ => []
  | _ + 1, [] => []
  | fuel + 1, b :: bs =>
    let (now, rest) := (b :: bs).splitAt (128 - va % 128)
    (⟨0, va, now.length⟩, p, now) :: writePieces (p.plus now.length) (va + now.length) fuel rest

/-- No store of another sequencer of the cluster that is performed short of its home shares a byte with a write (R84). -/
def State.clearOf (s : State) (c : CoreId) (ia n : Nat) : Bool :=
  !((clusterCores (clusterOf c)).any fun d => allSeqs.any fun r => (s.seq d r).stores.any fun t =>
    t.moment != .issued && t.meets ia n)

/-- Ask the home of each piece. -/
def State.askPieces (s0 s : State) : List (Req × Place × List Byte) → Except Stop State
  | [] => .ok s
  | (r, p, _) :: t =>
    match s0.askStore s .store true r p with
    | .error e => .error e
    | .ok s => State.askPieces s0 s t

/-- Perform one piece of a write that begins at `at0`: buffered on a stepped page, else at its home, which has been asked, or in local
memory, with the core's own line kept up to date (R67). -/
def State.putPiece (s0 s : State) (at0 : Nat) (r : Req) (p : Place) (bs : List Byte) : Except Stop State :=
  let c := s.cur.core
  match p with
  | .system _ => .ok s
  | .lm d o => .ok (lmWrite s d o bs)
  | .home ia cache =>
    if s.isStepped ia then s0.bufferMine s .store r.lane at0 ia bs .plain []
    else if !s.clearOf c ia bs.length then .error .hold
    else
      let s := (s.land ia bs (s.depthOf c)).lateDrop c (some ia)
      match s.l1Line c ia with
      | some l => .ok (if cache = 0 then s.l1Put c (l.patch ia bs) else s.l1Drop c ia)
      | none => .ok s

/-- Perform the pieces in order. -/
def State.putPieces (s0 s : State) (at0 : Nat) : List (Req × Place × List Byte) → Except Stop State
  | [] => .ok s
  | (r, p, bs) :: t =>
    match s0.putPiece s at0 r p bs with
    | .error e => .error e
    | .ok s => State.putPieces s0 s at0 t

/-- The place of a write of C that is to be performed before its instruction completes, once its homes have confirmed it. -/
def State.storeAsk (s0 s : State) (va align : Nat) (bs : List Byte) : Except Stop (Place × State) := do
  let ps ← s.places .store false align [⟨0, va, bs.length⟩]
  match ps with
  | [(_, p)] =>
    if !s.me.loaded || !s.ownAt .dev then .error .hold
    let s ← s0.askPieces s (writePieces p va (bs.length / 64 + 2) bs)
    pure (p, s)
  | _ => .error .hold

/-- Perform such a write. -/
def State.storePut (s0 s : State) (p : Place) (va : Nat) (bs : List Byte) : Except Stop State :=
  s0.putPieces s (match p with | .home ia _ => ia | _ => 0) (writePieces p va (bs.length / 64 + 2) bs)

/-- A write of C that is performed before its instruction completes (R269, R287). -/
def State.storeNow (s0 s : State) (va align : Nat) (bs : List Byte) : Except Stop State := do
  let (p, s) ← s0.storeAsk s va align bs
  s0.storePut s p va bs

/-- EVRD (R287): an acquire at .dev. -/
def execEvrd (d a : SReg) (s : State) : Host.Outcome State Fault Refusal :=
  system s fun s0 => do
    let (x, s) ← s0.readS a
    let _ ← s.places .store false 32 [⟨0, x.toNat, 32⟩]
    let p := s.here.partNo
    match (s.part p).supq with
    | [] =>
      let s ← s.writeS d 0
      pure s.complete
    | e :: _ =>
      let s ← s0.storeNow s x.toNat 32 e.bytes
      let s := s.setPart p { s.part p with supq := (s.part p).supq.drop 1 }
      let s ← s.writeS d 1
      pure (s.acquire s.cur.core .dev).complete

/-! ### CTXSV and CTXLD (R287, R351) -/

/-- L, X and S of a core stop. -/
def Core.ctxStop (k : Core) : Core :=
  [SeqId.L, .X, .S].foldl (fun k q => k.setSeq q { k.seq q with ctxStop := true }) k

/-- What R342 completes before an image is written: loads, stores, atomics, matrix operations and remote commands; a command that
has its status completes too. -/
def Core.drained (k : Core) : Bool :=
  (allSeqs.all fun q =>
    let x := k.seq q
    x.loads.isEmpty && x.stores.isEmpty && x.atoms.isEmpty && x.cmds.all fun c => !isRemote c.op && c.stat == 0) && k.x.mx.isEmpty

/-- A command stands where it may be saved (R342): between two units, or stopped by a fault; the ring form of DECMP not between a
TWAIT of TE and the next TPOST of TF. -/
def Cmd.atUnit (x : Cmd) : Bool := x.state != .running || (x.pend.isEmpty && !(x.op == 0xB4 && x.off == 1))

/-- What R342 completes or stops is completed or stopped. -/
def Core.maySave (k : Core) : Bool := k.drained && allSeqs.all fun q => (k.seq q).cmds.all Cmd.atUnit

/-- The context image of the issuing core, as its card stands (R345 to R350). -/
def State.imageNow (s : State) : List Byte :=
  let c := s.cur.core
  let o := match s.cardOn c with | some k => (k.ox, k.oy) | none => (coreX c, coreY c)
  imageBytes s.here.partNo s.here.card (s.depthOf c) (s.saveCore c o.1 o.2)

/-- A place on a stepped page. -/
def State.steppedAt (s : State) (p : Place) (n : Nat) : Bool :=
  match p with
  | .home ia _ => s.meetsStep ia n
  | _ => false

/-- CTXSV (R351): once everything is completed or stopped and the homes have confirmed the image, C stands until it has written it, in
ascending address (R83); writes to a stepped page are buffered at once (R105). -/
def execCtxsv (a : SReg) (s : State) : Host.Outcome State Fault Refusal :=
  system s fun s0 => do
    let (x, s) ← s0.readS a
    match s0.c.image with
    | some (p, va, bs) => do
      let s ← s0.storePut s p va bs
      pure (s.setC { s.c with image := none }).complete
    | none =>
      let v := s0.setHere s0.here.ctxStop
      if !v.here.maySave then pure v
      else do
        let bs := v.imageNow
        let (p, t) ← s0.storeAsk v x.toNat 4096 bs
        if t.steppedAt p bs.length then do
          let t ← s0.storePut (s.setHere s.here.ctxStop) p x.toNat bs
          pure (t.setC { t.c with engStop := true }).complete
        else pure (t.setC { t.c with engStop := true, image := some (p, x.toNat, bs) })

/-- A CTXSV that stands writes the next granule of its image (R83, R351). -/
def State.imagePiece (s : State) (c : CoreId) : State :=
  match (s.core c).c.image with
  | none => s
  | some (p, va, bs) =>
    let now := bs.take 8
    let u := { s with cur := { s.cur with core := c, sq := .C } }
    match u.putPieces u 0 [(⟨0, va, now.length⟩, p, now)] with
    | .error _ => s
    | .ok t =>
      let t := { t with cur := s.cur }
      let k := t.core c
      t.setCore c { k with c := { k.c with image := some (p.plus now.length, va + now.length, bs.drop 8) } }

/-- CTXLD (R351). -/
def execCtxld (a : SReg) (s : State) : Host.Outcome State Fault Refusal :=
  system s fun s0 => do
    let (x, s) ← s0.readS a
    if !s.here.maySave then pure (s0.setHere s0.here.ctxStop)
    else
      let c := s.cur.core
      let (bs, s) ← s0.readRecord s x.toNat 4096 0x34C000
      match s.cardOn c with
      | none => .error (s.launchTrap x.toNat)
      | some k =>
        match s.loadImage c k bs with
        | none => .error (s.launchTrap x.toNat)
        | some s =>
          let s := s.setHere s.here.ctxStop
          pure (s.setC { s.c with engStop := true }).complete

end Sys2Proof.Machine
end

