-- ==== Sys2Proof/Machine/Sched.lean ====
section
/-! DEFINITION. The schedulers (R27, R28, R35 to R41, R50, R101, R277, R341 to R344, R383 to R385): taking cards, placing them,
pre-emption and resumption, completion, and the release of replays. -/

namespace Sys2Proof.Machine

/-! ### Participants (R101, R315) -/

/-- The participants of a local group on this package: the cores, running or saved, of its placed cards whose C has not reached
NOTIFY. -/
def State.participants (s : State) (g : Fin 16) : List Core :=
  (s.sch.cards.filter fun c => c.2.placed && c.2.groupOf == some g).flatMap fun c =>
    (s.coresOf c.2).filter fun k => !(k.seq .C).done

/-- A participant counts as having executed STEP `n` (R202, R315). -/
def Core.executed (k : Core) (n : Nat) : Bool := decide (n < k.c.stepNo) || (k.c.flgW && decide (n ≤ k.c.stepNo))

/-- The step that a newly placed card joins (R101): the next one when every participant here has executed the present one, or the
package has already said so (log 14). -/
def State.joinStep (s : State) (c : Card) : Nat :=
  match c.groupOf with
  | none => 0
  | some g =>
    let gr := s.fab.groups[g.val]
    let ps := s.participants g
    if gr.told || (!ps.isEmpty && ps.all fun k => k.executed gr.step) then gr.step + 1 else gr.step

/-! ### Taking a card from a queue (R36, R37, R383) -/

/-- Read a slot of a host queue: the image, or the state that the failed read leaves; nothing while its home is out of service. -/
def State.readSlot (s : State) (ia : Nat) : Option (Except State (CardImg × State)) :=
  if s.anyDown ia 128 then none
  else
    match s.confirmAll false ia 128 with
    | .error _ => some (.error s)
    | .ok () =>
      if (upTo 128).any fun i => s.isStepped (ia + i) then some (.error s)
      else
        match s.meet ia 128 with
        | .error (u, _) => some (.error u)
        | .ok u => some (.ok (CardImg.ofBytes (u.homeBytes ia 128), u))

/-- A card taken enters the scheduler; with DEP 0 it is eligible at once (R37). -/
def State.enrol (s : State) (p : Fin 32) (c : Card) : State :=
  let s := { s with sch := { s.sch with cards := s.sch.cards ++ [(p, c)] } }
  if c.dep = 0 then s.arrive p c.handle else s

/-- The scheduler takes the next card of a host queue. It takes the function's range set with it: of a VF_UNBIND or another binding before
the placement R59 does not speak (DESIGN CHOICE, log 59). -/
def State.takeHost (s : State) (v : Fin 1024) : State :=
  let f := s.vf v
  match f.part with
  | none => s
  | some p =>
    if f.qhead = f.qtail then s
    else
      let ia := f.qring + 128 * (f.qhead.toNat % 2 ^ f.qlog)
      let pass := fun (t : State) => t.setVf v { t.vf v with qhead := (t.vf v).qhead + 1 }
      match s.readSlot ia with
      | none => s
      | some (.error t) => (pass t).postTask p 0 (word ia) 0x06
      | some (.ok (i, t)) =>
        match t.cardFault p i with
        | some code => (pass t).postTask p 0 (word ia) (word code)
        | none =>
          match t.newHandle p with
          | none => s
          | some (h, u) => (pass u).enrol p (newCard h i f.rng (.host v) none)

/-- The replay that a handle belongs to. -/
def State.replayOf (s : State) (p : Fin 32) (h : Handle) : Option Handle :=
  (s.sch.replays.find? fun r => r.1 = p && r.2.handles.contains h).map (·.2.handle)

/-- The scheduler takes the next card of a device queue. A refused one keeps its handle (R383); of one that has been discarded
nothing is left (R395). -/
def State.takeDev (s : State) (p : Fin 32) (q : Nat) : State :=
  let pt := s.part p
  match pt.devq q with
  | none => s
  | some d =>
    match d.cards with
    | [] => s
    | (h, i, rng) :: rest =>
      let s := s.setPart p { pt with devqs := pt.devqs.set q { d with cards := rest, head := d.head + 1 } }
      let c := newCard h i rng .dev (s.replayOf p h)
      if !(s.part p).liveHandle h then s
      else
      match s.cardFault p i with
      | some code =>
        let s := { s with sch := { s.sch with cards := s.sch.cards ++ [(p, { c with phase := .refused })] } }
        s.postTask p h (word (Config.ringIa p.val d.num + 128 * (d.head.toNat % 2 ^ d.sizeLog))) (word code)
      | none => s.enrol p c

/-- CARD_QUEUE_TAKE (R36). -/
def execCardQueueTake (q : QueueRef) (s : State) : Host.Outcome State Fault Refusal :=
  match q with
  | .host v => .next (s.takeHost v)
  | .dev p n => .next (s.takeDev p n)

/-! ### Placement (R25, R27, R28, R38, R50, R53) -/

/-- A rectangle's cores are all free. -/
def State.rectFree (s : State) (p : Fin 32) (ox oy w h : Nat) : Bool :=
  s.fits p ox oy w h && (rectCores ox oy w h).all fun c => (s.core c).card == 0

/-- A saved range register maps tier 5 (R344). -/
def Card.mapsWindow (c : Card) : Bool :=
  c.saved.any fun x => x.core.seqs.toList.any fun q => q.rng.toList.any fun r => Range.v r && Range.iabase r * 4096 / 2 ^ 44 % 8 == 5

/-- The positions that a card may take now (R25, R344). -/
def Card.origins (c : Card) : List (Nat × Nat) :=
  if c.phase == .preempted && (CardImg.fixed c.img || c.mapsWindow) then [(c.ox, c.oy)] else CardImg.places c.img

/-- The card's pool slots, if it has any, fit what remains of the quota (R367); a pre-empted card has been charged. -/
def State.poolFits (s : State) (p : Fin 32) (c : Card) : Bool :=
  c.phase == .preempted || CardImg.poolCharge c.img == 0
    || decide (vget (s.part p).charges 5 0 + CardImg.poolCharge c.img ≤ vget (s.part p).quotas 5 0)

/-- A card can be placed at a position. -/
def State.placeableAt (s : State) (p : Fin 32) (c : Card) (o : Nat × Nat) : Bool :=
  c.origins.contains o && s.rectFree p o.1 o.2 (CardImg.width c.img) (CardImg.height c.img) && s.poolFits p c

/-- A card can be placed somewhere. -/
def State.placeable (s : State) (p : Fin 32) (c : Card) : Bool := c.origins.any fun o => s.placeableAt p c o

/-- The record that a triggered card stands for. -/
def State.recordFor (s : State) (c : Card) : Option Record :=
  match c.source with
  | .trigger n q => (s.recordsOf n).find? fun r => r.seq = q
  | _ => none

/-- A triggered card's turn has come within its entry (R53). -/
def State.turn (s : State) (c : Card) : Bool :=
  match c.source with
  | .trigger n q => (s.recordsOf n).head?.any fun r => r.seq == q
  | _ => true

/-- A card waits for a rectangle. -/
def State.seeks (s : State) (c : Card) : Bool :=
  c.phase == .preempted || (c.phase == .waiting && c.arrival.isSome && s.turn c)

/-- A card is considered before another (R38, R344): by class, pre-empted cards first, then by arrival. -/
def considered (a b : Card × Nat) : Bool :=
  if a.2 ≠ b.2 then decide (b.2 < a.2)
  else if (a.1.phase == .preempted) != (b.1.phase == .preempted) then a.1.phase == .preempted
  else decide (a.1.arrival.getD 0 < b.1.arrival.getD 0)

/-- Insert by an order; equal ones keep their order. -/
def insertBy {α : Type} (lt : α → α → Bool) (x : α) : List α → List α
  | [] => [x]
  | y :: t => if lt x y then x :: y :: t else y :: insertBy lt x t

/-- The cards that seek a rectangle, in the order of consideration, each with its effective class. -/
def State.seekers (s : State) (p : Fin 32) : List (Card × Nat) :=
  ((s.classes.filter fun e => e.1.1 = p && s.seeks e.1.2).map fun e => (e.1.2, e.2)).foldl (fun l x => insertBy considered x l) []

/-- What the scheduler does next for a partition. -/
inductive Pick where
  | none
  | refuse (c : Card) (code : Nat)
  | place (c : Card)

/-- The first card that can be placed, unless one that cannot holds its class first (R38); a triggered card whose template has
become unusable is refused (R383). -/
def State.pick (s : State) (p : Fin 32) : List (Card × Nat) → Pick
  | [] => .none
  | (c, _) :: t =>
    match (if c.phase == .waiting && (s.recordFor c).isSome then s.cardFault p c.img else .none) with
    | some code => .refuse c code
    | .none => if s.placeable p c then .place c else if c.hold then .none else State.pick s p t

/-- A sequencer at the start of a card (R27, R28). -/
def startSeq (c : Card) (rx ry : Nat) (q : SeqId) : Seq :=
  let i := c.img
  let e := CardImg.entry i q
  let gs : List Word := [0] ++ ((List.finRange 8).map (CardImg.pword i))
    ++ [word rx, word ry, word (CardImg.width i), word (CardImg.height i), c.handle.setWidth 64]
  { Seq.reset with
    g := Vector.ofFn fun n => gs.getD n.val 0
    pc := if e = 0xFFFF then 0 else CardImg.code i + word (8 * e)
    rng := c.rng
    done := e == 0xFFFF }

/-- A core at the start of a card (R27, R28, R225): local memory and accumulators stay as they are, and the B slots are empty. -/
def startCore (c : Card) (step : Nat) (id : CoreId) (k : Core) : Core :=
  { k with
    seqs := Vector.ofFn fun n => startSeq c (coreX id - c.ox) (coreY id - c.oy) (SeqId.ofIdx n)
    c := { CState.reset with bank := k.c.bank, stepNo := step }
    x := XState.reset
    tokens := Vector.replicate 8 0
    queues := Vector.replicate 8 Queue.empty
    bslots := Vector.replicate 2 BSlot.zero
    l1 := []
    late := []
    icache := []
    card := c.handle }

/-- The P-words of a triggered card (R50). -/
def triggerWords (w : Watch) (r : Record) (i : CardImg) : CardImg :=
  let ps : List Word := [word r.gia, r.old, r.new, r.count.setWidth 64, r.seq.setWidth 64, w.tw[0], w.tw[1], w.tw[2]]
  (List.finRange 8).foldl (fun i n => CardImg.withP i n (ps.getD n.val 0)) i

/-- The record of a triggered card is freed when the card starts or is refused (R46, R279, R383). -/
def State.freeRecord (s : State) (c : Card) : State :=
  match c.source with
  | .trigger n q =>
    let s := { s with sch := { s.sch with records := s.sch.records.filter fun r => !(r.2.entry = n && r.2.seq = q) } }
    s.settleWatch n
  | _ => s

/-- Fix g1 to g8 and the depth of a triggered card from its record (R49 to R51). -/
def State.fixRecord (s : State) (c : Card) : Card :=
  match c.source, s.recordFor c with
  | .trigger n _, some r =>
    match s.watch? n with
    | some w => { c with img := triggerWords w r c.img, depth := r.depth }
    | none => c
  | _, _ => c

/-- Place a card on a rectangle (R27, R28, R77). -/
def State.placeCard (s : State) (p : Fin 32) (c : Card) (o : Nat × Nat) : State :=
  let step := s.joinStep c
  let c := { s.fixRecord c with phase := .running, ox := o.1, oy := o.2 }
  let s := s.freeRecord c
  let pt := s.part p
  let s := s.setPart p { pt with charges := vset pt.charges 5 (vget pt.charges 5 0 + CardImg.poolCharge c.img) }
  let s := c.cores.foldl (fun s id => s.setCore id (startCore c step id (s.core id))) s
  s.setCard p c

/-- Refuse a triggered card (R383); its template has no slot, so the address is a free value (log 13). -/
def State.refuseCard (s : State) (p : Fin 32) (c : Card) (code : Nat) : State :=
  let (a, s) := s.draw (2 ^ 64)
  let s := (s.setCard p { c with phase := .refused }).freeRecord c
  s.postTask p c.handle (word a) (word code)

/-- CARD_PLACEMENT (R38): the card whose turn it is starts at a position that the scheduler chooses; in a power state other than
Active no card starts (R303). -/
def execCardPlacement (part : Fin 32) (x : Fin 32) (y : Fin 8) (s : State) : Host.Outcome State Fault Refusal :=
  match s.pick part (s.seekers part) with
  | .none => .next s
  | .refuse c code => .next (s.refuseCard part c code)
  | .place c =>
    if c.phase == .waiting && s.hst.pstate == 0 && s.placeableAt part c (x.val, y.val) then
      .next (s.placeCard part c (x.val, y.val))
    else .next s

/-- A card has arrived and has not been placed, or waits to be resumed (R38 rules 2 and 3). -/
def Card.ages (c : Card) : Bool := c.phase == .preempted || (c.phase == .waiting && c.arrival.isSome)

/-- AGING_LIMIT_EXPIRY (R38): a card that has waited one more aging limit rises, and holds its class. -/
def execAgingLimitExpiry (part : Fin 32) (handle : BitVec 32) (s : State) : Host.Outcome State Fault Refusal :=
  match s.card? part handle with
  | none => .next s
  | some c =>
    if c.ages then
      .next (s.setCard part { c with hold := true, aged := if c.phase == .waiting then min 2 (c.aged + 1) else c.aged })
    else .next s

/-! ### Pre-emption (R38 rule 4, R273, R341 to R343) -/

/-- C of a core stands where a card may be pre-empted (R343, R341). -/
def Core.mayStop (k : Core) (c : Card) : Bool :=
  !k.trapWaits && !k.c.sup
    && (!k.c.stand || (match k.c.taken with | some (.image _) => true | _ => false))
    && (!CardImg.stepped c.img || k.c.stpW.isSome || k.c.flgW)
    && (!CardImg.npre c.img || c.forced || k.c.yieldW)

/-- The stores that the sequencers of a card see have been performed at their homes, so that what it has seen stays before what it
does later, in whatever cluster (R344, log 15). -/
def State.seenHome (s : State) (c : Card) : Bool := c.cores.all fun id => allSeqs.all fun q => s.coveredAt id q .dev

/-- Images of the save pool in use by a partition (R343). -/
def State.poolUsed (s : State) (p : Fin 32) : Nat :=
  ((s.sch.cards.filter fun c => c.1 = p).map fun c => c.2.saved.length).sum

/-- Cores of a partition. -/
def State.coreCount (s : State) (p : Fin 32) : Nat := 8 * popCount 32 (s.part p).clusters.toNat

/-- A card may be pre-empted now (R343). -/
def State.mayPreempt (s : State) (p : Fin 32) (c : Card) : Bool :=
  c.phase == .running && (s.coresOf c).all (fun k => k.mayStop c && k.maySave) && s.seenHome c
    && decide (s.poolUsed p + c.cores.length ≤ 2 * s.coreCount p)

/-- The running cards that share a core with a rectangle. -/
def State.occupants (s : State) (p : Fin 32) (o : Nat × Nat) (w h : Nat) : List Card :=
  ((s.sch.cards.filter fun c => c.1 = p && c.2.phase == .running).map (·.2)).filter fun c =>
    (rectCores o.1 o.2 w h).any fun k => c.cores.contains k

/-- The sets of running cards of lower class whose pre-emption would free a rectangle for a card. Those with NPRE = 1 count only where
no set without one would do (R38, R273). In a set that mixes both, a card with NPRE = 0 may be pre-empted before the one with NPRE = 1 has
reached its YIELD: the manual gives the two no order (DESIGN CHOICE, log 59). -/
def State.victimSets (s : State) (p : Fin 32) (e : Card × Nat) : List (List Card) :=
  let w := CardImg.width e.1.img
  let h := CardImg.height e.1.img
  let sets := (e.1.origins.filter fun o => s.fits p o.1 o.2 w h).filterMap fun o =>
    let vs := s.occupants p o w h
    if !vs.isEmpty && vs.all fun v => s.classOf p v.handle < e.2 then some vs else none
  let free := sets.filter fun vs => vs.all fun v => !CardImg.npre v.img
  if free.isEmpty then sets else free

/-- A running card is chosen under rule 4 of R38: it stands in the way of a card of higher class that cannot be placed, and none
of lower class would do. -/
def State.chosen (s : State) (p : Fin 32) (c : Card) : Bool :=
  (s.seekers p).any fun e =>
    !s.placeable p e.1 && s.poolFits p e.1 &&
      let vs := (s.victimSets p e).flatten
      (vs.any fun v => v.handle == c.handle) && vs.all fun v => s.classOf p c.handle ≤ s.classOf p v.handle

/-- Pre-empt a card (R341): its cores are saved and freed. -/
def State.preempt (s : State) (p : Fin 32) (c : Card) : State :=
  let saved := c.cores.map fun id =>
    let x := s.saveCore id c.ox c.oy
    { x with core := { x.core with c := { x.core.c with stand := false, taken := none, barWait := none, yieldW := false, held := false } } }
  let s := c.cores.foldl (fun s id => s.setCore id (s.core id).idle) s
  s.setCard p { c with phase := .preempted, pre := false, forced := false, saved := saved }

/-- PREEMPTION: of a card that PREEMPT named, or that the scheduler has chosen; the choice of a card with NPRE = 1 holds until it
is pre-empted or no longer needed (R273). -/
def execPreemption (part : Fin 32) (handle : BitVec 32) (s : State) : Host.Outcome State Fault Refusal :=
  match s.card? part handle with
  | none => .next s
  | some c =>
    let chosen := s.chosen part c
    if c.phase != .running then .next s
    else if c.forced || chosen then
      if s.mayPreempt part c then .next (s.preempt part c)
      else if chosen && CardImg.npre c.img then .next (s.setCard part { c with pre := true })
      else .next s
    else .next (s.setCard part { c with pre := false })

/-! ### Resumption (R344) -/

/-- A resumed command that writes stepped pages takes numbers of the sequencer it now runs on for the elements it has left (R107, R344);
on the sequencer it had it keeps those it took. -/
def State.rekey (s : State) (gid : Nat) (x : Cmd) : Cmd × State :=
  match x.stepOf with
  | none => (x, s)
  | some (g, n) =>
    if x.gid = gid then (x, s)
    else
      let m := x.nextElem
      ({ x with gid := gid, key0 := s.seqno g n gid, sn0 := m }, s.takeSeqnos g n gid (x.elems - m))

/-- Some commands of a sequencer take new numbers in order. -/
def State.rekeyAll (s : State) (gid : Nat) : List Cmd → List Cmd × State
  | [] => ([], s)
  | x :: t =>
    let (x, s) := s.rekey gid x
    let (t, s) := State.rekeyAll s gid t
    (x :: t, s)

/-- The commands of a core take new numbers, sequencer by sequencer. -/
def State.rekeyCore (s : State) (c : CoreId) : State :=
  allSeqs.foldl (fun s q =>
    let (xs, t) := s.rekeyAll (globalId c q) (s.seq c q).cmds
    t.setSeq c q { t.seq c q with cmds := xs }) s

/-- A saved core comes back: the writes of its commands carry the keys of the sequencers it now runs on (R344); its places in windows
are as before. -/
def State.resumeCore (s : State) (c : Card) (x : SavedCore) : State :=
  match coreAt (c.ox + x.x) (c.oy + x.y) with
  | none => s
  | some id =>
    let s := s.setCore id { s.core id with card := c.handle }
    let s := s.loadCore id x
    (s.setCore id { s.core id with l1 := [], late := [], icache := [] }).rekeyCore id

/-- CARD_RESUME (R344): a pre-empted card whose turn it is comes back at a position that the scheduler chooses. -/
def execCardResume (part : Fin 32) (x : Fin 32) (y : Fin 8) (s : State) : Host.Outcome State Fault Refusal :=
  match s.pick part (s.seekers part) with
  | .place c =>
    let o := (x.val, y.val)
    if c.phase == .preempted && s.placeableAt part c o then
      let d := { c with ox := o.1, oy := o.2 }
      let s := c.saved.foldl (fun s k => s.resumeCore d k) s
      .next (s.setCard part { d with phase := .running, saved := [] })
    else .next s
  | _ => .next s

/-! ### Completion (R41, R385) -/

/-- Every sequencer of every core of a card has reached NOTIFY, and nothing of C's handler is under way. -/
def State.finished (s : State) (c : Card) : Bool :=
  c.phase == .running && (s.coresOf c).all fun k =>
    (allSeqs.all fun q => (k.seq q).done) && k.drained && !k.c.sup && !k.trapWaits

/-- The completion word is stored, or its refusal is reported (R41, R385). -/
def State.completionWord (s : State) (p : Fin 32) (c : Card) : State :=
  let a := (CardImg.cwaddr c.img).toNat
  let refused := fun (t : State) => t.postTask p c.handle (word a) 0x11
  if CardImg.cact c.img % 2 = 0 then s
  else
    match s.confirmAll true a 8 with
    | .error (e, b) => refused (if e = .perm then s.refusedWrite b else s)
    | .ok () =>
      if s.isStepped a then refused s
      else
        match s.meetWrite a 8 with
        | .error (u, _) => refused u
        | .ok u => (u.uncodeRun a 8).perform a (w8 (CardImg.cwval c.img)) c.depth

/-- The card with its dependence count lowered, in its image. -/
def CardImg.lowerDep (i : CardImg) : CardImg := if CardImg.dep i = 0 then i else i.set 3 (i[3] - 1)

/-- A handle names a live card, whether taken or not yet; one of a queue or a replay that has been discarded is none. -/
def State.liveCard (s : State) (p : Fin 32) (h : Handle) : Bool :=
  (s.card? p h).isSome || ((s.part p).liveHandle h
    && (((s.part p).devqs.any fun d => d.cards.any fun e => e.1 == h)
      || s.sch.replays.any fun r => r.1 = p && r.2.toGo.any fun e => e.1 == h))

/-- Decrement the dependence count of a successor (R37, R41, R385). -/
def State.decrement (s : State) (p : Fin 32) (own h : Handle) : State :=
  if h = 0 then s
  else if !s.liveCard p h then s.postTask p own 0 0x10
  else
    match s.card? p h with
    | some d => s.setCard p { d with dep := d.dep - 1 }
    | none =>
      let pt := s.part p
      let s := s.setPart p { pt with devqs := pt.devqs.map fun q =>
        { q with cards := q.cards.map fun e => if e.1 = h then (e.1, CardImg.lowerDep e.2.1, e.2.2) else e } }
      { s with sch := { s.sch with replays := s.sch.replays.map fun r =>
        if r.1 = p then
          (r.1, { r.2 with toGo := r.2.toGo.map fun e => if e.1 = h then (e.1, CardImg.lowerDep e.2) else e })
        else r } }

/-- The successors that a completion has made eligible arrive, those of one queue in queue order (R37). -/
def State.arriveFreed (s : State) (p : Fin 32) (hs : List Handle) : State :=
  (s.sch.cards.filter fun c => c.1 = p && hs.contains c.2.handle && c.2.dep = 0 && c.2.phase == .waiting && c.2.arrival.isNone).foldl
    (fun s c => s.arrive p c.2.handle) s

/-- A core freed by a completed card (R41): what its registers, tokens, tiles and slots hold stays until the next card starts (R28,
R393); the fused L1 is invalidated (R68). -/
def Core.free (k : Core) (fused : Bool) : Core :=
  { k with card := 0, l1 := if fused then [] else k.l1, late := if fused then [] else k.late }

/-- One card of a replay has completed (R277). -/
def State.replayStep (s : State) (p : Fin 32) (h : Handle) : State :=
  let rs := s.sch.replays.map fun r => if r.1 = p && r.2.handle = h then (r.1, { r.2 with left := r.2.left - 1 }) else r
  if rs.any fun r => r.1 = p && r.2.handle = h && r.2.left = 0 then
    let s := { s with sch := { s.sch with replays := rs.filter fun r => !(r.1 = p && r.2.handle = h) } }
    s.setSlot p h .completed
  else { s with sch := { s.sch with replays := rs } }

/-- A card completes (R41), in the order of the rule. -/
def State.completeCard (s : State) (p : Fin 32) (c : Card) : State :=
  let s := s.completionWord p c
  let succs := [CardImg.succ c.img 0, CardImg.succ c.img 1]
  let s := (succs.foldl (fun s h => s.decrement p c.handle h) s).arriveFreed p succs
  let s := if CardImg.cact c.img / 2 % 2 = 1 then s.post p (srcSched p) 9 0 c.handle 0 0 else s
  let s := c.cores.foldl (fun s id => s.setCore id ((s.core id).free (CardImg.fused c.img))) s
  let s := (s.releasePool p c).delCard p c.handle
  let s := s.setSlot p c.handle .completed
  let s := match c.replay with
    | some r => s.replayStep p r
    | none => s
  s.serveRecords p

/-- CARD_COMPLETION (R41): it waits for the completion word's home. -/
def execCardCompletion (part : Fin 32) (handle : BitVec 32) (s : State) : Host.Outcome State Fault Refusal :=
  match s.card? part handle with
  | none => .next s
  | some c =>
    if s.finished c && !(CardImg.cact c.img % 2 = 1 && s.anyDown (CardImg.cwaddr c.img).toNat 8) then
      .next (s.completeCard part c)
    else .next s

/-! ### Replays (R277) -/

/-- Assign the handles of a replay's cards, in order (R277 step 6). -/
def State.handlesFor (s : State) (p : Fin 32) : Nat → Option (List Handle × State)
  | 0 => some ([], s)
  | n + 1 =>
    match s.newHandle p with
    | none => none
    | some (h, s) => (State.handlesFor s p n).map fun r => (h :: r.1, r.2)

/-- The successor field of a card of a replay. -/
def relink (hs : List Handle) (h : Handle) : Handle := if h = 0 then 0 else hs.getD (h.toNat - 1) 0

/-- A card of an object as a replay enqueues it: successors as handles, and for a re-entrant object its instance area. -/
def replayImg (r : Replay) (inst : Option Nat) (hs : List Handle) (i : CardImg) : CardImg :=
  let i := i.set 6 ((relink hs (CardImg.succ i 1) ++ relink hs (CardImg.succ i 0) : BitVec 64))
  match inst with
  | some j => CardImg.withP i 7 (r.parea + word (j * r.pasize))
  | none => i

/-- Replace a replay. -/
def State.setReplay (s : State) (p : Fin 32) (r : Replay) : State :=
  { s with sch := { s.sch with replays := s.sch.replays.map fun e => if e.1 = p && e.2.handle = r.handle then (p, r) else e } }

/-- Enqueue the cards of a released replay while its queue has room; the fuel is their number. -/
def State.feedReplay (s : State) (p : Fin 32) (h : Handle) : Nat → State
  | 0 => s
  | n + 1 =>
    match s.sch.replays.find? fun r => r.1 = p && r.2.handle = h with
    | none => s
    | some (_, r) =>
      match r.toGo, (s.part p).devq r.queue with
      | (hd, i) :: t, some d =>
        if d.full then s
        else State.feedReplay ((s.enqueue p r.queue hd i r.rng).setReplay p { r with toGo := t }) p h n
      | _, _ => s

/-- GRAPH_REPLAY_RELEASE (R43, R277): a held replay whose turn it is is released, when the handles of its cards are free; a released
one goes on enqueuing its cards. -/
def execGraphReplayRelease (part : Fin 32) (handle : BitVec 32) (s : State) : Host.Outcome State Fault Refusal :=
  match s.sch.replays.find? fun r => r.1 = part && r.2.handle = handle with
  | none => .next s
  | some (_, r) =>
    if !r.held then .next (s.feedReplay part handle r.toGo.length)
    else
      let all := s.replaysOf part r.object
      if !mayRelease r all then .next s
      else
        match s.handlesFor part r.cards.length with
        | none => .next s
        | some (hs, t) =>
          let inst := if r.rent then freeArea r all else none
          let go := hs.zip (r.cards.map (replayImg r inst hs))
          .next ((t.setReplay part { r with held := false, inst := inst, handles := hs, toGo := go }).feedReplay part handle go.length)

end Sys2Proof.Machine
end

