-- ==== Sys2Proof/Machine/Steps.lean ====
section
/-! DEFINITION. Step boundaries (R102, R106 to R110, R113, R315, R373), multicast copies and their responses (R313, R314), and the
arrival of stepped writes (R371). -/

namespace Sys2Proof.Machine

/-! ### What a boundary writes (R107 to R109) -/

/-- Keys in ascending order (R107). -/
def OKey.before (a b : OKey) : Bool :=
  if a.pkg ≠ b.pkg then decide (a.pkg.toNat < b.pkg.toNat)
  else if a.sid ≠ b.sid then decide (a.sid.toNat < b.sid.toNat)
  else decide (a.sn.toNat < b.sn.toNat)

/-- The writes of a group buffered for a step, in ascending key. -/
def State.stepWrites (s : State) (g : Fin 16) (n : Nat) : List Buffered :=
  (s.fab.sbuf.filter fun b => b.group = g && b.step = n).foldl (fun l b => insertBy (fun x y => OKey.before x.key y.key) b l) []

/-- An element as an integer of its type (R62). -/
def elemInt (etype w v : Nat) : Int :=
  if (etype = 0 ∨ etype = 3) ∧ 2 ^ (8 * w - 1) ≤ v then (v : Int) - 2 ^ (8 * w) else v

/-- A value of MIN, MAX or SUM by itself: an f32 NaN counts as the canonical one (R108). -/
def canonElem (etype v : Nat) : Nat := if etype = 2 && (fmtF32.decode v).isNan then fmtF32.nanBits else v

/-- Two values of SUM (R108). -/
def sumElem (etype w a b : Nat) : Nat := if etype = 2 then (fmtF32.add 0 a b).bits else (a + b) % 2 ^ (8 * w)

/-- Two values of MIN or MAX (R108). -/
def pickElem (etype w : Nat) (least : Bool) (a b : Nat) : Nat :=
  if etype = 2 then fmtF32.pick least a b
  else if (elemInt etype w a ≤ elemInt etype w b) = least then a else b

/-- The value of an element after pass 1, from its plain values in ascending key (R108). -/
def Region.resolve (r : Region) (old : Nat) : List Nat → Nat
  | [] => old
  | v :: vs =>
    match r.rule with
    | 0 => vs.getLastD v
    | 1 => v
    | 2 => vs.foldl (fun a b => sumElem r.etype r.elem a (canonElem r.etype b)) (canonElem r.etype v)
    | 3 => vs.foldl (fun a b => pickElem r.etype r.elem true a b) (canonElem r.etype v)
    | 4 => vs.foldl (fun a b => pickElem r.etype r.elem false a b) (canonElem r.etype v)
    | _ => if vs.isEmpty then v else old

/-- The plain values of an element, in ascending key. -/
def valuesAt (ws : List Buffered) (off w : Nat) : List Nat :=
  ws.filterMap fun b => if b.off ≤ off && off + w ≤ b.off + b.data.length then some (wordAt b.data (off - b.off) w) else none

/-- The elements of a granule, by offset. -/
def Region.elemsOf (r : Region) (gran : Nat) : List Nat := (upTo (8 / r.elem)).map fun k => gran + r.elem * k

/-- The bytes of a granule after pass 1. -/
def Region.granNew (r : Region) (old : List Byte) (ws : List Buffered) (gran : Nat) : List Byte :=
  (r.elemsOf gran).flatMap fun o => leBytes r.elem (r.resolve (wordAt old (o - gran) r.elem) (valuesAt ws o r.elem))

/-- The elements of UNIQUE with two plain writes or more, among those of a granule (R373). -/
def Region.conflicts (r : Region) (ws : List Buffered) (gran : Nat) : List Nat :=
  if r.rule = 5 then (r.elemsOf gran).filter fun o => 2 ≤ (valuesAt ws o r.elem).length else []

/-- The granules that a write touches. -/
def Buffered.grans (b : Buffered) : List Nat :=
  (upTo ((b.off % 8 + b.data.length + 7) / 8)).map fun i => b.off / 8 * 8 + 8 * i

/-- The last of a list is the first in which a granule is met from the end: granules in order of their highest key (R109). -/
def lastOrder (l : List (Nat × Nat)) : List (Nat × Nat) := l.reverse.eraseDups.reverse

/-- The granules of pass 1, as region and offset, in order of the highest key, then by address. -/
def passOne (ws : List Buffered) : List (Nat × Nat) := lastOrder (ws.flatMap fun b => b.grans.map fun o => (b.exp, o))

/-- The plain writes to a granule of a region. -/
def plainTo (ws : List Buffered) (exp gran : Nat) : List Buffered :=
  ws.filter fun b => b.exp = exp && overlap b.off b.data.length gran 8

/-- The greatest chain depth among some writes. -/
def depthIn (ws : List Buffered) : Nat := (ws.map (·.depth)).foldl max 0

/-- One granule store of pass 1. -/
def State.applyPlain (s : State) (ws : List Buffered) (e : Nat × Nat) : State :=
  match dget s.fab.regions e.1 with
  | none => s
  | some r =>
    let mine := plainTo ws e.1 e.2
    (s.uncodeRun (r.base + e.2) 8).perform (r.base + e.2) (r.granNew (s.homeBytes (r.base + e.2) 8) mine e.2) (depthIn mine)

/-- The elements of a reduction, each with its offset and bytes. -/
def rredElems (w : Nat) : Nat → Nat → List Byte → List (Nat × List Byte)
  | 0, _, _ => []
  | n + 1, off, bs => (off, bs.take w) :: rredElems w n (off + w) (bs.drop w)

/-- One reduction write of pass 2 (R195). -/
def State.applyRred (s : State) (r : Region) (op : AtomOp) (w8 : Bool) (depth off : Nat) (bs : List Byte) : State :=
  let old := word (leNat (s.homeBytes (r.base + off) (opBytes w8)))
  (s.uncodeRun (r.base + off) (opBytes w8)).perform (r.base + off) (leBytes (opBytes w8) (atomApply op w8 old (word (leNat bs))).toNat) depth

/-- One buffered reduction of pass 2, element by element. -/
def State.applyReduction (s : State) (b : Buffered) : State :=
  match b.kind, dget s.fab.regions b.exp with
  | .rred op w8, some r =>
    (rredElems (opBytes w8) (b.data.length / opBytes w8) b.off b.data).foldl (fun s e => s.applyRred r op w8 b.depth e.1 e.2) s
  | _, _ => s

/-- One flag of pass 3. -/
def State.applyFlag (s : State) (b : Buffered) : State :=
  match b.kind, dget s.fab.regions b.exp with
  | .flag, some r => (s.uncodeRun (r.base + b.off) 8).perform (r.base + b.off) (w8 (s.granVal (r.base + b.off) + 1)) b.depth
  | _, _ => s

/-- The conflict event of a region (R373). -/
def State.conflictEvent (s : State) (n exp : Nat) (offs : List Nat) : State :=
  match offs, dget s.fab.regions exp with
  | o :: os, some r =>
    let s := s.count (cntPackage 1)
    s.post r.part srcStep 5 0 0 (word (r.base + os.foldl min o))
      (word (min offs.length (2 ^ 32 - 1) + exp % 64 * 2 ^ 32 + n % 2 ^ 16 * 2 ^ 48))
  | _, _ => s

/-- The conflicting elements of a region at a boundary. -/
def State.conflictsOf (s : State) (ws : List Buffered) (exp : Nat) : List Nat :=
  match dget s.fab.regions exp with
  | none => []
  | some r => ((passOne ws).filter fun e => e.1 = exp).flatMap fun e => r.conflicts (plainTo ws exp e.2) e.2

/-- The writes of a step applied in their three passes (R109), and the conflict events (R373). -/
def State.applyWrites (s : State) (ws : List Buffered) (n : Nat) : State :=
  let plain := ws.filter fun b => b.kind = .plain
  let exps := (plain.map (·.exp)).eraseDups
  let found := exps.map fun e => (e, s.conflictsOf plain e)
  let s := (passOne plain).foldl (fun s e => s.applyPlain plain e) s
  let s := ws.foldl State.applyReduction s
  let s := ws.foldl State.applyFlag s
  found.foldl (fun s e => s.conflictEvent n e.1 e.2) s

/-! ### Regions that begin and end at a boundary (R104, R113, R296) -/

/-- The pages that cover a range, from its base up; the fuel bounds them. -/
def State.pagesFrom (s : State) (ia stop : Nat) : Nat → List Hit
  | 0 => []
  | fuel + 1 =>
    if stop ≤ ia then []
    else
      match lookup s.hm.ptes ia with
      | none => State.pagesFrom s (ia + 4096) stop fuel
      | some h => h :: State.pagesFrom s (h.base + h.size) stop fuel

def State.pagesOf (s : State) (base bytes : Nat) : List Hit := s.pagesFrom base (base + bytes) (bytes / 4096 + 1)

/-- An entry that becomes stepped (R62, R296): PIN, STP, RULE and ETYPE. -/
def stepPte (r : Region) (w : Word) : Word :=
  pteSet (pteSet ((w &&& ~~~(0x3F#64 <<< 54)) ||| (word (r.rule % 8) <<< 57) ||| (word (r.etype % 8) <<< 54)) 60 true) 61 true

/-- Change the entries of every page of a region. -/
def State.mapRegion (s : State) (r : Region) (f : Word → Word) : State :=
  (s.pagesOf r.base r.bytes).foldl (fun s h => s.mapPage (iaPart r.base) h.code h.base f) s

/-- The regions of a group that begin or end at boundary n. -/
def State.turnRegions (s : State) (g : Fin 16) (n : Nat) : State :=
  let mine := s.fab.regions.filter fun r => r.2.group = g
  let s := (mine.filter fun r => r.2.begins = n + 1).foldl (fun s r => s.mapRegion r.2 (stepPte r.2)) s
  let ends := mine.filter fun r => r.2.untilStep = some n
  let s := ends.foldl (fun s r => s.mapRegion r.2 fun w => pteSet w 60 false) s
  { s with fab := { s.fab with regions := s.fab.regions.filter fun r => !(r.2.group = g && r.2.untilStep = some n) } }

/-! ### Responses of a multicast tree (R113, R314) -/

/-- The acknowledgement record (R113). -/
def Ack.bytes (a : Ack) (memb : Nat) : List Byte :=
  leBytes 8 a.step ++ leBytes 8 a.refmap.toNat ++ leBytes 2 a.acc ++ leBytes 2 (popCount 64 a.refmap.toNat)
    ++ leBytes 1 a.grp.val ++ leBytes 1 memb ++ leBytes 2 0 ++ leBytes 8 (a.key.sid.toNat * 2 ^ 40 + a.key.sn.toNat)

/-- All children have answered, and this package has applied the boundary. -/
def State.ackReady (s : State) (a : Ack) : Bool :=
  a.left.isEmpty && (match a.group with
    | some g => decide (a.step < s.fab.groups[g.val].step)
    | none => true)
    && (match a.record with | some ia => !s.anyDown ia 32 | none => true)

/-- The root writes its record; a record that its home refuses is not written. Any other package answers its parent. -/
def State.answerAck (s : State) (a : Ack) : State :=
  let e := s.mcEntry a.grp.val
  let s := { s with fab := { s.fab with acks := s.fab.acks.filter fun b => b != a } }
  match a.record with
  | none => (s.sendReq none (s.neighbour (mcParent e)) (.resp a.grp a.step a.key a.acc a.refmap)).2
  | some ia =>
    match s.confirmAll true ia 32 with
    | .error (e, b) => if e = .perm then s.refusedWrite b else s
    | .ok () =>
      match s.meetWrite ia 32 with
      | .error (u, _) => u
      | .ok u => (u.uncodeRun ia 32).perform ia (a.bytes (e.hdr.bits 55 49)) a.depth

/-- Answer every merging that is complete. -/
def State.flushAcks (s : State) : State := (s.fab.acks.filter s.ackReady).foldl State.answerAck s

/-- A message has been received: it leaves the inbox and its sender is told. -/
def State.receipt (s : State) (src : BitVec 16) (id : Nat) (r : PReq) (a : PRep) : State :=
  ({ s with fab := { s.fab with inbox := s.fab.inbox.erase (src, .req id r) } } : State).transmit src (.rep id a)

/-- A copy has been taken here before: its merging is under way, or its boundary has been applied (R247, R313). -/
def State.copySeen (s : State) (m : McCopy) : Bool :=
  (s.fab.acks.any fun a => a.grp = m.grp && a.step = m.step && a.key = m.key)
    || (s.localGroup m.gid).any fun g => decide (m.step < s.fab.groups[g.val].step)

/-- MULTICAST_COPY (R313): the oldest copy received is taken and sent on; one that comes again is only answered. -/
def execMulticastCopy (s : State) : Host.Outcome State Fault Refusal :=
  match s.fab.inbox.find? fun b => match b.2 with | .req _ (.copy _) => true | _ => false with
  | some (src, .req id (.copy m)) =>
    let e := s.mcEntry m.grp.val
    let t := if s.copySeen m || !mcV e then s else s.spreadCopy e m m.key.pkg (s.localGroup m.gid) none
    .next (t.receipt src id (.copy m) .accepted)
  | _ => .next s

/-- Replace the merging of an RST. -/
def State.putAck (s : State) (a : Ack) : State :=
  { s with fab := { s.fab with acks := s.fab.acks.map fun b => if b.grp = a.grp && b.step = a.step && b.key = a.key then a else b } }

/-- The merging of an RST of a group. -/
def State.ack? (s : State) (grp : Fin 256) (step : Nat) (key : OKey) : Option Ack :=
  s.fab.acks.find? fun a => a.grp = grp && a.step = step && a.key = key

/-- A child's subtree has its copies; when no child owes any, the parent learns it (R110, R267). -/
def State.takeGot (s : State) (src : BitVec 16) (grp : Fin 256) (step : Nat) (key : OKey) : State :=
  match s.ack? grp step key with
  | none => s
  | some a =>
    let b := { a with owed := a.owed.filter fun p => s.neighbour p != src }
    if b.owed = a.owed then s else (s.putAck b).tellGot (s.mcEntry grp.val) b

/-- A child's response is merged, once; a complete merging is answered (R314). -/
def State.takeResp (s : State) (src : BitVec 16) (grp : Fin 256) (step : Nat) (key : OKey) (acc : Nat) (ref : Word) : State :=
  match s.ack? grp step key with
  | none => s
  | some a =>
    let left := a.left.filter fun p => s.neighbour p != src
    if left = a.left then s
    else (s.putAck { a with left := left, acc := a.acc + acc, refmap := a.refmap ||| ref }).flushAcks

/-- MULTICAST_RESPONSE (R314): the oldest news of a child is taken; what is complete is answered. -/
def execMulticastResponse (s : State) : Host.Outcome State Fault Refusal :=
  match s.fab.inbox.find? fun b => match b.2 with | .req _ (.got ..) => true | .req _ (.resp ..) => true | _ => false with
  | some (src, .req id (.got grp step key)) =>
    .next ((s.takeGot src grp step key).receipt src id (.got grp step key) .accepted)
  | some (src, .req id (.resp grp step key acc ref)) =>
    .next ((s.takeResp src grp step key acc ref).receipt src id (.resp grp step key acc ref) .accepted)
  | _ => .next s.flushAcks

/-! ### Arrival of a unit (R371) -/

/-- A unit finds staging full, and would go to the overflow (R329, R368). -/
def State.stagingFull (s : State) (src : BitVec 16) (u : StepUnit) : Bool :=
  (s.targetOf src u).any fun r => s.room r u.data.length == some false

/-- A retry-after hint: a free value from 1 to 65,535 (R329). -/
def State.hint (s : State) : PRep × State :=
  let (v, s) := s.draw 65535
  (.retry (BitVec.ofNat 16 (v + 1)), s)

/-- STEPPED_WRITE_ARRIVAL: the oldest unit received is accepted or refused, and its source is told. One that finds staging full is
refused with a hint or goes to the overflow, by a free value (R329, R368; log 32). -/
def execSteppedWriteArrival (s : State) : Host.Outcome State Fault Refusal :=
  match s.fab.inbox.find? fun b => match b.2 with | .req _ (.stepped _) => true | _ => false with
  | some (src, .req id (.stepped u)) =>
    let (v, s) := if s.stagingFull src u then s.draw 2 else (0, s)
    if v = 1 then
      let (a, s) := s.hint
      .next (s.receipt src id (.stepped u) a)
    else
      let (ok, s) := s.arriveUnit src u
      .next (s.receipt src id (.stepped u) (if ok then .accepted else .refused))
  | _ => .next s

/-! ### The boundary (R102, R110) -/

/-- A command of a sequencer belongs to a step of a group up to n. -/
def Core.stepBusy (k : Core) (g : Fin 16) (n : Nat) : Bool :=
  allSeqs.any fun q => (k.seq q).cmds.any fun x =>
    match x.stepOf with
    | some (h, m) => h = g && decide (m ≤ n)
    | none => false

/-- A command of this package, of a running or of a saved core, still writes or reads for a step of a group up to n. -/
def State.stepBusy (s : State) (g : Fin 16) (n : Nat) : Bool :=
  (allCores.any fun c => (s.core c).stepBusy g n)
    || s.sch.cards.any fun c => c.2.saved.any fun x => x.core.stepBusy g n

/-- A received copy or unit of a step waits to be taken. -/
def State.stepInbox (s : State) (gid : BitVec 16) (n : Nat) : Bool :=
  s.fab.inbox.any fun b =>
    match b.2 with
    | .req _ (.copy m) => m.gid = gid && decide (m.step ≤ n)
    | .req _ (.stepped u) => u.gid = gid && decide (u.step ≤ n)
    | _ => false

/-- What the releases of the writes buffered here for a step order before them has been performed (R88). -/
def State.stepReleased (s : State) (g : Fin 16) (n : Nat) : Bool :=
  s.fab.sbuf.all fun b => !(b.group = g && b.step = n) || b.waits.all fun w => s.waitMet w.1 w.2

/-- This package has executed STEP n of a group, and its writes of the step have reached their targets (R110 points 1 and 2), with what
they release performed. -/
def State.stepReady (s : State) (g : Fin 16) : Bool :=
  let gr := s.fab.groups[g.val]
  ((s.participants g).all fun k => k.executed gr.step) && !s.stepBusy g gr.step && !s.stepInbox gr.gid gr.step
    && s.stepReleased g gr.step

/-- Something here awaits the boundary of a group (R102). -/
def State.stepAwaited (s : State) (g : Fin 16) : Bool :=
  let gr := s.fab.groups[g.val]
  gr.told || ((s.participants g).any fun k => decide (gr.step < k.c.stepNo))
    || (s.fab.sbuf.any fun b => b.group = g && b.step = gr.step)
    || (s.fab.regions.any fun r => r.2.group = g && (r.2.begins = gr.step + 1 || r.2.untilStep = some gr.step))

/-- The other members of a group. -/
def State.others (s : State) (g : Fin 16) : List (BitVec 16) := s.fab.groups[g.val].members.filter fun m => m != s.fab.pkg

/-- The members not heard yet, and not asked. -/
def State.unheard (s : State) (g : Fin 16) : List (BitVec 16) :=
  let gr := s.fab.groups[g.val]
  (s.others g).filter fun m => !gr.heard.contains m && !(s.fab.sends.any fun d => d.dst = m &&
    match d.req with
    | .boundary gid n .. => gid = gr.gid && n = gr.step
    | _ => false)

/-- A granule is covered whole by plain writes, in a region that keeps none of its old bytes then (R108). -/
def Region.covers (r : Region) (ws : List Buffered) (exp gran : Nat) : Bool :=
  r.rule != 5 && (upTo 8).all fun i => ws.any fun b =>
    b.kind == .plain && b.exp == exp && decide (b.off ≤ gran + i) && decide (gran + i < b.off + b.data.length)

/-- What the application of a boundary writes, as granules at their homes, each with whether its old bytes are read. -/
def State.stepPlaces (s : State) (ws : List Buffered) : List (Nat × Bool) :=
  ws.flatMap fun b =>
    match dget s.fab.regions b.exp with
    | none => []
    | some r =>
      if b.kind = .flag then [(r.base + b.off, !r.covers ws b.exp b.off)]
      else b.grans.map fun o => (r.base + o, !r.covers ws b.exp o)

/-- Meet the arrays at every granule before the application; an error ends it (R354). -/
def State.meetAll (s : State) : List (Nat × Bool) → Except State State
  | [] => .ok s
  | (ia, old) :: t =>
    match (if old then s.meet ia 8 else s.meetWrite ia 8) with
    | .error (u, _) => .error u
    | .ok u => State.meetAll u t

/-- C of a participant that stands at FLAGW passes the boundary (R315). -/
def Core.passBoundary (n : Nat) (k : Core) : Core :=
  if k.c.flgW && !(k.seq .C).done && decide (k.c.stepNo ≤ n) then { k with c := { k.c with stepNo := n + 1 } } else k

/-- The participants of a group pass boundary n, wherever they stand. -/
def State.passAll (s : State) (g : Fin 16) (n : Nat) : State :=
  let mine := s.sch.cards.filter fun c => c.2.placed && c.2.groupOf == some g
  let s := (mine.filter fun c => c.2.phase == .running).foldl (fun s c =>
    c.2.cores.foldl (fun s id => s.setCore id ((s.core id).passBoundary n)) s) s
  { s with sch := { s.sch with cards := s.sch.cards.map fun c =>
    if c.2.placed && c.2.groupOf == some g then
      (c.1, { c.2 with saved := c.2.saved.map fun x => { x with core := x.core.passBoundary n } })
    else c } }

/-- The step of a group has ended: its buffer is free, its numbers start again, and the next step begins (R107, R110, R374). -/
def State.nextStep (s : State) (g : Fin 16) (n : Nat) : State :=
  let gr := s.fab.groups[g.val]
  let s := s.releaseBuf (s.fab.sbuf.filter fun b => b.group = g && b.step = n)
  { s with fab := { s.fab with
    sbuf := s.fab.sbuf.filter fun b => !(b.group = g && b.step = n)
    full := s.fab.full.filter fun f => !(f.1 = gr.gid && f.2.1 = n)
    seqnos := s.fab.seqnos.filter fun e => e.1 / 1024 != g.val * 2 + n % 2
    groups := s.fab.groups.set g.val { gr with step := n + 1, heard := [], told := false } } }

/-- The other members learn that this package has applied a boundary (R97, R110). -/
def State.sayApplied (s : State) (g : Fin 16) (n : Nat) : State :=
  let gr := s.fab.groups[g.val]
  (s.others g).foldl (fun s m => (s.sendReq none m (.applied gr.gid n gr.life)).2) s

/-- Apply the present boundary of a group (R110 point 3). It waits while a home it writes is out of service; an error of the arrays is
met before any of its writes. -/
def State.applyBoundary (s : State) (g : Fin 16) : State :=
  let n := s.fab.groups[g.val].step
  let ws := s.stepWrites g n
  let places := s.stepPlaces ws
  if places.any fun p => s.homeDown p.1 then s
  else
    match s.meetAll places with
    | .error u => u.settleFound
    | .ok s => (((((s.applyWrites ws n).nextStep g n).turnRegions g n).passAll g n).flushAcks.sayApplied g n).settleFound

/-- Ask the members whether they have executed the present step (R102, R110). -/
def State.askReady (s : State) (g : Fin 16) : State :=
  let gr := s.fab.groups[g.val]
  (s.unheard g).foldl (fun s m => (s.sendReq none m (.boundary gr.gid gr.step gr.members gr.life)).2) s

/-- STEP_BOUNDARY (R102, R110): when this package is ready and something awaits the boundary, it is applied if every other member
has said that it is ready, else they are asked. -/
def execStepBoundary (g : Fin 16) (s : State) : Host.Outcome State Fault Refusal :=
  let gr := s.fab.groups[g.val]
  if !gr.joined || gr.failed.isSome || !s.stepReady g || !s.stepAwaited g then .next s
  else if (s.others g).all gr.heard.contains then .next (s.applyBoundary g)
  else .next (s.askReady g)

end Sys2Proof.Machine
end

