-- ==== Sys2Proof/Machine/Fabric.lean ====
section
/-! DEFINITION. The exchange of packets (R114 to R116, R376 to R379): what a package does with the packets, requests, replies and
notices it receives, resends and peer loss, and its links. -/

namespace Sys2Proof.Machine

/-! ### Peer loss (R379, R380) -/

/-- The local groups that list a package. -/
def State.groupsWith (s : State) (p : BitVec 16) : List (Fin 16) :=
  (List.finRange 16).filter fun g => s.fab.groups[g.val].joined && s.fab.groups[g.val].members.contains p

/-- A peer is found lost (R379): commands that name it end, and every group with it that has not failed by it fails and is told
(R380). It counts once until its loss is over. -/
def State.peerLost (s : State) (p : BitVec 16) : State :=
  let s := if (s.peer p).lost then s else s.count (cntPackage 6)
  let s := (s.setPeer p { s.peer p with lost := true }).losePeer p
  let s := { s with fab := { s.fab with sends := s.fab.sends.filter fun m => m.dst != p } }
  (s.groupsWith p).foldl (fun s g => s.failTold g p srcStep 0x05 (s.fab.groups[g.val].gid.setWidth 64)) s

/-- A member of a group has told that the group has failed by the loss of a member (R380): it fails here too, and the commands of other
cards that name the lost member complete. What else the lost member takes part in is this package's to find. -/
def State.takeNotice (s : State) (gid lost : BitVec 16) : State :=
  match (List.finRange 16).find? fun g => s.fab.groups[g.val].joined && s.fab.groups[g.val].gid == gid with
  | none => s
  | some g =>
    let t := if s.fab.groups[g.val].gone.contains lost || lost == s.fab.pkg then s else s.losePeer lost
    t.failGroup g lost srcStep 0x05 (gid.setWidth 64)

/-- FAILURE_NOTICE (R380): the oldest notice received is taken. -/
def execFailureNotice (s : State) : Host.Outcome State Fault Refusal :=
  match s.fab.inbox.find? fun b => match b.2 with | .req _ (.notice ..) => true | _ => false with
  | some (src, .req id (.notice gid lost)) => .next ((s.takeNotice gid lost).receipt src id (.notice gid lost) .accepted)
  | _ => .next s

/-! ### Requests of peers (R265, R329, R360, R378, R379) -/

/-- What a target makes of a request: it is held, begun, or answered in a state. -/
inductive Served where
  | held
  | begun (s : State)
  | reply (r : PRep) (s : State)

/-- A page whose PAGE_RESTORE runs holds an IA, in the tables of whatever partition maps its frame (R329, R363). -/
def State.restoring (s : State) (ia : Nat) : Bool :=
  s.hst.fwq.any fun e => e.begun.isSome &&
    match e.instr, lookup s.hm.ptes ia with
    | some (.pageRestore c), some k =>
      (lookup s.hm.ptes c.a0.toNat).any fun h => (hitOf s.hm.ptes k.home c.a0.toNat h.code).any fun o =>
        o.arr == k.arr && decide (pteFrame o.pte ≤ k.phys ia)
          && decide (k.phys ia < pteFrame o.pte + Machine.frameBytes (iaTier o.base) o.size)
    | _, _ => false

/-- The reply to an access that a home refuses at an IA: a retry-after hint where there is no entry or PAGE_RESTORE runs, else a
refusal (R329, R360). -/
def State.refusePeer (s : State) (e : HomeErr) (ia : Nat) : Served :=
  if e = .unmapped || (e = .poison && s.restoring ia) then
    let (a, s) := s.hint
    .reply a s
  else .reply .refused s

/-- A peer's RLD (R265): held until the boundary before its step has been applied here. -/
def State.serveRead (s : State) (src gid : BitVec 16) (step exp off n : Nat) : Served :=
  match s.localGroup gid with
  | none => .reply .refused s
  | some g =>
    if s.fab.groups[g.val].step < step then .held
    else
      match s.readTarget src gid step exp off n with
      | none => .reply .refused s
      | some r =>
        if s.anyDown (r.base + off) n then .held
        else
          match s.confirmAll false (r.base + off) n with
          | .error (e, a) => s.refusePeer e a
          | .ok () =>
            match s.meet (r.base + off) n with
            | .error (u, _) => .reply .refused u
            | .ok u => .reply (.data (u.homeBytes (r.base + off) n)) u

/-- The area of a member has come, or has been refused (R98). -/
def State.areaCame (s : State) (src : BitVec 16) (exp n : Nat) : State :=
  { s with fab := { s.fab with areas := s.fab.areas ++ [(src, exp, n)] } }

/-- A peer's write of an asynchronous XALL (R262), with the chain depth of its card (R51) and the number of its exchange (R98): its homes
confirm it, and it is answered when it is performed; one that has come before is only answered. -/
def State.serveWrite (s : State) (src : BitVec 16) (id exp off : Nat) (bs : List Byte) (depth n : Nat) : Served :=
  if s.fab.areas.contains (src, exp, n) then .reply .accepted s
  else
    match s.fab.landing.find? fun l => l.src = src && l.id = id with
    | some l =>
      if l.gs.any fun g => s.homeDown g.1 then .held
      else
        let t := l.gs.foldl (fun s g => s.land g.1 g.2 l.depth) s
        .reply .accepted (({ t with fab := { t.fab with landing := t.fab.landing.filter fun k => k != l } } : State).areaCame src exp n)
    | none =>
    match s.plainExport exp off bs.length with
    | none => .reply .refused (s.areaCame src exp n)
    | some r =>
      let ia := r.base + off
      if s.anyDown ia bs.length then .held
      else
        match s.confirmAll true ia bs.length with
        | .error (e, a) =>
          match (if e = .perm then s.refusedWrite a else s).refusePeer e a with
          | .reply .refused u => .reply .refused (u.areaCame src exp n)
          | r => r
        | .ok () =>
          match s.meetWrite ia bs.length with
          | .error (u, _) => .reply .refused (u.areaCame src exp n)
          | .ok u =>
            let u := u.uncodeRun ia bs.length
            .begun { u with fab := { u.fab with landing := u.fab.landing ++ [⟨src, id, depth, granules bs.length ia bs⟩] } }

/-- One granule of a write of a peer that has begun is performed (R83). -/
def State.landPiece (s : State) (n k : Nat) : State :=
  match s.fab.landing[n]? with
  | none => s
  | some l =>
    match s.mayPut l.gs k with
    | none => s
    | some g =>
      let t := s.land g.1 g.2 l.depth
      { t with fab := { t.fab with landing := t.fab.landing.set n { l with gs := l.gs.eraseIdx k } } }

/-- A peer's contribution to an asynchronous COLL (R263); one that has come before is not taken twice. -/
def State.serveContrib (s : State) (src : BitVec 16) (grp : Fin 256) (n : Nat) (data : List Byte) : State :=
  if s.fab.contrib.any fun c => c.src = src && c.grp = grp && c.n = n then s
  else { s with fab := { s.fab with contrib := s.fab.contrib ++ [⟨src, grp, n, data⟩] } }

/-- The life of a group that a member has named differs from the one that it named before boundary 0 (R102). -/
def Group.strange (gr : Group) (src : BitVec 16) (life : Nat) : Bool := decide (0 < gr.step) && sget 0 gr.lives src.toNat != life

/-- A group with the life of a member as it has named it. -/
def Group.named (gr : Group) (src : BitVec 16) (life : Nat) : Group := { gr with lives := sset 0 gr.lives src.toNat life }

/-- A member has been answered; `told` when the answer, or one before it, was that this package is ready. -/
def Group.tell (gr : Group) (src : BitVec 16) (life : Nat) (told : Bool) : Group := { gr.named src life with told := told }

/-- A member has said that it is ready. -/
def Group.hearFrom (gr : Group) (src : BitVec 16) (life : Nat) : Group := { gr.named src life with heard := gr.heard ++ [src] }

/-- A peer asks whether this package has executed step n (R102, R379). -/
def State.serveBoundary (s : State) (src gid : BitVec 16) (n : Nat) (members : List (BitVec 16)) (life : Nat) : Served :=
  match (List.finRange 16).find? fun g => s.fab.groups[g.val].joined && s.fab.groups[g.val].gid == gid with
  | none => .reply .notYet s
  | some g =>
    let gr := s.fab.groups[g.val]
    if gr.failed.isSome || gr.members != members || !gr.members.contains src || decide (n + 1 < gr.step) || gr.strange src life then
      .reply .otherLife s
    else
      let put := fun (told : Bool) =>
        { s with fab := { s.fab with groups := s.fab.groups.set g.val (gr.tell src life told) } }
      if n < gr.step then .reply (.ready gr.life) (put gr.told)
      else if n = gr.step && s.stepReady g then .reply (.ready gr.life) (put true)
      else .reply .notYet (put gr.told)

/-- A member has applied boundary n. -/
def Group.passedBy (gr : Group) (src : BitVec 16) (n : Nat) : Group :=
  { gr with past := sset 0 gr.past src.toNat (max (sget 0 gr.past src.toNat) (n + 1)) }

/-- A member has applied boundary n (R97, R110). -/
def State.serveApplied (s : State) (src gid : BitVec 16) (n life : Nat) : State :=
  match s.localGroup gid with
  | none => s
  | some g =>
    let gr := s.fab.groups[g.val]
    if sget 0 gr.lives src.toNat = life then
      { s with fab := { s.fab with groups := s.fab.groups.set g.val (gr.passedBy src n) } }
    else s

/-- What a request comes to; units, multicast news and notices have events of their own. -/
def State.serve (s : State) (src : BitVec 16) (id : Nat) : PReq → Served
  | .stepped _ => .held
  | .read gid step exp off n => s.serveRead src gid step exp.toNat off n
  | .write exp off data depth n => s.serveWrite src id exp.toNat off data depth n
  | .boundary gid n ms life => s.serveBoundary src gid n ms life
  | .contrib grp n data => .reply .accepted (s.serveContrib src grp n data)
  | .applied gid n life => .reply .accepted (s.serveApplied src gid n life)
  | .copy _ => .held
  | .got .. => .held
  | .resp .. => .held
  | .notice .. => .held

/-- Serve the oldest request of a list that is not held. -/
def State.serveFirst (s : State) : List (BitVec 16 × PBody) → State
  | [] => s
  | (src, .req id r) :: t =>
    match s.serve src id r with
    | .held => State.serveFirst s t
    | .begun u => u
    | .reply a u => ({ u with fab := { u.fab with inbox := u.fab.inbox.erase (src, .req id r) } }).transmit src (.rep id a)
  | _ :: t => State.serveFirst s t

/-- PEER_REQUEST (R378): the oldest request that is not held is served. -/
def execPeerRequest (s : State) : Host.Outcome State Fault Refusal := .next (s.serveFirst s.fab.inbox)

/-! ### Replies, resends and timeouts (R247, R329, R379) -/

/-- Remove a send. -/
def State.delSend (s : State) (id : Nat) : State :=
  { s with fab := { s.fab with sends := s.fab.sends.filter fun d => d.id != id } }

/-- Replace a send. -/
def State.putSend (s : State) (d : Send) : State :=
  { s with fab := { s.fab with sends := s.fab.sends.map fun e => if e.id = d.id then d else e } }

/-- The unit of a command that a send carried has its answer. -/
def State.answerSend (s : State) (d : Send) (a : UnitAnswer) : State :=
  let s := s.delSend d.id
  match d.core with
  | none => s
  | some (c, q, stamp) =>
    match (s.seq c q).cmd? stamp with
    | none => s
    | some x => s.putCmd c q { x with sent := x.sent.map fun u => if u.id = d.id then { u with answer := a } else u }

/-- Send again (R329, R379): the 17th send of a unit ends it refused. A multicast copy goes along its tree edge, on its hop again (R313). -/
def State.resend (s : State) (d : Send) : State :=
  if 16 ≤ d.sends then s.answerSend d .refused
  else
    let s := s.putSend { d with sends := d.sends + 1, wait := false }
    match d.req with
    | .copy m =>
      let e := s.mcEntry m.grp.val
      match (mcKids e).find? fun p => s.neighbour p == d.dst with
      | some p => s.sendPort p (mcDepth e) (.req d.id d.req)
      | none => s.transmit d.dst (.req d.id d.req)
    | _ => s.transmit d.dst (.req d.id d.req)

/-- A member holds another life of a group (R102). -/
def State.otherLife (s : State) (src gid : BitVec 16) : State :=
  match s.localGroup gid with
  | none => s
  | some g => s.failTold g src srcStep 0x05 (gid.setWidth 64)

/-- A member answers that it has executed a step of a group; before boundary 0 it names the life of the group that it holds (R102). -/
def State.hear (s : State) (src gid : BitVec 16) (n life : Nat) : State :=
  match s.localGroup gid with
  | none => s
  | some g =>
    let gr := s.fab.groups[g.val]
    if gr.step = n && gr.strange src life then s.otherLife src gid
    else if gr.step = n && !gr.heard.contains src then
      { s with fab := { s.fab with groups := s.fab.groups.set g.val (gr.hearFrom src life) } }
    else s

/-- What a reply does to the request it answers. -/
def State.takeReply (s : State) (d : Send) : PRep → State
  | .accepted => s.answerSend d .accepted
  | .refused => s.answerSend d .refused
  | .data bs => s.answerSend d (.data bs)
  | .retry _ => if 16 ≤ d.sends then s.answerSend d .refused else s.putSend { d with wait := true }
  | .notYet => s.delSend d.id
  | .ready life =>
    match d.req with
    | .boundary gid n .. => (s.delSend d.id).hear d.dst gid n life
    | _ => s.delSend d.id
  | .otherLife =>
    match d.req with
    | .boundary gid .. => (s.delSend d.id).otherLife d.dst gid
    | _ => s.delSend d.id

/-- PEER_RESPONSE (R247): the oldest reply received is taken; one that answers no request is dropped. -/
def execPeerResponse (s : State) : Host.Outcome State Fault Refusal :=
  match s.fab.inbox.find? fun b => match b.2 with | .rep .. => true | _ => false with
  | some (src, .rep id r) =>
    let s := { s with fab := { s.fab with inbox := s.fab.inbox.erase (src, .rep id r) } }
    match s.fab.sends.find? fun d => d.id = id && d.dst = src with
    | none => .next s
    | some d => .next (s.takeReply d r)
  | _ => .next s

/-- RETRY_AFTER_EXPIRY (R329): a unit refused with a hint is sent again. -/
def execRetryAfterExpiry (id : Nat) (s : State) : Host.Outcome State Fault Refusal :=
  match s.fab.sends.find? fun d => d.id = id && d.wait with
  | none => .next s
  | some d => .next (s.resend d)

/-- REQUEST_TIMEOUT (R379): a send without a response is sent again; after the fourth the peer is lost. A notice is no unit or boundary
message: it is given up. -/
def execRequestTimeout (id : Nat) (s : State) : Host.Outcome State Fault Refusal :=
  match s.fab.sends.find? fun d => d.id = id && !d.wait with
  | none => .next s
  | some d =>
    let s := s.count (cntPackage 5)
    if d.timed + 1 < 4 then .next (s.resend { d with timed := d.timed + 1 })
    else
      match d.req with
      | .notice .. => .next (s.delSend d.id)
      | _ => .next (s.peerLost d.dst)

/-! ### Packets and links (R114 to R116, R376, R377) -/

/-- A packet for this package: dropped when an incarnation does not match; one whose source's does not ends the life of it that was
known (R116, R379). -/
def State.takePacket (s : State) (p : Packet) : State :=
  match dget s.fab.peers p.src.toNat with
  | none => s.count (cntPackage 4)
  | some x =>
    if p.srcInc ≠ x.inc then (s.count (cntPackage 4)).peerLost p.src
    else if p.dstInc ≠ s.fab.inc then s.count (cntPackage 4)
    else { s with fab := { s.fab with inbox := s.fab.inbox ++ [(p.src, p.body)] } }

/-- PACKET_RECEIVE (R114 to R116, R377): taken here, or sent on over its next hop, of which there are four. -/
def execPacketReceive (p : Packet) (s : State) : Host.Outcome State Fault Refusal :=
  if p.dst = s.fab.pkg then .next (s.takePacket p)
  else if 4 ≤ p.hop + 1 then .next (s.count (cntPackage 3))
  else .next (s.emit { p with hop := p.hop + 1 })

/-- Counters of a Strait port (R401). -/
def cntPort (p : Fin 16) (i : Nat) : Nat := 0x10A00 + 0x20 * p.val + 8 * i

/-- The failed attempts of the first frame of a port. -/
def State.setTries (s : State) (port : Fin 16) (n : Nat) : State :=
  { s with fab := { s.fab with tries := s.fab.tries.set port.val n } }

/-- A port goes down (R376): it leaves the candidate lists, its event is posted, and the frames in its egress go another way. -/
def State.portDown (s : State) (port : Fin 16) : State :=
  if s.fab.down.getLsbD port.val then s
  else
    let s := (s.count (cntPort port 1)).setTries port 0
    let frames := s.fab.wire.filter fun f => f.1 = port
    let s := { s with fab := { s.fab with
      down := s.fab.down ||| (1#16 <<< port.val), wire := s.fab.wire.filter fun f => f.1 != port } }
    let s := s.postVf0 (srcPort port) 8 port.val 0 0
    frames.foldl (fun s f => s.emit f.2) s

/-- LINK_FRAME_RETRY (R376): an attempt of the first frame in a port's egress has failed, and it is sent again; when its eighth attempt
fails the port is down. -/
def execLinkFrameRetry (port : Fin 16) (s : State) : Host.Outcome State Fault Refusal :=
  if s.fab.down.getLsbD port.val || !(s.fab.wire.any fun f => f.1 = port) then .next s
  else if 8 ≤ s.fab.tries[port.val] + 1 then .next (s.portDown port)
  else .next ((s.count (cntPort port 0)).setTries port (s.fab.tries[port.val] + 1))

/-- LINK_DOWN (R376): a port loses its signal. -/
def execLinkDown (port : Fin 16) (s : State) : Host.Outcome State Fault Refusal := .next (s.portDown port)

/-- A neighbour acknowledges the oldest frame of a port: it leaves the egress (R376). -/
def State.ackFrame (s : State) (port : Fin 16) : State :=
  match s.fab.wire.find? fun f => f.1 = port with
  | none => s
  | some f => ({ s with fab := { s.fab with wire := s.fab.wire.erase f } } : State).setTries port 0

end Sys2Proof.Machine
end

