-- ==== Sys2Proof/Machine/Arrays.lean ====
section
/-! DEFINITION. What the memories do of themselves (R74, R76, R78, R79, R355 to R359, R365): interface replay and retraining, scrub,
row capture, write-back of hot rows, migration and prefetch, and the frames that firmware hands out. -/

namespace Sys2Proof.Machine

/-! ### Whole pages -/

/-- The words of a page hold no error any longer. -/
def State.freshWords (s : State) (h : Hit) : State := s.rewriteWords h.base h.size

/-- Move a page to other frames with its bytes. -/
def State.movePage (s : State) (h : Hit) (frames : List (Fin 17 × Nat)) (bs : List Byte) (f : Word → Word) : State :=
  let s := s.placePage (iaPart h.base) h.code h.base frames f
  let s := s.freshWords h
  s.rawWrite h.base bs

/-! ### The HBM interface (R356) -/

/-- The present entries whose home or whose frame is at a stack. -/
def State.entriesAt (s : State) (home : Fin 17) : List PteAt := s.entries.filter fun e => e.home = home || e.arr = home

/-- Partitions with a present entry at a stack. -/
def State.partsAt (s : State) (home : Fin 17) : List (Fin 32) := ((s.entriesAt home).map (·.part)).eraseDups

/-- Groups with a stepped region at a stack. -/
def State.groupsAt (s : State) (home : Fin 17) : List (Fin 16) :=
  (((s.entriesAt home).filter fun e => pteStp e.pte).filterMap fun e => s.groupAt e.base).eraseDups

/-- The machine fault of a stack (R394): one fault of every partition and every group with a page there. The groups' other members are
told (R380). -/
def State.stackFault (s : State) (home : Fin 17) (code : Nat) (ia : Word) : State :=
  let gs := s.groupsAt home
  let ps := s.partsAt home
  let own := s.fab.pkg
  let s := s.faultOf (srcHome home) code ps gs own ia (partMask ((ps ++ gs.flatMap s.groupParts).eraseDups))
  gs.foldl (fun s g => s.notifyGroup g own) s

/-- The failed replays of the transfer under way at a stack. -/
def State.setReplays (s : State) (stack : Fin 8) (n : Nat) : State :=
  { s with hm := { s.hm with tries := s.hm.tries.set stack.val n } }

/-- INTERFACE_REPLAY (R354, R356): a transfer whose attempt has failed is sent again; when the seventh replay fails too, its eighth attempt,
the stack goes out of service. -/
def execInterfaceReplay (stack : Fin 8) (failed : Bool) (ia : BitVec 52) (s : State) : Host.Outcome State Fault Refusal :=
  let home : Fin 17 := Fin.ofNat 17 stack.val
  if s.hm.out.getLsbD stack.val || s.hm.dead.getLsbD stack.val then .next s
  else
    let n := s.hm.tries[stack.val] + 1
    let s := s.countHome .ifReplay home
    if !failed then .next (s.setReplays stack 0)
    else if n < 7 then .next (s.setReplays stack n)
    else
      let s := (s.countHome .ifExh home).setReplays stack 0
      let s := { s with hm := { s.hm with out := s.hm.out ||| (1#17 <<< stack.val) } }
      .next (s.stackFault home 0x01 (ia.setWidth 64))

/-- Every page whose frames were at a stack is poisoned, and the rows in its hot ways are lost (R356, R359, R362). -/
def State.poisonStack (s : State) (home : Fin 17) : State :=
  let es := (s.entriesAt home).filter fun e => !ptePsn e.pte
  let s := es.foldl State.quarantine s
  es.foldl (fun s e => s.loseRows e.part e.base (pageSize e.code) (srcHome home)) s

/-! ### Scrub and capture (R357, R358) -/

/-- The IA of a page whose place at a home is a physical address (R60, R61). -/
def PteAt.iaOf (e : PteAt) (phys : Nat) : Nat :=
  let tier := iaTier e.base
  let k := inPageSel tier (pageSize e.code)
  let l := phys - pteFrame e.pte
  let ia := fun sel => e.base + l / 2 ^ selLo tier * 2 ^ (selLo tier + k) + sel * 2 ^ selLo tier + l % 2 ^ selLo tier
  match (upTo (2 ^ k)).find? fun sel => homeOf (ia sel) == some e.home with
  | some sel => ia sel
  | none => e.base

/-- SCRUB (R357): the word at a place is read and corrected as a read would; a poisoned page is skipped (R360). A word of no page
only counts. -/
def execScrub (home : Fin 17) (pa : Nat) (s : State) : Host.Outcome State Fault Refusal :=
  let k := badKey (home.val * 2 ^ 52 + pa)
  if home.val = 16 || s.hm.out.getLsbD home.val || s.hm.dead.getLsbD home.val then .next s
  else
    match dget s.hm.bad k with
    | none => .next s
    | some unc =>
      match s.mappers home pa with
      | [] =>
        let s := { s with hm := { s.hm with bad := sdel s.hm.bad k } }
        .next (s.countHome (if unc then .eccUnc else .eccCor) home)
      | e :: _ =>
        let ia := e.iaOf pa
        match hitOf s.hm.ptes e.home ia e.code with
        | none => .next s
        | some h =>
          if ptePsn h.pte then .next s else .next (if unc then s.uncorrect h ia else s.correct h ia)

/-- A row of a stack, by pseudo-channel and number. -/
def rowKey (chan : Fin 64) (row : Nat) : Nat := chan.val * 2 ^ 32 + row % 2 ^ 32

/-- The key of a row's count among those of all stacks. -/
def actKey (stack : Fin 8) (k : Nat) : Nat := stack.val * 2 ^ 38 + k

/-- The activations at which a row is captured, which firmware sets from 512 to 65,536 (R358). -/
def captureAt : Nat := 512 + Config.captureLimit % 65025

/-- A row is refreshed (R358): its count starts again, and it is released if it was captured. Its lines are where they were. -/
def State.refreshRow (s : State) (stack : Fin 8) (k : Nat) : State :=
  { s with hm := { s.hm with
    acts := sdel s.hm.acts (actKey stack k)
    capture := s.hm.capture.filter fun c => c != (stack, k) } }

/-- The rows that a pseudo-channel's buffer holds captured. -/
def State.captured (s : State) (stack : Fin 8) (chan : Fin 64) : Nat :=
  (s.hm.capture.filter fun c => c.1 = stack && c.2 / 2 ^ 32 = chan.val).length

/-- A row is activated (R358, R369): one that reaches the threshold is captured, or, while the buffer of its pseudo-channel is full, its two
neighbours on each side are refreshed and its count starts again. A captured row is served from the buffer, with no activation. -/
def State.activate (s : State) (stack : Fin 8) (chan : Fin 64) (row : Nat) : State :=
  let home : Fin 17 := Fin.ofNat 17 stack.val
  let k := rowKey chan row
  let n := sget 0 s.hm.acts (actKey stack k) + 1
  if s.hm.capture.contains (stack, k) || s.hm.out.getLsbD stack.val || s.hm.dead.getLsbD stack.val then s
  else if n < captureAt then { s with hm := { s.hm with acts := sput s.hm.acts (actKey stack k) n } }
  else if s.captured stack chan < Config.captureRows then
    let s := (s.refreshRow stack k).countHome .actCap home
    { s with hm := { s.hm with capture := s.hm.capture ++ [(stack, k)] } }
  else
    let near := [row + 1, row + 2] ++ (if 1 ≤ row then [row - 1] else []) ++ if 2 ≤ row then [row - 2] else []
    (near.foldl (fun s r => s.refreshRow stack (rowKey chan r)) (s.refreshRow stack k)).countHome .actFall home

/-- ROW_CAPTURE_RELEASE (R358): the oldest captured row of a stack is refreshed and released. -/
def execRowCaptureRelease (stack : Fin 8) (s : State) : Host.Outcome State Fault Refusal :=
  match s.hm.capture.find? fun c => c.1 = stack with
  | none => .next s
  | some c => .next (s.refreshRow stack c.2)

/-- CORRECTED_MEMORY_EVENT_WINDOW (R355). -/
def execCorrectedMemoryEventWindow (home : Fin 17) (s : State) : Host.Outcome State Fault Refusal :=
  .next { s with hm := { s.hm with corrWin := s.hm.corrWin &&& ~~~(1#17 <<< home.val) } }

/-- The arrays suffer an error of a word (R355), or a page table does (R361, R364): an uncorrectable one there is a machine fault of
its partition, counted at its home (R369). -/
def State.softError (s : State) (key : Nat) (unc : Bool) : State :=
  if 2 ^ 60 ≤ key then
    if unc then
      let e := pteAt (key - 2 ^ 60) 0
      (s.countHome .eccUnc e.home).machineFault (srcHome e.home) 0x04 [e.part] (word e.base)
    else s
  else { s with hm := { s.hm with bad := sput s.hm.bad (badKey key) unc } }

/-! ### Hot rows (R74, R76) -/

/-- SKETCH_HALVING (R76). -/
def execSketchHalving (skerry : Fin 8) (s : State) : Host.Outcome State Fault Refusal := .next (s.halveSketch skerry.val)

/-- HOT_ROW_WRITEBACK (R74): the write-back of a dirty row that has been evicted is performed, and the row is absent. The way was read
when the row left it, and the words of the row are written anew. -/
def execHotRowWriteback (part : Fin 32) (table : BitVec 12) (row : Nat) (s : State) : Host.Outcome State Fault Refusal :=
  match dget (s.part part).tables table.toNat, s.hotCopy part table.toNat row with
  | some t, some h =>
    if h.back then
      let s := s.writeBack t h
      .next { s with hm := { s.hm with hot := s.hm.hot.filter fun c => c != h } }
    else .next s
  | _, _ => .next s

/-- Write a dirty row back, for a flush: it becomes clean, or absent if it had been evicted. Its way is read first, and a row that is lost
then is not written (R74, R359, R362). -/
def State.flushRow (s : State) (t : Table) (h : HotRow) : State :=
  let s := if h.back then s
    else match s.meetFrom (fun _ => false) (t.wayIa h.set h.way) t.rowBytes with
      | .ok u => u
      | .error (u, _) => u
  match s.hotCopy h.part h.table h.row with
  | none => s
  | some c =>
    if c.lost then s
    else
      let s := s.writeBack t c
      let same := fun (d : HotRow) => d.part == c.part && d.table == c.table && d.row == c.row
      { s with hm := { s.hm with
        hot := if c.back then s.hm.hot.filter fun d => !same d
          else s.hm.hot.map fun d => if same d then { d with dirty := false } else d } }

/-! ### Migration and prefetch (R78, R79, R365) -/

/-- The range registers under which agents of a partition may reach memory. -/
def State.rangesOf (s : State) (p : Fin 32) : List Range :=
  ((s.boundTo p).flatMap fun v => (s.vf v).rng.toList)
    ++ ((s.sch.cards.filter fun c => c.1 = p).flatMap fun c => c.2.rng.toList)
    ++ ((allCores.filter fun c => (s.core c).part = some p && (s.core c).card != 0).flatMap fun c =>
      allSeqs.flatMap fun q => (s.seq c q).rng.toList)

/-- A valid range register with a HINT covers a byte of a page. -/
def State.hinted (s : State) (p : Fin 32) (hint base size : Nat) : Bool :=
  (s.rangesOf p).any fun r => Range.v r && Range.hint r == hint
    && overlap (Range.iabase r * 4096) (Range.size r * 4096) (base % 2 ^ 47) size

/-- A page shares a byte with the rows of a table (R79). -/
def State.inTable (s : State) (p : Fin 32) (base size : Nat) : Bool :=
  (s.part p).tables.any fun e => overlap e.2.base (e.2.rows * e.2.stride) base size

/-- A page has migrated to an HBM frame. -/
def Hit.migrated (h : Hit) : Bool := h.hbm

/-- A page whose HBM frame the HBM-page quota cannot take (R77, R367). -/
def State.overQuota (s : State) (p : Fin 32) (h : Hit) : Bool :=
  !h.migrated && decide (vget (s.part p).quotas 0 0 < vget (s.part p).charges 0 0 + h.size)

/-- A page is skipped: pinned, poisoned, excluded by HINT = 2, or beyond the HBM-page quota (R365). -/
def State.skipsPage (s : State) (p : Fin 32) (h : Hit) : Bool :=
  ptePin h.pte || ptePsn h.pte || s.hinted p 2 h.base h.size || s.overQuota p h

/-- The frames that a page moves to: HBM frames; on its way back the host frames that it came from in tier 4, whose place is the host's to
name (R62, R296), else free ones of its tier's memory (log 8). -/
def State.moveFrames (s : State) (p : Fin 32) (h : Hit) : Option (List (Fin 17 × Nat)) :=
  if h.migrated && iaTier h.base == 4 then
    some ((pageHomes h.base h.size).map fun d => (d, pteFrame (sget 0 s.hm.ptes (movedKey (pteKey d p h.code h.base)))))
  else s.framesFor h.base h.size (!h.migrated)

/-- Mark the entries of a page as those of a migrated one, or as no longer so (log 8). -/
def State.markMoved (s : State) (p : Fin 32) (h : Hit) : State :=
  { s with hm := { s.hm with ptes := (pageHomes h.base h.size).foldl (fun m d =>
      let k := pteKey d p h.code h.base
      sset 0 m (movedKey k) (if h.migrated then 0 else word (pteFrame (sget 0 m k)) ||| 1)) s.hm.ptes } }

/-- Copy a page into HBM frames, or back (R79, R80, R365): a coded page is decoded into HBM; an error of the source abandons the
copy. -/
def State.migrate (s : State) (p : Fin 32) (h : Hit) : State :=
  match s.moveFrames p h with
  | none => s
  | some frames =>
    match s.meetFrom (fun _ => false) h.base h.size with
    | .error (u, _) => u
    | .ok u =>
      let pt := u.part p
      let c := vget pt.charges 0 0
      let bs := u.homeBytes h.base h.size
      let u := u.setPart p { pt with charges := vset pt.charges 0 (if h.migrated then c - h.size else c + h.size) }
      let u := { u with hm := { u.hm with heat := (pageHomes h.base h.size).foldl (fun m d => sdel m (pteKey d p h.code h.base)) u.hm.heat } }
      (u.markMoved p h).movePage h frames bs fun w => pteSet w 53 false

/-- No other entry maps a byte of a page's frame at its first home: firmware maps one frame of tier 4 for several partitions, and the model
moves no such page (log 8). -/
def State.soleMapper (s : State) (h : Hit) : Bool :=
  let n := Machine.frameBytes (iaTier h.base) h.size
  decide ((s.entries.filter fun e => e.arr = h.arr && overlap (pteFrame e.pte) e.frameBytes (pteFrame h.pte) n).length ≤ 1)

/-- A stack that is retrained serves a frame that a page has at one of its homes, or may get there in HBM or in its tier's memory (R356). -/
def State.pageOut (s : State) (h : Hit) : Bool :=
  (pageHomes h.base h.size).any fun d => [d, arrayOf d h.hbm, arrayOf d (!h.hbm)].any fun a =>
    s.hm.out.getLsbD a.val && !s.hm.dead.getLsbD a.val

/-- A page of tier 3 or 4 outside every table's rows, whose homes, with the stacks that it lies in and may move to, are in service. -/
def State.movable (s : State) (p : Fin 32) (ia : Nat) : Option Hit :=
  if iaPart ia = p ∧ (iaTier ia = 3 ∨ iaTier ia = 4) ∧ !s.homeDown ia then
    match lookup s.hm.ptes ia with
    | some h => if s.inTable p h.base h.size || pteRaw h.pte || !s.soleMapper h || s.pageOut h then none else some h
    | none => none
  else none

/-- The accesses counted for a page have crossed the threshold (R79): reaching it is crossing it, which R79 does not say (DESIGN CHOICE,
log 59). -/
def State.hotPage (s : State) (p : Fin 32) (h : Hit) : Bool :=
  let n := sget 0 s.hm.heat h.key
  decide ((s.part p).migr ≤ if s.hinted p 1 h.base h.size then 2 * n else n)

/-- Skip a page, which counts the skip and a refused charge (R365, R367, R369), or move it. -/
def State.moveOrSkip (s : State) (p : Fin 32) (h : Hit) : State :=
  if s.skipsPage p h then
    let t := if s.overQuota p h then s.countHome .quotaFail h.home else s
    t.countHome .migSkip h.home
  else s.migrate p h

/-- PAGE_MIGRATION (R79): the tracker moves a page whose accesses have crossed the threshold into HBM, or a migrated one back. -/
def execPageMigration (part : Fin 32) (ia : BitVec 52) (s : State) : Host.Outcome State Fault Refusal :=
  match s.movable part ia.toNat with
  | none => .next s
  | some h => if h.migrated || s.hotPage part h then .next (s.moveOrSkip part h) else .next s

/-- An entry of the prefetch table (R78). -/
structure Prefetch where
  lyr  : Nat
  dest : Nat
  lead : Nat
  base : Nat
  len  : Nat
deriving DecidableEq, Repr

/-- Entry `i` of a partition's prefetch table. -/
def Partition.prefetch (p : Partition) (i : Nat) : Prefetch :=
  let w := sget 0 p.pft (4 * i)
  ⟨w.bits 15 0, w.bits 23 16, max 1 (w.bits 31 24), (sget 0 p.pft (4 * i + 1)).toNat, (sget 0 p.pft (4 * i + 2)).toNat⟩

/-- Migrate the unpinned pages of a range (R78); the fuel bounds them. -/
def State.fetchPages (s : State) (p : Fin 32) (ia stop : Nat) : Nat → State
  | 0 => s
  | fuel + 1 =>
    if stop ≤ ia then s
    else
      match s.movable p ia with
      | none => State.fetchPages s p (ia / 4096 * 4096 + 4096) stop fuel
      | some h =>
        let s := if h.migrated || ptePin h.pte then s else s.moveOrSkip p h
        State.fetchPages s p (h.base + h.size) stop fuel

/-- PREFETCH_FILL (R78): the engine acts on the oldest layer announced. -/
def execPrefetchFill (part : Fin 32) (s : State) : Host.Outcome State Fault Refusal :=
  let pt := s.part part
  match pt.layers with
  | [] => .next s
  | n :: t =>
    let s := s.setPart part { pt with layers := t }
    .next ((upTo 256).foldl (fun s i =>
      let e := pt.prefetch i
      if e.dest = 2 ∧ n < e.lyr ∧ e.lyr ≤ n + e.lead then s.fetchPages part e.base (e.base + e.len) (e.len / 4096 + 2) else s) s)

end Sys2Proof.Machine
end

