-- ==== Sys2Proof/Machine/Host.lean ====
section
/-! DEFINITION. The host's accesses (R99, R288 to R293): region 0, the registers of region 1, and the commands that firmware takes. -/

namespace Sys2Proof.Machine

/-! ### Region 0 (R288, R289) -/

/-- The host-access event of a function (R288, R399): its partition's, or, of a function that is bound to none, for VF 0's ring. -/
def State.hostEvent (s : State) (v : Fin 1024) (off : Nat) (wr : Bool) : State :=
  let detail : Word := word (v.val + if wr then 1024 else 0)
  match (s.vf v).part with
  | some p => s.post p (srcHome 16) 7 0 0 (word off) detail
  | none => s.postVf0 (srcHome 16) 7 0 (word off) detail

/-- The IA of a region-0 access; none where it misses, lacks permission, or leaves tiers 0 to 4 (R288). -/
def State.hostIa (s : State) (v : Fin 1024) (off n : Nat) (p : Perm) : Option Nat :=
  match (s.vf v).part with
  | none => none
  | some q =>
    match translate q (s.vf v).rng off n p with
    | .error _ => none
    | .ok t => if iaTier t.ia ≤ 4 then some t.ia else none

/-- The bytes of a read, and the state it leaves; none where it is not performed (R288, R360). -/
def State.hostRead (s : State) (v : Fin 1024) (off n : Nat) : Option (List Byte) × State :=
  match s.hostIa v off n .rd with
  | none => (none, s)
  | some ia =>
    match s.confirmAll false ia n with
    | .error _ => (none, s)
    | .ok () =>
      match s.meet ia n with
      | .error (u, _) => (none, u)
      | .ok u => (some (u.homeBytes ia n), u)

/-- A write, performed or not (R45, R105, R288, R289). -/
def State.hostWrite (s : State) (v : Fin 1024) (off : Nat) (bs : List Byte) : Bool × State :=
  match s.hostIa v off bs.length .wr with
  | none => (false, s)
  | some ia =>
    match s.confirmAll true ia bs.length with
    | .error (e, a) => (false, if e = .perm then s.refusedWrite a else s)
    | .ok () =>
      if (upTo bs.length).any fun i => s.isStepped (ia + i) then (false, s)
      else
        match s.meetWrite ia bs.length with
        | .error (u, _) => (false, u)
        | .ok u => (true, ((u.uncodeRun ia bs.length).perform ia bs 0).settleFound)

/-- A posted write of region 0, with the event of one that is discarded. -/
def State.doHostWrite (s : State) (v : Fin 1024) (off : Nat) (bs : List Byte) : State :=
  if v = 0 then s
  else
    match s.hostWrite v off bs with
    | (true, t) => t
    | (false, t) => t.hostEvent v off true

/-- A read of region 0: its data goes to the host, all ones where it is not performed. -/
def State.doHostRead (s : State) (v : Fin 1024) (off n : Nat) : State :=
  if v = 0 then s
  else
    let (r, t) := s.hostRead v off n
    let t := if r.isNone then t.hostEvent v off false else t
    { t with hst := { t.hst with out := t.hst.out ++ [.data v (r.getD (List.replicate n 0xFF))] } }

/-! ### Region 1 (R292, R293) -/

/-- The command of a code (R296). -/
def fwInstr (code : Nat) (c : FwCmd) : Option Instr :=
  match code with
  | 0x01 => some (.identify c)
  | 0x02 => some (.getCaps c)
  | 0x03 => some (.attest c)
  | 0x10 => some (.partCreate c)
  | 0x11 => some (.partDestroy c)
  | 0x12 => some (.partReset c)
  | 0x13 => some (.vfBind c)
  | 0x14 => some (.vfUnbind c)
  | 0x15 => some (.quotaSet c)
  | 0x20 => some (.memMap c)
  | 0x21 => some (.memUnmap c)
  | 0x22 => some (.memSplit c)
  | 0x23 => some (.memPin c)
  | 0x24 => some (.memProtect c)
  | 0x25 => some (.pageRestore c)
  | 0x30 => some (.tableDefine c)
  | 0x31 => some (.tableDrop c)
  | 0x40 => some (.exportRegion c)
  | 0x41 => some (.revokeRegion c)
  | 0x42 => some (.stepgroupJoin c)
  | 0x43 => some (.fabricRoutesLoad c)
  | 0x50 => some (.evqConfig c)
  | 0x51 => some (.fwStage c)
  | 0x60 => some (.powerCap c)
  | _ => none

/-- A command from the 64 bytes of its entry (R293). -/
def fwEntry (v : Fin 1024) (f : VFun) (bs : List Byte) : FwEntry :=
  let a := fun i => word (wordAt bs (8 + 8 * i) 8)
  let c : FwCmd := ⟨v, BitVec.ofNat 32 (wordAt bs 4 4), wordAt bs 2 1 % 2 == 1, a 0, a 1, a 2, a 3, a 4, a 5⟩
  let clean := wordAt bs 2 1 ≤ 1 && wordAt bs 3 1 = 0 && wordAt bs 0x38 8 = 0
  ⟨if clean then fwInstr (wordAt bs 0 2) c else none, c, f.cqbase, f.cqlog.toNat, none⟩

/-- Firmware takes the commands HEAD to TAIL − 1 of a function, at most the 64 of the ring (R292, R293). -/
def State.takeCommands (s : State) (v : Fin 1024) : State :=
  let f := s.vf v
  let n := min 64 (f.tail - f.head).toNat
  let es := (upTo n).map fun i => fwEntry v f (Memory.read f.ring (64 * ((f.head.toNat + i) % 64)) 64)
  let s := s.setVf v { f with head := f.head + BitVec.ofNat 32 n }
  { s with hst := { s.hst with fwq := s.hst.fwq ++ es } }

/-- A store to TAIL; the same value again does nothing (R48, R293). -/
def State.doCmdTail (s : State) (v : Fin 1024) (x : BitVec 32) : State :=
  if (s.vf v).tail = x then s else (s.setVf v { s.vf v with tail := x }).takeCommands v

/-- A store to QTAIL; ignored where the function is not bound (R292). -/
def State.doQtail (s : State) (v : Fin 1024) (x : BitVec 32) : State :=
  if (s.vf v).part.isNone then s else s.setVf v { s.vf v with qtail := x }

/-- Byte `i` of a register replaced. -/
def putIn {n : Nat} (x : BitVec n) (i : Nat) (b : Byte) : BitVec n :=
  (x &&& ~~~((0xFF#8).setWidth n <<< (8 * i))) ||| (b.setWidth n <<< (8 * i))

/-- One byte of region 1 written, in the ring or a register that the host may write; others are ignored, and QTAIL where the function is
not bound (R292). -/
def VFun.putByte (f : VFun) (off : Nat) (b : Byte) : VFun :=
  if off < 0x1000 then { f with ring := Memory.set f.ring off b }
  else if 0x2000 ≤ off ∧ off < 0x2004 then { f with tail := putIn f.tail (off - 0x2000) b }
  else if 0x2010 ≤ off ∧ off < 0x2018 then { f with cqbase := putIn f.cqbase (off - 0x2010) b }
  else if off = 0x2018 then { f with cqlog := b }
  else if 0x2020 ≤ off ∧ off < 0x2024 then { f with cqhead := putIn f.cqhead (off - 0x2020) b }
  else if 0x2028 ≤ off ∧ off < 0x202C then { f with evhead := putIn f.evhead (off - 0x2028) b }
  else if 0x3018 ≤ off ∧ off < 0x301C ∧ f.part.isSome then { f with qtail := putIn f.qtail (off - 0x3018) b }
  else f

/-- Region 1 of a function from 0x2000 up (R292). -/
def VFun.registers (f : VFun) : List (Nat × List Byte) :=
  [(0x2000, leBytes 4 f.tail.toNat), (0x2008, leBytes 4 f.head.toNat), (0x2010, leBytes 8 f.cqbase.toNat), (0x2018, [f.cqlog]),
   (0x2020, leBytes 4 f.cqhead.toNat), (0x2028, leBytes 4 f.evhead.toNat), (0x3000, leBytes 8 f.qring), (0x3008, leBytes 1 f.qlog),
   (0x3010, leBytes 4 f.qhead.toNat), (0x3018, leBytes 4 f.qtail.toNat)]

/-- One byte of region 1 as the host reads it (R292). -/
def VFun.getByte (f : VFun) (off : Nat) : Byte :=
  if off < 0x1000 then Memory.get f.ring off
  else
    match f.registers.find? fun r => decide (r.1 ≤ off) && decide (off < r.1 + r.2.length) with
    | some r => r.2.getD (off - r.1) 0
    | none => 0

/-- Bytes of region 1 written. -/
def VFun.putBytes (f : VFun) (off : Nat) : List Byte → VFun
  | [] => f
  | b :: bs => VFun.putBytes (f.putByte off b) (off + 1) bs

/-! ### The order of a function's accesses (R99, R303) -/

/-- The function of a host access. -/
def hostVf : Instr → Option (Fin 1024)
  | .hostRead v _ _ => some v
  | .hostWrite v _ _ => some v
  | .cmdTailWrite v _ => some v
  | .qtailWrite v _ => some v
  | .cqheadWrite v _ => some v
  | .evheadWrite v _ => some v
  | .region1RegisterWrite v _ _ => some v
  | _ => none

/-- The package is in Standby: the state has been asked for, and no card runs any longer (R303). -/
def State.standby (s : State) : Bool := s.hst.pstate == 2 && !(s.sch.cards.any fun c => c.2.placed)

/-- Bytes of region 1 are written; a store that changes TAIL has firmware take the commands (R292, R293). -/
def State.doRegion1 (s : State) (v : Fin 1024) (off : Nat) (bs : List Byte) : State :=
  let f := s.vf v
  let t := s.setVf v (f.putBytes off bs)
  if (t.vf v).tail = f.tail then t else t.takeCommands v

/-- A host access can be performed now: a region-0 access waits in Standby and for a home out of service (R303, R356). -/
def State.hostReady (s : State) : Instr → Bool
  | .hostRead v off n => !s.standby && !((s.hostIa v off.toNat n .rd).any fun ia => s.anyDown ia n)
  | .hostWrite v off bs => !s.standby && !((s.hostIa v off.toNat bs.length .wr).any fun ia => s.anyDown ia bs.length)
  | _ => true

/-- Perform a host access. -/
def State.doHost (s : State) : Instr → State
  | .hostRead v off n => s.doHostRead v off.toNat n
  | .hostWrite v off bs => s.doHostWrite v off.toNat bs
  | .cmdTailWrite v x => s.doCmdTail v x
  | .qtailWrite v x => s.doQtail v x
  | .cqheadWrite v x => s.setVf v { s.vf v with cqhead := x }
  | .evheadWrite v x => s.setVf v { s.vf v with evhead := x }
  | .region1RegisterWrite v off bs => s.doRegion1 v off.toNat bs
  | _ => s

/-- Perform the accesses of a list, each after its function's earlier ones; those that cannot be performed are left. -/
def State.hostList (s : State) : List (Fin 1024) → List Instr → List Instr × State
  | _, [] => ([], s)
  | held, i :: t =>
    if (hostVf i).any held.contains || !s.hostReady i then
      let (l, u) := State.hostList s (held ++ (hostVf i).toList) t
      (i :: l, u)
    else State.hostList (s.doHost i) held t

/-- Perform the host accesses that wait, where they can be; those that came in Standby, and what is behind them, wait for Active
(R303). -/
def State.hostFlush (s : State) : State :=
  let n := if s.hst.pstate = 0 then 0 else s.hst.slept
  let (old, new) := s.hst.stalled.splitAt n
  let (rest, t) := ({ s with hst := { s.hst with stalled := [] } }).hostList (old.filterMap hostVf) new
  { t with hst := { t.hst with stalled := old ++ rest, slept := if t.standby then (old ++ rest).length else n } }

/-- A host access arrives: it takes its place behind its function's earlier ones. -/
def State.hostAccess (s : State) (i : Instr) : State :=
  ({ s with hst := { s.hst with stalled := s.hst.stalled ++ [i] } }).hostFlush

/-- The host reads bytes of region 1 of a function, after the accesses of it that it has made before (R99, R292). -/
def State.readRegion1 (s : State) (v : Fin 1024) (off n : Nat) : State :=
  if s.hst.stalled.any fun i => hostVf i = some v then s
  else { s with hst := { s.hst with out := s.hst.out ++ [.data v ((upTo n).map fun i => (s.vf v).getByte (off + i))] } }

/-- HOST_READ (R288, R289). -/
def execHostRead (vf : Fin 1024) (off : BitVec 48) (n : Nat) (s : State) : Host.Outcome State Fault Refusal :=
  .next (s.hostAccess (.hostRead vf off n))

/-- HOST_WRITE (R288, R289). -/
def execHostWrite (vf : Fin 1024) (off : BitVec 48) (data : List Byte) (s : State) : Host.Outcome State Fault Refusal :=
  .next (s.hostAccess (.hostWrite vf off data))

/-- CMD_TAIL_WRITE (R292, R293). -/
def execCmdTailWrite (vf : Fin 1024) (v : BitVec 32) (s : State) : Host.Outcome State Fault Refusal :=
  .next (s.hostAccess (.cmdTailWrite vf v))

/-- QTAIL_WRITE (R36, R292). -/
def execQtailWrite (vf : Fin 1024) (v : BitVec 32) (s : State) : Host.Outcome State Fault Refusal :=
  .next (s.hostAccess (.qtailWrite vf v))

/-- CQHEAD_WRITE (R292, R294). -/
def execCqheadWrite (vf : Fin 1024) (v : BitVec 32) (s : State) : Host.Outcome State Fault Refusal :=
  .next (s.hostAccess (.cqheadWrite vf v))

/-- EVHEAD_WRITE (R291, R292). -/
def execEvheadWrite (vf : Fin 1024) (v : BitVec 32) (s : State) : Host.Outcome State Fault Refusal :=
  .next (s.hostAccess (.evheadWrite vf v))

/-- REGION1_REGISTER_WRITE (R292). -/
def execRegion1RegisterWrite (vf : Fin 1024) (off : BitVec 14) (data : List Byte) (s : State) :
    Host.Outcome State Fault Refusal :=
  .next (s.hostAccess (.region1RegisterWrite vf off data))

/-- A stack that resumes serves the host accesses that wait for it. -/
def State.resumed (s : State) : State := if s.hst.stalled.isEmpty then s else s.hostFlush

/-- INTERFACE_RETRAIN (R356): the stack resumes, and the host accesses that wait for it are performed; or it stays out until a reset. The manual names no address for its fault. -/
def execInterfaceRetrain (stack : Fin 8) (ok : Bool) (s : State) : Host.Outcome State Fault Refusal :=
  let home : Fin 17 := Fin.ofNat 17 stack.val
  if !s.hm.out.getLsbD stack.val then .next s
  else
    let s := { s with hm := { s.hm with out := s.hm.out &&& ~~~(1#17 <<< stack.val) } }
    if ok then .next s.resumed
    else
      let s := { s with hm := { s.hm with dead := s.hm.dead ||| (1#17 <<< stack.val) } }
      let s := s.poisonStack home
      let (a, s) := s.draw (2 ^ 52)
      .next (s.stackFault home 0x07 (word a))

end Sys2Proof.Machine
end

