-- ==== Sys2Proof/Machine/Firmware.lean ====
section
/-! DEFINITION. How firmware executes a command and completes it (R294, R295, R296), and the commands of identity, partitions,
functions, quotas, fabric, event rings and power (R297 to R303). -/

namespace Sys2Proof.Machine

/-! ### Executing and completing a command -/

/-- A command that does not succeed now: it waits; it has begun and goes on, with what it will return; or it returns a status, on the
state before it or on what an array error has left of that state (R295). -/
inductive FwStop where
  | wait
  | status (n : Nat)
  | after (s : State) (n : Nat)
  | begun (s : State) (r : Word)

/-- The completion ring of a function is full (R294). -/
def State.cqFull (s : State) (e : FwEntry) : Bool :=
  let f := s.vf e.cmd.vf
  BitVec.ofNat 32 f.cqcount - f.cqhead == BitVec.ofNat 32 (2 ^ e.cqlog)

/-- A completion record (R294). -/
def cqRecord (e : FwEntry) (c st : Nat) (r : Word) : List Byte :=
  leBytes 4 e.cmd.tag.toNat ++ leBytes 2 st ++ leBytes 1 0 ++ leBytes 1 (1 - c / 2 ^ e.cqlog % 2)
    ++ leBytes 8 (if st = 0 then r.toNat else 0)

/-- The completion event of a command with EV (R293; log 17). -/
def State.cmdEvent (s : State) (v : Fin 1024) : State :=
  match (s.vf v).part with
  | some p => s.post p srcFirmware 9 0 0 0 0
  | none => s.postVf0 srcFirmware 9 0 0 0

/-- A completion ring that a record may be written in: of tier 4 and aligned (R292), and of the function's own partition, or, of a function
without one but VF 0, where no page is mapped (R12; log 43). -/
def State.cqOk (s : State) (e : FwEntry) (ia : Nat) : Bool :=
  iaTier ia == 4 && decide (ia < 2 ^ 52) && e.cqbase.toNat % 16 == 0
    && match (s.vf e.cmd.vf).part with
      | some p => iaPart ia == p
      | none => e.cmd.vf == 0 || (lookup s.hm.ptes ia).isNone

/-- A command completes: its record is written and it leaves the queue (R294). Where CQBASE breaks R292 no record is written (R12; log
43). -/
def State.completeFw (s : State) (e : FwEntry) (st : Nat) (r : Word) : State :=
  let v := e.cmd.vf
  let c := (s.vf v).cqcount
  let a := e.cqbase.toNat + 16 * (c % 2 ^ e.cqlog)
  let s := if s.cqOk e a then s.hostPut a (cqRecord e c st r) else s
  let s := s.setVf v { s.vf v with cqcount := c + 1 }
  let s := { s with hst := { s.hst with fwq := s.hst.fwq.erase e } }
  if e.cmd.ev then s.cmdEvent v else s

/-- The oldest command taken from a function. -/
def State.fwHead (s : State) (v : Fin 1024) : Option FwEntry := s.hst.fwq.find? fun e => e.cmd.vf = v

/-- A command has begun and goes on (R294). -/
def State.beginFw (s : State) (e : FwEntry) (r : Word) : State :=
  { s with hst := { s.hst with fwq := s.hst.fwq.map fun d => if d = e then { d with begun := some r } else d } }

/-- What the oldest command of a function will return, where it has begun. -/
def State.fwBegun (s : State) (v : Fin 1024) : Option Word := (s.fwHead v).bind (·.begun)

/-- Execute a command of the table, when it is the oldest one taken from its function and there is room for its record (R294). -/
def firmware (i : Instr) (c : FwCmd) (s : State) (body : State → Except FwStop (Word × State)) : Host.Outcome State Fault Refusal :=
  match s.fwHead c.vf with
  | none => .next s
  | some e =>
    if e.instr != some i || s.cqFull e then .next s
    else
      match body s with
      | .error .wait => .next s
      | .error (.status n) => .next (s.completeFw e n 0)
      | .error (.after t n) => .next (t.completeFw e n 0)
      | .error (.begun t r) => .next (t.beginFw e r)
      | .ok (r, t) => .next (t.completeFw e 0 r)

/-- A command of unknown code, or with a reserved field set, completes with status 0x01 (R295). -/
def State.refuseFw (s : State) (v : Fin 1024) : State :=
  match s.fwHead v with
  | none => s
  | some e => if e.instr.isSome || s.cqFull e then s else s.completeFw e 0x01 0

/-! ### Who may issue a command, and its arguments (R296) -/

/-- A status unless a condition holds. -/
def need (b : Bool) (st : Nat) : Except FwStop Unit := if b then .ok () else .error (.status st)

/-- A command of VF 0 alone, with its unused words. -/
def adminOnly (c : FwCmd) (unused : List Word) : Except FwStop Unit := do
  need (c.vf = 0) 0x02
  need (unused.all (· == 0)) 0x01

/-- A command of a bound function for its own partition, or of VF 0 for the one it names. -/
def State.ofPart (s : State) (c : FwCmd) (unused : List Word) : Except FwStop (Fin 32) := do
  if c.vf = 0 then
    need (unused.all (· == 0)) 0x01
    need (decide (c.a5.toNat < 32)) 0x01
    let p : Fin 32 := Fin.ofNat 32 c.a5.toNat
    need (s.part p).live 0x04
    pure p
  else
    match (s.vf c.vf).part with
    | none => .error (.status 0x02)
    | some p => do
      need (unused.all (· == 0) && c.a5 == 0) 0x01
      pure p

/-- A command marked A and P (R296): of VF 0, for no partition or for the one that a non-zero ARG5 names (log 44), or of a bound
function for its own. -/
def State.ofAny (s : State) (c : FwCmd) (unused : List Word) : Except FwStop (Option (Fin 32)) :=
  if c.vf = 0 ∧ c.a5 = 0 then do
    need (unused.all (· == 0)) 0x01
    pure none
  else (s.ofPart c unused).map some

/-- An IA of a partition in some tiers. -/
def inTiers (p : Fin 32) (ia : Word) (lo hi : Nat) : Bool :=
  decide (ia.toNat < 2 ^ 52) && iaPart ia.toNat == p && decide (lo ≤ iaTier ia.toNat) && decide (iaTier ia.toNat ≤ hi)

/-- A memory argument: of the partition in tiers 0 to 3, or of tier 4 (R296). A command without a partition may name any. -/
def memArg (p : Option (Fin 32)) (ia : Word) : Bool :=
  decide (ia.toNat < 2 ^ 52)
    && (iaTier ia.toNat == 4 || (decide (iaTier ia.toNat ≤ 3) && match p with | some q => iaPart ia.toNat == q | none => true))

/-- A page that has been found poisoned by a command is reported again (R295). -/
def State.poisonedAgain (s : State) (h : Hit) : FwStop :=
  .after (s.post (iaPart h.base) (srcHome h.home) 3 0 0 (word h.base) 0) 0x0A

/-- Read a memory argument: no present entry is status 0x04, an error of the array 0x0A. -/
def State.fwRead (s : State) (p : Option (Fin 32)) (ia : Word) (n : Nat) : Except FwStop (List Byte × State) := do
  need (memArg p ia && decide (ia.toNat % 2 ^ 44 + n ≤ 2 ^ 44)) 0x03
  let a := ia.toNat
  if s.anyDown a n then .error .wait
  need ((upTo n).all fun i => iaTier a = 4 || (lookup s.hm.ptes (a + i)).isSome) 0x04
  match (upTo n).findSome? fun i => (lookup s.hm.ptes (a + i)).filter fun h => ptePsn h.pte with
  | some h => .error (s.poisonedAgain h)
  | none => pure ()
  match s.meet a n with
  | .error (u, _) => .error (.after u 0x0A)
  | .ok u => pure (u.hostBytes a n, u)

/-- Check an output buffer (R296): tier 4, and for a function in its own partition and mapped. -/
def State.outOk (s : State) (p : Option (Fin 32)) (ia : Word) (n : Nat) : Except FwStop Unit := do
  need (decide (ia.toNat < 2 ^ 52) && iaTier ia.toNat == 4 && decide (ia.toNat % 2 ^ 44 + n ≤ 2 ^ 44)
    && match p with | some q => iaPart ia.toNat == q | none => true) 0x03
  need (p.isNone || (upTo n).all fun i => (lookup s.hm.ptes (ia.toNat + i)).any fun h => !ptePsn h.pte) 0x04

/-! ### Identity and trust (R297, R300 to R302) -/

/-- Bytes of the trust unit (log 7). -/
def trustBytes (field n : Nat) : List Byte := (upTo n).map (Config.trustByte field)

/-- Package id, incarnation, build and form (R2). -/
def State.idWord (s : State) : List Byte :=
  leBytes 2 s.fab.pkg.toNat ++ leBytes 2 s.fab.inc.toNat ++ leBytes 1 (if Config.leeward then 1 else 0) ++ leBytes 1 (if Config.modular then 1 else 0) ++ leBytes 2 0

/-- The block of IDENTIFY. -/
def State.identityBlock (s : State) : List Byte :=
  s.idWord ++ leBytes 8 Config.serial.toNat ++ leBytes 4 s.hst.fwver.toNat ++ trustBytes 1 4 ++ trustBytes 0 40

/-- The block of GET_CAPS. -/
def capsBlock : List Byte :=
  leBytes 4 Config.revision.toNat ++ leBytes 4 0 ++ leBytes 8 0x3FF ++ leBytes 8 0x7FE ++ leBytes 8 ((upTo 8).map Config.skerryBytes).sum ++ List.replicate 32 0

/-- IDENTIFY (R297). -/
def execIdentify (c : FwCmd) (s : State) : Host.Outcome State Fault Refusal :=
  firmware (.identify c) c s fun s => do
    let p ← s.ofAny c [c.a1, c.a2, c.a3, c.a4]
    s.outOk p c.a0 64
    pure (0, s.hostPut c.a0.toNat s.identityBlock)

/-- GET_CAPS (R297). -/
def execGetCaps (c : FwCmd) (s : State) : Host.Outcome State Fault Refusal :=
  firmware (.getCaps c) c s fun s => do
    let p ← s.ofAny c [c.a1, c.a2, c.a3, c.a4]
    s.outOk p c.a0 64
    pure (0, s.hostPut c.a0.toNat capsBlock)

/-- A measurement: the digest of what is measured, extended from zero; zeros where there is nothing (R300; log 7). -/
def measure : Option (List Byte) → List Byte
  | none => List.replicate 48 0
  | some bs => Sha384.hash (List.replicate 48 0 ++ Sha384.hash bs)

/-- The four measurements: ROM, firmware, patches, of which no command installs any, and the current route image (R300). -/
def State.measurements (s : State) : List Byte :=
  [some Config.romImage, some (s.hst.fwim.getD Config.factoryImage), none,
    if s.hst.routeIm.isEmpty then none else some s.hst.routeIm].flatMap measure

/-- An attestation report under an HSS index (R301; log 7). -/
def State.report (s : State) (nonce : List Byte) (idx : Nat) : List Byte :=
  leBytes 4 (0x16C + Config.hssLength) ++ leBytes 4 1 ++ nonce ++ s.measurements ++ s.idWord ++ leBytes 8 idx
    ++ trustBytes (4 * idx + 5) 96 ++ leBytes 4 Config.hssLength ++ trustBytes (4 * idx + 6) Config.hssLength

/-- ATTEST (R301, R302): each report takes the next index. -/
def execAttest (c : FwCmd) (s : State) : Host.Outcome State Fault Refusal :=
  firmware (.attest c) c s fun s => do
    let p ← s.ofAny c [c.a3, c.a4]
    let n := 0x16C + Config.hssLength
    need (decide (n ≤ c.a2.toNat)) 0x07
    s.outOk p c.a1 n
    need (decide (s.hst.hssIdx < Config.hssLimit)) 0x0B
    let (nonce, s) ← s.fwRead p c.a0 48
    let s := { s with hst := { s.hst with hssIdx := s.hst.hssIdx + 1 } }
    pure (word n, s.hostPut c.a1.toNat (s.report nonce s.hst.hssIdx))

/-- FW_STAGE (R300): an image that both signatures verify waits for the next reset. -/
def execFwStage (c : FwCmd) (s : State) : Host.Outcome State Fault Refusal :=
  firmware (.fwStage c) c s fun s => do
    adminOnly c [c.a2, c.a3, c.a4, c.a5]
    let (bs, s) ← s.fwRead none c.a0 c.a1.toNat
    if Config.imageAccepted bs then
      pure ((Config.imageVersion bs).setWidth 64, { s with hst := { s.hst with staged := some bs } })
    else .error (.after s 0x08)

/-! ### Partitions (R298) -/

/-- The cores of some clusters (R14). -/
def coresIn (mask : BitVec 32) : List CoreId := allCores.filter fun c => mask.getLsbD (clusterOf c)

/-- Entries of a store of words or bytes of a core, removed. -/
def dropKeys {α : Type} (per : Nat) (cs : List CoreId) (l : List (Nat × α)) : List (Nat × α) :=
  l.filter fun e => !(cs.any fun c => e.1 / per == c.val)

/-- Zero the local memory and the accumulator memory, side registers included, of some cores (R28, R159, R298). -/
def State.zeroCores (s : State) (cs : List CoreId) : State :=
  { s with hm := { s.hm with
    lm := dropKeys (2 ^ 21) cs s.hm.lm
    acc := dropKeys 262144 cs s.hm.acc
    side := dropKeys 3072 cs s.hm.side } }

/-- A core enters a partition, or leaves it (R69, R283, R285). -/
def Core.enter (k : Core) (p : Option (Fin 32)) (tvec : Word) : Core :=
  { k.idle with part := p, tvec := tvec, icache := [], l1 := [], late := [], c := CState.reset }

/-- Device queues in use in the package (R35). -/
def State.devqsUsed (s : State) : Nat := (s.sch.parts.toList.map fun p => p.devqs.length).sum

/-- The device queues of the package that are free, by number. -/
def State.devqsFree (s : State) : List Nat :=
  (upTo 64).filter fun n => !(s.sch.parts.toList.any fun p => p.devqs.any fun d => d.num = n)

/-- A priority queue of a mask belongs to a partition already (R42). -/
def State.pqTaken (s : State) (mask : BitVec 32) : Bool :=
  (List.finRange 32).any fun i => mask.getLsbD i.val && (s.sch.pqs[i.val]).owner.isSome

/-- An empty device queue of a size, with its number. -/
def DevQueue.empty (sizeLog num : Nat) : DevQueue := ⟨sizeLog, [], 0, 0, num⟩

/-- A partition as PART_CREATE makes it, with device queues of some numbers (R298, R299). -/
def newPartition (clusters : BitVec 32) (qs : List Nat) (sl : Nat) (pq : BitVec 32) (tvec : Word) : Partition :=
  { Partition.absent with
    live := true
    clusters := clusters
    quotas := (Vector.replicate 6 0).set 5 (qs.length * 2 ^ sl)
    charges := (Vector.replicate 6 0).set 5 (qs.length * 2 ^ sl)
    tvec := tvec
    devqs := qs.map (DevQueue.empty sl)
    pqMask := pq }

/-- Give the priority queues of a mask to a partition, or take them from it. -/
def State.assignPqs (s : State) (mask : BitVec 32) (p : Option (Fin 32)) : State :=
  let qs := Vector.ofFn fun i : Fin 32 => if mask.getLsbD i.val then ⟨p, []⟩ else s.sch.pqs[i.val]
  { s with sch := { s.sch with pqs := qs } }

/-- PART_CREATE (R296, R298): the lowest free device queues are assigned. -/
def execPartCreate (c : FwCmd) (s : State) : Host.Outcome State Fault Refusal :=
  firmware (.partCreate c) c s fun s => do
    adminOnly c [c.a5]
    need (c.a2.bits 63 13 == 0 && c.a2.bits 7 7 == 0 && c.a3.bits 63 32 == 0) 0x01
    let nq := c.a2.bits 6 0
    let sl := c.a2.bits 12 8
    need (decide (c.a0.toNat < 32) && c.a1 != 0 && c.a1.bits 63 32 == 0 && decide (nq ≤ 64)
      && (nq == 0 || (decide (4 ≤ sl) && decide (sl ≤ 16)))) 0x03
    let p : Fin 32 := Fin.ofNat 32 c.a0.toNat
    need (inTiers p c.a4 0 2 && c.a4.toNat % 8 == 0) 0x03
    need (!(s.part p).live) 0x09
    let mask : BitVec 32 := c.a1.setWidth 32
    let pq : BitVec 32 := c.a3.setWidth 32
    need (!(s.sch.parts.toList.any fun q => q.live && (q.clusters &&& mask) != 0) && !s.pqTaken pq) 0x05
    need (decide (s.devqsUsed + nq ≤ 64) && s.poolRoom mask) 0x07
    let cs := coresIn mask
    let s := s.zeroCores cs
    let s := cs.foldl (fun s d => s.setCore d ((s.core d).enter (some p) c.a4)) s
    let s := s.setPart p (newPartition mask (s.devqsFree.take nq) sl pq c.a4)
    pure (0, s.assignPqs pq (some p))

/-- A partition that a command names. -/
def State.namedPart (s : State) (w : Word) : Except FwStop (Fin 32) := do
  need (decide (w.toNat < 32)) 0x03
  let p : Fin 32 := Fin.ofNat 32 w.toNat
  need (s.part p).live 0x04
  pure p

/-- PART_RESET (R298). -/
def execPartReset (c : FwCmd) (s : State) : Host.Outcome State Fault Refusal :=
  firmware (.partReset c) c s fun s => do
    adminOnly c [c.a1, c.a2, c.a3, c.a4, c.a5]
    let p ← s.namedPart c.a0
    pure (0, s.discardPart p)

/-- The tables of a partition are dropped: dirty rows are written back first (R74, R298). -/
def State.dropTables (s : State) (p : Fin 32) : State :=
  let s := (s.hm.hot.filter fun h => h.part = p && h.dirty && !h.lost).foldl (fun s h =>
    match dget (s.part p).tables h.table with
    | some t => s.flushRow t h
    | none => s) s
  let s := { s with hm := { s.hm with hot := s.hm.hot.filter fun h => h.part != p } }
  s.setPart p { s.part p with tables := [] }

/-- Every page of a partition is unmapped, with its exports and what is buffered for them. -/
def State.unmapAll (s : State) (p : Fin 32) : State :=
  let mine := (s.fab.regions.filter fun r => r.2.part = p).map (·.1)
  { s with
    hm := { s.hm with
      ptes := s.hm.ptes.filter fun e => (pteAt e.1 e.2).part != p
      heat := s.hm.heat.filter fun e => (pteAt e.1 0).part != p
      uncoded := s.hm.uncoded.filter fun b => iaPart b != p
      areaPages := s.hm.areaPages.filter fun b => iaPart b != p }
    fab := { s.fab with
      regions := s.fab.regions.filter fun r => r.2.part != p
      sbuf := s.fab.sbuf.filter fun b => !mine.contains b.exp } }

/-- Unbind a function (R292, R296). -/
def VFun.unbind (f : VFun) : VFun :=
  { f with part := none, rng := Vector.replicate 16 0, qring := 0, qlog := 0, qhead := 0, qtail := 0 }

/-- PART_DESTROY (R298): as PART_RESET, then tables, pages, functions and clusters. -/
def execPartDestroy (c : FwCmd) (s : State) : Host.Outcome State Fault Refusal :=
  firmware (.partDestroy c) c s fun s => do
    adminOnly c [c.a1, c.a2, c.a3, c.a4, c.a5]
    let p ← s.namedPart c.a0
    let s := s.discardPart p
    let s := (s.dropTables p).unmapAll p
    let s := (s.boundTo p).foldl (fun s v => s.setVf v (s.vf v).unbind) s
    let cs := coresIn (s.part p).clusters
    let s := s.zeroCores cs
    let s := cs.foldl (fun s d => s.setCore d ((s.core d).enter none 0)) s
    let s := s.assignPqs (s.part p).pqMask none
    let s := { s with hst := { s.hst with posted := s.hst.posted.filter fun e => e.1 != some p } }
    pure (0, s.setPart p Partition.absent)

/-! ### Functions and quotas (R296, R299) -/

/-- A range set from its 256 bytes; reserved bits read zero (R57). -/
def rangeSet (bs : List Byte) : RangeSet :=
  Vector.ofFn fun i => BitVec.ofNat 128 (wordAt bs (16 * i.val) 16) &&& ~~~(0x1FFF#128 <<< 107)

/-- VF_BIND (R296). -/
def execVfBind (c : FwCmd) (s : State) : Host.Outcome State Fault Refusal :=
  firmware (.vfBind c) c s fun s => do
    adminOnly c [c.a5]
    need (c.a4.bits 63 5 == 0) 0x01
    let sl := c.a4.bits 4 0
    need (decide (1 ≤ c.a0.toNat) && decide (c.a0.toNat < 1024) && decide (4 ≤ sl) && decide (sl ≤ 16)) 0x03
    let v : Fin 1024 := Fin.ofNat 1024 c.a0.toNat
    let p ← s.namedPart c.a1
    need (inTiers p c.a3 0 2 && c.a3.toNat % 128 == 0) 0x03
    need (s.vf v).part.isNone 0x09
    let (bs, s) ← s.fwRead (some p) c.a2 256
    let pt := s.part p
    need (decide (vget pt.charges 5 0 + 2 ^ sl ≤ vget pt.quotas 5 0)) 0x06
    let s := s.setPart p { pt with charges := vset pt.charges 5 (vget pt.charges 5 0 + 2 ^ sl) }
    pure (0, s.setVf v
      { s.vf v with part := some p, rng := rangeSet bs, qring := c.a3.toNat, qlog := sl, qhead := 0, qtail := 0 })

/-- VF_UNBIND (R296). -/
def execVfUnbind (c : FwCmd) (s : State) : Host.Outcome State Fault Refusal :=
  firmware (.vfUnbind c) c s fun s => do
    adminOnly c [c.a1, c.a2, c.a3, c.a4, c.a5]
    need (decide (c.a0.toNat < 1024)) 0x03
    let v : Fin 1024 := Fin.ofNat 1024 c.a0.toNat
    let f := s.vf v
    match f.part with
    | none => .error (.status 0x04)
    | some p =>
      need (f.qhead == f.qtail) 0x05
      let pt := s.part p
      let s := s.setPart p { pt with charges := vset pt.charges 5 (vget pt.charges 5 0 - 2 ^ f.qlog) }
      pure (0, s.setVf v f.unbind)

/-- Write TVEC of every core of a partition (R285, R299). -/
def State.setTvec (s : State) (p : Fin 32) (w : Word) : State :=
  let s := (allCores.filter fun c => (s.core c).part = some p).foldl (fun s c => s.setCore c { s.core c with tvec := w }) s
  s.setPart p { s.part p with tvec := w }

/-- QUOTA_SET (R299). -/
def execQuotaSet (c : FwCmd) (s : State) : Host.Outcome State Fault Refusal :=
  firmware (.quotaSet c) c s fun s => do
    adminOnly c [c.a3, c.a4, c.a5]
    let p ← s.namedPart c.a0
    let pt := s.part p
    let k := c.a1.toNat
    let v := c.a2.toNat
    if k ≤ 5 then pure (word (vget pt.quotas k 0), s.setPart p { pt with quotas := vset pt.quotas k v })
    else if k = 6 then
      need (decide (1 ≤ v) && decide (v ≤ 65535)) 0x03
      pure (word pt.aging, s.setPart p { pt with aging := v })
    else if k = 7 then
      need (decide (1 ≤ v) && decide (v ≤ 65535)) 0x03
      pure (word pt.promo, s.setPart p { pt with promo := v })
    else if k = 8 then
      need (decide (1 ≤ v) && decide (v ≤ 2 ^ 32 - 1)) 0x03
      pure (word pt.migr, s.setPart p { pt with migr := v })
    else if k = 9 then
      need (inTiers p c.a2 0 2 && v % 8 == 0) 0x03
      pure (pt.tvec, s.setTvec p c.a2)
    else .error (.status 0x03)

/-! ### Step groups and the fabric (R100, R102, R114, R296, R379, R381) -/

/-- A region after its group has been left: step 0 of the next one comes after every boundary of this one (R381, R396). -/
def Region.restart (r : Region) (step : Nat) : Region :=
  { r with begins := if r.begins ≤ step then 0 else 1, untilStep := r.untilStep.map fun _ => 0 }

/-- Leave a step group (R102, R381): what is buffered for it is dropped. -/
def State.leaveGroup (s : State) (g : Fin 16) : State :=
  let gr := s.fab.groups[g.val]
  let s := s.releaseBuf (s.fab.sbuf.filter fun b => b.group = g)
  { s with fab := { s.fab with
    groups := s.fab.groups.set g.val Group.absent
    sbuf := s.fab.sbuf.filter fun b => b.group != g
    full := s.fab.full.filter fun f => f.1 != gr.gid
    seqnos := s.fab.seqnos.filter fun e => e.1 / 2048 != g.val
    acks := s.fab.acks.filter fun a => a.group != some g
    sends := s.fab.sends.filter fun d => match d.req with | .boundary gid .. => gid != gr.gid | .applied gid .. => gid != gr.gid | _ => true
    regions := s.fab.regions.map fun r => if r.2.group = g then (r.1, r.2.restart gr.step) else r } }

/-- Join a group (R100, R102): it starts at step 0, in a life of its own, and no member counts as lost (R379, R381). -/
def State.joinGroup (s : State) (g : Fin 16) (gid : BitVec 16) (ms : List (BitVec 16)) : State :=
  { s with fab := { s.fab with
    joins := s.fab.joins + 1
    peers := s.fab.peers.map fun e => if ms.contains (BitVec.ofNat 16 e.1) then (e.1, { e.2 with lost := false }) else e
    groups := s.fab.groups.set g.val { Group.absent with joined := true, gid := gid, members := ms, life := s.fab.joins + 1 } } }

/-- STEPGROUP_JOIN (R100, R102, R296). -/
def execStepgroupJoin (c : FwCmd) (s : State) : Host.Outcome State Fault Refusal :=
  firmware (.stepgroupJoin c) c s fun s => do
    adminOnly c [c.a3, c.a4, c.a5]
    need (decide (c.a0.toNat < 16) && decide (c.a1.toNat < 2 ^ 16)) 0x03
    let g : Fin 16 := Fin.ofNat 16 c.a0.toNat
    need (s.participants g).isEmpty 0x05
    if c.a2 = 0 then
      need s.fab.groups[g.val].joined 0x04
      pure (0, s.leaveGroup g)
    else
      let gid : BitVec 16 := c.a1.setWidth 16
      need (!(s.fab.groups[g.val].joined) && !(s.fab.groups.toList.any fun r => r.joined && r.gid == gid)) 0x09
      let (hd, s) ← s.fwRead none c.a2 2
      let n := leNat hd
      need (decide (1 ≤ n) && decide (n ≤ 1024)) 0x03
      let (bs, s) ← s.fwRead none (c.a2 + 2) (2 * n)
      let ms := (upTo n).map fun i => BitVec.ofNat 16 (wordAt bs (2 * i) 2)
      need (ms.contains s.fab.pkg) 0x03
      pure (0, s.joinGroup g gid ms)

/-- The places of the parts of a route image, whose layout the manual does not give (log 18): route entries, multicast entries, port
modes, request timeout, capability vectors, incarnations, transport keys. -/
def imgMcast : Nat := 8192
def imgModes : Nat := 43008
def imgTmo : Nat := 43024
def imgCaps : Nat := 43032
def imgIncs : Nat := 51224
def imgLen : Nat := 53784

/-- Route entry `d` of an image; reserved bits are ignored (R7, R114). -/
def imgRoute (bs : List Byte) (d : Nat) : Word := word (wordAt bs (8 * d) 8) &&& 0x87C000000000FFFF#64

/-- Multicast entry `m` of an image (R312). -/
def imgMc (bs : List Byte) (m : Nat) : McEntry :=
  let o := imgMcast + 136 * m
  let h : Word := word (wordAt bs o 8) &&& ~~~(0x7FFF#64 <<< 26)
  ⟨h, (upTo (min 64 (h.bits 55 49))).map fun i => BitVec.ofNat 16 (wordAt bs (o + 8 + 2 * i) 2)⟩

/-- Local consistency of an image (R296): one package of distance 0 at most, distances to 4, members 1 to 64, depth 0 exactly at a
root, port modes 0 and 1. -/
def imageOk (bs : List Byte) : Bool :=
  let rs := (upTo 1024).map (imgRoute bs)
  decide ((rs.filter fun w => routeV w && routeDist w == 0).length ≤ 1) && rs.all (fun w => !routeV w || decide (routeDist w ≤ 4))
    && (upTo 256).all (fun m =>
      let e := imgMc bs m
      !mcV e || (decide (1 ≤ e.hdr.bits 55 49) && decide (e.hdr.bits 55 49 ≤ 64) && mcRoot e == (mcDepth e == 0)
        && decide (mcDepth e ≤ 3)))
    && (upTo 16).all (fun p => decide (wordAt bs (imgModes + p) 1 ≤ 1))

/-- A sparse table of the values at the keys below a bound. -/
def sparseUpTo {α : Type} [DecidableEq α] (z : α) (n : Nat) (f : Nat → α) : List (Nat × α) :=
  (upTo n).filterMap fun i => if f i = z then none else some (i, f i)

/-- The peers of an image: a reload changes no incarnation that is held, but of a peer that is lost (R377, R379; log 18), which is so until
the image names another life of it (R116). -/
def State.imgPeers (s : State) (own : Nat) (bs : List Byte) : List (Nat × Peer) :=
  (upTo 1024).filterMap fun d =>
    let inc := BitVec.ofNat 16 (wordAt bs (imgIncs + 2 * d) 2)
    if d = own then none
    else
      match dget s.fab.peers d with
      | some x => some (d, if x.lost && routeV (imgRoute bs d) then ⟨inc, x.inc == inc⟩ else x)
      | none => if routeV (imgRoute bs d) then some (d, ⟨inc, false⟩) else none

/-- The ports that an image names. -/
def imgPorts (bs : List Byte) : List Nat :=
  ((upTo 1024).flatMap fun d =>
    let w := imgRoute bs d
    if routeV w then (upTo (routeAlt w + 1)).map fun i => w.bits (4 * i + 3) (4 * i) else []).eraseDups

/-- Load the tables of an image. -/
def State.loadRoutes (s : State) (bs : List Byte) : State :=
  let own := ((upTo 1024).find? fun d => routeV (imgRoute bs d) && routeDist (imgRoute bs d) == 0).getD s.fab.pkg.toNat
  let tmo := wordAt bs imgTmo 2
  { s with
    hst := { s.hst with routeIm := bs }
    fab := { s.fab with
      pkg := BitVec.ofNat 16 own
      routes := sparseUpTo 0 1024 (imgRoute bs)
      mcast := (upTo 256).filterMap fun m => if mcV (imgMc bs m) then some (m, imgMc bs m) else none
      uet := BitVec.ofNat 16 (((upTo 16).map fun p => wordAt bs (imgModes + p) 1 * 2 ^ p).sum)
      reqTmo := if tmo = 0 then 20 else tmo
      caps := sparseUpTo 0 1024 fun d => word (wordAt bs (imgCaps + 8 * d) 8)
      peers := s.imgPeers own bs
      down := (imgPorts bs).foldl (fun m p => m &&& ~~~(1#16 <<< p)) s.fab.down } }

/-- Members of this package's groups that an image leaves without a route are lost (R379). -/
def State.loseUnrouted (s : State) : State :=
  let ms := ((s.fab.groups.toList.filter (·.joined)).flatMap (·.members)).eraseDups
  (ms.filter fun m => m != s.fab.pkg && !routeV (s.route m)).foldl (fun s m => s.peerLost m) s

/-- FABRIC_ROUTES_LOAD (R114, R117, R296, R312, R379). -/
def execFabricRoutesLoad (c : FwCmd) (s : State) : Host.Outcome State Fault Refusal :=
  firmware (.fabricRoutesLoad c) c s fun s => do
    adminOnly c [c.a2, c.a3, c.a4, c.a5]
    need (c.a1.toNat == imgLen) 0x03
    let (bs, s) ← s.fwRead none c.a0 imgLen
    need (imageOk bs) 0x03
    pure (0, (s.loadRoutes bs).loseUnrouted)

/-! ### Event rings and power (R291, R303) -/

/-- Report a reset at critical temperature once VF 0 has a ring (R394). -/
def State.reportCritical (s : State) : State :=
  match s.hst.crit with
  | none => s
  | some mask => if (s.vf 0).evlog = 0 then s else ({ s with hst := { s.hst with crit := none } } : State).postVf0 srcFirmware 1 0x08 0 mask

/-- EVQ_CONFIG (R291, R296). -/
def execEvqConfig (c : FwCmd) (s : State) : Host.Outcome State Fault Refusal :=
  firmware (.evqConfig c) c s fun s => do
    let p ← s.ofAny c [c.a3, c.a4]
    need (c.a2.bits 63 32 == 0) 0x01
    let l := c.a2.bits 3 0
    need (decide (c.a0.toNat < 1024) && decide (c.a1.toNat < 2 ^ 52) && iaTier c.a1.toNat == 4 && decide (6 ≤ l) && decide (l ≤ 14)
      && match p with | some q => iaPart c.a1.toNat == q | none => true) 0x03
    let v : Fin 1024 := Fin.ofNat 1024 c.a0.toNat
    need (c.vf = 0 || v == c.vf) 0x02
    let s := s.setVf v
      { s.vf v with evbase := c.a1.toNat, evlog := l, evvec := c.a2.bits 15 4, evmask := BitVec.ofNat 16 (c.a2.bits 31 16) }
    pure (0, s.reportCritical)

/-- POWER_CAP (R303): a state other than Active holds the starts of cards; Active serves the host accesses that wait. -/
def execPowerCap (c : FwCmd) (s : State) : Host.Outcome State Fault Refusal :=
  firmware (.powerCap c) c s fun s => do
    adminOnly c [c.a2, c.a3, c.a4, c.a5]
    need (decide (600 ≤ c.a0.toNat) && decide (c.a0.toNat ≤ 1600) && decide (c.a1.toNat ≤ 2)) 0x03
    let s := { s with hst := { s.hst with cap := c.a0.toNat, pstate := c.a1.toNat } }
    pure (c.a0, s.resumed)

end Sys2Proof.Machine
end

