-- ==== Sys2Proof/Machine/Pages.lean ====
section
/-! DEFINITION. The commands of pages, tables and exports (R61 to R64, R72, R75, R104, R113, R296, R363). -/

namespace Sys2Proof.Machine

/-! ### Pages by their arguments -/

/-- A run of pages that a command names: size code, first base, and their number. -/
structure PageRun where
  code : Nat
  base : Nat
  n    : Nat
deriving DecidableEq, Repr

/-- The bases of a run. -/
def PageRun.bases (r : PageRun) : List Nat := (upTo r.n).map fun i => r.base + i * pageSize r.code

/-- A run within its limits (R296): codes 0 to 9, 1 to 2^20 pages, aligned, in tiers 0 to 4 of the partition, within one tier. -/
def pageRun (p : Fin 32) (ia : Word) (code : Nat) (n : Nat) : Except FwStop PageRun := do
  need (decide (code ≤ 9) && decide (1 ≤ n) && decide (n ≤ 2 ^ 20) && inTiers p ia 0 4) 0x03
  need (ia.toNat % pageSize code == 0 && decide (iaOff ia.toNat + n * pageSize code ≤ 2 ^ 44)) 0x03
  pure ⟨code, ia.toNat, n⟩

/-- The entry of a page of one size at one of its homes. -/
def State.pteOf (s : State) (code base : Nat) : Option Hit :=
  match homeOf base with
  | none => none
  | some h => hitOf s.hm.ptes h base code

/-- Every page of a run is present with its size. -/
def State.pagesPresent (s : State) (r : PageRun) : Bool := r.bases.all fun b => (s.pteOf r.code b).isSome

/-- A page is stepped, or lies in an export that is to become so (R296; log 19). -/
def State.steppedPage (s : State) (r : PageRun) : Bool :=
  r.bases.any fun b => ((s.pteOf r.code b).any fun h => pteStp h.pte)
    || s.fab.regions.any fun e => overlap e.2.base e.2.bytes b (pageSize r.code)

/-- The bytes of a run. -/
def PageRun.bytes (r : PageRun) : Nat := r.n * pageSize r.code

/-- An EXPORT_REGION that has begun still waits for the boundary of an export's group (R294; log 19). -/
def State.exporting (s : State) (e : Nat) (r : Region) : Bool :=
  let gr := s.fab.groups[r.group.val]
  gr.joined && gr.failed.isNone && decide (gr.step < r.begins) && s.hst.fwq.any fun f =>
    f.begun.isSome && (match f.instr with | some (.exportRegion c) => c.a2.bits 5 0 == e | _ => false)

/-- An export that a command is still making meets some bytes: no other command sees it half done, so those that would wait (R294). -/
def State.exportingIn (s : State) (base n : Nat) : Bool :=
  s.fab.regions.any fun e => overlap e.2.base e.2.bytes base n && s.exporting e.1 e.2

/-! ### MEM_MAP and MEM_UNMAP -/

/-- A present entry of any size shares a byte with a run. -/
def State.runTaken (s : State) (p : Fin 32) (r : PageRun) : Bool :=
  (s.hm.ptes.map fun e => pteAt e.1 e.2).any fun e => e.part = p && pteP e.pte && overlap e.base (pageSize e.code) r.base r.bytes

/-- The quota that pages of a tier are charged to (R77); tier 4 to none. -/
def pageQuota (tier : Nat) : Option Nat := if tier ≤ 2 then some 0 else if tier = 3 then some 2 else none

/-- Add to a charge of a partition, or take from it. -/
def State.charge (s : State) (p : Fin 32) (k : Nat) (n : Nat) : State :=
  let pt := s.part p
  s.setPart p { pt with charges := vset pt.charges k (vget pt.charges k 0 + n) }

def State.uncharge (s : State) (p : Fin 32) (k : Nat) (n : Nat) : State :=
  let pt := s.part p
  s.setPart p { pt with charges := vset pt.charges k (vget pt.charges k 0 - n) }

/-- The entry that MEM_MAP makes, without its frame (R62, R296). -/
def mapPte (code : Nat) (attr : Word) : Word :=
  word (2 ^ 63 + (if attr.bit 4 then 2 ^ 62 else 0) + (if attr.bit 5 then 2 ^ 61 else 0) + (if attr.bit 9 then 2 ^ 53 else 0)
    + code * 2 ^ 8 + attr.bits 8 6 * 2 ^ 5)

/-- Map the pages of a run one by one: at frames that firmware allocates, or in tier 4 at those given. -/
def State.mapPages (s : State) (p : Fin 32) (code : Nat) (w : Word) (host : Nat) : List Nat → Option State
  | [] => some s
  | b :: t =>
    match (if iaTier b = 4 then some [((16 : Fin 17), host)] else s.framesFor b (pageSize code) false) with
    | none => none
    | some fs => State.mapPages (s.placePage p code b fs fun _ => w) p code w (host + pageSize code) t

/-- A status for a charge that a quota cannot take, counted at the home of an IA (R367, R369; log 40). -/
def State.overCharge (s : State) (ia : Nat) : FwStop :=
  .after (match homeOf ia with | some h => s.countHome .quotaFail h | none => s) 0x06

/-- A charge that a quota must take; of nothing there is no charge (R367). -/
def State.needQuota (s : State) (p : Fin 32) (k n ia : Nat) : Except FwStop Unit :=
  let pt := s.part p
  if n = 0 ∨ vget pt.charges k 0 + n ≤ vget pt.quotas k 0 then .ok () else .error (s.overCharge ia)

/-- MEM_MAP (R62, R77, R296, R367). -/
def execMemMap (c : FwCmd) (s : State) : Host.Outcome State Fault Refusal :=
  firmware (.memMap c) c s fun s => do
    let p ← s.ofPart c [c.a4]
    need (c.a1.bits 63 10 == 0) 0x01
    let r ← pageRun p c.a0 (c.a1.bits 3 0) c.a2.toNat
    let tier := iaTier r.base
    need (!c.a1.bit 9 || tier == 3) 0x03
    need (if tier = 4 then c.a3.toNat % pageSize r.code == 0 && decide (c.a3.toNat + r.bytes ≤ 2 ^ 52) else c.a3 == 0) 0x03
    need (!s.runTaken p r) 0x09
    match pageQuota tier with
    | none => pure ()
    | some k => s.needQuota p k r.bytes r.base
    match s.mapPages p r.code (mapPte r.code c.a1) c.a3.toNat r.bases with
    | none => .error (.status 0x07)
    | some t => pure (word r.n, match pageQuota tier with | none => t | some k => t.charge p k r.bytes)

/-- Bytes of a table's hot area (R75). -/
def Table.areaBytes (t : Table) : Nat := if t.hotLog = 0xFF then 0 else 16 * 2 ^ t.hotLog * t.slot

/-- Unmap one page and release its frames. -/
def State.unmapPage (s : State) (p : Fin 32) (code base : Nat) : State :=
  let size := pageSize code
  let tier := iaTier base
  let moved := (s.pteOf code base).any Hit.migrated
  let twice := s.hm.uncoded.contains base
  let area := s.hm.areaPages.contains base
  let ks := (pageHomes base size).map fun h => pteKey h p code base
  let s := { s with hm := { s.hm with
    ptes := s.hm.ptes.filter fun e => !(ks ++ ks.map movedKey).contains e.1
    heat := s.hm.heat.filter fun e => !ks.contains e.1
    uncoded := s.hm.uncoded.filter fun b => b != base
    areaPages := s.hm.areaPages.filter fun b => b != base } }
  let s := match (if area then none else pageQuota tier) with
    | none => s
    | some k => s.uncharge p k (if twice then 2 * size else size)
  if moved then s.uncharge p 0 size else s

/-- MEM_UNMAP (R63, R77, R296). It may name the pages of a hot area, which no rule forbids (log 44). -/
def execMemUnmap (c : FwCmd) (s : State) : Host.Outcome State Fault Refusal :=
  firmware (.memUnmap c) c s fun s => do
    let p ← s.ofPart c [c.a3, c.a4]
    need (c.a1.bits 63 4 == 0) 0x01
    let r ← pageRun p c.a0 (c.a1.bits 3 0) c.a2.toNat
    need (s.pagesPresent r) 0x04
    if s.exportingIn r.base r.bytes then .error .wait
    need (!s.steppedPage r) 0x05
    if s.pendingIn r.base r.bytes then .error .wait
    pure (word r.n, r.bases.foldl (fun s b => s.unmapPage p r.code b) s)

/-! ### MEM_PIN, MEM_PROTECT, MEM_SPLIT -/

/-- MEM_PIN (R296). -/
def execMemPin (c : FwCmd) (s : State) : Host.Outcome State Fault Refusal :=
  firmware (.memPin c) c s fun s => do
    let p ← s.ofPart c [c.a4]
    need (c.a1.bits 63 4 == 0 && c.a3.bits 63 1 == 0) 0x01
    let r ← pageRun p c.a0 (c.a1.bits 3 0) c.a2.toNat
    need (s.pagesPresent r) 0x04
    if s.exportingIn r.base r.bytes then .error .wait
    need (!s.steppedPage r) 0x05
    if s.pendingIn r.base r.bytes then .error .wait
    pure (0, r.bases.foldl (fun s b => s.mapPage p r.code b fun w => pteSet w 61 (c.a3.bit 0)) s)

/-- MEM_PROTECT (R63, R296): on a stepped page it may set W alone. It may name the pages of a hot area (log 44). -/
def execMemProtect (c : FwCmd) (s : State) : Host.Outcome State Fault Refusal :=
  firmware (.memProtect c) c s fun s => do
    let p ← s.ofPart c [c.a4]
    need (c.a1.bits 63 4 == 0 && c.a3.bits 63 1 == 0) 0x01
    let r ← pageRun p c.a0 (c.a1.bits 3 0) c.a2.toNat
    need (s.pagesPresent r) 0x04
    if s.exportingIn r.base r.bytes then .error .wait
    need (!s.steppedPage r || c.a3.bit 0) 0x05
    if s.pendingIn r.base r.bytes then .error .wait
    pure (0, r.bases.foldl (fun s b => s.mapPage p r.code b fun w => pteSet w 62 (c.a3.bit 0)) s)

/-- The place of a small page in the frame of a large one at a home (R64). -/
def Hit.smallAt (large : Hit) (base : Nat) : Nat := homeLocal (iaTier large.base) large.size (base - large.base)

/-- The entry of a small page with its frame, from the large entry at a home, whose attributes it keeps (R64). What the coded blocks of a
large page mean after a split the manual does not say: each small page is decoded by itself (log 41). -/
def smallPte (large : Hit) (code base : Nat) : Word :=
  let w := (large.pte &&& ~~~(0xF#64 <<< 8)) ||| word (code * 2 ^ 8)
  pteWithFrame w (pteFrame large.pte + large.smallAt base)

/-- The entries of a small page at one home added to a table: its own, and for a migrated page the mark of where it came from. -/
def putSmall (ptes m : Sparse Word) (l : Hit) (k new small : Nat) : Sparse Word :=
  let m := sset 0 m k (smallPte l new small)
  if l.hbm then sset 0 m (movedKey k) (word (pteFrame (sget 0 ptes (movedKey l.key)) + l.smallAt small) ||| 1) else m

/-- Install the small entries of one small page, at its homes. -/
def State.splitInto (s : State) (p : Fin 32) (old new base small : Nat) : State :=
  { s with hm := { s.hm with ptes := (pageHomes small (pageSize new)).foldl (fun m h =>
      match hitOf s.hm.ptes h base old with
      | none => m
      | some l => putSmall s.hm.ptes m l (pteKey h p new small) new small) s.hm.ptes } }

/-- The small pages bear a mark that the large one bore. -/
def splitMark (l : List Nat) (large : Nat) (smalls : List Nat) : List Nat :=
  if l.contains large then smalls ++ l.filter (· != large) else l

/-- MEM_SPLIT (R64, R296, R359). -/
def execMemSplit (c : FwCmd) (s : State) : Host.Outcome State Fault Refusal :=
  firmware (.memSplit c) c s fun s => do
    let p ← s.ofPart c [c.a2, c.a3, c.a4]
    need (c.a1.bits 63 8 == 0) 0x01
    let old := c.a1.bits 3 0
    let new := c.a1.bits 7 4
    need (decide (new < old)) 0x03
    let r ← pageRun p c.a0 old 1
    need (s.pagesPresent r) 0x04
    if s.exportingIn r.base r.bytes || s.pendingIn r.base r.bytes then .error .wait
    let n := pageSize old / pageSize new
    let smalls := (upTo n).map fun i => r.base + i * pageSize new
    let ks := (pageHomes r.base (pageSize old)).map fun h => pteKey h p old r.base
    let t := smalls.foldl (fun s b => s.splitInto p old new r.base b) s
    pure (word n, { t with hm := { t.hm with
      ptes := t.hm.ptes.filter fun e => !(ks ++ ks.map movedKey).contains e.1
      heat := t.hm.heat.filter fun e => !ks.contains e.1
      uncoded := splitMark t.hm.uncoded r.base smalls
      areaPages := splitMark t.hm.areaPages r.base smalls } })

/-! ### PAGE_RESTORE (R363) -/

/-- The fresh frames of a page; the host's frames of tier 4 stay. -/
def State.freshFrames (s : State) (h : Hit) : Option (List (Fin 17 × Nat)) :=
  if iaTier h.base = 4 && !h.migrated then some ((pageHomes h.base h.size).filterMap fun d =>
    (hitOf s.hm.ptes d h.base h.code).map fun e => (d, pteFrame e.pte))
  else s.framesFor h.base h.size h.migrated

/-- Point every entry of a quarantined frame of an array at its fresh frame and lift the quarantine, in every partition that maps it. -/
def liftAt (arr : Fin 17) (old new n : Nat) (ptes : Sparse Word) : Sparse Word :=
  ptes.map fun e =>
    let f := pteFrame e.2
    if pteP e.2 && arrayOf (pteAt e.1 e.2).home (movedAt ptes e.1) = arr && decide (old ≤ f) && decide (f < old + n) then
      (e.1, pteSet (pteSet (pteWithFrame e.2 (new + (f - old))) 52 false) 53 false)
    else e

/-- Write the bytes of a row that lie outside a page beneath the directory; words written whole are in error no longer (R354). -/
def State.putOutside (s : State) (h : Hit) (ia : Nat) (bs : List Byte) : State :=
  let out := fun (a : Nat) => decide (a < h.base) || decide (h.base + h.size ≤ a)
  let gs := ((upTo bs.length).filter fun i => (ia + i) % 8 = 0 && i + 8 ≤ bs.length && out (ia + i)).map (ia + ·)
  let s := gs.foldl (fun s g => s.rewriteWords g 8) s
  (bs.zipIdx.filter fun b => out (ia + b.2)).foldl (fun s b =>
    ((s.codedIn (ia + b.2) 1).foldl State.uncode s).rawWrite (ia + b.2) [b.1]) s

/-- The hot copies of rows in a page that is to be restored: what lies outside it is written back, and the copies go; lost rows stay lost
(R362, R363). -/
def State.dropCopies (s : State) (h : Hit) : State :=
  let p := iaPart h.base
  let mine := s.hm.hot.filter fun c => c.part = p && !c.lost &&
    (dget (s.part p).tables c.table).any fun t => overlap (t.rowIa c.row) t.rowBytes h.base h.size
  let s := mine.foldl (fun s c =>
    match dget (s.part p).tables c.table with
    | some t => if c.dirty then s.putOutside h (t.rowIa c.row) c.data else s
    | none => s) s
  { s with hm := { s.hm with hot := s.hm.hot.filter fun c => !mine.contains c } }

/-- Restore a page, whose rows have no hot copies left, into fresh frames. -/
def State.restorePage (s : State) (h : Hit) (frames : List (Fin 17 × Nat)) (bs : List Byte) : State :=
  let n := Machine.frameBytes (iaTier h.base) h.size
  let ptes := frames.foldl (fun m f =>
    match hitOf s.hm.ptes f.1 h.base h.code with
    | none => m
    | some o => liftAt o.arr (pteFrame o.pte) f.2 n m) s.hm.ptes
  let s := { s with hm := { s.hm with ptes := ptes } }
  (s.freshWords h).rawWrite h.base bs

/-- Rows whose ways lie in a hot-area page are absent again, when it is restored with source 0 (R362). -/
def State.clearLost (s : State) (h : Hit) : State :=
  let rows := s.rowsIn (iaPart h.base) h.base h.size
  { s with hm := { s.hm with hot := s.hm.hot.filter fun r => !(rows.contains r && r.lost) } }

/-- PAGE_RESTORE (R296, R329, R362, R363): by any partition that maps the page, or VF 0. It begins, and accesses of peers are answered with
a hint until it has written the page. -/
def execPageRestore (c : FwCmd) (s : State) : Host.Outcome State Fault Refusal :=
  firmware (.pageRestore c) c s fun s => do
    let p ← s.ofPart c [c.a2, c.a3, c.a4]
    need (inTiers p c.a0 0 4) 0x03
    match lookup s.hm.ptes c.a0.toNat with
    | none => .error (.status 0x04)
    | some h =>
      need (ptePsn h.pte) 0x04
      need (h.base == c.a0.toNat) 0x03
      let (bs, t) ← (if c.a1 = 0 then .ok (List.replicate h.size 0, s) else s.fwRead (some p) c.a1 h.size)
      let t := t.dropCopies h
      if s.pageOut h then .error .wait
      match t.freshFrames h with
      | none => .error (.status 0x07)
      | some fs =>
        if (s.fwBegun c.vf).isNone then .error (.begun s 0)
        if s.pendingIn h.base h.size then .error .wait
        let u := t.restorePage h fs bs
        pure (0, if c.a1 = 0 then u.clearLost h else u)

/-! ### Tables (R72 to R75) -/

/-- A descriptor from its 64 bytes (R72). -/
def tableOf (bs : List Byte) : Table where
  base := wordAt bs 0 8
  rows := wordAt bs 8 8
  stride := wordAt bs 0x10 4
  elems := wordAt bs 0x14 2
  fmt := wordAt bs 0x16 1
  shard := wordAt bs 0x17 1 % 4
  shcnt := wordAt bs 0x18 4
  owner := wordAt bs 0x20 8
  ranges := wordAt bs 0x28 8
  opt := wordAt bs 0x30 1
  hotLog := wordAt bs 0x31 1
  optBase := wordAt bs 0x38 8
  hotArea := 0

/-- The reserved fields of a descriptor are zero. -/
def descClean (bs : List Byte) : Bool := wordAt bs 0x17 1 / 4 == 0 && wordAt bs 0x1C 4 == 0 && wordAt bs 0x32 6 == 0

/-- The limits of R72; the IAs of a descriptor lie in the partition. The tiers of OWNER, RANGES and OPTBASE, which R72 does not limit,
are those of the memory that the use of each reads or writes (log 44). -/
def Table.ok (t : Table) (p : Fin 32) : Bool :=
  inTiers p (word t.base) 0 3 && t.base % 8 == 0 && decide (1 ≤ t.rows) && decide (t.rows ≤ 2 ^ 40)
    && decide (t.fmt ≤ 3) && decide (1 ≤ t.elems) && (t.fmt != 1 || t.elems % 2 == 0) && decide (t.rowBytes ≤ 4096)
    && t.stride % 8 == 0 && decide (t.rowBytes ≤ t.stride) && decide (t.shard ≤ 2)
    && decide (1 ≤ t.shcnt) && decide (t.shcnt ≤ 1024) && (t.shard != 0 || t.shcnt == 1)
    && inTiers p (word t.owner) 0 4 && (if t.shard = 2 then inTiers p (word t.ranges) 0 4 else t.ranges == 0)
    && decide (t.opt ≤ 2) && (t.opt != 1 || t.fmt == 3) && (decide (t.hotLog ≤ 24) || t.hotLog == 0xFF)
    && (if t.opt = 2 then inTiers p (word t.optBase) 0 3 else t.optBase == 0)

/-- The pages that firmware maps for a hot area: of the least size that holds it, or of the greatest (log 8). -/
def hotPages (n : Nat) : Nat × Nat :=
  let code := ((upTo 10).find? fun c => decide (n ≤ pageSize c)).getD 9
  (code, (n + pageSize code - 1) / pageSize code)

/-- The IA that firmware assigns to a hot area: the lowest aligned run of tier 0 without a present page (log 8). -/
def State.hotIa (s : State) (p : Fin 32) (code n : Nat) : Option Nat :=
  let size := pageSize code
  let lo := p.val * 2 ^ 47
  let used := ((s.hm.ptes.map fun e => pteAt e.1 e.2).filter fun e => e.part = p && pteP e.pte && iaTier e.base == 0).map fun e =>
    (e.base, pageSize e.code)
  let starts := lo :: used.map fun u => (u.1 + u.2 + size - 1) / size * size
  let ok := starts.filter fun a => decide (a + n * size ≤ lo + 2 ^ 44) && used.all fun u => !overlap a (n * size) u.1 u.2
  match ok with
  | [] => none
  | a :: t => some (t.foldl min a)

/-- Assign the hot area of a table: its IA, and pages that no access may write. -/
def State.hotAssign (s : State) (p : Fin 32) (n : Nat) : Option (Nat × State) :=
  if n = 0 then some (0, s)
  else
    let (code, k) := hotPages n
    match s.hotIa p code k with
    | none => none
    | some ia =>
      let bases := (upTo k).map fun i => ia + i * pageSize code
      (s.mapPages p code (word (2 ^ 63 + 2 ^ 61 + code * 2 ^ 8)) 0 bases).map fun t =>
        (ia, { t with hm := { t.hm with areaPages := bases ++ t.hm.areaPages } })

/-- TABLE_DEFINE (R72, R75, R77, R296). -/
def execTableDefine (c : FwCmd) (s : State) : Host.Outcome State Fault Refusal :=
  firmware (.tableDefine c) c s fun s => do
    let p ← s.ofPart c [c.a2, c.a3, c.a4]
    need (decide (c.a0.toNat < 4096)) 0x03
    let (bs, s) ← s.fwRead (some p) c.a1 64
    need (descClean bs) 0x01
    let t := tableOf bs
    need (t.ok p) 0x03
    need (dget (s.part p).tables c.a0.toNat).isNone 0x09
    let (code, k) := hotPages t.areaBytes
    s.needQuota p 1 t.areaBytes ((s.hotIa p code k).getD (p.val * 2 ^ 47))
    match s.hotAssign p t.areaBytes with
    | none => .error (.status 0x07)
    | some (ia, s) =>
      let s := s.charge p 1 t.areaBytes
      let pt := s.part p
      pure (word ia, s.setPart p { pt with tables := sput pt.tables c.a0.toNat { t with hotArea := ia } })

/-- The dirty rows of a table that can be written back. -/
def State.dirtyRows (s : State) (p : Fin 32) (id : Nat) : List HotRow :=
  s.hm.hot.filter fun h => h.part = p && h.table = id && h.dirty && !h.lost

/-- Write back the dirty rows of a table: they become clean (R74). -/
def State.flushTable (s : State) (p : Fin 32) (id : Nat) (t : Table) : State :=
  (s.dirtyRows p id).foldl (fun s h => s.flushRow t h) s

/-- The bytes of the pages that firmware maps for a table's hot area. -/
def Table.areaSpan (t : Table) : Nat :=
  if t.areaBytes = 0 then 0 else let (code, k) := hotPages t.areaBytes; k * pageSize code

/-- Unmap what is left of the pages that firmware has mapped for a hot area, whatever sizes they have been split into. -/
def State.unmapHot (s : State) (p : Fin 32) (t : Table) : State :=
  let mine := s.hm.areaPages.filter fun b => decide (t.hotArea ≤ b) && decide (b < t.hotArea + t.areaSpan)
  { s with hm := { s.hm with
      ptes := s.hm.ptes.filter fun e => !((pteAt e.1 e.2).part == p && mine.contains (pteAt e.1 e.2).base)
      areaPages := s.hm.areaPages.filter fun b => !mine.contains b } }

/-- TABLE_DROP (R74, R77, R296). -/
def execTableDrop (c : FwCmd) (s : State) : Host.Outcome State Fault Refusal :=
  firmware (.tableDrop c) c s fun s => do
    let p ← s.ofPart c [c.a2, c.a3, c.a4]
    need (c.a1.bits 63 1 == 0) 0x01
    need (decide (c.a0.toNat < 4096)) 0x03
    let id := c.a0.toNat
    match dget (s.part p).tables id with
    | none => .error (.status 0x04)
    | some t =>
      if (s.dirtyRows p id).any fun h => s.homeDown (t.rowIa h.row) then .error .wait
      if !c.a1.bit 0 && s.pendingIn t.hotArea t.areaSpan then .error .wait
      let n := ((s.dirtyRows p id).filter fun h => !h.back).length
      let s := s.flushTable p id t
      if c.a1.bit 0 then pure (word n, s)
      else
        let s := { s with hm := { s.hm with hot := s.hm.hot.filter fun h => !(h.part = p && h.table = id) } }
        let s := (s.unmapHot p t).uncharge p 1 t.areaBytes
        pure (word n, s.setPart p { s.part p with tables := sdel (s.part p).tables id })

/-! ### Exports (R104, R113, R296) -/

/-- The pages under a region: all present, none in another region, none reaching beyond it, none poisoned. -/
def State.exportPages (s : State) (base bytes : Nat) : Except FwStop Unit := do
  need ((upTo (bytes / 4096)).all fun i => (lookup s.hm.ptes (base + 4096 * i)).isSome) 0x04
  let hs := s.pagesOf base bytes
  need (hs.all fun h => decide (base ≤ h.base) && decide (h.base + h.size ≤ base + bytes)) 0x09
  need (!(s.fab.regions.any fun r => overlap r.2.base r.2.bytes base bytes)) 0x09
  match hs.find? fun h => ptePsn h.pte with
  | some h => .error (s.poisonedAgain h)
  | none => pure ()

/-- The boundary that an export waits for is past: its region is stepped or gone, or its group has failed or has been left (R294, R381). -/
def State.exportSettled (s : State) (e : Nat) : Bool :=
  match dget s.fab.regions e with
  | none => true
  | some r =>
    let gr := s.fab.groups[r.group.val]
    !gr.joined || gr.failed.isSome || decide (r.begins ≤ gr.step)

/-- EXPORT_REGION (R63, R104, R294, R296): stepped from the next boundary of its group; its record follows that boundary, and the accesses
that were confirmed before it. -/
def execExportRegion (c : FwCmd) (s : State) : Host.Outcome State Fault Refusal :=
  firmware (.exportRegion c) c s fun s => do
    let e := c.a2.bits 5 0
    match s.fwBegun c.vf with
    | some n => if s.exportSettled e && !s.pendingIn c.a0.toNat c.a1.toNat then pure (n, s) else .error .wait
    | none =>
    let p ← s.ofPart c [c.a3, c.a4]
    need (c.a2.bits 63 16 == 0) 0x01
    let rule := c.a2.bits 12 10
    let et := c.a2.bits 15 13
    let bytes := c.a1.toNat
    need (inTiers p c.a0 0 0 && c.a0.toNat % 4096 == 0 && bytes % 4096 == 0 && decide (1 ≤ bytes) && decide (bytes ≤ 2 ^ 28)
      && decide (iaOff c.a0.toNat + bytes ≤ 2 ^ 44) && decide (rule ≤ 5) && (rule == 0 || decide (et ≤ 4))) 0x03
    let g : Fin 16 := Fin.ofNat 16 (c.a2.bits 9 6)
    let gr := s.fab.groups[g.val]
    need gr.joined 0x04
    if s.exportingIn c.a0.toNat bytes || (dget s.fab.regions e).any (s.exporting e) then .error .wait
    need (dget s.fab.regions e).isNone 0x09
    s.exportPages c.a0.toNat bytes
    let r : Region := ⟨p, c.a0.toNat, bytes, g, rule, et, gr.step + 1, none⟩
    .error (.begun { s with fab := { s.fab with regions := sput s.fab.regions e r } } (word gr.step))

/-- REVOKE_REGION (R113, R296). -/
def execRevokeRegion (c : FwCmd) (s : State) : Host.Outcome State Fault Refusal :=
  firmware (.revokeRegion c) c s fun s => do
    let p ← s.ofPart c [c.a1, c.a2, c.a3, c.a4]
    need (decide (c.a0.toNat < 64)) 0x03
    match dget s.fab.regions c.a0.toNat with
    | none => .error (.status 0x04)
    | some r =>
      need (decide (r.part = p)) 0x04
      if s.exporting c.a0.toNat r then .error .wait
      let n := r.untilStep.getD s.fab.groups[r.group.val].step
      pure (word n, { s with fab := { s.fab with regions := sput s.fab.regions c.a0.toNat { r with untilStep := some n } } })

end Sys2Proof.Machine
end

