-- ==== Sys2Proof/Machine/Resets.lean ====
section
/-! DEFINITION. Resets and bring-up (R116, R300, R303, R304, R394). -/

namespace Sys2Proof.Machine

/-- The next incarnation number (R116): 65,535 is followed by 1. -/
def nextInc (i : BitVec 16) : BitVec 16 := if i = 65535 then 1 else i + 1

/-- The part after a bring-up (R304). What lies in non-volatile storage stays (R116, R302), the staged image runs (R300), and host memory
is the host's. A cold reset alone clears the counters and the event numbers (R369, R382, R397) and, by log 4, the memory behind the
part; the model's own counters run on (log 1, 2). -/
def State.bringUp (s : State) (cold : Bool) : State :=
  { State.reset with
    agenda := s.agenda
    free := s.free
    stamp := s.stamp
    clock := s.clock
    hm := { Homes.reset with
      mem := if cold then s.hm.mem.filter fun e => e.1 / 2 ^ 52 == 16 else s.hm.mem
      bad := if cold then [] else s.hm.bad
      counts := if cold then [] else s.hm.counts }
    fab := { Fabric.reset with inc := nextInc s.fab.inc }
    hst := { HostSide.reset with
      out := s.hst.out
      fwver := (s.hst.staged.map Config.imageVersion).getD s.hst.fwver
      fwim := match s.hst.staged with | some im => some im | none => s.hst.fwim
      hssIdx := s.hst.hssIdx
      evSeq := if cold then [] else s.hst.evSeq
      crit := s.hst.crit } }

/-- COLD_RESET (R300, R304). -/
def execColdReset (imageOk : Bool) (s : State) : Host.Outcome State Fault Refusal :=
  if imageOk then .next (s.bringUp true) else .fault .romRefused

/-- WARM_RESET (R116, R300, R304). -/
def execWarmReset (imageOk : Bool) (s : State) : Host.Outcome State Fault Refusal :=
  if imageOk then .next (s.bringUp false) else .fault .romRefused

/-- The partitions that exist, as a mask (R399). -/
def State.liveParts (s : State) : Word := partMask ((List.finRange 32).filter fun p => (s.part p).live)

/-- CRITICAL_TEMPERATURE (R303, R394, R399): the package resets, and its partitions are lost; firmware reports it once VF 0 has an event
ring again. -/
def execCriticalTemperature (s : State) : Host.Outcome State Fault Refusal :=
  let lost := s.liveParts
  let s := s.bringUp false
  let s := s.count (cntPackage 8)
  .next { s with hst := { s.hst with crit := some lost } }

end Sys2Proof.Machine
end

