-- ==== Sys2Proof/Machine/Dispatch.lean ====
section
/-! DEFINITION. One arm per constructor of Instr, each a direct call of its meaning. -/

namespace Sys2Proof.Machine

def exec (i : Instr) (s : State) : Host.Outcome State Fault Refusal :=
  match i with
  | .nop => Sys2Proof.Machine.execNop s
  | .br d => Sys2Proof.Machine.execBr d s
  | .bcc c a b d => Sys2Proof.Machine.execBcc c a b d s
  | .bbitEq a b d => Sys2Proof.Machine.execBbitEq a b d s
  | .bbitNe a b d => Sys2Proof.Machine.execBbitNe a b d s
  | .call d t => Sys2Proof.Machine.execCall d t s
  | .jmp a k => Sys2Proof.Machine.execJmp a k s
  | .loop rot a d => Sys2Proof.Machine.execLoop rot a d s
  | .loopi rot n d => Sys2Proof.Machine.execLoopi rot n d s
  | .rep a n => Sys2Proof.Machine.execRep a n s
  | .lbrk m => Sys2Proof.Machine.execLbrk m s
  | .trap c => Sys2Proof.Machine.execTrap c s
  | .ueret => Sys2Proof.Machine.execUeret s
  | .waitc ld st cp mx rm => Sys2Proof.Machine.execWaitc ld st cp mx rm s
  | .notify => Sys2Proof.Machine.execNotify s
  | .yield => Sys2Proof.Machine.execYield s
  | .add d a b => Sys2Proof.Machine.execAdd d a b s
  | .sub d a b => Sys2Proof.Machine.execSub d a b s
  | .mul d a b => Sys2Proof.Machine.execMul d a b s
  | .mulh d a b => Sys2Proof.Machine.execMulh d a b s
  | .mulhn d a b => Sys2Proof.Machine.execMulhn d a b s
  | .div d a b => Sys2Proof.Machine.execDiv d a b s
  | .divn d a b => Sys2Proof.Machine.execDivn d a b s
  | .rem d a b => Sys2Proof.Machine.execRem d a b s
  | .remn d a b => Sys2Proof.Machine.execRemn d a b s
  | .and d a b => Sys2Proof.Machine.execAnd d a b s
  | .or d a b => Sys2Proof.Machine.execOr d a b s
  | .xor d a b => Sys2Proof.Machine.execXor d a b s
  | .andn d a b => Sys2Proof.Machine.execAndn d a b s
  | .shl d a b => Sys2Proof.Machine.execShl d a b s
  | .shr d a b => Sys2Proof.Machine.execShr d a b s
  | .sar d a b => Sys2Proof.Machine.execSar d a b s
  | .ror d a b => Sys2Proof.Machine.execRor d a b s
  | .min d a b => Sys2Proof.Machine.execMin d a b s
  | .max d a b => Sys2Proof.Machine.execMax d a b s
  | .minn d a b => Sys2Proof.Machine.execMinn d a b s
  | .maxn d a b => Sys2Proof.Machine.execMaxn d a b s
  | .cmp c d a b => Sys2Proof.Machine.execCmp c d a b s
  | .clz d a => Sys2Proof.Machine.execClz d a s
  | .ctz d a => Sys2Proof.Machine.execCtz d a s
  | .popc d a => Sys2Proof.Machine.execPopc d a s
  | .ext sgn d a b => Sys2Proof.Machine.execExt sgn d a b s
  | .bfx sgn d a lo w => Sys2Proof.Machine.execBfx sgn d a lo w s
  | .bfi d a lo w => Sys2Proof.Machine.execBfi d a lo w s
  | .ldi d v => Sys2Proof.Machine.execLdi d v s
  | .mov d a => Sys2Proof.Machine.execMov d a s
  | .mfsr d idx => Sys2Proof.Machine.execMfsr d idx s
  | .mtsr idx a => Sys2Proof.Machine.execMtsr idx a s
  | .bset d a b => Sys2Proof.Machine.execBset d a b s
  | .bclr d a b => Sys2Proof.Machine.execBclr d a b s
  | .crc sz d a b => Sys2Proof.Machine.execCrc sz d a b s
  | .ld sgn sz lm d a k => Sys2Proof.Machine.execLd sgn sz lm d a k s
  | .st sz lm v a k => Sys2Proof.Machine.execSt sz lm v a k s
  | .lda sgn sz sc d a k => Sys2Proof.Machine.execLda sgn sz sc d a k s
  | .str sz sc v a k => Sys2Proof.Machine.execStr sz sc v a k s
  | .ldm lm d n a k => Sys2Proof.Machine.execLdm lm d n a k s
  | .stm lm d n a k => Sys2Proof.Machine.execStm lm d n a k s
  | .amo op w8 lm o sc d a b => Sys2Proof.Machine.execAmo op w8 lm o sc d a b s
  | .cas w8 lm o sc d a b => Sys2Proof.Machine.execCas w8 lm o sc d a b s
  | .red op w8 lm o sc a b => Sys2Proof.Machine.execRed op w8 lm o sc a b s
  | .spill sel a n => Sys2Proof.Machine.execSpill sel a n s
  | .fill d sel n => Sys2Proof.Machine.execFill d sel n s
  | .pref l2 a k => Sys2Proof.Machine.execPref l2 a k s
  | .invl1 => Sys2Proof.Machine.execInvl1 s
  | .layer a n => Sys2Proof.Machine.execLayer a n s
  | .mark k sc => Sys2Proof.Machine.execMark k sc s
  | .tpost t b => Sys2Proof.Machine.execTpost t b s
  | .twait t b => Sys2Proof.Machine.execTwait t b s
  | .qstat d n => Sys2Proof.Machine.execQstat d n s
  | .bar level => Sys2Proof.Machine.execBar level s
  | .step d => Sys2Proof.Machine.execStep d s
  | .flagw d a t => Sys2Proof.Machine.execFlagw d a t s
  | .vadd t d a b => Sys2Proof.Machine.execVadd t d a b s
  | .vsub t d a b => Sys2Proof.Machine.execVsub t d a b s
  | .vmul t d a b => Sys2Proof.Machine.execVmul t d a b s
  | .vfma t d a b => Sys2Proof.Machine.execVfma t d a b s
  | .vmin t d a b => Sys2Proof.Machine.execVmin t d a b s
  | .vmax t d a b => Sys2Proof.Machine.execVmax t d a b s
  | .vabs t d a => Sys2Proof.Machine.execVabs t d a s
  | .vneg t d a => Sys2Proof.Machine.execVneg t d a s
  | .vand t d a b => Sys2Proof.Machine.execVand t d a b s
  | .vor t d a b => Sys2Proof.Machine.execVor t d a b s
  | .vxor t d a b => Sys2Proof.Machine.execVxor t d a b s
  | .vnot t d a => Sys2Proof.Machine.execVnot t d a s
  | .vshl t d a b => Sys2Proof.Machine.execVshl t d a b s
  | .vshr t d a b => Sys2Proof.Machine.execVshr t d a b s
  | .vsar t d a b => Sys2Proof.Machine.execVsar t d a b s
  | .vadds t d a b => Sys2Proof.Machine.execVadds t d a b s
  | .vsubs t d a b => Sys2Proof.Machine.execVsubs t d a b s
  | .vdiv t d a b => Sys2Proof.Machine.execVdiv t d a b s
  | .vsqrt t d a => Sys2Proof.Machine.execVsqrt t d a s
  | .vrcp t d a => Sys2Proof.Machine.execVrcp t d a s
  | .vrsq t d a => Sys2Proof.Machine.execVrsq t d a s
  | .vexp2 t d a => Sys2Proof.Machine.execVexp2 t d a s
  | .vlog2 t d a => Sys2Proof.Machine.execVlog2 t d a s
  | .vcvt t u d a => Sys2Proof.Machine.execVcvt t u d a s
  | .vcmp t c a b => Sys2Proof.Machine.execVcmp t c a b s
  | .minv => Sys2Proof.Machine.execMinv s
  | .mpop => Sys2Proof.Machine.execMpop s
  | .mbr d => Sys2Proof.Machine.execMbr d s
  | .mrd d w => Sys2Proof.Machine.execMrd d w s
  | .mwr w a => Sys2Proof.Machine.execMwr w a s
  | .vsel t d a b => Sys2Proof.Machine.execVsel t d a b s
  | .vred t op d a => Sys2Proof.Machine.execVred t op d a s
  | .vbcast t d a => Sys2Proof.Machine.execVbcast t d a s
  | .vmovs t d a idx => Sys2Proof.Machine.execVmovs t d a idx s
  | .vins t d a idx => Sys2Proof.Machine.execVins t d a idx s
  | .vperm t d a b => Sys2Proof.Machine.execVperm t d a b s
  | .vshuf t p d a => Sys2Proof.Machine.execVshuf t p d a s
  | .viota t d a => Sys2Proof.Machine.execViota t d a s
  | .vld t d a k => Sys2Proof.Machine.execVld t d a k s
  | .vst t v a k => Sys2Proof.Machine.execVst t v a k s
  | .vgath t nr d a b => Sys2Proof.Machine.execVgath t nr d a b s
  | .vscat t v a b => Sys2Proof.Machine.execVscat t v a b s
  | .vtopk t min k new a b => Sys2Proof.Machine.execVtopk t min k new a b s
  | .vtopkr d idx => Sys2Proof.Machine.execVtopkr d idx s
  | .pcfg n b => Sys2Proof.Machine.execPcfg n b s
  | .prst n => Sys2Proof.Machine.execPrst n s
  | .vqnt f d a => Sys2Proof.Machine.execVqnt f d a s
  | .vdq f d a => Sys2Proof.Machine.execVdq f d a s
  | .bld f ev slot b => Sys2Proof.Machine.execBld f ev slot b s
  | .nset level b => Sys2Proof.Machine.execNset level b s
  | .ngo ev => Sys2Proof.Machine.execNgo ev s
  | .acfg f32 keep d base rows cols => Sys2Proof.Machine.execAcfg f32 keep d base rows cols s
  | .azero d => Sys2Proof.Machine.execAzero d s
  | .ald ev d a k => Sys2Proof.Machine.execAld ev d a k s
  | .smxr sel d a b => Sys2Proof.Machine.execSmxr sel d a b s
  | .smxw sel d a b => Sys2Proof.Machine.execSmxw sel d a b s
  | .ftset idx a => Sys2Proof.Machine.execFtset idx a s
  | .adrn ev a b => Sys2Proof.Machine.execAdrn ev a b s
  | .cpy ev b => Sys2Proof.Machine.execCpy ev b s
  | .cpyx ev b => Sys2Proof.Machine.execCpyx ev b s
  | .gath ev b => Sys2Proof.Machine.execGath ev b s
  | .walk ev b => Sys2Proof.Machine.execWalk ev b s
  | .pool ev b => Sys2Proof.Machine.execPool ev b s
  | .decmp ev b => Sys2Proof.Machine.execDecmp ev b s
  | .buck ev b => Sys2Proof.Machine.execBuck ev b s
  | .supd ev b => Sys2Proof.Machine.execSupd ev b s
  | .xall ev b => Sys2Proof.Machine.execXall ev b s
  | .coll ev b => Sys2Proof.Machine.execColl ev b s
  | .rst ev b => Sys2Proof.Machine.execRst ev b s
  | .rld ev b => Sys2Proof.Machine.execRld ev b s
  | .rred ev b => Sys2Proof.Machine.execRred ev b s
  | .stepq d g => Sys2Proof.Machine.execStepq d g s
  | .launch d a q => Sys2Proof.Machine.execLaunch d a q s
  | .cardw a => Sys2Proof.Machine.execCardw a s
  | .warm d a => Sys2Proof.Machine.execWarm d a s
  | .wdis a => Sys2Proof.Machine.execWdis a s
  | .trigrd a b k => Sys2Proof.Machine.execTrigrd a b k s
  | .pqpush n a => Sys2Proof.Machine.execPqpush n a s
  | .pqpop d n => Sys2Proof.Machine.execPqpop d n s
  | .prio a c => Sys2Proof.Machine.execPrio a c s
  | .graph d a b => Sys2Proof.Machine.execGraph d a b s
  | .uevset a e => Sys2Proof.Machine.execUevset a e s
  | .sysrd d a k => Sys2Proof.Machine.execSysrd d a k s
  | .syswr a b k => Sys2Proof.Machine.execSyswr a b k s
  | .eret => Sys2Proof.Machine.execEret s
  | .idle => Sys2Proof.Machine.execIdle s
  | .ctxsv a => Sys2Proof.Machine.execCtxsv a s
  | .ctxld a => Sys2Proof.Machine.execCtxld a s
  | .preempt a => Sys2Proof.Machine.execPreempt a s
  | .evrd d a => Sys2Proof.Machine.execEvrd d a s
  | .trapEntry core => Sys2Proof.Machine.execTrapEntry core s
  | .userEventEntry core => Sys2Proof.Machine.execUserEventEntry core s
  | .loadComplete core sq => Sys2Proof.Machine.execLoadComplete core sq s
  | .storePerformedAtHome core sq => Sys2Proof.Machine.execStorePerformedAtHome core sq s
  | .atomicPerform core => Sys2Proof.Machine.execAtomicPerform core s
  | .rateWindowExpiry entry => Sys2Proof.Machine.execRateWindowExpiry entry s
  | .engineCommandComplete core sq n => Sys2Proof.Machine.execEngineCommandComplete core sq n s
  | .decmpFreeTokenTaken core sq n => Sys2Proof.Machine.execDecmpFreeTokenTaken core sq n s
  | .engineFault core sq n => Sys2Proof.Machine.execEngineFault core sq n s
  | .nestBecomesLive core => Sys2Proof.Machine.execNestBecomesLive core s
  | .nestComplete core => Sys2Proof.Machine.execNestComplete core s
  | .bldComplete core n => Sys2Proof.Machine.execBldComplete core n s
  | .adrnComplete core n => Sys2Proof.Machine.execAdrnComplete core n s
  | .aldComplete core n => Sys2Proof.Machine.execAldComplete core n s
  | .cardQueueTake q => Sys2Proof.Machine.execCardQueueTake q s
  | .cardPlacement part x y => Sys2Proof.Machine.execCardPlacement part x y s
  | .agingLimitExpiry part handle => Sys2Proof.Machine.execAgingLimitExpiry part handle s
  | .preemption part handle => Sys2Proof.Machine.execPreemption part handle s
  | .cardResume part x y => Sys2Proof.Machine.execCardResume part x y s
  | .cardCompletion part handle => Sys2Proof.Machine.execCardCompletion part handle s
  | .graphReplayRelease part handle => Sys2Proof.Machine.execGraphReplayRelease part handle s
  | .steppedWriteArrival => Sys2Proof.Machine.execSteppedWriteArrival s
  | .stepBoundary g => Sys2Proof.Machine.execStepBoundary g s
  | .multicastCopy => Sys2Proof.Machine.execMulticastCopy s
  | .multicastResponse => Sys2Proof.Machine.execMulticastResponse s
  | .peerRequest => Sys2Proof.Machine.execPeerRequest s
  | .peerResponse => Sys2Proof.Machine.execPeerResponse s
  | .retryAfterExpiry id => Sys2Proof.Machine.execRetryAfterExpiry id s
  | .requestTimeout id => Sys2Proof.Machine.execRequestTimeout id s
  | .failureNotice => Sys2Proof.Machine.execFailureNotice s
  | .packetReceive p => Sys2Proof.Machine.execPacketReceive p s
  | .linkFrameRetry port => Sys2Proof.Machine.execLinkFrameRetry port s
  | .linkDown port => Sys2Proof.Machine.execLinkDown port s
  | .interfaceReplay stack failed ia => Sys2Proof.Machine.execInterfaceReplay stack failed ia s
  | .interfaceRetrain stack ok => Sys2Proof.Machine.execInterfaceRetrain stack ok s
  | .scrub home pa => Sys2Proof.Machine.execScrub home pa s
  | .rowCaptureRelease stack => Sys2Proof.Machine.execRowCaptureRelease stack s
  | .sketchHalving skerry => Sys2Proof.Machine.execSketchHalving skerry s
  | .hotRowWriteback part table row => Sys2Proof.Machine.execHotRowWriteback part table row s
  | .pageMigration part ia => Sys2Proof.Machine.execPageMigration part ia s
  | .prefetchFill part => Sys2Proof.Machine.execPrefetchFill part s
  | .hostRead vf off n => Sys2Proof.Machine.execHostRead vf off n s
  | .hostWrite vf off data => Sys2Proof.Machine.execHostWrite vf off data s
  | .cmdTailWrite vf v => Sys2Proof.Machine.execCmdTailWrite vf v s
  | .qtailWrite vf v => Sys2Proof.Machine.execQtailWrite vf v s
  | .cqheadWrite vf v => Sys2Proof.Machine.execCqheadWrite vf v s
  | .evheadWrite vf v => Sys2Proof.Machine.execEvheadWrite vf v s
  | .region1RegisterWrite vf off data => Sys2Proof.Machine.execRegion1RegisterWrite vf off data s
  | .identify c => Sys2Proof.Machine.execIdentify c s
  | .getCaps c => Sys2Proof.Machine.execGetCaps c s
  | .attest c => Sys2Proof.Machine.execAttest c s
  | .partCreate c => Sys2Proof.Machine.execPartCreate c s
  | .partDestroy c => Sys2Proof.Machine.execPartDestroy c s
  | .partReset c => Sys2Proof.Machine.execPartReset c s
  | .vfBind c => Sys2Proof.Machine.execVfBind c s
  | .vfUnbind c => Sys2Proof.Machine.execVfUnbind c s
  | .quotaSet c => Sys2Proof.Machine.execQuotaSet c s
  | .memMap c => Sys2Proof.Machine.execMemMap c s
  | .memUnmap c => Sys2Proof.Machine.execMemUnmap c s
  | .memSplit c => Sys2Proof.Machine.execMemSplit c s
  | .memPin c => Sys2Proof.Machine.execMemPin c s
  | .memProtect c => Sys2Proof.Machine.execMemProtect c s
  | .pageRestore c => Sys2Proof.Machine.execPageRestore c s
  | .tableDefine c => Sys2Proof.Machine.execTableDefine c s
  | .tableDrop c => Sys2Proof.Machine.execTableDrop c s
  | .exportRegion c => Sys2Proof.Machine.execExportRegion c s
  | .revokeRegion c => Sys2Proof.Machine.execRevokeRegion c s
  | .stepgroupJoin c => Sys2Proof.Machine.execStepgroupJoin c s
  | .fabricRoutesLoad c => Sys2Proof.Machine.execFabricRoutesLoad c s
  | .evqConfig c => Sys2Proof.Machine.execEvqConfig c s
  | .fwStage c => Sys2Proof.Machine.execFwStage c s
  | .powerCap c => Sys2Proof.Machine.execPowerCap c s
  | .coldReset imageOk => Sys2Proof.Machine.execColdReset imageOk s
  | .warmReset imageOk => Sys2Proof.Machine.execWarmReset imageOk s
  | .criticalTemperature => Sys2Proof.Machine.execCriticalTemperature s
  | .correctedMemoryEventWindow home => Sys2Proof.Machine.execCorrectedMemoryEventWindow home s

end Sys2Proof.Machine
end

