-- ==== Sys2Proof/Machine/Ahead.lean ====
section
/-! DEFINITION. Reading ahead for the vector access at which X stands: the granules of a VLD, or of a vector that an instruction pops from
a port, are read at moments of their own (R83, R214, R217). -/

namespace Sys2Proof.Machine

/-- The local vectors that the next instruction of X reads: that of a VLD, or those of the read ports from which it pops. -/
def State.vecReads (s : State) (c : CoreId) : List Nat :=
  match s.issue c .X with
  | .over _ => []
  | .run i u =>
    match i with
    | .vld _ _ a k =>
      match u.readS a with
      | .ok (x, _) => [addrOf x k]
      | .error _ => []
    | i =>
      match exec i u with
      | .next t => ((u.x.ports.toList.zip t.x.ports.toList).filter fun p => p.1.conf && !p.1.writes && p.1.pos != p.2.pos).map fun p => p.1.here
      | _ => []

/-- A granule of a local vector that X is about to read is read ahead of the others. -/
def State.vecPeek (s : State) (c : CoreId) (off : Nat) : State :=
  let a := off / 8 * 8
  let x := s.seq c .X
  if !((s.vecReads c).any fun o => o ≤ a && a < o + 256) || (x.peeked.any fun g => g.1 == lmIa c a)
      || x.stores.any (fun st => st.meets (lmIa c a) 8) then s
  else s.setSeq c .X { x with peeked := x.peeked ++ [(lmIa c a, lmRead s c a 8)] }

end Sys2Proof.Machine
end

