-- ==== Sys2Proof/Machine/Agents.lean ====
section
/-! DEFINITION. The moves of the agenda that are no row of the opcode table. -/

namespace Sys2Proof.Machine

/-- Replacement takes a line of a core's instruction cache (R69). -/
def State.icDrop (s : State) (c : CoreId) (ia : Nat) : State :=
  let k := s.core c
  s.setCore c { k with icache := k.icache.filter fun l => l.ia != ia / 128 }

/-- A move that executes no instruction and no event of the table. -/
def State.agent (s : State) : Move → State
  | .raise c q clu => s.raiseStore c q clu
  | .part c q => s.performPart c q
  | .lane c => s.performLane c
  | .peek c q n ia => s.peekCmd c q n ia
  | .piece c q n k => s.runPiece c q n k
  | .matrix c n => s.mxPart c n
  | .mxPeek c n off => s.mxPeek c n off
  | .mxPiece c n k => s.mxPiece c n k
  | .vecPeek _ _ => s
  | .imagePiece c => s.imagePiece c
  | .landPiece n k => s.landPiece n k
  | .atom c q n => s.performNth c q n
  | .lateLine c ia => s.readAhead c ia
  | .dropL1 c ia => s.l1Drop c ia
  | .dropIc c ia => s.icDrop c ia
  | .unit c q n => (s.runUnit c q n).2
  | .softError key unc => s.softError key unc
  | .activate k chan row => s.activate k chan row
  | .refresh k chan row => s.refreshRow k (rowKey chan row)
  | .acked p => s.ackFrame p
  | .deliver n => s.deliver n
  | .read1 v off n => s.readRegion1 v off n
  | .issue _ _ => s
  | .occur _ => s
  | .firmware vf => s.refuseFw vf

end Sys2Proof.Machine
end

