-- ==== Sys2Proof/Machine/Standing.lean ====
section
/-! DEFINITION. The moves that work under way calls for: what the agents of the package do when the agenda names no move (R4, R93; log 1).
No agent is passed over: a round has a move for every sequencer that runs and for everything that is in flight. -/

namespace Sys2Proof.Machine

/-- The moves of a sequencer: its next instruction, its loads, its stores and its commands in flight. -/
def State.seqMoves (s : State) (c : CoreId) (q : SeqId) : List Move :=
  let x := s.seq c q
  (if x.done || x.ctxStop then [] else [.issue c q])
    ++ x.loads.map (fun _ => .occur (.loadComplete c q))
    ++ x.stores.map (fun _ => .occur (.storePerformedAtHome c q))
    ++ (upTo x.cmds.length).map fun n => .occur (.engineCommandComplete c q n)

/-- The completion of operation `n` of a core's X. -/
def mxMove (c : CoreId) (n : Nat) : MxKind → Move
  | .bld .. => .occur (.bldComplete c n)
  | .nest .. => .occur (.nestComplete c)
  | .adrn .. => .occur (.adrnComplete c n)
  | .ald .. => .occur (.aldComplete c n)

/-- The moves of a core with a card: its sequencers, its atomics, its matrix operations, and the handlers that C is to enter. -/
def State.coreMoves (s : State) (c : CoreId) : List Move :=
  let k := s.core c
  if k.card = 0 then []
  else
    (if k.trapWaits then [.occur (.trapEntry c)] else []) ++ (if k.userReady then [.occur (.userEventEntry c)] else [])
      ++ allSeqs.flatMap (s.seqMoves c)
      ++ (allSeqs.flatMap fun q => (k.seq q).atoms.map fun _ => .occur (.atomicPerform c))
      ++ (if k.x.mx.isEmpty then [] else [.occur (.nestBecomesLive c)])
      ++ ((upTo k.x.mx.length).zip k.x.mx).map fun e => mxMove c e.1 e.2.kind

/-- Taking cards from the queues of a partition, and the place of the card whose turn it is. -/
def State.partMoves (s : State) (p : Fin 32) : List Move :=
  let pt := s.part p
  if !pt.live then []
  else
    ((upTo pt.devqs.length).zip pt.devqs).flatMap (fun e => e.2.cards.map fun _ => .occur (.cardQueueTake (.dev p e.1)))
      ++ (match s.pick p (s.seekers p) with
        | .none => []
        | .refuse _ _ => [.occur (.cardPlacement p 0 0)]
        | .place c =>
          match c.origins.find? (s.placeableAt p c) with
          | none => []
          | some o =>
            let x := Fin.ofNat 32 o.1
            let y := Fin.ofNat 8 o.2
            if c.phase == .preempted then [.occur (.cardResume p x y)] else [.occur (.cardPlacement p x y)])

/-- The completion of a card that has finished, and its pre-emption when it is asked for. -/
def State.cardMoves (s : State) (p : Fin 32) (c : Card) : List Move :=
  (if s.finished c then [.occur (.cardCompletion p c.handle)] else [])
    ++ if c.phase == .running && (c.forced || s.chosen p c) then [.occur (.preemption p c.handle)] else []

/-- The moves of the schedulers. -/
def State.schedMoves (s : State) : List Move :=
  (s.hst.vfs.flatMap fun e =>
    if h : e.1 < 1024 then
      (if e.2.part.isSome && e.2.qhead != e.2.qtail then [.occur (.cardQueueTake (.host ⟨e.1, h⟩))] else [])
    else [])
    ++ (List.finRange 32).flatMap s.partMoves
    ++ s.sch.cards.flatMap (fun c => s.cardMoves c.1 c.2)
    ++ s.sch.replays.map fun r => .occur (.graphReplayRelease r.1 r.2.handle)

/-- The moves of the fabric: boundaries that are awaited, the packets received, and the requests to be sent again. -/
def State.fabricMoves (s : State) : List Move :=
  (((List.finRange 16).filter fun g => s.fab.groups[g.val].joined && s.stepAwaited g).map fun g => .occur (.stepBoundary g))
    ++ (if s.fab.inbox.isEmpty then []
      else [.occur .failureNotice, .occur .steppedWriteArrival, .occur .multicastCopy, .occur .multicastResponse, .occur .peerRequest,
        .occur .peerResponse])
    ++ (if s.fab.acks.isEmpty then [] else [.occur .multicastResponse])
    ++ (s.fab.sends.filter (·.wait)).map fun d => .occur (.retryAfterExpiry d.id)

/-- The moves of firmware and of the host port. -/
def State.hostMoves (s : State) : List Move :=
  ((s.hst.fwq.map fun e => e.cmd.vf).eraseDups.map Move.firmware)
    ++ (if s.hst.posted.isEmpty then [] else [.deliver 0])

/-- The moves that the work under way calls for. -/
def State.standing (s : State) : List Move :=
  allCores.flatMap s.coreMoves ++ s.schedMoves ++ s.fabricMoves ++ s.hostMoves

end Sys2Proof.Machine
end

