-- ==== Sys2Proof/Machine/Step.lean ====
section
/-! DEFINITION. One step of the package: one move of one agent (R4, log 1), and the placing of an instruction for the next
step. -/

namespace Sys2Proof.Machine

/-- A sequencer issues its next instruction (R179, R331). -/
def stepIssue (s : State) (c : CoreId) (q : SeqId) : Host.Outcome State Fault Refusal :=
  match s.issue c q with
  | .over t => .next t
  | .run i t => exec i t

/-- An event of the table occurs. A device instruction is no event: only a sequencer executes it. -/
def stepOccur (s : State) (i : Instr) : Host.Outcome State Fault Refusal :=
  if (encodeFields i).isNone then exec i s else .next s

/-- Firmware executes the oldest command it has taken from a function (R294). -/
def stepFirmware (s : State) (vf : Fin 1024) : Host.Outcome State Fault Refusal :=
  match (s.fwHead vf).bind fun e => e.instr with
  | some i => stepOccur s i
  | none => .next (s.agent (.firmware vf))

/-- One move. -/
def stepMove (s : State) : Move → Host.Outcome State Fault Refusal
  | .issue c q => stepIssue s c q
  | .occur i => stepOccur s i
  | .firmware vf => stepFirmware s vf
  | .vecPeek c off => .next (s.vecPeek c off)
  | m => .next (s.agent m)

/-- One step: the move at the head of the agenda. With an empty agenda a round begins: the agenda is the moves that the work under way
calls for, and with none the package waits (R4, R93). -/
def step (s : State) : Host.Outcome State Fault Refusal :=
  match s.agenda with
  | m :: rest => stepMove { s with agenda := rest } m
  | [] =>
    match s.standing with
    | m :: rest => stepMove { s with agenda := rest } m
    | [] => .next s

/-- The instruction of a table word stored where the next step fetches: at VA 0 of a bare card on core 0, in frames 0 of
tier 0 (log 12). -/
def State.withFetchWord (s : State) (nbits w : Nat) : State :=
  let s := s.placed (firstSeq (w % 2 ^ nbits % 256))
  { s with hm := { s.hm with mem := Memory.write [] 0 (leBytes 40 (w % 2 ^ nbits)) } }

end Sys2Proof.Machine
end

