-- ==== Sys2Proof/WellFormed.lean ====
section
/-! DEFINITION. Which terms of `Instr` are instructions of the device: the limits that an encoding alone shows (R336), so
that every well-formed device instruction has words and no ill-formed one has. -/

namespace Sys2Proof

/-- A vector B operand under an element type: the immediate of f16 and bf16 has 16 bits (R171). -/
def VB.ok (t : ElemT) : VB → Bool
  | .imm v => !((t == .f16 || t == .bf16) && v.extractLsb' 16 3 != 0)
  | _ => true

/-- A size of 8 bytes is not admitted for the f32 operations (R168). -/
def atomOk (op : AtomOp) (w8 : Bool) : Bool := !((op == .fadd || op == .fmax) && w8)

/-- A block of registers of LDM, STM, SPILL and FILL (R167). -/
def runOk (d : Fin 32) (n : BitVec 5) : Bool := decide (1 ≤ n.toNat) && decide (d.val + n.toNat ≤ 32)

/-- A condition that VCMP admits (R163). -/
def vcondOk (c : Cond) : Bool := !(c == .ltn || c == .gen || c == .len || c == .gtn)

/-- The limits an encoding alone shows, for each form (R336 to R338). Forms without such a limit are well-formed, and so
are the rows of the table that are no device instruction: they have no words. -/
def Instr.wf : Instr → Bool
  | .loop _ _ d => decide (1 ≤ d.toInt)
  | .loopi _ _ d => decide (1 ≤ d.toInt)
  | .bfx _ _ _ lo w => decide (1 ≤ w.toNat) && decide (lo.toNat + w.toNat ≤ 64)
  | .bfi _ _ lo w => decide (1 ≤ w.toNat) && decide (lo.toNat + w.toNat ≤ 64)
  | .ldm _ d n _ _ => runOk d n
  | .stm _ d n _ _ => runOk d n
  | .spill s a n => runOk a n && decide (s.toNat + n.toNat ≤ 512)
  | .fill d s n => runOk d n && decide (s.toNat + n.toNat ≤ 512)
  | .amo op w8 _ _ _ _ _ _ => atomOk op w8
  | .red op w8 _ _ _ _ _ => op != .swp && atomOk op w8
  | .vadd t _ _ b => b.ok t
  | .vsub t _ _ b => b.ok t
  | .vmul t _ _ b => b.ok t
  | .vfma t _ _ b => b.ok t
  | .vmin t _ _ b => b.ok t
  | .vmax t _ _ b => b.ok t
  | .vand t _ _ _ => !t.isFloat
  | .vor t _ _ _ => !t.isFloat
  | .vxor t _ _ _ => !t.isFloat
  | .vnot t _ _ => !t.isFloat
  | .vshl t _ _ _ => !t.isFloat
  | .vshr t _ _ _ => !t.isFloat
  | .vsar t _ _ _ => !t.isFloat
  | .vadds t _ _ _ => !t.isFloat
  | .vsubs t _ _ _ => !t.isFloat
  | .vdiv t _ _ b => t.isFloat && b.ok t
  | .vsqrt t _ _ => t.isFloat
  | .vrcp t _ _ => t.isFloat
  | .vrsq t _ _ => t.isFloat
  | .vexp2 t _ _ => t.isFloat
  | .vlog2 t _ _ => t.isFloat
  | .vcmp _ c _ b => vcondOk c && (match b with | .imm _ => false | _ => true)
  | .vsel t _ _ b => b.ok t
  | .vshuf _ p d _ =>
    match p, d with
    | .ilo, .p _ => false
    | .ihi, .p _ => false
    | _, _ => true
  | .viota t _ _ => !t.isFloat
  | .vtopk t _ _ _ _ _ => t == .s32 || t == .f32
  | .pcfg _ b => pcfgP3 b.p3
  | .bld _ _ _ b => bldP3 b.p3
  | .nset _ b => nsetP3 b.p3
  | .acfg f32 _ _ base rows cols => acfgOk (acfgWord f32 base rows cols)
  | .adrn _ _ b => adrnP3 b.p3
  | .ald _ _ _ k => match k with | .imm _ => true | .ext _ => false
  | .cpy _ b => cpyP3 b.p3
  | .cpyx _ b => cpyxP3 b.p3
  | .walk _ b => walkP3 b.p3
  | .pool _ b => poolP3 b.p3
  | .decmp _ b => decmpP3 b.p3
  | .buck _ b => buckP3 b.p3
  | .supd _ b => supdP3 b.p3
  | .xall _ b => xallP3 b.p3
  | .coll _ b => collP3 b.p3
  | .rld _ b => rldP3 b.p3
  | .rred _ b => rredP3 b.p3
  | _ => true

/-- A device instruction within the limits of its encoding. -/
def Instr.WellFormed (i : Instr) : Prop := (encodeFields i).isSome = true ∧ i.wf = true

end Sys2Proof
end

