-- ==== Sys2Proof/Certificates/Slice0/Obligations.lean ====
section
/-! DEFINITION. The statements for the provers: what the decoder, the instructions, the events of the device, the host's
accesses, the firmware commands and the resets do, and what every step keeps. -/

open Sys2Proof
open Sys2Proof.Machine


namespace Sys2Proof.Claims

/-- What a scalar instruction with sources a and b reads: the value of a, then that of b (R158), and the state after both. -/
def Reads2 (s : State) (a : SReg) (b : SB) (x y : Word) (t : State) : Prop :=
  ∃ u, s.readS a = .ok (x, u) ∧ u.readB b = .ok (y, t)

/-- A scalar destination takes a write: a general register always does, a queue when it takes a push. -/
def Takes (s : State) (d : SReg) : Prop := ∃ t, s.writeS d 0 = .ok t

/-- On every operand it can read and every destination that takes a write, the form completes; it writes a v as `spec` says of
its two operands, and leaves the flags of FPCS as they were. -/
def Writes3 (mk : SReg → SReg → SB → Instr) (spec : Word → Word → Word → Prop) : Prop :=
  ∀ s d a b x y t, Reads2 s a b x y t → Takes t d →
    ∃ v u, spec x y v ∧ t.writeS d v = .ok u ∧ exec (mk d a b) s = .next u.complete ∧ u.complete.me.fpcs = s.me.fpcs

/-- The same for a form with one source. -/
def Writes2 (mk : SReg → SReg → Instr) (spec : Word → Word → Prop) : Prop :=
  ∀ s d a x t, s.readS a = .ok (x, t) → Takes t d →
    ∃ v u, spec x v ∧ t.writeS d v = .ok u ∧ exec (mk d a) s = .next u.complete ∧ u.complete.me.fpcs = s.me.fpcs

/-- The magnitude that the exponent and fraction bits k of a format encode; infBits stands for the next power of two (R121). -/
def mag (f : Fmt) (k : Nat) : Rat :=
  if k < 2 ^ f.fb then (k : Rat) * 2 ^ f.qmin
  else ((k % 2 ^ f.fb + 2 ^ f.fb : Nat) : Rat) * 2 ^ (f.qmin + (k / 2 ^ f.fb : Nat) - 1)

/-- The exponent and fraction bits of an encoding, whether it is finite, and the number that a finite one stands for (R121). -/
def magBits (f : Fmt) (b : Nat) : Nat := b % 2 ^ (f.eb + f.fb)
def isFinite (f : Fmt) (b : Nat) : Prop := magBits f b < f.infBits
def exact (f : Fmt) (b : Nat) : Rat := (if b / 2 ^ (f.eb + f.fb) % 2 = 1 then -1 else 1) * mag f (magBits f b)

/-- The magnitude of a number. -/
def size (x : Rat) : Rat := if x < 0 then -x else x

/-- A result is the format's rounding of an exact number x under a mode; what `Fmt.round` gives, RoundingIsCorrect says. A zero is
exact. -/
def RoundsTo (f : Fmt) (rm : Nat) (x : Rat) (r : FRes) : Prop :=
  if x = 0 then magBits f r.bits = 0 ∧ r.flags = {}
  else ∃ (m : Nat) (e : Int), 0 < m ∧ (m : Rat) * 2 ^ e = size x ∧ r = f.round rm (x < 0) m e false

/-- A result is the format's rounding of a positive real number, of sign `neg`, that is given by the rationals y not above it and by
those equal to it: it lies between m × 2^e and (m + 1) × 2^e, on the first exactly where there is no rest. -/
def RoundsCut (f : Fmt) (rm : Nat) (neg : Bool) (le eq : Rat → Prop) (r : FRes) : Prop :=
  ∃ (m : Nat) (e : Int) (rest : Bool), 2 ^ 64 ≤ m ∧ le ((m : Rat) * 2 ^ e) ∧ ¬le (((m + 1 : Nat) : Rat) * 2 ^ e) ∧
    (rest = false ↔ eq ((m : Rat) * 2 ^ e)) ∧ r = f.round rm neg m e rest

/-- An integer is the rounding of a number under a mode: nearest with ties to even, toward zero, down, up (R118, R124). -/
def RoundsInt (rm : Nat) (x : Rat) (v : Int) : Prop :=
  match rm with
  | 0 => 2 * size (x - v) ≤ 1 ∧ (2 * size (x - v) = 1 → v % 2 = 0)
  | 1 => if x < 0 then x ≤ v ∧ (v : Rat) < x + 1 else (v : Rat) ≤ x ∧ x < v + 1
  | 2 => (v : Rat) ≤ x ∧ x < v + 1
  | _ => x ≤ v ∧ (v : Rat) < x + 1

/-- The lowest 64-bit integer, −2^63. -/
def lowest : Word := BitVec.intMin 64

/-- A number is the count of 0 bits above a's highest 1 bit, 64 when there is none. -/
def IsClz (a : Word) (n : Nat) : Prop := n ≤ 64 ∧ (∀ i, 64 - n ≤ i → a.getLsbD i = false) ∧ (n < 64 → a.getLsbD (63 - n) = true)

/-- A number is the count of 0 bits below a's lowest 1 bit, 64 when there is none. -/
def IsCtz (a : Word) (n : Nat) : Prop := n ≤ 64 ∧ (∀ i, i < n → a.getLsbD i = false) ∧ (n < 64 → a.getLsbD n = true)

end Sys2Proof.Claims

/-- Scalar integer arithmetic wraps, divides with the corner results of the table, and shifts modulo 64. For every
sequencer, operands and destination that can be read and written: ADD, SUB and MUL write the low 64 bits of the exact
integer result. DIV and DIVN by zero write all ones, REM and REMN by zero the dividend; DIV of −2^63 by −1 writes
−2^63 and REM 0; otherwise the quotient is truncated toward zero and the remainder has the dividend's sign. SHL, SHR,
SAR and ROR take their amount modulo 64. Each completes, with no trap, and leaves FPCS as it was. -/
def Obligations.ScalarCorners : Prop :=
  Claims.Writes3 .add (fun x y v => v = BitVec.ofInt 64 (x.toInt + y.toInt)) ∧
  Claims.Writes3 .sub (fun x y v => v = BitVec.ofInt 64 (x.toInt - y.toInt)) ∧
  Claims.Writes3 .mul (fun x y v => v = BitVec.ofInt 64 (x.toInt * y.toInt)) ∧
  Claims.Writes3 .div (fun x y v =>
    if y = 0 then v = 0xFFFFFFFFFFFFFFFF#64
    else if x = Claims.lowest ∧ y = -1 then v = Claims.lowest
    else v = BitVec.ofInt 64 (x.toInt.tdiv y.toInt)) ∧
  Claims.Writes3 .divn (fun x y v =>
    if y = 0 then v = 0xFFFFFFFFFFFFFFFF#64 else v = BitVec.ofNat 64 (x.toNat / y.toNat)) ∧
  Claims.Writes3 .rem (fun x y v =>
    if y = 0 then v = x
    else if x = Claims.lowest ∧ y = -1 then v = 0
    else v = BitVec.ofInt 64 (x.toInt - x.toInt.tdiv y.toInt * y.toInt) ∧ (v = 0 ∨ v.msb = x.msb)) ∧
  Claims.Writes3 .remn (fun x y v =>
    if y = 0 then v = x else v = BitVec.ofNat 64 (x.toNat - x.toNat / y.toNat * y.toNat)) ∧
  Claims.Writes3 .shl (fun x y v => v = BitVec.ofNat 64 (x.toNat * 2 ^ (y.toNat % 64))) ∧
  Claims.Writes3 .shr (fun x y v => v = BitVec.ofNat 64 (x.toNat / 2 ^ (y.toNat % 64))) ∧
  Claims.Writes3 .sar (fun x y v => v = BitVec.ofInt 64 (x.toInt / 2 ^ (y.toNat % 64))) ∧
  Claims.Writes3 .ror (fun x y v => ∀ i, i < 64 → v.getLsbD i = x.getLsbD ((i + y.toNat % 64) % 64))

/-- High products, bitwise operations, minima and maxima, compares, bit counts, bit fields, copies and CRC write what
R165 and R190 say. For every sequencer, readable operands and a destination that takes a write: MULH and MULHN write
bits [127:64] of the exact signed and natural product. Every bit of AND, OR, XOR and ANDN is that operation of the
operands' bits; BSET and BCLR set and clear the bit b mod 64 of a and no other. MIN and MAX compare as signed
integers, MINN and MAXN as natural numbers; CMP writes 1 when its condition holds of a and b and 0 otherwise, .lt,
.ge, .le and .gt comparing signed and .ltn, .gen, .len and .gtn natural. CLZ and CTZ write the number of 0 bits above
the highest and below the lowest 1 bit (64 for a word of zeros), POPC the number of 1 bits; MOV writes a, LDI its
constant, IMM sign-extended or the extension word. EXT with n from 1 to 64 writes the low n bits of a, zero-extended
or sign-extended, and with any other n raises the trap of cause 0x01 and writes nothing. BFX writes bits [lo+w−1:lo]
of a, sign-extended when F[0] = 1; BFI replaces those bits of g[D], read after A, with the low w bits of a and keeps
the rest (R166, R190, R191). CRC writes in its low 32 bits the running value advanced over the bytes of b, each by an
exclusive or and eight steps of the reflected polynomial. Each completes and leaves FPCS as it was. -/
def Obligations.ScalarResults : Prop :=
  Claims.Writes3 .mulh (fun x y v => v = BitVec.ofInt 64 (x.toInt * y.toInt / 2 ^ 64)) ∧
  Claims.Writes3 .mulhn (fun x y v => v = BitVec.ofNat 64 (x.toNat * y.toNat / 2 ^ 64)) ∧
  Claims.Writes3 .and (fun x y v => ∀ i, v.getLsbD i = (x.getLsbD i && y.getLsbD i)) ∧
  Claims.Writes3 .or (fun x y v => ∀ i, v.getLsbD i = (x.getLsbD i || y.getLsbD i)) ∧
  Claims.Writes3 .xor (fun x y v => ∀ i, v.getLsbD i = (x.getLsbD i != y.getLsbD i)) ∧
  Claims.Writes3 .andn (fun x y v => ∀ i, v.getLsbD i = (x.getLsbD i && !y.getLsbD i)) ∧
  Claims.Writes3 .bset (fun x y v => ∀ i, v.getLsbD i = (x.getLsbD i || i == y.toNat % 64)) ∧
  Claims.Writes3 .bclr (fun x y v => ∀ i, v.getLsbD i = (x.getLsbD i && i != y.toNat % 64)) ∧
  Claims.Writes3 .min (fun x y v => (v = x ∨ v = y) ∧ v.toInt ≤ x.toInt ∧ v.toInt ≤ y.toInt) ∧
  Claims.Writes3 .max (fun x y v => (v = x ∨ v = y) ∧ x.toInt ≤ v.toInt ∧ y.toInt ≤ v.toInt) ∧
  Claims.Writes3 .minn (fun x y v => (v = x ∨ v = y) ∧ v.toNat ≤ x.toNat ∧ v.toNat ≤ y.toNat) ∧
  Claims.Writes3 .maxn (fun x y v => (v = x ∨ v = y) ∧ x.toNat ≤ v.toNat ∧ y.toNat ≤ v.toNat) ∧
  Claims.Writes3 (.cmp .eq) (fun x y v => v = if x.toNat = y.toNat then 1 else 0) ∧
  Claims.Writes3 (.cmp .ne) (fun x y v => v = if x.toNat ≠ y.toNat then 1 else 0) ∧
  Claims.Writes3 (.cmp .lt) (fun x y v => v = if x.toInt < y.toInt then 1 else 0) ∧
  Claims.Writes3 (.cmp .ge) (fun x y v => v = if y.toInt ≤ x.toInt then 1 else 0) ∧
  Claims.Writes3 (.cmp .ltn) (fun x y v => v = if x.toNat < y.toNat then 1 else 0) ∧
  Claims.Writes3 (.cmp .gen) (fun x y v => v = if y.toNat ≤ x.toNat then 1 else 0) ∧
  Claims.Writes3 (.cmp .le) (fun x y v => v = if x.toInt ≤ y.toInt then 1 else 0) ∧
  Claims.Writes3 (.cmp .gt) (fun x y v => v = if y.toInt < x.toInt then 1 else 0) ∧
  Claims.Writes3 (.cmp .len) (fun x y v => v = if x.toNat ≤ y.toNat then 1 else 0) ∧
  Claims.Writes3 (.cmp .gtn) (fun x y v => v = if y.toNat < x.toNat then 1 else 0) ∧
  Claims.Writes2 .clz (fun x v => ∃ n, Claims.IsClz x n ∧ v = BitVec.ofNat 64 n) ∧
  Claims.Writes2 .ctz (fun x v => ∃ n, Claims.IsCtz x n ∧ v = BitVec.ofNat 64 n) ∧
  Claims.Writes2 .popc (fun x v => v = BitVec.ofNat 64 ((List.range 64).filter fun i => x.getLsbD i).length) ∧
  Claims.Writes2 .mov (fun x v => v = x) ∧
  (∀ (s : State) (d : SReg) (k : Off), Claims.Takes s d →
    ∃ v u, (match k with | .imm c => v.toInt = c.toInt | .ext w => v = w) ∧ s.writeS d v = .ok u ∧
      exec (.ldi d k) s = .next u.complete ∧ u.complete.me.fpcs = s.me.fpcs) ∧
  (∀ (sg : Bool) (s : State) (d a : SReg) (b : SB) (x y : Word) (t : State), Claims.Reads2 s a b x y t →
    (1 ≤ y.toNat ∧ y.toNat ≤ 64 → Claims.Takes t d → ∃ v u,
      (∀ i, i < 64 → v.getLsbD i = if i < y.toNat then x.getLsbD i else sg && x.getLsbD (y.toNat - 1)) ∧
      t.writeS d v = .ok u ∧ exec (.ext sg d a b) s = .next u.complete) ∧
    (¬(1 ≤ y.toNat ∧ y.toNat ≤ 64) →
      exec (.ext sg d a b) s = .next (s.raise s.cur.core s.cur.sq s.me.pc ⟨0x01, 0, t.cur.word⟩))) ∧
  (∀ (sg : Bool) (lo : BitVec 6) (w : BitVec 7), 1 ≤ w.toNat → lo.toNat + w.toNat ≤ 64 →
    Claims.Writes2 (fun d a => .bfx sg d a lo w) (fun x v => ∀ i, i < 64 → v.getLsbD i =
      if i < w.toNat then x.getLsbD (lo.toNat + i) else sg && x.getLsbD (lo.toNat + w.toNat - 1))) ∧
  (∀ (s : State) (d : Fin 32) (a : SReg) (lo : BitVec 6) (w : BitVec 7) (x : Word) (t : State),
    1 ≤ w.toNat → lo.toNat + w.toNat ≤ 64 → s.readS a = .ok (x, t) → ∃ v,
      (∀ i, i < 64 → v.getLsbD i =
        if lo.toNat ≤ i ∧ i < lo.toNat + w.toNat then x.getLsbD (i - lo.toNat) else (t.me.rd d).getLsbD i) ∧
      exec (.bfi d a lo w) s = .next (t.setMe (t.me.wr d v)).complete) ∧
  (∀ (z : Size), Claims.Writes3 (.crc z) (fun x y v => v = (crcBytes (x.setWidth 32)
    (leBytes (match z with | .b1 => 1 | .b2 => 2 | .b4 => 4 | .b8 => 8) y.toNat)).setWidth 64)) ∧
  (∀ (c : BitVec 32) (b : Byte) (bs : List Byte),
    crcBytes c [] = c ∧ crcBytes c (b :: bs) = crcBytes ((List.range 8).foldl
      (fun c _ => if c.getLsbD 0 then (c >>> 1) ^^^ 0x82F63B78#32 else c >>> 1) (c ^^^ b.setWidth 32)) bs)

namespace Sys2Proof.Claims

/-- A command stands at a place of its sequencer's list, under a stamp of its own, and may run: it is neither stopped nor ended,
what it waits for has been performed, and no earlier command shares local bytes with it that one of them writes. -/
def Runs (s : State) (c : CoreId) (q : SeqId) (i : Nat) (x : Cmd) : Prop :=
  (s.seq c q).cmds[i]? = some x ∧ (∀ j y, (s.seq c q).cmds[j]? = some y → y.stamp = x.stamp → j = i) ∧
    x.state = .running ∧ x.stat = 0 ∧ (s.core c).c.engStop = false ∧ (∀ w ∈ x.waits, s.waitMet c w = true) ∧
    ∀ j y, j < i → (s.seq c q).cmds[j]? = some y → y.clash x = false

/-- A command has left its class with a status: WAITC will find a non-zero one, and C gets the user event that was asked for. -/
structure Left (s t : State) (c : CoreId) (q : SeqId) (i : Nat) (x : Cmd) (stat done : Nat) : Prop where
  cmds : (t.seq c q).cmds = (s.seq c q).cmds.eraseIdx i
  errs : (t.seq c q).errs = (s.seq c q).errs ++
    if stat = 0 then [] else [⟨x.stamp, x.op, stat, done, x.op ∈ [0xC0#8, 0xC1, 0xC2, 0xB7, 0xB8]⟩]
  user : (s.seq c .C).done = false → (s.core c).c.uevq.length < 16 → (t.core c).c.uevq = (s.core c).c.uevq ++
    if x.ev then [(BitVec.ofNat 64 (x.op.toNat + 256 * q.idx.val + 1024 * stat), x.blk.p0)] else []
  regs : ∀ r, (t.seq c q).rd r = (s.seq c q).rd r

/-- A command runs on its next unit, of which nothing is read ahead, with what its last unit wrote performed; it does not write what it
reads, the arrays hold no error, no page is coded, and no stack is out of service. -/
def AtUnit (s : State) (c : CoreId) (q : SeqId) (i : Nat) (x : Cmd) : Prop :=
  Runs s c q i x ∧ x.held = [] ∧ x.peeked = [] ∧ x.pend = [] ∧ rangesMeet x.reads x.writes = false ∧
    s.hm.bad = [] ∧ (∀ e ∈ s.hm.ptes, pteCmp e.2 = false) ∧ s.hm.out = 0

/-- A byte of a core's local memory, and the number of n of them. -/
def lmByte (s : State) (c : CoreId) (o : Nat) : Byte := Memory.get s.hm.lm (c.val * 2 ^ 21 + o)
def lmNum (s : State) (c : CoreId) (o n : Nat) : Nat := leNat (Memory.read s.hm.lm (c.val * 2 ^ 21 + o) n)

/-- A core's local memory is as before but for n bytes from an offset, which are these. -/
def LmPut (s t : State) (c : CoreId) (o n : Nat) (b : Nat → Byte) : Prop :=
  ∀ k, Memory.get t.hm.lm k = if c.val * 2 ^ 21 + o ≤ k ∧ k < c.val * 2 ^ 21 + o + n
    then b (k - (c.val * 2 ^ 21 + o)) else Memory.get s.hm.lm k

/-- The home of each of n bytes serves a read of it, and no page of them is stepped. -/
def Serves (s : State) (ia n : Nat) : Prop :=
  iaTier ia ≤ 4 ∧ ∀ i < n, ∃ h, s.confirm (ia + i) false = .ok h ∧ pteStp h.pte = false

/-- The number of n bytes at an IA. -/
def homeNum (s : State) (ia n : Nat) : Nat := leNat (s.homeBytes ia n)

/-- The shard and the local row of a global row (R72). -/
def ShardOf (s : State) (t : Table) (r sh l : Nat) : Prop :=
  sh < t.shcnt ∧ (t.shard = 0 → sh = 0 ∧ l = r) ∧ (t.shard = 1 → sh = r % t.shcnt ∧ l = r / t.shcnt) ∧ t.shard ≤ 2 ∧
  (t.shard = 2 → Serves s t.ranges (8 * (t.shcnt + 1)) ∧
    (let first (k : Nat) := homeNum s (t.ranges + 8 * k) 8
     first sh ≤ r ∧ r < first (sh + 1) ∧ l = r - first sh ∧ ∀ k < sh, ¬(first k ≤ r ∧ r < first (k + 1))))

/-- A global row that this package holds, at a local row whose bytes its homes serve (R72, R246). -/
def RowHere (s : State) (t : Table) (r l : Nat) : Prop :=
  ∃ sh, ShardOf s t r sh l ∧ Serves s t.owner (2 * t.shcnt) ∧ homeNum s (t.owner + 2 * sh) 2 = s.fab.pkg.toNat ∧ l < t.rows ∧
    Serves s (t.base + l * t.stride) t.rowBytes

/-- The exact value of element j of a row of bytes, none when its scale, its bias or itself is infinite or NaN (R133); f32r rows have
another. -/
def ElemIs (fmt elems : Nat) (row : Nat → Byte) (j : Nat) : Option Rat → Prop
  | some v =>
    (let h (o : Nat) := (row o).toNat + 256 * (row (o + 1)).toNat
     let at0 := if fmt = 0 then elems else elems / 2
     let q : Nat := if fmt = 0 then (row j).toNat else (row (j / 2)).toNat / 16 ^ (j % 2) % 16
     if fmt = 2 then isFinite fmtF16 (h (2 * j)) ∧ v = exact fmtF16 (h (2 * j))
     else isFinite fmtF16 (h at0) ∧ isFinite fmtF16 (h (at0 + 2)) ∧ v = q * exact fmtF16 (h at0) + exact fmtF16 (h (at0 + 2)))
  | none =>
    (let h (o : Nat) := (row o).toNat + 256 * (row (o + 1)).toNat
     let at0 := if fmt = 0 then elems else elems / 2
     if fmt = 2 then ¬isFinite fmtF16 (h (2 * j)) else ¬isFinite fmtF16 (h at0) ∨ ¬isFinite fmtF16 (h (at0 + 2)))

/-- A sum of rounded additions in the order given (R136). -/
def addAll (x : Nat) (l : List Nat) : Nat := l.foldl (fun a b => (fmtF32.add 0 a b).bits) x

/-- The new row and state row of a step of an optimiser (R137), element by element: w the weights, g the coalesced gradient, st the
state row or, under row-wise Adagrad, the accumulator at `st 0`. Every operation is the one that VectorFloats speaks of. -/
def StepIs (opt elems lr eps : Nat) (w g st w' st' : Nat → Nat) : Prop :=
  let add (a b : Nat) := (fmtF32.add 0 a b).bits
  let sub (a b : Nat) := (fmtF32.sub 0 a b).bits
  let mul (a b : Nat) := (fmtF32.mul 0 a b).bits
  let div (a b : Nat) := (fmtF32.div 0 a b).bits
  let root (a : Nat) := (fmtF32.sqrt 0 a).bits
  let count := (fmtF32.ofInt 0 elems).bits
  (opt = 0 → ∀ j < elems, w' j = sub (w j) (mul lr (g j))) ∧
  (opt = 1 → st' 0 = add (st 0) (div (addAll 0 ((List.range elems).map fun j => mul (g j) (g j))) count) ∧
    ∀ j < elems, w' j = sub (w j) (div (mul lr (g j)) (add (root (st' 0)) eps))) ∧
  (opt = 2 → ∀ j < elems, st' j = add (st j) (mul (g j) (g j)) ∧
    w' j = sub (w j) (div (mul lr (g j)) (add (root (st' j)) eps)))

/-- The place of a byte at the home that serves it. -/
def memAt (s : State) (ia : Nat) : Nat := match lookup s.hm.ptes ia with | some h => h.memKey ia | none => 0

/-- Some bytes at IAs, no two of them at one place, may be written: each page is writable, not stepped and no row of a table with a hot
area, and no watch is set. -/
def MayWrite (s : State) (w : List (Nat × Byte)) : Prop :=
  s.sch.watches = [] ∧ (w.map fun e => memAt s e.1).Nodup ∧
    ∀ e ∈ w, iaTier e.1 ≤ 4 ∧ s.rowAt e.1 = none ∧ ∃ h, s.confirm e.1 true = .ok h ∧ pteStp h.pte = false

/-- These bytes stand at their homes, and every other byte behind the homes is as before. -/
def Written (s t : State) (w : List (Nat × Byte)) : Prop :=
  (∀ e ∈ w, Memory.get t.hm.mem (memAt s e.1) = e.2) ∧
    ∀ k, (∀ e ∈ w, memAt s e.1 ≠ k) → Memory.get t.hm.mem k = Memory.get s.hm.mem k

/-- The bytes of f32 words from an IA. -/
def wordsAt (ia n : Nat) (v : Nat → Nat) : List (Nat × Byte) :=
  (List.range (4 * n)).map fun i => (ia + i, BitVec.ofNat 8 (v (i / 4) / 256 ^ (i % 4) % 256))

/-- The place of the indices of a tensor in the order of CPYX, dimension 0 fastest, and their offset above the lowest element (R250). -/
def placeOf : List (Nat × Int × Int) → List Nat → Nat
  | d :: ds, i :: is => i + d.1 * placeOf ds is
  | _, _ => 0
def offsetOf (stride : Nat × Int × Int → Int) (dims : List (Nat × Int × Int)) (is : List Nat) : Int :=
  ((dims.zip is).map fun x => (x.2 : Int) * stride x.1).sum - (dims.map fun d => min 0 (((d.1 : Int) - 1) * stride d)).sum

end Sys2Proof.Claims

/-- GATH, WALK, POOL, BUCK, SUPD, CPYX and DECMP write what their rules say with their last unit, and bad rows end
them with a status. A command that stands at its last unit and may run completes with status 0 and writes: GATH a
row's bytes, zero-padded; WALK a page by its block number, zeros for 0xFFFF_FFFF; POOL for each element the exact sum
of weight × value over the bag, rounded once to OUT, NaN where a weight, scale, bias or element is infinite or NaN;
BUCK the counts of the shards and the records by shard in input order with POS and SRC; SUPD the row that its
coalesced gradient and OPT give, and its state row, and no other byte behind the homes; CPYX an element from the
source to the destination; a linear DECMP a block's decoded bytes, with status 0x04 or 0x05 where it does not decode.
A row beyond the table gives 0x01, one of another package 0x02, a table of the wrong format 0x03. Said for arrays
without errors and coded pages, no command that writes what it reads, and for SUPD no watch and no table with a hot
area; POOL and SUPD of tables in tier 3 without a hot area (R72, R133 to R137, R246, R250 to R257, R260, R261). -/
def Obligations.TableEngines : Prop :=
  (∀ (s : State) (c : CoreId) (q : SeqId) (i : Nat) (x : Cmd) (id : Nat) (t : Table) (r l : Nat), Claims.AtUnit s c q i x →
    x.op = 0xB2 → x.table = some (id, t) → x.blk.p3.toNat = x.done + 1 → r = Claims.lmNum s c (x.blk.p2.toNat + 8 * x.done) 8 →
    Claims.RowHere s t r l →
    (let n := (t.rowBytes + 7) / 8 * 8
     let o := x.blk.p0.toNat + x.done * n
     o + n ≤ 2 ^ 21 → ∃ u done, exec (.engineCommandComplete c q i) s = .next u ∧ Claims.Left s u c q i x 0 done ∧
       Claims.LmPut s u c o n (fun k => if k < t.rowBytes then s.homeByte (t.base + l * t.stride + k) else 0))) ∧
  (∀ (s : State) (c : CoreId) (q : SeqId) (i : Nat) (x : Cmd) (p n : Nat), Claims.AtUnit s c q i x → x.op = 0xB9 →
    (x.blk.p3.extractLsb' 0 7).toNat = x.done + 1 → n = 2 ^ ((x.blk.p3.extractLsb' 8 4).toNat + 8) →
    p = Claims.lmNum s c (x.blk.p2.toNat + 4 * x.done) 4 →
    (let o := x.blk.p0.toNat + x.done * n
     let page (b : Nat → Byte) := ∃ u done, exec (.engineCommandComplete c q i) s = .next u ∧ Claims.Left s u c q i x 0 done ∧
       Claims.LmPut s u c o n b
     o + n ≤ 2 ^ 21 → (p = 0xFFFFFFFF → page (fun _ => 0)) ∧
     (∀ a b : Trans, p ≠ 0xFFFFFFFF → translate (s.core c).partNo x.rng ((x.blk.p1.toNat + 8 * p) % 2 ^ 64) 8 .rd = .ok a →
       Claims.Serves s a.ia 8 → Claims.homeNum s a.ia 8 % 8 = 0 →
       translate (s.core c).partNo x.rng (Claims.homeNum s a.ia 8) n .rd = .ok b → Claims.Serves s b.ia n →
       page (fun k => s.homeByte (b.ia + k))))) ∧
  (∀ (s : State) (c : CoreId) (q : SeqId) (i : Nat) (x : Cmd) (id : Nat) (t : Table) (b : Bag) (row : Nat → Nat),
    Claims.AtUnit s c q i x → x.op = 0xB3 → x.table = some (id, t) → t.fmt < 3 → (iaTier t.base = 3 → t.hotLog = 0xFF) →
    (bagsOf x.record).length = x.done + 1 → (bagsOf x.record)[x.done]? = some b →
    (∀ k < b.cnt, Claims.RowHere s t (Claims.lmNum s c (b.idx + 8 * k) 8) (row k)) →
    (let out := (x.blk.p3.extractLsb' 0 2).toNat
     let f : Fmt := match out with | 0 => fmtF32 | 1 => fmtF16 | _ => fmtBf16
     let sz := if out = 0 then 4 else 2
     let n := (t.elems * sz + 7) / 8 * 8
     let o := x.blk.p0.toNat + x.done * n
     o + n ≤ 2 ^ 21 → ∃ u done b', exec (.engineCommandComplete c q i) s = .next u ∧ Claims.Left s u c q i x 0 done ∧
       u.hm.mem = s.hm.mem ∧ Claims.LmPut s u c o n b' ∧ (∀ k, t.elems * sz ≤ k → k < n → b' k = 0) ∧
       ∀ j < t.elems, ∀ v : Nat → Option Rat,
         (∀ k < b.cnt, Claims.ElemIs t.fmt t.elems (fun m => s.homeByte (t.base + row k * t.stride + m)) j (v k)) →
         (let w (k : Nat) := match b.wgt with | none => 0x3C00 | some a => Claims.lmNum s c (a + 2 * k) 2
          let e := Claims.lmNum u c (o + j * sz) sz
          ((∃ k < b.cnt, v k = none ∨ ¬Claims.isFinite fmtF16 (w k)) → e = f.nanBits) ∧
          ((∀ k < b.cnt, v k ≠ none ∧ Claims.isFinite fmtF16 (w k)) → ∃ r, e = r.bits ∧
            Claims.RoundsTo f 0 ((List.range b.cnt).map fun k => Claims.exact fmtF16 (w k) * (v k).getD 0).sum r)))) ∧
  (∀ (s : State) (c : CoreId) (q : SeqId) (i : Nat) (x : Cmd) (id : Nat) (t : Table) (n : Nat) (sh loc : Nat → Nat),
    Claims.AtUnit s c q i x → x.op = 0xB6 → x.table = some (id, t) → x.done = 0 → x.blk.p2.toNat = n →
    (let rsz := (x.blk.p3.extractLsb' 12 16).toNat
     let head := (4 * t.shcnt + 7) / 8 * 8
     let o := x.blk.p0.toNat
     let src := x.blk.p1.toNat
     let size (z : Nat) := ((List.range n).filter fun k => sh k = z).length
     let base (z : Nat) := head + ((List.range z).map size).sum * rsz
     16 ≤ rsz → (t.shard = 2 → Claims.Serves s t.owner (2 * t.shcnt)) →
     (∀ k < n, Claims.ShardOf s t (Claims.lmNum s c (src + k * rsz) 8) (sh k) (loc k) ∧
       (t.shard = 2 → Claims.homeNum s (t.owner + 2 * sh k) 2 ≠ s.fab.pkg.toNat ∨ loc k < t.rows) ∧ (t.shard ≠ 2 → loc k < t.rows)) →
     o + head + n * rsz ≤ 2 ^ 21 → ∃ u done b, exec (.engineCommandComplete c q i) s = .next u ∧ Claims.Left s u c q i x 0 done ∧
       u.hm.mem = s.hm.mem ∧ Claims.LmPut s u c o (head + n * rsz) b ∧ (∀ z < t.shcnt, Claims.lmNum u c (o + 4 * z) 4 = size z) ∧
       ∀ k < n, ∀ m < rsz, b (base (sh k) + ((List.range k).filter fun k' => sh k' = sh k).length * rsz + m) =
         if 8 ≤ m ∧ m < 12 then BitVec.ofNat 8 (k / 256 ^ (m - 8)) else if m = 12 then s.fab.pkg.extractLsb' 0 8
         else if m = 13 then s.fab.pkg.extractLsb' 8 8 else Claims.lmByte s c (src + k * rsz + m))) ∧
  (∀ (s : State) (c : CoreId) (q : SeqId) (i : Nat) (x : Cmd) (id : Nat) (t : Table) (n r l : Nat) (raw : List Byte) (order : List Nat)
      (w' st' : Nat → Nat),
    Claims.Runs s c q i x → x.op = 0xB5 → x.table = some (id, t) → t.fmt = 3 → t.opt ≤ 2 → (iaTier t.base = 3 → t.hotLog = 0xFF) →
    x.held = [(0, raw)] → x.peeked = [] → x.pend = [] → s.hm.bad = [] → (∀ e ∈ s.hm.ptes, pteCmp e.2 = false) → s.hm.out = 0 →
    x.blk.p1.toNat = n → raw.length = n * ((16 + 4 * t.elems + 7) / 8 * 8) →
    (let rsz := (16 + 4 * t.elems + 7) / 8 * 8
     let num (k o z : Nat) := leNat ((raw.drop (k * rsz + o)).take z)
     let key (k : Nat) := (num k 12 2 * 2 ^ 32 + num k 8 4) * 2 ^ 17 + k
     let grad (j : Nat) := match order with | [] => 0 | k :: ks => Claims.addAll (num k (16 + 4 * j) 4) (ks.map fun k => num k (16 + 4 * j) 4)
     let row := t.base + l * t.stride
     let opt := t.optBase + l * t.stride
     let st (j : Nat) := if t.opt = 1 then Claims.homeNum s (row + 4 * t.elems) 4 else Claims.homeNum s (opt + 4 * j) 4
     let ws := Claims.wordsAt row t.elems w' ++
       (if t.opt = 1 then Claims.wordsAt (row + 4 * t.elems) 1 st' else if t.opt = 2 then Claims.wordsAt opt t.elems st' else [])
     n < 2 ^ 17 → ((List.range n).map fun k => num k 0 8).eraseDups.length = x.done + 1 → (∀ k < n, num k 0 8 ≤ r) →
     (∀ k, k ∈ order ↔ k < n ∧ num k 0 8 = r) → order ≠ [] → order.Pairwise (fun a b => key a < key b) → Claims.RowHere s t r l →
     (t.opt = 2 → Claims.Serves s opt (4 * t.elems)) → Claims.MayWrite s ws →
     Claims.StepIs t.opt t.elems (x.blk.p2.extractLsb' 0 32).toNat (x.blk.p2.extractLsb' 32 32).toNat
       (fun j => Claims.homeNum s (row + 4 * j) 4) grad st w' st' →
     ∃ u done, exec (.engineCommandComplete c q i) s = .next u ∧ Claims.Left s u c q i x 0 done ∧ u.hm.lm = s.hm.lm ∧
       Claims.Written s u ws)) ∧
  (∀ (s : State) (c : CoreId) (q : SeqId) (i : Nat) (x : Cmd) (a b : Nat) (is : List Nat), Claims.AtUnit s c q i x → x.op = 0xB1 →
    Blk.lm x.blk 0 = true → Blk.lm x.blk 1 = true → x.ias = [a, b] →
    (let h := x.shape
     let dst := (a : Int) + Claims.offsetOf (fun d => d.2.2) h.dims is
     let src := (b : Int) + Claims.offsetOf (fun d => d.2.1) h.dims is
     0 < h.esz → is.length = h.dims.length → (∀ d ∈ h.dims.zip is, d.2 < d.1.1) → x.done = Claims.placeOf h.dims is →
     (h.dims.map (·.1)).foldl (· * ·) 1 = x.done + 1 → 0 ≤ dst → 0 ≤ src → dst.toNat + h.esz ≤ 2 ^ 21 →
     ∃ u done, exec (.engineCommandComplete c q i) s = .next u ∧ Claims.Left s u c q i x 0 done ∧ u.hm.mem = s.hm.mem ∧
       Claims.LmPut s u c dst.toNat h.esz (fun k => Claims.lmByte s c (src.toNat + k)))) ∧
  (∀ (s v : State) (c : CoreId) (q : SeqId) (i : Nat) (x : Cmd) (h : CodedHeader) (payload : List Byte), Claims.AtUnit s c q i x →
    x.op = 0xB4 → x.blk.p3.extractLsb' 0 4 = 0 → x.blk.p2.toNat = x.done + 1 → s.codedAt c x = .ok (h, payload, v) →
    (let o := x.blk.p0.toNat + x.off
     let room := 8 * (x.blk.p3.extractLsb' 8 16).toNat - x.off
     let out := (decodeInto h payload).1
     let st := (decodeInto h payload).2
     (room < h.outLen → ∃ u, exec (.engineCommandComplete c q i) s = .next u ∧ Claims.Left s u c q i x 0x0B x.done ∧ u.hm.lm = s.hm.lm) ∧
     (h.outLen ≤ room → o + out.length ≤ 2 ^ 21 →
       (st = 0 → ∃ u done, exec (.engineCommandComplete c q i) s = .next u ∧ Claims.Left s u c q i x 0 done ∧
         Claims.LmPut s u c o out.length (fun k => out.getD k 0)) ∧
       (st ≠ 0 → ∃ u w, exec (.engineCommandComplete c q i) s = .next u ∧ exec (.engineCommandComplete c q i) u = .next w ∧
         Claims.Left s w c q i x st x.done ∧ Claims.LmPut s w c o out.length (fun k => out.getD k 0))))) ∧
  (∀ (h : CodedHeader) (payload : List Byte), h.code = 0 →
    decodeInto h payload = (payload, if crc32c payload = h.crc then 0 else 5)) ∧
  (∀ (h : CodedHeader) (payload : List Byte) (ts : List Nat) (rest : List Bool), h.code = 1 → (∀ t ∈ ts, t = 0 ∨ t = 1 ∨ t = 3) →
    ts.length = 4 * h.outLen →
    (payload.flatMap fun b => (List.range 8).map fun k => b.getLsbD k) =
      (ts.flatMap fun t => if t = 0 then [false] else [true, t == 3]) ++ rest →
    (let out := (List.range h.outLen).map fun k => (BitVec.ofNat 8 (ts.getD (4 * k) 0 + 4 * ts.getD (4 * k + 1) 0 +
       16 * ts.getD (4 * k + 2) 0 + 64 * ts.getD (4 * k + 3) 0) : Byte)
     decodeInto h payload = (out, if rest.length < 8 ∧ (∀ b ∈ rest, b = false) then (if crc32c out = h.crc then 0 else 5) else 4))) ∧
  (∀ (s : State) (c : CoreId) (q : SeqId) (i : Nat) (x : Cmd) (id : Nat) (t : Table) (r sh l : Nat), Claims.AtUnit s c q i x →
    x.table = some (id, t) → Claims.ShardOf s t r sh l → Claims.Serves s t.owner (2 * t.shcnt) →
    (let owned := Claims.homeNum s (t.owner + 2 * sh) 2 = s.fab.pkg.toNat
     let ends (st : Nat) := ∃ u, exec (.engineCommandComplete c q i) s = .next u ∧ Claims.Left s u c q i x st x.done ∧
       u.hm.mem = s.hm.mem ∧ u.hm.lm = s.hm.lm
     (x.op = 0xB3 → t.fmt = 3 → ends 3) ∧ (x.op = 0xB5 → t.fmt ≠ 3 → ends 3) ∧
     (((x.op = 0xB2 ∧ x.done < x.blk.p3.toNat ∧ r = Claims.lmNum s c (x.blk.p2.toNat + 8 * x.done) 8) ∨
       (x.op = 0xB3 ∧ t.fmt < 3 ∧ ∃ b, (bagsOf x.record)[x.done]? = some b ∧ 0 < b.cnt ∧ r = Claims.lmNum s c b.idx 8)) →
       (t.shard = 0 → t.rows ≤ l → ends 1) ∧ (owned → t.rows ≤ l → ends 1) ∧ (¬owned → (t.shard = 0 → l < t.rows) → ends 2))))

namespace Sys2Proof.Claims

/-- What an instruction of the issuing sequencer leaves alone: the agenda and the model's counters, all of the memory system with
every byte of memory, the scheduler, the fabric and the host side; every other core; of its own core everything but the registers
`ds` and the queues `qs`, and but where it goes on: its pc, its loop stack, its repeat count and, on X, the rotation. FPCS, the
trap frame, the supervisor bank and every other special register are among what stays. -/
structure Keeps (ds : List (Fin 32)) (qs : List (Fin 8)) (s t : State) : Prop where
  agenda : t.agenda = s.agenda
  cur    : t.cur = s.cur
  free   : t.free = s.free
  stamp  : t.stamp = s.stamp
  clock  : t.clock = s.clock
  hm     : t.hm = s.hm
  memory : ∀ k, Memory.get t.hm.mem k = Memory.get s.hm.mem k
  lm     : ∀ k, Memory.get t.hm.lm k = Memory.get s.hm.lm k
  sch    : t.sch = s.sch
  fab    : t.fab = s.fab
  hst    : t.hst = s.hst
  cores  : ∀ c, c ≠ s.cur.core → t.core c = s.core c
  seqs   : ∀ q, q ≠ s.cur.sq → t.here.seq q = s.here.seq q
  core   : { t.here with seqs := s.here.seqs, queues := s.here.queues, x := { t.here.x with rot := s.here.x.rot } } = s.here
  queues : ∀ n : Fin 8, n ∉ qs → t.here.queues[n.val] = s.here.queues[n.val]
  me     : { t.me with g := s.me.g, pc := s.me.pc, loops := s.me.loops, repc := s.me.repc } = s.me
  regs   : ∀ n, n ∉ ds → t.me.rd n = s.me.rd n

/-- An instruction whose stall no user event interrupts changes nothing but C's note of it (R56). -/
def stalled (s : State) : State := if s.cur.sq = .C then s.setC { s.c with held := true } else s

/-- The registers and the queues that a scalar field names. -/
def fieldRegs : SReg → List (Fin 32)
  | .g n => [n]
  | .q _ => []
def fieldQs : SReg → List (Fin 8)
  | .g _ => []
  | .q n => [n]
def operandQs : SB → List (Fin 8)
  | .reg r => fieldQs r
  | _ => []

/-- The scalar ALU forms with two sources, but EXT. -/
def aluForms : List (SReg → SReg → SB → Instr) :=
  [.add, .sub, .mul, .mulh, .mulhn, .div, .divn, .rem, .remn, .and, .or, .xor, .andn, .shl, .shr, .sar, .ror, .min, .max, .minn,
   .maxn, .bset, .bclr]

end Sys2Proof.Claims

/-- A scalar ALU instruction changes its destination, its queues and where its sequencer goes on; g0 reads 0 and takes
no write. For every scalar ALU form on operands it can read and a destination that takes a write, the next state keeps
every register but D, every queue but those named as operands, FPCS and every other special register, the trap frame,
all memory and every other part of the machine; only the pc, the loop stack, the repeat count and the rotation may
move with the instruction's completion. In every sequencer state g0 reads 0 and stays so after any write to it, which
changes nothing at all; a write of v to another register makes it read v and leaves every other register as it was. An
ADD into g0 still completes, and every register reads as before it. -/
def Obligations.ScalarFrame : Prop :=
  (∀ (q : Seq) (v : Word), q.rd 0 = 0 ∧ q.wr 0 v = q) ∧
  (∀ (q : Seq) (n m : Fin 32) (v : Word), n ≠ 0 → (q.wr n v).rd n = v ∧ (m ≠ n → (q.wr n v).rd m = q.rd m)) ∧
  (∀ (s : State) (a b : Fin 32), ∃ t, exec (.add (.g 0) (.g a) (.reg (.g b))) s = .next t ∧ ∀ n, t.me.rd n = s.me.rd n) ∧
  (∀ mk ∈ Claims.aluForms, ∀ s d a b x y t u, Claims.Reads2 s a b x y t → Claims.Takes t d → exec (mk d a b) s = .next u →
    Claims.Keeps (Claims.fieldRegs d) (Claims.fieldQs a ++ Claims.operandQs b ++ Claims.fieldQs d) s u) ∧
  (∀ c s d a b x y t u, Claims.Reads2 s a b x y t → Claims.Takes t d → exec (.cmp c d a b) s = .next u →
    Claims.Keeps (Claims.fieldRegs d) (Claims.fieldQs a ++ Claims.operandQs b ++ Claims.fieldQs d) s u) ∧
  (∀ z s d a b x y t u, Claims.Reads2 s a b x y t → Claims.Takes t d → exec (.crc z d a b) s = .next u →
    Claims.Keeps (Claims.fieldRegs d) (Claims.fieldQs a ++ Claims.operandQs b ++ Claims.fieldQs d) s u) ∧
  (∀ sg s d a b x y t u, Claims.Reads2 s a b x y t → 1 ≤ y.toNat → y.toNat ≤ 64 → Claims.Takes t d →
    exec (.ext sg d a b) s = .next u →
    Claims.Keeps (Claims.fieldRegs d) (Claims.fieldQs a ++ Claims.operandQs b ++ Claims.fieldQs d) s u) ∧
  (∀ i ∈ [Instr.clz, .ctz, .popc, .mov], ∀ s d a x t u, s.readS a = .ok (x, t) → Claims.Takes t d → exec (i d a) s = .next u →
    Claims.Keeps (Claims.fieldRegs d) (Claims.fieldQs a ++ Claims.fieldQs d) s u) ∧
  (∀ sg lo w s d a x t u, s.readS a = .ok (x, t) → Claims.Takes t d → exec (.bfx sg d a lo w) s = .next u →
    Claims.Keeps (Claims.fieldRegs d) (Claims.fieldQs a ++ Claims.fieldQs d) s u) ∧
  (∀ lo w s d a x t u, s.readS a = .ok (x, t) → exec (.bfi d a lo w) s = .next u →
    Claims.Keeps [d] (Claims.fieldQs a) s u) ∧
  (∀ k s d u, Claims.Takes s d → exec (.ldi d k) s = .next u → Claims.Keeps (Claims.fieldRegs d) (Claims.fieldQs d) s u)

/-- Exp2 and log2 of a finite operand round, under the mode, a number within one part in 2^150 of the exact result.
For f32, f16 and bf16, every mode and every finite operand a that is not 0: 2^a for a below 2^21 in magnitude is the
format's rounding of p × 2^q, and of more where a rest is kept, with p × 2^q ≤ 2^a ≤ (p + p / 2^400) × 2^q, equal
without a rest; a greater a gives what a number above every finite magnitude, or below every positive one, rounds to.
The log2 of a positive a is exact for a power of two, and else rounds p / 2^200 and a rest with 2^170 ≤ p, of its
sign, within two units of the exact magnitude times 2^200: 2^p ≤ 2 × w^(2^200) and w^(2^200) ≤ 2^(p + 2), where w is a
or 1/a (R122, R210). VectorFloats says that VEXP2 and VLOG2 give these results. -/
def Obligations.ExpAndLogRound : Prop :=
  ∀ f ∈ [(⟨8, 23⟩ : Fmt), ⟨5, 10⟩, ⟨8, 7⟩], ∀ (rm a : Nat), rm < 4 → Claims.isFinite f a → Claims.magBits f a ≠ 0 →
    (let x := Claims.exact f a
     (∀ (n : Int) (j : Nat), x * (2 : Rat) ^ j = n → Claims.size x < 2 ^ 21 →
       ∃ (p : Nat) (q : Int) (rest : Bool), 2 ^ 60 ≤ p ∧ f.exp2 rm a = f.round rm false p q rest ∧
         (if rest then ((p : Rat) * 2 ^ q) ^ (2 ^ j) ≤ 2 ^ n ∧ (2 : Rat) ^ n ≤ (((p : Rat) + p / 2 ^ 400) * 2 ^ q) ^ (2 ^ j)
          else ((p : Rat) * 2 ^ q) ^ (2 ^ j) = 2 ^ n)) ∧
     (2 ^ 21 ≤ Claims.size x → f.exp2 rm a = f.round rm false (2 ^ 64) (if x < 0 then -100000 else 100000) true) ∧
     (0 < x → (∀ k : Int, x = 2 ^ k → Claims.RoundsTo f rm k (f.log2 rm a)) ∧
       ((∀ k : Int, x ≠ 2 ^ k) → ∃ p : Nat, 2 ^ 170 ≤ p ∧ f.log2 rm a = f.round rm (x < 1) p (-200) true ∧
         (let w := if x < 1 then 1 / x else x
          (2 : Rat) ^ p ≤ 2 * w ^ (2 ^ 200) ∧ w ^ (2 ^ 200) ≤ (2 : Rat) ^ (p + 2)))))

/-- Reading a queue pops its oldest message for its consumer, writing one pushes for its producer; others trap. On a
core whose card binds queue n to two different sequencers. MOV from qn by the consumer completes with a message
queued, writes the oldest and leaves the rest in order, one more pop counted; with none it stalls. MOV into qn by the
producer, whose earlier loads, atomics and stores have been performed at .core (a push is a release there), completes
with fewer than 16 messages and the value becomes the youngest; with 16 or more it stalls when the queue's QPOOL bit
is 0 (a stall that no user event interrupts, which C notes, R56), completes when the bit is 1 and a slot of the core's
pool is free, and raises cause 0x0F when none is. A sequencer that is not the one named, or an unbound queue (both
indices equal), raises cause 0x03 (R29). -/
def Obligations.QueuesPass : Prop :=
  (∀ (s : State) (n : Fin 8) (d : Fin 32) (k : Card), s.cardOn s.cur.core = some k →
     (let b := CardImg.qbind k.img n.val
      (b.1 ≠ b.2 → b.2 = s.cur.sq.idx.val →
        (∀ m rest, s.here.queues[n.val].msgs = m :: rest →
          ∃ u : State, s.readS (.q n) = .ok (m, u) ∧ u.here.queues[n.val].msgs = rest ∧
            u.here.queues[n.val].head = s.here.queues[n.val].head + 1 ∧
            u.here.queues[n.val].tail = s.here.queues[n.val].tail ∧
            exec (.mov (.g d) (.q n)) s = .next (u.setMe (u.me.wr d m)).complete) ∧
        (s.here.queues[n.val].msgs = [] → exec (.mov (.g d) (.q n)) s = .next s)) ∧
      (b.1 = b.2 ∨ b.2 ≠ s.cur.sq.idx.val →
        exec (.mov (.g d) (.q n)) s =
          .next (s.raise s.cur.core s.cur.sq s.me.pc ⟨0x03, 0, s.cur.word⟩)))) ∧
  (∀ (s : State) (n : Fin 8) (a : Fin 32) (k : Card), s.cardOn s.cur.core = some k →
     (let b := CardImg.qbind k.img n.val
      let q := s.here.queues[n.val]
      let used := (s.here.queues.toList.map fun x => x.msgs.length - 16).sum
      (b.1 ≠ b.2 → b.1 = s.cur.sq.idx.val →
        s.me.loads.all (fun l => l.vals.isSome) = true → s.me.atoms = [] → s.me.stores.all (fun x => x.moment != .issued) = true →
        (q.msgs.length < 16 ∨ (CardImg.qpool k.img).testBit n.val = true ∧ used < CardImg.poolSize k.img →
          ∃ u : State, exec (.mov (.q n) (.g a)) s = .next u.complete ∧ u.here.queues[n.val].msgs = q.msgs ++ [s.me.rd a] ∧
            u.here.queues[n.val].tail = q.tail + 1 ∧ u.here.queues[n.val].head = q.head) ∧
        (16 ≤ q.msgs.length → (CardImg.qpool k.img).testBit n.val = false → exec (.mov (.q n) (.g a)) s = .next (Claims.stalled s)) ∧
        (16 ≤ q.msgs.length → (CardImg.qpool k.img).testBit n.val = true → CardImg.poolSize k.img ≤ used →
          exec (.mov (.q n) (.g a)) s = .next (s.raise s.cur.core s.cur.sq s.me.pc ⟨0x0F, 0, s.cur.word⟩))) ∧
      (b.1 = b.2 ∨ b.1 ≠ s.cur.sq.idx.val →
        exec (.mov (.q n) (.g a)) s =
          .next (s.raise s.cur.core s.cur.sq s.me.pc ⟨0x03, 0, s.cur.word⟩))))

namespace Sys2Proof.Claims

/-- The taken branch of an address `pc` to a target: the pc is the target, the loop stack is what R185 leaves of it, and nothing
else changes. -/
def BranchesTo (s : State) (target : Word) (t : State) : Prop :=
  t = s.setMe { s.me with pc := target, loops := loopLeave s.me.pc target s.me.loops }

/-- A loop stack of n entries: those below n have counts, the others none. -/
def Stack (l : Vector LoopEntry 4) (n : Nat) : Prop :=
  n ≤ 4 ∧ ∀ i, i < 4 → ((vget l i LoopEntry.empty).count ≠ 0 ↔ i < n)

/-- An address lies in the body of an entry. -/
def InBody (e : LoopEntry) (a : Word) : Prop := e.start.toNat ≤ a.toNat ∧ a.toNat ≤ e.fin.toNat

/-- The trap that an instruction raises on the state it finds: a cause, TFADDR and TFDET. -/
def Traps (i : Instr) (s : State) (cause : Nat) (addr det : Word) : Prop :=
  exec i s = .next (s.raise s.cur.core s.cur.sq s.me.pc ⟨cause, addr, det⟩)

end Sys2Proof.Claims

/-- BR, BCC, BBIT, CALL and JMP go where R181 says; NOP passes. BR, CALL and the taken BCC and BBIT go to the
instruction's address plus 8 times the signed displacement, JMP to g[A] + k; BCC is taken when its condition holds of
a and b, BBIT.EQ and BBIT.NE when the bit is 0 and 1. CALL writes the address of the next instruction and keeps the
loop stack; the others leave of it what R185 says. A JMP to a target that is no multiple of 8 raises cause 0x05 with
that target and does not complete. NOP completes and does nothing else. -/
def Obligations.Branches : Prop :=
  (∀ s, exec .nop s = .next s.complete) ∧
  (∀ s d, ∃ t, Claims.BranchesTo s (s.me.pc + 8 * d.val) t ∧ exec (.br d) s = .next t) ∧
  (∀ s c a b d x y u, Claims.Reads2 s a (.reg b) x y u →
    c.holds x y = true → ∃ t, Claims.BranchesTo u (u.me.pc + 8 * d.val) t ∧ exec (.bcc c a b d) s = .next t) ∧
  (∀ s a k d x u, s.readS a = .ok (x, u) →
    (x.getLsbD k.toNat = false → ∃ t, Claims.BranchesTo u (u.me.pc + 8 * d.val) t ∧ exec (.bbitEq a k d) s = .next t) ∧
    (x.getLsbD k.toNat = true → ∃ t, Claims.BranchesTo u (u.me.pc + 8 * d.val) t ∧ exec (.bbitNe a k d) s = .next t)) ∧
  (∀ s d k, exec (.call d k) s =
    .next (s.setMe { s.me.wr d (s.me.pc + BitVec.ofNat 64 s.cur.len) with pc := s.me.pc + 8 * k.val })) ∧
  (∀ s a k x u, s.readS a = .ok (x, u) →
    ((x + k.val).toNat % 8 = 0 → ∃ t, Claims.BranchesTo u (x + k.val) t ∧ exec (.jmp a k) s = .next t) ∧
    ((x + k.val).toNat % 8 ≠ 0 → ∃ det, Claims.Traps (.jmp a k) s 0x05 (x + k.val) det))

/-- A branch not taken has no effect beyond reading its operands, and a guarded-off instruction is not executed. BCC
whose condition does not hold, BBIT.EQ on a bit that is 1 and BBIT.NE on a bit that is 0 complete on the state that
reading their operands left. A decoded instruction whose guard register is not waited for and whose guard is off is
not executed: the sequencer passes it as a completed instruction, so that a guarded-off branch is not taken; the words
of an instruction under a REP are kept for its later repetitions (R332), and nothing is kept of another. -/
def Obligations.UntakenBranches : Prop :=
  (∀ s c a b d x y u, Claims.Reads2 s a (.reg b) x y u → c.holds x y = false → exec (.bcc c a b d) s = .next u.complete) ∧
  (∀ s a k d x u, s.readS a = .ok (x, u) →
    (x.getLsbD k.toNat = true → exec (.bbitEq a k d) s = .next u.complete) ∧
    (x.getLsbD k.toNat = false → exec (.bbitNe a k d) s = .next u.complete)) ∧
  (∀ (s : State) (ws : List Word) (d : Decoded) (g : Guard), decode s.cur.word ws = .ok d → d.guard = some g →
    s.me.waitsFor g.gr.toFin = false → ((s.me.rd g.gr.toFin).getLsbD g.gb.toNat = g.gn) →
    s.judge ws = .over (s.keepRep (s.cur.word :: ws)).complete) ∧
  (∀ (s : State) (ws : List Word), s.me.repc = 0 → s.me.rep = none → s.keepRep ws = s)

namespace Sys2Proof.Claims

/-- A unit of a command goes to another package as a request, once, and waits there for its answer. -/
def Asks (s : State) (c : CoreId) (q : SeqId) (i : Nat) (x : Cmd) (dst : BitVec 16) (r : PReq) : Prop :=
  ∃ (t : State) (id : Nat), exec (.engineCommandComplete c q i) s = .next t ∧ t.hm.mem = s.hm.mem ∧ t.hm.lm = s.hm.lm ∧
    (∃ d ∈ t.fab.sends, d.id = id ∧ d.dst = dst ∧ d.req = r ∧ d.core = some (c, q, x.stamp)) ∧
    ((t.seq c q).cmds[i]?).map (·.sent) = some (x.sent ++ [⟨id, x.done, .pending⟩])

/-- Another package can be sent to, and a unit of a command has not been sent yet. -/
def ToSend (s : State) (x : Cmd) (dst : BitVec 16) : Prop :=
  dst ≠ s.fab.pkg ∧ (s.route dst).getLsbD 63 = true ∧ (s.peer dst).lost = false ∧ ∀ u ∈ x.sent, u.member ≠ x.done

/-- A unit of a command has this answer. -/
def Answered (x : Cmd) (a : UnitAnswer) : Prop := ∃ id, x.sent = [⟨id, x.done, a⟩]

/-- The bytes of a core's local memory from an offset. -/
def lmRun (s : State) (c : CoreId) (o n : Nat) : List Byte := Memory.read s.hm.lm (c.val * 2 ^ 21 + o) n

/-- The key of a command's element (R107). -/
def elemKey (s : State) (x : Cmd) (sn : Nat) : OKey := ⟨s.fab.pkg, BitVec.ofNat 10 x.gid, BitVec.ofNat 40 (x.key0 + sn - x.sn0)⟩

end Sys2Proof.Claims

/-- The units of RST, RRED, RLD, XALL and COLL are sent, buffered or answered, and the exchanges end when every
member's part has come. A unit of a unicast RST or RRED, 256 bytes of local memory with its step, order key, offset
and flag, is buffered in an export of this package or goes to its target's package; one that the export refuses ends
the command with 0x08. An RLD asks for 256 bytes, or reads them here once its step has come, and writes them. A
multicast RST sends its copy to each child. XALL sends each member, by least owned shard, the count and the records of
every shard that it owns, at off + me × ibx, buffered for the boundary or, with ASYNC, written at once; an area longer
than the inbox gives 0x0B, a package that owns no shard 0x09; with ASYNC it ends when every other member's area has
come. COLL sends each member its part by KIND; with ASYNC it ends by writing what KIND says: the contributions
combined by OP in ascending package id, or each at its place. A unit answered by acceptance or data is done, by a
refusal ends with 0x08, by loss with 0x0A (R98, R103, R105, R107, R262 to R267, R313, R371, R372; the number of an
exchange is log 34, of keys within a command log 27). -/
def Obligations.RemoteUnits : Prop :=
  (∀ (s : State) (c : CoreId) (q : SeqId) (i : Nat) (x : Cmd) (g : Fin 16) (step : Nat) (dst : BitVec 16) (exp off : Nat) (fl : List Nat),
    Claims.AtUnit s c q i x → x.op ∈ [0xC0#8, 0xC1, 0xC2] → (x.op = 0xC0 → (x.blk.p0.extractLsb' 62 2).toNat ≠ 2) →
    x.stepOf = some (g, step) → (s.fab.groups[g.val]).failed = none → x.ias = dst.toNat :: exp :: off :: fl → exp < 64 →
    256 * x.done < x.blk.p2.toNat →
    (let n := x.blk.p2.toNat
     let o := 256 * x.done
     let k := min 256 (n - o)
     let w8 := decide ((x.blk.p3.extractLsb' 4 2).toNat = 3)
     let elem := if x.op = 0xC0 then 8 else if w8 then 8 else 4
     let kind : WKind := if x.op = 0xC0 then .plain else .rred (atomOfCode (x.blk.p3.extractLsb' 0 4).toNat) w8
     let u : StepUnit := ⟨(s.fab.groups[g.val]).gid, step, BitVec.ofNat 6 exp, off + o, Claims.lmRun s c (x.blk.p1.toNat + o) k, kind,
       Claims.elemKey s x (o / elem), BitVec.ofNat 40 x.key0, fl.head?, (n + 255) / 256 - x.done - 1, x.depth⟩
     let last := n ≤ o + 256
     (x.op ≠ 0xC1 → Claims.ToSend s x dst → Claims.Asks s c q i x dst (.stepped u)) ∧
     (x.op = 0xC1 → Claims.ToSend s x dst →
       Claims.Asks s c q i x dst (.read (s.fab.groups[g.val]).gid step (BitVec.ofNat 6 exp) (off + o) k)) ∧
     (x.op ≠ 0xC1 → dst = s.fab.pkg → s.targetOf s.fab.pkg u = none → ∃ t, exec (.engineCommandComplete c q i) s = .next t ∧
       Claims.Left s t c q i x 8 x.done ∧ t.fab.sbuf = s.fab.sbuf ∧ t.hm.mem = s.hm.mem) ∧
     (∀ r b, x.op ≠ 0xC1 → dst = s.fab.pkg → last → s.targetOf s.fab.pkg u = some r → (u.gid, u.step, unitCmdKey u) ∉ s.fab.full →
       (∀ e ∈ s.fab.sbuf, e.key ≠ u.key) → s.room r u.data.length = some b → ∃ t done,
       exec (.engineCommandComplete c q i) s = .next t ∧ Claims.Left s t c q i x 0 done ∧ t.hm.mem = s.hm.mem ∧ t.hm.lm = s.hm.lm ∧
       t.fab.sbuf = s.fab.sbuf ++ ⟨exp, r.group, step, u.key, u.off, u.data, kind, b, x.depth, []⟩ ::
         (fl.head?.toList.map fun f => ⟨exp, r.group, step, u.key, f, [], .flag, true, x.depth, []⟩)) ∧
     (∀ r, x.op = 0xC1 → dst = s.fab.pkg → s.readTarget s.fab.pkg (s.fab.groups[g.val]).gid step exp (off + o) k = some r →
       (s.fab.groups[g.val].step < step → exec (.engineCommandComplete c q i) s = .next s) ∧
       (step ≤ s.fab.groups[g.val].step → last → iaTier (r.base + off + o) ≤ 4 → s.foreignStep c (r.base + off + o) k = none →
         (∀ j < k, ∃ h, s.confirm (r.base + off + o + j) false = .ok h) → x.blk.p0.toNat + o + k ≤ 2 ^ 21 →
         ∃ t done, exec (.engineCommandComplete c q i) s = .next t ∧ Claims.Left s t c q i x 0 done ∧ t.hm.mem = s.hm.mem ∧
           Claims.LmPut s t c (x.blk.p0.toNat + o) k (fun j => s.homeByte (r.base + off + o + j)))) ∧
     (dst ≠ s.fab.pkg →
       (Claims.Answered x .pending → exec (.engineCommandComplete c q i) s = .next s) ∧
       (Claims.Answered x .refused → ∃ t, exec (.engineCommandComplete c q i) s = .next t ∧ Claims.Left s t c q i x 8 x.done) ∧
       (Claims.Answered x .lost → ∃ t, exec (.engineCommandComplete c q i) s = .next t ∧ Claims.Left s t c q i x 0x0A x.done) ∧
       (x.op ≠ 0xC1 → last → Claims.Answered x .accepted → ∃ t done, exec (.engineCommandComplete c q i) s = .next t ∧
         Claims.Left s t c q i x 0 done ∧ t.hm.lm = s.hm.lm) ∧
       (∀ bs, x.op = 0xC1 → last → Claims.Answered x (.data bs) → x.blk.p0.toNat + o + bs.length ≤ 2 ^ 21 → ∃ t done,
         exec (.engineCommandComplete c q i) s = .next t ∧ Claims.Left s t c q i x 0 done ∧
           Claims.LmPut s t c (x.blk.p0.toNat + o) bs.length (fun j => bs.getD j 0))))) ∧
  (∀ (s : State) (c : CoreId) (q : SeqId) (i : Nat) (x : Cmd) (g : Fin 16) (step : Nat) (e : McEntry), Claims.AtUnit s c q i x →
    x.op = 0xC0 → (x.blk.p0.extractLsb' 62 2).toNat = 2 → x.done = 0 → 0 < x.blk.p2.toNat → x.off = 0 → x.stepOf = some (g, step) →
    (s.fab.groups[g.val]).failed = none → dget s.fab.mcast (x.blk.p0.extractLsb' 54 8).toNat = some e →
    (let w := x.blk.p0
     let m : McCopy := ⟨Fin.ofNat 256 (w.extractLsb' 54 8).toNat, (s.fab.groups[g.val]).gid, step, w.extractLsb' 48 6,
       (w.extractLsb' 0 28).toNat, if w.getLsbD 47 then some (8 * (w.extractLsb' 28 19).toNat) else none,
       Claims.lmRun s c x.blk.p1.toNat x.blk.p2.toNat, Claims.elemKey s x 0, x.depth⟩
     ∃ t, exec (.engineCommandComplete c q i) s = .next t ∧
       (∃ a ∈ t.fab.acks, a.grp = m.grp ∧ a.step = step ∧ a.key = m.key ∧ ∀ k : Fin 16, k ∈ a.left ↔ e.hdr.getLsbD k.val = true) ∧
       ∀ k : Fin 16, e.hdr.getLsbD k.val = true → ∃ d ∈ t.fab.sends, d.dst = s.neighbour k ∧ d.req = .copy m)) ∧
  (∀ (s : State) (c : CoreId) (q : SeqId) (i : Nat) (x : Cmd) (id : Nat) (t : Table) (own cnt : Nat → Nat) (z me : Nat),
    Claims.AtUnit s c q i x → x.op = 0xB7 → x.table = some (id, t) → 0 < t.shcnt → x.off = 0 →
    x.record = (List.range t.shcnt).map (fun j => BitVec.ofNat 64 (own j)) ++ (List.range t.shcnt).map (fun j => BitVec.ofNat 64 (cnt j)) →
    (∀ j < t.shcnt, own j < 2 ^ 16 ∧ cnt j < 2 ^ 32) →
    (let async := x.blk.p3.getLsbD 18
     let rsz := (x.blk.p3.extractLsb' 19 16).toNat
     let exp := x.blk.p3.extractLsb' 12 6
     let head := (4 * t.shcnt + 7) / 8 * 8
     let at_ (j : Nat) := x.blk.p0.toNat + head + ((List.range j).map fun k => cnt k * rsz).sum
     let area := (List.range t.shcnt).flatMap fun j => if own j = own z then leBytes 8 (cnt j) ++ Claims.lmRun s c (at_ j) (cnt j * rsz) else []
     let off := x.blk.p1.toNat + me * x.blk.p2.toNat
     let dst := BitVec.ofNat 16 (own z)
     let seen (k : Nat) := ((List.range k).map own).eraseDups.length
     let live := async = true ∨ ∃ g step, x.stepOf = some (g, step) ∧ (s.fab.groups[g.val]).failed = none
     let ends (st : Nat) := ∃ u, exec (.engineCommandComplete c q i) s = .next u ∧ Claims.Left s u c q i x st x.done
     live →
     ((∀ j < t.shcnt, own j ≠ s.fab.pkg.toNat) → ends 9) ∧
     (me < t.shcnt → own me = s.fab.pkg.toNat → (∀ j < me, own j ≠ own me) →
       (z < t.shcnt → (∀ j < z, own j ≠ own z) → seen z = x.done →
         (x.blk.p2.toNat < area.length → ends 0x0B) ∧
         (area.length ≤ x.blk.p2.toNat → Claims.ToSend s x dst →
           (async = true → Claims.Asks s c q i x dst (.write exp off area x.depth x.aux)) ∧
           (∀ g step, async = false → x.stepOf = some (g, step) → ∃ sn, Claims.Asks s c q i x dst
             (.stepped ⟨(s.fab.groups[g.val]).gid, step, exp, off, area, .plain, Claims.elemKey s x sn, BitVec.ofNat 40 x.key0, none, 0,
               x.depth⟩)))) ∧
       (async = true → seen t.shcnt = x.done →
         (let come (p : Nat) := p = s.fab.pkg.toNat ∨ (BitVec.ofNat 16 p, exp.toNat, x.aux) ∈ s.fab.areas
          let there (p : Nat) := (s.route (BitVec.ofNat 16 p)).getLsbD 63 = true ∧ (s.peer (BitVec.ofNat 16 p)).lost = false
          ((∀ j < t.shcnt, come (own j)) → ∃ u done, exec (.engineCommandComplete c q i) s = .next u ∧ Claims.Left s u c q i x 0 done) ∧
          ((∃ j < t.shcnt, ¬come (own j)) → (∀ j < t.shcnt, come (own j) ∨ there (own j)) →
            exec (.engineCommandComplete c q i) s = .next s) ∧
          ((∃ j < t.shcnt, ¬come (own j) ∧ ¬there (own j)) → ends 0x0A)))))) ∧
  (∀ (s : State) (c : CoreId) (q : SeqId) (i : Nat) (x : Cmd) (e : McEntry), Claims.AtUnit s c q i x → x.op = 0xB8 → x.off = 0 →
    dget s.fab.mcast (x.blk.p3.extractLsb' 15 8).toNat = some e → e.hdr.getLsbD 63 = true → (e.hdr.extractLsb' 56 7).toNat ≠ 127 →
    (let async := x.blk.p3.getLsbD 14
     let kind := (x.blk.p3.extractLsb' 0 2).toNat
     let n := x.blk.p2.toNat
     let ms := e.members
     let me := (e.hdr.extractLsb' 56 7).toNat
     let grp : Fin 256 := Fin.ofNat 256 (x.blk.p3.extractLsb' 15 8).toNat
     let w8 := decide ((x.blk.p3.extractLsb' 6 2).toNat = 3)
     let w := if w8 then 8 else 4
     let root := (x.blk.p3.extractLsb' 23 6).toNat
     let bs := if kind = 3 then Claims.lmRun s c (x.blk.p0.toNat + x.done * (n / ms.length)) (n / ms.length)
       else Claims.lmRun s c x.blk.p0.toNat n
     let off := if kind = 1 then x.blk.p1.toNat + me * n else x.blk.p1.toNat
     (∀ dst, ms[x.done]? = some dst → Claims.ToSend s x dst → (kind = 2 → me = root) →
       (async = true → Claims.Asks s c q i x dst (.contrib grp x.aux bs)) ∧
       (∀ g step, async = false → x.stepOf = some (g, step) → (s.fab.groups[g.val]).failed = none → ∃ sn, Claims.Asks s c q i x dst
         (.stepped ⟨(s.fab.groups[g.val]).gid, step, x.blk.p3.extractLsb' 8 6, off, bs, .plain, Claims.elemKey s x sn,
           BitVec.ofNat 40 x.key0, none, 0, x.depth⟩))) ∧
     (∀ (r : Region) (parts : List Contrib), async = true → x.done = ms.length → dget s.fab.regions (x.blk.p3.extractLsb' 8 6).toNat = some r →
       s.isStepped r.base = false → s.fab.contrib.filter (fun k => k.grp = grp && k.n = x.aux) = parts →
       parts.Pairwise (fun a b => a.src.toNat < b.src.toNat) → ms.Nodup → (∀ k ∈ parts, k.src ∈ ms) →
       (∀ p, (if kind = 2 then ms[root]? = some p else p ∈ ms) ↔ ∃ k ∈ parts, k.src = p) →
       (let m := if kind = 3 then n / ms.length else n
        let num (k : Contrib) (j : Nat) := BitVec.ofNat 64 (leNat ((k.data.drop (w * j)).take w))
        let acc (j : Nat) : Word := match parts with
          | [] => 0
          | k :: ks => ks.foldl (fun v k => atomApply (atomOfCode (x.blk.p3.extractLsb' 2 4).toNat) w8 v (num k j)) (num k j)
        let at_ (o : Nat) (l : List Byte) := (List.range l.length).map fun j => (r.base + o + j, l.getD j 0)
        let ws := if kind = 1 then parts.flatMap fun k => at_ (x.blk.p1.toNat + ms.idxOf k.src * n) k.data
          else if kind = 2 then parts.flatMap fun k => at_ x.blk.p1.toNat k.data
          else at_ x.blk.p1.toNat ((List.range (m / w)).flatMap fun j => leBytes w (acc j).toNat)
        (∀ k ∈ parts, k.data.length = m) → m % w = 0 → parts.length * m + x.blk.p1.toNat ≤ r.bytes → parts ≠ [] →
        Claims.MayWrite s ws →
        ∃ t done, exec (.engineCommandComplete c q i) s = .next t ∧ Claims.Left s t c q i x 0 done ∧ Claims.Written s t ws ∧
          t.hm.lm = s.hm.lm))))

/-- LOOP, LOOPI, REP and LBRK open, repeat and leave loops; completing an instruction repeats it or makes the loop-end
check. Completion with REPC above 1 lowers REPC by 1 and keeps the pc. Otherwise REPC becomes 0 and, at an address
that no innermost entry ends at, the pc moves past the instruction. At the end of the innermost entry its count is
lowered and a .rot loop advances the rotation; while the count is not spent the pc becomes the loop's start, and when
it is the entry is popped and the check goes on with the next entry (R184, R187). The check is the one that a skipped
and a guarded-off instruction make too. A branch leaves, in their order, the entries whose body holds the target or
does not hold the branch, and those outside an entry whose body holds the target; it pops the others (R185). With a
count that is not 0 and fewer than 4 entries, LOOP (count g[A]) and LOOPI (count D × 64 + B) push an entry with start
PC + 8, end PC + 8 × IMM, the count and .rot, and go on at PC + 8. With count 0 they go on after the instruction at
the end, whose length the word fetched there gives, pushing nothing; with 4 entries they raise 0x15. A .rot outside X
raises 0x01. REP, not at the end of a loop body and before a base word of a form that R187 allows, sets REPC to a sum
g[A] + IMM that is not 0 and goes on at PC + 8; with 0 it passes that instruction, loop-end check included; before
another form, or at the end of a body, it raises 0x01. LBRK #m with at least m + 1 entries pops them and goes on after
the end instruction of the outermost; with fewer it raises 0x15 (R183, R186, R187). -/
def Obligations.LoopsAndRepeats : Prop :=
  (∀ s : State, 1 < s.me.repc.toNat → s.complete = s.setMe { s.me with repc := s.me.repc - 1 }) ∧
  (∀ s : State, s.me.repc = 0 → s.complete = s.passEnd s.me.pc s.cur.len) ∧
  (∀ s : State, s.me.repc = 1 → s.complete = (s.setMe { s.me with repc := 0 }).passEnd s.me.pc s.cur.len) ∧
  (∀ (s : State) (pc : Word) (n : Nat), loopDepth s.me.loops = 0 ∨ (loopTop s.me.loops).fin ≠ pc →
    s.passEnd pc n = s.setMe { s.me with pc := pc + BitVec.ofNat 64 n }) ∧
  (∀ (s : State) (pc : Word) (n : Nat), loopDepth s.me.loops ≠ 0 → (loopTop s.me.loops).fin = pc →
    (let e := loopTop s.me.loops
     let at' := loopDepth s.me.loops - 1
     let turned := s.setRot (if e.rot then s.x.rot + 31 else s.x.rot)
     (e.count ≠ 1 → s.passEnd pc n =
       turned.setMe { s.me with loops := vset s.me.loops at' { e with count := e.count - 1 }, pc := e.start }) ∧
     (e.count = 1 → s.passEnd pc n =
       (turned.setMe { s.me with loops := vset s.me.loops at' LoopEntry.empty }).passEnd pc n))) ∧
  (∀ (l : Vector LoopEntry 4) (n : Nat) (pc target : Word), Claims.Stack l n →
    (let e (i : Nat) := vget l i LoopEntry.empty
     let stays (i : Nat) := Claims.InBody (e i) target ∨ ¬Claims.InBody (e i) pc ∨ ∃ j, i < j ∧ j < n ∧ Claims.InBody (e j) target
     ∃ ks : List Nat, ks.Pairwise (· < ·) ∧ (∀ i, i ∈ ks ↔ i < n ∧ stays i) ∧ Claims.Stack (loopLeave pc target l) ks.length ∧
       ∀ i k, ks[i]? = some k → vget (loopLeave pc target l) i LoopEntry.empty = e k)) ∧
  (∀ (s u : State) (rot : Bool) (a : SReg) (n : BitVec 12) (d : BitVec 19) (x : Word),
     (rot = true → s.cur.sq = .X) → s.readS a = .ok (x, u) →
     (let endpc := s.me.pc + 8 * d.signExtend 64
      let pushed (t : State) (c : Word) := t.setMe { t.me with
        loops := vset t.me.loops (loopDepth t.me.loops) ⟨t.me.pc + 8, endpc, c, rot⟩, pc := t.me.pc + 8 }
      (x ≠ 0 → loopDepth s.me.loops < 4 → exec (.loop rot a d) s = .next (pushed u x)) ∧
      (n ≠ 0 → loopDepth s.me.loops < 4 → exec (.loopi rot n d) s = .next (pushed s (n.setWidth 64))) ∧
      (x ≠ 0 → loopDepth s.me.loops = 4 → Claims.Traps (.loop rot a d) s 0x15 0 s.cur.word) ∧
      (n ≠ 0 → loopDepth s.me.loops = 4 → Claims.Traps (.loopi rot n d) s 0x15 0 s.cur.word) ∧
      (∀ w v, x = 0 → u.fetchWord s.cur.core s.cur.sq endpc.toNat = .ok (w, v) → (fieldsOf w).x ≠ 3 →
        exec (.loop rot a d) s = .next (v.setMe { v.me with pc := endpc + BitVec.ofNat 64 (lenOfX (fieldsOf w).x) })) ∧
      (∀ w v, n = 0 → s.fetchWord s.cur.core s.cur.sq endpc.toNat = .ok (w, v) → (fieldsOf w).x ≠ 3 →
        exec (.loopi rot n d) s = .next (v.setMe { v.me with pc := endpc + BitVec.ofNat 64 (lenOfX (fieldsOf w).x) })))) ∧
  (∀ (s : State) (a : SReg) (n : BitVec 12) (d : BitVec 19), s.cur.sq ≠ .X →
    Claims.Traps (.loop true a d) s 0x01 0 s.cur.word ∧ Claims.Traps (.loopi true n d) s 0x01 0 s.cur.word) ∧
  (∀ (s u v : State) (a : SReg) (n : BitVec 19) (x w : Word), s.readS a = .ok (x, u) →
    s.me.endsLoop s.me.pc = false → u.fetchWord s.cur.core s.cur.sq (s.me.pc + 8).toNat = .ok (w, v) →
    (let c := x + n.setWidth 64
     let op := (fieldsOf w).op.toNat
     let allowed := (0x10 ≤ op ∧ op ≤ 0x38) ∨ op = 0x3B ∨ op = 0x40 ∨ op = 0x41 ∨ op = 0x42 ∨
       (0x60 ≤ op ∧ op ≤ 0x8F ∧ op ≠ 0x7B ∧ op ≠ 0x8C ∧ op ≠ 0x8D)
     ((fieldsOf w).x ≠ 3 → allowed → c ≠ 0 → exec (.rep a n) s = .next (v.setMe { v.me with repc := c, pc := s.me.pc + 8 })) ∧
     ((fieldsOf w).x ≠ 3 → allowed → c = 0 → exec (.rep a n) s = .next (v.passEnd (s.me.pc + 8) (lenOfX (fieldsOf w).x))) ∧
     (¬((fieldsOf w).x ≠ 3 ∧ allowed) → Claims.Traps (.rep a n) s 0x01 0 v.cur.word))) ∧
  (∀ (s u : State) (a : SReg) (n : BitVec 19) (x : Word), s.readS a = .ok (x, u) → s.me.endsLoop s.me.pc = true →
    Claims.Traps (.rep a n) s 0x01 0 s.cur.word) ∧
  (∀ (s v : State) (m : BitVec 2) (w : Word),
    (let n := loopDepth s.me.loops
     let fin := (vget s.me.loops (n - (m.toNat + 1)) LoopEntry.empty).fin
     m.toNat + 1 ≤ n → s.fetchWord s.cur.core s.cur.sq fin.toNat = .ok (w, v) → (fieldsOf w).x ≠ 3 →
       ∃ l, exec (.lbrk m) s = .next (v.setMe { v.me with
           loops := l, pc := fin + BitVec.ofNat 64 (lenOfX (fieldsOf w).x) }) ∧
         (∀ k, Claims.Stack s.me.loops k → Claims.Stack l (k - (m.toNat + 1)) ∧
           ∀ i, i < k - (m.toNat + 1) → vget l i LoopEntry.empty = vget s.me.loops i LoopEntry.empty))) ∧
  (∀ (s : State) (m : BitVec 2), loopDepth s.me.loops < m.toNat + 1 → Claims.Traps (.lbrk m) s 0x15 0 s.cur.word)

/-- WAITC waits for its counts; NOTIFY finishes the sequencer; YIELD passes. WAITC completes when the outstanding
operations of each class are at or below its count (14, or 6 for MX, where it names more) and no covered command has
an unreported error, after the lines of the buffers that its asynchronous exchanges name have left L1 (R98); with no
such exchange it does nothing else, and while a count is exceeded it changes nothing. With unreported errors it does
not complete: that of the command issued first is reported once by the trap of cause 0x0B, whose frame names the
WAITC, the address 0 and the command's DONE, opcode and status (R328). NOTIFY, off supervisor privilege, with all
counters zero and every store the sequencer sees at its home, completes and marks the sequencer finished; C also drops
its queued user events; at supervisor privilege it raises cause 0x01. YIELD completes, but for the C of a card with
NPRE = 1 that the scheduler has chosen for pre-emption, which stops at it. -/
def Obligations.WaitNotifyYield : Prop :=
  (∀ (s : State) (ld st cp rm : BitVec 4) (mx : BitVec 3),
    (let met := s.me.ldCount ≤ min ld.toNat 14 ∧ s.me.stCount ≤ min st.toNat 14 ∧ s.me.cpCount ≤ min cp.toNat 14 ∧
       (s.cur.sq = .X → s.x.mx.length ≤ min mx.toNat 6) ∧ s.me.rmCount ≤ min rm.toNat 14
     (met → s.me.errs = [] → exec (.waitc ld st cp mx rm) s = .next s.seeNamed.complete) ∧
     (∀ e ∈ s.me.errs, met → s.me.ldCount = 0 → ¬(s.cur.sq = .C ∧ s.c.sup = true) →
       (∀ f ∈ s.me.errs, f ≠ e → e.stamp < f.stamp) → ∃ t, exec (.waitc ld st cp mx rm) s = .next t ∧
         t.me.frame = ⟨s.me.pc, 0x0B, 0, BitVec.ofNat 64 (e.done % 2 ^ 40 * 2 ^ 24 + e.op.toNat * 2 ^ 16 + e.stat), s.me.repc⟩ ∧
         t.me.trapPend = true ∧ (∀ f, f ∈ t.me.errs ↔ f ∈ s.me.errs ∧ f ≠ e) ∧ (∀ n, t.me.rd n = s.me.rd n) ∧ t.hm = s.hm) ∧
    (s.me.named = [] → s.seeNamed = s) ∧ s.seeNamed.me.named = [] ∧
     (¬met → exec (.waitc ld st cp mx rm) s = .next s))) ∧
  (∀ s : State, ¬(s.cur.sq = .C ∧ s.c.sup = true) → s.me.ldCount = 0 → s.me.stCount = 0 → s.me.cpCount = 0 → s.me.rmCount = 0 →
    (s.cur.sq = .X → s.x.mx = []) → s.allHome = true →
    ∃ t, exec .notify s = .next t ∧ t.me.done = true ∧ (∀ n, t.me.rd n = s.me.rd n) ∧ t.hm = s.hm ∧
      (s.cur.sq = .C → t.c.uevq = [])) ∧
  (∀ s : State, s.cur.sq = .C → s.c.sup = true → Claims.Traps .notify s 0x01 0 s.cur.word) ∧
  (∀ s : State, (s.cur.sq = .C → s.c.yieldW = false) →
    (∀ k, s.cur.sq = .C → s.c.sup = false → s.cardOn s.cur.core = some k → ¬(CardImg.npre k.img = true ∧ k.pre = true)) →
    exec .yield s = .next s.complete) ∧
  (∀ s : State, s.cur.sq = .C → s.c.yieldW = true →
    (∀ k, s.c.sup = false → s.cardOn s.cur.core = some k → ¬(CardImg.npre k.img = true ∧ k.pre = true)) →
    exec .yield s = .next (s.complete.setC { s.complete.c with yieldW := false })) ∧
  (∀ (s : State) (k : Card), s.cur.sq = .C → s.c.sup = false → s.cardOn s.cur.core = some k → CardImg.npre k.img = true →
    k.pre = true → exec .yield s = .next (s.setC { s.c with yieldW := true }))

/-- TRAP completes and raises cause 0x11 with its constant; UERET leaves the user-event handler. For a sequencer whose
loads have all written their registers and that is not at supervisor privilege, TRAP makes its completion (loop-end
check included) and raises the software trap: the frame's PC is where execution continues, its cause 0x11, its address
0 and its detail the constant, and the sequencer stops with the trap pending; no register, memory byte or flag
changes. In the user-event handler, at user privilege and with its loads complete, UERET of C swaps g24 to g31 back
with their shadow copies, resumes at the pc that the entry set aside, and ends the handler; g0 to g23 and all memory
stay. That the repeat count comes back too is the model's choice (log 3). Outside the handler it raises cause 0x01, on
a sequencer that is not C cause 0x03. -/
def Obligations.TrapAndUserReturn : Prop :=
  (∀ (s : State) (c : BitVec 16), s.me.ldCount = 0 → ¬(s.cur.sq = .C ∧ s.c.sup = true) →
     ∃ t, exec (.trap c) s = .next t ∧
       t.me.frame = ⟨s.complete.me.pc, 0x11, 0, c.setWidth 64, s.complete.me.repc⟩ ∧ t.me.trapPend = true ∧
       (∀ n, t.me.rd n = s.me.rd n) ∧ t.me.fpcs = s.me.fpcs ∧ t.hm = s.hm) ∧
  (∀ s : State, s.cur.sq = .C → s.me.ldCount = 0 → s.c.uevIn = true → s.c.sup = false →
    ∃ t, exec .ueret s = .next t ∧ t.me.pc = s.c.uevRet ∧ t.me.repc = s.c.uevRepc ∧ t.c.uevIn = false ∧
      (∀ i : Fin 32, i.val < 24 → t.me.rd i = s.me.rd i) ∧
      (∀ i : Fin 8, t.me.g[24 + i.val] = s.c.shadow[i.val] ∧ t.c.shadow[i.val] = s.me.g[24 + i.val]) ∧
      t.hm = s.hm ∧ t.c.uevq = s.c.uevq) ∧
  (∀ s : State, s.cur.sq = .C → s.me.ldCount = 0 → s.c.uevIn = false ∨ s.c.sup = true → Claims.Traps .ueret s 0x01 0 s.cur.word) ∧
  (∀ s : State, s.cur.sq ≠ .C → Claims.Traps .ueret s 0x03 0 s.cur.word)

/-- MFSR reads the five special registers; MTSR writes RM, clears the flags written 1, and ignores the others. MFSR
writes FPCS, the sequencer's global id, the partition of its card, the rotation (0 outside X) and the repeat count for
the indices 0 to 4. MTSR to index 0 sets RM (bits 11:10) to the bits written and clears each flag (bits 9:6 and 4:0)
that is written 1, every other bit reading 0; MTSR to indices 1 to 4 changes none of them. Both complete, and an index
of 5 or more raises cause 0x01 (R118, R160). Every other register, all memory and every queue not named stay. -/
def Obligations.SpecialRegisters : Prop :=
  (∀ (s : State) (d : SReg) (k : BitVec 8) (v : Word), Claims.Takes s d →
    (k = 0 ∧ v = s.me.fpcs) ∨ (k = 1 ∧ v = BitVec.ofNat 64 (4 * s.cur.core.val + s.cur.sq.idx.val)) ∨
      (k = 2 ∧ v = BitVec.ofNat 64 ((s.here.part.getD 0).val)) ∨
      (k = 3 ∧ v = if s.cur.sq = .X then s.here.x.rot.setWidth 64 else 0) ∨ (k = 4 ∧ v = s.me.repc) →
    ∃ u, s.writeS d v = .ok u ∧ exec (.mfsr d k) s = .next u.complete ∧
      Claims.Keeps (Claims.fieldRegs d) (Claims.fieldQs d) s u.complete) ∧
  (∀ (s u : State) (a : SReg) (x : Word), s.readS a = .ok (x, u) →
    ∃ f : Word, exec (.mtsr 0 a) s = .next (u.setMe { u.me with fpcs := f }).complete ∧
      ∀ i, i < 64 → f.getLsbD i =
        if i = 10 ∨ i = 11 then x.getLsbD i
        else if i ≤ 9 ∧ i ≠ 5 then s.me.fpcs.getLsbD i && !x.getLsbD i else false) ∧
  (∀ (s u : State) (a : SReg) (x : Word) (k : BitVec 8), 1 ≤ k.toNat → k.toNat ≤ 4 → s.readS a = .ok (x, u) →
    exec (.mtsr k a) s = .next u.complete) ∧
  (∀ (s : State) (r : SReg) (k : BitVec 8), 5 ≤ k.toNat →
    Claims.Traps (.mfsr r k) s 0x01 0 s.cur.word ∧ Claims.Traps (.mtsr k r) s 0x01 0 s.cur.word)

namespace Sys2Proof.Claims

/-- The fields of a range register (R57), and whether it matches an access of n bytes at VA bits [47:0] (R58). -/
def Matches (r : Range) (v n : Nat) : Prop :=
  let vbase := (r.extractLsb' 0 36).toNat
  let size := (r.extractLsb' 36 36).toNat
  let iabase := (r.extractLsb' 72 35).toNat
  r.getLsbD 127 = true ∧ vbase * 4096 ≤ v ∧ v + n ≤ (vbase + size) * 4096 ∧
    iabase * 4096 % 2 ^ 44 + size * 4096 ≤ 2 ^ 44

/-- The permission bit of a range register for an access. -/
def permBit : Perm → Nat
  | .rd => 126
  | .wr => 125
  | .ex => 124

/-- No word of the arrays is in error and no page is coded. -/
def Sound (s : State) : Prop := s.hm.bad = [] ∧ ∀ e ∈ s.hm.ptes, pteCmp e.2 = false

/-- An aligned access of n bytes that goes to a home and is confirmed there: it translates with its permission to an IA of tiers 0
to 4, the home is in service, and the home confirms every byte of a page that is not stepped. -/
structure Reaches (s : State) (k : AKind) (a n : Nat) (t : Trans) : Prop where
  aligned : a % n = 0
  trans   : translate s.here.partNo s.me.rng a n (if k = .load then .rd else .wr) = .ok t
  tier    : iaTier t.ia ≤ 4
  up      : s.homeDown t.ia = false
  plain   : s.isStepped t.ia = false
  home    : s.confirmAll (k != .load) t.ia n = .ok ()

/-- An aligned access of n bytes to the issuing core's local memory, outside its card's elastic pool. -/
structure InLocal (s : State) (a n : Nat) : Prop where
  aligned : a % n = 0
  inside  : a + n ≤ 0x200000
  clear   : overlap a n (s.poolOf s.cur.core).lo (s.poolOf s.cur.core).len = false

/-- What an instruction of the memory group leaves alone, but for the registers `ds`: every byte of memory, the registers, FPCS,
spill file and trap frame of its sequencer, every other sequencer, the state of C, that of X but the rotation, the queues not in
`qs`, the scheduler, the fabric and the host side. -/
structure Leaves (ds : List (Fin 32)) (qs : List (Fin 8)) (s t : State) : Prop where
  mem    : t.hm.mem = s.hm.mem
  lm     : t.hm.lm = s.hm.lm
  ptes   : t.hm.ptes = s.hm.ptes
  regs   : ∀ n, n ∉ ds → t.me.rd n = s.me.rd n
  fpcs   : t.me.fpcs = s.me.fpcs
  frame  : t.me.frame = s.me.frame
  others : ∀ c q, ¬(c = s.cur.core ∧ q = s.cur.sq) → t.seq c q = s.seq c q
  c      : t.here.c = s.here.c
  x      : { t.here.x with rot := s.here.x.rot } = s.here.x
  queues : ∀ n : Fin 8, n ∉ qs → t.here.queues[n.val] = s.here.queues[n.val]
  sch    : t.sch = s.sch
  fab    : t.fab = s.fab
  hst    : t.hst = s.hst
  cur    : t.cur = s.cur

/-- No store in flight of the cluster of the issuing core shares a byte with a run at a place. -/
def NoStores (s : State) (p : Place) (n : Nat) : Prop :=
  ∀ ia, p.ia? = some ia → ∀ d ∈ clusterCores (clusterOf s.cur.core), ∀ q, ∀ st ∈ (s.seq d q).stores, st.meets ia n = false

/-- The address of a form with an offset. -/
def addr (x : Word) (k : Off) : Nat := (x + k.val).toNat

/-- The bytes of an access. -/
def width : Size → Nat
  | .b1 => 1
  | .b2 => 2
  | .b4 => 4
  | .b8 => 8

/-- A message appended to queue n. -/
def Pushed (s t : State) (n : Fin 8) (v : Word) : Prop :=
  t.here.queues[n.val].msgs = s.here.queues[n.val].msgs ++ [v] ∧ t.here.queues[n.val].tail = s.here.queues[n.val].tail + 1

end Sys2Proof.Claims

/-- An access is translated by the first range register that matches it, in the partition of the card. For every range
set, VA, size of at least a byte and permission: a VA that is not canonical, or that no register matches, is a range
miss (0x06). The first matching register gives the IA: the partition in bits [51:47] over IABASE × 4096 plus the
offset from VBASE × 4096; without the permission bit the access is cause 0x07. A register matches VA bits [47:0] with
all bytes inside its span; one whose IA span leaves its tier matches nothing. -/
def Obligations.Translation : Prop :=
  ∀ (p : Fin 32) (rs : RangeSet) (va n : Nat) (k : Perm), va < 2 ^ 64 → 0 < n →
    (let v := va % 2 ^ 48
     let canon := va / 2 ^ 48 = if va / 2 ^ 47 % 2 = 1 then 0xFFFF else 0
     (¬canon → translate p rs va n k = .error 0x06) ∧
     ((∀ i : Fin 16, ¬Claims.Matches rs[i.val] v n) → translate p rs va n k = .error 0x06) ∧
     (∀ i : Fin 16, canon → Claims.Matches rs[i.val] v n → (∀ j : Fin 16, j.val < i.val → ¬Claims.Matches rs[j.val] v n) →
       (rs[i.val].getLsbD (Claims.permBit k) = true → ∃ t, translate p rs va n k = .ok t ∧
         t.ia = p.val * 2 ^ 47 + ((rs[i.val].extractLsb' 72 35).toNat * 4096 + (v - (rs[i.val].extractLsb' 0 36).toNat * 4096))) ∧
       (rs[i.val].getLsbD (Claims.permBit k) = false → translate p rs va n k = .error 0x07)))

/-- A misaligned access is cause 0x05, one past local memory 0x06, the pool and tiers 5 to 7 as their rules say. A
scalar load or store whose address is no multiple of its size raises cause 0x05; aligned, a local access that ends
past 2 MiB raises 0x06 and one that meets the card's elastic pool 0x07; a global one that no range register matches
raises 0x06, one without the permission 0x07; in tier 5 one outside the issuing core's cluster or with bits [43:29]
set 0x07, in tier 6 one not of 8 bytes 0x05, in tier 7 any 0x07. TFADDR is the address, and nothing is performed (R32,
R58, R65, R66, R286, R333). -/
def Obligations.AccessPlaces : Prop :=
  ∀ (s u : State) (lm wr sg : Bool) (z : Size) (d a : SReg) (k : Off) (x : Word), s.cur.sq = .C → s.readS a = .ok (x, u) →
    (wr = true → ∃ n, d = .g n) →
    (let i : Instr := if wr then .st z lm d a k else .ld sg z lm d a k
     let n := Claims.width z
     let va := Claims.addr x k
     let traps (c : Nat) := ∃ det, Claims.Traps i s c (BitVec.ofNat 64 va) det
     let found (t : Trans) := translate u.here.partNo u.me.rng va n (if wr then .wr else .rd) = .ok t
     (va % n ≠ 0 → traps 0x05) ∧
     (va % n = 0 → lm = true → 0x200000 < va + n → traps 0x06) ∧
     (va % n = 0 → lm = true → va + n ≤ 0x200000 →
       overlap va n (u.poolOf u.cur.core).lo (u.poolOf u.cur.core).len = true → traps 0x07) ∧
     (∀ e, va % n = 0 → lm = false → translate u.here.partNo u.me.rng va n (if wr then .wr else .rd) = .error e → traps e) ∧
     (∀ t, va % n = 0 → lm = false → found t → iaTier t.ia = 5 →
       (nbits (iaOff t.ia) 43 29 ≠ 0 ∨ clusterOf (Fin.ofNat 256 (nbits (iaOff t.ia) 28 21)) ≠ clusterOf s.cur.core) → traps 0x07) ∧
     (∀ t, va % n = 0 → lm = false → found t → iaTier t.ia = 6 → n ≠ 8 → traps 0x05) ∧
     (∀ t, va % n = 0 → lm = false → found t → iaTier t.ia = 7 → traps 0x07))

/-- A load that its home confirms is issued: it stands in LD with its register, place and size, and changes nothing
else. On C or L with room in LD (fewer than 14, no atomic under way): LD of a local address, or of a global one that
its home confirms, completes and leaves one outstanding load of its register, place, size and extension; LDM the same
with one word per register at 8 byte steps; LDA, with no load outstanding and no store of its core in its way,
performs at once and at .dev and .pod takes its value from the home. A queue destination gets the value as a message.
Memory, registers and everything else stay (R33, R58, R65, R92, R192 to R194). -/
def Obligations.LoadsIssue : Prop :=
  (∀ (s u : State) (sg : Bool) (z : Size) (d : Fin 32) (a : SReg) (k : Off) (x : Word),
    (s.cur.sq = .C ∨ s.cur.sq = .L) → s.readS a = .ok (x, u) → u.me.ldCount < 14 → u.me.atoms = [] →
    (let n := Claims.width z
     let va := Claims.addr x k
     (Claims.InLocal u va n → ∃ v, exec (.ld sg z true (.g d) a k) s = .next v ∧ Claims.Leaves [] (Claims.fieldQs a) s v ∧
       v.me.loads = s.me.loads ++ [⟨s.stamp, [⟨d, .lm s.cur.core va, n, sg⟩], none⟩]) ∧
     (∀ t, Claims.Sound u → Claims.Reaches u .load va n t →
       ∃ v, exec (.ld sg z false (.g d) a k) s = .next v ∧ Claims.Leaves [] (Claims.fieldQs a) s v ∧
         v.me.loads = s.me.loads ++ [⟨s.stamp, [⟨d, .home t.ia t.cache, n, sg⟩], none⟩]) ∧
     (∀ t (sc : Scope), Claims.Sound u → Claims.Reaches u .load va n t → u.me.loads = [] → (sc = .dev ∨ sc = .pod) →
       Claims.NoStores u (.home t.ia t.cache) n →
       ∃ v, exec (.lda sg z sc (.g d) a k) s = .next v ∧ Claims.Leaves [] (Claims.fieldQs a) s v ∧
         v.me.loads = [⟨s.stamp, [⟨d, .home t.ia (max t.cache 1), n, sg⟩], some [loadWord sg (u.homeBytes t.ia n)]⟩]))) ∧
  (∀ (s u : State) (sg : Bool) (z : Size) (m : Fin 8) (a : SReg) (k : Off) (x : Word),
    (s.cur.sq = .C ∨ s.cur.sq = .L) → s.readS a = .ok (x, u) → u.me.ldCount < 14 → u.me.atoms = [] → u.me.loads = [] →
    u.pushRoom m = .ok () →
    (let n := Claims.width z
     let va := Claims.addr x k
     (Claims.InLocal u va n → Claims.NoStores u (.lm s.cur.core va) n →
       ∃ v, exec (.ld sg z true (.q m) a k) s = .next v ∧ Claims.Leaves [] (m :: Claims.fieldQs a) s v ∧
         Claims.Pushed u v m (loadWord sg (lmRead s s.cur.core va n))) ∧
     (∀ t (sc : Scope), Claims.Sound u → Claims.Reaches u .load va n t → (sc = .dev ∨ sc = .pod) →
       Claims.NoStores u (.home t.ia t.cache) n →
       ∃ v, exec (.lda sg z sc (.q m) a k) s = .next v ∧ Claims.Leaves [] (m :: Claims.fieldQs a) s v ∧
         Claims.Pushed u v m (loadWord sg (u.homeBytes t.ia n))))) ∧
  (∀ (s u : State) (d : Fin 32) (n : BitVec 5) (a : SReg) (k : Off) (x : Word),
    (s.cur.sq = .C ∨ s.cur.sq = .L) → s.readS a = .ok (x, u) → u.me.ldCount < 14 → u.me.atoms = [] →
    Claims.addr x k + 8 * n.toNat < 2 ^ 64 →
    (let at' (i : Nat) := Claims.addr x k + 8 * i
     ((∀ i < n.toNat, Claims.InLocal u (at' i) 8) → ∃ v, exec (.ldm true d n a k) s = .next v ∧
       Claims.Leaves [] (Claims.fieldQs a) s v ∧ v.me.loads = s.me.loads ++
         [⟨s.stamp, (List.range n.toNat).map fun i => ⟨Fin.ofNat 32 (d.val + i), .lm s.cur.core (at' i), 8, false⟩, none⟩]) ∧
     (∀ t : Nat → Trans, Claims.Sound u → (∀ i < n.toNat, Claims.Reaches u .load (at' i) 8 (t i)) →
       ∃ v, exec (.ldm false d n a k) s = .next v ∧ Claims.Leaves [] (Claims.fieldQs a) s v ∧ v.me.loads = s.me.loads ++
         [⟨s.stamp, (List.range n.toNat).map fun i => ⟨Fin.ofNat 32 (d.val + i), .home (t i).ia (t i).cache, 8, false⟩, none⟩])))

/-- A store that its home confirms is issued: its bytes stand in its sequencer's order, and no byte of memory changes
yet. On C or S with room in ST: ST of a local address, or of a global one that its home confirms, completes and
appends to the stores of its sequencer the low bytes of D at that place, with the waits of the releases before it; STM
appends n words, the last alone counting in ST; STR, once every load is performed, waits also for exactly the stores
that its sequencer sees, which is how the model reads R88's covered writes (log 20). No byte of memory changes before
the store is performed, and registers and everything else stay (R33, R84, R88, R192 to R194). -/
def Obligations.StoresIssue : Prop :=
  (∀ (s u w : State) (z : Size) (d a : SReg) (k : Off) (x y : Word), (s.cur.sq = .C ∨ s.cur.sq = .S) →
    s.readS a = .ok (x, u) → u.readS d = .ok (y, w) → w.me.stCount < 14 → w.me.atoms = [] →
    (let n := Claims.width z
     let va := Claims.addr x k
     let st (ia cache : Nat) (waits : List RelWait) : PStore :=
       ⟨s.stamp, ia, leBytes n y.toNat, .issued, 0, waits ++ s.me.relWaits, s.depthOf s.cur.core, cache == 0, true⟩
     let issues (i : Instr) (p : PStore) := ∃ v, exec i s = .next v ∧ v.me.stores = s.me.stores ++ [p] ∧
       Claims.Leaves [] (Claims.fieldQs a ++ Claims.fieldQs d) s v
     (Claims.InLocal w va n → issues (.st z true d a k) (st (lmIa s.cur.core va) 0 [])) ∧
     (∀ t, Claims.Sound w → Claims.Reaches w .store va n t → issues (.st z false d a k) (st t.ia t.cache [])) ∧
     (∀ t (sc : Scope), Claims.Sound w → Claims.Reaches w .store va n t → (∀ l ∈ w.me.loads, l.vals ≠ none) →
       issues (.str z sc d a k) (st t.ia t.cache
         ((w.seenStores s.cur.core s.cur.sq).map fun e => ⟨e.2.2.stamp, sc⟩))))) ∧
  (∀ (s u : State) (d : Fin 32) (n : BitVec 5) (a : SReg) (k : Off) (x : Word), (s.cur.sq = .C ∨ s.cur.sq = .S) →
    s.readS a = .ok (x, u) → u.me.stCount < 14 → u.me.atoms = [] → Claims.addr x k + 8 * n.toNat < 2 ^ 64 →
    (let at' (i : Nat) := Claims.addr x k + 8 * i
     let st (ia cache i : Nat) : PStore :=
       ⟨s.stamp + i, ia, leBytes 8 (s.me.rd (Fin.ofNat 32 (d.val + i))).toNat, .issued, 0, s.me.relWaits, s.depthOf s.cur.core,
         cache == 0, i + 1 == n.toNat⟩
     ((∀ i < n.toNat, Claims.InLocal u (at' i) 8) → ∃ v, exec (.stm true d n a k) s = .next v ∧
       Claims.Leaves [] (Claims.fieldQs a) s v ∧
       v.me.stores = s.me.stores ++ (List.range n.toNat).map fun i => st (lmIa s.cur.core (at' i)) 0 i) ∧
     (∀ t : Nat → Trans, Claims.Sound u → (∀ i < n.toNat, Claims.Reaches u .store (at' i) 8 (t i)) →
       ∃ v, exec (.stm false d n a k) s = .next v ∧ Claims.Leaves [] (Claims.fieldQs a) s v ∧
         v.me.stores = s.me.stores ++ (List.range n.toNat).map fun i => st (t i).ia (t i).cache i)))

/-- AMO, CAS and RED issue one indivisible operation with its order, its scope and its release's waits. On C with
room, an AMO, CAS or RED of a local address, or of a global one that its home confirms for writing, completes and
leaves one atomic under way with its operation, size, place, order, scope, register and, for .rel and .acqrel, the
stores its sequencer sees, which is how the model reads R88's covered writes (log 20). AMO and CAS count in LD, RED in
ST. The queue destination of a relaxed local AMO gets the old value, zero-extended, as the operation is performed at
issue. A misaligned address raises cause 0x05 (R90, R176, R195, R196). -/
def Obligations.AtomicsIssue : Prop :=
  ∀ (s u v w : State) (op : AtomOp) (w8 : Bool) (o : Order) (sc : Scope) (d : Fin 32) (m : Fin 8) (a b : SReg) (x y z : Word),
    s.cur.sq = .C → s.readS a = .ok (x, u) → u.readS b = .ok (y, v) → v.readS (.g d) = .ok (z, w) → v.me.atoms = [] →
    (let n := if w8 then 8 else 4
     let va := x.toNat
     let rel := if o = .rel ∨ o = .acqrel then (v.seenStores s.cur.core s.cur.sq).map fun e => (⟨e.2.2.stamp, sc⟩ : RelWait) else []
     let at' (p : Place) (kind : AtomKind) (r : Fin 32) : PAtom :=
       ⟨s.stamp, kind, w8, p, o, sc, r, rel ++ s.me.relWaits, s.depthOf s.cur.core⟩
     let issues (i : Instr) (p : PAtom) := ∃ t, exec i s = .next t ∧ t.me.atoms = [p] ∧
       Claims.Leaves [] (Claims.fieldQs a ++ Claims.fieldQs b) s t
     (∀ lm p, (lm = true ∧ Claims.InLocal v va n ∧ p = .lm s.cur.core va) ∨
         (∃ t, lm = false ∧ Claims.Sound v ∧ Claims.Reaches v .atom va n t ∧ p = .home t.ia t.cache) →
       (v.me.ldCount < 14 → issues (.amo op w8 lm o sc (.g d) a b) (at' p (.amo op y) d) ∧
         issues (.cas w8 lm o sc (.g d) a b) (at' p (.cas z y) d)) ∧
       (v.me.stCount < 14 → issues (.red op w8 lm o sc a b) (at' p (.red op y) 0))) ∧
     (va % n ≠ 0 → ∀ lm, (∃ det, Claims.Traps (.amo op w8 lm o sc (.g d) a b) s 0x05 x det) ∧
       (∃ det, Claims.Traps (.cas w8 lm o sc (.g d) a b) s 0x05 x det) ∧
       (∃ det, Claims.Traps (.red op w8 lm o sc a b) s 0x05 x det)) ∧
     (Claims.InLocal v va n → v.me.loads = [] → v.me.stores = [] → v.me.relWaits = [] → o = .rlx → v.pushRoom m = .ok () →
       ∃ t, exec (.amo op w8 true o sc (.q m) a b) s = .next t ∧ t.me.atoms = [] ∧ t.me.loads = [] ∧
         Claims.Pushed v t m (BitVec.ofNat 64 (leNat (lmRead s s.cur.core va n))) ∧
         t.hm.lm = Memory.write s.hm.lm (s.cur.core.val * 2 ^ 21 + va)
           (leBytes n (atomApply op w8 (BitVec.ofNat 64 (leNat (lmRead s s.cur.core va n))) y).toNat)))

/-- SPILL and FILL move registers to and from the spill file; PREF, INVL1 and LAYER have no effect a program can see.
SPILL #s copies n registers to the spill words from s up and FILL copies them back, each leaving every other spill
word and register. PREF completes, whatever its address; INVL1 completes once every earlier load is performed and
leaves the L1 of a core whose card is not fused empty; LAYER announces (g[A] + n) mod 2^16 to the partition's prefetch
engine. None of them changes memory, flags or any other register (R197). -/
def Obligations.CoreMemoryOps : Prop :=
  (∀ (s : State) (n : BitVec 9) (a : Fin 32) (c : BitVec 5), a.val + c.toNat ≤ 32 →
    ∃ t, exec (.spill n a c) s = .next t ∧ (∀ r, t.me.rd r = s.me.rd r) ∧ t.hm = s.hm ∧ t.me.fpcs = s.me.fpcs ∧
      ∀ j, sget 0 t.me.spill j =
        if n.toNat ≤ j ∧ j < n.toNat + c.toNat then s.me.rd (Fin.ofNat 32 (a.val + (j - n.toNat))) else sget 0 s.me.spill j) ∧
  (∀ (s : State) (d : Fin 32) (n : BitVec 9) (c : BitVec 5), d.val + c.toNat ≤ 32 →
    ∃ t, exec (.fill d n c) s = .next t ∧ t.me.spill = s.me.spill ∧ t.hm = s.hm ∧ t.me.fpcs = s.me.fpcs ∧
      ∀ r : Fin 32, t.me.rd r =
        if r ≠ 0 ∧ d.val ≤ r.val ∧ r.val < d.val + c.toNat then sget 0 s.me.spill (n.toNat + (r.val - d.val)) else s.me.rd r) ∧
  (∀ (s u : State) (l2 : Bool) (a : SReg) (k : Off) (x : Word), (s.cur.sq = .C ∨ s.cur.sq = .L) → s.readS a = .ok (x, u) →
    ∃ t, exec (.pref l2 a k) s = .next t ∧ Claims.Leaves [] (Claims.fieldQs a) s t ∧ t.hm = s.hm) ∧
  (∀ (s : State), (s.cur.sq = .C ∨ s.cur.sq = .L) → (∀ l ∈ s.me.loads, l.vals ≠ none) →
    ∃ t, exec .invl1 s = .next t ∧ Claims.Leaves [] [] s t ∧ (s.fusedAt s.cur.core = false → t.here.l1 = [])) ∧
  (∀ (s u : State) (a : SReg) (n : BitVec 19) (x : Word), s.cur.sq = .C → s.readS a = .ok (x, u) →
    ∃ t, exec (.layer a n) s = .next t ∧ (∀ r, t.me.rd r = s.me.rd r) ∧ t.hm = s.hm ∧
      (t.part s.here.partNo).layers = (s.part s.here.partNo).layers ++ [(x.toNat + n.toNat) % 2 ^ 16])

/-- The oldest load writes its register with its little-endian bytes, zero- or sign-extended, and leaves LD. When the
oldest load of a sequencer, of one access, completes while no error found waits for its quarantine, its register takes
the value of its bytes: those it returned when it was performed, or, where nothing holds it, those of local memory,
or, past the caches and with no store performed at .clu over them and no line of them under way, those of the home. A
zero-extended value is the bytes as a natural number, a sign-extended one as a signed number. The load leaves LD;
every other register and all memory stay, and a write to g0 is discarded (R33, R85, R92, R192). -/
def Obligations.LoadsComplete : Prop :=
  (∀ (bs : List Byte), 1 ≤ bs.length → bs.length ≤ 8 → (loadWord false bs).toNat = leNat bs ∧
    (loadWord true bs).toInt = if leNat bs < 2 ^ (8 * bs.length - 1) then (leNat bs : Int) else leNat bs - 2 ^ (8 * bs.length)) ∧
  (∀ (s : State) (c : CoreId) (q : SeqId) (l : PLoad) (rest : List PLoad) (d : Fin 32) (p : Place) (n : Nat) (sg : Bool) (v : Word),
    (s.seq c q).loads = l :: rest → l.parts = [⟨d, p, n, sg⟩] → (s.seq c q).early = [] → s.hm.found = [] →
    (l.vals = some [v] ∨
     (l.vals = none ∧ s.partHeld c q l.stamp ⟨d, p, n, sg⟩ = false ∧
       ((∃ o k, p = .lm k o ∧ v = loadWord sg (lmRead s k o n)) ∨
        ∃ ia cache, p = .home ia cache ∧ cache ≠ 0 ∧ s.overlay c ia n = [] ∧ s.lateLine c ia = none ∧
          v = loadWord sg (s.homeBytes ia n)))) →
    ∃ t, exec (.loadComplete c q) s = .next t ∧ (t.seq c q).loads = rest ∧ t.hm.mem = s.hm.mem ∧ t.hm.lm = s.hm.lm ∧
      (∀ r, (t.seq c q).rd r = if r = d ∧ d ≠ 0 then v else (s.seq c q).rd r) ∧
      (∀ c' q', ¬(c' = c ∧ q' = q) → t.seq c' q' = s.seq c' q'))

namespace Sys2Proof.Claims

/-- The oldest store of a sequencer may be performed at its home: an aligned store of a scalar size that no wait and no earlier performed
store holds, whose home is in service and confirms it. -/
structure MayPerform (s : State) (c : CoreId) (q : SeqId) (st : PStore) (rest : List PStore) (h : Hit) : Prop where
  oldest  : (s.seq c q).stores = st :: rest
  tier    : iaTier st.ia ≤ 4
  size    : st.bytes.length ∈ [1, 2, 4, 8]
  aligned : st.ia % st.bytes.length = 0
  ready   : s.storeReady c q st = true
  first   : s.storeFirst c q st = true
  up      : s.homeDown st.ia = false
  home    : s.confirm st.ia true = .ok h
  plain   : pteCmp h.pte = false
  sound   : Sound s
  found   : s.hm.found = []

/-- Bytes with those from a place up replaced. -/
def patched (d : List Byte) (o : Nat) (bs : List Byte) : List Byte :=
  (List.range d.length).map fun i => if o ≤ i ∧ i < o + bs.length then bs.getD (i - o) 0 else d.getD i 0

/-- The pending record of an entry into which a store to a granule coalesces (R49). -/
def pendingFor (s : State) (n : Nat) (w : Watch) (g : Nat) : Option Record :=
  let own := (s.sch.records.filter fun e => e.2.entry = n).map (·.2)
  match w.mode with
  | 0 => own.find? fun r => r.gia = g
  | 1 => own.head?
  | _ => none

end Sys2Proof.Claims

/-- A store that may be performed writes its bytes at its home, its hot copy or local memory, no other byte, and
triggers the watch it changes. The oldest store of a sequencer, when no wait, earlier atomic or earlier performed
store holds it and its home is in service, leaves ST. In local memory exactly its bytes change; at a home those from
the page's physical place of its address up (R61, R84, R192). A row with a hot copy takes them in the copy, one
without in a copy of the row's bytes in the lowest empty way, and the memory beneath stays (R74, R75). The first write
to a coded page of 4 KiB decodes it into a free frame as it is confirmed, clears CMP and charges the page (R80). A
silent store triggers nothing (R48); a store that changes a granule of the one entry that watches it coalesces into
the pending record of its mode, with COUNT, NEW and the greater depth (R49, R51), or creates one with the next SEQ,
disarming a ONCE entry (R44); a depth beyond the limit disarms the entry, changes no record, and the store is
performed (R51, R386). -/
def Obligations.StoresPerform : Prop :=
  (∀ (s : State) (c d : CoreId) (q : SeqId) (st : PStore) (rest : List PStore) (o : Nat),
    (s.seq c q).stores = st :: rest → st.ia = lmIa d o → o + st.bytes.length ≤ 2 ^ 21 → 0 < st.bytes.length →
    s.storeReady c q st = true → s.storeFirst c q st = true →
    ∃ t, exec (.storePerformedAtHome c q) s = .next t ∧ (t.seq c q).stores = rest ∧ t.hm.mem = s.hm.mem ∧
      ∀ k, Memory.get t.hm.lm k =
        if d.val * 2 ^ 21 + o ≤ k ∧ k < d.val * 2 ^ 21 + o + st.bytes.length then st.bytes.getD (k - (d.val * 2 ^ 21 + o)) 0
        else Memory.get s.hm.lm k) ∧
  (∀ (s : State) (c : CoreId) (q : SeqId) (st : PStore) (rest : List PStore) (h : Hit), Claims.MayPerform s c q st rest h →
    (∀ i < st.bytes.length, s.rowAt (st.ia + i) = none) → s.sch.watches = [] →
    ∃ t, exec (.storePerformedAtHome c q) s = .next t ∧ (t.seq c q).stores = rest ∧ t.hm.lm = s.hm.lm ∧ t.hm.ptes = s.hm.ptes ∧
      (∀ r, (t.seq c q).rd r = (s.seq c q).rd r) ∧
      ∀ k, Memory.get t.hm.mem k =
        if h.memKey st.ia ≤ k ∧ k < h.memKey st.ia + st.bytes.length then st.bytes.getD (k - h.memKey st.ia) 0
        else Memory.get s.hm.mem k) ∧
  (∀ (s : State) (c : CoreId) (q : SeqId) (st : PStore) (rest : List PStore) (h : Hit) (id : Nat) (tb : Table) (r o : Nat),
    Claims.MayPerform s c q st rest h → s.sch.watches = [] →
    (∀ i < st.bytes.length, s.rowAt (st.ia + i) = some (id, tb, r, o + i)) →
    (let p := iaPart st.ia
     let mine (e : HotRow) := e.part = p ∧ e.table = id ∧ e.row = r
     ((s.hotCopy p id r).isSome = true → ∃ t, exec (.storePerformedAtHome c q) s = .next t ∧ (t.seq c q).stores = rest ∧
        t.hm.mem = s.hm.mem ∧ t.hm.hot = s.hm.hot.map fun e =>
          if mine e then { e with dirty := true, data := Claims.patched e.data o st.bytes } else e) ∧
     (∀ way, s.hotCopy p id r = none → s.allocWay p id tb r = some (way, none) →
        ∃ t, exec (.storePerformedAtHome c q) s = .next t ∧ (t.seq c q).stores = rest ∧ t.hm.mem = s.hm.mem ∧
          t.hm.hot = s.hm.hot ++ [⟨p, id, r, hotSet tb id r, way, true, false,
            Claims.patched (s.frameBytes (tb.rowIa r) tb.rowBytes) o st.bytes, false⟩]))) ∧
  (∀ (s : State) (c : CoreId) (q : SeqId) (st : PStore) (rest : List PStore) (h : Hit) (n : Nat) (w : Watch),
    Claims.MayPerform s c q st rest h → (∀ i < st.bytes.length, s.rowAt (st.ia + i) = none) → s.sch.watches = [(n, w)] →
    (let g := st.ia / 8 * 8
     let old : Word := BitVec.ofNat 64 (leNat (s.homeBytes g 8))
     let new : Word := BitVec.ofNat 64 (leNat (Claims.patched (s.homeBytes g 8) (st.ia % 8) st.bytes))
     let deep := st.depth + 1
     w.armed = true → w.base ≤ g → g < w.base + w.len → (∀ i < 8, s.rowAt (g + i) = none) →
     ∃ t, exec (.storePerformedAtHome c q) s = .next t ∧ (t.seq c q).stores = rest ∧
       (∀ i < st.bytes.length, Memory.get t.hm.mem (h.memKey st.ia + i) = st.bytes.getD i 0) ∧
       (old = new → t.sch = s.sch) ∧
       (∀ r, old ≠ new → Claims.pendingFor s n w g = some r → deep ≤ w.limit → t.sch.watches = s.sch.watches ∧
         t.sch.records = s.sch.records.map fun e => if e.2.entry = n ∧ e.2.seq = r.seq then
           (e.1, { e.2 with new := new, count := if e.2.count = 0xFFFFFFFF then e.2.count else e.2.count + 1,
                            depth := max e.2.depth deep }) else e) ∧
       (old ≠ new → Claims.pendingFor s n w g = none → deep ≤ w.limit → (w.rate = 0 ∨ w.window < w.rate) →
         s.sch.records.length < 16384 → (∀ e ∈ s.sch.records, ¬(e.2.entry = n ∧ e.2.seq = w.next)) →
         t.sch.watches = [(n, { w with next := w.next + 1, window := w.window + 1, lostEv := false, armed := !w.once })] ∧
         ∃ hd, t.sch.records = s.sch.records ++ [(w.part, ⟨n, g, old, new, 1, w.next, deep, hd⟩)]) ∧
       (old ≠ new → w.limit < deep → t.sch.records = s.sch.records ∧ ∀ e ∈ t.sch.watches, e.2.armed = false))) ∧
  (∀ (s u w : State) (z : Size) (d a : SReg) (k : Off) (x y : Word) (t : Trans) (h : Hit) (bs : List Byte) (f : Nat),
    (s.cur.sq = .C ∨ s.cur.sq = .S) → s.readS a = .ok (x, u) → u.readS d = .ok (y, w) → w.me.stCount < 14 → w.me.atoms = [] →
    (let n := Claims.width z
     let va := Claims.addr x k
     let p := iaPart t.ia
     va % n = 0 → translate w.here.partNo w.me.rng va n .wr = .ok t → iaTier t.ia = 3 → w.homeDown t.ia = false → w.hm.bad = [] →
     lookup w.hm.ptes t.ia = some h → h.size = 4096 → h.hbm = false → pteBad h.pte = false → pteW h.pte = true → pteStp h.pte = false →
     pteRaw h.pte = false → ptePsn h.pte = false → pteCmp h.pte = true → (∀ i < n, w.rowAt (t.ia + i) = none) →
     w.pageDecoded h = some bs → w.hm.dead.getLsbD h.home.val = false → w.freeFrame h.home 4096 = some f → f + 4096 ≤ 2 ^ 52 →
     vget (w.part p).charges 2 0 + 4096 ≤ vget (w.part p).quotas 2 0 →
     ∃ v, exec (.st z false d a k) s = .next v ∧ v.me.stores.map (·.ia) = s.me.stores.map (·.ia) ++ [t.ia] ∧
       (lookup v.hm.ptes t.ia).map (fun e => (pteCmp e.pte, pteFrame e.pte)) = some (false, f) ∧
       vget (v.part p).charges 2 0 = vget (w.part p).charges 2 0 + 4096 ∧
       ∀ key, Memory.get v.hm.mem key =
         if h.home.val * 2 ^ 52 + f ≤ key ∧ key < h.home.val * 2 ^ 52 + f + 4096 then bs.getD (key - (h.home.val * 2 ^ 52 + f)) 0
         else Memory.get s.hm.mem key))

/-- An atomic reads, computes and writes its word in one step; a failed CAS writes nothing. The atomic of a core that
was issued first among those that may be performed is performed in one step. In local memory its word becomes Op(old,
b), for CAS the new value when old equals what is expected and nothing otherwise, and every other byte stays; an AMO
or CAS returns the old value zero-extended to its register as a performed load, a RED returns nothing. At a home whose
page is plain (confirmed, not coded, of no table row, no watch entry in use, no error in the arrays) the same holds of
its bytes from the page's physical place up. Op wraps modulo 2^(8w), takes minima and maxima of the sign-extended or
natural words, works bitwise, adds as f32 rounded to nearest, and takes the greater f32, where a NaN counts for
nothing and −0 lies below +0 (R90, R108, R195). -/
def Obligations.AtomicsPerform : Prop :=
  (∀ (s : State) (c d : CoreId) (q : SeqId) (a : PAtom) (o : Nat), s.nextAtom c = some (q, a) → a.place = .lm d o →
    (let n := if a.w8 then 8 else 4
     let old := leNat (lmRead s d o n)
     let writes : Option Word := match a.kind with
       | .amo op b => some (atomApply op a.w8 (BitVec.ofNat 64 old) b)
       | .red op b => some (atomApply op a.w8 (BitVec.ofNat 64 old) b)
       | .cas new e => if old = e.toNat % 2 ^ (8 * n) then some new else none
     ∃ t, exec (.atomicPerform c) s = .next t ∧ t.hm.mem = s.hm.mem ∧ (t.seq c q).atoms = (s.seq c q).atoms.filter (fun b => b.stamp != a.stamp) ∧
       (t.seq c q).loads = (match a.kind with
         | .red .. => (s.seq c q).loads
         | _ => (s.seq c q).loads ++ [⟨a.stamp, [⟨a.dest, a.place, n, false⟩], some [BitVec.ofNat 64 old]⟩]) ∧
       ∀ k, Memory.get t.hm.lm k = match writes with
         | none => Memory.get s.hm.lm k
         | some v => if d.val * 2 ^ 21 + o ≤ k ∧ k < d.val * 2 ^ 21 + o + n then
             (leBytes n v.toNat).getD (k - (d.val * 2 ^ 21 + o)) 0 else Memory.get s.hm.lm k)) ∧
  (∀ (s : State) (c : CoreId) (q : SeqId) (a : PAtom) (ia cache : Nat) (h : Hit), s.nextAtom c = some (q, a) → a.place = .home ia cache →
    iaTier ia ≤ 4 → (let n := if a.w8 then 8 else 4
     ia % n = 0 → s.confirm ia true = .ok h → pteCmp h.pte = false → (∀ i < n, s.rowAt (ia + i) = none) → s.sch.watches = [] →
     Claims.Sound s → s.hm.found = [] →
     (let old : Word := BitVec.ofNat 64 (leNat (s.homeBytes ia n))
      let writes : Option Word := match a.kind with
        | .amo op b => some (atomApply op a.w8 old b)
        | .red op b => some (atomApply op a.w8 old b)
        | .cas new e => if old.toNat = e.toNat % 2 ^ (8 * n) then some new else none
      ∃ t, exec (.atomicPerform c) s = .next t ∧ t.hm.lm = s.hm.lm ∧
        (t.seq c q).atoms = (s.seq c q).atoms.filter (fun b => b.stamp != a.stamp) ∧
        (t.seq c q).loads = (match a.kind with
          | .red .. => (s.seq c q).loads
          | _ => (s.seq c q).loads ++ [⟨a.stamp, [⟨a.dest, a.place, n, false⟩], some [old]⟩]) ∧
        ∀ k, Memory.get t.hm.mem k = match writes with
          | none => Memory.get s.hm.mem k
          | some v => if h.memKey ia ≤ k ∧ k < h.memKey ia + n then (leBytes n v.toNat).getD (k - h.memKey ia) 0
            else Memory.get s.hm.mem k))) ∧
  (∀ (a b : Word),
    (let f := fmtF32
     let x := a.toNat % 2 ^ 32
     let y := b.toNat % 2 ^ 32
     let sum := (atomApply .fadd false a b).toNat
     let top := (atomApply .fmax false a b).toNat
     let nan (z : Nat) := f.infBits < Claims.magBits f z
     (Claims.isFinite f x → Claims.isFinite f y → ∃ r, Claims.RoundsTo f 0 (Claims.exact f x + Claims.exact f y) r ∧ sum = r.bits) ∧
     (nan x ∨ nan y → sum = 0x7FC00000) ∧
     (nan x → nan y → top = 0x7FC00000) ∧ (nan x → ¬nan y → top = y) ∧ (¬nan x → nan y → top = x) ∧
     (Claims.isFinite f x → Claims.isFinite f y → (top = x ∨ top = y) ∧ Claims.exact f x ≤ Claims.exact f top ∧
       Claims.exact f y ≤ Claims.exact f top ∧ (x = 0 ∨ y = 0 → Claims.exact f x = Claims.exact f y → top = 0)) ∧
     (Claims.magBits f x = f.infBits ∨ Claims.magBits f y = f.infBits → ¬nan x → ¬nan y →
       (top = 0x7F800000 ↔ x = 0x7F800000 ∨ y = 0x7F800000) ∧ (x = 0xFF800000 → top = y) ∧ (y = 0xFF800000 → top = x)))) ∧
  (∀ (w8 : Bool) (a b : Word),
    (let n := if w8 then 64 else 32
     let s (x : Word) : Int := if w8 then x.toInt else (x.setWidth 32).toInt
     let u (x : Word) : Nat := x.toNat % 2 ^ n
     u (atomApply .swp w8 a b) = u b ∧ u (atomApply .add w8 a b) = (u a + u b) % 2 ^ n ∧
     (∀ i < n, (atomApply .and w8 a b).getLsbD i = (a.getLsbD i && b.getLsbD i) ∧
       (atomApply .or w8 a b).getLsbD i = (a.getLsbD i || b.getLsbD i) ∧
       (atomApply .xor w8 a b).getLsbD i = (a.getLsbD i != b.getLsbD i)) ∧
     s (atomApply .min w8 a b) = min (s a) (s b) ∧ s (atomApply .max w8 a b) = max (s a) (s b) ∧
     u (atomApply .minn w8 a b) = min (u a) (u b) ∧ u (atomApply .maxn w8 a b) = max (u a) (u b)))

/-- MARK waits for earlier loads, holds later stores behind those its sequencer sees, and empties L1 on acquire. While
a load, AMO or CAS of its sequencer is not performed, MARK of any kind waits, and no user event interrupts it.
Otherwise acq completes; rel completes and makes every later store wait for exactly the stores short of the scope that
the sequencer sees, its own REDs under way, and what an earlier release named, which is how the model reads R88's
covered writes (log 20, DEDUCED); full does the same and completes only when the sequencer's own stores and REDs are
performed at the scope. An acquire at .clu, .dev or .pod of a core whose card is not fused leaves its L1 empty.
Registers, flags and memory stay (R87 to R89, R92, R199). -/
def Obligations.MarkOrders : Prop :=
  ∀ (s : State) (sc : Scope),
    (let performed := (∀ l ∈ s.me.loads, l.vals ≠ none) ∧ ∀ a ∈ s.me.atoms, ∃ op b, a.kind = .red op b
     let own := s.me.atoms = [] ∧ ∀ st ∈ s.me.stores, (sc = .core ∧ st.moment ≠ .issued) ∨ (sc = .clu ∧ st.moment = .clu)
     let empties (t : State) := sc ≠ .core → s.fusedAt s.cur.core = false → t.here.l1 = []
     let holds (t : State) := t.me.stores = s.me.stores ∧ ∀ w : RelWait, w ∈ t.me.relWaits ↔
       (w ∈ s.me.relWaits ∨ (∃ e ∈ s.seenStores s.cur.core s.cur.sq, w = ⟨e.2.2.stamp, sc⟩) ∨ ∃ a ∈ s.me.atoms, w = ⟨a.stamp, sc⟩) ∧ s.waitMet s.cur.core w = false
     (¬performed → ∀ k, exec (.mark k sc) s = .next (Claims.stalled s)) ∧
     (performed → ∃ t, exec (.mark .acq sc) s = .next t ∧ Claims.Leaves [] [] s t ∧ t.me.relWaits = s.me.relWaits ∧ empties t) ∧
     (performed → ∃ t, exec (.mark .rel sc) s = .next t ∧ Claims.Leaves [] [] s t ∧ holds t ∧ t.here.l1 = s.here.l1) ∧
     (performed → own → ∃ t, exec (.mark .full sc) s = .next t ∧ Claims.Leaves [] [] s t ∧ holds t ∧ empties t) ∧
     (performed → ¬own → exec (.mark .full sc) s = .next (Claims.stalled s)))

/-- TPOST adds to a token for its producer, TWAIT waits and subtracts for its consumer, QSTAT reads a queue's state.
On a core with a card that binds token t to two sequencers: TPOST by the producer, with its earlier operations
performed at .core, adds the amount; a sum above 65,535 raises cause 0x10. TWAIT by the consumer subtracts an amount
that the token holds, waits while it holds less, and raises 0x10 above 65,535. Another sequencer, or an unbound token,
raises 0x03. QSTAT writes the messages held (0 when unbound) in [15:0] and the pool's free slots in [31:16] (R29, R30,
R169, R200). -/
def Obligations.TokensCount : Prop :=
  (∀ (s u : State) (k : Card) (t : Fin 8) (b : SB) (x : Word), s.cardOn s.cur.core = some k → s.readN b = .ok (x, u) →
    (let p := (CardImg.tbind k.img t.val).1
     let c := (CardImg.tbind k.img t.val).2
     let v := s.here.tokens[t.val].toNat
     let sets (i : Instr) (n : Nat) := ∃ w, exec i s = .next w ∧ Claims.Leaves [] (Claims.operandQs b) s w ∧
       w.here.tokens[t.val].toNat = n ∧ ∀ r : Fin 8, r ≠ t → w.here.tokens[r.val] = s.here.tokens[r.val]
     let released := (∀ l ∈ s.me.loads, l.vals ≠ none) ∧ s.me.atoms = [] ∧ ∀ st ∈ s.me.stores, st.moment ≠ .issued
     (p ≠ c → p = s.cur.sq.idx.val → v + x.toNat ≤ 65535 → released → sets (.tpost t b) (v + x.toNat)) ∧
     (p ≠ c → p = s.cur.sq.idx.val → 65535 < v + x.toNat → Claims.Traps (.tpost t b) s 0x10 0 s.cur.word) ∧
     (p ≠ c → p = s.cur.sq.idx.val → v + x.toNat ≤ 65535 → ¬released → exec (.tpost t b) s = .next (Claims.stalled s)) ∧
     (p ≠ c → c = s.cur.sq.idx.val → x.toNat ≤ v → sets (.twait t b) (v - x.toNat)) ∧
     (p ≠ c → c = s.cur.sq.idx.val → v < x.toNat → x.toNat ≤ 65535 → exec (.twait t b) s = .next s) ∧
     (p ≠ c → c = s.cur.sq.idx.val → 65535 < x.toNat → Claims.Traps (.twait t b) s 0x10 0 s.cur.word) ∧
     (p = c ∨ p ≠ s.cur.sq.idx.val → Claims.Traps (.tpost t b) s 0x03 0 s.cur.word) ∧
     (p = c ∨ c ≠ s.cur.sq.idx.val → Claims.Traps (.twait t b) s 0x03 0 s.cur.word))) ∧
  (∀ (s : State) (k : Card) (d : SReg) (n : Fin 8), s.cardOn s.cur.core = some k → Claims.Takes s d →
    (let b := CardImg.qbind k.img n.val
     let held := if b.1 = b.2 then 0 else s.here.queues[n.val].msgs.length
     let used := (s.here.queues.toList.map fun x => x.msgs.length - 16).sum
     ∃ v : Word, v.toNat % 2 ^ 16 = held % 2 ^ 16 ∧ v.toNat / 2 ^ 16 = (CardImg.poolSize k.img - used) % 2 ^ 16 ∧
       ∃ u, s.writeS d v = .ok u ∧ exec (.qstat d n) s = .next u.complete))

/-- BAR completes when every C of its sub-rectangle has executed its own BAR, and waits until then. With its loads
performed and every store it sees performed at the barrier scope (R88's covered writes as the model reads them, log
20), BAR at a level completes, and counts itself, when every other core of the level's sub-rectangle stands at the
same BAR or has passed it; the C that stands at it there is counted too, and then only completes it (R201). Else C
stands at the barrier and nothing else changes. The sub-rectangle is the block of the card's rectangle that holds the
core, of width min(W, 2^(k−h)) and height min(H, 2^h) with h = min(k/2, 3) (R26, R201). -/
def Obligations.Barriers : Prop :=
  (∀ (s : State) (k : Card) (level : Fin 9), s.cur.sq = .C → s.cardOn s.cur.core = some k → s.c.barMet = false →
    (let cores := levelCores k level.val s.cur.core
     let j := s.c.bar[level.val]
     let ready := (∀ l ∈ s.me.loads, l.vals ≠ none) ∧ s.me.atoms = [] ∧
       s.coveredAt s.cur.core s.cur.sq (barScope cores) = true
     let stands (d : CoreId) := (s.core d).c.bar[level.val] = j ∧ (s.core d).c.barWait = some level ∧ (s.core d).c.barMet = false
     let there (d : CoreId) :=
       let n := (s.core d).c.bar[level.val]
       stands d ∨ (n ≠ j ∧ (n - j).toNat < 2 ^ 31)
     (ready → s.cur.core ∈ cores → (∀ d ∈ cores, d ≠ s.cur.core → there d) →
       ∃ t, exec (.bar level) s = .next t ∧ t.c.barWait = none ∧ t.c.barMet = false ∧ t.c.bar[level.val] = j + 1 ∧ t.hm = s.hm ∧
         (∀ l : Fin 9, l ≠ level → t.c.bar[l.val] = s.c.bar[l.val]) ∧ (∀ r, t.me.rd r = s.me.rd r) ∧
         ∀ d ∈ cores, d ≠ s.cur.core → stands d → (t.core d).c.barMet = true ∧ (t.core d).c.bar[level.val] = j + 1) ∧
     (ready → ∀ d ∈ cores, d ≠ s.cur.core → ¬there d →
       exec (.bar level) s = .next (s.setC { s.c with barWait := some level })) ∧
     (¬ready → exec (.bar level) s = .next s))) ∧
  (∀ (s : State) (level : Fin 9), s.cur.sq = .C → s.c.barMet = true →
    ∃ t, exec (.bar level) s = .next t ∧ t.c.barWait = none ∧ t.c.barMet = false ∧ t.c.bar = s.c.bar ∧ t.hm = s.hm ∧
      ∀ r, t.me.rd r = s.me.rd r) ∧
  (∀ (k : Card) (c d : CoreId) (level : Fin 9),
    (let w := 2 ^ CardImg.wlog k.img
     let h := 2 ^ CardImg.hlog k.img
     let th := min h (2 ^ min (level.val / 2) 3)
     let tw := min w (2 ^ (level.val - min (level.val / 2) 3))
     let inside (e : CoreId) := k.ox ≤ e.val % 32 ∧ e.val % 32 < k.ox + w ∧ k.oy ≤ e.val / 32 ∧ e.val / 32 < k.oy + h
     k.ox + w ≤ 32 → k.oy + h ≤ 8 → inside c →
     (d ∈ levelCores k level.val c ↔ inside d ∧ (d.val % 32 - k.ox) / tw = (c.val % 32 - k.ox) / tw ∧
       (d.val / 32 - k.oy) / th = (c.val / 32 - k.oy) / th)))

namespace Sys2Proof.Claims

/-- Every member has applied boundary n of a local group, as far as this package knows (R97, R110): it has itself, and each other
member has said so or the next one has passed. -/
def Past (s : State) (g : Fin 16) (n : Nat) : Prop :=
  n + 1 < (s.fab.groups[g.val]).step ∨ n < (s.fab.groups[g.val]).step ∧
    ∀ m ∈ (s.fab.groups[g.val]).members, m ≠ s.fab.pkg → n < sget 0 (s.fab.groups[g.val]).past m.toNat

/-- No record of a multicast RST of a step up to n is still to be written here (R314). -/
def Recorded (s : State) (g : Fin 16) (n : Nat) : Prop :=
  ∀ a ∈ s.fab.acks, ¬(a.group = some g ∧ a.step ≤ n ∧ a.record ≠ none)

end Sys2Proof.Claims

/-- STEP is executed once, returns its boundary plus 1 when every member has applied it, and traps off a group or in a
failed one. C of a card in step group g, with room in the destination's queue: a STEP whose earlier operations (those
its sequencer sees, log 20) are performed at .dev and whose previous boundary every member has applied is counted as
executed with the step number, which advances; otherwise C stands at it, and without the room nothing of it happens
(R179). It then waits until this package has applied that boundary, every other member has said that it has (R97,
R110; log 39), and no multicast record of the step or an earlier one is owed (R314); then it writes n + 1 and
completes. FLAGW on a confirmed flag word of the group writes the flag and completes when (flag − target) mod 2^64 <
2^63, else it waits at the flag, and at an unmet instruction neither a trap nor a user event interrupts it; one that
has passed a boundary there waits for it as a STEP does. A core of no group raises 0x18; a failed group raises 0x0E
(R110, R202, R203, R381). -/
def Obligations.StepsReturn : Prop :=
  (∀ (s : State) (d : SReg) (g : Fin 16), s.cur.sq = .C → s.agentGroup s.cur.core = some g →
    (let gr := s.fab.groups[g.val]
     let ready := (∀ l ∈ s.me.loads, l.vals ≠ none) ∧ s.me.atoms = [] ∧ s.coveredAt s.cur.core s.cur.sq .dev = true
     let before := s.c.stepNo = 0 ∨ Claims.Past s g (s.c.stepNo - 1)
     (gr.failed = none → s.c.stpW = none → Claims.Takes s d → ready → before →
       exec (.step d) s = .next (s.setC { s.c with stand := false, stpW := some s.c.stepNo, stepNo := s.c.stepNo + 1 })) ∧
     (gr.failed = none → s.c.stpW = none → Claims.Takes s d → ¬(ready ∧ before) →
       exec (.step d) s = .next (s.setC { s.c with stand := true })) ∧
     (∀ e, gr.failed = none → s.c.stpW = none → s.writeS d 0 = .error e → exec (.step d) s = .next (s.halt e)) ∧
     (∀ n u, gr.failed = none → s.c.stpW = some n → Claims.Past s g n → Claims.Recorded s g n → s.writeS d (BitVec.ofNat 64 (n + 1)) = .ok u →
       ∃ t, exec (.step d) s = .next t ∧ t.c.stpW = none ∧ t.c.stepNo = s.c.stepNo ∧ (∀ r, t.me.rd r = u.me.rd r) ∧
         t.hm = s.hm ∧ t.here.queues = u.here.queues) ∧
     (∀ n, gr.failed = none → s.c.stpW = some n → ¬(Claims.Past s g n ∧ Claims.Recorded s g n) → exec (.step d) s = .next (Claims.stalled s)) ∧
     (∀ p, gr.failed = some p → Claims.Traps (.step d) s 0x0E 0 (BitVec.ofNat 64 (g.val + p.toNat * 2 ^ 16))))) ∧
  (∀ (s : State) (d : SReg), s.cur.sq = .C → s.agentGroup s.cur.core = none → Claims.Traps (.step d) s 0x18 0 s.cur.word) ∧
  (∀ (s u v : State) (d : Fin 32) (a : SReg) (ft : FlagT) (x y k : Word) (t : Trans) (g : Fin 16) (h : Hit),
    s.cur.sq = .C → s.readS a = .ok (x, u) →
    (match ft with
     | .reg b o => u.readS b = .ok (y, v) ∧ k = o.signExtend 64
     | .ext w => v = u ∧ y = w ∧ k = 0) →
    (let va := (x + k).toNat
     let f : Word := BitVec.ofNat 64 (leNat (v.homeBytes t.ia 8))
     let ready := (∀ l ∈ s.me.loads, l.vals ≠ none) ∧ s.me.atoms = []
     va % 8 = 0 → translate v.here.partNo v.me.rng va 8 .rd = .ok t → iaTier t.ia ≤ 4 → v.homeDown t.ia = false →
     v.confirm t.ia false = .ok h → v.isStepped t.ia = true → v.groupAt t.ia = some g → s.agentGroup s.cur.core = some g →
     (s.fab.groups[g.val]).failed = none → Claims.Sound v →
     ((∃ l ∈ s.me.loads, l.vals = none) → s.c.flgW = false → exec (.flagw (.g d) a ft) s = .next (s.setC { s.c with stand := true })) ∧
     (ready → (s.c.flgW = true → (s.c.stepNo = 0 ∨ Claims.Past s g (s.c.stepNo - 1)) ∧ Claims.Recorded s g (s.c.stepNo - 1)) →
     ((f - y).toNat < 2 ^ 63 → ∃ w, exec (.flagw (.g d) a ft) s = .next w ∧ w.c.flgW = false ∧ w.hm.mem = s.hm.mem ∧
        ∀ r, w.me.rd r = if r = d ∧ d ≠ 0 then f else s.me.rd r) ∧
     (2 ^ 63 ≤ (f - y).toNat → s.coveredAt s.cur.core s.cur.sq .dev = true →
        exec (.flagw (.g d) a ft) s = .next (s.setC { s.c with flgW := true, stand := false })) ∧
     (2 ^ 63 ≤ (f - y).toNat → s.coveredAt s.cur.core s.cur.sq .dev = false →
        exec (.flagw (.g d) a ft) s = .next (s.setC { s.c with stand := true }))))) ∧
  (∀ (s u v : State) (d a b : SReg) (o : BitVec 19) (x y : Word), s.cur.sq = .C → s.readS a = .ok (x, u) → u.readS b = .ok (y, v) →
    Claims.Takes v d → (x + o.signExtend 64).toNat % 8 ≠ 0 → ∃ det, Claims.Traps (.flagw d a (.reg b o)) s 0x05 (x + o.signExtend 64) det)

namespace Sys2Proof.Claims

/-- Lane i of a register under a type (R204). -/
def lane (t : ElemT) (v : VReg) (i : Nat) : Nat := (v.extractLsb' (i * t.width) t.width).toNat

/-- A lane is active: bit i × wb of the top mask entry is 1, or the stack is empty (R206). -/
def on (x : XState) (t : ElemT) (i : Nat) : Bool :=
  match x.masks with
  | [] => true
  | m :: _ => m.getLsbD (i * t.bytes)

/-- The place of a vector register: rotating from 16 up (R205). -/
def place (x : XState) (n : Fin 48) : Nat := if n.val < 16 then n.val else 16 + (n.val - 16 + x.rot.toNat) % 32

/-- A lane as a signed number, and as a number of its type. -/
def signed (t : ElemT) (a : Nat) : Int := if 2 ^ (t.width - 1) ≤ a then (a : Int) - 2 ^ t.width else a
def valueOf (t : ElemT) (a : Nat) : Int := if t ∈ [.s8, .s16, .s32, .s64] then signed t a else a

/-- The lanes of a vector B operand (R171): those of a register or a port's vector, or one broadcast element. -/
def ReadsB (s : State) (t : ElemT) : VB → (Nat → Nat) → State → Prop
  | .reg r, y, u => ∃ v, s.readV r = .ok (v, u) ∧ y = lane t v
  | .imm k, y, u => u = s ∧ y = fun _ => match t with
      | .f32 => k.toNat * 2 ^ 13
      | .f16 | .bf16 => k.toNat % 2 ^ 16
      | _ => (k.toInt % 2 ^ t.width).toNat
  | .ext w, y, u => u = s ∧ y = fun _ => w.toNat % 2 ^ t.width

/-- What a vector instruction leaves alone: every register but the vector register at place `dst`, every other sequencer, C's state,
the queues, the masks, the top-k selection and the matrix state of X, the scheduler, the fabric and the host side. Flags and memory
are said apart. -/
structure VecStep (dst : Option Nat) (s t : State) : Prop where
  regs   : ∀ n, t.me.rd n = s.me.rd n
  frame  : t.me.frame = s.me.frame
  loads  : t.me.loads = s.me.loads ∧ t.me.stores = s.me.stores
  others : ∀ c q, ¬(c = s.cur.core ∧ q = s.cur.sq) → t.seq c q = s.seq c q
  c      : t.here.c = s.here.c
  queues : t.here.queues = s.here.queues
  xrest  : { t.x with v := s.x.v, ports := s.x.ports, rot := s.x.rot } = s.x
  vregs  : ∀ p < 48, some p ≠ dst → vget t.x.v p 0 = vget s.x.v p 0
  mem    : t.hm.mem = s.hm.mem ∧ t.hm.ptes = s.hm.ptes
  sch    : t.sch = s.sch
  fab    : t.fab = s.fab
  hst    : t.hst = s.hst
  cur    : t.cur = s.cur

/-- The lanes `r` with their flags `fl` are written where they are active: to a register they replace its lanes, to a port that is
configured for writing they replace their bytes at its position, which advances and returns to 0 after its walk (R207, R217). The
other lanes and bytes stay, and a flag is set when it was or when an active lane raises it. -/
def WritesLanes (t : ElemT) (act : Nat → Bool) (r : Nat → Nat) (fl : Nat → Flags) (i : VR → Instr) (s w : State) : Prop :=
  (∀ n : Fin 48, ∃ v, exec (i (.v n)) s = .next v ∧ VecStep (some (place s.x n)) s v ∧ v.hm.lm = s.hm.lm ∧ v.x.ports = w.x.ports ∧
    (∀ j < t.lanes, lane t (vget v.x.v (place s.x n) 0) j =
      if act j then r j % 2 ^ t.width else lane t (vget s.x.v (place s.x n) 0) j) ∧
    ∀ k, v.me.fpcs.getLsbD k = true ↔ s.me.fpcs.getLsbD k = true ∨ ∃ j < t.lanes, act j = true ∧ (fl j).mask.getLsbD k = true) ∧
  (∀ m : Fin 8, (w.x.ports[m.val]).conf = true → (w.x.ports[m.val]).writes = true → s.me.stores = [] →
    (let p := w.x.ports[m.val]
     let o := s.cur.core.val * 2 ^ 21 + ((p.blk.p0.toNat : Int) + p.pos * p.blk.p2.toInt).toNat
     ∃ v, exec (i (.p m)) s = .next v ∧ VecStep none s v ∧
       v.x.ports = w.x.ports.set m.val { p with pos := if p.blk.p1.toNat ≤ p.pos + 1 then 0 else p.pos + 1 } ∧
       (∀ k, Memory.get v.hm.lm k =
         if o ≤ k ∧ k < o + 256 ∧ on w.x t ((k - o) / t.bytes) = true then
           BitVec.ofNat 8 (r ((k - o) / t.bytes) / 2 ^ (8 * ((k - o) % t.bytes)))
         else Memory.get s.hm.lm k) ∧
       ∀ k, v.me.fpcs.getLsbD k = true ↔ s.me.fpcs.getLsbD k = true ∨
         ∃ j < t.lanes, act j = true ∧ (fl j).mask.getLsbD k = true))

/-- A form with one vector source, and one with two, works lane by lane: its result and flags in a lane are those of `f` under
FPCS.RM on the sources' lanes (R209). -/
def Lanewise1 (t : ElemT) (mk : VR → VR → Instr) (f : Nat → Nat → Nat × Flags) : Prop :=
  ∀ (s w : State) (a : VR) (x : VReg), s.cur.sq = .X → s.readV a = .ok (x, w) →
    WritesLanes t (on s.x t) (fun j => (f s.me.rm (lane t x j)).1) (fun j => (f s.me.rm (lane t x j)).2) (fun d => mk d a) s w

def Lanewise2 (t : ElemT) (mk : VR → VR → VB → Instr) (f : Nat → Nat → Nat → Nat × Flags) : Prop :=
  ∀ (s u w : State) (a : VR) (b : VB) (x : VReg) (y : Nat → Nat), s.cur.sq = .X → s.readV a = .ok (x, u) → ReadsB u t b y w →
    WritesLanes t (on s.x t) (fun j => (f s.me.rm (lane t x j) (y j)).1) (fun j => (f s.me.rm (lane t x j) (y j)).2)
      (fun d => mk d a b) s w

/-- The integer types. -/
def intTypes : List ElemT := [.s8, .n8, .s16, .n16, .s32, .n32, .s64, .n64]
def floatTypes : List ElemT := [.f16, .bf16, .f32]

/-- A result without flags. -/
def bare (n : Nat) : Nat × Flags := (n, {})

/-- The least and the greatest value of an integer type, and a value clamped to them, setting VSAT when it is clamped. -/
def leastOf (t : ElemT) : Int := if t ∈ [.s8, .s16, .s32, .s64] then -(2 ^ (t.width - 1)) else 0
def greatestOf (t : ElemT) : Int := if t ∈ [.s8, .s16, .s32, .s64] then 2 ^ (t.width - 1) - 1 else 2 ^ t.width - 1
def clamped (t : ElemT) (v : Int) : Nat × Flags :=
  ((max (leastOf t) (min (greatestOf t) v) % 2 ^ t.width).toNat, { vsat := decide (v < leastOf t ∨ greatestOf t < v) })

/-- A format's value of a float lane and a rounded result as a lane. -/
def fmtOf : ElemT → Fmt
  | .f16 => ⟨5, 10⟩
  | .bf16 => ⟨8, 7⟩
  | _ => ⟨8, 23⟩
def res (r : FRes) : Nat × Flags := (r.bits, r.flags)

end Sys2Proof.Claims

/-- The integer element instructions work lane by lane modulo 2^w, and clamp where they saturate. For every integer
type, on sources X can read: VADD, VSUB, VMUL and VNEG wrap modulo 2^w, VMIN and VMAX compare as the type, VABS is the
magnitude of a signed lane, VAND to VNOT work on bits, VSHL, VSHR and VSAR shift by b modulo w, VADDS and VSUBS clamp
to the type's range and set VSAT when an active lane clamps. Each completes; only the active lanes of D (or their
bytes at a write port's position) change, and no other register, byte or flag (R207, R209, R217). -/
def Obligations.VectorIntegers : Prop :=
  ∀ t ∈ Claims.intTypes,
    (let m := 2 ^ t.width
     Claims.Lanewise2 t (.vadd t) (fun _ a b => Claims.bare ((a + b) % m)) ∧
     Claims.Lanewise2 t (.vsub t) (fun _ a b => Claims.bare ((a + m - b) % m)) ∧
     Claims.Lanewise2 t (.vmul t) (fun _ a b => Claims.bare (a * b % m)) ∧
     Claims.Lanewise2 t (.vmin t) (fun _ a b => Claims.bare (if Claims.valueOf t a ≤ Claims.valueOf t b then a else b)) ∧
     Claims.Lanewise2 t (.vmax t) (fun _ a b => Claims.bare (if Claims.valueOf t a ≤ Claims.valueOf t b then b else a)) ∧
     Claims.Lanewise1 t (.vabs t) (fun _ a => Claims.bare ((Claims.valueOf t a).natAbs % m)) ∧
     Claims.Lanewise1 t (.vneg t) (fun _ a => Claims.bare ((m - a) % m)) ∧
     Claims.Lanewise2 t (.vand t) (fun _ a b => Claims.bare (a &&& b)) ∧
     Claims.Lanewise2 t (.vor t) (fun _ a b => Claims.bare (a ||| b)) ∧
     Claims.Lanewise2 t (.vxor t) (fun _ a b => Claims.bare (a ^^^ b)) ∧
     Claims.Lanewise1 t (.vnot t) (fun _ a => Claims.bare (m - 1 - a)) ∧
     Claims.Lanewise2 t (.vshl t) (fun _ a b => Claims.bare (a * 2 ^ (b % t.width) % m)) ∧
     Claims.Lanewise2 t (.vshr t) (fun _ a b => Claims.bare (a / 2 ^ (b % t.width))) ∧
     Claims.Lanewise2 t (.vsar t) (fun _ a b => Claims.bare ((Claims.signed t a / 2 ^ (b % t.width)) % m).toNat) ∧
     Claims.Lanewise2 t (.vadds t) (fun _ a b => Claims.clamped t (Claims.valueOf t a + Claims.valueOf t b)) ∧
     Claims.Lanewise2 t (.vsubs t) (fun _ a b => Claims.clamped t (Claims.valueOf t a - Claims.valueOf t b)) ∧
     (∀ (s u w : State) (d : Fin 48) (a : VR) (b : VB) (x : VReg) (y : Nat → Nat), s.cur.sq = .X → s.readV a = .ok (x, u) →
       Claims.ReadsB u t b y w → ∃ v, exec (.vfma t d a b) s = .next v ∧ Claims.VecStep (some (Claims.place s.x d)) s v ∧
         v.hm.lm = s.hm.lm ∧ v.me.fpcs = s.me.fpcs ∧
         ∀ j < t.lanes, Claims.lane t (vget v.x.v (Claims.place s.x d) 0) j =
           (let old := Claims.lane t (vget s.x.v (Claims.place s.x d) 0) j
            if Claims.on s.x t j then (Claims.lane t x j * y j + old) % m else old)))

/-- The float element instructions round each active lane's exact result once under FPCS.RM and collect the flags of
the active lanes. For f16, bf16 and f32, on sources X can read: VADD to VFMA, VDIV and VSQRT to VLOG2 give in each
active lane the format's result under FPCS.RM and set in FPCS the flags of the active lanes; VMIN and VMAX follow R108
with NV for a signalling NaN; VABS and VNEG change the sign alone, a NaN giving the canonical one. VCVT fills the low
lanes of its target type and zeros the rest, clamping integers with VSAT. For finite operands these results are
`Fmt.round` of the exact sum, difference, product, fused sum, quotient, root, reciprocal, reciprocal root, converted
float and converted integer under the mode, and a converted float is the exact number rounded to an integer, or the
bound it exceeds with NV, NX where it was not exact (R122 to R124, R209 to R211). What `Fmt.round` gives
RoundingIsCorrect says, the results of VEXP2 and VLOG2 ExpAndLogRound, and NaN, infinite and zero operands
FloatSpecials. -/
def Obligations.VectorFloats : Prop :=
  (∀ t ∈ Claims.floatTypes,
    (let f := Claims.fmtOf t
     let nv (a b : Nat) : Flags := { nv := (f.decode a).sig || (f.decode b).sig }
     let sign (g : Nat → Nat) (a : Nat) : Nat × Flags :=
       if (f.decode a).isNan then (f.nanBits, { nv := (f.decode a).sig }) else Claims.bare (g a)
     Claims.Lanewise2 t (.vadd t) (fun rm a b => Claims.res (f.add rm a b)) ∧
     Claims.Lanewise2 t (.vsub t) (fun rm a b => Claims.res (f.sub rm a b)) ∧
     Claims.Lanewise2 t (.vmul t) (fun rm a b => Claims.res (f.mul rm a b)) ∧
     Claims.Lanewise2 t (.vdiv t) (fun rm a b => Claims.res (f.div rm a b)) ∧
     Claims.Lanewise2 t (.vmin t) (fun _ a b => (f.pick true a b, nv a b)) ∧
     Claims.Lanewise2 t (.vmax t) (fun _ a b => (f.pick false a b, nv a b)) ∧
     Claims.Lanewise1 t (.vabs t) (fun _ a => sign (fun a => a % 2 ^ (t.width - 1)) a) ∧
     Claims.Lanewise1 t (.vneg t) (fun _ a => sign (fun a => (a + 2 ^ (t.width - 1)) % 2 ^ t.width) a) ∧
     Claims.Lanewise1 t (.vsqrt t) (fun rm a => Claims.res (f.sqrt rm a)) ∧
     Claims.Lanewise1 t (.vrcp t) (fun rm a => Claims.res (f.rcp rm a)) ∧
     Claims.Lanewise1 t (.vrsq t) (fun rm a => Claims.res (f.rsq rm a)) ∧
     Claims.Lanewise1 t (.vexp2 t) (fun rm a => Claims.res (f.exp2 rm a)) ∧
     Claims.Lanewise1 t (.vlog2 t) (fun rm a => Claims.res (f.log2 rm a)) ∧
     (∀ (s u w : State) (d : Fin 48) (a : VR) (b : VB) (x : VReg) (y : Nat → Nat), s.cur.sq = .X → s.readV a = .ok (x, u) →
       Claims.ReadsB u t b y w → ∃ v, exec (.vfma t d a b) s = .next v ∧ Claims.VecStep (some (Claims.place s.x d)) s v ∧
         ∀ j < t.lanes, Claims.lane t (vget v.x.v (Claims.place s.x d) 0) j =
           (let old := Claims.lane t (vget s.x.v (Claims.place s.x d) 0) j
            if Claims.on s.x t j then (f.fma s.me.rm (Claims.lane t x j) (y j) old).bits % 2 ^ t.width else old) ∧
         v.hm.lm = s.hm.lm ∧ ∀ k, v.me.fpcs.getLsbD k = true ↔ s.me.fpcs.getLsbD k = true ∨ ∃ j < t.lanes, Claims.on s.x t j = true ∧
           (f.fma s.me.rm (Claims.lane t x j) (y j) (Claims.lane t (vget s.x.v (Claims.place s.x d) 0) j)).flags.mask.getLsbD k = true))) ∧
  (∀ t ∈ Claims.floatTypes, ∀ (rm a b c : Nat), rm < 4 →
    (let f := Claims.fmtOf t
     let fin := Claims.isFinite f
     let v := Claims.exact f
     let neg (x : Rat) : Bool := decide (x < 0)
     (fin a → fin b → Claims.RoundsTo f rm (v a + v b) (f.add rm a b) ∧ Claims.RoundsTo f rm (v a - v b) (f.sub rm a b) ∧
       Claims.RoundsTo f rm (v a * v b) (f.mul rm a b) ∧
       (fin c → Claims.RoundsTo f rm (v a * v b + v c) (f.fma rm a b c)) ∧
       (v a ≠ 0 → v b ≠ 0 → Claims.RoundsCut f rm (neg (v a) != neg (v b)) (fun y => y * Claims.size (v b) ≤ Claims.size (v a))
         (fun y => y * Claims.size (v b) = Claims.size (v a)) (f.div rm a b))) ∧
     (fin a → v a ≠ 0 → Claims.RoundsCut f rm (neg (v a)) (fun y => y * Claims.size (v a) ≤ 1)
       (fun y => y * Claims.size (v a) = 1) (f.rcp rm a)) ∧
     (fin a → 0 < v a → Claims.RoundsCut f rm false (fun y => y * y ≤ v a) (fun y => y * y = v a) (f.sqrt rm a) ∧
       Claims.RoundsCut f rm false (fun y => y * y * v a ≤ 1) (fun y => y * y * v a = 1) (f.rsq rm a)) ∧
     (fin a → ∀ u ∈ Claims.floatTypes, Claims.RoundsTo (Claims.fmtOf u) rm (v a) ((Claims.fmtOf u).ofV rm (f.decode a))) ∧
     (∀ n : Int, Claims.RoundsTo f rm n (f.ofInt rm n)) ∧
     (fin a → ∀ u ∈ Claims.intTypes, ∃ i, Claims.RoundsInt rm (v a) i ∧ f.toInt rm a (Claims.leastOf u) (Claims.greatestOf u) =
       if i < Claims.leastOf u then (Claims.leastOf u, { nv := true })
       else if Claims.greatestOf u < i then (Claims.greatestOf u, { nv := true })
       else (i, { nx := decide ((i : Rat) ≠ v a) })))) ∧
  (∀ (t u : ElemT) (s w : State) (a : VR) (x : VReg), s.cur.sq = .X → s.readV a = .ok (x, w) →
    (let m := 2048 / max t.width u.width
     let conv (a : Nat) : Nat × Flags :=
       if t ∈ Claims.floatTypes then
         if u ∈ Claims.floatTypes then
           if t = u then if ((Claims.fmtOf t).decode a).isNan then ((Claims.fmtOf t).nanBits, { nv := ((Claims.fmtOf t).decode a).sig })
             else Claims.bare a
           else Claims.res ((Claims.fmtOf u).ofV s.me.rm ((Claims.fmtOf t).decode a))
         else let r := (Claims.fmtOf t).toInt s.me.rm a (Claims.leastOf u) (Claims.greatestOf u)
           ((r.1 % 2 ^ u.width).toNat, r.2)
       else if u ∈ Claims.floatTypes then Claims.res ((Claims.fmtOf u).ofInt s.me.rm (Claims.valueOf t a))
       else Claims.clamped u (Claims.valueOf t a)
     Claims.WritesLanes u (Claims.on s.x u) (fun j => if j < m then (conv (Claims.lane t x j)).1 else 0)
       (fun j => if j < m then (conv (Claims.lane t x j)).2 else {}) (fun d => .vcvt t u d a) s w))

/-- An exact magnitude, m × 2^e or more by a rest, is rounded to the neighbouring encoding that the rounding mode
names, with its flags. For f16, bf16 and f32, every rounding mode, sign and positive x, which is m × 2^e, or where a
rest is kept lies strictly between it and (m + 1) × 2^e with two bits of m to spare: a result that does not overflow
has the operand's sign and a magnitude k with x not further than the neighbours of k: toward zero k is the greatest
encoding at or below it, away from zero the least at or above it, to nearest the closer one, the even one at a tie. NX
is set exactly when the magnitude differs, UF only with NX; overflow sets OF and NX and gives infinity or the largest
finite magnitude as R122 says. -/
def Obligations.RoundingIsCorrect : Prop :=
  ∀ t ∈ Claims.floatTypes, ∀ (rm : Nat) (neg : Bool) (m : Nat) (e : Int) (rest : Bool) (x : Rat), rm < 4 → 0 < m →
    (rest = false → x = (m : Rat) * 2 ^ e) →
    (rest = true → 2 ^ ((Claims.fmtOf t).fb + 2) ≤ m ∧ (m : Rat) * 2 ^ e < x ∧ x < ((m + 1 : Nat) : Rat) * 2 ^ e) →
    (let f := Claims.fmtOf t
     let r := f.round rm neg m e rest
     let sign := if neg then 2 ^ (f.eb + f.fb) else 0
     let away := (rm = 2 ∧ neg = true) ∨ (rm = 3 ∧ neg = false)
     (r.flags.of = false → ∃ k, r.bits = sign + k ∧ k < f.infBits ∧
       (rm = 0 → (Claims.mag f k + Claims.mag f (k + 1) ≥ 2 * x) ∧ (0 < k → Claims.mag f (k - 1) + Claims.mag f k ≤ 2 * x) ∧
         (k % 2 = 1 → Claims.mag f k + Claims.mag f (k + 1) > 2 * x ∧ Claims.mag f (k - 1) + Claims.mag f k < 2 * x)) ∧
       (rm ≠ 0 → ¬away → Claims.mag f k ≤ x ∧ x < Claims.mag f (k + 1)) ∧
       (away → x ≤ Claims.mag f k ∧ 0 < k ∧ Claims.mag f (k - 1) < x) ∧
       (r.flags.nx = true ↔ Claims.mag f k ≠ x) ∧ (r.flags.uf = true → r.flags.nx = true)) ∧
     (r.flags.of = true → r.flags.nx = true ∧ Claims.mag f (f.infBits - 1) < x ∧
       r.bits = sign + if rm = 0 ∨ away then f.infBits else f.infBits - 1))

/-- VDIV, VSQRT, VRCP, VRSQ, VEXP2, VLOG2 and VCVT complete on every operand; NaN, infinite and zero operands give
what R123 and R210 say. On X, with sources that can be read and any vector register as destination, VDIV, VSQRT, VRCP,
VRSQ, VEXP2, VLOG2 and VCVT answer a next state: no operand traps, whatever it encodes, and the pc passes the
instruction as every completed one does. For each format and rounding mode: a NaN operand gives the canonical quiet
NaN, with NV when it signals; ∞ − ∞, 0 × ∞, 0/0 and ∞/∞ give it with NV; a finite non-zero number over zero and 1/±0
and 1/√±0 give a signed infinity with DZ, log2 of ±0 −∞ with DZ; the root, reciprocal root and log2 of a negative
number and of −∞ give NaN with NV; the rest of R210's table holds. An exact zero sum of opposite signs is +0, or −0
when rounding down; that a sum of two zeros of one sign keeps it is the model's reading (log 28). -/
def Obligations.FloatSpecials : Prop :=
  (∀ t ∈ Claims.floatTypes, ∀ (s u w : State) (d : Fin 48) (a : VR) (b : VB) (x : VReg) (y : Nat → Nat),
    s.cur.sq = .X → s.readV a = .ok (x, u) →
    (let f := Claims.fmtOf t
     let completes (i : Instr) (w : State) (r : Nat → FRes) := ∃ v, exec i s = .next v ∧ v.me.pc = w.complete.me.pc ∧
       ∀ j < t.lanes, Claims.on s.x t j = true → Claims.lane t (vget v.x.v (Claims.place s.x d) 0) j = (r j).bits % 2 ^ t.width
     (Claims.ReadsB u t b y w → completes (.vdiv t (.v d) a b) w fun j => f.div s.me.rm (Claims.lane t x j) (y j)) ∧
     completes (.vsqrt t (.v d) a) u (fun j => f.sqrt s.me.rm (Claims.lane t x j)) ∧
     completes (.vrcp t (.v d) a) u (fun j => f.rcp s.me.rm (Claims.lane t x j)) ∧
     completes (.vrsq t (.v d) a) u (fun j => f.rsq s.me.rm (Claims.lane t x j)) ∧
     completes (.vexp2 t (.v d) a) u (fun j => f.exp2 s.me.rm (Claims.lane t x j)) ∧
     completes (.vlog2 t (.v d) a) u (fun j => f.log2 s.me.rm (Claims.lane t x j)) ∧
     (∀ t' : ElemT, ∃ v, exec (.vcvt t' t (.v d) a) s = .next v ∧ v.me.pc = u.complete.me.pc) ∧
     (∀ t' : ElemT, ∃ v, exec (.vcvt t t' (.v d) a) s = .next v ∧ v.me.pc = u.complete.me.pc))) ∧
  ∀ t ∈ Claims.floatTypes, ∀ (rm : Nat), rm < 4 →
    (let f := Claims.fmtOf t
     let nan (b : Nat) := (f.decode b).isNan = true
     let sg (b : Nat) := (f.decode b).sig
     let inf (n : Bool) := (if n then 2 ^ (f.eb + f.fb) else 0) + (2 ^ f.eb - 1) * 2 ^ f.fb
     let zero (n : Bool) := if n then 2 ^ (f.eb + f.fb) else 0
     let qnan := (2 ^ f.eb - 1) * 2 ^ f.fb + 2 ^ (f.fb - 1)
     let gives (r : FRes) (b : Nat) (fl : Flags) := r = ⟨b, fl⟩
     let negative (b : Nat) := ∃ m e, f.decode b = .fin true m e
     let finite (b : Nat) (n : Bool) := ∃ m e, f.decode b = .fin n m e
     let nv : Flags := { nv := true }
     let dz : Flags := { dz := true }
     (∀ a b, nan a ∨ nan b → gives (f.add rm a b) qnan { nv := sg a || sg b } ∧ gives (f.sub rm a b) qnan { nv := sg a || sg b } ∧
       gives (f.mul rm a b) qnan { nv := sg a || sg b } ∧ gives (f.div rm a b) qnan { nv := sg a || sg b }) ∧
     (∀ a, nan a → ∀ r ∈ [f.sqrt rm a, f.rcp rm a, f.rsq rm a, f.exp2 rm a, f.log2 rm a], gives r qnan { nv := sg a }) ∧
     (∀ n, gives (f.add rm (inf n) (inf !n)) qnan nv ∧ gives (f.sub rm (inf n) (inf n)) qnan nv ∧
       gives (f.mul rm (inf n) (zero n)) qnan nv ∧ gives (f.mul rm (zero n) (inf n)) qnan nv ∧
       gives (f.div rm (inf n) (inf n)) qnan nv ∧ gives (f.div rm (zero n) (zero n)) qnan nv) ∧
     (∀ a n p, finite a n → gives (f.div rm a (zero p)) (inf (n != p)) dz ∧
       gives (f.add rm a (inf p)) (inf p) {} ∧ gives (f.mul rm a (inf p)) (inf (n != p)) {} ∧
       gives (f.div rm (zero p) a) (zero (n != p)) {} ∧ gives (f.div rm a (inf p)) (zero (n != p)) {} ∧
       gives (f.sub rm a a) (zero (rm == 2)) {}) ∧
     (∀ n, gives (f.rcp rm (zero n)) (inf n) dz ∧ gives (f.rsq rm (zero n)) (inf n) dz ∧ gives (f.log2 rm (zero n)) (inf true) dz ∧
       gives (f.sqrt rm (zero n)) (zero n) {} ∧ gives (f.rcp rm (inf n)) (zero n) {} ∧
       gives (f.exp2 rm (zero n)) ((2 ^ (f.eb - 1) - 1) * 2 ^ f.fb) {}) ∧
     (∀ a, negative a ∨ a = inf true → gives (f.sqrt rm a) qnan nv ∧ gives (f.rsq rm a) qnan nv ∧ gives (f.log2 rm a) qnan nv) ∧
     gives (f.sqrt rm (inf false)) (inf false) {} ∧ gives (f.rsq rm (inf false)) (zero false) {} ∧
     gives (f.exp2 rm (inf false)) (inf false) {} ∧ gives (f.exp2 rm (inf true)) (zero false) {} ∧
     gives (f.log2 rm (inf false)) (inf false) {} ∧
     (∀ n, gives (f.add rm (zero n) (zero !n)) (zero (rm == 2)) {} ∧ gives (f.add rm (zero n) (zero n)) (zero n) {}))

namespace Sys2Proof.Claims

/-- The pairwise tree of VRED over 2^k lanes, from the lane that stands at `i` of its level (R212). -/
def tree (f : Nat → Nat → Nat) : Nat → (Nat → Nat) → Nat → Nat
  | 0, x, i => x i
  | k + 1, x, i => f (tree f k x (2 * i)) (tree f k x (2 * i + 1))

/-- A vector register that X writes: its lanes take `r`, where `act` says, and nothing else changes but what `VecStep` leaves open;
FPCS may take the flags of `fl`. -/
def WritesReg (t : ElemT) (n : Fin 48) (act : Nat → Bool) (r : Nat → Nat) (fl : Word) (i : Instr) (s : State) : Prop :=
  ∃ v g, exec i s = .next v ∧ VecStep (some (place s.x n)) s v ∧ v.hm = s.hm ∧ g &&& ~~~fl = 0 ∧ v.me.fpcs = s.me.fpcs ||| g ∧
    ∀ j < t.lanes, lane t (vget v.x.v (place s.x n) 0) j =
      if act j then r j % 2 ^ t.width else lane t (vget s.x.v (place s.x n) 0) j

/-- The bytes of local memory from an offset of the issuing core. -/
def bytesAt (s : State) (o i : Nat) : Byte := Memory.get s.hm.lm (s.cur.core.val * 2 ^ 21 + o + i)

/-- The byte of local memory that a vector access reads: that of a granule which has been read ahead, if one has (R83). -/
def loadedAt (s : State) (o i : Nat) : Byte :=
  let a := lmIa s.cur.core (o + i)
  match s.me.peeked.find? fun g => g.1 == a / 8 * 8 with
  | some g => g.2.getD (a % 8) (bytesAt s o i)
  | none => bytesAt s o i

/-- The identity of VRED (R212). -/
def identity (t : ElemT) : RedOp → Nat
  | .add => if t ∈ floatTypes then 2 ^ (t.width - 1) else 0
  | .min => if t ∈ floatTypes then (fmtOf t).infBits else (greatestOf t % 2 ^ t.width).toNat
  | .max => if t ∈ floatTypes then 2 ^ (t.width - 1) + (fmtOf t).infBits else (leastOf t % 2 ^ t.width).toNat

/-- One step of VRED's tree. -/
def redStep (t : ElemT) (rm : Nat) : RedOp → Nat → Nat → Nat
  | .add, a, b => if t ∈ floatTypes then ((fmtOf t).add rm a b).bits else (a + b) % 2 ^ t.width
  | .min, a, b => if t ∈ floatTypes then (fmtOf t).pick true a b else if valueOf t a ≤ valueOf t b then a else b
  | .max, a, b => if t ∈ floatTypes then (fmtOf t).pick false a b else if valueOf t a ≤ valueOf t b then b else a

end Sys2Proof.Claims

/-- VSEL, VRED and the lane-moving instructions write the lanes that R212 and R213 say. On sources X can read, with a
register as destination: VSEL writes every lane, by the top mask entry from a or b; VRED reduces the active lanes, the
others at the operation's identity, by the fixed pairwise tree into lane 0 and zeros the rest; VBCAST, VPERM, VSHUF
and VIOTA write the active lanes; VINS writes one lane and VMOVS reads one, extended as the type, both ignoring the
mask and raising 0x01 past the last lane. Only VRED can set flags. Everything else stays (R207, R212, R213). -/
def Obligations.VectorMoves : Prop :=
  ∀ (t : ElemT) (s u w : State) (a : VR) (b : VB) (x : VReg) (y : Nat → Nat) (n : Fin 48), s.cur.sq = .X → s.readV a = .ok (x, u) →
    Claims.ReadsB u t b y w →
    (let all : Nat → Bool := fun _ => true
     let on := Claims.on s.x t
     let lx := Claims.lane t x
     let old := Claims.lane t (vget s.x.v (Claims.place s.x n) 0)
     let k := t.lanes
     Claims.WritesReg t n all (fun j => if on j then lx j else y j) 0 (.vsel t (.v n) a b) s ∧
     (∀ op, Claims.WritesReg t n all (fun j => if j = 0 then
         Claims.tree (Claims.redStep t s.me.rm op) (Nat.log2 k) (fun i => if on i then lx i else Claims.identity t op) 0 else 0)
       (if t ∈ Claims.floatTypes then 0x17 else 0) (.vred t op (.v n) a) s) ∧
     (∀ r, b = .reg r → Claims.WritesReg t n on (fun j => lx (y j % k)) 0 (.vperm t (.v n) a r) s) ∧
     Claims.WritesReg t n on (fun j => lx (k - 1 - j)) 0 (.vshuf t .rev (.v n) a) s ∧
     Claims.WritesReg t n on (fun j => if j % 2 = 0 then lx (j / 2) else old (j / 2)) 0 (.vshuf t .ilo (.v n) a) s ∧
     Claims.WritesReg t n on (fun j => if j % 2 = 0 then lx (k / 2 + j / 2) else old (k / 2 + j / 2)) 0 (.vshuf t .ihi (.v n) a) s ∧
     Claims.WritesReg t n on (fun j => if j < k / 2 then lx (2 * j) else 0) 0 (.vshuf t .even (.v n) a) s ∧
     Claims.WritesReg t n on (fun j => if j < k / 2 then lx (2 * j + 1) else 0) 0 (.vshuf t .odd (.v n) a) s ∧
     (∀ g : Fin 32, Claims.WritesReg t n on (fun j => lx ((j + (s.me.rd g).toNat % k) % k)) 0 (.vshuf t (.rot (.g g)) (.v n) a) s ∧
       Claims.WritesReg t n on (fun _ => (s.me.rd g).toNat) 0 (.vbcast t (.v n) (.g g)) s ∧
       Claims.WritesReg t n on (fun j => (s.me.rd g).toNat + j) 0 (.viota t (.v n) (.g g)) s ∧
       (∀ i : BitVec 8, i.toNat < k → Claims.WritesReg t n (fun j => j == i.toNat) (fun _ => (s.me.rd g).toNat) 0
         (.vins t (.v n) (.g g) i) s) ∧
       (∀ i : BitVec 8, k ≤ i.toNat → Claims.Traps (.vins t (.v n) (.g g) i) s 0x01 0 s.cur.word)) ∧
     (∀ (d : SReg) (i : BitVec 8), i.toNat < k → Claims.Takes u d → ∃ v z, exec (.vmovs t d a i) s = .next z.complete ∧
       u.writeS d v = .ok z ∧ v = BitVec.ofInt 64 (Claims.valueOf t (lx i.toNat))) ∧
     (∀ (d : SReg) (i : BitVec 8), k ≤ i.toNat → Claims.Traps (.vmovs t d a i) s 0x01 0 s.cur.word))

/-- VCMP pushes the lanes that hold, MINV, MPOP, MRD and MWR work on the top entry, MBR branches when it is empty.
With fewer than 16 entries VCMP pushes the top entry ANDed with the lanes whose condition holds (a NaN comparing true
under .ne alone); at 16 it raises 0x16, before the 0x01 of a port operand that cannot be read, which is the model's
choice (log 57). MINV replaces the top entry by not top and the one beneath, MPOP pops it, MWR writes one of its
words, each raising 0x16 on an empty stack. MRD reads a word of it, all ones on an empty stack. MBR branches when the
top entry is all zeros, never on an empty stack. No register, memory byte or integer flag changes beside (R206 to
R208). -/
def Obligations.MasksAndCompares : Prop :=
  (∀ (t : ElemT) (c : Cond) (s u w : State) (a : VR) (b : VB) (x : VReg) (y : Nat → Nat), s.cur.sq = .X →
    s.readV a = .ok (x, u) → Claims.ReadsB u t b y w → s.x.masks.length < 16 →
    (let f := Claims.fmtOf t
     let holds (p q : Nat) : Bool :=
       let less := if t ∈ Claims.floatTypes then FV.compare (f.decode p) (f.decode q) == .lt else decide (Claims.valueOf t p < Claims.valueOf t q)
       let same := if t ∈ Claims.floatTypes then FV.compare (f.decode p) (f.decode q) == .eq else p == q
       if t ∈ Claims.floatTypes ∧ ((f.decode p).isNan = true ∨ (f.decode q).isNan = true) then c == .ne
       else match c with
         | .eq => same
         | .ne => !same
         | .lt | .ltn => less
         | .ge | .gen => !less
         | .le | .len => less || same
         | .gt | .gtn => !(less || same)
     ∃ (v : State) (m : Mask), exec (.vcmp t c a b) s = .next v ∧ v.x.masks = m :: s.x.masks ∧ v.hm = s.hm ∧ v.x.v = s.x.v ∧
       (∀ n, v.me.rd n = s.me.rd n) ∧ (t ∈ Claims.intTypes → v.me.fpcs = s.me.fpcs) ∧
       ∀ j < 256, m.getLsbD j =
         ((match s.x.masks with | [] => true | e :: _ => e.getLsbD j) &&
          holds (Claims.lane t x (j / t.bytes)) (y (j / t.bytes))))) ∧
  (∀ (t : ElemT) (c : Cond) (s : State) (a : VR) (b : VB), s.cur.sq = .X → 16 ≤ s.x.masks.length →
    Claims.Traps (.vcmp t c a b) s 0x16 0 s.cur.word) ∧
  (∀ (s : State) (m : Mask) (r : List Mask), s.cur.sq = .X → s.x.masks = m :: r →
    exec .minv s = .next (s.setX { s.x with masks := (~~~m &&& r.headD (BitVec.allOnes 256)) :: r }).complete ∧
    exec .mpop s = .next (s.setX { s.x with masks := r }).complete ∧
    (∀ (k : Fin 4) (a : SReg) (g : Word) (u : State), s.readS a = .ok (g, u) → ∃ v e, exec (.mwr k a) s = .next v ∧
      v.x.masks = e :: r ∧ (∀ n, v.me.rd n = s.me.rd n) ∧ v.hm = s.hm ∧ v.x.v = s.x.v ∧
      ∀ j < 256, e.getLsbD j = if 64 * k.val ≤ j ∧ j < 64 * k.val + 64 then g.getLsbD (j - 64 * k.val) else m.getLsbD j)) ∧
  (∀ (s : State), s.cur.sq = .X → s.x.masks = [] →
    Claims.Traps .minv s 0x16 0 s.cur.word ∧ Claims.Traps .mpop s 0x16 0 s.cur.word ∧
    ∀ k (g : Fin 32), Claims.Traps (.mwr k (.g g)) s 0x16 0 s.cur.word) ∧
  (∀ (s : State) (d : SReg) (k : Fin 4), s.cur.sq = .X → Claims.Takes s d → ∃ v u, s.writeS d v = .ok u ∧
    exec (.mrd d k) s = .next u.complete ∧
    ∀ j < 64, v.getLsbD j = match s.x.masks with | [] => true | m :: _ => m.getLsbD (64 * k.val + j)) ∧
  (∀ (s : State) (d : BitVec 19), s.cur.sq = .X →
    ((∃ r, s.x.masks = 0 :: r) → ∃ t, Claims.BranchesTo s (s.me.pc + 8 * d.signExtend 64) t ∧ exec (.mbr d) s = .next t) ∧
    (¬(∃ r, s.x.masks = 0 :: r) → exec (.mbr d) s = .next s.complete))

/-- VLD, VST, VGATH and VSCAT move the active lanes between vector registers and memory, and no other byte. VLD of an
aligned offset with its 256 bytes in local memory and off the pool writes the active lanes from their bytes, those of
a granule read ahead from what it held then (R83); VST writes the active lanes' bytes and no other byte. VGATH, its
active lanes confirmed at their homes past the caches, with no store in flight to them and no line under way, writes
them from g[A] plus the signed lane of vB; with .nr an absent lane gets 0 and the lanes present are pushed, ANDed with
the top entry, where an inactive lane counts as not present, which is the model's choice (log 57); without it an
absent lane raises 0x0A. VSCAT enters one store per active lane in ascending order, counting in no class (R214, R219,
R220). -/
def Obligations.VectorMemory : Prop :=
  (∀ (t : ElemT) (s u w : State) (n : Fin 48) (v : VR) (a : SReg) (k : Off) (x : Word) (y : VReg), s.cur.sq = .X →
    s.readS a = .ok (x, u) → u.readV v = .ok (y, w) →
    (let o := Claims.addr x k
     o % t.bytes = 0 → o + 256 ≤ 0x200000 → overlap o 256 (s.poolOf s.cur.core).lo (s.poolOf s.cur.core).len = false →
     ((∀ st ∈ s.me.stores, st.meets (lmIa s.cur.core o) 256 = false) → ∃ z, exec (.vld t (.v n) a k) s = .next z ∧
        Claims.VecStep (some (Claims.place s.x n)) { s with cores := u.cores } z ∧ z.hm = s.hm ∧ z.me.fpcs = s.me.fpcs ∧
        ∀ j < t.lanes, Claims.lane t (vget z.x.v (Claims.place s.x n) 0) j =
          if Claims.on s.x t j then leNat ((List.range t.bytes).map fun i => Claims.loadedAt s o (j * t.bytes + i))
          else Claims.lane t (vget s.x.v (Claims.place s.x n) 0) j) ∧
     (s.me.stores = [] → ∃ z, exec (.vst t v a k) s = .next z ∧
        Claims.VecStep none { s with cores := w.cores } z ∧ z.me.fpcs = s.me.fpcs ∧
        ∀ i, Memory.get z.hm.lm i =
          (let b := i - (s.cur.core.val * 2 ^ 21 + o)
           if s.cur.core.val * 2 ^ 21 + o ≤ i ∧ b < 256 ∧ Claims.on s.x t (b / t.bytes) = true then
             BitVec.ofNat 8 (Claims.lane t y (b / t.bytes) / 2 ^ (8 * (b % t.bytes)))
           else Memory.get s.hm.lm i)))) ∧
  (∀ (t : ElemT) (s u w : State) (n : Fin 48) (a : SReg) (b : VR) (x : Word) (y : VReg) (nr : Bool) (tr : Nat → Trans)
      (here : Nat → Bool), s.cur.sq = .X → s.readS a = .ok (x, u) → u.readV b = .ok (y, w) → Claims.Sound s →
    s.me.loads = [] → s.me.atoms = [] → s.me.lanes = [] → s.lateIn s.cur.core = false → (nr = true → s.x.masks.length < 16) →
    (let va (j : Nat) := addOff x.toNat (Claims.signed t (Claims.lane t y j))
     (∀ j < t.lanes, Claims.on s.x t j = true → (tr j).cache ≠ 0 ∧
       if here j then Claims.Reaches w .load (va j) t.bytes (tr j) ∧ Claims.NoStores s (.home (tr j).ia (tr j).cache) t.bytes
       else va j % t.bytes = 0 ∧ translate w.here.partNo w.me.rng (va j) t.bytes .rd = .ok (tr j) ∧ iaTier (tr j).ia ≤ 4 ∧
         w.homeDown (tr j).ia = false ∧ lookup w.hm.ptes (tr j).ia = none) →
     (nr = true ∨ (∀ j < t.lanes, Claims.on s.x t j = true → here j = true) → ∃ z, exec (.vgath t nr (.v n) a b) s = .next z ∧
       z.hm.mem = s.hm.mem ∧ z.hm.lm = s.hm.lm ∧ (∀ r, z.me.rd r = s.me.rd r) ∧ z.me.fpcs = s.me.fpcs ∧
       (∀ p < 48, p ≠ Claims.place s.x n → vget z.x.v p 0 = vget s.x.v p 0) ∧
       (∀ j < t.lanes, Claims.lane t (vget z.x.v (Claims.place s.x n) 0) j =
         if Claims.on s.x t j then (if here j then leNat (s.homeBytes (tr j).ia t.bytes) else 0)
         else Claims.lane t (vget s.x.v (Claims.place s.x n) 0) j) ∧
       (nr = false → z.x.masks = s.x.masks) ∧
       (nr = true → ∃ m, z.x.masks = m :: s.x.masks ∧ ∀ j < 256, m.getLsbD j =
         ((match s.x.masks with | [] => true | e :: _ => e.getLsbD j) && Claims.on s.x t (j / t.bytes) && here (j / t.bytes)))) ∧
     (nr = false → ∀ j < t.lanes, Claims.on s.x t j = true → here j = false →
       (∀ i < j, Claims.on s.x t i = true → here i = true) →
       ∃ det, Claims.Traps (.vgath t nr (.v n) a b) s 0x0A (BitVec.ofNat 64 (tr j).ia) det))) ∧
  (∀ (t : ElemT) (s u w z : State) (v b : VR) (a : SReg) (x : Word) (y d : VReg) (tr : Nat → Trans), s.cur.sq = .X →
    s.readS a = .ok (x, u) → u.readV b = .ok (y, w) → w.readV v = .ok (d, z) → Claims.Sound s → s.me.atoms = [] →
    (∀ j < t.lanes, Claims.on s.x t j = true →
      Claims.Reaches z .store (addOff x.toNat (Claims.signed t (Claims.lane t y j))) t.bytes (tr j)) →
    ∃ e, exec (.vscat t v a b) s = .next e ∧ e.hm.mem = s.hm.mem ∧ e.hm.lm = s.hm.lm ∧ e.x.v = s.x.v ∧
      (∀ r, e.me.rd r = s.me.rd r) ∧ e.me.fpcs = s.me.fpcs ∧
      e.me.stores.map (fun st => (st.ia, st.bytes, st.counts)) = s.me.stores.map (fun st => (st.ia, st.bytes, st.counts)) ++
        ((List.range t.lanes).filter (Claims.on s.x t)).map fun j => ((tr j).ia, leBytes t.bytes (Claims.lane t d j), false))

/-- PCFG and PRST set a port, a source port pops its vector, and VTOPK keeps the best pairs that VTOPKR writes. PCFG
of a block with 1 to 2^32 − 1 vectors, a stride and address that are multiples of 8, and vectors 0 and N − 1 in local
memory, off the pool, configures the port at position 0; PRST returns it to 0, and raises 0x01 on a port not
configured. A read port named as a source gives the 256 bytes at ADDR + pos × STR and advances. VTOPK with #b keeps
the k best of the active lanes' pairs, better key first, then lower index; VTOPKR writes their keys or indices and the
empty values (R140, R216 to R218, R222, R223). -/
def Obligations.PortsAndTopK : Prop :=
  (∀ (s : State) (n : Fin 8) (b : Blk), s.cur.sq = .X →
    (let k := s.me.substBlk b
     let last : Int := k.p0.toNat + ((k.p1.toNat : Int) - 1) * k.p2.toInt
     let ok := 1 ≤ k.p1.toNat ∧ k.p1.toNat < 2 ^ 32
     let al := k.p0.toNat % 8 = 0 ∧ k.p2.toInt % 8 = 0
     let inn := k.p0.toNat ≤ 0x1FFF00 ∧ 0 ≤ last ∧ last ≤ 0x1FFF00
     (ok → al → inn → (s.poolOf s.cur.core).len = 0 → exec (.pcfg n b) s =
       .next (s.setX { s.x with ports := s.x.ports.set n.val ⟨k, 0, true⟩ }).complete) ∧
     (¬ok → Claims.Traps (.pcfg n b) s 0x01 0 s.cur.word) ∧
     (ok → ¬al → ∃ a d, Claims.Traps (.pcfg n b) s 0x05 a d) ∧
     (ok → al → ¬inn → ∃ a d, Claims.Traps (.pcfg n b) s 0x06 a d))) ∧
  (∀ (s : State) (n : Fin 8), s.cur.sq = .X →
    ((s.x.ports[n.val]).conf = true →
      exec (.prst n) s = .next (s.setX { s.x with ports := s.x.ports.set n.val { s.x.ports[n.val] with pos := 0 } }).complete) ∧
    ((s.x.ports[n.val]).conf = false → Claims.Traps (.prst n) s 0x01 0 s.cur.word)) ∧
  (∀ (s : State) (n : Fin 8),
    (let p := s.x.ports[n.val]
     let o := ((p.blk.p0.toNat : Int) + p.pos * p.blk.p2.toInt).toNat
     p.conf = true → p.blk.p3.getLsbD 0 = false → (∀ st ∈ s.me.stores, st.meets (lmIa s.cur.core o) 256 = false) →
     ∃ v w, s.readV (.p n) = .ok (v, w) ∧ w.hm = s.hm ∧ w.x = { s.x with
         ports := s.x.ports.set n.val { p with pos := if p.blk.p1.toNat ≤ p.pos + 1 then 0 else p.pos + 1 } } ∧
       (s.me.peeked = [] → w = s.setX w.x) ∧
       ∀ i < 256, (v.extractLsb' (8 * i) 8 : BitVec 8) = Claims.loadedAt s o i)) ∧
  (∀ (s u w : State) (t : ElemT) (least : Bool) (k : BitVec 7) (a b : VR) (x y : VReg), s.cur.sq = .X → (t = .s32 ∨ t = .f32) →
    s.readV a = .ok (x, u) → u.readV b = .ok (y, w) → 1 ≤ k.toNat → k.toNat ≤ 64 →
    (let key (c d : BitVec 32) : Ordering :=
       let o := if t = .f32 then FV.compare (fmtF32.decode c.toNat) (fmtF32.decode d.toNat) else Ord.compare c.toInt d.toInt
       if least then o else o.swap
     let above (p q : BitVec 32 × BitVec 32) := key p.1 q.1 = .lt ∨ (key p.1 q.1 = .eq ∧ p.2.toNat ≤ q.2.toNat)
     let offered := (List.range 64).filterMap fun j =>
       if Claims.on s.x .f32 j && !(t == .f32 && (fmtF32.decode (Claims.lane .f32 x j)).isNan) then
         some (BitVec.ofNat 32 (Claims.lane .f32 x j), BitVec.ofNat 32 (Claims.lane .f32 y j)) else none
     ∃ z kept dropped, exec (.vtopk t least k true a b) s = .next z ∧ z.x.topk = ⟨true, t == .f32, least, k.toNat, kept⟩ ∧
       (kept ++ dropped).Perm offered ∧ kept.length = min k.toNat offered.length ∧ kept.Pairwise above ∧
       (∀ p ∈ kept, ∀ q ∈ dropped, above p q) ∧ z.hm = s.hm ∧ z.x.v = s.x.v ∧ (∀ r, z.me.rd r = s.me.rd r) ∧
       z.me.fpcs = s.me.fpcs)) ∧
  (∀ (s : State) (n : Fin 48) (idx : Bool), s.cur.sq = .X →
    Claims.WritesReg .n32 n (fun _ => true) (fun j => match s.x.topk.pairs[j]? with
      | some p => if idx then p.2.toNat else p.1.toNat
      | none => if idx then 0xFFFFFFFF else if s.x.topk.begun = true ∧ s.x.topk.f32 = false then 0x80000000 else 0x7FC00000) 0
      (.vtopkr (.v n) idx) s)

/-- VQNT lays out the quantised lanes and their scale, VDQ multiplies them back. VQNT of a vector with a NaN or an
infinity writes scale 0xFF00 and zeros and sets NV and SCB; of a vector of zeros it writes zeros without a flag;
otherwise the scale is the smallest sc16 of exponent 1 to 254 whose value s is at least the largest magnitude over
qmax, every element is x_i / s rounded to an integer under FPCS.RM and lies within qmax, and NX is set exactly when
some q_i × s differs from x_i. VDQ of a block with scale exponent 255 gives the canonical NaN in every lane and sets
SCB, with exponent 0 gives +0, and else rounds q × s once. Elements lie from byte 0 up, the scale in bytes 254 and
255, every other byte is 0; the mask is ignored (R128 to R130, R221). -/
def Obligations.BlockQuantisation : Prop :=
  (∀ (s w : State) (f : QFmt) (n : Fin 48) (a : VR) (x : VReg), s.cur.sq = .X → s.readV a = .ok (x, w) →
    (let q := match f with | .bq8 => 8 | .bq4 => 4 | .bq16 => 16
     let big (j : Nat) := 0x7F800000 ≤ Claims.lane .f32 x j % 2 ^ 31
     let zero (j : Nat) := Claims.lane .f32 x j % 2 ^ 31 = 0
     ∃ v, exec (.vqnt f (.v n) a) s = .next v ∧ Claims.VecStep (some (Claims.place s.x n)) s v ∧ v.hm = s.hm ∧
       (let r := vget v.x.v (Claims.place s.x n) 0
        let scale := (r.extractLsb' 2032 16).toNat
        let el (j : Nat) : Int := (r.extractLsb' (q * j) q).toInt
        (∀ i, q * 64 ≤ i → i < 2032 → r.getLsbD i = false) ∧
        ((∃ j < 64, big j) → scale = 0xFF00 ∧ (∀ j < 64, el j = 0) ∧ v.me.fpcs = s.me.fpcs ||| 0x210) ∧
        ((∀ j < 64, zero j) → scale = 0 ∧ (∀ j < 64, el j = 0) ∧ v.me.fpcs = s.me.fpcs) ∧
        (¬(∃ j < 64, big j) → ¬(∀ j < 64, zero j) → 1 ≤ scale / 256 ∧ scale / 256 ≤ 254 ∧
          (let num (j : Nat) : Rat := Claims.exact ⟨8, 23⟩ (Claims.lane .f32 x j)
           let value (c : Nat) : Rat := ((256 + c % 256 : Nat) : Rat) * 2 ^ (((c / 256 : Nat) : Int) - 135)
           let qmax : Rat := ((2 ^ (q - 1) - 1 : Nat) : Rat)
           (∀ j < 64, Claims.size (num j) ≤ value scale * qmax) ∧
           (∀ c, 256 ≤ c → c < scale → ∃ j < 64, value c * qmax < Claims.size (num j)) ∧
           (∀ j < 64, Claims.RoundsInt s.me.rm (num j / value scale) (el j) ∧ -(2 ^ (q - 1) - 1) ≤ el j ∧ el j ≤ 2 ^ (q - 1) - 1) ∧
           (v.me.fpcs = if (∀ j < 64, (el j : Rat) * value scale = num j) then s.me.fpcs else s.me.fpcs ||| 1)))))) ∧
  (∀ (s w : State) (f : QFmt) (a : VR) (x : VReg), s.cur.sq = .X → s.readV a = .ok (x, w) →
    (let q := match f with | .bq8 => 8 | .bq4 => 4 | .bq16 => 16
     let scale := (x.extractLsb' 2032 16).toNat
     let el (j : Nat) : Int := (x.extractLsb' (q * j) q).toInt
     let val (j : Nat) : FRes :=
       if scale / 256 = 255 then ⟨0x7FC00000, { scb := true }⟩
       else if scale / 256 = 0 then ⟨0, {}⟩
       else if el j = 0 then ⟨0, {}⟩
       else fmtF32.round s.me.rm (el j < 0) ((el j).natAbs * (256 + scale % 256)) ((scale / 256 : Nat) - 135) false
     Claims.WritesLanes .f32 (fun _ => true) (fun j => (val j).bits) (fun j => (val j).flags) (fun d => .vdq f d a) s w))

namespace Sys2Proof.Claims

/-- The words of accumulator memory from row `base` of a core, `n` of them, are `v`; every other word is as before. -/
def AccIs (c : CoreId) (base n : Nat) (v : Nat → BitVec 32) (s t : State) : Prop :=
  ∀ k, sget 0 t.hm.acc k =
    if c.val * 2 ^ 18 + 256 * base ≤ k ∧ k < c.val * 2 ^ 18 + 256 * base + n then v (k - (c.val * 2 ^ 18 + 256 * base))
    else sget 0 s.hm.acc k

/-- The side entries of a core's rows `base` to `base + n − 1` hold m = −∞, l = +0 and c = 1.0; the others are as before. -/
def SidesReset (c : CoreId) (base n : Nat) (s t : State) : Prop :=
  ∀ k, sget 0 t.hm.side k =
    if (c.val * 1024 + base) * 3 ≤ k ∧ k < (c.val * 1024 + base + n) * 3 then
      (if k % 3 = 0 then 0xFF800000 else if k % 3 = 1 then 0 else 0x3F800000)
    else sget 0 s.hm.side k

/-- A matrix instruction changes no register, no byte of memory and no flag. -/
def Untouched (s t : State) : Prop :=
  t.hm.mem = s.hm.mem ∧ t.hm.lm = s.hm.lm ∧ (∀ r, t.me.rd r = s.me.rd r) ∧ t.me.fpcs = s.me.fpcs ∧ t.x.v = s.x.v ∧
    t.x.masks = s.x.masks ∧ t.here.c = s.here.c

/-- The number that an sc16 of exponent 0 to 254 stands for (R128). -/
def scaleOf (w : Nat) : Rat := if w / 256 = 0 then 0 else ((256 + w % 256 : Nat) : Rat) * 2 ^ (((w / 256 : Nat) : Int) - 135)

/-- An encoding of f32 is a NaN. -/
def isNan32 (b : Nat) : Prop := 0x7F800000 < b % 2 ^ 31

/-- What an output element of a drain is, with its flags (R238): `x` is the tile's element after NRM, of an f32 tile or an s32 one, `osc`
the output scale, `bias` the bias. `out` is OUT, `relu` says ACT = 1. What R238 leaves to R122 and R123 for zeros and for a sum with an
infinite part is said for one infinite part. -/
def Drains (out : Nat) (relu f32 : Bool) (osc x : Nat) (bias : Option Nat) (n : Nat) (fl : Flags) : Prop :=
  let f : Fmt := match out with | 0 => fmtF32 | 1 => fmtF16 | _ => fmtBf16
  let nan (n : Nat) := if out < 3 then n = f.nanBits else n = 0
  let w := if out = 3 then 8 else 32
  let xv : Rat := if f32 then exact fmtF32 x else (((BitVec.ofNat 32 x).toInt : Int) : Rat)
  let bv : Rat := match bias with | some b => exact fmtF32 b | none => 0
  let badBias := ∃ b, bias = some b ∧ isNan32 b
  let fine := osc / 256 ≠ 255 ∧ ¬badBias
  let fin := (f32 = true → isFinite fmtF32 x) ∧ ∀ b, bias = some b → isFinite fmtF32 b
  (osc / 256 = 255 → nan n ∧ fl.nv = true ∧ fl.scb = true) ∧
  (badBias → nan n ∧ fl.nv = true) ∧
  (f32 = true → isNan32 x → nan n ∧ (3 ≤ out → fl.nv = true)) ∧
  (fine → fin → (let y := if relu ∧ xv * scaleOf osc + bv < 0 then 0 else xv * scaleOf osc + bv
    (out < 3 → RoundsTo f 0 y ⟨n, fl⟩ ∧ (relu → xv * scaleOf osc + bv < 0 → n = 0)) ∧
    (3 ≤ out → ∃ i, RoundsInt 0 y i ∧ (BitVec.ofNat w n).toInt = max (-(2 ^ (w - 1))) (min (2 ^ (w - 1) - 1) i) ∧
      fl = { vsat := decide (i < -(2 ^ (w - 1)) ∨ 2 ^ (w - 1) ≤ i), nx := decide ((i : Rat) ≠ y) }))) ∧
  (fine → f32 = true → x % 2 ^ 31 = 0x7F800000 → (∀ b, bias = some b → isFinite fmtF32 b) → osc / 256 ≠ 0 →
    (let neg := decide (2 ^ 31 ≤ x)
     (relu = true → neg = true → n = 0 ∧ fl = {}) ∧
     (¬(relu = true ∧ neg = true) → (out < 3 → n = (if neg then 2 ^ (f.eb + f.fb) else 0) + f.infBits ∧ fl = {}) ∧
       (3 ≤ out → (BitVec.ofNat w n).toInt = (if neg then -(2 ^ (w - 1)) else 2 ^ (w - 1) - 1) ∧ fl.vsat = true))))

/-- The biases of a drain: COLS f32 values of local memory, or none (R237). -/
def biasAt (s : State) (c : CoreId) (b : Blk) (o : Nat) : Option Nat :=
  if b.p1 = 0xFFFFFFFFFFFFFFFF#64 then none
  else some (leNat (Memory.read s.hm.lm (c.val * 2 ^ 21 + b.p1.toNat + 4 * o) 4))

/-- The order of two f32 encodings that are no NaN; zeros of both signs are equal. -/
def below (a b : Nat) : Prop :=
  (if 2 ^ 31 ≤ a then -((a % 2 ^ 31 : Nat) : Int) else (a % 2 ^ 31 : Nat)) ≤
    (if 2 ^ 31 ≤ b then -((b % 2 ^ 31 : Nat) : Int) else (b % 2 ^ 31 : Nat))

/-- One row of a softmax drain (R138, R139): scores S, the side registers before and after, the bytes. That an m which is a NaN is passed
over is log 57. -/
def SoftRow (n : Nat) (S : Nat → Nat) (m l : Nat) (m' l' c' : Nat) (q : Nat → Nat) : Prop :=
  let ninf := 0xFF800000
  let old (x : Nat) := ¬isNan32 x ∧ (x = m ∨ ∃ j < n, S j = x)
  let P (j : Nat) := if m' = ninf then 0 else (fmtF32.exp2 0 (fmtF32.sub 0 (S j) m').bits).bits
  (m' = ninf ∨ old m') ∧ ¬isNan32 m' ∧ (∀ x, old x → below x m') ∧
  c' = (if m' = ninf then 0x3F800000 else (fmtF32.exp2 0 (fmtF32.sub 0 m m').bits).bits) ∧
  l' = (List.range n).foldl (fun t j => (fmtF32.add 0 t (P j)).bits) (fmtF32.mul 0 l c').bits ∧
  ∀ j < n, (isNan32 (P j) → q j = 0) ∧
    (isFinite fmtF32 (P j) → ∃ i : Nat, RoundsInt 0 (exact fmtF32 (P j) * 128) i ∧ q j = min 127 i)

/-- A drain writes row `r` of its tile: the state after it, and the flags (R237 to R239). -/
def DrainsRow (c : CoreId) (t : Tile) (b : Blk) (r : Nat) (s u : State) (g : Word) : Prop :=
  let smx := b.p3.getLsbD 5
  let out := if smx then 0 else (b.p3.extractLsb' 0 3).toNat
  let sz := if smx then 1 else match out with | 0 => 4 | 1 => 2 | 2 => 2 | 3 => 1 | _ => 4
  let at_ := c.val * 2 ^ 21 + b.p0.toNat + r * b.p2.toNat
  let el (o : Nat) := (sget 0 s.hm.acc (c.val * 2 ^ 18 + 256 * t.base + r * t.cols + o)).toNat
  let side (i : Nat) := (sget 0 s.hm.side ((c.val * 1024 + t.base + r) * 3 + i)).toNat
  let osc := (b.p3.extractLsb' 8 16).toNat
  let put (o : Nat) := leNat (Memory.read u.hm.lm (at_ + o * sz) sz)
  u.hm.acc = s.hm.acc ∧ u.hm.mem = s.hm.mem ∧
  (∀ k, ¬(at_ ≤ k ∧ k < at_ + t.cols * sz) → Memory.get u.hm.lm k = Memory.get s.hm.lm k) ∧
  (smx = false → u.hm.side = s.hm.side ∧ ∃ (n : Nat → Nat) (fl : Nat → Flags),
    (∀ o < t.cols, put o = n o % 2 ^ (8 * sz) ∧
      (let q := fmtF32.div 0 (el o) (side 1)
       if b.p3.getLsbD 6 then ∃ h, Drains out (b.p3.extractLsb' 3 2 == 1) t.f32 osc q.bits (biasAt s c b o) (n o) h ∧
         fl o = q.flags.or h
       else Drains out (b.p3.extractLsb' 3 2 == 1) t.f32 osc (el o) (biasAt s c b o) (n o) (fl o))) ∧
    ∀ k, g.getLsbD k = true ↔ ∃ o < t.cols, (fl o).mask.getLsbD k = true) ∧
  (smx = true → ∃ (S : Nat → Nat) (fl : Nat → Flags) (m' l' c' : Nat),
    (∀ o < t.cols, Drains 0 false true osc (el o) (biasAt s c b o) (S o) (fl o)) ∧
    SoftRow t.cols S (side 0) (side 1) m' l' c' put ∧
    ∀ k, sget 0 u.hm.side k =
      if k = (c.val * 1024 + t.base + r) * 3 then BitVec.ofNat 32 m'
      else if k = (c.val * 1024 + t.base + r) * 3 + 1 then BitVec.ofNat 32 l'
      else if k = (c.val * 1024 + t.base + r) * 3 + 2 then BitVec.ofNat 32 c' else sget 0 s.hm.side k)

/-- A sum held between −2^31 and 2^31 − 1. -/
def sat32 (x : Int) : Int := max (-(2 ^ 31)) (min (2 ^ 31 - 1) x)

/-- One segment partial is added into an element (R131): exactly and held in range on an s32 tile, with one rounding on an f32 tile, where
an invalid scale gives the canonical NaN. -/
def Adds (f32 : Bool) (e : Nat) (p : Int) (sa sb : Nat) (e' : Nat) (fl : Flags) : Prop :=
  if f32 then
    (sa / 256 = 255 ∨ sb / 256 = 255 → e' = 0x7FC00000 ∧ fl.nv = true ∧ fl.scb = true) ∧
    (isNan32 e → e' = 0x7FC00000) ∧
    (sa / 256 ≠ 255 → sb / 256 ≠ 255 →
      (isFinite fmtF32 e → RoundsTo fmtF32 0 (exact fmtF32 e + p * scaleOf sa * scaleOf sb) ⟨e', fl⟩) ∧
      (e % 2 ^ 31 = 0x7F800000 → e' = e ∧ fl = {}))
  else
    (let v := (BitVec.ofNat 32 e).toInt + p
     e' < 2 ^ 32 ∧ (BitVec.ofNat 32 e').toInt = sat32 v ∧ fl = { acs := decide (sat32 v ≠ v) })

/-- One step of a nest (R131 to R133, R233, R234): the row is rescaled where `first` says that this nest has not done it, then each element
takes its four segment partials in ascending order. -/
def NestStepOf (c : CoreId) (n : Nest) (k : Nat) (s u : State) (g : Word) : Prop :=
  let st := n.step k
  let t := vget n.tiles st.f.acc Tile.unset
  let slot := vget (s.core c).bslots st.slot BSlot.zero
  let a (k : Nat) : Int := if st.f.a16 then
      (BitVec.ofNat 16 (leNat (Memory.read s.hm.lm (c.val * 2 ^ 21 + (st.a.toNat + 2 * k)) 2))).toInt
    else (Memory.get s.hm.lm (c.val * 2 ^ 21 + (st.a.toNat + k))).toInt
  let w (k o : Nat) : Int := if n.set.wide.getLsbD 21 then (slot.row o).getD k 0 else (slot.row k).getD o 0
  let sum (seg o : Nat) : Int := ((List.range 64).map fun k => a (64 * seg + k) * w (64 * seg + k) o).sum
  let sa (seg : Nat) := if st.f.nosc then 0x7F00
    else leNat (Memory.read s.hm.lm (c.val * 2 ^ 21 + (st.sc.toNat + 2 * seg)) 2)
  let sb (seg o : Nat) := (sget 0 slot.scales (256 * seg + o)).toNat
  let first := st.f.rs = true ∧ ¬∃ j < k, (n.step j).f.rs = true ∧ (n.step j).f.acc = st.f.acc ∧ (n.step j).r.toNat = st.r.toNat
  let lo := c.val * 2 ^ 18 + (256 * t.base + st.r.toNat * t.cols)
  let cr := (sget 0 s.hm.side ((c.val * 1024 + (t.base + st.r.toNat)) * 3 + 2)).toNat
  u.hm.mem = s.hm.mem ∧ u.hm.lm = s.hm.lm ∧ u.hm.side = s.hm.side ∧
  (∀ k, ¬(lo ≤ k ∧ k < lo + t.cols) → sget 0 u.hm.acc k = sget 0 s.hm.acc k) ∧
  ∃ (e : Nat → Nat → Nat) (fl : Nat → Nat → Flags),
    (∀ o < t.cols,
      (let old := (sget 0 s.hm.acc (lo + o)).toNat
       (first → e o 0 = (fmtF32.mul 0 old cr).bits ∧ fl o 4 = (fmtF32.mul 0 old cr).flags) ∧
       (¬first → e o 0 = old ∧ fl o 4 = {})) ∧
      (∀ seg < 4, Adds t.f32 (e o seg) (sum seg o) (sa seg) (sb seg o) (e o (seg + 1)) (fl o seg)) ∧
      sget 0 u.hm.acc (lo + o) = BitVec.ofNat 32 (e o 4)) ∧
    ∀ k, g.getLsbD k = true ↔ ∃ o < t.cols, ∃ i < 5, (fl o i).mask.getLsbD k = true

/-- X may issue a matrix operation: fewer than six are in flight, and its loads, atomics and local stores are done. -/
def MxRoom (s : State) : Prop :=
  s.x.mx.length < 6 ∧ s.me.loads = [] ∧ s.me.atoms = [] ∧ ∀ st ∈ s.me.stores, iaTier st.ia ≠ 5

/-- An operation is appended to those in flight, and the instruction completes. -/
def Issues (i : Instr) (s u : State) (k : MxKind) (ev : Bool) : Prop :=
  exec i s = .next (u.setX { u.x with mx := u.x.mx ++ [{ kind := k, ev := ev }] }).complete

/-- Weight j of a row of bytes (R226): trit patterns 1 and 3 are +1 and −1, the others 0. -/
def weight (f : BFmt) (bs : Nat → Byte) (j : Nat) : Int :=
  match f with
  | .trit =>
    let p := (bs (j / 4)).toNat / 2 ^ (2 * (j % 4)) % 4
    if p = 1 then 1 else if p = 3 then -1 else 0
  | .s4 =>
    let p := (bs (j / 2)).toNat / 2 ^ (4 * (j % 2)) % 16
    if 8 ≤ p then (p : Int) - 16 else p
  | .s8 => (bs j).toInt

/-- Bytes of a weight row (R226). -/
def weightRow : BFmt → Nat
  | .trit => 64
  | .s4 => 128
  | .s8 => 256

/-- A user event that a completed operation posts: queued behind the others of C, unless C has finished or 16 stand there. -/
def Posts (ev : Bool) (c : CoreId) (g24 g25 : Word) (s t : State) : Prop :=
  (ev = true → (s.seq c .C).done = false → (s.core c).c.uevq.length < 16 →
    (t.core c).c.uevq = (s.core c).c.uevq ++ [(g24, g25)]) ∧
  (ev = false → (t.core c).c = (s.core c).c)

end Sys2Proof.Claims

/-- NSET, FTSET, ACFG, AZERO, SMXR and SMXW act at once on the nest set, the format table, a tile and its side
entries. NSET writes N, ASTR, RSTR and BTOG of its level, ABASE when given, and all nest-wide fields when NW = 1.
FTSET writes an entry, raising 0x14 for bits [63:7]. ACFG sets a descriptor; without .keep it zeros the tile's words
and resets its side entries, with .keep it leaves both and needs a configured tile of its type (else 0x13). AZERO
zeros a configured tile. SMXR reads and SMXW writes one side register of a tile row, raising 0x13 or 0x14. Nothing
else changes (R138, R227 to R231, R235). -/
def Obligations.MatrixImmediate : Prop :=
  (∀ (s : State) (l : Fin 6) (b : Blk), s.cur.sq = .X →
    (let k := s.me.substBlk b
     ∃ t, exec (.nset l b) s = .next t ∧ Claims.Untouched s t ∧ t.hm = s.hm ∧ t.x.mx = s.x.mx ∧ t.x.tiles = s.x.tiles ∧
       t.x.shadow.levels = s.x.shadow.levels.set l.val ⟨k.p0, k.p2, k.p3.extractLsb' 0 16, k.p3.getLsbD 16⟩ ∧
       t.x.shadow.abase = (if k.p1 = 0xFFFFFFFFFFFFFFFF#64 then s.x.shadow.abase else k.p1) ∧
       (k.p3.getLsbD 17 = false → t.x.shadow.wide = s.x.shadow.wide) ∧
       (k.p3.getLsbD 17 = true → ∀ i < 64, t.x.shadow.wide.getLsbD i = (decide (18 ≤ i ∧ i ≤ 47) && k.p3.getLsbD i)))) ∧
  (∀ (s u : State) (i : Fin 16) (a : SReg) (v : Word), s.cur.sq = .X → s.readS a = .ok (v, u) →
    (v.toNat < 128 → exec (.ftset i a) s = .next (u.setX { u.x with ftab := u.x.ftab.set i.val v }).complete) ∧
    (128 ≤ v.toNat → Claims.Traps (.ftset i a) s 0x14 0 s.cur.word)) ∧
  (∀ (s : State) (f32 : Bool) (d : Fin 8) (base : BitVec 10) (rows : BitVec 11) (cols : BitVec 9), s.cur.sq = .X →
    (let t : Tile := ⟨base.toNat, rows.toNat, cols.toNat, f32⟩
     let old := s.x.tiles[d.val]
     (s.mxFree { accW := [t.words], sideW := [t.sides] } = true → ∃ z, exec (.acfg f32 false d base rows cols) s = .next z ∧
       Claims.Untouched s z ∧ z.x.tiles = s.x.tiles.set d.val t ∧
       Claims.AccIs s.cur.core base.toNat (rows.toNat * cols.toNat) (fun _ => 0) s z ∧
       Claims.SidesReset s.cur.core base.toNat rows.toNat s z) ∧
     (old.rows ≠ 0 ∧ old.f32 = f32 → ∃ z, exec (.acfg f32 true d base rows cols) s = .next z ∧ Claims.Untouched s z ∧
       z.x.tiles = s.x.tiles.set d.val t ∧ z.hm = s.hm) ∧
     (¬(old.rows ≠ 0 ∧ old.f32 = f32) → Claims.Traps (.acfg f32 true d base rows cols) s 0x13 0 s.cur.word))) ∧
  (∀ (s : State) (d : Fin 8), s.cur.sq = .X →
    (let t := s.x.tiles[d.val]
     (t.rows ≠ 0 → s.mxFree { accW := [t.words], sideW := [t.sides] } = true → ∃ z, exec (.azero d) s = .next z ∧
       Claims.Untouched s z ∧ z.x.tiles = s.x.tiles ∧ Claims.AccIs s.cur.core t.base (t.rows * t.cols) (fun _ => 0) s z ∧
       Claims.SidesReset s.cur.core t.base t.rows s z) ∧
     (t.rows = 0 → Claims.Traps (.azero d) s 0x13 0 s.cur.word))) ∧
  (∀ (s u w : State) (r : SideReg) (d : Fin 8) (a b : SReg) (v x : Word), s.cur.sq = .X → s.readS a = .ok (v, u) →
    u.readS b = .ok (x, w) →
    (let t := s.x.tiles[d.val]
     let k := (s.cur.core.val * 1024 + t.base + x.toNat) * 3 + (match r with | .m => 0 | .l => 1 | .c => 2)
     (t.rows ≠ 0 → x.toNat < t.rows → s.mxFree { sideW := [⟨t.base + x.toNat, 1⟩] } = true →
       ∃ z, exec (.smxw r d a b) s = .next z ∧ z.hm.lm = s.hm.lm ∧ z.hm.acc = s.hm.acc ∧ (∀ q, z.me.rd q = s.me.rd q) ∧
         ∀ j, sget 0 z.hm.side j = if j = k then v.setWidth 32 else sget 0 s.hm.side j) ∧
     (t.rows ≠ 0 → t.rows ≤ x.toNat → Claims.Traps (.smxw r d a b) s 0x14 0 s.cur.word) ∧
     (t.rows = 0 → Claims.Traps (.smxw r d a b) s 0x13 0 s.cur.word))) ∧
  (∀ (s w : State) (r : SideReg) (d : SReg) (a : Fin 8) (b : SReg) (x : Word), s.cur.sq = .X → s.readS b = .ok (x, w) →
    Claims.Takes w d →
    (let t := s.x.tiles[a.val]
     let k := (s.cur.core.val * 1024 + t.base + x.toNat) * 3 + (match r with | .m => 0 | .l => 1 | .c => 2)
     (t.rows ≠ 0 → x.toNat < t.rows → s.mxFree { sideR := [⟨t.base + x.toNat, 1⟩] } = true →
       ∃ z, w.writeS d ((sget 0 s.hm.side k).setWidth 64) = .ok z ∧ exec (.smxr r d a b) s = .next z.complete) ∧
     (t.rows ≠ 0 → t.rows ≤ x.toNat → Claims.Traps (.smxr r d a b) s 0x14 0 s.cur.word) ∧
     (t.rows = 0 → Claims.Traps (.smxr r d a b) s 0x13 0 s.cur.word)))

/-- BLD, NGO, ALD and ADRN check their operands and stand among X's matrix operations, changing nothing else. With
fewer than six operations in flight and X's loads, atomics and local stores done: BLD of aligned rows and scales in
local memory, ALD of a configured tile from an aligned range there, ADRN of a configured tile to an aligned range
there and NGO of a nest that passes its checks, with no nest pending, append their operation and complete. A
misaligned block raises 0x05, a range past 2 MiB 0x06, an unconfigured tile 0x13, SMX or NRM on an s32 tile and a
count above 32 bits 0x14, before anything changes (R226, R229, R232, R237). -/
def Obligations.MatrixIssue : Prop :=
  ∀ (s : State) (ev : Bool), s.cur.sq = .X → Claims.MxRoom s → (s.poolOf s.cur.core).len = 0 →
    (∀ (f : BFmt) (slot : Fin 2) (b : Blk),
      (let k := s.me.substBlk b
       let kr := (k.p3.extractLsb' 0 9).toNat
       let scl := k.p1 ≠ 0xFFFFFFFFFFFFFFFF#64
       let al := k.p0.toNat % 8 = 0 ∧ k.p2.toNat % 8 = 0 ∧ (scl → k.p1.toNat % 8 = 0)
       let inn := (∀ i < kr, k.p0.toNat + i * k.p2.toNat + Claims.weightRow f ≤ 0x200000) ∧ (scl → k.p1.toNat + 2048 ≤ 0x200000)
       1 ≤ kr → (al → inn → Claims.Issues (.bld f ev slot b) s s (.bld f slot k) ev) ∧
         (¬al → ∃ a d, Claims.Traps (.bld f ev slot b) s 0x05 a d) ∧
         (al → ¬inn → ∃ a d, Claims.Traps (.bld f ev slot b) s 0x06 a d))) ∧
    (∀ (d : Fin 8) (a : SReg) (k : Off) (x : Word) (u : State), s.readS a = .ok (x, u) →
      (let t := s.x.tiles[d.val]
       let o := Claims.addr x k
       (t.rows = 0 → Claims.Traps (.ald ev d a k) s 0x13 0 s.cur.word) ∧
       (t.rows ≠ 0 → o % 8 = 0 → o + 4 * (t.rows * t.cols) ≤ 0x200000 →
         Claims.Issues (.ald ev d a k) s u (.ald t (BitVec.ofNat 64 o)) ev) ∧
       (t.rows ≠ 0 → o % 8 ≠ 0 → ∃ a' d', Claims.Traps (.ald ev d a k) s 0x05 a' d') ∧
       (t.rows ≠ 0 → o % 8 = 0 → 0x200000 < o + 4 * (t.rows * t.cols) → ∃ a' d', Claims.Traps (.ald ev d a k) s 0x06 a' d'))) ∧
    (∀ (a : Fin 8) (b : Blk),
      (let k := s.me.substBlk b
       let t := s.x.tiles[a.val]
       let smx := k.p3.getLsbD 5
       let sz := if smx then 1 else match (k.p3.extractLsb' 0 3).toNat with
         | 0 => 4
         | 1 => 2
         | 2 => 2
         | 3 => 1
         | _ => 4
       let str := if k.p2 = 0xFFFFFFFFFFFFFFFF#64 then t.cols * sz else k.p2.toNat
       let bias := k.p1 ≠ 0xFFFFFFFFFFFFFFFF#64
       let fit := (smx = true ∨ k.p3.getLsbD 6 = true) → t.f32 = true
       let al := k.p0.toNat % sz = 0 ∧ str % sz = 0 ∧ (bias → k.p1.toNat % 4 = 0)
       let inn := (∀ r < t.rows, k.p0.toNat + r * str + t.cols * sz ≤ 0x200000) ∧ (bias → k.p1.toNat + 4 * t.cols ≤ 0x200000)
       (t.rows = 0 → Claims.Traps (.adrn ev a b) s 0x13 0 s.cur.word) ∧
       (t.rows ≠ 0 → ¬fit → Claims.Traps (.adrn ev a b) s 0x14 0 s.cur.word) ∧
       (t.rows ≠ 0 → fit → ¬al → ∃ a' d', Claims.Traps (.adrn ev a b) s 0x05 a' d') ∧
       (t.rows ≠ 0 → fit → al → ¬inn → ∃ a' d', Claims.Traps (.adrn ev a b) s 0x06 a' d') ∧
       (t.rows ≠ 0 → fit → al → inn → Claims.Issues (.adrn ev a b) s s (.adrn t { k with p2 := BitVec.ofNat 64 str }) ev))) ∧
    (let n : Nest := ⟨s.x.shadow, s.x.tiles, s.x.ftab⟩
     ((∃ l ∈ n.set.levels.toList, 2 ^ 32 ≤ l.n.toNat) → Claims.Traps (.ngo ev) s 0x14 0 s.cur.word) ∧
     (∀ tr, s.checkNest n = .error (.trap tr) → exec (.ngo ev) s = .next (s.raise s.cur.core s.cur.sq s.me.pc tr)) ∧
     (s.checkNest n = .ok () → (∀ e ∈ s.x.mx, ∀ m, e.kind ≠ .nest m false) → Claims.Issues (.ngo ev) s s (.nest n false) ev))

/-- Every step of a nest that NGO accepts reads A vectors and scales of local memory off the pool and writes a row of
its tile. When the checks of NGO pass, every step of the nest (R233) addresses an A vector at a multiple of 8 that
lies wholly in local memory and off the elastic pool, and a row of a configured tile; a step that reads A scales reads
8 aligned bytes there, and a step that rescales has an f32 tile. The corners of the counter ranges therefore decide
for all steps (R232, R233, R242). -/
def Obligations.NestsStayInside : Prop :=
  ∀ (s : State) (n : Nest), s.checkNest n = .ok () → ∀ k < n.set.steps,
    (let st := n.step k
     let t := vget n.tiles st.f.acc Tile.unset
     let pool := s.poolOf s.cur.core
     let len := if st.f.a16 then 512 else 256
     0 ≤ st.a ∧ st.a + (len : Nat) ≤ 0x200000 ∧ st.a % 8 = 0 ∧ overlap st.a.toNat len pool.lo pool.len = false ∧
     0 ≤ st.r ∧ st.r < t.rows ∧ t.rows ≠ 0 ∧ (st.f.rs = true → t.f32 = true) ∧
     (st.f.nosc = false → 0 ≤ st.sc ∧ st.sc + 8 ≤ 0x200000 ∧ st.sc % 8 = 0 ∧ overlap st.sc.toNat 8 pool.lo pool.len = false))

/-- A matrix operation that is ready completes: a pending nest becomes live, a slot holds its weights, a tile its
words. NEST_BECOMES_LIVE makes the pending nest live unless one is. Of operations of which no part is performed yet: a
ready BLD leaves its slot with the weights of its rows (zero beyond KR) when its planes are recombined, and its
scales; a ready ALD leaves the tile's words with the bytes read; a ready ADRN writes its rows in ascending order, no
other byte: without SMX each element is x / l with NRM, then x × OSC + bias, ReLU with ACT = 1, rounded once to OUT, a
NaN or an invalid OSC giving NaN or 0, a clamp setting VSAT; with SMX the scores run R138 on the row's side entry and
q is written. An s32 tile drained to s32 with every default is copied exactly. Each leaves the operations in flight,
adds its flags to X's FPCS and posts its user event with .ev. Registers and the other words of accumulator memory stay
(R55, R126, R127, R138, R139, R226, R229, R232, R237 to R239; NX of integer outputs is log 58, a NaN m is log 57). -/
def Obligations.MatrixCompletes : Prop :=
  (∀ (s : State) (c : CoreId),
    ((∃ e ∈ (s.core c).x.mx, ∃ m, e.kind = .nest m true) → exec (.nestBecomesLive c) s = .next s) ∧
    (∀ a b o m, (∀ e ∈ (s.core c).x.mx, ∀ m, e.kind ≠ .nest m true) → (s.core c).x.mx = a ++ o :: b → o.kind = .nest m false →
      (∀ x ∈ a ++ b, ∀ m, x.kind ≠ .nest m false) →
      ∃ t, exec (.nestBecomesLive c) s = .next t ∧ (t.core c).x.mx = a ++ { o with kind := .nest m true } :: b ∧ t.hm = s.hm ∧
        (t.core c).seqs = (s.core c).seqs)) ∧
  (∀ (s : State) (c : CoreId) (n : Nat) (f : BFmt) (slot : Fin 2) (b : Blk) (ev : Bool),
    (s.core c).x.mx[n]? = some { kind := .bld f slot b, ev := ev } → (s.core c).mxReady n = true → (b.p3.extractLsb' 0 9).toNat ≤ 256 →
    ∃ t, exec (.bldComplete c n) s = .next t ∧ t.hm = s.hm ∧ (t.core c).x.mx = (s.core c).x.mx.eraseIdx n ∧
      (∀ r, (t.seq c .X).rd r = (s.seq c .X).rd r) ∧
      ((t.core c).bslots[slot.val]).fmt = f ∧ Claims.Posts ev c (0x2A0 : Word) b.p0 s t ∧
      (∀ k < 256, ∀ j < 256, (((t.core c).bslots[slot.val]).row k).getD j 0 =
        if k < (b.p3.extractLsb' 0 9).toNat then
          Claims.weight f (fun i => Memory.get s.hm.lm (c.val * 2 ^ 21 + (b.p0.toNat + k * b.p2.toNat) + i)) j else 0) ∧
      (∀ i < 1024, (sget 0 ((t.core c).bslots[slot.val]).scales i).toNat =
        if b.p1 = 0xFFFFFFFFFFFFFFFF#64 then 0x7F00
        else (Memory.get s.hm.lm (c.val * 2 ^ 21 + b.p1.toNat + 2 * i)).toNat +
          256 * (Memory.get s.hm.lm (c.val * 2 ^ 21 + b.p1.toNat + 2 * i + 1)).toNat)) ∧
  (∀ (s : State) (c : CoreId) (n : Nat) (t : Tile) (a : Word) (ev : Bool),
    (s.core c).x.mx[n]? = some { kind := .ald t a, ev := ev } → (s.core c).mxReady n = true →
    ∃ z, exec (.aldComplete c n) s = .next z ∧ z.hm.mem = s.hm.mem ∧ z.hm.lm = s.hm.lm ∧ z.hm.side = s.hm.side ∧
      (z.core c).x.mx = (s.core c).x.mx.eraseIdx n ∧ (∀ r, (z.seq c .X).rd r = (s.seq c .X).rd r) ∧
      Claims.Posts ev c (0x2A9 : Word) a s z ∧
      Claims.AccIs c t.base (t.rows * t.cols)
        (fun i => BitVec.ofNat 32 (leNat (Memory.read s.hm.lm (c.val * 2 ^ 21 + a.toNat + 4 * i) 4))) s z) ∧
  (∀ (s : State) (c : CoreId) (n : Nat) (t : Tile) (b : Blk) (ev : Bool),
    (s.core c).x.mx[n]? = some { kind := .adrn t b, ev := ev } → (s.core c).mxReady n = true → b.p2 ≠ 0xFFFFFFFFFFFFFFFF#64 →
    ∃ (z : State) (σ : Nat → State) (g : Nat → Word), exec (.adrnComplete c n) s = .next z ∧ σ 0 = s ∧
      (∀ r < t.rows, Claims.DrainsRow c t b r (σ r) (σ (r + 1)) (g r)) ∧ z.hm = (σ t.rows).hm ∧
      (∀ k, (z.seq c .X).fpcs.getLsbD k = true ↔ (s.seq c .X).fpcs.getLsbD k = true ∨ ∃ r < t.rows, (g r).getLsbD k = true) ∧
      Claims.Posts ev c (0x2A5 : Word) b.p0 s z ∧
      (z.core c).x.mx = (s.core c).x.mx.eraseIdx n ∧ (∀ r, (z.seq c .X).rd r = (s.seq c .X).rd r) ∧
      (t.f32 = false → b.p1 = 0xFFFFFFFFFFFFFFFF#64 → b.p3 = 0x7F0004#64 → b.p2.toNat = 4 * t.cols → ∀ i < t.rows * t.cols,
        leNat (Memory.read z.hm.lm (c.val * 2 ^ 21 + b.p0.toNat + 4 * i) 4) =
          (sget 0 s.hm.acc (c.val * 2 ^ 18 + 256 * t.base + i)).toNat))

/-- A live nest performs its steps in nest order, each adding four segment sums to its tile row, and leaves the
operations in flight. A ready live nest of which no step is performed yet completes: it performs its steps in order,
leaves the operations in flight, adds the flags to X's FPCS, posts its user event with .ev, and changes no local byte,
no side entry and no register. Step k rescales its row by c when RS is set and this nest has not rescaled it, then
adds to each element, for each segment in ascending order, the exact sum of the 64 products of A elements and weights
(w[k][o], or w[o][k] under TR): on an s32 tile exactly, held between −2^31 and 2^31 − 1 with ACS; on an f32 tile times
both scales with one rounding, an invalid scale giving NaN, NV and SCB. The counters of step i0 + N0 × (i1 + N1 × …)
are i0 to i5; they give its A address, row, slot, fields and scale address as R233 says (R131 to R133, R139, R230,
R233 to R236). -/
def Obligations.NestsAccumulate : Prop :=
  (∀ (n : Nest) (i : Fin 6 → Nat),
    (let T (l : Fin 6) := max 1 ((n.set.levels[l]).n.toNat % 2 ^ 32)
     let k := i 0 + T 0 * (i 1 + T 1 * (i 2 + T 2 * (i 3 + T 3 * (i 4 + T 4 * i 5))))
     let total (f : Fin 6 → Int) := f 0 + f 1 + f 2 + f 3 + f 4 + f 5
     let st := n.step k
     let word := if n.set.wide.getLsbD 24 then vget n.ftab (i 5 % 16) 0 else n.set.wide
     let field (ft wide len : Nat) := (word.extractLsb' (if n.set.wide.getLsbD 24 then ft else wide) len).toNat
     n.set.steps = T 0 * T 1 * T 2 * T 3 * T 4 * T 5 ∧
     ((∀ l, i l < T l) → k < n.set.steps ∧
       st.a = n.set.abase.toInt + total (fun l => i l * (n.set.levels[l]).astr.toInt) ∧
       st.r = total (fun l => i l * (n.set.levels[l]).rstr.toInt) ∧
       (st.slot : Int) = (((field 3 25 1 : Nat) : Int) + total (fun l => if (n.set.levels[l]).btog then i l else 0)) % 2 ∧
       st.f.acc = field 0 18 3 ∧ (st.f.a16 = true ↔ field 4 22 1 = 1) ∧ (st.f.rs = true ↔ field 5 23 1 = 1) ∧
       (st.f.nosc = true ↔ field 6 26 1 = 1) ∧
       st.sc = ((n.set.wide.extractLsb' 27 21).toNat : Int) + (st.a - n.set.abase.toInt).fdiv (if st.f.a16 then 64 else 32)))) ∧
  (∀ (s : State) (c : CoreId) (i : Nat) (op : MxOp) (n : Nest), (s.core c).liveNest = some (i, op, n) → (s.core c).mxReady i = true →
    op.done = 0 → op.again = [] → op.peeked = [] → op.pend = [] → op.flags = 0 →
    (∀ k < n.set.steps, (vget n.tiles (n.step k).f.acc Tile.unset).cols ≤ 256) →
    ∃ (z : State) (σ : Nat → State) (g : Nat → Word), exec (.nestComplete c) s = .next z ∧ σ 0 = s ∧
      (∀ k < n.set.steps, Claims.NestStepOf c n k (σ k) (σ (k + 1)) (g k)) ∧ z.hm = (σ n.set.steps).hm ∧
      z.hm.mem = s.hm.mem ∧ z.hm.lm = s.hm.lm ∧ z.hm.side = s.hm.side ∧
      (z.core c).x.mx = (s.core c).x.mx.eraseIdx i ∧ (∀ r, (z.seq c .X).rd r = (s.seq c .X).rd r) ∧
      (∀ j, (z.seq c .X).fpcs.getLsbD j = true ↔
        (s.seq c .X).fpcs.getLsbD j = true ∨ ∃ k < n.set.steps, (g k).getLsbD j = true) ∧
      Claims.Posts op.ev c (0x2A2 : Word) n.set.abase s z)

namespace Sys2Proof.Claims

/-- A range of an engine command is aligned, and an empty one is no more; a local range lies in local memory, outside the card's
pool; a global one translates with its permission to a tier with a home, or, for a target, to tier 7 or a stepped page. -/
def Usable (s : State) (u : EUse) : Prop :=
  u.addr % u.align = 0 ∧ (u.n = 0 ∨
    if u.lm then u.addr + u.n ≤ 2 ^ 21 ∧ overlap u.addr u.n (s.poolOf s.cur.core).lo (s.poolOf s.cur.core).len = false
    else ∃ t, translate s.here.partNo s.me.rng u.addr u.n (if u.wr then .wr else .rd) = .ok t ∧
      if u.peer then iaTier t.ia = 7 ∨ (iaTier t.ia ≤ 4 ∧ s.isStepped t.ia = true) else iaTier t.ia ≤ 4)

/-- A range that some byte of misses: past local memory, or matched by no range register as a whole. -/
def Missing (s : State) (u : EUse) : Prop :=
  u.n ≠ 0 ∧ if u.lm then 2 ^ 21 < u.addr + u.n
    else translate s.here.partNo s.me.rng u.addr u.n (if u.wr then .wr else .rd) = .error 0x06

/-- The lowest byte of a range that misses. -/
def missAt (u : EUse) : Nat := if u.lm then max u.addr (2 ^ 21) else u.addr

/-- A command may be issued now: its class holds fewer than 14, and its sequencer's loads and atomics have been performed. -/
def CmdRoom (s : State) (op : Nat) : Prop :=
  s.opcode = op ∧ (if op ∈ [0xC0, 0xC1, 0xC2, 0xB7, 0xB8] then s.me.rmCount else s.me.cpCount) < 14 ∧
    (∀ l ∈ s.me.loads, l.vals ≠ none) ∧ s.me.atoms = []

/-- An instruction completes and enters a command of the parameter block `p`, with no unit done, which waits for the stores its
sequencer sees; no register, flag, queue, byte of memory or other sequencer changes. -/
def Enters (s : State) (i : Instr) (ev : Bool) (p : Blk) (and' : Cmd → Prop) : Prop :=
  ∃ t x, exec i s = .next t ∧ t.me.cmds = s.me.cmds ++ [x] ∧ x.op.toNat = s.opcode ∧ x.ev = ev ∧ x.blk = p ∧ x.rng = s.me.rng ∧
    x.done = 0 ∧ x.stat = 0 ∧ x.state = .running ∧ x.waits = s.covered s.cur.core s.cur.sq .dev ∧ and' x ∧
    t.hm.mem = s.hm.mem ∧ t.hm.lm = s.hm.lm ∧ (∀ r, t.me.rd r = s.me.rd r) ∧ t.me.fpcs = s.me.fpcs ∧
    t.here.queues = s.here.queues ∧ (∀ c q, ¬(c = s.cur.core ∧ q = s.cur.sq) → t.seq c q = s.seq c q)

/-- What is alike in the issue of every command: its limits, ranges and sequencers. -/
structure CmdRules (op : Nat) (who : List SeqId) (mk : Bool → Blk → Instr) (limits : State → Blk → Prop)
    (ranges : State → Blk → List EUse) : Prop where
  others : ∀ s ev b, s.cur.sq ∉ who → Traps (mk ev b) s 0x03 0 s.cur.word
  limit  : ∀ s ev b, s.cur.sq ∈ who → ¬limits s (s.me.substBlk b) → Traps (mk ev b) s 0x01 0 s.cur.word
  align  : ∀ s ev b, s.cur.sq ∈ who → limits s (s.me.substBlk b) →
    ∀ u ∈ ranges s (s.me.substBlk b), u.addr % u.align ≠ 0 →
      (∀ v ∈ ranges s (s.me.substBlk b), v.addr % v.align ≠ 0 → u.addr ≤ v.addr) →
      ∃ det, Traps (mk ev b) s 0x05 (BitVec.ofNat 64 u.addr) det
  miss   : ∀ s ev b, s.cur.sq ∈ who → limits s (s.me.substBlk b) →
    (∀ v ∈ ranges s (s.me.substBlk b), v.addr % v.align = 0) →
    ∀ u ∈ ranges s (s.me.substBlk b), Missing s u →
      (∀ v ∈ ranges s (s.me.substBlk b), Missing s v → missAt u ≤ missAt v) →
      ∃ det, Traps (mk ev b) s 0x06 (BitVec.ofNat 64 (missAt u)) det

/-- The command of the local engines: it enters when its limits hold, its ranges are usable and there is room. -/
structure Engine (op : Nat) (who : List SeqId) (mk : Bool → Blk → Instr) (limits : State → Blk → Prop)
    (ranges : State → Blk → List EUse) (and' : State → Blk → Cmd → Prop) : Prop extends CmdRules op who mk limits ranges where
  enters : ∀ s ev b, s.cur.sq ∈ who → limits s (s.me.substBlk b) → (∀ u ∈ ranges s (s.me.substBlk b), Usable s u) →
    CmdRoom s op → Enters s (mk ev b) ev (s.me.substBlk b) (and' s (s.me.substBlk b))
  full   : ∀ s ev b, s.cur.sq ∈ who → limits s (s.me.substBlk b) → (∀ u ∈ ranges s (s.me.substBlk b), Usable s u) →
    s.opcode = op → s.me.cpCount = 14 → exec (mk ev b) s = .next (stalled s)

/-- The step that the accesses of the issuing core belong to: that of its C, and once C has notified, or stands at FLAGW, the group's
present one, or the next one when this package has said that it is ready for the present one's boundary (R101, R103, R110, R315). -/
def stepIn (s : State) (g : Fin 16) : Nat :=
  let gr := s.fab.groups[g.val]
  if (s.here.seq .C).done = true ∨ s.here.c.flgW = true then max s.here.c.stepNo (if gr.told then gr.step + 1 else gr.step)
  else s.here.c.stepNo

/-- The command of a target: the same for a participant of a group, whose step it takes; off a group it is cause 0x18, with the
address of the target in TFADDR. -/
structure Remote (op : Nat) (who : List SeqId) (mk : Bool → Blk → Instr) (limits : State → Blk → Prop)
    (ranges : State → Blk → List EUse) (va : Blk → Word) (more : State → Blk → Prop) : Prop extends CmdRules op who mk limits ranges where
  enters : ∀ s ev b g, s.cur.sq ∈ who → limits s (s.me.substBlk b) → (∀ u ∈ ranges s (s.me.substBlk b), Usable s u) →
    more s (s.me.substBlk b) → s.agentGroup s.cur.core = some g → CmdRoom s op →
    Enters s (mk ev b) ev (s.me.substBlk b) (fun x => x.stepOf = some (g, stepIn s g))
  alone  : ∀ s ev b, s.cur.sq ∈ who → limits s (s.me.substBlk b) → (∀ u ∈ ranges s (s.me.substBlk b), Usable s u) →
    more s (s.me.substBlk b) → s.agentGroup s.cur.core = none → Traps (mk ev b) s 0x18 (va (s.me.substBlk b)) s.cur.word

/-- The table of an id in the issuing core's partition, and the bytes of a row rounded up to 8 (0 with no table). -/
def tableOf (s : State) (id : Nat) : Option Table := dget (s.part s.here.partNo).tables id
def rowOf (t : Option Table) : Nat := (t.map fun t => align8 t.rowBytes).getD 0

end Sys2Proof.Claims

/-- An engine command is checked at issue and enters its class; it writes nothing then. On a sequencer it is granted
to, with its words inside their limits and every range known at issue aligned, present and permitted, a command of
CPY, CPYX, GATH, WALK, POOL, DECMP, SUPD or BUCK completes and enters CP with its substituted block, a room of 14
permitting; no register, flag or byte of memory changes. With CP full it waits. Another sequencer raises cause 0x03, a
word outside its limits 0x01, else a misaligned range 0x05 and a range that misses 0x06, each with the lowest address
that fails (R243 to R257, R260, R261, R333, R338). -/
def Obligations.EnginesIssue : Prop :=
  Claims.Engine 0xB0 [.L, .S] .cpy (fun _ p => p.p2.toNat ≤ 2 ^ 40)
    (fun _ p => [⟨Blk.lm p 0, p.p0.toNat, p.p2.toNat, 1, true, false⟩, ⟨Blk.lm p 1, p.p1.toNat, p.p2.toNat, 1, false, false⟩])
    (fun _ _ _ => True) ∧
  Claims.Engine 0xB2 [.L] .gath (fun _ p => p.p1.toNat ≤ 4095 ∧ p.p3.toNat ≤ 65536)
    (fun s p => [⟨true, p.p0.toNat, p.p3.toNat * Claims.rowOf (Claims.tableOf s p.p1.toNat), 8, true, false⟩,
      ⟨true, p.p2.toNat, 8 * p.p3.toNat, 8, false, false⟩])
    (fun s p x => x.table.map Prod.snd = Claims.tableOf s p.p1.toNat) ∧
  Claims.Engine 0xB9 [.L] .walk (fun _ _ => True)
    (fun _ p => let n := (p.p3.extractLsb' 0 7).toNat
      [⟨true, p.p0.toNat, n * 2 ^ ((p.p3.extractLsb' 8 4).toNat + 8), 8, true, false⟩, ⟨false, p.p1.toNat, 0, 8, false, false⟩,
        ⟨true, p.p2.toNat, 4 * n, 4, false, false⟩]) (fun _ _ _ => True) ∧
  Claims.Engine 0xB5 [.S] .supd (fun _ p => p.p1.toNat ≤ 65536)
    (fun s p => let t := Claims.tableOf s (p.p3.extractLsb' 0 12).toNat
      [⟨Blk.lm p 0, p.p0.toNat, p.p1.toNat * (t.map fun t => align8 (16 + 4 * t.elems)).getD 0, 8, false, false⟩])
    (fun s p x => x.table.map Prod.snd = Claims.tableOf s (p.p3.extractLsb' 0 12).toNat) ∧
  Claims.Engine 0xB6 [.S] .buck (fun _ p => p.p2.toNat ≤ 65536)
    (fun s p => let t := Claims.tableOf s (p.p3.extractLsb' 0 12).toNat
      let rsz := (p.p3.extractLsb' 12 16).toNat
      [⟨true, p.p0.toNat, (t.map fun t => align8 (4 * t.shcnt) + p.p2.toNat * rsz).getD 0, 8, true, false⟩,
        ⟨true, p.p1.toNat, p.p2.toNat * rsz, 8, false, false⟩])
    (fun s p x => x.table.map Prod.snd = Claims.tableOf s (p.p3.extractLsb' 0 12).toNat) ∧
  (∀ (s : State) (ev : Bool) (b : Blk) (k : Card), s.cardOn s.cur.core = some k →
    (let p := s.me.substBlk b
     let slots := (p.p3.extractLsb' 0 4).toNat
     let tf := (p.p3.extractLsb' 24 3).toNat
     let te := (p.p3.extractLsb' 28 3).toNat
     let bind (t : Nat) := CardImg.tbind k.img t
     let me := s.cur.sq.idx.val
     let bound := tf ≠ te ∧ (bind tf).1 ≠ (bind tf).2 ∧ (bind te).1 ≠ (bind te).2 ∧ (bind tf).1 = me ∧ (bind te).2 = me
     s.cur.sq = .L → 1 ≤ p.p2.toNat → p.p2.toNat < 2 ^ 32 →
     ((slots = 0 ∨ bound) → Claims.Usable s ⟨true, p.p0.toNat, max slots 1 * (8 * (p.p3.extractLsb' 8 16).toNat), 8, true, false⟩ →
       Claims.Usable s ⟨false, p.p1.toNat, 16, 8, false, false⟩ → Claims.CmdRoom s 0xB4 →
       Claims.Enters s (.decmp ev b) ev p (fun _ => True)) ∧
     (slots ≠ 0 → ¬bound → Claims.Traps (.decmp ev b) s 0x03 0 s.cur.word))) ∧
  (∀ (s : State) (ev : Bool) (b : Blk) (h : Shape),
    (let p := s.me.substBlk b
     (s.cur.sq = .L ∨ s.cur.sq = .S) → (if p.p3.getLsbD 3 then s.shapeRecord p.p2.toNat = .ok h else h = inlineShape p) →
     (∀ u ∈ [h.use dstStride (Blk.lm p 0) p.p0 true, h.use srcStride (Blk.lm p 1) p.p1 false], Claims.Usable s u) →
     Claims.CmdRoom s 0xB1 → Claims.Enters s (.cpyx ev b) ev p (fun x => x.shape = h))) ∧
  (∀ (s : State) (ev : Bool) (b : Blk) (ws : List Word),
    (let p := s.me.substBlk b
     let bytes (t : Table) := if t.fmt = 3 then 0 else align8 (t.elems * poolSize (poolOut p))
     s.cur.sq = .L → p.p1.toNat ≤ 4095 → p.p0.toNat % 8 = 0 → p.p2.toNat % 8 = 0 → s.bagList p.p2.toNat = .ok ws →
     Claims.Usable s ⟨true, p.p0.toNat, (bagsOf ws).length * ((Claims.tableOf s p.p1.toNat).map bytes).getD 0, 8, true, false⟩ →
     (∀ g ∈ bagsOf ws, Claims.Usable s ⟨true, g.idx, 8 * g.cnt, 8, false, false⟩ ∧
       ∀ o, g.wgt = some o → Claims.Usable s ⟨true, o, 2 * g.cnt, 2, false, false⟩) →
     Claims.CmdRoom s 0xB3 → Claims.Enters s (.pool ev b) ev p
       (fun x => x.record = ws ∧ x.table.map Prod.snd = Claims.tableOf s p.p1.toNat)))

/-- RST, RLD, RRED, XALL and COLL enter RM with the step their core stands in; STEPQ reads a group's step. For a
participant of a step group, with words, ranges and targets that pass, RST, RLD, RRED and the synchronous XALL and
COLL complete and enter RM with the group and the step of their core at issue, their records read then (log 31), a
COLL with the next number of its group (log 34); off a group they raise cause 0x18, for COLL and XALL with TFADDR 0
(log 25). A peer with a route, but without the operation, makes RRED and an asynchronous COLL raise 0x0D; an
asynchronous XALL or COLL needs no group. A multicast RST needs a valid entry that is rooted here (else 0x0D) and an
acknowledgement record on a plain page (else 0x07). STEPQ writes the step number of a joined group, all ones for
another, and raises 0x0E for a failed one (R173, R262 to R268, R370, R375, R381). -/
def Obligations.RemotesIssue : Prop :=
  Claims.Remote 0xC0 [.S] .rst (fun _ p => p.p2.toNat % 8 = 0 ∧ 8 ≤ p.p2.toNat ∧ p.p2.toNat ≤ 0x200000)
    (fun _ p => if (p.p0.extractLsb' 62 2).toNat = 2 then
        [⟨true, p.p1.toNat, p.p2.toNat, 8, false, false⟩, ⟨false, p.p3.toNat, 32, 32, true, false⟩]
      else [⟨true, p.p1.toNat, p.p2.toNat, 8, false, false⟩, ⟨false, p.p0.toNat, p.p2.toNat, 1, true, true⟩] ++
        (if p.p3 = 0 then [] else [⟨false, p.p3.toNat, 8, 8, true, true⟩]))
    (fun p => if (p.p0.extractLsb' 62 2).toNat = 2 then 0 else p.p0)
    (fun s p => (p.p0.extractLsb' 62 2).toNat = 2 →
      (∀ t, translate s.here.partNo s.me.rng p.p3.toNat 32 .wr = .ok t → s.isStepped t.ia = false) ∧
      ∃ e, dget s.fab.mcast (p.p0.extractLsb' 54 8).toNat = some e ∧ e.hdr.getLsbD 63 = true ∧ e.hdr.getLsbD 48 = true) ∧
  Claims.Remote 0xC1 [.L] .rld (fun _ p => p.p2.toNat % 8 = 0 ∧ 8 ≤ p.p2.toNat ∧ p.p2.toNat ≤ 0x200000)
    (fun _ p => [⟨true, p.p0.toNat, p.p2.toNat, 8, true, false⟩, ⟨false, p.p1.toNat, p.p2.toNat, 8, false, true⟩])
    (fun p => p.p1) (fun _ _ => True) ∧
  Claims.Remote 0xC2 [.S] .rred
    (fun _ p => p.p2.toNat % (if (p.p3.extractLsb' 4 2).toNat = 3 then 8 else 4) = 0 ∧ p.p2.toNat ≤ 0x200000)
    (fun _ p => [⟨true, p.p1.toNat, p.p2.toNat, 8, false, false⟩,
      ⟨false, p.p0.toNat, max p.p2.toNat 1, if (p.p3.extractLsb' 4 2).toNat = 3 then 8 else 4, true, true⟩])
    (fun p => p.p0)
    (fun s p => ∀ t, translate s.here.partNo s.me.rng p.p0.toNat (max p.p2.toNat 1) .wr = .ok t → iaTier t.ia = 7 →
      BitVec.ofNat 16 (nbits t.ia 43 34) = s.fab.pkg ∨ (sget 0 s.fab.routes (nbits t.ia 43 34)).getLsbD 63 = false ∨
        (sget 0 s.fab.caps (nbits t.ia 43 34)).getLsbD (p.p3.extractLsb' 0 4).toNat = true) ∧
  (∀ (s : State) (ev : Bool) (b : Blk),
    (let p := s.me.substBlk b
     let us : List EUse := [⟨true, p.p1.toNat, p.p2.toNat, 8, false, false⟩,
       ⟨false, p.p0.toNat, max p.p2.toNat 1, if (p.p3.extractLsb' 4 2).toNat = 3 then 8 else 4, true, true⟩]
     s.cur.sq = .S → p.p2.toNat % (if (p.p3.extractLsb' 4 2).toNat = 3 then 8 else 4) = 0 → p.p2.toNat ≤ 0x200000 →
     (∀ u ∈ us, Claims.Usable s u) →
     ∀ t, translate s.here.partNo s.me.rng p.p0.toNat (max p.p2.toNat 1) .wr = .ok t → iaTier t.ia = 7 →
      BitVec.ofNat 16 (nbits t.ia 43 34) ≠ s.fab.pkg → (sget 0 s.fab.routes (nbits t.ia 43 34)).getLsbD 63 = true →
      (sget 0 s.fab.caps (nbits t.ia 43 34)).getLsbD (p.p3.extractLsb' 0 4).toNat = false →
      Claims.Traps (.rred ev b) s 0x0D 0 s.cur.word)) ∧
  (∀ (s : State) (ev : Bool) (b : Blk) (t : Trans),
    (let p := s.me.substBlk b
     s.cur.sq = .S → (p.p0.extractLsb' 62 2).toNat = 2 → p.p2.toNat % 8 = 0 → 8 ≤ p.p2.toNat → p.p2.toNat ≤ 0x200000 →
     Claims.Usable s ⟨true, p.p1.toNat, p.p2.toNat, 8, false, false⟩ → Claims.Usable s ⟨false, p.p3.toNat, 32, 32, true, false⟩ →
     translate s.here.partNo s.me.rng p.p3.toNat 32 .wr = .ok t →
     (s.isStepped t.ia = true → ∃ det, Claims.Traps (.rst ev b) s 0x07 p.p3 det) ∧
     (s.isStepped t.ia = false →
       (∀ e, dget s.fab.mcast (p.p0.extractLsb' 54 8).toNat = some e → e.hdr.getLsbD 63 = false ∨ e.hdr.getLsbD 48 = false) →
       Claims.Traps (.rst ev b) s 0x0D 0 s.cur.word))) ∧
  (∀ (s : State) (ev : Bool) (b : Blk) (g : Fin 16),
    (let p := s.me.substBlk b
     let grp := (p.p3.extractLsb' 15 8).toNat
     let e := (dget s.fab.mcast grp).getD ⟨0, []⟩
     s.cur.sq = .S → p.p2.toNat % 8 = 0 →
     ((p.p3.extractLsb' 0 2).toNat = 3 → e.hdr.getLsbD 63 = true → p.p2.toNat % (8 * e.members.length) = 0) →
     Claims.Usable s ⟨true, p.p0.toNat, p.p2.toNat, 8, false, false⟩ → p.p1.toNat % 8 = 0 →
     (p.p3.getLsbD 14 = false → s.agentGroup s.cur.core = some g → Claims.CmdRoom s 0xB8 →
       Claims.Enters s (.coll ev b) ev p (fun x => x.stepOf = some (g, Claims.stepIn s g))) ∧
     (p.p3.getLsbD 14 = false → s.agentGroup s.cur.core = none → Claims.Traps (.coll ev b) s 0x18 0 s.cur.word) ∧
     (p.p3.getLsbD 14 = true → (e.hdr.getLsbD 63 = true → ∀ m ∈ e.members,
         m = s.fab.pkg ∨ (sget 0 s.fab.routes m.toNat).getLsbD 63 = false ∨ (sget 0 s.fab.caps m.toNat).getLsbD (p.p3.extractLsb' 2 4).toNat = true) → Claims.CmdRoom s 0xB8 →
       Claims.Enters s (.coll ev b) ev p (fun x => x.stepOf = none ∧ x.aux = sget 0 s.fab.collSeq grp)) ∧
     (p.p3.getLsbD 14 = true → e.hdr.getLsbD 63 = true → ∀ m ∈ e.members, m ≠ s.fab.pkg →
       (sget 0 s.fab.routes m.toNat).getLsbD 63 = true → (sget 0 s.fab.caps m.toNat).getLsbD (p.p3.extractLsb' 2 4).toNat = false → Claims.Traps (.coll ev b) s 0x0D 0 s.cur.word))) ∧
  (∀ (s : State) (ev : Bool) (b : Blk),
    (let p := s.me.substBlk b
     let t := Claims.tableOf s (p.p3.extractLsb' 0 12).toNat
     let hdr := (t.map fun t => align8 (4 * t.shcnt)).getD 0
     let count (i : Nat) := leNat (((s.issueBytes p.p0.toNat hdr).drop (4 * i)).take 4)
     let len := match t with
       | none => 0
       | some d => match s.owners s.cur.core (s.newCmd ev p) d with
         | .ok _ => hdr + ((List.range d.shcnt).map fun i => count i * (p.p3.extractLsb' 19 16).toNat).sum
         | .error _ => hdr
     s.cur.sq = .S → p.p2.toNat % 8 = 0 → p.p1.toNat % 8 = 0 → Claims.Sound s →
     Claims.Usable s ⟨true, p.p0.toNat, hdr, 8, false, false⟩ → Claims.Usable s ⟨true, p.p0.toNat, len, 8, false, false⟩ →
     s.settled p.p0.toNat hdr = true → (∀ d, t = some d → s.seenTo d.owner (2 * d.shcnt) = false) → Claims.CmdRoom s 0xB7 →
     (p.p3.getLsbD 18 = true → Claims.Enters s (.xall ev b) ev p (fun x => x.stepOf = none)) ∧
     (∀ g, p.p3.getLsbD 18 = false → s.agentGroup s.cur.core = some g →
       Claims.Enters s (.xall ev b) ev p (fun x => x.stepOf = some (g, Claims.stepIn s g))) ∧
     (p.p3.getLsbD 18 = false → s.agentGroup s.cur.core = none → Claims.Traps (.xall ev b) s 0x18 0 s.cur.word))) ∧
  (∀ (s : State) (d : SReg) (g : Fin 16),
    (let gr := s.fab.groups[g.val]
     (gr.joined = true → gr.failed = none → ∀ u, s.writeS d (BitVec.ofNat 64 gr.step) = .ok u →
       exec (.stepq d g) s = .next u.complete) ∧
     (gr.joined = false → ∀ u, s.writeS d (BitVec.allOnes 64) = .ok u → exec (.stepq d g) s = .next u.complete) ∧
     (∀ p, gr.joined = true → gr.failed = some p →
       Claims.Traps (.stepq d g) s 0x0E 0 (BitVec.ofNat 64 (g.val + p.toNat * 2 ^ 16)))))

/-- A command completes with its copy or its status, stops at a home fault, and a ring DECMP takes its token. A CPY
between local ranges that may run completes with the destination holding the source's bytes as they stood at its first
unit, also where they overlap, and every other byte as before; it leaves its class, and posts its user event when EV
was set. A command of a table that is not defined ends with status 0x01, which WAITC keeps. A CPY whose next unit
meets a home fault stops there, keeps its place, and makes trap 0x0B pending on C with the command's event. A ring
DECMP takes a free token and decodes one block into its slot, without one it changes nothing; then it posts the full
token, which waits while that counter stands at its maximum. The last unit of a CPY writes its bytes at their homes,
or reads them there, where the homes serve and confirm and no watch is set (R245 to R249, R257, R327). -/
def Obligations.EngineEvents : Prop :=
  (∀ (s : State) (c : CoreId) (q : SeqId) (i : Nat) (x : Cmd) (a b n : Nat), Claims.Runs s c q i x → x.op = 0xB0 →
    x.blk.p2.toNat = n → 0 < n → Blk.lm x.blk 0 = true → Blk.lm x.blk 1 = true → x.ias = [a, b] → x.reads = [⟨b, n⟩] →
    x.writes = [⟨a, n⟩] → x.done = 0 → x.held = [] → x.peeked = [] → x.pend = [] →
    s.hm.out = 0 → a + n ≤ 2 ^ 21 → b + n ≤ 2 ^ 21 →
    ∃ t done, exec (.engineCommandComplete c q i) s = .next t ∧ Claims.Left s t c q i x 0 done ∧ t.hm.mem = s.hm.mem ∧
      ∀ k, Memory.get t.hm.lm k = if c.val * 2 ^ 21 + a ≤ k ∧ k < c.val * 2 ^ 21 + a + n
        then Memory.get s.hm.lm (c.val * 2 ^ 21 + b + (k - (c.val * 2 ^ 21 + a))) else Memory.get s.hm.lm k) ∧
  (∀ (s : State) (c : CoreId) (q : SeqId) (i : Nat) (x : Cmd), Claims.Runs s c q i x → x.op ∈ [0xB2#8, 0xB3, 0xB5, 0xB6, 0xB7] →
    (x.op = 0xB7 → x.blk.p3.getLsbD 18 = true) → x.table = none → x.pend = [] → ∃ t, exec (.engineCommandComplete c q i) s = .next t ∧ Claims.Left s t c q i x 1 x.done ∧ t.hm.lm = s.hm.lm ∧ t.hm.mem = s.hm.mem) ∧
  (∀ (s : State) (c : CoreId) (q : SeqId) (i : Nat) (x : Cmd) (a0 b : Nat) (e : HomeErr) (a : Nat), Claims.Runs s c q i x →
    x.op = 0xB0 → Blk.lm x.blk 1 = false → x.ias = [a0, b] → x.reads = [] → x.resumed = false → x.pend = [] → 256 * x.done < x.blk.p2.toNat →
    iaTier (b + 256 * x.done) ≠ 5 →
    (let n := min 256 (x.blk.p2.toNat - 256 * x.done)
     let det : Word := BitVec.ofNat 64 (x.done % 2 ^ 40 * 2 ^ 24 + 0xB0 * 2 ^ 16 + 6)
     s.anyDown (b + 256 * x.done) n = false → s.confirmAll false (b + 256 * x.done) n = .error (e, a) →
     ∃ v : State, exec (.engineFault c q i) s =
         .next (v.post (s.core c).partNo (srcCore c) 4 0 (s.core c).card (BitVec.ofNat 64 a) det) ∧
       (v.seq c q).cmds = (s.seq c q).cmds.set i { x with state := .stopped a, peeked := [] } ∧
       (v.core c).c.async = (s.core c).c.async ++ [⟨0x0B, BitVec.ofNat 64 a, det⟩] ∧ v.hm = s.hm ∧ v.hst = s.hst ∧ v.sch = s.sch ∧
       ∀ r, (v.seq c q).rd r = (s.seq c q).rd r)) ∧
  (∀ (s : State) (c : CoreId) (q : SeqId) (i : Nat),
    (∀ x, (s.seq c q).cmds[i]? = some x → x.op ≠ 0xB4 ∨ (x.blk.p3.extractLsb' 0 4) = 0) →
    exec (.decmpFreeTokenTaken c q i) s = .next s) ∧
  (∀ (s u : State) (c : CoreId) (q : SeqId) (i : Nat) (x : Cmd) (h : CodedHeader) (payload out : List Byte), Claims.AtUnit s c q i x →
    x.op = 0xB4 →
    (let slots := (x.blk.p3.extractLsb' 0 4).toNat
     let sb := 8 * (x.blk.p3.extractLsb' 8 16).toNat
     let tf : Fin 8 := Fin.ofNat 8 (x.blk.p3.extractLsb' 24 3).toNat
     let te : Fin 8 := Fin.ofNat 8 (x.blk.p3.extractLsb' 28 3).toNat
     let tok (v : State) (n : Fin 8) := ((v.core c).tokens[n.val]).toNat
     let dst := x.blk.p0.toNat + x.done % slots * sb
     let stands (v : State) (done off : Nat) := ∃ z, (v.seq c q).cmds[i]? = some z ∧ z.done = done ∧ z.off = off ∧ z.stamp = x.stamp
     slots ≠ 0 → te ≠ tf → x.done < x.blk.p2.toNat → s.codedAt c x = .ok (h, payload, u) → x.off ≠ 1 →
     (tok s te = 0 → exec (.decmpFreeTokenTaken c q i) s = .next s) ∧
     (0 < tok s te → h.outLen ≤ sb → decodeInto h payload = (out, 0) → dst + out.length ≤ 2 ^ 21 →
       ∃ t w, exec (.decmpFreeTokenTaken c q i) s = .next t ∧ exec (.decmpFreeTokenTaken c q i) t = .next w ∧
         tok t te = tok s te - 1 ∧ tok t tf = tok s tf ∧ stands t x.done 1 ∧ t.hm.mem = s.hm.mem ∧ t.hm.lm = s.hm.lm ∧
         Claims.LmPut s w c dst out.length (fun k => out.getD k 0) ∧ w.hm.mem = s.hm.mem ∧
         (tok s tf = 65535 → tok w tf = 65535 ∧ stands w x.done 1) ∧
         (tok s tf ≠ 65535 → tok w tf = tok s tf + 1 ∧ stands w (x.done + 1) 0)))) ∧
  (∀ (s : State) (c : CoreId) (q : SeqId) (i : Nat) (x : Cmd), Claims.Runs s c q i x → x.op = 0xB4 → x.reads = [] → x.pend = [] →
    (x.blk.p3.extractLsb' 0 4).toNat ≠ 0 → x.done < x.blk.p2.toNat → x.off = 1 →
    (let tf : Fin 8 := Fin.ofNat 8 (x.blk.p3.extractLsb' 24 3).toNat
     ((s.core c).tokens[tf.val] = 65535 → exec (.decmpFreeTokenTaken c q i) s = .next s) ∧
     ((s.core c).tokens[tf.val] ≠ 65535 → ∃ t, exec (.decmpFreeTokenTaken c q i) s = .next t ∧ t.hm = s.hm ∧
       (t.core c).tokens = (s.core c).tokens.set tf.val ((s.core c).tokens[tf.val] + 1) ∧
       (t.seq c q).cmds = (s.seq c q).cmds.set i { x with done := x.done + 1, off := 0, peeked := [] }))) ∧
  (∀ (s : State) (c : CoreId) (q : SeqId) (i : Nat) (x : Cmd) (a b : Nat), Claims.AtUnit s c q i x → x.op = 0xB0 → x.ias = [a, b] →
    (let o := 256 * x.done
     let k := x.blk.p2.toNat - o
     let src (j : Nat) : Byte := if Blk.lm x.blk 1 then Claims.lmByte s c (b + o + j) else s.homeByte (b + o + j)
     let ws := (List.range k).map fun j => (a + o + j, src j)
     0 < k → k ≤ 256 → (Blk.lm x.blk 1 = false → Claims.Serves s (b + o) k) →
     (Blk.lm x.blk 0 = true → a + o + k ≤ 2 ^ 21 → ∃ t done, exec (.engineCommandComplete c q i) s = .next t ∧
       Claims.Left s t c q i x 0 done ∧ t.hm.mem = s.hm.mem ∧ Claims.LmPut s t c (a + o) k src) ∧
     (Blk.lm x.blk 0 = false → Claims.MayWrite s ws → ∃ t done, exec (.engineCommandComplete c q i) s = .next t ∧
       Claims.Left s t c q i x 0 done ∧ t.hm.lm = s.hm.lm ∧ Claims.Written s t ws)))

namespace Sys2Proof.Claims

/-- What a handle in a register comes to for the issuing core's card (R24, R271): the slot's serial is the handle's and the card
lives, or the card is over, or it is no handle of the partition. -/
def HandleLive (s : State) (x : Word) : Prop :=
  let sl := (s.part s.here.partNo).slot (x.extractLsb' 0 13).toNat
  x ≠ 0 ∧ x.extractLsb' 32 32 = 0 ∧ x.setWidth 32 ≠ s.here.card ∧ sl.serial = x.extractLsb' 13 19 ∧ sl.use = .live
def HandleOver (s : State) (x : Word) : Prop :=
  let sl := (s.part s.here.partNo).slot (x.extractLsb' 0 13).toNat
  let d := (sl.serial - x.extractLsb' 13 19).toNat
  x ≠ 0 ∧ x.extractLsb' 32 32 = 0 ∧ x.setWidth 32 ≠ s.here.card ∧ (d = 0 ∧ sl.use = .completed ∨ 0 < d ∧ d ≤ 2 ^ 18)

/-- A destination register reads a value, every other register and the flags what they read before, and g0 reads 0. -/
def Result (s t : State) (d : Fin 32) (v : Word) : Prop :=
  (∀ r, t.me.rd r = if r = d ∧ d ≠ 0 then v else s.me.rd r) ∧ t.me.fpcs = s.me.fpcs

/-- An effect that is ordered as after a MARK rel at .dev may happen. -/
def Released (s : State) : Prop :=
  (∀ l ∈ s.me.loads, l.vals ≠ none) ∧ s.me.atoms = [] ∧ s.coveredAt s.cur.core s.cur.sq .dev = true

end Sys2Proof.Claims

/-- LAUNCH queues its card under a new handle, CARDW waits for a card, PRIO sets a class, GRAPH creates a replay. On
C. LAUNCH of an image that has been read, or that it holds, writes a new live handle and appends the card with the
launching core's ranges to its queue; with the queue full, or no slot free, it stands and holds the image; an image
that breaks a check, or a queue that is not there, raises cause 0x17 with its address. GRAPH does the same with a
replay of its object. CARDW completes when the card is over, waits for a live one, and raises 0x17 for no handle of
the partition; PRIO sets the class of the card named (0 and the own handle name its own) and does nothing for one that
is over (R270, R271, R274, R277). -/
def Obligations.CardInstructions : Prop :=
  (∀ (s u v w : State) (d : Fin 32) (a : SReg) (q : BitVec 6) (x : Word) (i : CardImg) (bs : List Byte) (h : Handle),
    s.cur.sq = .C → s.readS a = .ok (x, u) →
    (let dq := (s.part s.here.partNo).devqs[q.toNat]?
     let fresh := (∀ j, s.c.taken ≠ some (.image j)) ∧ s.readRecord u x.toNat 128 128 = .ok (bs, v) ∧ i = CardImg.ofBytes bs ∧
       Claims.Released s
     let held := s.c.taken = some (.image i) ∧ v = u
     (fresh → (dq = none ∨ v.cardFault s.here.partNo i ≠ none) → Claims.Traps (.launch (.g d) a q) s 0x17 x s.cur.word) ∧
     ((fresh ∧ v.cardFault s.here.partNo i = none) ∨ held → ∀ k, dq = some k → k.cards.length < 2 ^ k.sizeLog →
       v.newHandle s.here.partNo = some (h, w) →
       ∃ t, exec (.launch (.g d) a q) s = .next t ∧ Claims.Result s t d (h.setWidth 64) ∧ t.hm.mem = v.hm.mem ∧
         t.c.taken = none ∧ t.c.stand = false ∧
         (t.part s.here.partNo).devqs[q.toNat]? = some { k with cards := k.cards ++ [(h, i, s.me.rng)], tail := k.tail + 1 } ∧
         (t.part s.here.partNo).slot (handleSlot h) = ⟨handleSerial h, .live⟩) ∧
     ((fresh ∧ v.cardFault s.here.partNo i = none) ∨ held → ∀ k, dq = some k →
       (2 ^ k.sizeLog ≤ k.cards.length ∨ v.newHandle s.here.partNo = none) →
       exec (.launch (.g d) a q) s = .next (s.setC { s.c with taken := some (.image i), stand := true })))) ∧
  (∀ (s u u' v w : State) (d : Fin 32) (a b : SReg) (x y : Word) (r : Replay) (h : Handle),
    s.cur.sq = .C → s.readS a = .ok (x, u) → u.readS b = .ok (y, u') →
    ((∀ j, s.c.taken ≠ some (.graph j)) ∧ s.readGraph u' x.toNat (if b = .g 0 then none else some y.toNat) = .ok (r, v) ∧
        Claims.Released s) ∨ (s.c.taken = some (.graph r) ∧ v = u') →
    (let p := s.here.partNo
     (v.replaysFull p r.object = false → v.newHandle p = some (h, w) →
       ∃ t, exec (.graph (.g d) a b) s = .next t ∧ Claims.Result s t d (h.setWidth 64) ∧ t.hm.mem = v.hm.mem ∧
         t.sch.replays = v.sch.replays ++ [(p, { r with handle := h })] ∧ t.sch.cards = v.sch.cards ∧ t.c.taken = none) ∧
     (v.replaysFull p r.object = true ∨ v.newHandle p = none →
       exec (.graph (.g d) a b) s = .next (s.setC { s.c with taken := some (.graph r), stand := true })))) ∧
  (∀ (s u : State) (a : SReg) (x : Word), s.cur.sq = .C → s.readS a = .ok (x, u) →
    (Claims.HandleOver s x → (∀ l ∈ s.me.loads, l.vals ≠ none) → s.me.atoms = [] →
      ∃ t, exec (.cardw a) s = .next t ∧ t.c.cardW = none ∧ (∀ r, t.me.rd r = s.me.rd r) ∧ t.hm.mem = s.hm.mem ∧
        (s.fusedAt s.cur.core = false → t.here.l1 = [])) ∧
    (Claims.HandleLive s x → exec (.cardw a) s = .next (s.setC { s.c with cardW := some (x.setWidth 32) })) ∧
    (¬Claims.HandleOver s x → ¬Claims.HandleLive s x → Claims.Traps (.cardw a) s 0x17 0 s.cur.word)) ∧
  (∀ (s u : State) (a : SReg) (c : Fin 4) (x : Word), s.cur.sq = .C → s.readS a = .ok (x, u) →
    (let own := x = 0 ∨ x = s.here.card.setWidth 64
     let h := if own then s.here.card else x.setWidth 32
     (own ∨ Claims.HandleLive s x → ∃ t, exec (.prio a c) s = .next t ∧ (∀ r, t.me.rd r = s.me.rd r) ∧ t.hm = s.hm ∧
       t.sch.cards = s.sch.cards.map fun e =>
         if e.1 = s.here.partNo ∧ e.2.handle = h then (e.1, { e.2 with own := c, aged := 0 }) else e) ∧
     (¬own → Claims.HandleOver s x → exec (.prio a c) s = .next u.complete) ∧
     (¬own → ¬Claims.HandleOver s x → ¬Claims.HandleLive s x → Claims.Traps (.prio a c) s 0x17 0 s.cur.word)))

/-- WARM arms a watch, WDIS disarms one, TRIGRD stores its record, PQPUSH and PQPOP move entries, UEVSET sets the
vector. On C. WARM of a descriptor and template that pass writes the number of a free entry, which it arms within the
quota, or all ones with no entry taken; one that does not pass, or that names another partition's memory, raises cause
0x17. WDIS disarms an entry of the partition and discards its records. TRIGRD stores the five words of the pending
record of lowest SEQ, zeros and the entry number when there is none. PQPUSH appends an entry when released and the
queue has room; PQPOP never stands: it returns an entry with fewer than 8 of lesser key and takes it out, all ones
when the queue is empty; on a queue of another partition both raise 0x17. UEVSET sets the vector and the enable, 0x05
when misaligned (R278 to R282). -/
def Obligations.WatchesAndQueues : Prop :=
  (∀ (s u v w y : State) (d : Fin 32) (a : SReg) (x : Word) (bs ts : List Byte), s.cur.sq = .C → s.readS a = .ok (x, u) →
    u.markFull .dev = .ok v → s.readRecord v x.toNat 64 64 = .ok (bs, w) →
    (let p := s.here.partNo
     let tmpl := leNat ((bs.drop 0x18).take 8)
     let img := CardImg.ofBytes ts
     let e := watchEntry p bs img s.me.rng
     let fits := watchOk p bs = true ∧ y.cardFault p img = none ∧ scopeFits (leNat ((bs.drop 0x0C).take 1)) img = true
     let inside := iaPart (leNat (bs.take 8) % 2 ^ 52) = p ∧ iaPart (tmpl % 2 ^ 52) = p ∧ tmpl < 2 ^ 52 ∧ hasHome tmpl = true
     (¬inside → Claims.Traps (.warm (.g d) a) s 0x17 x s.cur.word) ∧
     (inside → s.readPieces w (.home tmpl 1) tmpl 4 128 = .ok (ts, y) →
       (¬fits → Claims.Traps (.warm (.g d) a) s 0x17 x s.cur.word) ∧
       (fits → vget (y.part p).charges 4 0 < vget (y.part p).quotas 4 0 → (∃ n < 4096, y.watch? n = none) →
         ∃ t n, exec (.warm (.g d) a) s = .next t ∧ n < 4096 ∧ y.watch? n = none ∧ t.watch? n = some e ∧
           Claims.Result s t d (BitVec.ofNat 64 n) ∧ vget (t.part p).charges 4 0 = vget (y.part p).charges 4 0 + 1) ∧
       (fits → (vget (y.part p).quotas 4 0 ≤ vget (y.part p).charges 4 0 ∨ ∀ n < 4096, y.watch? n ≠ none) →
         ∃ t, exec (.warm (.g d) a) s = .next t ∧ t.sch.watches = y.sch.watches ∧ Claims.Result s t d (BitVec.allOnes 64))))) ∧
  (∀ (s u : State) (a : SReg) (x : Word), s.cur.sq = .C → s.readS a = .ok (x, u) →
    (∀ e, x.toNat ≤ 4095 → s.watch? x.toNat = some e → e.part = s.here.partNo →
      ∃ t, exec (.wdis a) s = .next t ∧ t.watch? x.toNat = none ∧ (∀ r ∈ t.sch.records, r.2.entry ≠ x.toNat) ∧
        (∀ r, t.me.rd r = s.me.rd r) ∧ t.hm = s.hm) ∧
    ((∀ e, s.watch? x.toNat = some e → 4095 < x.toNat ∨ e.part ≠ s.here.partNo) →
      ∃ t, exec (.wdis a) s = .next t ∧ t.sch = s.sch ∧ (∀ r, t.me.rd r = s.me.rd r) ∧ t.hm = s.hm)) ∧
  (∀ (s u v : State) (a b : SReg) (k : BitVec 19) (x y : Word) (t : Nat → Trans), s.cur.sq = .C → s.readS a = .ok (x, u) →
    u.readS b = .ok (y, v) →
    (let at' (i : Nat) := (x + k.signExtend 64).toNat + 8 * i
     let n := y.toNat
     let rec? := match s.watch? n with
       | some w => if w.armed = true ∧ w.part = s.here.partNo then (s.recordsOf n).head? else none
       | none => none
     let words : List Word := match rec? with
       | some r => [BitVec.ofNat 64 r.gia, r.old, r.new, BitVec.ofNat 64 (r.count.toNat + r.seq.toNat * 2 ^ 32),
           BitVec.ofNat 64 (r.entry % 2 ^ 16 + r.depth % 2 ^ 8 * 2 ^ 16)]
       | none => [0, 0, 0, 0, BitVec.ofNat 64 (n % 2 ^ 16)]
     (y.toNat ≤ 4095 → at' 5 < 2 ^ 64 → v.me.stCount < 14 → v.me.atoms = [] → Claims.Sound v →
       (∀ i < 5, Claims.Reaches v .store (at' i) 8 (t i)) →
       ∃ w, exec (.trigrd a b k) s = .next w ∧ Claims.Leaves [] (Claims.fieldQs a ++ Claims.fieldQs b) s w ∧
         w.me.stores = s.me.stores ++ (List.range 5).map fun i => ⟨s.stamp + i, (t i).ia, leBytes 8 (words.getD i 0).toNat,
           .issued, 0, s.me.relWaits, s.depthOf s.cur.core, (t i).cache == 0, i + 1 == 5⟩) ∧
     (4095 < y.toNat → Claims.Traps (.trigrd a b k) s 0x17 0 s.cur.word))) ∧
  (∀ (s u : State) (n : Fin 16) (a : SReg) (d : Fin 32) (x : Word), s.cur.sq = .C →
    (let i : Fin 32 := Fin.ofNat 32 (16 * (s.cur.core.val % 32 / 16) + n.val)
     let q := s.sch.pqs[i.val]
     let mine := q.owner = some s.here.partNo
     (s.readS a = .ok (x, u) → mine → x ≠ BitVec.allOnes 64 → q.entries.length < 8192 → Claims.Released s →
       ∃ t, exec (.pqpush n a) s = .next t ∧ t.sch.pqs[i.val].entries = q.entries ++ [x] ∧ (∀ r, t.me.rd r = s.me.rd r) ∧
         t.hm = s.hm) ∧
     (s.readS a = .ok (x, u) → ¬mine ∨ x = BitVec.allOnes 64 → Claims.Traps (.pqpush n a) s 0x17 0 s.cur.word) ∧
     (mine → q.entries = [] →
       ∃ t, exec (.pqpop (.g d) n) s = .next t ∧ Claims.Result s t d (BitVec.allOnes 64) ∧ t.sch = s.sch) ∧
     (mine → q.entries ≠ [] →
       ∃ t, ∃ e ∈ q.entries, exec (.pqpop (.g d) n) s = .next t ∧ Claims.Result s t d e ∧
         t.sch.pqs[i.val].entries = q.entries.erase e ∧ t.hm = s.hm ∧
         (q.entries.filter fun f => f.extractLsb' 32 32 < e.extractLsb' 32 32).length < 8) ∧
     (¬mine → Claims.Traps (.pqpop (.g d) n) s 0x17 0 s.cur.word))) ∧
  (∀ (s u : State) (a : SReg) (e : Bool) (x : Word), s.cur.sq = .C → s.readS a = .ok (x, u) →
    (x.toNat % 8 = 0 → ∃ t, exec (.uevset a e) s = .next t ∧ t.c.uevec = x ∧ t.c.uevEn = e ∧ (∀ r, t.me.rd r = s.me.rd r) ∧
      t.c.uevq = s.c.uevq ∧ t.hm = s.hm) ∧
    (x.toNat % 8 ≠ 0 → ∃ det, Claims.Traps (.uevset a e) s 0x05 x det))

/-- A trap writes its frame, C enters the handler at TVEC, ERET swaps back; a trap in the handler is a machine fault;
user events enter at their vector. A trap of a sequencer whose loads are complete writes pc, cause, address, detail
and REPC into its frame and leaves it stopped; with loads under way it waits. One of C at supervisor privilege is a
machine fault, code 0x06, of its partition, all whose work is discarded. C, where it may take a trap, takes its own,
else its oldest trap from elsewhere with its next pc in its frame, else that of the lowest sequencer: it swaps in the
supervisor bank, records SSTAT.SEQ and, for another sequencer, its pc in SRET, and goes on at TVEC at supervisor
privilege. ERET swaps back; the sequencer resumes from its frame, C at SRET; its repeat count and loops, set aside in
svRepc, svLoops and uevRepc, come back (the model's choice, log 3). A user event, which no standing that R56 does not
name lets in, swaps in the shadow and enters at the vector with its two words. Entry leaves memory alone (R56, R283,
R284, R321, R323, R326, R394, R395). -/
def Obligations.TrapsAndReturn : Prop :=
  (∀ (s : State) (c : CoreId) (q : SeqId) (pc : Word) (tr : Trap), (s.seq c q).ldCount = 0 → ¬(q = .C ∧ (s.core c).c.sup = true) →
    (let t := s.raise c q pc tr
     (t.seq c q).frame = ⟨pc, BitVec.ofNat 64 tr.cause, tr.addr, tr.det, (s.seq c q).repc⟩ ∧ (t.seq c q).trapPend = true ∧
     { t.seq c q with frame := (s.seq c q).frame, trapPend := (s.seq c q).trapPend } = s.seq c q ∧
     (∀ c' q', ¬(c' = c ∧ q' = q) → t.seq c' q' = s.seq c' q') ∧ t.hm = s.hm ∧ t.sch = s.sch ∧ t.fab = s.fab ∧ t.hst = s.hst)) ∧
  (∀ (s : State) (c : CoreId) (q : SeqId) (pc : Word) (tr : Trap), (s.seq c q).ldCount ≠ 0 → s.raise c q pc tr = s) ∧
  (∀ (s : State) (c : CoreId) (pc : Word) (tr : Trap), (s.seq c .C).ldCount = 0 → (s.core c).c.sup = true →
    (let p := (s.core c).partNo
     let t := s.raise c .C pc tr
     (∃ n, (some p, (⟨n, srcCore c, 1, 0x06, 0, p.val, 0, 1#64 <<< p.val⟩ : Event)) ∈ t.hst.posted) ∧
     (∀ e ∈ t.sch.cards, e.1 ≠ p) ∧ (∀ e ∈ t.sch.replays, e.1 ≠ p) ∧ (∀ w ∈ t.sch.watches, w.2.part ≠ p) ∧
     (∀ r ∈ t.sch.records, r.1 ≠ p) ∧ (∀ e ∈ s.sch.cards, e.1 ≠ p → e ∈ t.sch.cards) ∧
     (∀ d ∈ (t.part p).devqs, d.cards = []) ∧ (t.part p).supq = [] ∧ (∀ e ∈ (t.part p).slots, e.2.use ≠ .live) ∧
     (t.part p).tables = (s.part p).tables ∧
     ((∀ id, (s.core id).pendGrans = [] ∧ ∀ q, (s.seq id q).stores = []) →
       t.hm.mem = s.hm.mem ∧ t.hm.lm = s.hm.lm ∧ t.hm.ptes = s.hm.ptes) ∧
     (∀ id, (s.core id).part = some p → (t.core id).card = 0 ∧ ∀ q, (t.seq id q).stores = [] ∧ (t.seq id q).cmds = []) ∧
     (∀ id, (s.core id).part ≠ some p → (∀ e ∈ s.sch.cards, e.1 = p → id ∉ e.2.cores) → (t.core id).card = (s.core id).card))) ∧
  (∀ (s : State) (c : CoreId) (v : SeqId),
    (let k := s.core c
     let may := k.c.sup = false ∧ k.c.stand = false ∧ (k.c.stpW = none ∨ (s.seq c .C).trapPend = true) ∧ k.c.flgW = false ∧
       k.c.barMet = false ∧ (s.seq c .C).ldCount = 0
     let enters (v : SeqId) := ∃ t, exec (.trapEntry c) s = .next t ∧ (t.core c).c.sup = true ∧ (t.core c).c.svSeq = v ∧
       (t.seq c .C).pc = k.tvec ∧ (t.seq c .C).g = k.c.bank ∧ (t.core c).c.bank = (s.seq c .C).g ∧
       (v ≠ .C → (t.core c).c.sret = (s.seq c .C).pc) ∧ (t.core c).c.svRepc = (s.seq c .C).repc ∧
       (t.core c).c.svLoops = (s.seq c .C).loops ∧ (t.seq c v).trapPend = false ∧ t.hm = s.hm ∧
       (∀ c' q', c' ≠ c → t.seq c' q' = s.seq c' q') ∧
       (∀ tr ts, (s.seq c .C).trapPend = false → k.c.async = tr :: ts → (t.core c).c.async = ts ∧
         (t.seq c .C).frame = ⟨(s.seq c .C).pc, BitVec.ofNat 64 tr.cause, tr.addr, tr.det, (s.seq c .C).repc⟩) ∧
       ((s.seq c v).trapPend = true → (t.seq c v).frame = (s.seq c v).frame)
     (may → (s.seq c v).trapPend = true → (∀ q : SeqId, q.idx.val < v.idx.val → (s.seq c q).trapPend = false) →
       (v = .C ∨ k.c.async = []) → enters v) ∧
     (may → (s.seq c .C).trapPend = false → k.c.async ≠ [] → enters .C) ∧
     (¬may → exec (.trapEntry c) s = .next s) ∧
     ((∀ q, (s.seq c q).trapPend = false) → k.c.async = [] → exec (.trapEntry c) s = .next s))) ∧
  (∀ s : State, s.cur.sq = .C → s.c.sup = true → s.me.ldCount = 0 →
    (let v := s.c.svSeq
     let k := s.here
     ∃ t, exec .eret s = .next t ∧ t.c.sup = false ∧ t.me.g = s.c.bank ∧ t.c.bank = s.me.g ∧ t.me.loops = s.c.svLoops ∧
       t.me.rep = (if v = .C then none else s.c.svRep) ∧ (t.here.seq v).rep = none ∧
       t.me.pc = (if v = .C then s.me.frame.pc else s.c.sret) ∧ t.me.repc = (if v = .C then s.me.frame.repc else s.c.svRepc) ∧
       (v ≠ .C → (t.here.seq v).pc = (k.seq v).frame.pc ∧ (t.here.seq v).repc = (k.seq v).frame.repc ∧
         (t.here.seq v).loops = (k.seq v).loops) ∧
       (∀ q, (t.here.seq q).ctxStop = false) ∧ t.c.engStop = false ∧ t.hm = s.hm)) ∧
  (∀ (s : State) (c : CoreId) (a b : Word) (rest : List (Word × Word)),
    (let k := s.core c
     let q := s.seq c .C
     let ready := k.c.uevEn = true ∧ k.c.uevIn = false ∧ k.c.sup = false ∧ k.c.stand = false ∧ k.c.stpW = none ∧ k.c.flgW = false ∧
       k.c.held = false ∧ k.c.barMet = false ∧ q.done = false ∧ q.trapPend = false ∧ k.card ≠ 0 ∧ q.ldCount = 0
     (ready → (∀ v, (s.seq c v).trapPend = false) → k.c.async = [] → k.c.uevq = (a, b) :: rest →
       ∃ t, exec (.userEventEntry c) s = .next t ∧ (t.seq c .C).pc = k.c.uevec ∧ (t.core c).c.uevIn = true ∧
         (t.core c).c.uevRet = q.pc ∧ (t.core c).c.uevRepc = q.repc ∧ (t.core c).c.uevq = rest ∧
         (t.seq c .C).rd 24 = a ∧ (t.seq c .C).rd 25 = b ∧ (∀ n : Fin 32, n.val < 24 → (t.seq c .C).rd n = q.rd n) ∧
         (∀ i : Fin 8, (t.core c).c.shadow[i.val] = q.g[24 + i.val] ∧
           (2 ≤ i.val → (t.seq c .C).g[24 + i.val] = k.c.shadow[i.val])) ∧ t.hm = s.hm) ∧
     (¬ready ∨ k.c.uevq = [] → exec (.userEventEntry c) s = .next s)))

namespace Sys2Proof.Claims

/-- The value that a system register reads for the card on the core, while C runs its handler (R285): the registers of the four
sequencers, then those of the core and of its partition. -/
def SysVal (s : State) (idx : Nat) (v : Word) : Prop :=
  let k := s.here
  let loops (q : SeqId) := if q = .C then k.c.svLoops else (k.seq q).loops
  (∃ (q : SeqId) (n : Fin 32), idx = 4096 * q.idx.val + n.val ∧
    v = if n = 0 then 0 else if q = .C then k.c.bank[n.val] else (k.seq q).rd n) ∨
  (∃ (q : SeqId) (i : Fin 16) (h : Fin 2), idx = 4096 * q.idx.val + 0x20 + 2 * i.val + h.val ∧
    v = (k.seq q).rng[i.val].extractLsb' (64 * h.val) 64) ∨
  (∃ q : SeqId, (idx = 4096 * q.idx.val + 0x40 ∧ v = (k.seq q).frame.pc) ∨ (idx = 4096 * q.idx.val + 0x41 ∧ v = (k.seq q).frame.cause) ∨
    (idx = 4096 * q.idx.val + 0x42 ∧ v = (k.seq q).frame.addr) ∨ (idx = 4096 * q.idx.val + 0x43 ∧ v = (k.seq q).frame.det) ∨
    (idx = 4096 * q.idx.val + 0x44 ∧ v = (k.seq q).frame.repc)) ∨
  (∃ (q : SeqId) (i : Fin 4), (idx = 4096 * q.idx.val + 0x48 + 4 * i.val ∧ v = (loops q)[i.val].start) ∨
    (idx = 4096 * q.idx.val + 0x49 + 4 * i.val ∧ v = (loops q)[i.val].fin) ∨
    (idx = 4096 * q.idx.val + 0x4A + 4 * i.val ∧ v = (loops q)[i.val].count) ∨
    (idx = 4096 * q.idx.val + 0x4B + 4 * i.val ∧ v = if (loops q)[i.val].rot then 1 else 0)) ∨
  (∃ q : SeqId, (idx = 4096 * q.idx.val + 0x58 ∧ v = (k.seq q).fpcs) ∨
    (idx = 4096 * q.idx.val + 0x59 ∧ v = if q = .X then k.x.rot.setWidth 64 else 0) ∨
    (idx = 4096 * q.idx.val + 0x5A ∧ v = BitVec.ofNat 64 ((k.seq q).ldCount * 2 ^ 15 + (k.seq q).stCount * 2 ^ 11 +
      (k.seq q).cpCount * 2 ^ 7 + (if q = .X then k.x.mx.length else 0) * 2 ^ 4 + (k.seq q).rmCount))) ∨
  (idx = 0x4000 ∧ v = k.tvec) ∨
  (idx = 0x4001 ∧ v = BitVec.ofNat 64 (k.c.svSeq.idx.val + 4 + ((if (k.seq .C).trapPend || !k.c.async.isEmpty then 2 ^ 4 else 0) +
    (if (k.seq .L).trapPend then 2 ^ 5 else 0) + (if (k.seq .X).trapPend then 2 ^ 6 else 0) +
    (if (k.seq .S).trapPend then 2 ^ 7 else 0)))) ∨
  (idx = 0x4002 ∧ v = k.c.sret) ∨ (idx = 0x4003 ∧ v = (k.c.uevec &&& ~~~7#64) ||| (if k.c.uevEn then 1 else 0)) ∨
  (idx = 0x4004 ∧ v = k.card.setWidth 64) ∨ (idx = 0x4005 ∧ v = BitVec.ofNat 64 (s.part k.partNo).supq.length) ∨
  (∃ i : Fin 1024, idx = 0x4400 + i.val ∧ v = sget 0 (s.part k.partNo).pft i.val)

/-- An image that CTXLD refuses for its header, its checksum, or a count in it (R346, R351): the issuing core's card, and its place
there, are not those of the header; a reserved byte of the header is set; the CRC is not that of the image with these bytes zero; or
a mask depth, a number of events or of commands is beyond its limit. -/
def BadImage (s : State) (k : Card) (bs : List Byte) : Prop :=
  let f (o n : Nat) := leNat ((bs.drop o).take n)
  f 0 4 ≠ 0x6AF00002 ∨ f 4 2 ≠ 1 ∨ f 6 1 ≠ s.here.partNo.val ∨ f 8 4 ≠ k.handle.toNat ∨ f 0x18 8 ≠ 0x34C000 ∨
  f 7 1 ≠ (s.cur.core.val % 32 - k.ox) + 32 * (s.cur.core.val / 32 - k.oy) ∨
  (∃ o, bs.getD o 0 ≠ 0 ∧ ((0x0D ≤ o ∧ o < 0x10) ∨ (0x14 ≤ o ∧ o < 0x18) ∨ (0x20 ≤ o ∧ o < 0x40))) ∨
  f 0x10 4 ≠ (crc32c (bs.take 0x10 ++ [0, 0, 0, 0] ++ bs.drop 0x14)).toNat ∨
  16 < f 0x15200 8 ∨ 16 < f 0x50 8 ∨ (∃ q : Fin 4, 14 < f (0x1118 + 0x2000 * q.val) 8 / 2 ^ 8 % 2 ^ 4)

/-- The loop stack of a sequencer as C's handler sees it: C's own is the one set aside at its entry (log 3). -/
def loopsOf (s : State) (q : SeqId) : Vector LoopEntry 4 := if q = .C then s.c.svLoops else (s.here.seq q).loops

/-- A sequencer is stopped while C runs its handler: C itself, a trapped, finished or stopped one, and the one that is handled. -/
def Stands (k : Core) (q : SeqId) : Prop :=
  q = .C ∨ (k.seq q).trapPend = true ∨ (k.seq q).ctxStop = true ∨ (k.seq q).done = true ∨ k.c.svSeq = q

end Sys2Proof.Claims

/-- The system group acts for C at supervisor privilege alone: SYSRD, SYSWR, IDLE, EVRD, PREEMPT, CTXSV, CTXLD. Off C
every form of the group raises cause 0x03, on C at user privilege 0x04. At supervisor privilege SYSRD writes the
register at g[A] + IMM, 0x01 for no register; SYSWR writes those that may be written, of another sequencer only while
it is stopped (else 0x04), and ignores the others; C's loop stack is the one set aside in svLoops (log 3), TVEC and
TFDET hold all 64 bits (log 59). IDLE completes when a trap or a supervisor record waits. EVRD removes the oldest
record into memory and writes 1, or writes 0. PREEMPT marks a running card and raises 0x17 for no handle. CTXSV stops
the other sequencers, then writes the core's image and completes; CTXLD raises 0x17 for an image whose header,
checksum or counts are wrong, and for any that the model's loadImage refuses (log 48), and loads the others (R174,
R285, R287, R346, R351). -/
def Obligations.SystemInstructions : Prop :=
  (∀ (s : State) (d a b : SReg) (k : BitVec 19),
    ∀ i ∈ [Instr.sysrd d a k, .syswr a b k, .eret, .idle, .evrd d a, .preempt a, .ctxsv a, .ctxld a],
      (s.cur.sq ≠ .C → Claims.Traps i s 0x03 0 s.cur.word) ∧
      (s.cur.sq = .C → s.c.sup = false → Claims.Traps i s 0x04 0 s.cur.word)) ∧
  (∀ (s u : State) (d : Fin 32) (a : SReg) (k : BitVec 19) (x : Word), s.cur.sq = .C → s.c.sup = true → s.readS a = .ok (x, u) →
    (let idx := (x + k.setWidth 64).toNat
     (∀ v, Claims.SysVal s idx v → ∃ t, exec (.sysrd (.g d) a k) s = .next t ∧ Claims.Result s t d v ∧ t.hm = s.hm ∧
       t.c = s.c ∧ t.sch = s.sch) ∧
     ((∀ v, ¬Claims.SysVal s idx v) → Claims.Traps (.sysrd (.g d) a k) s 0x01 0 s.cur.word))) ∧
  (∀ (s u w : State) (a b : SReg) (k : BitVec 19) (x y : Word), s.cur.sq = .C → s.c.sup = true → s.readS a = .ok (x, u) →
    u.readS b = .ok (y, w) →
    (let idx := (x + k.setWidth 64).toNat
     let writes (p : State → Prop) := ∃ t, exec (.syswr a b k) s = .next t ∧ p t ∧ t.hm = s.hm ∧ (∀ r, t.me.rd r = s.me.rd r) ∧
       (∀ c' q', c' ≠ s.cur.core → t.seq c' q' = s.seq c' q')
     let at' (q : SeqId) (n : Nat) := idx = 4096 * q.idx.val + n
     (∀ q (n : Fin 32), at' q n → Claims.Stands s.here q → writes fun t =>
       ∀ r : Fin 32, (if q = .C then (if r = 0 then 0 else t.c.bank[r.val]) else (t.here.seq q).rd r) =
         if r = n ∧ n ≠ 0 then y else if q = .C then (if r = 0 then 0 else s.c.bank[r.val]) else (s.here.seq q).rd r) ∧
     (∀ q (i : Fin 16), at' q (0x20 + 2 * i.val) → writes fun t => (t.here.seq q).rng[i.val].extractLsb' 0 64 = y ∧
       (t.here.seq q).rng[i.val].extractLsb' 64 64 = (s.here.seq q).rng[i.val].extractLsb' 64 64) ∧
     (∀ q (i : Fin 16), at' q (0x21 + 2 * i.val) → writes fun t =>
       (t.here.seq q).rng[i.val].extractLsb' 0 64 = (s.here.seq q).rng[i.val].extractLsb' 0 64 ∧
       ∀ j, j < 64 → (t.here.seq q).rng[i.val].getLsbD (64 + j) = (y.getLsbD j && !(decide (43 ≤ j) && decide (j < 56)))) ∧
     (∀ q, Claims.Stands s.here q →
       (at' q 0x40 → writes fun t => (t.here.seq q).frame = { (s.here.seq q).frame with pc := y }) ∧
       (at' q 0x41 → writes fun t => (t.here.seq q).frame = { (s.here.seq q).frame with cause := y &&& 0xFF#64 }) ∧
       (at' q 0x42 → writes fun t => (t.here.seq q).frame = { (s.here.seq q).frame with addr := y }) ∧
       (at' q 0x43 → writes fun t => (t.here.seq q).frame = { (s.here.seq q).frame with det := y }) ∧
       (at' q 0x44 → writes fun t => (t.here.seq q).frame = { (s.here.seq q).frame with repc := y })) ∧
     (∀ q (i : Fin 4), Claims.Stands s.here q →
       (let l := (Claims.loopsOf s q)[i.val]
        let puts (e : LoopEntry) := writes fun t => ∀ j : Fin 4, (Claims.loopsOf t q)[j.val] = if j = i then e else (Claims.loopsOf s q)[j.val]
        (at' q (0x48 + 4 * i.val) → puts { l with start := y }) ∧ (at' q (0x49 + 4 * i.val) → puts { l with fin := y }) ∧
        (at' q (0x4A + 4 * i.val) → puts { l with count := y }) ∧ (at' q (0x4B + 4 * i.val) → puts { l with rot := y.getLsbD 0 }))) ∧
     (∀ q, Claims.Stands s.here q → at' q 0x58 → writes fun t => (t.here.seq q).fpcs = y &&& 0xFDF#64) ∧
     (Claims.Stands s.here .X → at' .X 0x59 → (∀ i : Fin 4, s.me.loops[i.val].rot = false) → writes fun t => t.here.x.rot = y.setWidth 5) ∧
     (∀ q, q ≠ .X → Claims.Stands s.here q → at' q 0x59 → exec (.syswr a b k) s = .next w.complete) ∧
     (∀ q n, at' q n → n < 0x20 ∨ (0x40 ≤ n ∧ n ≤ 0x44) ∨ (0x48 ≤ n ∧ n ≤ 0x59) → ¬Claims.Stands s.here q →
       Claims.Traps (.syswr a b k) s 0x04 0 s.cur.word) ∧
     (idx = 0x4000 → writes fun t => t.here.tvec = y) ∧
     (∀ i : Fin 1024, idx = 0x4400 + i.val → writes fun t => sget 0 (t.part s.here.partNo).pft i.val =
       if i.val % 4 = 0 then (y.setWidth 32).setWidth 64 else if i.val % 4 = 3 then 0 else y) ∧
     ((0x4001 ≤ idx ∧ idx ≤ 0x4005) ∨ (∃ q, at' q 0x5A) → exec (.syswr a b k) s = .next w.complete) ∧
     ((∀ v, ¬Claims.SysVal s idx v) → Claims.Traps (.syswr a b k) s 0x01 0 s.cur.word))) ∧
  (∀ s : State, s.cur.sq = .C → s.c.sup = true →
    (let wakes := s.here.trapWaits = true ∨ (s.part s.here.partNo).supq ≠ []
     (wakes → exec .idle s = .next s.complete) ∧ (¬wakes → exec .idle s = .next s))) ∧
  (∀ (s u : State) (d : Fin 32) (a : SReg) (x : Word) (tr : Trans), s.cur.sq = .C → s.c.sup = true → s.readS a = .ok (x, u) →
    (let q := (s.part s.here.partNo).supq
     (x.toNat % 32 ≠ 0 → ∃ det, Claims.Traps (.evrd (.g d) a) s 0x05 x det) ∧
     (x.toNat % 32 = 0 → translate s.here.partNo s.me.rng x.toNat 32 .wr = .ok tr → iaTier tr.ia ≤ 4 → q = [] →
       ∃ t, exec (.evrd (.g d) a) s = .next t ∧ Claims.Result s t d 0 ∧ t.hm = s.hm) ∧
     (∀ e rest w, q = e :: rest → s.storeNow u x.toNat 32 e.bytes = .ok w →
       ∃ t, exec (.evrd (.g d) a) s = .next t ∧ Claims.Result w t d 1 ∧ t.hm.mem = w.hm.mem ∧
         (t.part s.here.partNo).supq = (w.part s.here.partNo).supq.drop 1))) ∧
  (∀ (s u : State) (a : SReg) (x : Word), s.cur.sq = .C → s.c.sup = true → s.readS a = .ok (x, u) →
    (∀ c, Claims.HandleLive s x → s.card? s.here.partNo (x.setWidth 32) = some c → c.phase = .running →
      ∃ t, exec (.preempt a) s = .next t ∧ (∀ r, t.me.rd r = s.me.rd r) ∧
        t.card? s.here.partNo (x.setWidth 32) = some { c with forced := true } ∧ t.hm = s.hm) ∧
    (∀ c, Claims.HandleLive s x → s.card? s.here.partNo (x.setWidth 32) = some c → c.phase ≠ .running →
      exec (.preempt a) s = .next u.complete) ∧
    (Claims.HandleOver s x → exec (.preempt a) s = .next u.complete) ∧
    (¬Claims.HandleOver s x → ¬Claims.HandleLive s x → Claims.Traps (.preempt a) s 0x17 0 s.cur.word)) ∧
  (∀ (s u : State) (a : SReg) (x : Word) (k : Card), s.cur.sq = .C → s.c.sup = true → s.readS a = .ok (x, u) →
    s.cardOn s.cur.core = some k →
    (let stops (t : State) := ∀ q, q ≠ .C → (t.here.seq q).ctxStop = true
     (s.c.image = none → u.here.maySave = false → ∀ i ∈ [Instr.ctxsv a, .ctxld a], ∃ t, exec i s = .next t ∧ stops t ∧ t.me = s.me ∧ t.hm = s.hm) ∧
     let v := s.setHere s.here.ctxStop
     let img := imageBytes s.here.partNo s.here.card (s.depthOf s.cur.core) (v.saveCore s.cur.core k.ox k.oy)
     (∀ pl w, s.c.image = none → s.here.maySave = true → s.storeAsk v x.toNat 4096 img = .ok (pl, w) → w.steppedAt pl img.length = false →
       ∃ t, exec (.ctxsv a) s = .next t ∧ t.c.image = some (pl, x.toNat, img) ∧ t.c.engStop = true ∧ t.hm = w.hm ∧ t.me.pc = w.me.pc ∧
         (stops w → stops t)) ∧
     (∀ pl w y, s.c.image = none → s.here.maySave = true → s.storeAsk v x.toNat 4096 img = .ok (pl, w) → w.steppedAt pl img.length = true →
       s.storePut (u.setHere u.here.ctxStop) pl x.toNat img = .ok y →
       ∃ t, exec (.ctxsv a) s = .next t ∧ t.c.engStop = true ∧ t.hm = y.hm ∧ t.hst = y.hst ∧ ∀ r, t.me.rd r = y.me.rd r) ∧
     (∀ pl va bs w, s.c.image = some (pl, va, bs) → s.storePut u pl va bs = .ok w →
       ∃ t, exec (.ctxsv a) s = .next t ∧ t.c.image = none ∧ t.hm = w.hm ∧ (∀ r, t.me.rd r = w.me.rd r) ∧
         t.me.pc = w.complete.me.pc) ∧
     (∀ bs w y, u.here.maySave = true → s.readRecord u x.toNat 4096 0x34C000 = .ok (bs, w) → w.cardOn s.cur.core = some k →
       w.loadImage s.cur.core k bs = some y →
       ∃ t, exec (.ctxld a) s = .next t ∧ t.c.engStop = true ∧ stops t ∧ t.hm = y.hm ∧ ∀ r, t.me.rd r = y.me.rd r) ∧
     (∀ bs w, u.here.maySave = true → s.readRecord u x.toNat 4096 0x34C000 = .ok (bs, w) → w.cardOn s.cur.core = some k →
       Claims.BadImage s k bs ∨ w.loadImage s.cur.core k bs = none → Claims.Traps (.ctxld a) s 0x17 x s.cur.word)))

namespace Sys2Proof.Claims

/-- The P-words that a card starts with: those of a triggered card are its record's (R50). -/
def startWords (s : State) (c : Card) : List Word :=
  let own := (List.finRange 8).map (CardImg.pword c.img)
  match c.source, s.recordFor c with
  | .trigger n _, some r =>
    match s.watch? n with
    | some w => [BitVec.ofNat 64 r.gia, r.old, r.new, r.count.setWidth 64, r.seq.setWidth 64, w.tw[0], w.tw[1], w.tw[2]]
    | none => own
  | _, _ => own

/-- A core at the start of a card of a rectangle's corner (ox, oy) (R28). -/
structure Started (t : State) (c : Card) (ws : List Word) (ox oy : Nat) (id : CoreId) : Prop where
  card  : (t.core id).card = c.handle
  entry : ∀ q, (t.seq id q).done = decide (CardImg.entry c.img q = 0xFFFF) ∧
    (CardImg.entry c.img q ≠ 0xFFFF → (t.seq id q).pc = CardImg.code c.img + BitVec.ofNat 64 (8 * CardImg.entry c.img q))
  words : ∀ (q : SeqId) (n : Fin 8), (t.seq id q).rd (Fin.ofNat 32 (n.val + 1)) = ws.getD n.val 0
  place : ∀ q : SeqId, (t.seq id q).rd 9 = BitVec.ofNat 64 (id.val % 32 - ox) ∧
    (t.seq id q).rd 10 = BitVec.ofNat 64 (id.val / 32 - oy) ∧ (t.seq id q).rd 11 = BitVec.ofNat 64 (2 ^ CardImg.wlog c.img) ∧
    (t.seq id q).rd 12 = BitVec.ofNat 64 (2 ^ CardImg.hlog c.img) ∧ (t.seq id q).rd 13 = c.handle.setWidth 64
  zero  : ∀ (q : SeqId) (n : Fin 32), 13 < n.val → (t.seq id q).rd n = 0
  rng   : ∀ q, (t.seq id q).rng = c.rng
  fpcs  : ∀ q, (t.seq id q).fpcs = 0
  count : ∀ q, (t.seq id q).loads = [] ∧ (t.seq id q).stores = [] ∧ (t.seq id q).cmds = [] ∧ (t.seq id q).repc = 0
  token : (t.core id).tokens = Vector.replicate 8 0
  queue : ∀ n : Fin 8, (t.core id).queues[n.val].msgs = []
  user  : (t.core id).c.uevEn = false ∧ (t.core id).c.uevq = []

end Sys2Proof.Claims

/-- The scheduler takes cards, starts them on free rectangles, pre-empts, resumes and completes them, and releases
replays. A card taken from a queue enters with the queue's handle (a new one from a host queue), eligible when it
awaits no predecessor; one that breaks a check is refused, and of one whose handle no longer lives nothing is left. A
host-queue card has the function's ranges of this moment (the model's choice, log 59). The card whose turn it is
starts at a free position with every register of every core as R28 says. A waiting card past the aging limit rises. A
card to be pre-empted is saved core by core and its cores are free; it resumes with the saved state. A finished card
stores its completion word, lowers its successors, frees its cores and ends its handle. A held replay that may be
released puts its cards into its queue; the end of a rate window clears its count (R27, R28, R36 to R41, R50, R277,
R341). -/
def Obligations.SchedulerEvents : Prop :=
  (∀ (s : State) (p : Fin 32) (q : Nat) (d : DevQueue) (h : Handle) (i : CardImg) (rng : RangeSet) (rest : List (Handle × CardImg × RangeSet)),
    (s.part p).devqs[q]? = some d → d.cards = (h, i, rng) :: rest → s.card? p h = none →
    (let live := ((s.part p).slot (handleSlot h)).use = .live ∧ ((s.part p).slot (handleSlot h)).serial = handleSerial h
     (¬live → ∃ t, exec (.cardQueueTake (.dev p q)) s = .next t ∧
      (t.part p).devqs[q]? = some { d with cards := rest, head := d.head + 1 } ∧ t.sch = s.sch ∧ t.hm = s.hm) ∧
     (live → ∃ t c, exec (.cardQueueTake (.dev p q)) s = .next t ∧
       (t.part p).devqs[q]? = some { d with cards := rest, head := d.head + 1 } ∧
      t.card? p h = some c ∧ c.img = i ∧ c.rng = rng ∧ c.dep = CardImg.dep i ∧ t.hm.lm = s.hm.lm ∧
      (s.cardFault p i = none → c.phase = .waiting ∧ c.arrival = if CardImg.dep i = 0 then some s.clock else none) ∧
      (s.cardFault p i ≠ none → c.phase = .refused)))) ∧
  (∀ (s t u : State) (v : Fin 1024) (p : Fin 32) (i : CardImg) (h : Handle), (s.vf v).part = some p → (s.vf v).qhead ≠ (s.vf v).qtail →
    s.readSlot ((s.vf v).qring + 128 * ((s.vf v).qhead.toNat % 2 ^ (s.vf v).qlog)) = some (.ok (i, t)) → t.cardFault p i = none →
    t.newHandle p = some (h, u) → t.card? p h = none →
    ∃ w c, exec (.cardQueueTake (.host v)) s = .next w ∧ (w.vf v).qhead = (t.vf v).qhead + 1 ∧ w.card? p h = some c ∧ c.img = i ∧
      c.phase = .waiting ∧ c.rng = (s.vf v).rng ∧ w.hm = t.hm) ∧
  (∀ (s : State) (v : Fin 1024), (s.vf v).part = none ∨ (s.vf v).qhead = (s.vf v).qtail → exec (.cardQueueTake (.host v)) s = .next s) ∧
  (∀ (s : State) (p : Fin 32) (x : Fin 32) (y : Fin 8) (c : Card), s.pick p (s.seekers p) = .place c →
    s.card? p c.handle = some c → CardImg.wlog c.img ≤ 5 → CardImg.hlog c.img ≤ 3 →
    (c.phase = .waiting → s.hst.pstate = 0 → s.placeableAt p c (x.val, y.val) = true →
      ∃ t d, exec (.cardPlacement p x y) s = .next t ∧ t.card? p c.handle = some d ∧ d.phase = .running ∧ d.ox = x.val ∧ d.oy = y.val ∧
        t.hm = s.hm ∧
        (∀ id ∈ rectCores x.val y.val (2 ^ CardImg.wlog c.img) (2 ^ CardImg.hlog c.img),
          Claims.Started t c (Claims.startWords s c) x.val y.val id) ∧
        (∀ id, id ∉ rectCores x.val y.val (2 ^ CardImg.wlog c.img) (2 ^ CardImg.hlog c.img) → t.core id = s.core id)) ∧
    (c.phase ≠ .waiting ∨ s.hst.pstate ≠ 0 ∨ s.placeableAt p c (x.val, y.val) = false → exec (.cardPlacement p x y) s = .next s)) ∧
  (∀ (s : State) (p : Fin 32) (h : Handle) (c : Card), s.card? p h = some c →
    (c.phase = .preempted ∨ (c.phase = .waiting ∧ c.arrival ≠ none) → ∃ t, exec (.agingLimitExpiry p h) s = .next t ∧ t.card? p h =
      some { c with hold := true, aged := if c.phase = .waiting then min 2 (c.aged + 1) else c.aged } ∧ t.hm = s.hm) ∧
    (c.phase ≠ .preempted ∧ (c.phase = .waiting → c.arrival = none) → exec (.agingLimitExpiry p h) s = .next s)) ∧
  (∀ (s : State) (p : Fin 32) (h : Handle) (c : Card), s.card? p h = some c →
    (c.phase = .running → c.forced = true ∨ s.chosen p c = true → s.mayPreempt p c = true →
      ∃ t d, exec (.preemption p h) s = .next t ∧ t.card? p h = some d ∧ d.phase = .preempted ∧ d.saved.length = c.cores.length ∧
        (∀ id ∈ c.cores, (t.core id).card = 0) ∧ t.hm = s.hm ∧
        ∀ (i : Nat) (id : CoreId), c.cores[i]? = some id → ∃ x, d.saved[i]? = some x ∧
          (∀ q r, (x.core.seq q).rd r = (s.seq id q).rd r) ∧ (∀ q, (x.core.seq q).pc = (s.seq id q).pc) ∧
          ∀ o < 2 ^ 21, Memory.get x.lm o = Memory.get s.hm.lm (id.val * 2 ^ 21 + o)) ∧
    (c.phase ≠ .running → exec (.preemption p h) s = .next s)) ∧
  (∀ (s : State) (p : Fin 32) (x : Fin 32) (y : Fin 8) (c : Card), s.pick p (s.seekers p) = .place c →
    s.card? p c.handle = some c →
    (c.phase = .preempted → s.placeableAt p c (x.val, y.val) = true → (c.saved.map fun k => (k.x, k.y)).Nodup →
      ∃ t d, exec (.cardResume p x y) s = .next t ∧ t.card? p c.handle = some d ∧ d.phase = .running ∧ d.saved = [] ∧ d.ox = x.val ∧
        d.oy = y.val ∧ t.hm.mem = s.hm.mem ∧
        ∀ k ∈ c.saved, ∀ id : CoreId, id.val % 32 = x.val + k.x → id.val / 32 = y.val + k.y → (s.core id).c.sup = false →
          (t.core id).card = c.handle ∧ ∀ q, (∀ r, (t.seq id q).rd r = (k.core.seq q).rd r) ∧ (t.seq id q).pc = (k.core.seq q).pc) ∧
    (c.phase ≠ .preempted ∨ s.placeableAt p c (x.val, y.val) = false → exec (.cardResume p x y) s = .next s)) ∧
  (∀ (s : State) (p : Fin 32) (h : Handle) (c : Card), s.card? p h = some c → c.handle = h →
    (s.finished c = true → c.replay = none → s.sch.watches = [] →
      (let a := (CardImg.cwaddr c.img).toNat
       (CardImg.cact c.img % 2 = 0 ∨ (a % 8 = 0 ∧ iaTier a ≤ 4 ∧ s.anyDown a 8 = false ∧ Claims.Sound s ∧ s.isStepped a = false ∧
         ∃ k, s.confirm a true = .ok k ∧ ∀ i < 8, s.rowAt (a + i) = none) →
       ∃ t, exec (.cardCompletion p h) s = .next t ∧ t.card? p h = none ∧ (∀ id ∈ c.cores, (t.core id).card = 0) ∧
         (t.part p).slot (handleSlot h) = ⟨handleSerial h, .completed⟩ ∧ t.hm.lm = s.hm.lm ∧
         (CardImg.cact c.img % 2 = 0 → t.hm.mem = s.hm.mem) ∧
         (∀ k, CardImg.cact c.img % 2 = 1 → s.confirm a true = .ok k → ∀ j, Memory.get t.hm.mem j =
           if k.memKey a ≤ j ∧ j < k.memKey a + 8 then (leBytes 8 (CardImg.cwval c.img).toNat).getD (j - k.memKey a) 0
           else Memory.get s.hm.mem j) ∧
         (∀ d, CardImg.succ c.img 0 ≠ 0 → CardImg.succ c.img 0 ≠ h → CardImg.succ c.img 1 ≠ CardImg.succ c.img 0 →
           s.card? p (CardImg.succ c.img 0) = some d → d.dep ≠ 0 →
           ∃ e, t.card? p (CardImg.succ c.img 0) = some e ∧ e.dep = d.dep - 1)))) ∧
    (s.finished c = false → exec (.cardCompletion p h) s = .next s)) ∧
  (∀ (s : State) (p : Fin 32) (h : Handle) (r : Replay), (s.sch.replays.find? fun e => e.1 = p && e.2.handle = h) = some (p, r) →
    (r.held = true → mayRelease r (s.replaysOf p r.object) = false → exec (.graphReplayRelease p h) s = .next s) ∧
    (∀ hs u d, r.held = true → mayRelease r (s.replaysOf p r.object) = true → s.handlesFor p r.cards.length = some (hs, u) →
      (s.part p).devqs[r.queue]? = some d → d.cards.length + r.cards.length ≤ 2 ^ d.sizeLog →
      ∃ t, exec (.graphReplayRelease p h) s = .next t ∧ t.hm = s.hm ∧ ∃ k, (t.part p).devqs[r.queue]? = some k ∧
        k.cards = d.cards ++ (hs.zip r.cards).map fun e =>
          (e.1, replayImg r (if r.rent then freeArea r (s.replaysOf p r.object) else none) hs e.2, r.rng))) ∧
  (∀ (s : State) (n : Nat) (w : Watch), s.watch? n = some w →
    ∃ t, exec (.rateWindowExpiry n) s = .next t ∧ t.watch? n = some { w with window := 0 } ∧ t.hm = s.hm)

/-- A step boundary writes the buffered writes of its step in key order under the region's rule, and begins the next
step. Where every member is ready and something awaits it, STEP_BOUNDARY advances the group's step, drops the step's
buffered writes and stores what they come to: the writes of one 8-byte granule resolve to the value of the greatest
key (ORDERED), of the least key (FIRST), to the sum, least or greatest (SUM, MIN, MAX of integers), or to a sole
writer's value (UNIQUE; with more writers the old value stays); a reduction is applied to the old value; a flag rises
by 1. The package is ready when its participants have executed the step and nothing of it is on its way or held by a
release (logs 20, 39). Before every member is heard it asks and writes nothing; a package that is not ready, or a
group that has failed, does nothing (R102, R106 to R110). -/
def Obligations.BoundariesApply : Prop :=
  (∀ (s : State) (g : Fin 16) (n : Nat),
    (s.stepWrites g n).Pairwise (fun x y => OKey.before y.key x.key = false) ∧
    ∀ b, b ∈ s.stepWrites g n ↔ b ∈ s.fab.sbuf ∧ b.group = g ∧ b.step = n) ∧
  (∀ (r : Region) (old v x : Nat) (vs : List Nat),
    (let w := r.elem
     let vals := v :: vs
     r.resolve old [] = old ∧
     (r.rule = 0 → r.resolve old (vs ++ [x]) = x) ∧ (r.rule = 1 → r.resolve old vals = v) ∧
     (r.rule = 2 → r.etype ≠ 2 → (∀ a ∈ vals, a < 2 ^ (8 * w)) → r.resolve old vals = vals.sum % 2 ^ (8 * w)) ∧
     (r.rule = 3 → r.etype ≠ 2 → r.resolve old vals ∈ vals ∧
       ∀ a ∈ vals, elemInt r.etype w (r.resolve old vals) ≤ elemInt r.etype w a) ∧
     (r.rule = 4 → r.etype ≠ 2 → r.resolve old vals ∈ vals ∧
       ∀ a ∈ vals, elemInt r.etype w a ≤ elemInt r.etype w (r.resolve old vals)) ∧
     (r.rule = 5 → r.resolve old [v] = v ∧ r.resolve old (v :: x :: vs) = old))) ∧
  (∀ (s : State) (g : Fin 16) (exp off : Nat) (r : Region) (h : Hit),
    (let gr := s.fab.groups[g.val]
     let n := gr.step
     let ws := s.stepWrites g n
     let old := leNat (s.homeBytes (r.base + off) 8)
     let stores (v : Nat) := ∃ t, exec (.stepBoundary g) s = .next t ∧ t.fab.groups[g.val].step = n + 1 ∧
       t.fab.groups[g.val].heard = [] ∧ (∀ b ∈ t.fab.sbuf, ¬(b.group = g ∧ b.step = n)) ∧
       (∀ k : Fin 16, k ≠ g → t.fab.groups[k.val] = s.fab.groups[k.val]) ∧ t.hm.lm = s.hm.lm ∧
       ∀ k, Memory.get t.hm.mem k = if h.memKey (r.base + off) ≤ k ∧ k < h.memKey (r.base + off) + 8
         then (leBytes 8 v).getD (k - h.memKey (r.base + off)) 0 else Memory.get s.hm.mem k
     gr.joined = true → gr.failed = none → s.stepReady g = true → s.stepAwaited g = true → (∀ m ∈ s.others g, m ∈ gr.heard) →
     Claims.Sound s → s.sch.watches = [] → s.fab.acks = [] → s.hm.out = 0 → s.hm.found = [] →
     (∀ e ∈ s.fab.regions, e.2.group = g → e.2.begins ≠ n + 1 ∧ e.2.untilStep ≠ some n) →
     dget s.fab.regions exp = some r → r.base % 8 = 0 → off % 8 = 0 → ws ≠ [] →
     s.confirm (r.base + off) true = .ok h → (∀ i < 8, s.rowAt (r.base + off + i) = none) →
     (∀ b ∈ ws, b.exp = exp ∧ b.off = off) →
     ((∀ b ∈ ws, b.kind = .plain ∧ b.data.length = 8) → r.elem = 8 →
       stores (r.resolve old (ws.map fun b => leNat b.data))) ∧
     (∀ b op, ws = [b] → b.kind = .rred op true → b.data.length = 8 →
       stores (atomApply op true (BitVec.ofNat 64 old) (BitVec.ofNat 64 (leNat b.data))).toNat) ∧
     (∀ b, ws = [b] → b.kind = .flag → b.data = [] → stores ((old + 1) % 2 ^ 64)))) ∧
  (∀ (s : State) (g : Fin 16),
    (let gr := s.fab.groups[g.val]
     (gr.joined = false ∨ gr.failed ≠ none ∨ s.stepReady g = false ∨ s.stepAwaited g = false → exec (.stepBoundary g) s = .next s) ∧
     (gr.joined = true → gr.failed = none → s.stepReady g = true → s.stepAwaited g = true → (∃ m ∈ s.others g, m ∉ gr.heard) →
       ∃ t, exec (.stepBoundary g) s = .next t ∧ t.fab.groups = s.fab.groups ∧ t.fab.sbuf = s.fab.sbuf ∧ t.hm.mem = s.hm.mem ∧
         t.hm.lm = s.hm.lm ∧ ∀ m ∈ s.unheard g, ∃ d ∈ t.fab.sends, d.dst = m ∧ d.req = .boundary gr.gid gr.step gr.members gr.life)))

/-- Packets are taken, passed on or dropped; requests, replies, resends, timeouts, notices and links act as their
rules say. A packet of the known lives joins the inbox, one of another life is counted, one for another package goes
on over at most 4 hops. A stepped unit is buffered and accepted, or refused whole; a full staging area is answered
with a hint or buffered beside it (log 32). An area of an asynchronous XALL is written to its export and answered when
it is, a contribution to a COLL is kept. A copy of a multicast that passes through opens a merging of its children's
responses, once; each child's first response lowers it (log 34). A boundary request is answered by how far the group
is here and by the lives that members have named (log 39); a reply marks its member heard or its unit accepted. A
refused or late unit is sent again; the fourth timeout, or a new incarnation, makes the peer lost, and a notice or a
lost peer fails the group; a notice also ends the commands that name the lost member, with 0x0A. The eighth failed
attempt of a frame takes its port down, and frames leave it (R102, R114 to R116, R313, R314, R329, R371, R376 to
R380). -/
def Obligations.FabricEvents : Prop :=
  (∀ (s : State) (p : Packet),
    (p.dst = s.fab.pkg → p.dstInc = s.fab.inc → dget s.fab.peers p.src.toNat = some ⟨p.srcInc, (s.peer p.src).lost⟩ →
      exec (.packetReceive p) s = .next { s with fab := { s.fab with inbox := s.fab.inbox ++ [(p.src, p.body)] } }) ∧
    (p.dst = s.fab.pkg → (dget s.fab.peers p.src.toNat = none ∨ (∃ x, dget s.fab.peers p.src.toNat = some x ∧ x.inc = p.srcInc ∧
        p.dstInc ≠ s.fab.inc)) →
      ∃ t, exec (.packetReceive p) s = .next t ∧ t.fab = s.fab ∧ t.hm.mem = s.hm.mem) ∧
    (∀ x, p.dst = s.fab.pkg → dget s.fab.peers p.src.toNat = some x → x.inc ≠ p.srcInc →
      ∃ t, exec (.packetReceive p) s = .next t ∧ t.fab.inbox = s.fab.inbox ∧ (t.peer p.src).lost = true ∧
        ∀ g : Fin 16, s.fab.groups[g.val].joined = true → p.src ∈ s.fab.groups[g.val].members → p.src ∉ s.fab.groups[g.val].gone →
          (t.fab.groups[g.val]).failed ≠ none) ∧
    (p.dst ≠ s.fab.pkg → 3 ≤ p.hop → ∃ t, exec (.packetReceive p) s = .next t ∧ t.fab = s.fab ∧ t.hm.mem = s.hm.mem) ∧
    (∀ w, p.dst ≠ s.fab.pkg → p.hop < 3 → s.route p.dst = w → w.getLsbD 63 = true →
      s.fab.down.getLsbD (w.extractLsb' 0 4).toNat = false → s.fab.uet.getLsbD (w.extractLsb' 0 4).toNat = false →
      ∃ t, exec (.packetReceive p) s = .next t ∧
        t.fab.wire = s.fab.wire ++ [(Fin.ofNat 16 (w.extractLsb' 0 4).toNat, { p with hop := p.hop + 1 })])) ∧
  (∀ (s : State) (src : BitVec 16) (id : Nat) (u : StepUnit) (rest : List (BitVec 16 × PBody)),
    s.fab.inbox = (src, .req id (.stepped u)) :: rest →
    (let v : State := { s with fab := { s.fab with inbox := rest } }
     (v.targetOf src u = none → ∃ w : State, exec .steppedWriteArrival s = .next (w.transmit src (.rep id .refused)) ∧
       w.fab = v.fab ∧ w.hm.mem = s.hm.mem) ∧
     (∀ r b, v.targetOf src u = some r → (u.gid, u.step, unitCmdKey u) ∉ s.fab.full → u.flag = none → (∀ b ∈ s.fab.sbuf, b.key ≠ u.key) →
       v.room r u.data.length = some b →
       ∃ (w : State) (a : PRep), exec .steppedWriteArrival s = .next (w.transmit src (.rep id a)) ∧ w.hm = s.hm ∧
         ((a = .accepted ∧ w.fab.sbuf = s.fab.sbuf ++ [⟨u.exp.toNat, r.group, u.step, u.key, u.off, u.data, u.kind, b, u.depth, []⟩]) ∨
          (b = false ∧ w.fab.sbuf = s.fab.sbuf ∧ ∃ h : BitVec 16, h ≠ 0 ∧ a = .retry h))))) ∧
  (∀ (s : State) (src : BitVec 16) (id : Nat) (m : McCopy) (rest : List (BitVec 16 × PBody)),
    s.fab.inbox = (src, .req id (.copy m)) :: rest →
    (let e := (dget s.fab.mcast m.grp.val).getD ⟨0, []⟩
     let seen := (∃ a ∈ s.fab.acks, a.grp = m.grp ∧ a.step = m.step ∧ a.key = m.key) ∨
       (∃ g, s.localGroup m.gid = some g ∧ m.step < s.fab.groups[g.val].step)
     let kids := (List.finRange 16).filter fun i => e.hdr.getLsbD i.val
     (e.hdr.getLsbD 63 = false ∨ seen → exec .multicastCopy s =
       .next (({ s with fab := { s.fab with inbox := rest } } : State).transmit src (.rep id .accepted))) ∧
     (e.hdr.getLsbD 63 = true → ¬seen → (e.hdr.extractLsb' 56 7).toNat = 127 →
       ∃ t, exec .multicastCopy s = .next t ∧ t.fab.inbox = rest ∧ t.hm.mem = s.hm.mem ∧
         t.fab.acks = s.fab.acks ++ [⟨m.grp, s.localGroup m.gid, m.step, m.key, kids, 0, 0, none, m.depth, kids⟩]))) ∧
  (∀ (s : State) (src : BitVec 16) (id : Nat) (grp : Fin 256) (n : Nat) (key : OKey) (acc : Nat) (ref : Word) (a : Ack),
    s.fab.inbox = [(src, .req id (.resp grp n key acc ref))] → s.fab.acks = [a] → a.grp = grp → a.step = n → a.key = key →
    (let left := a.left.filter fun p => s.neighbour p != src
     (left = a.left → exec .multicastResponse s =
       .next (({ s with fab := { s.fab with inbox := [] } } : State).transmit src (.rep id .accepted))) ∧
     (left ≠ a.left → left ≠ [] → ∃ t, exec .multicastResponse s = .next t ∧ t.fab.inbox = [] ∧ t.hm.mem = s.hm.mem ∧
       t.fab.acks = [{ a with left := left, acc := a.acc + acc, refmap := a.refmap ||| ref }]) ∧
     (left ≠ a.left → left = [] → a.group = none → a.record = none → ∃ t, exec .multicastResponse s = .next t ∧ t.fab.acks = [] ∧
       t.hm.mem = s.hm.mem ∧ ∃ d ∈ t.fab.sends, d.req = .resp grp n key (a.acc + acc) (a.refmap ||| ref)))) ∧
  (∀ (s : State) (src : BitVec 16) (id : Nat) (gid : BitVec 16) (n life : Nat) (ms : List (BitVec 16)) (g : Fin 16),
    s.fab.inbox = [(src, .req id (.boundary gid n ms life))] →
    (∀ k : Fin 16, (s.fab.groups[k.val].joined = true ∧ s.fab.groups[k.val].gid = gid) ↔ k = g) →
    (let gr := s.fab.groups[g.val]
     let same := gr.failed = none ∧ gr.members = ms ∧ src ∈ gr.members ∧ gr.step ≤ n + 1 ∧
       (0 < gr.step → sget 0 gr.lives src.toNat = life)
     let heard (told : Bool) (v : State) := v.fab.groups[g.val] = { gr with lives := sset 0 gr.lives src.toNat life, told := told }
     let answers (r : PRep) (p : State → Prop) := ∃ v : State, exec .peerRequest s = .next (v.transmit src (.rep id r)) ∧ p v ∧
       v.fab.inbox = [] ∧ v.hm = s.hm
     (¬same → answers .otherLife fun v => v.fab.groups = s.fab.groups) ∧
     (same → n < gr.step → answers (.ready gr.life) (heard gr.told)) ∧
     (same → n = gr.step → s.stepReady g = true → answers (.ready gr.life) (heard true)) ∧
     (same → gr.step < n ∨ (n = gr.step ∧ s.stepReady g = false) → answers .notYet (heard gr.told)))) ∧
  (∀ (s : State) (src : BitVec 16) (id : Nat) (r : PRep), s.fab.inbox = [(src, .rep id r)] →
    ((∀ d ∈ s.fab.sends, ¬(d.id = id ∧ d.dst = src)) →
      exec .peerResponse s = .next { s with fab := { s.fab with inbox := [] } }) ∧
    (∀ d (g : Fin 16) gid n ms lf life, s.fab.sends = [d] → d.id = id → d.dst = src → r = .ready life →
      d.req = .boundary gid n ms lf → s.localGroup gid = some g → s.fab.groups[g.val].step = n →
      (0 < n → sget 0 s.fab.groups[g.val].lives src.toNat = life) →
      ∃ t, exec .peerResponse s = .next t ∧ t.fab.sends = [] ∧ src ∈ t.fab.groups[g.val].heard ∧ t.hm = s.hm) ∧
    (∀ d c q stamp x, s.fab.sends = [d] → d.id = id → d.dst = src → r = .accepted → d.core = some (c, q, stamp) →
      (s.seq c q).cmds = [x] → x.stamp = stamp →
      ∃ t y, exec .peerResponse s = .next t ∧ t.fab.sends = [] ∧ (t.seq c q).cmds = [y] ∧
        y.sent = x.sent.map (fun u => if u.id = id then { u with answer := .accepted } else u) ∧ t.hm = s.hm)) ∧
  (∀ (s : State) (d : Send), s.fab.sends = [d] → (∀ m, d.req ≠ .copy m) → (∀ gid p, d.req ≠ .notice gid p) →
    (d.wait = true → d.sends < 16 → ∃ v : State, exec (.retryAfterExpiry d.id) s = .next (v.transmit d.dst (.req d.id d.req)) ∧
      v.fab.sends = [{ d with sends := d.sends + 1, wait := false }] ∧ v.hm = s.hm) ∧
    (d.wait = true → 16 ≤ d.sends → ∃ t, exec (.retryAfterExpiry d.id) s = .next t ∧ t.fab.sends = [] ∧ t.hm = s.hm) ∧
    (d.wait = false → d.timed < 3 → d.sends < 16 →
      ∃ v : State, exec (.requestTimeout d.id) s = .next (v.transmit d.dst (.req d.id d.req)) ∧
        v.fab.sends = [{ d with sends := d.sends + 1, wait := false, timed := d.timed + 1 }] ∧ v.hm.mem = s.hm.mem) ∧
    (d.wait = false → 3 ≤ d.timed →
      ∃ t, exec (.requestTimeout d.id) s = .next t ∧ (t.peer d.dst).lost = true ∧ d ∉ t.fab.sends ∧
        ∀ g : Fin 16, s.fab.groups[g.val].joined = true → d.dst ∈ s.fab.groups[g.val].members → d.dst ∉ s.fab.groups[g.val].gone →
          (t.fab.groups[g.val]).failed ≠ none)) ∧
  (∀ (s : State) (src lost gid : BitVec 16) (id : Nat) (rest : List (BitVec 16 × PBody)) (g : Fin 16),
    s.fab.inbox = (src, .req id (.notice gid lost)) :: rest →
    (∀ k : Fin 16, (s.fab.groups[k.val].joined = true ∧ s.fab.groups[k.val].gid = gid) ↔ k = g) →
    s.fab.groups[g.val].failed = none → lost ∉ s.fab.groups[g.val].gone →
    ∃ t, exec .failureNotice s = .next t ∧ (t.fab.groups[g.val]).failed = some lost ∧ t.fab.inbox = rest ∧
      (∀ b ∈ t.fab.sbuf, b.group ≠ g) ∧
      ∀ c q, ∀ x ∈ (s.seq c q).cmds, ∀ y ∈ (t.seq c q).cmds, lost ≠ s.fab.pkg → (∀ z ∈ (s.seq c q).cmds, z.stamp = x.stamp → z = x) →
        y.stamp = x.stamp → x.op = 0xC1 ∨ x.op = 0xC2 → x.ias.head? = some lost.toNat → x.stat = 0 → y.stat = 0x0A) ∧
  (∀ (s : State) (src : BitVec 16) (id off depth n : Nat) (exp : BitVec 6) (data : List Byte) (r : Region),
    s.fab.inbox = [(src, .req id (.write exp off data depth n))] → (src, exp.toNat, n) ∉ s.fab.areas → s.fab.landing = [] →
    dget s.fab.regions exp.toNat = some r → s.isStepped r.base = false → off + data.length ≤ r.bytes → Claims.Sound s → s.hm.out = 0 →
    (let ws := (List.range data.length).map fun j => (r.base + off + j, data.getD j 0)
     Claims.MayWrite s ws → ∃ t u, exec .peerRequest s = .next t ∧ exec .peerRequest t = .next u ∧ t.hm.mem = s.hm.mem ∧
       Claims.Written s u ws ∧ (src, exp.toNat, n) ∈ u.fab.areas ∧ u.fab.inbox = [])) ∧
  (∀ (s : State) (src : BitVec 16) (id n : Nat) (grp : Fin 256) (data : List Byte),
    s.fab.inbox = [(src, .req id (.contrib grp n data))] → (∀ k ∈ s.fab.contrib, ¬(k.src = src ∧ k.grp = grp ∧ k.n = n)) →
    ∃ t, exec .peerRequest s = .next t ∧ t.fab.contrib = s.fab.contrib ++ [⟨src, grp, n, data⟩] ∧ t.fab.inbox = [] ∧
      t.hm.mem = s.hm.mem) ∧
  (∀ (s : State) (p : Fin 16),
    (let goes (i : Instr) := ∃ t, exec i s = .next t ∧ t.fab.down.getLsbD p.val = true ∧
       (∀ q : Fin 16, q ≠ p → t.fab.down.getLsbD q.val = s.fab.down.getLsbD q.val) ∧ (∀ f ∈ t.fab.wire, f.1 ≠ p)
     let holds := ∃ f ∈ s.fab.wire, f.1 = p
     (s.fab.down.getLsbD p.val = true → exec (.linkDown p) s = .next s ∧ exec (.linkFrameRetry p) s = .next s) ∧
     (s.fab.down.getLsbD p.val = false → goes (.linkDown p)) ∧
     (s.fab.down.getLsbD p.val = false → ¬holds → exec (.linkFrameRetry p) s = .next s) ∧
     (s.fab.down.getLsbD p.val = false → holds → s.fab.tries[p.val] < 7 →
       ∃ t, exec (.linkFrameRetry p) s = .next t ∧ t.hm.mem = s.hm.mem ∧
         t.fab = { s.fab with tries := s.fab.tries.set p.val (s.fab.tries[p.val] + 1) }) ∧
     (s.fab.down.getLsbD p.val = false → holds → 7 ≤ s.fab.tries[p.val] → goes (.linkFrameRetry p))))

/-- The memories replay, retrain, scrub, refresh, halve, write back, migrate and prefetch as their rules say. A failed
attempt of a transfer is counted and sent again; the eighth takes its stack out of service and discards the work of
the partitions with a page there. A stack that retrains serves again, one that does not is dead and no longer out (log
41). A scrub of a good word, of a poisoned page, or of a stack out of service, does nothing; it corrects a word and
reports it once in a window, an uncorrectable one poisons the page that holds it; a word of no page is only set right
(log 41). The oldest captured row (log 56) is released, a report window opened again. A Skerry's counters are halved
after 2^20 lookups. An evicted row becomes absent. A page below the threshold, or in no tracked tier, stays; a pinned,
poisoned or excluded one is only counted; one that moves into HBM is charged. The prefetch engine takes the oldest
layer announced and moves the page of its entry into HBM; with no layer or no entry nothing is fetched (R74, R76, R78,
R79, R354 to R358, R365). -/
def Obligations.ArrayEvents : Prop :=
  (∀ (s : State) (k : Fin 8) (ia : BitVec 52),
    (let home : Fin 17 := Fin.ofNat 17 k.val
     let off := s.hm.out.getLsbD k.val = true ∨ s.hm.dead.getLsbD k.val = true
     (off → ∀ f, exec (.interfaceReplay k f ia) s = .next s) ∧
     (¬off → ∃ t, exec (.interfaceReplay k false ia) s = .next t ∧ t.hm.out = s.hm.out ∧ t.hm.mem = s.hm.mem ∧ t.sch = s.sch ∧
       t.hm.tries[k.val] = 0) ∧
     (¬off → s.hm.tries[k.val] < 6 → ∃ t, exec (.interfaceReplay k true ia) s = .next t ∧ t.hm.out = s.hm.out ∧
       t.hm.mem = s.hm.mem ∧ t.sch = s.sch ∧ t.hm.tries[k.val] = s.hm.tries[k.val] + 1) ∧
     (¬off → 6 ≤ s.hm.tries[k.val] → ∃ t, exec (.interfaceReplay k true ia) s = .next t ∧ t.hm.out.getLsbD k.val = true ∧
       (∀ j, j < 17 → j ≠ k.val → t.hm.out.getLsbD j = s.hm.out.getLsbD j) ∧
       ∀ p ∈ s.partsAt home, ∀ e ∈ t.sch.cards, e.1 ≠ p))) ∧
  (∀ (s : State) (k : Fin 8),
    (s.hm.out.getLsbD k.val = false → ∀ ok, exec (.interfaceRetrain k ok) s = .next s) ∧
    (s.hm.out.getLsbD k.val = true → s.hst.stalled = [] → ∃ t, exec (.interfaceRetrain k true) s = .next t ∧
      t.hm.out.getLsbD k.val = false ∧ (∀ j, j ≠ k.val → t.hm.out.getLsbD j = s.hm.out.getLsbD j) ∧ t.hm.mem = s.hm.mem ∧
      t.hm.ptes = s.hm.ptes ∧ t.sch = s.sch) ∧
    (s.hm.out.getLsbD k.val = true → ∃ t, exec (.interfaceRetrain k false) s = .next t ∧ t.hm.dead.getLsbD k.val = true ∧
      t.hm.out.getLsbD k.val = false)) ∧
  (∀ (s : State) (h : Fin 17) (pa : Nat), h.val = 16 ∨ s.hm.out.getLsbD h.val = true ∨ s.hm.dead.getLsbD h.val = true ∨
      dget s.hm.bad (badKey (h.val * 2 ^ 52 + pa)) = none → exec (.scrub h pa) s = .next s) ∧
  (∀ (s : State) (h : Fin 17) (pa : Nat) (u : Bool), h.val ≠ 16 → s.hm.out.getLsbD h.val = false → s.hm.dead.getLsbD h.val = false →
    dget s.hm.bad (badKey (h.val * 2 ^ 52 + pa)) = some u → s.mappers h pa = [] →
    ∃ t, exec (.scrub h pa) s = .next t ∧ dget t.hm.bad (badKey (h.val * 2 ^ 52 + pa)) = none ∧ t.hm.mem = s.hm.mem) ∧
  (∀ (s : State) (h : Fin 17) (pa : Nat) (u : Bool) (e : PteAt) (rest : List PteAt) (x : Hit), h.val ≠ 16 →
    s.hm.out.getLsbD h.val = false → s.hm.dead.getLsbD h.val = false → dget s.hm.bad (badKey (h.val * 2 ^ 52 + pa)) = some u →
    s.mappers h pa = e :: rest →
    (let ia := e.iaOf pa
     hitOf s.hm.ptes e.home ia e.code = some x →
     (ptePsn x.pte = true → exec (.scrub h pa) s = .next s) ∧
     (ptePsn x.pte = false → u = false → ∃ t, exec (.scrub h pa) s = .next t ∧ t.hm.bad = sdel s.hm.bad (badKey (x.memKey ia)) ∧
       t.hm.mem = s.hm.mem ∧ t.hm.ptes = s.hm.ptes ∧ t.sch = s.sch ∧
       (s.hm.corrWin.getLsbD x.arr.val = true → t.hst = s.hst) ∧
       (s.hm.corrWin.getLsbD x.arr.val = false → ∃ n d, t.hst.posted = s.hst.posted ++
         [(some (iaPart ia), ⟨n, srcHome x.arr, 2, 0, 0, (iaPart ia).val, BitVec.ofNat 64 ia, d⟩)])) ∧
     (ptePsn x.pte = false → u = true → ∀ g, s.hotAt ia = none → s.mappers x.arr (x.phys ia) = [g] → s.pendingAt g = false →
       pteStp g.pte = false → ptePsn g.pte = false → swf 0 s.hm.ptes = true →
       s.rowsIn g.part g.base (pageSize g.code) = [] →
       ∃ t, exec (.scrub h pa) s = .next t ∧ t.hm.mem = s.hm.mem ∧ t.sch = s.sch ∧
         (∀ d ∈ pageHomes g.base (pageSize g.code), pteP (sget 0 s.hm.ptes (pteKey d g.part g.code g.base)) = true →
           ptePsn (sget 0 t.hm.ptes (pteKey d g.part g.code g.base)) = true) ∧
         ∃ n, t.hst.posted = s.hst.posted ++
           [(some g.part, ⟨n, srcHome x.arr, 3, 0, 0, g.part.val, BitVec.ofNat 64 g.base, 0⟩)]))) ∧
  (∀ (s : State) (k : Fin 8),
    ((∀ c ∈ s.hm.capture, c.1 ≠ k) → exec (.rowCaptureRelease k) s = .next s) ∧
    (∀ row rest, s.hm.capture = (k, row) :: rest → ∃ t, exec (.rowCaptureRelease k) s = .next t ∧
      t.hm.capture = rest.filter (fun c => c != (k, row)) ∧ sget 0 t.hm.acts (k.val * 2 ^ 38 + row) = 0 ∧ t.hm.mem = s.hm.mem ∧
      t.cores = s.cores)) ∧
  (∀ (s : State) (h : Fin 17), ∃ t, exec (.correctedMemoryEventWindow h) s = .next t ∧ t.hm.corrWin.getLsbD h.val = false ∧
    (∀ j, j ≠ h.val → t.hm.corrWin.getLsbD j = s.hm.corrWin.getLsbD j) ∧ t.hm.mem = s.hm.mem ∧ t.cores = s.cores) ∧
  (∀ (s : State) (k : Fin 8),
    (s.hm.looks[k.val] < 2 ^ 20 → exec (.sketchHalving k) s = .next s) ∧
    (2 ^ 20 ≤ s.hm.looks[k.val] → swf 0 s.hm.sketch = true → ∃ t, exec (.sketchHalving k) s = .next t ∧ t.hm.looks[k.val] = 0 ∧
      t.hm.mem = s.hm.mem ∧ ∀ n, sget 0 t.hm.sketch n =
        if k.val * 4 * 65536 ≤ n ∧ n < (k.val + 1) * 4 * 65536 then sget 0 s.hm.sketch n / 2 else sget 0 s.hm.sketch n)) ∧
  (∀ (s : State) (p : Fin 32) (id : BitVec 12) (row : Nat),
    (s.hotCopy p id.toNat row = none → exec (.hotRowWriteback p id row) s = .next s) ∧
    (∀ t c, dget (s.part p).tables id.toNat = some t → s.hotCopy p id.toNat row = some c → c.back = true →
      ∃ u, exec (.hotRowWriteback p id row) s = .next u ∧ u.hm.hot = s.hm.hot.filter (fun d => d != c) ∧ u.hm.lm = s.hm.lm ∧
        (c.dirty = false ∨ c.lost = true → u.hm.mem = s.hm.mem)) ∧
    (∀ c, s.hotCopy p id.toNat row = some c → c.back = false → exec (.hotRowWriteback p id row) s = .next s)) ∧
  (∀ (s : State) (p : Fin 32) (ia : BitVec 52),
    (s.movable p ia.toNat = none → exec (.pageMigration p ia) s = .next s) ∧
    (∀ h, s.movable p ia.toNat = some h → h.migrated = false → s.hotPage p h = false → exec (.pageMigration p ia) s = .next s) ∧
    (∀ h, s.movable p ia.toNat = some h → h.migrated = true ∨ s.hotPage p h = true → s.skipsPage p h = true →
      ∃ t, exec (.pageMigration p ia) s = .next t ∧ t.hm.ptes = s.hm.ptes ∧ t.hm.mem = s.hm.mem ∧ t.hm.heat = s.hm.heat) ∧
    (∀ h fs, s.movable p ia.toNat = some h → h.migrated = false → s.hotPage p h = true → s.skipsPage p h = false → Claims.Sound s →
      s.framesFor h.base h.size true = some fs → ∃ t, exec (.pageMigration p ia) s = .next t ∧
        vget (t.part p).charges 0 0 = vget (s.part p).charges 0 0 + h.size ∧ t.hm.lm = s.hm.lm)) ∧
  (∀ (s : State) (p : Fin 32),
    ((s.part p).layers = [] → exec (.prefetchFill p) s = .next s) ∧
    (∀ n rest, (s.part p).layers = n :: rest →
      (∀ i < 256, let e := (s.part p).prefetch i
        ¬(e.dest = 2 ∧ n < e.lyr ∧ e.lyr ≤ n + e.lead)) →
      exec (.prefetchFill p) s = .next (s.setPart p { s.part p with layers := rest })) ∧
    (∀ n rest, (s.part p).layers = n :: rest → Claims.Sound s → ∃ t, exec (.prefetchFill p) s = .next t ∧
      (t.part p).layers = rest ∧ t.hm.lm = s.hm.lm ∧ t.cores = s.cores) ∧
    (∀ n rest (i : Nat) h fs, (s.part p).layers = n :: rest → Claims.Sound s → i < 256 →
      (∀ j < 256, let e := (s.part p).prefetch j
        (e.dest = 2 ∧ n < e.lyr ∧ e.lyr ≤ n + e.lead) ↔ j = i) →
      (let e := (s.part p).prefetch i
       0 < e.len → s.movable p e.base = some h → e.base + e.len ≤ h.base + h.size → h.migrated = false → ptePin h.pte = false →
       s.skipsPage p h = false → s.framesFor h.base h.size true = some fs →
       ∃ t, exec (.prefetchFill p) s = .next t ∧ (t.part p).layers = rest ∧ t.hm.lm = s.hm.lm ∧
         vget (t.part p).charges 0 0 = vget (s.part p).charges 0 0 + h.size)))

namespace Sys2Proof.Claims

/-- The host accesses that wait cannot be performed yet, and none of them is of a function; those that wait for Active are among them. -/
def FreeVf (s : State) (v : Fin 1024) : Prop :=
  (s.hst.pstate = 0 ∨ s.hst.slept ≤ s.hst.stalled.length) ∧ ∀ j ∈ s.hst.stalled, s.hostReady j = false ∧ hostVf j ≠ some v

/-- The state with the number of host accesses that wait for Active, when n wait in all: all of them in Standby, none in Active (R303). -/
def slept (s : State) (n : Nat) : State :=
  { s with hst := { s.hst with slept :=
      if s.hst.pstate = 2 ∧ ∀ e ∈ s.sch.cards, e.2.placed = false then n else if s.hst.pstate = 0 then 0 else s.hst.slept } }

end Sys2Proof.Claims

/-- Host reads and writes act through a function's ranges, and its registers take what is written; order is kept.
Region 0 of a bound function, not behind an earlier access that waits: a read that its ranges and its home admit
returns the bytes, another all ones; a write that they admit stores its bytes and triggers the watch it changes, at
depth 1; one that they do not, or of a stepped page, changes no memory. In Standby, and for a home out of service, an
access waits, and later ones of its function behind it. A new CMD_TAIL hands the commands from HEAD up to it to
firmware, at most the 64 of the ring, the rest stay untaken (log 43); QTAIL is taken where the function is bound;
CQHEAD and EVHEAD are written, and the bytes of the ring and of the registers that the host may write, other bytes of
region 1 ignored (R49, R99, R288, R289, R292, R293, R303, R356). -/
def Obligations.HostAccesses : Prop :=
  (∀ (s : State) (v : Fin 1024) (off : BitVec 48) (n : Nat), v ≠ 0 → Claims.FreeVf s v → s.hst.pstate ≠ 2 →
    (∀ ia, s.hostIa v off.toNat n .rd = some ia → s.anyDown ia n = false → s.confirmAll false ia n = .ok () → Claims.Sound s →
      ∃ t, exec (.hostRead v off n) s = .next t ∧ t.hst.out = s.hst.out ++ [.data v (s.homeBytes ia n)] ∧ t.hm.mem = s.hm.mem ∧
        t.hst.stalled = s.hst.stalled) ∧
    (s.hostIa v off.toNat n .rd = none →
      ∃ t, exec (.hostRead v off n) s = .next t ∧ t.hst.out = s.hst.out ++ [.data v (List.replicate n 0xFF)] ∧
        t.hm.mem = s.hm.mem)) ∧
  (∀ (s : State) (v : Fin 1024) (off : BitVec 48) (bs : List Byte), v ≠ 0 → Claims.FreeVf s v → s.hst.pstate ≠ 2 →
    (∀ ia h, s.hostIa v off.toNat bs.length .wr = some ia → s.anyDown ia bs.length = false → bs.length ∈ [1, 2, 4, 8] →
      ia % bs.length = 0 → s.confirm ia true = .ok h → s.isStepped ia = false → Claims.Sound s → s.sch.watches = [] →
      (∀ i < bs.length, s.rowAt (ia + i) = none) → s.hm.found = [] →
      ∃ t, exec (.hostWrite v off bs) s = .next t ∧ t.hst.stalled = s.hst.stalled ∧ t.hm.lm = s.hm.lm ∧
        ∀ k, Memory.get t.hm.mem k = if h.memKey ia ≤ k ∧ k < h.memKey ia + bs.length then bs.getD (k - h.memKey ia) 0
          else Memory.get s.hm.mem k) ∧
    (∀ ia h n w, s.hostIa v off.toNat bs.length .wr = some ia → s.anyDown ia bs.length = false → bs.length ∈ [1, 2, 4, 8] →
      ia % bs.length = 0 → s.confirm ia true = .ok h → s.isStepped ia = false → Claims.Sound s → s.sch.watches = [(n, w)] →
      (∀ i < 8, s.rowAt (ia / 8 * 8 + i) = none) → s.hm.found = [] →
      (let g := ia / 8 * 8
       let old : Word := BitVec.ofNat 64 (leNat (s.homeBytes g 8))
       let new : Word := BitVec.ofNat 64 (leNat (Claims.patched (s.homeBytes g 8) (ia % 8) bs))
       w.armed = true → w.base ≤ g → g < w.base + w.len →
       ∃ t, exec (.hostWrite v off bs) s = .next t ∧ (old = new → t.sch = s.sch) ∧
         (∀ r, old ≠ new → Claims.pendingFor s n w g = some r → 1 ≤ w.limit → t.sch.watches = s.sch.watches ∧
           t.sch.records = s.sch.records.map fun e => if e.2.entry = n ∧ e.2.seq = r.seq then
             (e.1, { e.2 with new := new, count := if e.2.count = 0xFFFFFFFF then e.2.count else e.2.count + 1,
                              depth := max e.2.depth 1 }) else e) ∧
         (old ≠ new → Claims.pendingFor s n w g = none → 1 ≤ w.limit → (w.rate = 0 ∨ w.window < w.rate) →
           s.sch.records.length < 16384 → (∀ e ∈ s.sch.records, ¬(e.2.entry = n ∧ e.2.seq = w.next)) →
           t.sch.watches = [(n, { w with next := w.next + 1, window := w.window + 1, lostEv := false, armed := !w.once })] ∧
           ∃ hd, t.sch.records = s.sch.records ++ [(w.part, ⟨n, g, old, new, 1, w.next, 1, hd⟩)]))) ∧
    ((s.hostIa v off.toNat bs.length .wr = none ∨ ∃ ia, s.hostIa v off.toNat bs.length .wr = some ia ∧
        s.anyDown ia bs.length = false ∧ s.confirmAll true ia bs.length = .ok () ∧ ∃ i < bs.length, s.isStepped (ia + i) = true) →
      ∃ t, exec (.hostWrite v off bs) s = .next t ∧ t.hm.mem = s.hm.mem ∧ t.hst.stalled = s.hst.stalled)) ∧
  (∀ (s : State) (v : Fin 1024) (off : BitVec 48) (n : Nat) (bs : List Byte) (x : BitVec 32) (o : BitVec 14),
    ∀ i ∈ [Instr.hostRead v off n, .hostWrite v off bs, .cmdTailWrite v x, .qtailWrite v x, .cqheadWrite v x, .evheadWrite v x,
        .region1RegisterWrite v o bs],
      (∀ j ∈ s.hst.stalled, s.hostReady j = false) → (s.hostReady i = false ∨ ∃ j ∈ s.hst.stalled, hostVf j = some v) →
      exec i s = .next (Claims.slept { s with hst := { s.hst with stalled := s.hst.stalled ++ [i] } } (s.hst.stalled.length + 1))) ∧
  (∀ (s : State) (v : Fin 1024) (x : BitVec 32), Claims.FreeVf s v →
    (let f := s.vf v
     let n := min 64 (x - f.head).toNat
     let r := Claims.slept s s.hst.stalled.length
     ((s.vf v).tail = x → exec (.cmdTailWrite v x) s = .next r) ∧
     (f.tail ≠ x → ∃ t es, exec (.cmdTailWrite v x) s = .next t ∧ t.hst.fwq = s.hst.fwq ++ es ∧ es.length = n ∧
       t.vf v = { f with tail := x, head := f.head + BitVec.ofNat 32 n } ∧ t.hm = s.hm ∧
       ∀ (i : Nat) (e : FwEntry), es[i]? = some e →
         e = fwEntry v { f with tail := x } (Memory.read f.ring (64 * ((f.head.toNat + i) % 64)) 64)) ∧
     (f.part ≠ none → exec (.qtailWrite v x) s = .next (r.setVf v { f with qtail := x })) ∧
     (f.part = none → exec (.qtailWrite v x) s = .next r) ∧
     exec (.cqheadWrite v x) s = .next (r.setVf v { f with cqhead := x }) ∧
     exec (.evheadWrite v x) s = .next (r.setVf v { f with evhead := x }))) ∧
  (∀ (s : State) (v : Fin 1024) (off : BitVec 14) (bs : List Byte), Claims.FreeVf s v →
    (let f := s.vf v
     let put (w at' : Nat) (x y : BitVec w) := ∀ i < w / 8, y.extractLsb' (8 * i) 8 =
       if off.toNat ≤ at' + i ∧ at' + i < off.toNat + bs.length then bs.getD (at' + i - off.toNat) 0 else x.extractLsb' (8 * i) 8
     ∃ t, exec (.region1RegisterWrite v off bs) s = .next t ∧ t.hm = s.hm ∧
      { t.vf v with ring := f.ring, tail := f.tail, head := f.head, cqbase := f.cqbase, cqlog := f.cqlog, cqhead := f.cqhead,
                    evhead := f.evhead, qtail := f.qtail } = f ∧
      put 32 0x2000 f.tail (t.vf v).tail ∧ put 64 0x2010 f.cqbase (t.vf v).cqbase ∧ put 8 0x2018 f.cqlog (t.vf v).cqlog ∧
      put 32 0x2020 f.cqhead (t.vf v).cqhead ∧ put 32 0x2028 f.evhead (t.vf v).evhead ∧
      (if f.part = none then (t.vf v).qtail = f.qtail else put 32 0x3018 f.qtail (t.vf v).qtail) ∧
      (let m := if (t.vf v).tail = f.tail then 0 else min 64 ((t.vf v).tail - f.head).toNat
       (t.vf v).head = f.head + BitVec.ofNat 32 m ∧ t.hst.fwq.length = s.hst.fwq.length + m) ∧
      (∀ k < 0x1000, Memory.get (t.vf v).ring k = if off.toNat ≤ k ∧ k < off.toNat + bs.length then bs.getD (k - off.toNat) 0
        else Memory.get f.ring k)))

namespace Sys2Proof.Claims

/-- Firmware executes a command now: it is the oldest one taken from its function, and its completion ring has room. -/
def FwTurn (s : State) (i : Instr) (c : FwCmd) (e : FwEntry) : Prop :=
  s.fwHead c.vf = some e ∧ e.instr = some i ∧ s.cqFull e = false

/-- The command, executed in its turn, completes with a status and a result on a state. -/
def FwDone (s : State) (i : Instr) (c : FwCmd) (st : Nat) (r : Word) (t : State) : Prop :=
  ∀ e, FwTurn s i c e → exec i s = .next (t.completeFw e st r)

/-- The same of a command that has not begun. -/
def FwFirst (s : State) (i : Instr) (c : FwCmd) (st : Nat) (r : Word) (t : State) : Prop :=
  ∀ e, FwTurn s i c e → e.begun = none → exec i s = .next (t.completeFw e st r)

/-- A charge is refused: the refusal is counted at the home of an IA, and nothing else changes. -/
def Refused (s : State) (ia : Nat) (t : State) : Prop :=
  (∀ h, homeOf ia = some h → t = s.countHome .quotaFail h) ∧ (homeOf ia = none → t = s)

/-- A command of VF 0 with its unused words zero. -/
def ByAdmin (c : FwCmd) (unused : List Word) : Prop := c.vf = 0 ∧ ∀ w ∈ unused, w = 0

/-- A command of VF 0, for no partition or for the live one that a non-zero ARG5 names (log 44), or of a bound function for its own. -/
def ByAny (s : State) (c : FwCmd) (unused : List Word) (p : Option (Fin 32)) : Prop :=
  (∀ w ∈ unused, w = 0) ∧ ((c.vf = 0 ∧ c.a5 = 0 ∧ p = none) ∨
    (c.vf = 0 ∧ c.a5 ≠ 0 ∧ ∃ q : Fin 32, p = some q ∧ c.a5.toNat = q.val ∧ (s.part q).live = true) ∨
    (c.vf ≠ 0 ∧ c.a5 = 0 ∧ p ≠ none ∧ (s.vf c.vf).part = p))

/-- A command of a bound function for its own partition, or of VF 0 for the live one that ARG5 names. -/
def ByPart (s : State) (c : FwCmd) (unused : List Word) (p : Fin 32) : Prop :=
  (∀ w ∈ unused, w = 0) ∧ (c.vf = 0 → c.a5.toNat = p.val ∧ (s.part p).live = true) ∧
  (c.vf ≠ 0 → (s.vf c.vf).part = some p ∧ c.a5 = 0)

/-- A memory argument that firmware can read: of the partition, or of tier 4, its homes in service, present and not poisoned. -/
def FwMem (s : State) (p : Option (Fin 32)) (ia : Word) (n : Nat) : Prop :=
  ia.toNat < 2 ^ 52 ∧ ia.toNat % 2 ^ 44 + n ≤ 2 ^ 44 ∧ s.anyDown ia.toNat n = false ∧
  (iaTier ia.toNat = 4 ∨ iaTier ia.toNat ≤ 3 ∧ (∀ q, p = some q → iaPart ia.toNat = q) ∧
    ∀ i < n, lookup s.hm.ptes (ia.toNat + i) ≠ none) ∧
  ∀ i < n, ∀ h, lookup s.hm.ptes (ia.toNat + i) = some h → ptePsn h.pte = false

/-- An output buffer of a command: in tier 4, and for a function mapped in its own partition. -/
def FwOut (s : State) (p : Option (Fin 32)) (ia : Word) (n : Nat) : Prop :=
  ia.toNat < 2 ^ 52 ∧ iaTier ia.toNat = 4 ∧ ia.toNat % 2 ^ 44 + n ≤ 2 ^ 44 ∧
  ∀ q, p = some q → iaPart ia.toNat = q ∧ ∀ i < n, ∃ h, lookup s.hm.ptes (ia.toNat + i) = some h ∧ ptePsn h.pte = false

end Sys2Proof.Claims

/-- Commands execute in queue order and write their records; those of identity, partitions, functions, quotas, groups,
routes and power. A command not at the head of its function's queue, or with a full completion ring, waits. Completing
takes it off the queue and writes TAG, STATUS, phase and RESULT at its slot, at the host physical address of an
unmapped tier-4 offset (log 16), and nothing where CQBASE breaks R292 (log 43). A function that may not issue a
command gets 0x02; which partition VF 0 acts for, and the statuses that the spec gives no case for, are the model's
reading (logs 36, 44). IDENTIFY and GET_CAPS write their blocks; ATTEST spends an index and reports, its measurements
extended from 48 zero bytes and its checks in the model's order (log 7); FW_STAGE stages what verifies. PART_CREATE,
with room for its save pool (log 8), PART_RESET and PART_DESTROY make, empty and remove a partition; VF_BIND and
VF_UNBIND a binding; QUOTA_SET answers the old value. STEPGROUP_JOIN forms a group at step 0 or leaves it; the route
table is loaded whole or not at all (layout: log 18); EVQ_CONFIG and POWER_CAP set theirs, and accesses that came in
Standby wait for Active (R112 to R114, R292 to R303). -/
def Obligations.FirmwareCommands : Prop :=
  (∀ (s : State) (code : Nat) (c : FwCmd) (i : Instr), fwInstr code c = some i →
    (s.fwHead c.vf = none → exec i s = .next s) ∧
    (∀ e, s.fwHead c.vf = some e → e.instr ≠ some i ∨ s.cqFull e = true → exec i s = .next s) ∧
    (c.vf ≠ 0 → code ∈ [0x10, 0x11, 0x12, 0x13, 0x14, 0x15, 0x42, 0x43, 0x51, 0x60] → Claims.FwDone s i c 2 0 s) ∧
    (c.vf ≠ 0 → (s.vf c.vf).part = none → Claims.FwDone s i c 2 0 s)) ∧
  (∀ (s : State) (e : FwEntry), s.cqFull e = true ↔
    ((s.vf e.cmd.vf).cqcount % 2 ^ 32 + 2 ^ 32 - (s.vf e.cmd.vf).cqhead.toNat) % 2 ^ 32 = 2 ^ e.cqlog % 2 ^ 32) ∧
  (∀ (s : State) (e : FwEntry) (st : Nat) (r : Word),
    let t := s.completeFw e st r
    let n := (s.vf e.cmd.vf).cqcount
    let a := e.cqbase.toNat + 16 * (n % 2 ^ e.cqlog)
    t.hst.fwq = s.hst.fwq.erase e ∧ (t.vf e.cmd.vf).cqcount = n + 1 ∧
    (e.cmd.ev = false → iaTier a ≠ 4 ∨ 2 ^ 52 ≤ a ∨ e.cqbase.toNat % 16 ≠ 0 ∨
        (∃ p, (s.vf e.cmd.vf).part = some p ∧ iaPart a ≠ p) → t.hm = s.hm) ∧
    (e.cmd.ev = false → iaTier a = 4 → a < 2 ^ 52 → a % 2 ^ 44 + 16 ≤ 2 ^ 44 → e.cqbase.toNat % 16 = 0 →
      (∀ p, (s.vf e.cmd.vf).part = some p → iaPart a = p) → (∀ i < 16, lookup s.hm.ptes (a + i) = none) →
      s.anyDown a 16 = false → Claims.Sound s → (∀ i < 16, s.rowAt (a + i) = none) →
      t.cores = s.cores ∧ t.sch = s.sch ∧ t.fab = s.fab ∧ t.hm.lm = s.hm.lm ∧
      ∀ k, Memory.get t.hm.mem k = if 16 * 2 ^ 52 + iaOff a ≤ k ∧ k < 16 * 2 ^ 52 + iaOff a + 16
        then (leBytes 4 e.cmd.tag.toNat ++ leBytes 2 st ++ [0] ++ leBytes 1 (1 - n / 2 ^ e.cqlog % 2) ++
          leBytes 8 (if st = 0 then r.toNat else 0)).getD (k - (16 * 2 ^ 52 + iaOff a)) 0
        else Memory.get s.hm.mem k)) ∧
  (∀ (s : State) (c : FwCmd) (p : Option (Fin 32)),
    (Claims.ByAny s c [c.a1, c.a2, c.a3, c.a4] p → Claims.FwOut s p c.a0 64 →
      Claims.FwDone s (.identify c) c 0 0 (s.hostPut c.a0.toNat s.identityBlock) ∧
      Claims.FwDone s (.getCaps c) c 0 0 (s.hostPut c.a0.toNat (leBytes 4 Config.revision.toNat ++ leBytes 4 0 ++ leBytes 8 0x3FF ++
        leBytes 8 0x7FE ++ leBytes 8 ((List.range 8).map Config.skerryBytes).sum ++ List.replicate 32 0))) ∧
    s.identityBlock.length = 64 ∧ s.identityBlock.take 4 = leBytes 2 s.fab.pkg.toNat ++ leBytes 2 s.fab.inc.toNat ∧
    (s.identityBlock.drop 8).take 12 = leBytes 8 Config.serial.toNat ++ leBytes 4 s.hst.fwver.toNat ∧
    (∀ n, n = 0x16C + Config.hssLength → Claims.ByAny s c [c.a3, c.a4] p → Claims.FwOut s p c.a1 n →
      (c.a2.toNat < n → Claims.FwDone s (.attest c) c 7 0 s) ∧
      (n ≤ c.a2.toNat → Config.hssLimit ≤ s.hst.hssIdx → Claims.FwDone s (.attest c) c 0x0B 0 s) ∧
      (n ≤ c.a2.toNat → s.hst.hssIdx < Config.hssLimit → Claims.FwMem s p c.a0 48 → Claims.Sound s → ∃ (rep : List Byte) (u : State),
        u = s.heatUp c.a0.toNat ∧
        rep = ({ u with hst := { u.hst with hssIdx := s.hst.hssIdx + 1 } } : State).report (s.hostBytes c.a0.toNat 48) (s.hst.hssIdx + 1) ∧
        rep.length = n ∧ (rep.drop 8).take 48 = s.hostBytes c.a0.toNat 48 ∧
        (rep.drop 56).take 48 = Sha384.hash (List.replicate 48 0 ++ Sha384.hash Config.romImage) ∧
        Claims.FwDone s (.attest c) c 0 (word n)
          (({ u with hst := { u.hst with hssIdx := s.hst.hssIdx + 1 } } : State).hostPut c.a1.toNat rep)))) ∧
  (∀ (s : State) (c : FwCmd), Claims.ByAdmin c [c.a2, c.a3, c.a4, c.a5] → Claims.FwMem s none c.a0 c.a1.toNat → Claims.Sound s →
    let bs := s.hostBytes c.a0.toNat c.a1.toNat
    let u := s.heatUp c.a0.toNat
    (Config.imageAccepted bs = true → Claims.FwDone s (.fwStage c) c 0 ((Config.imageVersion bs).setWidth 64)
      { u with hst := { u.hst with staged := some bs } }) ∧
    (Config.imageAccepted bs = false → Claims.FwDone s (.fwStage c) c 8 0 u)) ∧
  (∀ (s : State) (c : FwCmd) (p : Fin 32) (mask pq : BitVec 32) (nq sl : Nat), Claims.ByAdmin c [c.a5] → c.a0.toNat = p.val →
      c.a1 = mask.setWidth 64 → mask ≠ 0 → c.a2.toNat = nq + 256 * sl → c.a3 = pq.setWidth 64 → nq ≤ 64 → 4 ≤ sl → sl ≤ 16 →
      inTiers p c.a4 0 2 = true → c.a4.toNat % 8 = 0 →
    ((s.part p).live = true → Claims.FwDone s (.partCreate c) c 9 0 s) ∧
    ((s.part p).live = false → (∃ q ∈ s.sch.parts.toList, q.live = true ∧ q.clusters &&& mask ≠ 0) →
      Claims.FwDone s (.partCreate c) c 5 0 s) ∧
    ((s.part p).live = false → (∀ q ∈ s.sch.parts.toList, q.live = true → q.clusters &&& mask = 0) → s.pqTaken pq = false →
      64 < s.devqsUsed + nq ∨ s.poolRoom mask = false → Claims.FwDone s (.partCreate c) c 7 0 s) ∧
    ((s.part p).live = false → (∀ q ∈ s.sch.parts.toList, q.live = true → q.clusters &&& mask = 0) → s.pqTaken pq = false →
      s.devqsUsed + nq ≤ 64 → s.poolRoom mask = true → ∃ t, Claims.FwDone s (.partCreate c) c 0 0 t ∧ t.hm.mem = s.hm.mem ∧ t.hm.ptes = s.hm.ptes ∧
      (t.part p).live = true ∧ (t.part p).clusters = mask ∧ (t.part p).aging = 1000 ∧ (t.part p).promo = 64 ∧
      (t.part p).migr = 4096 ∧ (t.part p).tables = [] ∧
      (t.part p).devqs = (((List.range 64).filter fun n => !(s.sch.parts.toList.any fun q => q.devqs.any fun d => d.num == n)).take
        nq).map (fun n => ⟨sl, [], 0, 0, n⟩) ∧
      (∀ k < 6, vget (t.part p).quotas k 0 = (if k = 5 then nq * 2 ^ sl else 0) ∧
        vget (t.part p).charges k 0 = if k = 5 then nq * 2 ^ sl else 0) ∧
      (∀ q, q ≠ p → t.part q = s.part q) ∧
      (∀ i : Fin 32, t.sch.pqs[i.val] = if pq.getLsbD i.val = false then s.sch.pqs[i.val] else ⟨some p, []⟩) ∧
      ∀ d : CoreId, (mask.getLsbD (clusterOf d) = false → t.core d = s.core d ∧
          ∀ o < 2 ^ 21, Memory.get t.hm.lm (lmKey d o) = Memory.get s.hm.lm (lmKey d o)) ∧
        (mask.getLsbD (clusterOf d) = true → (t.core d).part = some p ∧ (t.core d).tvec = c.a4 ∧ (t.core d).card = 0 ∧
          ∀ o < 2 ^ 21, Memory.get t.hm.lm (lmKey d o) = 0))) ∧
  (∀ (s : State) (c : FwCmd) (p : Fin 32), Claims.ByAdmin c [c.a1, c.a2, c.a3, c.a4, c.a5] → c.a0.toNat = p.val →
    ((s.part p).live = false → Claims.FwDone s (.partReset c) c 4 0 s ∧ Claims.FwDone s (.partDestroy c) c 4 0 s) ∧
    ((s.part p).live = true → ∃ t, Claims.FwDone s (.partReset c) c 0 0 t ∧ (t.part p).supq = [] ∧ (t.part p).live = true ∧
      (t.part p).tables = (s.part p).tables ∧ t.fab.regions = s.fab.regions ∧ (Claims.Sound s → t.hm.ptes = s.hm.ptes) ∧
      (∀ e ∈ t.sch.cards, e.1 ≠ p) ∧ (∀ e ∈ t.sch.replays, e.1 ≠ p) ∧ (∀ e ∈ t.sch.watches, e.2.part ≠ p) ∧
      (∀ e ∈ t.sch.records, e.1 ≠ p) ∧ ∀ d : CoreId, (s.core d).part = some p → (t.core d).card = 0) ∧
    ((s.part p).live = true → ∃ t, Claims.FwDone s (.partDestroy c) c 0 0 t ∧ t.part p = Partition.absent ∧
      (∀ e ∈ t.hm.ptes, (pteAt e.1 e.2).part ≠ p) ∧ (∀ e ∈ t.fab.regions, e.2.part ≠ p) ∧ (∀ e ∈ t.sch.cards, e.1 ≠ p) ∧
      (∀ h ∈ t.hm.hot, h.part ≠ p) ∧ (∀ v, (t.vf v).part ≠ some p) ∧
      ∀ d : CoreId, (s.part p).clusters.getLsbD (clusterOf d) = true → (t.core d).part = none ∧ (t.core d).card = 0 ∧
        ∀ o < 2 ^ 21, Memory.get t.hm.lm (lmKey d o) = 0)) ∧
  (∀ (s : State) (c : FwCmd) (p : Fin 32) (v : Fin 1024) (sl : Nat), Claims.ByAdmin c [c.a5] → v ≠ 0 → c.a0.toNat = v.val →
      c.a1.toNat = p.val → (s.part p).live = true → c.a4.toNat = sl → 4 ≤ sl → sl ≤ 16 → inTiers p c.a3 0 2 = true →
      c.a3.toNat % 128 = 0 →
    ((s.vf v).part ≠ none → Claims.FwDone s (.vfBind c) c 9 0 s) ∧
    ((s.vf v).part = none → Claims.FwMem s (some p) c.a2 256 → Claims.Sound s →
      let u := s.heatUp c.a2.toNat
      let pt := s.part p
      (vget pt.quotas 5 0 < vget pt.charges 5 0 + 2 ^ sl → Claims.FwDone s (.vfBind c) c 6 0 s) ∧
      (vget pt.charges 5 0 + 2 ^ sl ≤ vget pt.quotas 5 0 → Claims.FwDone s (.vfBind c) c 0 0
        ((u.setPart p { pt with charges := vset pt.charges 5 (vget pt.charges 5 0 + 2 ^ sl) }).setVf v
          { s.vf v with
            part := some p, rng := rangeSet (s.hostBytes c.a2.toNat 256), qring := c.a3.toNat, qlog := sl, qhead := 0, qtail := 0 })))) ∧
  (∀ (s : State) (c : FwCmd) (v : Fin 1024), Claims.ByAdmin c [c.a1, c.a2, c.a3, c.a4, c.a5] → c.a0.toNat = v.val →
    let f := s.vf v
    (f.part = none → Claims.FwDone s (.vfUnbind c) c 4 0 s) ∧
    (∀ p, f.part = some p → f.qhead ≠ f.qtail → Claims.FwDone s (.vfUnbind c) c 5 0 s) ∧
    (∀ p, f.part = some p → f.qhead = f.qtail → Claims.FwDone s (.vfUnbind c) c 0 0
      ((s.setPart p { s.part p with charges := vset (s.part p).charges 5 (vget (s.part p).charges 5 0 - 2 ^ f.qlog) }).setVf v
        { f with part := none, rng := Vector.replicate 16 0, qring := 0, qlog := 0, qhead := 0, qtail := 0 }))) ∧
  (∀ (s : State) (c : FwCmd) (p : Fin 32), Claims.ByAdmin c [c.a3, c.a4, c.a5] → c.a0.toNat = p.val → (s.part p).live = true →
    let pt := s.part p
    let v := c.a2.toNat
    (c.a1.toNat ≤ 5 → Claims.FwDone s (.quotaSet c) c 0 (word (vget pt.quotas c.a1.toNat 0))
      (s.setPart p { pt with quotas := vset pt.quotas c.a1.toNat v })) ∧
    (c.a1 = 6 → 1 ≤ v → v ≤ 65535 → Claims.FwDone s (.quotaSet c) c 0 (word pt.aging) (s.setPart p { pt with aging := v })) ∧
    (c.a1 = 7 → 1 ≤ v → v ≤ 65535 → Claims.FwDone s (.quotaSet c) c 0 (word pt.promo) (s.setPart p { pt with promo := v })) ∧
    (c.a1 = 8 → 1 ≤ v → v < 2 ^ 32 → Claims.FwDone s (.quotaSet c) c 0 (word pt.migr) (s.setPart p { pt with migr := v })) ∧
    (c.a1 = 9 → inTiers p c.a2 0 2 = true → v % 8 = 0 → ∃ t, Claims.FwDone s (.quotaSet c) c 0 pt.tvec t ∧
      t.part p = { pt with tvec := c.a2 } ∧ t.hm = s.hm ∧
      ∀ d : CoreId, t.core d = if (s.core d).part = some p then { s.core d with tvec := c.a2 } else s.core d) ∧
    (9 < c.a1.toNat → Claims.FwDone s (.quotaSet c) c 3 0 s)) ∧
  (∀ (s : State) (c : FwCmd) (g : Fin 16), Claims.ByAdmin c [c.a3, c.a4, c.a5] → c.a0.toNat = g.val → c.a1.toNat < 2 ^ 16 →
    (s.participants g ≠ [] → Claims.FwDone s (.stepgroupJoin c) c 5 0 s) ∧
    (s.participants g = [] → c.a2 = 0 → s.fab.groups[g.val].joined = false → Claims.FwDone s (.stepgroupJoin c) c 4 0 s) ∧
    (s.participants g = [] → c.a2 = 0 → s.fab.groups[g.val].joined = true → ∃ t, Claims.FwDone s (.stepgroupJoin c) c 0 0 t ∧
      (∀ h : Fin 16, t.fab.groups[h.val] = if h = g then Group.absent else s.fab.groups[h.val]) ∧ t.hm = s.hm ∧
      (∀ b ∈ t.fab.sbuf, b.group ≠ g) ∧ t.fab.regions.map (·.1) = s.fab.regions.map (·.1)) ∧
    (∀ n ms, s.participants g = [] → c.a2 ≠ 0 → s.fab.groups[g.val].joined = false →
      (∀ r ∈ s.fab.groups.toList, r.joined = true → r.gid ≠ c.a1.setWidth 16) → Claims.Sound s → Claims.FwMem s none c.a2 2 →
      n = leNat (s.hostBytes c.a2.toNat 2) → 1 ≤ n → n ≤ 1024 → Claims.FwMem s none (c.a2 + 2) (2 * n) →
      ms = (List.range n).map (fun i => BitVec.ofNat 16 (wordAt (s.hostBytes (c.a2 + 2).toNat (2 * n)) (2 * i) 2)) →
      s.fab.pkg ∈ ms → ∃ t, Claims.FwDone s (.stepgroupJoin c) c 0 0 t ∧ t.hm.mem = s.hm.mem ∧ t.cores = s.cores ∧
        t.fab = { s.fab with
          joins := s.fab.joins + 1
          peers := s.fab.peers.map fun e => if ms.contains (BitVec.ofNat 16 e.1) then (e.1, { e.2 with lost := false }) else e
          groups := s.fab.groups.set g.val ⟨true, c.a1.setWidth 16, ms, 0, [], false, none, [], s.fab.joins + 1, [], []⟩ })) ∧
  (∀ (s : State) (c : FwCmd), Claims.ByAdmin c [c.a2, c.a3, c.a4, c.a5] → c.a1.toNat = imgLen → Claims.FwMem s none c.a0 imgLen →
      Claims.Sound s →
    let bs := s.hostBytes c.a0.toNat imgLen
    (imageOk bs = false → Claims.FwDone s (.fabricRoutesLoad c) c 3 0 s) ∧
    (imageOk bs = true → ∃ t, Claims.FwDone s (.fabricRoutesLoad c) c 0 0 t ∧
      ∀ d : BitVec 16, d.toNat < 1024 → t.route d = imgRoute bs d.toNat)) ∧
  (∀ (s : State) (c : FwCmd) (p : Option (Fin 32)) (v : Fin 1024), Claims.ByAny s c [c.a3, c.a4] p → c.a2.bits 63 32 = 0 →
      c.a0.toNat = v.val → c.a1.toNat < 2 ^ 52 → iaTier c.a1.toNat = 4 → (∀ q, p = some q → iaPart c.a1.toNat = q) →
      6 ≤ c.a2.bits 3 0 → c.a2.bits 3 0 ≤ 14 →
    (c.vf ≠ 0 → v ≠ c.vf → Claims.FwDone s (.evqConfig c) c 2 0 s) ∧
    (c.vf = 0 ∨ v = c.vf → s.hst.crit = none → Claims.FwDone s (.evqConfig c) c 0 0 (s.setVf v
      { s.vf v with
        evbase := c.a1.toNat, evlog := c.a2.bits 3 0, evvec := c.a2.bits 15 4, evmask := BitVec.ofNat 16 (c.a2.bits 31 16) }))) ∧
  (∀ (s : State) (c : FwCmd), Claims.ByAdmin c [c.a2, c.a3, c.a4, c.a5] →
    (c.a0.toNat < 600 ∨ 1600 < c.a0.toNat ∨ 2 < c.a1.toNat → Claims.FwDone s (.powerCap c) c 3 0 s) ∧
    (600 ≤ c.a0.toNat → c.a0.toNat ≤ 1600 → c.a1.toNat ≤ 2 → s.hst.stalled = [] → Claims.FwDone s (.powerCap c) c 0 c.a0
      { s with hst := { s.hst with cap := c.a0.toNat, pstate := c.a1.toNat } }) ∧
    (600 ≤ c.a0.toNat → c.a0.toNat ≤ 1600 → 1 ≤ c.a1.toNat → c.a1.toNat ≤ 2 → s.hst.stalled.length ≤ s.hst.slept → ∃ n,
      Claims.FwDone s (.powerCap c) c 0 c.a0
        { s with hst := { s.hst with cap := c.a0.toNat, pstate := c.a1.toNat, slept := n } }))

namespace Sys2Proof.Claims

/-- A run of pages within its limits: 1 to 2^20 aligned pages of a size, in one tier of the partition's tiers 0 to 4. -/
def PagesOk (p : Fin 32) (ia : Word) (code n : Nat) : Prop :=
  code ≤ 9 ∧ 1 ≤ n ∧ n ≤ 2 ^ 20 ∧ inTiers p ia 0 4 = true ∧ ia.toNat % pageSize code = 0 ∧
  iaOff ia.toNat + n * pageSize code ≤ 2 ^ 44

/-- The entry of page i of a run at a home. -/
def entryOf (s : State) (p : Fin 32) (ia : Word) (code i : Nat) (h : Fin 17) : Word :=
  sget 0 s.hm.ptes (pteKey h p code (ia.toNat + i * pageSize code))

/-- What a run's entries become at every home of every page; the entries of other partitions stay, and the bytes of memory. -/
def Pages (s t : State) (p : Fin 32) (ia : Word) (code n : Nat) (P : Nat → Word → Word → Prop) : Prop :=
  (∀ i < n, ∀ h ∈ pageHomes (ia.toNat + i * pageSize code) (pageSize code), P i (entryOf s p ia code i h) (entryOf t p ia code i h)) ∧
  (∀ k, (pteAt k 0).part ≠ p → sget 0 t.hm.ptes k = sget 0 s.hm.ptes k) ∧ t.hm.mem = s.hm.mem ∧ t.hm.lm = s.hm.lm ∧
  t.cores = s.cores

end Sys2Proof.Claims

/-- MEM_MAP, MEM_UNMAP, MEM_SPLIT, MEM_PIN, MEM_PROTECT, PAGE_RESTORE, TABLE_DEFINE, TABLE_DROP, EXPORT_REGION and
REVOKE_REGION. MEM_MAP makes the entries of its pages at every home, with the attributes given, and charges them; an
overlap is 0x09, a breach of the quota 0x06, counted at the home of its IA (logs 30, 40). MEM_UNMAP removes them and
releases the charge, MEM_PIN and MEM_PROTECT set PIN and W; an absent page is 0x04, a stepped one 0x05, and a
confirmed access is awaited (log 45). MEM_SPLIT keeps every byte's place and attributes in pages of the smaller size.
PAGE_RESTORE (0x04 of a page that is not poisoned: log 42) begins, then clears PSN and writes the page from its source
or with zeros. TABLE_DEFINE reads, checks and keeps a descriptor, TABLE_DROP writes dirty rows back and with KEEP
keeps the table. EXPORT_REGION begins at the next step of its group and completes then, while other commands on it
wait (log 19); REVOKE_REGION ends after the present one, and repeated answers as before (log 44) (R61 to R64, R72 to
R77, R104, R113, R296, R363). -/
def Obligations.MemoryCommands : Prop :=
  (∀ (s : State) (c : FwCmd) (p : Fin 32) (code n : Nat), Claims.ByPart s c [c.a4] p → c.a1.bits 63 10 = 0 → code = c.a1.bits 3 0 →
      n = c.a2.toNat → Claims.PagesOk p c.a0 code n →
    let tier := iaTier c.a0.toNat
    let bytes := n * pageSize code
    (c.a1.bit 9 = true → tier = 3) → (tier ≠ 4 → c.a3 = 0) → (tier = 4 → c.a3.toNat % pageSize code = 0 ∧
      c.a3.toNat + bytes ≤ 2 ^ 52) →
    let taken := ∃ e ∈ s.hm.ptes, (pteAt e.1 e.2).part = p ∧ pteP e.2 = true ∧
      overlap (pteAt e.1 e.2).base (pageSize (pteAt e.1 e.2).code) c.a0.toNat bytes = true
    let exceeds := ∃ k, (k = 0 ∧ tier ≤ 2 ∨ k = 2 ∧ tier = 3) ∧ vget (s.part p).quotas k 0 < vget (s.part p).charges k 0 + bytes
    (taken → Claims.FwDone s (.memMap c) c 9 0 s) ∧ (¬taken → exceeds → ∃ t, Claims.FwDone s (.memMap c) c 6 0 t ∧ Claims.Refused s c.a0.toNat t) ∧
    (¬taken → ¬exceeds →
      let frames := s.mapPages p code (mapPte code c.a1) c.a3.toNat ((List.range n).map fun i => c.a0.toNat + i * pageSize code)
      (frames = none → Claims.FwDone s (.memMap c) c 7 0 s) ∧
      (frames ≠ none → ∃ t, Claims.FwDone s (.memMap c) c 0 (word n) t ∧
        (∀ k < 6, vget (t.part p).charges k 0 = vget (s.part p).charges k 0 + if k = 0 ∧ tier ≤ 2 ∨ k = 2 ∧ tier = 3 then bytes else 0) ∧
        Claims.Pages s t p c.a0 code n fun i _ w =>
          pteP w = true ∧ pteW w = c.a1.bit 4 ∧ ptePin w = c.a1.bit 5 ∧ pteQcls w = c.a1.bits 8 6 ∧ pteCmp w = c.a1.bit 9 ∧
          pteStp w = false ∧ ptePsn w = false ∧ pteRaw w = false ∧ w.bits 11 8 = code ∧
          (tier = 4 → pteFrame w = c.a3.toNat + i * pageSize code)))) ∧
  (∀ (s : State) (c : FwCmd) (p : Fin 32) (code n : Nat), code = c.a1.toNat → n = c.a2.toNat →
      Claims.PagesOk p c.a0 code n →
    let r : PageRun := ⟨code, c.a0.toNat, n⟩
    let stepped := s.steppedPage r = true
    (s.pagesPresent r = true → s.exportingIn c.a0.toNat (n * pageSize code) = true →
      (Claims.ByPart s c [c.a3, c.a4] p → exec (.memUnmap c) s = .next s) ∧
      (Claims.ByPart s c [c.a4] p → c.a3.toNat ≤ 1 → exec (.memPin c) s = .next s ∧ exec (.memProtect c) s = .next s)) ∧
    (Claims.ByPart s c [c.a3, c.a4] p → s.exportingIn c.a0.toNat (n * pageSize code) = false →
      (s.pagesPresent r = false → Claims.FwDone s (.memUnmap c) c 4 0 s) ∧
      (s.pagesPresent r = true → stepped → Claims.FwDone s (.memUnmap c) c 5 0 s) ∧
      (s.pagesPresent r = true → ¬stepped → s.pendingIn c.a0.toNat (n * pageSize code) = true → exec (.memUnmap c) s = .next s) ∧
      (s.pagesPresent r = true → ¬stepped → s.pendingIn c.a0.toNat (n * pageSize code) = false →
        ∃ t, Claims.FwDone s (.memUnmap c) c 0 (word n) t ∧ (Claims.Pages s t p c.a0 code n fun _ _ w => w = 0) ∧
          (iaTier c.a0.toNat ≤ 2 → s.hm.uncoded = [] →
            (∀ i < n, c.a0.toNat + i * pageSize code ∉ s.hm.areaPages) →
            (∀ i < n, ∀ h, s.pteOf code (c.a0.toNat + i * pageSize code) = some h → h.migrated = false) →
            ∀ k < 6, vget (t.part p).charges k 0 = if k = 0 then vget (s.part p).charges 0 0 - n * pageSize code
              else vget (s.part p).charges k 0) ∧
          ((∀ i < n, c.a0.toNat + i * pageSize code ∈ s.hm.areaPages) →
            (∀ i < n, ∀ h, s.pteOf code (c.a0.toNat + i * pageSize code) = some h → h.migrated = false) →
            ∀ k < 6, vget (t.part p).charges k 0 = vget (s.part p).charges k 0))) ∧
    (Claims.ByPart s c [c.a4] p → c.a3.toNat ≤ 1 → s.exportingIn c.a0.toNat (n * pageSize code) = false →
      (s.pagesPresent r = false → Claims.FwDone s (.memPin c) c 4 0 s ∧ Claims.FwDone s (.memProtect c) c 4 0 s) ∧
      (s.pagesPresent r = true → stepped → Claims.FwDone s (.memPin c) c 5 0 s ∧
        (c.a3 = 0 → Claims.FwDone s (.memProtect c) c 5 0 s)) ∧
      (s.pagesPresent r = true → ¬stepped → s.pendingIn c.a0.toNat (n * pageSize code) = true → exec (.memPin c) s = .next s) ∧
      (s.pagesPresent r = true → ¬stepped → s.pendingIn c.a0.toNat (n * pageSize code) = false →
        ∃ t, Claims.FwDone s (.memPin c) c 0 0 t ∧ t.sch = s.sch ∧ Claims.Pages s t p c.a0 code n fun _ v w => w = if pteP v then pteSet v 61 (c.a3.bit 0) else v) ∧
      (s.pagesPresent r = true → ¬stepped ∨ c.a3 = 1 →
        (s.pendingIn c.a0.toNat (n * pageSize code) = true → exec (.memProtect c) s = .next s) ∧
        (s.pendingIn c.a0.toNat (n * pageSize code) = false → ∃ t, Claims.FwDone s (.memProtect c) c 0 0 t ∧ t.sch = s.sch ∧
          Claims.Pages s t p c.a0 code n fun _ v w => w = if pteP v then pteSet v 62 (c.a3.bit 0) else v)))) ∧
  (∀ (s : State) (c : FwCmd) (p : Fin 32) (old new : Nat), Claims.ByPart s c [c.a2, c.a3, c.a4] p → c.a1.toNat = old + 16 * new →
      new < old → Claims.PagesOk p c.a0 old 1 →
    (s.pteOf old c.a0.toNat = none → Claims.FwDone s (.memSplit c) c 4 0 s) ∧
    (s.pteOf old c.a0.toNat ≠ none → s.pendingIn c.a0.toNat (pageSize old) = true ∨ s.exportingIn c.a0.toNat (pageSize old) = true →
      exec (.memSplit c) s = .next s) ∧
    (s.pteOf old c.a0.toNat ≠ none → s.pendingIn c.a0.toNat (pageSize old) = false → s.exportingIn c.a0.toNat (pageSize old) = false → ∃ t, Claims.FwDone s (.memSplit c) c 0 (word (pageSize old / pageSize new)) t ∧
      t.hm.mem = s.hm.mem ∧ t.sch = s.sch ∧ t.cores = s.cores ∧
      ∀ ia h, c.a0.toNat ≤ ia → ia < c.a0.toNat + pageSize old → lookup s.hm.ptes ia = some h → h.size = pageSize old →
        pteFrame h.pte + frameBytes (iaTier ia) (pageSize old) ≤ 2 ^ 52 →
        ∃ g, lookup t.hm.ptes ia = some g ∧ g.size = pageSize new ∧ g.memKey ia = h.memKey ia ∧ pteW g.pte = pteW h.pte ∧
          ptePin g.pte = ptePin h.pte ∧ pteStp g.pte = pteStp h.pte ∧ ptePsn g.pte = ptePsn h.pte ∧ pteCmp g.pte = pteCmp h.pte ∧
          pteQcls g.pte = pteQcls h.pte)) ∧
  (∀ (s : State) (c : FwCmd) (p : Fin 32), Claims.ByPart s c [c.a2, c.a3, c.a4] p → inTiers p c.a0 0 4 = true →
    (lookup s.hm.ptes c.a0.toNat = none → Claims.FwDone s (.pageRestore c) c 4 0 s) ∧
    ∀ h, lookup s.hm.ptes c.a0.toNat = some h →
      (ptePsn h.pte = false → Claims.FwDone s (.pageRestore c) c 4 0 s) ∧
      (ptePsn h.pte = true → h.base ≠ c.a0.toNat → Claims.FwDone s (.pageRestore c) c 3 0 s) ∧
      (ptePsn h.pte = true → h.base = c.a0.toNat → ∀ bs,
        (c.a1 = 0 ∧ bs = List.replicate h.size 0 ∨
          c.a1 ≠ 0 ∧ Claims.FwMem s (some p) c.a1 h.size ∧ Claims.Sound s ∧ bs = s.hostBytes c.a1.toNat h.size) →
        (s.pageOut h = true → exec (.pageRestore c) s = .next s) ∧
        (s.pageOut h = false → (s.dropCopies h).freshFrames h = none → Claims.FwDone s (.pageRestore c) c 7 0 s) ∧
        (s.pageOut h = false → (s.dropCopies h).freshFrames h ≠ none →
          (∀ i < h.size, ∃ g, lookup s.hm.ptes (h.base + i) = some g ∧ g.size = h.size) →
          (∀ e, Claims.FwTurn s (.pageRestore c) c e → e.begun = none → exec (.pageRestore c) s = .next (s.beginFw e 0)) ∧
          (∀ e, Claims.FwTurn s (.pageRestore c) c e → e.begun ≠ none → s.pendingIn h.base h.size = true →
            exec (.pageRestore c) s = .next s) ∧
          ∃ t : State, (∀ e, Claims.FwTurn s (.pageRestore c) c e → e.begun ≠ none → s.pendingIn h.base h.size = false →
            exec (.pageRestore c) s = .next (t.completeFw e 0 0)) ∧ t.rawBytes h.base h.size = bs ∧
            ∀ i < h.size, ∃ g, lookup t.hm.ptes (h.base + i) = some g ∧ g.size = h.size ∧ ptePsn g.pte = false))) ∧
  (∀ (s : State) (c : FwCmd) (p : Fin 32), Claims.ByPart s c [c.a2, c.a3, c.a4] p → c.a0.toNat < 4096 →
      Claims.FwMem s (some p) c.a1 64 → Claims.Sound s →
    let bs := s.hostBytes c.a1.toNat 64
    let d := tableOf bs
    (descClean bs = false → Claims.FwDone s (.tableDefine c) c 1 0 s) ∧
    (descClean bs = true → d.ok p = false → Claims.FwDone s (.tableDefine c) c 3 0 s) ∧
    (descClean bs = true → d.ok p = true → dget (s.part p).tables c.a0.toNat ≠ none → Claims.FwDone s (.tableDefine c) c 9 0 s) ∧
    (descClean bs = true → d.ok p = true → dget (s.part p).tables c.a0.toNat = none →
      (d.areaBytes ≠ 0 → vget (s.part p).quotas 1 0 < vget (s.part p).charges 1 0 + d.areaBytes →
        ∃ t, Claims.FwDone s (.tableDefine c) c 6 0 t ∧ t.sch = s.sch ∧ t.fab = s.fab ∧ t.hm.mem = s.hm.mem ∧ t.hm.ptes = s.hm.ptes) ∧
      (d.areaBytes = 0 ∨ vget (s.part p).charges 1 0 + d.areaBytes ≤ vget (s.part p).quotas 1 0 →
        (s.hotAssign p d.areaBytes = none → Claims.FwDone s (.tableDefine c) c 7 0 s) ∧
        (s.hotAssign p d.areaBytes ≠ none → ∃ t ia, Claims.FwDone s (.tableDefine c) c 0 (word ia) t ∧ (d.areaBytes = 0 → ia = 0 ∧ t.hm.ptes = s.hm.ptes) ∧
          (d.areaBytes ≠ 0 → iaTier ia = 0 ∧ iaPart ia = p) ∧ t.hm.mem = s.hm.mem ∧
          vget (t.part p).charges 1 0 = vget (s.part p).charges 1 0 + d.areaBytes ∧
          ∀ i, dget (t.part p).tables i = if i = c.a0.toNat then some { d with hotArea := ia } else dget (s.part p).tables i)))) ∧
  (∀ (s : State) (c : FwCmd) (p : Fin 32), Claims.ByPart s c [c.a2, c.a3, c.a4] p → c.a0.toNat < 4096 → c.a1.toNat ≤ 1 →
    let id := c.a0.toNat
    let dirty := s.hm.hot.filter fun h => h.part = p && h.table = id && h.dirty && !h.lost
    (dget (s.part p).tables id = none → Claims.FwDone s (.tableDrop c) c 4 0 s) ∧
    (∀ d, dget (s.part p).tables id = some d → (∃ h ∈ dirty, s.homeDown (d.rowIa h.row) = true) →
      ∀ e, Claims.FwTurn s (.tableDrop c) c e → exec (.tableDrop c) s = .next s) ∧
    (∀ d, dget (s.part p).tables id = some d → c.a1 = 0 → s.pendingIn d.hotArea d.areaSpan = true →
      exec (.tableDrop c) s = .next s) ∧
    (∀ d, dget (s.part p).tables id = some d → (∀ h ∈ dirty, s.homeDown (d.rowIa h.row) = false) →
      (c.a1 = 0 → s.pendingIn d.hotArea d.areaSpan = false) →
      ∃ t, Claims.FwDone s (.tableDrop c) c 0 (word (dirty.filter fun h => !h.back).length) t ∧
      (c.a1 = 1 → (t.part p).tables = (s.part p).tables ∧ (Claims.Sound s → (∀ h ∈ s.hm.hot, h.lost = false) →
        ∀ h ∈ t.hm.hot, h.part = p → h.table = id → h.dirty = false)) ∧
      (c.a1 = 0 → (∀ h ∈ t.hm.hot, ¬(h.part = p ∧ h.table = id)) ∧
        vget (t.part p).charges 1 0 = vget (s.part p).charges 1 0 - d.areaBytes ∧
        ∀ i, dget (t.part p).tables i = if i = id then none else dget (s.part p).tables i))) ∧
  (∀ (s : State) (c : FwCmd) (p : Fin 32) (g : Fin 16) (e rule et : Nat), Claims.ByPart s c [c.a3, c.a4] p →
      c.a2.toNat = e + 64 * g.val + 1024 * rule + 8192 * et → e < 64 → rule ≤ 5 → et < 8 → (rule = 0 ∨ et ≤ 4) →
      inTiers p c.a0 0 0 = true → c.a0.toNat % 4096 = 0 → c.a1.toNat % 4096 = 0 → 1 ≤ c.a1.toNat → c.a1.toNat ≤ 2 ^ 28 →
      iaOff c.a0.toNat + c.a1.toNat ≤ 2 ^ 44 →
    let gr := s.fab.groups[g.val]
    let b := c.a0.toNat
    let n := c.a1.toNat
    (gr.joined = false → Claims.FwFirst s (.exportRegion c) c 4 0 s) ∧
    (gr.joined = true → (s.exportingIn b n = true ∨ ∃ r, dget s.fab.regions e = some r ∧ s.exporting e r = true) →
      ∀ d, Claims.FwTurn s (.exportRegion c) c d → d.begun = none → exec (.exportRegion c) s = .next s) ∧
    (∀ r, gr.joined = true → dget s.fab.regions e = some r → s.exporting e r = false → s.exportingIn b n = false →
      Claims.FwFirst s (.exportRegion c) c 9 0 s) ∧
    (gr.joined = true → dget s.fab.regions e = none → s.exportingIn b n = false →
      ((∃ i < n / 4096, lookup s.hm.ptes (b + 4096 * i) = none) → Claims.FwFirst s (.exportRegion c) c 4 0 s) ∧
      ((∀ i < n / 4096, lookup s.hm.ptes (b + 4096 * i) ≠ none) →
        ((∃ r ∈ s.fab.regions, overlap r.2.base r.2.bytes b n = true) ∨
          (∃ h ∈ s.pagesOf b n, h.base < b ∨ b + n < h.base + h.size) → Claims.FwFirst s (.exportRegion c) c 9 0 s) ∧
        ((∀ r ∈ s.fab.regions, overlap r.2.base r.2.bytes b n = false) →
          (∀ h ∈ s.pagesOf b n, b ≤ h.base ∧ h.base + h.size ≤ b + n) →
          ((∃ h ∈ s.pagesOf b n, ptePsn h.pte = true) → ∃ t, Claims.FwFirst s (.exportRegion c) c 0x0A 0 t ∧ t.hm = s.hm ∧
            t.fab = s.fab ∧ t.hst.posted.length = s.hst.posted.length + 1) ∧
          ((∀ h ∈ s.pagesOf b n, ptePsn h.pte = false) → ∀ d, Claims.FwTurn s (.exportRegion c) c d → d.begun = none →
            exec (.exportRegion c) s = .next (({ s with fab := { s.fab with
              regions := sput s.fab.regions e ⟨p, b, n, g, rule, et, gr.step + 1, none⟩ } } : State).beginFw d (word gr.step))))))) ∧
  (∀ (s : State) (c : FwCmd) (d : FwEntry) (k : Word), Claims.FwTurn s (.exportRegion c) c d → d.begun = some k →
    (let settled := s.pendingIn c.a0.toNat c.a1.toNat = false ∧ ∀ r, dget s.fab.regions (c.a2.toNat % 64) = some r →
       (let q := s.fab.groups[r.group.val]
        q.joined = false ∨ q.failed ≠ none ∨ r.begins ≤ q.step)
     (settled → exec (.exportRegion c) s = .next (s.completeFw d 0 k)) ∧ (¬settled → exec (.exportRegion c) s = .next s))) ∧
  (∀ (s : State) (c : FwCmd) (p : Fin 32), Claims.ByPart s c [c.a1, c.a2, c.a3, c.a4] p → c.a0.toNat < 64 →
    (dget s.fab.regions c.a0.toNat = none → Claims.FwDone s (.revokeRegion c) c 4 0 s) ∧
    ∀ r, dget s.fab.regions c.a0.toNat = some r →
      (r.part ≠ p → Claims.FwDone s (.revokeRegion c) c 4 0 s) ∧
      (r.part = p → s.exporting c.a0.toNat r = true → exec (.revokeRegion c) s = .next s) ∧
      (r.part = p → s.exporting c.a0.toNat r = false → ∀ n, n = r.untilStep.getD s.fab.groups[r.group.val].step → Claims.FwDone s (.revokeRegion c) c 0 (word n)
        { s with fab := { s.fab with regions := sput s.fab.regions c.a0.toNat { r with untilStep := some n } } }))

/-- A reset brings the package up anew: the next incarnation, the staged image, no partition, no route; what is non-
volatile stays. With an image that the ROM accepts, a reset leaves cores, local memory, page tables, schedulers,
groups, routes and functions as at bring-up, increments the incarnation (65,535 is followed by 1), runs the staged
image and keeps the signature index. A cold reset also clears the counters, the event numbers and, by log 4, the
memory behind the part; a warm one keeps these (log 4), and the part is Active (log 7). At critical temperature the
part resets as by a warm reset, and counts a machine fault that firmware is to report with the partitions lost (log
46). An image that the ROM refuses ends the run by the fault romRefused, the model's choice (log 54) (R116, R300, R302
to R304, R369, R394). -/
def Obligations.Resets : Prop :=
  (∀ s : State, exec (.coldReset false) s = .fault .romRefused ∧ exec (.warmReset false) s = .fault .romRefused) ∧
  (∀ (s : State) (cold : Bool), ∃ t, exec (if cold then .coldReset true else .warmReset true) s = .next t ∧
    t.cores = State.reset.cores ∧ t.sch = State.reset.sch ∧
    t.fab = { State.reset.fab with inc := if s.fab.inc = 65535 then 1 else s.fab.inc + 1 } ∧
    t.hm = { State.reset.hm with mem := t.hm.mem, bad := t.hm.bad, counts := t.hm.counts } ∧
    t.hst.vfs = [] ∧ t.hst.fwq = [] ∧ t.hst.stalled = [] ∧ t.hst.pstate = 0 ∧ t.hst.staged = none ∧
    t.hst.fwver = (s.hst.staged.map Config.imageVersion).getD s.hst.fwver ∧
    t.hst.fwim = (if s.hst.staged = none then s.hst.fwim else s.hst.staged) ∧ t.hst.posted = [] ∧ t.hst.hssIdx = s.hst.hssIdx ∧
    (cold = true → t.hm.counts = [] ∧ t.hm.bad = [] ∧ t.hst.evSeq = [] ∧
      ∀ k, Memory.get t.hm.mem k = if k / 2 ^ 52 = 16 then Memory.get s.hm.mem k else 0) ∧
    (cold = false → t.hm.counts = s.hm.counts ∧ t.hst.evSeq = s.hst.evSeq ∧ t.hm.mem = s.hm.mem)) ∧
  (∀ s : State, ∃ t u, exec (.warmReset true) s = .next t ∧ exec .criticalTemperature s = .next u ∧
    (∃ m : Word, u.hst.crit = some m ∧ ∀ i < 64, m.getLsbD i = (decide (i < 32) && (s.part (Fin.ofNat 32 i)).live)) ∧
    (let n := sget 0 s.hm.counts (cntPackage 8)
     ∀ k, sget 0 u.hm.counts k = if k = cntPackage 8 then (if n.toNat = 2 ^ 32 - 1 then n else n + 1) else sget 0 s.hm.counts k) ∧
    { u with hm := { u.hm with counts := t.hm.counts }, hst := { u.hst with crit := t.hst.crit } } = t)

namespace Sys2Proof.Claims

/-- The move that a step makes, and the state in which it makes it: the head of the agenda, or, where that is empty, of the moves that
the work under way calls for (log 1). -/
def NextMove (s : State) (m : Move) (u : State) : Prop :=
  ∃ rest, (s.agenda = m :: rest ∨ s.agenda = [] ∧ s.standing = m :: rest) ∧ u = { s with agenda := rest }

/-- What a step makes of an instruction's words in a state that holds its base word and length. -/
def Judged (s v : State) (w : Word) (ws : List Word) : Prop :=
  (∀ e, decode w ws = .error e → step s = .next (v.raise v.cur.core v.cur.sq v.me.pc ⟨e.cause, 0, w⟩)) ∧
  (∀ d, decode w ws = .ok d →
    (let k := v.keepRep (w :: ws)
     ((∃ g, d.guard = some g ∧ v.me.waitsFor g.gr.toFin = true) → step s = .next k) ∧
     ((∀ g, d.guard = some g → v.me.waitsFor g.gr.toFin = false) →
       (guardOn v.me d.guard = false → step s = .next k.complete) ∧
       (guardOn v.me d.guard = true →
         ((∃ r ∈ d.instr.regs, v.me.waitsFor r = true) → step s = .next k) ∧
         ((∀ r ∈ d.instr.regs, v.me.waitsFor r = false) → step s = exec d.instr k)))))

end Sys2Proof.Claims

/-- A step executes the instruction that the words at the program counter decode to, or the event at the head of the
agenda. A step makes the move at the head of the agenda, or of the moves that the work under way calls for, which pass
over no sequencer that runs and nothing in flight. When a sequencer that may issue fetches its words and they decode,
no register that the instruction or its guard names waits for a load, and the guard is on, the step is exec of that
instruction in the state after the fetch, with the base word and the length noted; under a REP the words kept at the
first repetition stand for the fetch. With the guard off it only passes the instruction; with a register waiting
nothing is done. A fetch that fails halts or traps, words that do not decode raise the cause of R332. A step of an
event is exec of that event, one of firmware the oldest command of a function (R4, R93, R156, R179, R294, R331, R335).
The agenda and the rounds of standing moves are the model's own (log 1). -/
def Obligations.StepRunsDecoded : Prop :=
  (∀ (s u : State) (c : CoreId) (q : SeqId), Claims.NextMove s (.issue c q) u →
    (let u0 : State := { u with cur := ⟨c, q, 0, 8⟩ }
     let v : State := if q = .C ∧ u0.c.held = true then u0.setC { u0.c with held := false } else u0
     let pc := (u.seq c q).pc
     (u0.mayIssue c q = false → step s = .next u0) ∧
     (u0.mayIssue c q = true → ∀ w ws, v.me.repeated = some (w :: ws) →
       Claims.Judged s { v with cur := ⟨c, q, w, 8 * (ws.length + 1)⟩ } w ws) ∧
     (u0.mayIssue c q = true → (∀ w ws, v.me.repeated ≠ some (w :: ws)) →
      (∀ e, v.fetchWord c q pc.toNat = .error e → step s = .next (v.halt e)) ∧
      (∀ w u1, v.fetchWord c q pc.toNat = .ok (w, u1) →
        (∀ e, decodeLen w = .error e → step s =
          .next (({ u1 with cur := ⟨c, q, w, 8⟩ } : State).raise c q pc ⟨e.cause, 0, w⟩)) ∧
        (∀ n, decodeLen w = .ok n →
          (∀ e, ({ u1 with cur := ⟨c, q, w, n⟩ } : State).fetchWords c q (pc.toNat + 8) (n / 8 - 1) = .error e →
            step s = .next (({ u1 with cur := ⟨c, q, w, n⟩ } : State).halt e)) ∧
          (∀ ws u2, ({ u1 with cur := ⟨c, q, w, n⟩ } : State).fetchWords c q (pc.toNat + 8) (n / 8 - 1) = .ok (ws, u2) →
            Claims.Judged s { u2 with cur := ⟨c, q, w, n⟩ } w ws)))))) ∧
  (∀ (s u : State) (i : Instr), Claims.NextMove s (.occur i) u →
    (encodeFields i = none → step s = exec i u) ∧ (encodeFields i ≠ none → step s = .next u)) ∧
  (∀ (s u : State) (v : Fin 1024), Claims.NextMove s (.firmware v) u →
    (∀ e i, s.fwHead v = some e → e.instr = some i → encodeFields i = none → step s = exec i u) ∧
    (∀ e, s.fwHead v = some e → e.instr = none → s.cqFull e = false → step s = .next (u.completeFw e 1 0))) ∧
  (∀ s : State, s.agenda = [] → s.standing = [] → step s = .next s) ∧
  (∀ (s : State) (c : CoreId) (q : SeqId), (s.core c).card ≠ 0 →
    ((s.seq c q).done = false → (s.seq c q).ctxStop = false → Move.issue c q ∈ s.standing) ∧
    ((s.seq c q).loads ≠ [] → Move.occur (.loadComplete c q) ∈ s.standing) ∧
    ((s.seq c q).stores ≠ [] → Move.occur (.storePerformedAtHome c q) ∈ s.standing) ∧
    ((s.seq c q).atoms ≠ [] → Move.occur (.atomicPerform c) ∈ s.standing) ∧
    (∀ n, n < (s.seq c q).cmds.length → Move.occur (.engineCommandComplete c q n) ∈ s.standing)) ∧
  (∀ (s : State) (e : Fin 32 × Card), e ∈ s.sch.cards → s.finished e.2 = true →
    Move.occur (.cardCompletion e.1 e.2.handle) ∈ s.standing)

/-- Every well-formed instruction decodes from its words, under any guard, and every word that decodes is the encoding
of a well-formed one. The words of a well-formed instruction under any guard, with any words after them, decode to
that guard, the length of those words and the instruction, its operands at every value. Conversely, what words decode
to is well-formed, and its encoding is the words that were read (R154 to R174). -/
def Obligations.DecodeInvertsEncode : Prop :=
  (∀ (i : Instr) (g : Option Guard) (ws : List Word), i.WellFormed →
    decode ((encode g i).headD 0) ((encode g i).tail ++ ws) = .ok ⟨g, 8 * (encode g i).length, i⟩) ∧
  (∀ (w : Word) (ws : List Word) (d : Decoded), decode w ws = .ok d →
    d.instr.WellFormed ∧ w :: ws.take (d.len / 8 - 1) = encode d.guard d.instr ∧ d.len = 8 * (encode d.guard d.instr).length)

namespace Sys2Proof.Claims

/-- The memories are in their canonical form: keys strictly rising, no entry that an unlisted address reads as; those of saved cores lie
within local memory. -/
def MemInv (s : State) : Prop :=
  Memory.wf s.hm.mem = true ∧ Memory.wf s.hm.lm = true ∧
  (∀ e ∈ s.sch.cards, ∀ x ∈ e.2.saved, Memory.wf x.lm = true ∧ ∀ b ∈ x.lm, b.1 < 2 ^ 21) ∧
  ∀ e ∈ s.hst.vfs, Memory.wf e.2.ring = true

end Sys2Proof.Claims

/-- Every step keeps every memory of the machine in its canonical form. From a state in which the memory behind the
homes, the local memories, those of saved cores and the command rings are in canonical form (addresses strictly
rising, no entry equal to what an unlisted address reads as), a step that answers a next state answers one in which
they are (log 4). So equal memories are equal data. -/
def Obligations.StepKeepsMemory : Prop :=
  ∀ s t : State, Claims.MemInv s → step s = .next t → Claims.MemInv t

/-- After reset no partition, card, group, route, table or page exists, every register has its value, and the memories
are canonical. The reset state meets the invariant of the memories. No partition is live, no core belongs to one or
carries a card, no group is joined, every route entry is invalid, no function is bound, nothing is listed in any
memory and no page mapped; the incarnation is 1 and the package Active; general registers, TVEC and FPCS read 0. The
values of registers (log 3), the empty memory (log 4) and the state Active (log 7) are the model's choices (R304). -/
def Obligations.ResetState : Prop :=
  Claims.MemInv State.reset ∧ (∀ p, (State.reset.part p).live = false) ∧
  (∀ c : CoreId, (State.reset.core c).part = none ∧ (State.reset.core c).card = 0 ∧ (State.reset.core c).tvec = 0 ∧
    ∀ q, (State.reset.seq c q).done = true ∧ (State.reset.seq c q).fpcs = 0 ∧ ∀ r : Fin 32, (State.reset.seq c q).g[r.val] = 0) ∧
  (∀ g : Fin 16, State.reset.fab.groups[g.val].joined = false) ∧ (∀ d, State.reset.route d = 0) ∧
  (∀ v, (State.reset.vf v).part = none) ∧ State.reset.hm.mem = [] ∧ State.reset.hm.lm = [] ∧ State.reset.hm.acc = [] ∧
  State.reset.hm.ptes = [] ∧ State.reset.sch.cards = [] ∧ State.reset.fab.inc = 1 ∧ State.reset.hst.pstate = 0

/-- Words that the manual writes out decode to the instructions they stand for. ADD g18, g18, #1 under the guard g9.0;
LDA.n64.dev g20, [g4]; ST.n64 [g20 + 64], g14; LOOPI #100; AMO.add.n64.acqrel.dev g20, [g4], g5; MARK.rel.clu;
VADD.f32 p2, p0, p1; SMXR.l g20, a1, g5; LAUNCH g21, g20, #2; ERET; and opcode 0x00 decodes to nothing. -/
def Obligations.DecodeWords : Prop :=
  decode 0x0000202503F49210 [] = .ok ⟨some ⟨false, 9, 0⟩, 8, .add (.g 18) (.g 18) (.imm 1)⟩ ∧
  decode 0x000000000C211432 [] = .ok ⟨none, 8, .lda false .b8 .dev (.g 20) (.g 4) (.imm 0)⟩ ∧
  decode 0x000800000C050E31 [] = .ok ⟨none, 8, .st .b8 false (.g 14) (.g 20) (.imm 64)⟩ ∧
  decode 0x0000600002400108 [] = .ok ⟨none, 8, .loopi false 100 3⟩ ∧
  decode 0x0007C00004511436 [] = .ok ⟨none, 8, .amo .add true false .acqrel .dev (.g 20) (.g 4) (.g 5)⟩ ∧
  decode 0x0000000018000040 [] = .ok ⟨none, 8, .mark .rel .clu⟩ ∧
  decode 0x00000000231C3260 [] = .ok ⟨none, 8, .vadd .f32 (.p 2) (.p 0) (.reg (.p 1))⟩ ∧
  decode 0x00002000005054A6 [] = .ok ⟨none, 8, .smxr .l (.g 20) 1 (.g 5)⟩ ∧
  decode 0x0000400000051550 [] = .ok ⟨none, 8, .launch (.g 21) (.g 20) 2⟩ ∧
  decode 0x00000000000000E2 [] = .ok ⟨none, 8, .eret⟩ ∧
  decode 0 [] = .error .notAssigned
end

