-- ==== Sys2Proof/Laws/Decode.lean ====
section
/-! SUPPORT. What decoding makes of an encoder's words: the base word's fields come back, and every operand field,
  code and
form reads as it was written. The per-instruction round trips cite these. -/

namespace Sys2Proof

theorem fieldsOf_wordOf (f : Fields) : fieldsOf (wordOf f) = f := by
  obtain ⟨op, d, a, b, ff, x, ge, gn, gr, gb, imm⟩ := f
  simp (disch := decide) only [fieldsOf, wordOf, BitVec.extractLsb'_append_eq_of_le,
    BitVec.extractLsb'_append_eq_of_add_le, Nat.reduceSub, BitVec.extractLsb'_eq_self, Nat.sub_self]

theorem tailOf_words (t : Tail) (ws : List Word) : tailOf t.x (t.words ++ ws) = .ok t := by
  cases t <;> rfl

theorem decodeGuard_fields (e : Enc) (g : Option Guard) : decodeGuard (e.fields g) = .ok g := by
  cases g with
  | none => rfl
  | some g => obtain ⟨n, r, b⟩ := g; cases n <;> rfl

theorem tail_x_ne (t : Tail) : (t.x == 3) = false := by cases t <;> rfl

theorem tail_len (t : Tail) : lenOfX t.x = 8 * (t.words.length + 1) := by cases t <;> rfl

@[simp] theorem ok_bind {ε α β : Type} (a : α) (f : α → Except ε β) : (Except.ok a >>= f) = f a := rfl

@[simp] theorem ok_map {ε α β : Type} (a : α) (f : α → β) :
    (f <$> (Except.ok a : Except ε α)) = .ok (f a) := rfl

@[simp] theorem ok_pure {ε α : Type} (a : α) : (pure a : Except ε α) = .ok a := rfl

/-- Steps 2, 4 and 5 of R331 on the words of an encoding. -/
theorem decode_enc (e : Enc) (g : Option Guard) (ws : List Word) (i : Instr) (ho : opAssigned e.op.toNat = true)
    (h : decodeGroup (e.fields g) e.tail = .ok i) :
    decode (wordOf (e.fields g)) (e.tail.words ++ ws) = .ok ⟨g, 8 * (e.tail.words.length + 1), i⟩ := by
  have hx : ((e.fields g).x == 3) = false := tail_x_ne e.tail
  have hl : decodeLen (wordOf (e.fields g)) = .ok (8 * (e.tail.words.length + 1)) := by
    unfold decodeLen
    rw [fieldsOf_wordOf, hx]
    simp [Enc.fields, ho, tail_len]
  have ht : tailOf (e.fields g).x (e.tail.words ++ ws) = .ok e.tail := tailOf_words e.tail ws
  simp only [decode, hl, fieldsOf_wordOf, ht, decodeGuard_fields, h, ok_bind, ok_pure]

/-! ### Operand fields and codes -/

theorem toNat_field6 (n : Nat) (h : n < 64) : (BitVec.ofNat 6 n).toNat = n := by simp; omega

@[simp] theorem sreg_num (r : SReg) : sreg r.num = .ok r := by
  cases r with
  | g n => have := toNat_field6 n.val (by omega); simp [SReg.num, sreg, this]
  | q n => have := toNat_field6 (32 + n.val) (by omega); simp [SReg.num, sreg, this]

@[simp] theorem greg_gnum (n : Fin 32) : greg (gnum n) = .ok n := by
  have := toNat_field6 n.val (by omega); simp [gnum, greg, this]

@[simp] theorem vreg_num (r : VR) : vreg r.num = .ok r := by
  cases r with
  | v n => have := toNat_field6 n.val (by omega); simp [VR.num, vreg, this]
  | p n => have := toNat_field6 (48 + n.val) (by omega); simp [VR.num, vreg, this]

@[simp] theorem vonly_num (n : Fin 48) : vonly (VR.num (.v n)) = .ok n := by
  have := toNat_field6 n.val (by omega); simp [VR.num, vonly, this]

@[simp] theorem idx8_num8 (n : Fin 8) : idx8 (num8 n) = .ok n := by
  have := toNat_field6 n.val (by omega); simp [num8, idx8, this]

theorem notB63_iff (f : Fields) (h : f.b ≠ 63#6) : notB63 f = .ok () := by simp [notB63, chk, h]

@[simp] theorem elemTIn_code (s : TSet) (t : ElemT) (h : s.has t = true) : elemTIn s t.code = .ok t := by
  cases s <;> cases t <;> first | rfl | cases h

theorem chk_of {c : Bool} (e : DErr) (h : c = true) : chk c e = .ok () := by subst h; rfl

@[simp] theorem sreg_ne63 (r : SReg) : (r.num = 63#6) = False := by
  cases r with
  | g n => revert n; decide
  | q n => revert n; decide

@[simp] theorem vreg_ne63 (r : VR) : (r.num = 63#6) = False := by
  cases r with
  | v n => revert n; decide
  | p n => revert n; decide

@[simp] theorem condOf_code (c : Cond) : condOf c.code = .ok c := by cases c <;> rfl

@[simp] theorem sizeOf_code (c : Size) : sizeOf' c.code = c := by cases c <;> rfl

@[simp] theorem atomOpOf_code (c : AtomOp) : atomOpOf c.code = .ok c := by cases c <;> rfl

@[simp] theorem scopeOf_code (c : Scope) : scopeOf c.code = c := by cases c <;> rfl

@[simp] theorem orderOf_code (c : Order) : orderOf c.code = c := by cases c <;> rfl

@[simp] theorem markKindOf_code (c : MarkKind) : markKindOf c.code = .ok c := by cases c <;> rfl

@[simp] theorem elemTOf_code (c : ElemT) : elemTOf c.code = .ok c := by cases c <;> rfl

@[simp] theorem redOpOf_code (c : RedOp) : redOpOf c.code = .ok c := by cases c <;> rfl

@[simp] theorem qfmtOf_code (c : QFmt) : qfmtOf c.code = .ok c := by cases c <;> rfl

@[simp] theorem bfmtOf_code (c : BFmt) : bfmtOf c.code = .ok c := by cases c <;> rfl

@[simp] theorem sideOf_code (k : SideReg) : sideOf k.code = .ok k := by cases k <;> rfl

@[simp] theorem zero_zero {n : Nat} : zero (BitVec.ofNat n 0) = .ok () := by simp [zero, chk]

@[simp] theorem chk_true (e : DErr) : chk true e = .ok () := rfl

@[simp] theorem ofFin_ofNat {w n : Nat} (h : n < 2 ^ w) : (BitVec.ofNat w n).toFin = ⟨n, h⟩ := by
  ext; simp [Nat.mod_eq_of_lt h]

@[simp] theorem elemTIn_all (t : ElemT) : elemTIn .all t.code = .ok t := elemTIn_code .all t rfl

@[simp] theorem notFloat_f16 (t : ElemT) (h : t.isFloat = false) : (t = .f16) = False := by
  cases t <;> first
  | (simp; done)
  | cases h

@[simp] theorem notFloat_bf16 (t : ElemT) (h : t.isFloat = false) : (t = .bf16) = False := by
  cases t <;> first
  | (simp; done)
  | cases h

@[simp] theorem zeroExtend5_toNat (n : BitVec 5) : (0#1 ++ n).toNat = n.toNat := by
  have h : (0#1 ++ n).toNat = (0#1).toNat <<< 5 ||| n.toNat := BitVec.toNat_append ..
  rw [h]; simp

@[simp] theorem toNat5_le (n : BitVec 5) : n.toNat ≤ 31 := by omega

@[simp] theorem gnum_toNat (n : Fin 32) : (gnum n).toNat = n.val := toNat_field6 n.val (by omega)

@[simp] theorem atomImm_top (w l : Bool) (o : Order) (s : Scope) : (atomImm w l o s).extractLsb' 7 12 = 0#12 := by
  cases w <;> cases l <;> cases o <;> cases s <;> rfl

@[simp] theorem atomImm_5 (w l : Bool) (o : Order) (s : Scope) : (atomImm w l o s)[5] = true := by
  cases w <;> cases l <;> cases o <;> cases s <;> rfl

@[simp] theorem atomImm_4 (w l : Bool) (o : Order) (s : Scope) : (atomImm w l o s)[4] = w := by
  cases w <;> cases l <;> cases o <;> cases s <;> rfl

@[simp] theorem atomImm_6 (w l : Bool) (o : Order) (s : Scope) : (atomImm w l o s)[6] = l := by
  cases w <;> cases l <;> cases o <;> cases s <;> rfl

@[simp] theorem atomImm_o (w l : Bool) (o : Order) (s : Scope) : (atomImm w l o s).extractLsb' 2 2 = o.code := by
  cases w <;> cases l <;> cases o <;> cases s <;> rfl

@[simp] theorem atomImm_s (w l : Bool) (o : Order) (s : Scope) : (atomImm w l o s).extractLsb' 0 2 = s.code := by
  cases w <;> cases l <;> cases o <;> cases s <;> rfl

@[simp] theorem index8_high (n : Fin 8) : (BitVec.ofNat 19 n.val).extractLsb' 3 16 = 0#16 := by revert n; decide

@[simp] theorem index4_high (n : Fin 4) : (BitVec.ofNat 19 n.val).extractLsb' 2 17 = 0#17 := by revert n; decide

@[simp] theorem index16_high (n : Fin 16) : (BitVec.ofNat 19 n.val).extractLsb' 4 15 = 0#15 := by revert n; decide

@[simp] theorem slot_high (n : Fin 2) : (BitVec.ofNat 6 n.val).extractLsb' 1 5 = 0#5 := by revert n; decide

@[simp] theorem index8_low (n : Fin 8) : Fin.ofNat 8 (n.val % 524288) = n := by revert n; decide

@[simp] theorem index4_low (n : Fin 4) : Fin.ofNat 4 (n.val % 524288) = n := by revert n; decide

@[simp] theorem index16_low (n : Fin 16) : Fin.ofNat 16 (n.val % 524288) = n := by revert n; decide

@[simp] theorem slot_low (n : Fin 2) : Fin.ofNat 2 (n.val % 64) = n := by revert n; decide

@[simp] theorem level9_low (n : Fin 9) : n.val % 524288 = n.val := by omega

@[simp] theorem level6_low (n : Fin 6) : n.val % 524288 = n.val := by omega

@[simp] theorem bit1_get (b : Bool) : (bit1 b)[0] = b := by cases b <;> rfl

@[simp] theorem topkImm_min (h : BitVec 10) (n : BitVec 1) (k : BitVec 7) (m : BitVec 1) : (h ++ n ++ k ++ m)[0] = m[0] := by
  rw [BitVec.getElem_append]; simp

@[simp] theorem topkImm_new (h : BitVec 10) (n : BitVec 1) (k : BitVec 7) (m : BitVec 1) : (h ++ n ++ k ++ m)[8] = n[0] := by
  rw [BitVec.getElem_append]; simp; rw [BitVec.getElem_append]; simp; rw [BitVec.getElem_append]; simp

@[simp] theorem topkImm_k (h : BitVec 10) (n : BitVec 1) (k : BitVec 7) (m : BitVec 1) : (h ++ n ++ k ++ m).extractLsb' 1 7
  = k := by
  simp (disch := decide) only [BitVec.extractLsb'_append_eq_of_le,
    BitVec.extractLsb'_append_eq_of_add_le, BitVec.extractLsb'_eq_self, Nat.sub_self]

@[simp] theorem topkImm_high (h : BitVec 10) (n : BitVec 1) (k : BitVec 7) (m : BitVec 1) : (h ++ n ++ k ++ m).extractLsb' 9 10
  = h := by
  simp (disch := decide) only [BitVec.extractLsb'_append_eq_of_le,
    Nat.reduceSub, BitVec.extractLsb'_eq_self, Nat.sub_self]

@[simp] theorem accessF_sign (x y : BitVec 1) (c : BitVec 2) : (x ++ y ++ c)[2] = y[0] := by
  rw [BitVec.getElem_append]; simp; rw [BitVec.getElem_append]; simp

@[simp] theorem accessF_lm (x y : BitVec 1) (c : BitVec 2) : (x ++ y ++ c)[3] = x[0] := by
  rw [BitVec.getElem_append]; simp; rw [BitVec.getElem_append]; simp

@[simp] theorem accessF_size (x y : BitVec 1) (c : BitVec 2) : (x ++ y ++ c).extractLsb' 0 2 = c :=
  BitVec.extractLsb'_append_eq_right

@[simp] theorem acfg_base (f : Bool) (b : BitVec 10) (r : BitVec 11) (c : BitVec 9) : (acfgWord f b r c).extractLsb' 0
  10 = b := by
  simp (disch := decide) only [acfgWord, BitVec.extractLsb'_append_eq_of_add_le, BitVec.extractLsb'_eq_self]

@[simp] theorem acfg_rows (f : Bool) (b : BitVec 10) (r : BitVec 11) (c : BitVec 9) : (acfgWord f b r c).extractLsb'
  10 11 = r := by
  simp (disch := decide) only [acfgWord, BitVec.extractLsb'_append_eq_of_le,
    BitVec.extractLsb'_append_eq_of_add_le, BitVec.extractLsb'_eq_self, Nat.sub_self]

@[simp] theorem acfg_cols (f : Bool) (b : BitVec 10) (r : BitVec 11) (c : BitVec 9) : (acfgWord f b r c).extractLsb'
  21 9 = c := by
  simp (disch := decide) only [acfgWord, BitVec.extractLsb'_append_eq_of_le,
    BitVec.extractLsb'_append_eq_of_add_le, Nat.reduceSub, BitVec.extractLsb'_eq_self, Nat.sub_self]

@[simp] theorem acfg_f32 (f : Bool) (b : BitVec 10) (r : BitVec 11) (c : BitVec 9) : (acfgWord f b r c)[30] = f := by
  unfold acfgWord; rw [BitVec.getElem_append]; simp; rw [BitVec.getElem_append]; simp; rw [BitVec.getElem_append];
    simp; rw [BitVec.getElem_append]; cases f <;> simp [bit1]

theorem formAlu_enc (mk : SReg → SReg → SB → Instr) (op : BitVec 8) (d a : SReg) (b : SB) (g : Option Guard) :
    formAlu mk ((encAlu op 0 d a b).fields g) (encAlu op 0 d a b).tail = .ok (mk d a b) := by
  cases b <;> simp [formAlu, chk, bit1, Enc.fields, Enc.sb, encAlu, sbChk, sbOf]

theorem formV3_enc (s : TSet) (mk : ElemT → VR → VR → VB → Instr) (op : BitVec 8) (t : ElemT) (d a : VR) (b : VB)
    (g : Option Guard) (ht : s.has t = true) (hb : b.ok t = true) :
    formV3 s mk ((encV3 op t d a b).fields g) (encV3 op t d a b).tail = .ok (mk t d a b) := by
  cases b <;> simp_all [formV3, VB.ok, chk, bit1, Enc.fields, Enc.vb, encV3, vbChk, vbOf]

theorem formV2_enc (s : TSet) (mk : ElemT → VR → VR → Instr) (op : BitVec 8) (t : ElemT) (d a : VR)
    (g : Option Guard) (ht : s.has t = true) :
    formV2 s mk ((encV2 op t d a).fields g) (encV2 op t d a).tail = .ok (mk t d a) := by
  simp [formV2, ht, bit1, Enc.fields, encV2, noTail]

theorem formCmd_enc (ok : Word → Bool) (mk : Bool → Blk → Instr) (op : BitVec 8) (ev : Bool) (b : Blk)
    (g : Option Guard) (hb : ok b.p3 = true) :
    formCmd ok mk ((encCmd op ev b).fields g) (encCmd op ev b).tail = .ok (mk ev b) := by
  cases ev <;> simp [formCmd, hb, chk, bit1, Enc.fields, encCmd, blockOf]

theorem VB.ok_int (t : ElemT) (b : VB) (h : t.isFloat = false) : b.ok t = true := by
  cases b <;> simp [VB.ok, h]

end Sys2Proof
end

