-- ==== Sys2Proof/Laws/State.lean ====
section
/-! SUPPORT. One lemma per field and update of the state: what each accessor and update leaves of every field, so that no
proof unfolds a record update. -/

namespace Sys2Proof.Machine

/-! ### State.setCore -/

@[simp] theorem State.setCore_agenda (s : State) (c : CoreId) (k : Core) : (s.setCore c k).agenda = s.agenda := rfl
@[simp] theorem State.setCore_cur (s : State) (c : CoreId) (k : Core) : (s.setCore c k).cur = s.cur := rfl
@[simp] theorem State.setCore_free (s : State) (c : CoreId) (k : Core) : (s.setCore c k).free = s.free := rfl
@[simp] theorem State.setCore_stamp (s : State) (c : CoreId) (k : Core) : (s.setCore c k).stamp = s.stamp := rfl
@[simp] theorem State.setCore_clock (s : State) (c : CoreId) (k : Core) : (s.setCore c k).clock = s.clock := rfl
@[simp] theorem State.setCore_hm (s : State) (c : CoreId) (k : Core) : (s.setCore c k).hm = s.hm := rfl
@[simp] theorem State.setCore_sch (s : State) (c : CoreId) (k : Core) : (s.setCore c k).sch = s.sch := rfl
@[simp] theorem State.setCore_fab (s : State) (c : CoreId) (k : Core) : (s.setCore c k).fab = s.fab := rfl
@[simp] theorem State.setCore_hst (s : State) (c : CoreId) (k : Core) : (s.setCore c k).hst = s.hst := rfl

/-! ### State.setSeq -/

@[simp] theorem State.setSeq_agenda (s : State) (c : CoreId) (q : SeqId) (x : Seq) : (s.setSeq c q x).agenda = s.agenda := rfl
@[simp] theorem State.setSeq_cur (s : State) (c : CoreId) (q : SeqId) (x : Seq) : (s.setSeq c q x).cur = s.cur := rfl
@[simp] theorem State.setSeq_free (s : State) (c : CoreId) (q : SeqId) (x : Seq) : (s.setSeq c q x).free = s.free := rfl
@[simp] theorem State.setSeq_stamp (s : State) (c : CoreId) (q : SeqId) (x : Seq) : (s.setSeq c q x).stamp = s.stamp := rfl
@[simp] theorem State.setSeq_clock (s : State) (c : CoreId) (q : SeqId) (x : Seq) : (s.setSeq c q x).clock = s.clock := rfl
@[simp] theorem State.setSeq_hm (s : State) (c : CoreId) (q : SeqId) (x : Seq) : (s.setSeq c q x).hm = s.hm := rfl
@[simp] theorem State.setSeq_sch (s : State) (c : CoreId) (q : SeqId) (x : Seq) : (s.setSeq c q x).sch = s.sch := rfl
@[simp] theorem State.setSeq_fab (s : State) (c : CoreId) (q : SeqId) (x : Seq) : (s.setSeq c q x).fab = s.fab := rfl
@[simp] theorem State.setSeq_hst (s : State) (c : CoreId) (q : SeqId) (x : Seq) : (s.setSeq c q x).hst = s.hst := rfl

/-! ### State.setHere -/

@[simp] theorem State.setHere_agenda (s : State) (k : Core) : (s.setHere k).agenda = s.agenda := rfl
@[simp] theorem State.setHere_cur (s : State) (k : Core) : (s.setHere k).cur = s.cur := rfl
@[simp] theorem State.setHere_free (s : State) (k : Core) : (s.setHere k).free = s.free := rfl
@[simp] theorem State.setHere_stamp (s : State) (k : Core) : (s.setHere k).stamp = s.stamp := rfl
@[simp] theorem State.setHere_clock (s : State) (k : Core) : (s.setHere k).clock = s.clock := rfl
@[simp] theorem State.setHere_hm (s : State) (k : Core) : (s.setHere k).hm = s.hm := rfl
@[simp] theorem State.setHere_sch (s : State) (k : Core) : (s.setHere k).sch = s.sch := rfl
@[simp] theorem State.setHere_fab (s : State) (k : Core) : (s.setHere k).fab = s.fab := rfl
@[simp] theorem State.setHere_hst (s : State) (k : Core) : (s.setHere k).hst = s.hst := rfl

/-! ### State.setMe -/

@[simp] theorem State.setMe_agenda (s : State) (x : Seq) : (s.setMe x).agenda = s.agenda := rfl
@[simp] theorem State.setMe_cur (s : State) (x : Seq) : (s.setMe x).cur = s.cur := rfl
@[simp] theorem State.setMe_free (s : State) (x : Seq) : (s.setMe x).free = s.free := rfl
@[simp] theorem State.setMe_stamp (s : State) (x : Seq) : (s.setMe x).stamp = s.stamp := rfl
@[simp] theorem State.setMe_clock (s : State) (x : Seq) : (s.setMe x).clock = s.clock := rfl
@[simp] theorem State.setMe_hm (s : State) (x : Seq) : (s.setMe x).hm = s.hm := rfl
@[simp] theorem State.setMe_sch (s : State) (x : Seq) : (s.setMe x).sch = s.sch := rfl
@[simp] theorem State.setMe_fab (s : State) (x : Seq) : (s.setMe x).fab = s.fab := rfl
@[simp] theorem State.setMe_hst (s : State) (x : Seq) : (s.setMe x).hst = s.hst := rfl

/-! ### State.setC -/

@[simp] theorem State.setC_agenda (s : State) (x : CState) : (s.setC x).agenda = s.agenda := rfl
@[simp] theorem State.setC_cur (s : State) (x : CState) : (s.setC x).cur = s.cur := rfl
@[simp] theorem State.setC_free (s : State) (x : CState) : (s.setC x).free = s.free := rfl
@[simp] theorem State.setC_stamp (s : State) (x : CState) : (s.setC x).stamp = s.stamp := rfl
@[simp] theorem State.setC_clock (s : State) (x : CState) : (s.setC x).clock = s.clock := rfl
@[simp] theorem State.setC_hm (s : State) (x : CState) : (s.setC x).hm = s.hm := rfl
@[simp] theorem State.setC_sch (s : State) (x : CState) : (s.setC x).sch = s.sch := rfl
@[simp] theorem State.setC_fab (s : State) (x : CState) : (s.setC x).fab = s.fab := rfl
@[simp] theorem State.setC_hst (s : State) (x : CState) : (s.setC x).hst = s.hst := rfl

/-! ### State.setX -/

@[simp] theorem State.setX_agenda (s : State) (x : XState) : (s.setX x).agenda = s.agenda := rfl
@[simp] theorem State.setX_cur (s : State) (x : XState) : (s.setX x).cur = s.cur := rfl
@[simp] theorem State.setX_free (s : State) (x : XState) : (s.setX x).free = s.free := rfl
@[simp] theorem State.setX_stamp (s : State) (x : XState) : (s.setX x).stamp = s.stamp := rfl
@[simp] theorem State.setX_clock (s : State) (x : XState) : (s.setX x).clock = s.clock := rfl
@[simp] theorem State.setX_hm (s : State) (x : XState) : (s.setX x).hm = s.hm := rfl
@[simp] theorem State.setX_sch (s : State) (x : XState) : (s.setX x).sch = s.sch := rfl
@[simp] theorem State.setX_fab (s : State) (x : XState) : (s.setX x).fab = s.fab := rfl
@[simp] theorem State.setX_hst (s : State) (x : XState) : (s.setX x).hst = s.hst := rfl

/-! ### State.setPart -/

@[simp] theorem State.setPart_agenda (s : State) (p : Fin 32) (x : Partition) : (s.setPart p x).agenda = s.agenda := rfl
@[simp] theorem State.setPart_cur (s : State) (p : Fin 32) (x : Partition) : (s.setPart p x).cur = s.cur := rfl
@[simp] theorem State.setPart_free (s : State) (p : Fin 32) (x : Partition) : (s.setPart p x).free = s.free := rfl
@[simp] theorem State.setPart_stamp (s : State) (p : Fin 32) (x : Partition) : (s.setPart p x).stamp = s.stamp := rfl
@[simp] theorem State.setPart_clock (s : State) (p : Fin 32) (x : Partition) : (s.setPart p x).clock = s.clock := rfl
@[simp] theorem State.setPart_cores (s : State) (p : Fin 32) (x : Partition) : (s.setPart p x).cores = s.cores := rfl
@[simp] theorem State.setPart_hm (s : State) (p : Fin 32) (x : Partition) : (s.setPart p x).hm = s.hm := rfl
@[simp] theorem State.setPart_fab (s : State) (p : Fin 32) (x : Partition) : (s.setPart p x).fab = s.fab := rfl
@[simp] theorem State.setPart_hst (s : State) (p : Fin 32) (x : Partition) : (s.setPart p x).hst = s.hst := rfl

/-! ### State.setVf -/

@[simp] theorem State.setVf_agenda (s : State) (v : Fin 1024) (x : VFun) : (s.setVf v x).agenda = s.agenda := rfl
@[simp] theorem State.setVf_cur (s : State) (v : Fin 1024) (x : VFun) : (s.setVf v x).cur = s.cur := rfl
@[simp] theorem State.setVf_free (s : State) (v : Fin 1024) (x : VFun) : (s.setVf v x).free = s.free := rfl
@[simp] theorem State.setVf_stamp (s : State) (v : Fin 1024) (x : VFun) : (s.setVf v x).stamp = s.stamp := rfl
@[simp] theorem State.setVf_clock (s : State) (v : Fin 1024) (x : VFun) : (s.setVf v x).clock = s.clock := rfl
@[simp] theorem State.setVf_cores (s : State) (v : Fin 1024) (x : VFun) : (s.setVf v x).cores = s.cores := rfl
@[simp] theorem State.setVf_hm (s : State) (v : Fin 1024) (x : VFun) : (s.setVf v x).hm = s.hm := rfl
@[simp] theorem State.setVf_sch (s : State) (v : Fin 1024) (x : VFun) : (s.setVf v x).sch = s.sch := rfl
@[simp] theorem State.setVf_fab (s : State) (v : Fin 1024) (x : VFun) : (s.setVf v x).fab = s.fab := rfl

/-! ### State.tick -/

@[simp] theorem State.tick_agenda (s : State) : (s.tick).agenda = s.agenda := rfl
@[simp] theorem State.tick_cur (s : State) : (s.tick).cur = s.cur := rfl
@[simp] theorem State.tick_free (s : State) : (s.tick).free = s.free := rfl
@[simp] theorem State.tick_clock (s : State) : (s.tick).clock = s.clock := rfl
@[simp] theorem State.tick_cores (s : State) : (s.tick).cores = s.cores := rfl
@[simp] theorem State.tick_hm (s : State) : (s.tick).hm = s.hm := rfl
@[simp] theorem State.tick_sch (s : State) : (s.tick).sch = s.sch := rfl
@[simp] theorem State.tick_fab (s : State) : (s.tick).fab = s.fab := rfl
@[simp] theorem State.tick_hst (s : State) : (s.tick).hst = s.hst := rfl

/-! ### Cores -/

@[simp] theorem State.core_setCore (s : State) (c : CoreId) (k : Core) : (s.setCore c k).core c = k := by
  simp [State.core, State.setCore]

theorem State.core_setCore_ne (s : State) {c d : CoreId} (k : Core) (h : d ≠ c) : (s.setCore c k).core d = s.core d := by
  have : c.val ≠ d.val := fun e => h (Fin.ext e.symm)
  simp [State.core, State.setCore, Vector.getElem_set_ne, this]

@[simp] theorem State.setCore_core (s : State) (c : CoreId) : s.setCore c (s.core c) = s := by
  simp [State.core, State.setCore]

@[simp] theorem State.setCore_setCore (s : State) (c : CoreId) (k l : Core) : (s.setCore c k).setCore c l = s.setCore c l := by
  simp [State.setCore]

theorem SeqId.idx_inj {q r : SeqId} (h : q.idx.val = r.idx.val) : q = r := by
  revert h; cases q <;> cases r <;> decide

@[simp] theorem Core.seq_setSeq (k : Core) (q : SeqId) (x : Seq) : (k.setSeq q x).seq q = x := by
  simp [Core.seq, Core.setSeq]

theorem Core.seq_setSeq_ne (k : Core) {q r : SeqId} (x : Seq) (h : r ≠ q) : (k.setSeq q x).seq r = k.seq r := by
  have : q.idx.val ≠ r.idx.val := fun e => h (SeqId.idx_inj e).symm
  simp [Core.seq, Core.setSeq, Vector.getElem_set_ne, this]

@[simp] theorem Core.setSeq_setSeq (k : Core) (q : SeqId) (x y : Seq) : (k.setSeq q x).setSeq q y = k.setSeq q y := by
  simp [Core.setSeq]

@[simp] theorem Core.setSeq_seq (k : Core) (q : SeqId) : k.setSeq q (k.seq q) = k := by
  simp [Core.setSeq, Core.seq]

@[simp] theorem Core.setSeq_c (k : Core) (q : SeqId) (y : Seq) : (k.setSeq q y).c = k.c := rfl
@[simp] theorem Core.setSeq_x (k : Core) (q : SeqId) (y : Seq) : (k.setSeq q y).x = k.x := rfl
@[simp] theorem Core.setSeq_tokens (k : Core) (q : SeqId) (y : Seq) : (k.setSeq q y).tokens = k.tokens := rfl
@[simp] theorem Core.setSeq_queues (k : Core) (q : SeqId) (y : Seq) : (k.setSeq q y).queues = k.queues := rfl
@[simp] theorem Core.setSeq_bslots (k : Core) (q : SeqId) (y : Seq) : (k.setSeq q y).bslots = k.bslots := rfl
@[simp] theorem Core.setSeq_l1 (k : Core) (q : SeqId) (y : Seq) : (k.setSeq q y).l1 = k.l1 := rfl
@[simp] theorem Core.setSeq_late (k : Core) (q : SeqId) (y : Seq) : (k.setSeq q y).late = k.late := rfl
@[simp] theorem Core.setSeq_icache (k : Core) (q : SeqId) (y : Seq) : (k.setSeq q y).icache = k.icache := rfl
@[simp] theorem Core.setSeq_tvec (k : Core) (q : SeqId) (y : Seq) : (k.setSeq q y).tvec = k.tvec := rfl
@[simp] theorem Core.setSeq_part (k : Core) (q : SeqId) (y : Seq) : (k.setSeq q y).part = k.part := rfl
@[simp] theorem Core.setSeq_card (k : Core) (q : SeqId) (y : Seq) : (k.setSeq q y).card = k.card := rfl

/-! ### Sequencers of the package -/

@[simp] theorem State.seq_setSeq (s : State) (c : CoreId) (q : SeqId) (x : Seq) : (s.setSeq c q x).seq c q = x := by
  simp [State.seq, State.setSeq]

theorem State.seq_setSeq_ne (s : State) {c d : CoreId} {q r : SeqId} (x : Seq) (h : ¬(d = c ∧ r = q)) :
    (s.setSeq c q x).seq d r = s.seq d r := by
  by_cases hd : d = c
  · subst hd
    have hr : r ≠ q := fun e => h ⟨rfl, e⟩
    simp [State.seq, State.setSeq, Core.seq_setSeq_ne _ _ hr]
  · simp [State.seq, State.setSeq, State.core_setCore_ne _ _ hd]

theorem State.core_setSeq_ne (s : State) {c d : CoreId} (q : SeqId) (x : Seq) (h : d ≠ c) : (s.setSeq c q x).core d = s.core d := by
  simp [State.setSeq, State.core_setCore_ne _ _ h]

@[simp] theorem State.setSeq_seq (s : State) (c : CoreId) (q : SeqId) : s.setSeq c q (s.seq c q) = s := by
  simp [State.setSeq, State.seq]

@[simp] theorem State.setSeq_setSeq (s : State) (c : CoreId) (q : SeqId) (x y : Seq) :
    (s.setSeq c q x).setSeq c q y = s.setSeq c q y := by
  simp [State.setSeq]

/-! ### The issuing sequencer -/

@[simp] theorem State.me_setMe (s : State) (x : Seq) : (s.setMe x).me = x := by
  simp [State.me, State.setMe, State.here, State.setSeq]

@[simp] theorem State.setMe_me (s : State) : s.setMe s.me = s := by
  simp [State.me, State.setMe, State.here, State.setSeq]

@[simp] theorem State.setMe_setMe (s : State) (x y : Seq) : (s.setMe x).setMe y = s.setMe y := by
  simp [State.setMe]

@[simp] theorem State.here_setMe (s : State) (x : Seq) : (s.setMe x).here = s.here.setSeq s.cur.sq x := by
  simp [State.here, State.setMe, State.setSeq]

@[simp] theorem State.here_setHere (s : State) (k : Core) : (s.setHere k).here = k := by
  simp [State.here, State.setHere]

@[simp] theorem State.setHere_here (s : State) : s.setHere s.here = s := by
  simp [State.here, State.setHere]

@[simp] theorem State.setHere_setHere (s : State) (k l : Core) : (s.setHere k).setHere l = s.setHere l := by
  simp [State.setHere]

@[simp] theorem State.me_setHere (s : State) (k : Core) : (s.setHere k).me = k.seq s.cur.sq := by
  simp [State.me]

@[simp] theorem State.c_setMe (s : State) (x : Seq) : (s.setMe x).c = s.c := by simp [State.c]

@[simp] theorem State.x_setMe (s : State) (x : Seq) : (s.setMe x).x = s.x := by simp [State.x]

@[simp] theorem State.c_setC (s : State) (x : CState) : (s.setC x).c = x := by simp [State.c, State.setC]

@[simp] theorem State.x_setC (s : State) (x : CState) : (s.setC x).x = s.x := by simp [State.x, State.setC]

@[simp] theorem State.x_setX (s : State) (x : XState) : (s.setX x).x = x := by simp [State.x, State.setX]

@[simp] theorem State.c_setX (s : State) (x : XState) : (s.setX x).c = s.c := by simp [State.c, State.setX]

@[simp] theorem State.me_setC (s : State) (x : CState) : (s.setC x).me = s.me := by
  simp [State.me, State.setC, State.here, State.setHere, Core.seq]

@[simp] theorem State.me_setX (s : State) (x : XState) : (s.setX x).me = s.me := by
  simp [State.me, State.setX, State.here, State.setHere, Core.seq]

theorem State.core_setMe_ne (s : State) {d : CoreId} (x : Seq) (h : d ≠ s.cur.core) : (s.setMe x).core d = s.core d :=
  State.core_setSeq_ne s _ x h

theorem State.core_setHere_ne (s : State) {d : CoreId} (k : Core) (h : d ≠ s.cur.core) : (s.setHere k).core d = s.core d :=
  State.core_setCore_ne s k h

theorem State.seq_setMe_ne (s : State) {d : CoreId} {r : SeqId} (x : Seq) (h : ¬(d = s.cur.core ∧ r = s.cur.sq)) :
    (s.setMe x).seq d r = s.seq d r :=
  State.seq_setSeq_ne s x h

/-! ### Partitions -/

@[simp] theorem State.part_setPart (s : State) (p : Fin 32) (x : Partition) : (s.setPart p x).part p = x := by
  simp [State.part, State.setPart]

theorem State.part_setPart_ne (s : State) {p r : Fin 32} (x : Partition) (h : r ≠ p) : (s.setPart p x).part r = s.part r := by
  have : p.val ≠ r.val := fun e => h (Fin.ext e.symm)
  simp [State.part, State.setPart, Vector.getElem_set_ne, this]

@[simp] theorem State.core_setPart (s : State) (p : Fin 32) (x : Partition) (c : CoreId) : (s.setPart p x).core c = s.core c := rfl

@[simp] theorem State.part_setCore (s : State) (c : CoreId) (k : Core) (p : Fin 32) : (s.setCore c k).part p = s.part p := rfl

@[simp] theorem State.part_setMe (s : State) (x : Seq) (p : Fin 32) : (s.setMe x).part p = s.part p := rfl

/-! ### General registers (R158) -/

@[simp] theorem Seq.rd_zero (x : Seq) : x.rd 0 = 0 := by simp [Seq.rd]

@[simp] theorem Seq.wr_zero (x : Seq) (v : Word) : x.wr 0 v = x := by simp [Seq.wr]

theorem Seq.rd_wr (x : Seq) (n m : Fin 32) (v : Word) : (x.wr n v).rd m = if m = n ∧ n ≠ 0 then v else x.rd m := by
  by_cases hn : n = 0
  · simp [Seq.wr, hn]
  · by_cases hm : m = n
    · subst hm; simp [Seq.rd, Seq.wr, hn]
    · have : n.val ≠ m.val := fun e => hm (Fin.ext e.symm)
      by_cases h0 : m = 0
      · simp [Seq.rd, h0, Ne.symm hn]
      · simp [Seq.rd, Seq.wr, hn, h0, hm, Vector.getElem_set_ne, this]

@[simp] theorem Seq.wr_pc (x : Seq) (n : Fin 32) (v : Word) : (x.wr n v).pc = x.pc := by unfold Seq.wr; split <;> rfl
@[simp] theorem Seq.wr_fpcs (x : Seq) (n : Fin 32) (v : Word) : (x.wr n v).fpcs = x.fpcs := by unfold Seq.wr; split <;> rfl
@[simp] theorem Seq.wr_repc (x : Seq) (n : Fin 32) (v : Word) : (x.wr n v).repc = x.repc := by unfold Seq.wr; split <;> rfl
@[simp] theorem Seq.wr_loops (x : Seq) (n : Fin 32) (v : Word) : (x.wr n v).loops = x.loops := by unfold Seq.wr; split <;> rfl
@[simp] theorem Seq.wr_spill (x : Seq) (n : Fin 32) (v : Word) : (x.wr n v).spill = x.spill := by unfold Seq.wr; split <;> rfl
@[simp] theorem Seq.wr_rng (x : Seq) (n : Fin 32) (v : Word) : (x.wr n v).rng = x.rng := by unfold Seq.wr; split <;> rfl
@[simp] theorem Seq.wr_loads (x : Seq) (n : Fin 32) (v : Word) : (x.wr n v).loads = x.loads := by unfold Seq.wr; split <;> rfl
@[simp] theorem Seq.wr_stores (x : Seq) (n : Fin 32) (v : Word) : (x.wr n v).stores = x.stores := by unfold Seq.wr; split <;> rfl
@[simp] theorem Seq.wr_atoms (x : Seq) (n : Fin 32) (v : Word) : (x.wr n v).atoms = x.atoms := by unfold Seq.wr; split <;> rfl
@[simp] theorem Seq.wr_cmds (x : Seq) (n : Fin 32) (v : Word) : (x.wr n v).cmds = x.cmds := by unfold Seq.wr; split <;> rfl
@[simp] theorem Seq.wr_errs (x : Seq) (n : Fin 32) (v : Word) : (x.wr n v).errs = x.errs := by unfold Seq.wr; split <;> rfl
@[simp] theorem Seq.wr_relWaits (x : Seq) (n : Fin 32) (v : Word) : (x.wr n v).relWaits = x.relWaits := by unfold Seq.wr; split <;> rfl
@[simp] theorem Seq.wr_rep (x : Seq) (n : Fin 32) (v : Word) : (x.wr n v).rep = x.rep := by unfold Seq.wr; split <;> rfl
@[simp] theorem Seq.wr_early (x : Seq) (n : Fin 32) (v : Word) : (x.wr n v).early = x.early := by unfold Seq.wr; split <;> rfl
@[simp] theorem Seq.wr_lanes (x : Seq) (n : Fin 32) (v : Word) : (x.wr n v).lanes = x.lanes := by unfold Seq.wr; split <;> rfl
@[simp] theorem Seq.wr_peeked (x : Seq) (n : Fin 32) (v : Word) : (x.wr n v).peeked = x.peeked := by unfold Seq.wr; split <;> rfl
@[simp] theorem Seq.wr_named (x : Seq) (n : Fin 32) (v : Word) : (x.wr n v).named = x.named := by unfold Seq.wr; split <;> rfl
@[simp] theorem Seq.wr_frame (x : Seq) (n : Fin 32) (v : Word) : (x.wr n v).frame = x.frame := by unfold Seq.wr; split <;> rfl
@[simp] theorem Seq.wr_trapPend (x : Seq) (n : Fin 32) (v : Word) : (x.wr n v).trapPend = x.trapPend := by unfold Seq.wr; split <;> rfl
@[simp] theorem Seq.wr_done (x : Seq) (n : Fin 32) (v : Word) : (x.wr n v).done = x.done := by unfold Seq.wr; split <;> rfl
@[simp] theorem Seq.wr_ctxStop (x : Seq) (n : Fin 32) (v : Word) : (x.wr n v).ctxStop = x.ctxStop := by unfold Seq.wr; split <;> rfl

end Sys2Proof.Machine
end

