-- ==== Sys2Proof/Laws/Memory.lean ====
section
/-! SUPPORT. The laws of sparse tables and of memory: reading after writing, and that every operation on memory keeps the
canonical form (log 4). -/

namespace Sys2Proof.Machine

/-! ### The canonical form -/

/-- The canonical form, said of keys and of values. -/
theorem swf_iff {α : Type} [DecidableEq α] (z : α) (l : List (Nat × α)) :
    swf z l = true ↔ l.Pairwise (fun a b => a.1 < b.1) ∧ ∀ e ∈ l, e.2 ≠ z := by
  induction l with
  | nil => simp [swf]
  | cons a t ih =>
    obtain ⟨k, v⟩ := a
    cases t with
    | nil => simp [swf]
    | cons b t =>
      obtain ⟨k', v'⟩ := b
      simp only [swf, Bool.and_eq_true, decide_eq_true_eq, ih, List.pairwise_cons, List.mem_cons, forall_eq_or_imp]
      constructor
      · rintro ⟨⟨hv, hk⟩, ⟨hp, hq⟩, hz, ha⟩
        exact ⟨⟨⟨hk, fun e he => Nat.lt_trans hk (hp e he)⟩, hp, hq⟩, hv, hz, ha⟩
      · rintro ⟨⟨⟨hk, _⟩, hp, hq⟩, hv, hz, ha⟩
        exact ⟨⟨hv, hk⟩, ⟨hp, hq⟩, hz, ha⟩

theorem swf_filter {α : Type} [DecidableEq α] (z : α) (l : List (Nat × α)) (f : Nat × α → Bool) (h : swf z l = true) :
    swf z (l.filter f) = true := by
  rw [swf_iff] at h ⊢
  exact ⟨h.1.filter f, fun e he => h.2 e (List.mem_filter.1 he).1⟩

/-! ### Reading after writing -/

theorem sget_of_lt {α : Type} (z : α) (l : List (Nat × α)) (i : Nat) (h : ∀ e ∈ l, i < e.1) : sget z l i = z := by
  induction l with
  | nil => rfl
  | cons a t ih =>
    obtain ⟨k, v⟩ := a
    have hk : i < k := h (k, v) (by simp)
    simp only [sget, if_neg (Nat.ne_of_gt hk)]
    exact ih fun e he => h e (by simp [he])

theorem sget_sput {α : Type} (z : α) (l : List (Nat × α)) (i j : Nat) (v : α) :
    sget z (sput l i v) j = if j = i then v else sget z l j := by
  induction l with
  | nil => by_cases h : i = j <;> simp [sput, sget, h, eq_comm]
  | cons a t ih =>
    obtain ⟨k, w⟩ := a
    simp only [sput]
    split
    · by_cases h : i = j <;> simp [sget, h, eq_comm (a := j)]
    · split
      · rename_i h1 h2
        subst h2
        by_cases h : k = j <;> simp [sget, h, eq_comm (a := j)]
      · rename_i h1 h2
        simp only [sget, ih]
        by_cases h : k = j
        · subst h; simp [h2]
        · simp [h]

theorem sget_sdel {α : Type} (z : α) (l : List (Nat × α)) (i j : Nat) :
    sget z (sdel l i) j = if j = i then z else sget z l j := by
  induction l with
  | nil => simp [sdel, sget]
  | cons a t ih =>
    obtain ⟨k, w⟩ := a
    simp only [sdel]
    split
    · rename_i h
      subst h
      rw [ih]
      by_cases h : j = k
      · simp [h]
      · simp [h, sget, Ne.symm h]
    · rename_i h
      simp only [sget, ih]
      by_cases hj : k = j
      · subst hj; simp [h]
      · simp [hj]

/-- Reading a sparse table after a write. -/
theorem sget_sset {α : Type} [DecidableEq α] (z : α) (l : List (Nat × α)) (i j : Nat) (v : α) :
    sget z (sset z l i v) j = if j = i then v else sget z l j := by
  unfold sset
  split
  · rename_i h; rw [sget_sdel, h]
  · exact sget_sput z l i j v

theorem mem_sput {α : Type} (l : List (Nat × α)) (i : Nat) (v : α) (e : Nat × α) (h : e ∈ sput l i v) :
    e = (i, v) ∨ e ∈ l := by
  induction l with
  | nil => simpa [sput] using h
  | cons a t ih =>
    obtain ⟨k, w⟩ := a
    simp only [sput] at h
    split at h
    · simpa using h
    · split at h
      · rcases List.mem_cons.1 h with h | h
        · exact .inl h
        · exact .inr (by simp [h])
      · rcases List.mem_cons.1 h with h | h
        · exact .inr (by simp [h])
        · rcases ih h with h | h
          · exact .inl h
          · exact .inr (by simp [h])

theorem sput_pairwise {α : Type} (l : List (Nat × α)) (i : Nat) (v : α) (h : l.Pairwise (fun a b => a.1 < b.1)) :
    (sput l i v).Pairwise (fun a b => a.1 < b.1) := by
  induction l with
  | nil => simp [sput]
  | cons a t ih =>
    obtain ⟨k, w⟩ := a
    obtain ⟨h1, h2⟩ := List.pairwise_cons.1 h
    simp only [sput]
    split
    · rename_i hi
      refine List.pairwise_cons.2 ⟨fun e he => ?_, h⟩
      rcases List.mem_cons.1 he with he | he
      · subst he; exact hi
      · exact Nat.lt_trans hi (h1 e he)
    · split
      · rename_i hk
        subst hk
        exact List.pairwise_cons.2 ⟨fun e he => h1 e he, h2⟩
      · rename_i hi hk
        refine List.pairwise_cons.2 ⟨fun e he => ?_, ih h2⟩
        rcases mem_sput t i v e he with he | he
        · subst he; exact Nat.lt_of_le_of_ne (Nat.le_of_not_lt hi) hk
        · exact h1 e he

theorem sdel_sublist {α : Type} (l : List (Nat × α)) (i : Nat) : (sdel l i).Sublist l := by
  induction l with
  | nil => exact List.Sublist.slnil
  | cons a t ih =>
    obtain ⟨k, w⟩ := a
    simp only [sdel]
    split
    · exact ih.cons _
    · exact ih.cons_cons _

/-- A write keeps the canonical form. -/
theorem swf_sset {α : Type} [DecidableEq α] (z : α) (l : List (Nat × α)) (i : Nat) (v : α) (h : swf z l = true) :
    swf z (sset z l i v) = true := by
  rw [swf_iff] at h ⊢
  unfold sset
  split
  · exact ⟨h.1.sublist (sdel_sublist l i), fun e he => h.2 e ((sdel_sublist l i).subset he)⟩
  · rename_i hv
    refine ⟨sput_pairwise l i v h.1, fun e he => ?_⟩
    rcases mem_sput l i v e he with he | he
    · subst he; exact hv
    · exact h.2 e he

/-- Two canonical tables that read alike are the same. -/
theorem swf_ext {α : Type} [DecidableEq α] (z : α) (l m : List (Nat × α)) (hl : swf z l = true) (hm : swf z m = true)
    (h : ∀ i, sget z l i = sget z m i) : l = m := by
  rw [swf_iff] at hl hm
  induction l generalizing m with
  | nil =>
    cases m with
    | nil => rfl
    | cons b t =>
      obtain ⟨k, v⟩ := b
      have := h k
      simp [sget] at this
      exact absurd this.symm (hm.2 (k, v) (by simp))
  | cons a s ih =>
    obtain ⟨k, v⟩ := a
    cases m with
    | nil =>
      have := h k
      simp [sget] at this
      exact absurd this (hl.2 (k, v) (by simp))
    | cons b t =>
      obtain ⟨j, w⟩ := b
      obtain ⟨hs1, hs2⟩ := List.pairwise_cons.1 hl.1
      obtain ⟨ht1, ht2⟩ := List.pairwise_cons.1 hm.1
      have hkj : k = j := by
        rcases Nat.lt_trichotomy k j with hkj | hkj | hkj
        · have e := h k
          have : sget z ((j, w) :: t) k = z := sget_of_lt z _ k (by
            intro e he
            rcases List.mem_cons.1 he with he | he
            · subst he; exact hkj
            · exact Nat.lt_trans hkj (ht1 e he))
          rw [this] at e
          simp [sget] at e
          exact absurd e (hl.2 (k, v) (by simp))
        · exact hkj
        · have e := h j
          have : sget z ((k, v) :: s) j = z := sget_of_lt z _ j (by
            intro e he
            rcases List.mem_cons.1 he with he | he
            · subst he; exact hkj
            · exact Nat.lt_trans hkj (hs1 e he))
          rw [this] at e
          simp [sget] at e
          exact absurd e.symm (hm.2 (j, w) (by simp))
      subst hkj
      have hvw : v = w := by simpa [sget] using h k
      subst hvw
      congr 1
      apply ih t ⟨hs2, fun e he => hl.2 e (by simp [he])⟩ ⟨ht2, fun e he => hm.2 e (by simp [he])⟩
      intro i
      have e := h i
      simp only [sget] at e
      by_cases hi : k = i
      · subst hi
        rw [sget_of_lt z s k hs1, sget_of_lt z t k ht1]
      · simpa [hi] using e

/-! ### Memory -/

theorem Memory.get_set (m : List Host.Cell) (k j : Nat) (b : Byte) :
    Memory.get (Memory.set m k b) j = if j = k then b else Memory.get m j := sget_sset _ m k j b

theorem Memory.wf_set (m : List Host.Cell) (k : Nat) (b : Byte) (h : Memory.wf m = true) : Memory.wf (Memory.set m k b) = true :=
  swf_sset _ m k b h

theorem Memory.wf_write (m : List Host.Cell) (k : Nat) (bs : List Byte) (h : Memory.wf m = true) :
    Memory.wf (Memory.write m k bs) = true := by
  induction bs generalizing m k with
  | nil => exact h
  | cons b bs ih => exact ih _ _ (Memory.wf_set m k b h)

theorem Memory.wf_filter (m : List Host.Cell) (f : Host.Cell → Bool) (h : Memory.wf m = true) : Memory.wf (m.filter f) = true :=
  swf_filter _ m f h

/-- Reading a byte after a write of bytes. -/
theorem Memory.get_write (m : List Host.Cell) (k : Nat) (bs : List Byte) (j : Nat) :
    Memory.get (Memory.write m k bs) j = if k ≤ j ∧ j < k + bs.length then bs.getD (j - k) 0 else Memory.get m j := by
  induction bs generalizing m k with
  | nil =>
    have : ¬(k ≤ j ∧ j < k) := by omega
    simp [Memory.write, this]
  | cons b bs ih =>
    simp only [Memory.write, ih, Memory.get_set, List.length_cons]
    by_cases h1 : k + 1 ≤ j ∧ j < k + 1 + bs.length
    · have h2 : k ≤ j ∧ j < k + (bs.length + 1) := by omega
      rw [if_pos h1, if_pos h2]
      have : j - k = (j - (k + 1)) + 1 := by omega
      rw [this, List.getD_cons_succ]
    · rw [if_neg h1]
      by_cases hj : j = k
      · subst hj; simp
      · have h2 : ¬(k ≤ j ∧ j < k + (bs.length + 1)) := by omega
        rw [if_neg h2, if_neg hj]

theorem Memory.read_length (m : List Host.Cell) (k n : Nat) : (Memory.read m k n).length = n := by
  induction n generalizing k with
  | zero => rfl
  | succ n ih => simp [Memory.read, ih]

/-- A write leaves every byte outside it alone. -/
theorem Memory.get_write_outside (m : List Host.Cell) (k : Nat) (bs : List Byte) (j : Nat) (h : j < k ∨ k + bs.length ≤ j) :
    Memory.get (Memory.write m k bs) j = Memory.get m j := by
  rw [Memory.get_write, if_neg (by omega)]

/-! ### Writes at their places -/

theorem lmWrite_mem (s : State) (c : CoreId) (off : Nat) (bs : List Byte) : (lmWrite s c off bs).hm.mem = s.hm.mem := rfl

theorem lmWrite_get (s : State) (c : CoreId) (off : Nat) (bs : List Byte) (k : Nat) :
    Memory.get (lmWrite s c off bs).hm.lm k =
      if lmKey c off ≤ k ∧ k < lmKey c off + bs.length then bs.getD (k - lmKey c off) 0 else Memory.get s.hm.lm k :=
  Memory.get_write _ _ _ _

theorem lmWrite_wf (s : State) (c : CoreId) (off : Nat) (bs : List Byte) (h : Memory.wf s.hm.lm = true) :
    Memory.wf (lmWrite s c off bs).hm.lm = true := Memory.wf_write _ _ _ h

theorem State.rawWrite_wf (s : State) (ia : Nat) (bs : List Byte) (h : Memory.wf s.hm.mem = true) :
    Memory.wf (s.rawWrite ia bs).hm.mem = true := by
  induction bs generalizing s ia with
  | nil => exact h
  | cons b bs ih =>
    simp only [State.rawWrite]
    apply ih
    split
    · exact Memory.wf_set _ _ _ h
    · exact h

theorem State.rawWrite_lm (s : State) (ia : Nat) (bs : List Byte) : (s.rawWrite ia bs).hm.lm = s.hm.lm := by
  induction bs generalizing s ia with
  | nil => rfl
  | cons b bs ih =>
    simp only [State.rawWrite]
    rw [ih]
    split <;> rfl

end Sys2Proof.Machine
end

