-- ==== Sys2Proof/Laws/Updates.lean ====
section
/-! SUPPORT. What the updates of homes, schedulers, fabric and events leave of the other fields, what reads give after them, and
the lemmas that say all that taking a trap can do. -/

namespace Sys2Proof.Machine

/-! ### Fields that an update leaves -/

@[simp] theorem State.setCard_agenda (s : State) (p : Fin 32) (x : Card) : (s.setCard p x).agenda = s.agenda := rfl
@[simp] theorem State.setCard_cur (s : State) (p : Fin 32) (x : Card) : (s.setCard p x).cur = s.cur := rfl
@[simp] theorem State.setCard_free (s : State) (p : Fin 32) (x : Card) : (s.setCard p x).free = s.free := rfl
@[simp] theorem State.setCard_stamp (s : State) (p : Fin 32) (x : Card) : (s.setCard p x).stamp = s.stamp := rfl
@[simp] theorem State.setCard_clock (s : State) (p : Fin 32) (x : Card) : (s.setCard p x).clock = s.clock := rfl
@[simp] theorem State.setCard_cores (s : State) (p : Fin 32) (x : Card) : (s.setCard p x).cores = s.cores := rfl
@[simp] theorem State.setCard_hm (s : State) (p : Fin 32) (x : Card) : (s.setCard p x).hm = s.hm := rfl
@[simp] theorem State.setCard_fab (s : State) (p : Fin 32) (x : Card) : (s.setCard p x).fab = s.fab := rfl
@[simp] theorem State.setCard_hst (s : State) (p : Fin 32) (x : Card) : (s.setCard p x).hst = s.hst := rfl

@[simp] theorem State.setReplay_agenda (s : State) (p : Fin 32) (x : Replay) : (s.setReplay p x).agenda = s.agenda := rfl
@[simp] theorem State.setReplay_cur (s : State) (p : Fin 32) (x : Replay) : (s.setReplay p x).cur = s.cur := rfl
@[simp] theorem State.setReplay_free (s : State) (p : Fin 32) (x : Replay) : (s.setReplay p x).free = s.free := rfl
@[simp] theorem State.setReplay_stamp (s : State) (p : Fin 32) (x : Replay) : (s.setReplay p x).stamp = s.stamp := rfl
@[simp] theorem State.setReplay_clock (s : State) (p : Fin 32) (x : Replay) : (s.setReplay p x).clock = s.clock := rfl
@[simp] theorem State.setReplay_cores (s : State) (p : Fin 32) (x : Replay) : (s.setReplay p x).cores = s.cores := rfl
@[simp] theorem State.setReplay_hm (s : State) (p : Fin 32) (x : Replay) : (s.setReplay p x).hm = s.hm := rfl
@[simp] theorem State.setReplay_fab (s : State) (p : Fin 32) (x : Replay) : (s.setReplay p x).fab = s.fab := rfl
@[simp] theorem State.setReplay_hst (s : State) (p : Fin 32) (x : Replay) : (s.setReplay p x).hst = s.hst := rfl

@[simp] theorem State.setPq_agenda (s : State) (i : Fin 32) (es : List Word) : (s.setPq i es).agenda = s.agenda := rfl
@[simp] theorem State.setPq_cur (s : State) (i : Fin 32) (es : List Word) : (s.setPq i es).cur = s.cur := rfl
@[simp] theorem State.setPq_free (s : State) (i : Fin 32) (es : List Word) : (s.setPq i es).free = s.free := rfl
@[simp] theorem State.setPq_stamp (s : State) (i : Fin 32) (es : List Word) : (s.setPq i es).stamp = s.stamp := rfl
@[simp] theorem State.setPq_clock (s : State) (i : Fin 32) (es : List Word) : (s.setPq i es).clock = s.clock := rfl
@[simp] theorem State.setPq_cores (s : State) (i : Fin 32) (es : List Word) : (s.setPq i es).cores = s.cores := rfl
@[simp] theorem State.setPq_hm (s : State) (i : Fin 32) (es : List Word) : (s.setPq i es).hm = s.hm := rfl
@[simp] theorem State.setPq_fab (s : State) (i : Fin 32) (es : List Word) : (s.setPq i es).fab = s.fab := rfl
@[simp] theorem State.setPq_hst (s : State) (i : Fin 32) (es : List Word) : (s.setPq i es).hst = s.hst := rfl

@[simp] theorem State.setWatch_agenda (s : State) (n : Nat) (w : Watch) : (s.setWatch n w).agenda = s.agenda := rfl
@[simp] theorem State.setWatch_cur (s : State) (n : Nat) (w : Watch) : (s.setWatch n w).cur = s.cur := rfl
@[simp] theorem State.setWatch_free (s : State) (n : Nat) (w : Watch) : (s.setWatch n w).free = s.free := rfl
@[simp] theorem State.setWatch_stamp (s : State) (n : Nat) (w : Watch) : (s.setWatch n w).stamp = s.stamp := rfl
@[simp] theorem State.setWatch_clock (s : State) (n : Nat) (w : Watch) : (s.setWatch n w).clock = s.clock := rfl
@[simp] theorem State.setWatch_cores (s : State) (n : Nat) (w : Watch) : (s.setWatch n w).cores = s.cores := rfl
@[simp] theorem State.setWatch_hm (s : State) (n : Nat) (w : Watch) : (s.setWatch n w).hm = s.hm := rfl
@[simp] theorem State.setWatch_fab (s : State) (n : Nat) (w : Watch) : (s.setWatch n w).fab = s.fab := rfl
@[simp] theorem State.setWatch_hst (s : State) (n : Nat) (w : Watch) : (s.setWatch n w).hst = s.hst := rfl

@[simp] theorem State.setSlot_agenda (s : State) (p : Fin 32) (h : Handle) (u : SlotUse) : (s.setSlot p h u).agenda = s.agenda := rfl
@[simp] theorem State.setSlot_cur (s : State) (p : Fin 32) (h : Handle) (u : SlotUse) : (s.setSlot p h u).cur = s.cur := rfl
@[simp] theorem State.setSlot_free (s : State) (p : Fin 32) (h : Handle) (u : SlotUse) : (s.setSlot p h u).free = s.free := rfl
@[simp] theorem State.setSlot_stamp (s : State) (p : Fin 32) (h : Handle) (u : SlotUse) : (s.setSlot p h u).stamp = s.stamp := rfl
@[simp] theorem State.setSlot_clock (s : State) (p : Fin 32) (h : Handle) (u : SlotUse) : (s.setSlot p h u).clock = s.clock := rfl
@[simp] theorem State.setSlot_cores (s : State) (p : Fin 32) (h : Handle) (u : SlotUse) : (s.setSlot p h u).cores = s.cores := rfl
@[simp] theorem State.setSlot_hm (s : State) (p : Fin 32) (h : Handle) (u : SlotUse) : (s.setSlot p h u).hm = s.hm := rfl
@[simp] theorem State.setSlot_fab (s : State) (p : Fin 32) (h : Handle) (u : SlotUse) : (s.setSlot p h u).fab = s.fab := rfl
@[simp] theorem State.setSlot_hst (s : State) (p : Fin 32) (h : Handle) (u : SlotUse) : (s.setSlot p h u).hst = s.hst := rfl

@[simp] theorem State.charge_agenda (s : State) (p : Fin 32) (k n : Nat) : (s.charge p k n).agenda = s.agenda := rfl
@[simp] theorem State.charge_cur (s : State) (p : Fin 32) (k n : Nat) : (s.charge p k n).cur = s.cur := rfl
@[simp] theorem State.charge_free (s : State) (p : Fin 32) (k n : Nat) : (s.charge p k n).free = s.free := rfl
@[simp] theorem State.charge_stamp (s : State) (p : Fin 32) (k n : Nat) : (s.charge p k n).stamp = s.stamp := rfl
@[simp] theorem State.charge_clock (s : State) (p : Fin 32) (k n : Nat) : (s.charge p k n).clock = s.clock := rfl
@[simp] theorem State.charge_cores (s : State) (p : Fin 32) (k n : Nat) : (s.charge p k n).cores = s.cores := rfl
@[simp] theorem State.charge_hm (s : State) (p : Fin 32) (k n : Nat) : (s.charge p k n).hm = s.hm := rfl
@[simp] theorem State.charge_fab (s : State) (p : Fin 32) (k n : Nat) : (s.charge p k n).fab = s.fab := rfl
@[simp] theorem State.charge_hst (s : State) (p : Fin 32) (k n : Nat) : (s.charge p k n).hst = s.hst := rfl

@[simp] theorem State.setPeer_agenda (s : State) (p : BitVec 16) (x : Peer) : (s.setPeer p x).agenda = s.agenda := rfl
@[simp] theorem State.setPeer_cur (s : State) (p : BitVec 16) (x : Peer) : (s.setPeer p x).cur = s.cur := rfl
@[simp] theorem State.setPeer_free (s : State) (p : BitVec 16) (x : Peer) : (s.setPeer p x).free = s.free := rfl
@[simp] theorem State.setPeer_stamp (s : State) (p : BitVec 16) (x : Peer) : (s.setPeer p x).stamp = s.stamp := rfl
@[simp] theorem State.setPeer_clock (s : State) (p : BitVec 16) (x : Peer) : (s.setPeer p x).clock = s.clock := rfl
@[simp] theorem State.setPeer_cores (s : State) (p : BitVec 16) (x : Peer) : (s.setPeer p x).cores = s.cores := rfl
@[simp] theorem State.setPeer_hm (s : State) (p : BitVec 16) (x : Peer) : (s.setPeer p x).hm = s.hm := rfl
@[simp] theorem State.setPeer_sch (s : State) (p : BitVec 16) (x : Peer) : (s.setPeer p x).sch = s.sch := rfl
@[simp] theorem State.setPeer_hst (s : State) (p : BitVec 16) (x : Peer) : (s.setPeer p x).hst = s.hst := rfl

@[simp] theorem State.putSend_agenda (s : State) (x : Send) : (s.putSend x).agenda = s.agenda := rfl
@[simp] theorem State.putSend_cur (s : State) (x : Send) : (s.putSend x).cur = s.cur := rfl
@[simp] theorem State.putSend_free (s : State) (x : Send) : (s.putSend x).free = s.free := rfl
@[simp] theorem State.putSend_stamp (s : State) (x : Send) : (s.putSend x).stamp = s.stamp := rfl
@[simp] theorem State.putSend_clock (s : State) (x : Send) : (s.putSend x).clock = s.clock := rfl
@[simp] theorem State.putSend_cores (s : State) (x : Send) : (s.putSend x).cores = s.cores := rfl
@[simp] theorem State.putSend_hm (s : State) (x : Send) : (s.putSend x).hm = s.hm := rfl
@[simp] theorem State.putSend_sch (s : State) (x : Send) : (s.putSend x).sch = s.sch := rfl
@[simp] theorem State.putSend_hst (s : State) (x : Send) : (s.putSend x).hst = s.hst := rfl

@[simp] theorem State.putAck_agenda (s : State) (x : Ack) : (s.putAck x).agenda = s.agenda := rfl
@[simp] theorem State.putAck_cur (s : State) (x : Ack) : (s.putAck x).cur = s.cur := rfl
@[simp] theorem State.putAck_free (s : State) (x : Ack) : (s.putAck x).free = s.free := rfl
@[simp] theorem State.putAck_stamp (s : State) (x : Ack) : (s.putAck x).stamp = s.stamp := rfl
@[simp] theorem State.putAck_clock (s : State) (x : Ack) : (s.putAck x).clock = s.clock := rfl
@[simp] theorem State.putAck_cores (s : State) (x : Ack) : (s.putAck x).cores = s.cores := rfl
@[simp] theorem State.putAck_hm (s : State) (x : Ack) : (s.putAck x).hm = s.hm := rfl
@[simp] theorem State.putAck_sch (s : State) (x : Ack) : (s.putAck x).sch = s.sch := rfl
@[simp] theorem State.putAck_hst (s : State) (x : Ack) : (s.putAck x).hst = s.hst := rfl

@[simp] theorem State.setTries_agenda (s : State) (p : Fin 16) (n : Nat) : (s.setTries p n).agenda = s.agenda := rfl
@[simp] theorem State.setTries_cur (s : State) (p : Fin 16) (n : Nat) : (s.setTries p n).cur = s.cur := rfl
@[simp] theorem State.setTries_free (s : State) (p : Fin 16) (n : Nat) : (s.setTries p n).free = s.free := rfl
@[simp] theorem State.setTries_stamp (s : State) (p : Fin 16) (n : Nat) : (s.setTries p n).stamp = s.stamp := rfl
@[simp] theorem State.setTries_clock (s : State) (p : Fin 16) (n : Nat) : (s.setTries p n).clock = s.clock := rfl
@[simp] theorem State.setTries_cores (s : State) (p : Fin 16) (n : Nat) : (s.setTries p n).cores = s.cores := rfl
@[simp] theorem State.setTries_hm (s : State) (p : Fin 16) (n : Nat) : (s.setTries p n).hm = s.hm := rfl
@[simp] theorem State.setTries_sch (s : State) (p : Fin 16) (n : Nat) : (s.setTries p n).sch = s.sch := rfl
@[simp] theorem State.setTries_hst (s : State) (p : Fin 16) (n : Nat) : (s.setTries p n).hst = s.hst := rfl

@[simp] theorem State.setReplays_agenda (s : State) (k : Fin 8) (n : Nat) : (s.setReplays k n).agenda = s.agenda := rfl
@[simp] theorem State.setReplays_cur (s : State) (k : Fin 8) (n : Nat) : (s.setReplays k n).cur = s.cur := rfl
@[simp] theorem State.setReplays_free (s : State) (k : Fin 8) (n : Nat) : (s.setReplays k n).free = s.free := rfl
@[simp] theorem State.setReplays_stamp (s : State) (k : Fin 8) (n : Nat) : (s.setReplays k n).stamp = s.stamp := rfl
@[simp] theorem State.setReplays_clock (s : State) (k : Fin 8) (n : Nat) : (s.setReplays k n).clock = s.clock := rfl
@[simp] theorem State.setReplays_cores (s : State) (k : Fin 8) (n : Nat) : (s.setReplays k n).cores = s.cores := rfl
@[simp] theorem State.setReplays_sch (s : State) (k : Fin 8) (n : Nat) : (s.setReplays k n).sch = s.sch := rfl
@[simp] theorem State.setReplays_fab (s : State) (k : Fin 8) (n : Nat) : (s.setReplays k n).fab = s.fab := rfl
@[simp] theorem State.setReplays_hst (s : State) (k : Fin 8) (n : Nat) : (s.setReplays k n).hst = s.hst := rfl

@[simp] theorem State.setAcc_agenda (s : State) (c : CoreId) (w : Nat) (v : BitVec 32) : (s.setAcc c w v).agenda = s.agenda := rfl
@[simp] theorem State.setAcc_cur (s : State) (c : CoreId) (w : Nat) (v : BitVec 32) : (s.setAcc c w v).cur = s.cur := rfl
@[simp] theorem State.setAcc_free (s : State) (c : CoreId) (w : Nat) (v : BitVec 32) : (s.setAcc c w v).free = s.free := rfl
@[simp] theorem State.setAcc_stamp (s : State) (c : CoreId) (w : Nat) (v : BitVec 32) : (s.setAcc c w v).stamp = s.stamp := rfl
@[simp] theorem State.setAcc_clock (s : State) (c : CoreId) (w : Nat) (v : BitVec 32) : (s.setAcc c w v).clock = s.clock := rfl
@[simp] theorem State.setAcc_cores (s : State) (c : CoreId) (w : Nat) (v : BitVec 32) : (s.setAcc c w v).cores = s.cores := rfl
@[simp] theorem State.setAcc_sch (s : State) (c : CoreId) (w : Nat) (v : BitVec 32) : (s.setAcc c w v).sch = s.sch := rfl
@[simp] theorem State.setAcc_fab (s : State) (c : CoreId) (w : Nat) (v : BitVec 32) : (s.setAcc c w v).fab = s.fab := rfl
@[simp] theorem State.setAcc_hst (s : State) (c : CoreId) (w : Nat) (v : BitVec 32) : (s.setAcc c w v).hst = s.hst := rfl

@[simp] theorem State.setSide_agenda (s : State) (c : CoreId) (p : Nat) (r : SideReg) (v : BitVec 32) : (s.setSide c p r v).agenda = s.agenda := rfl
@[simp] theorem State.setSide_cur (s : State) (c : CoreId) (p : Nat) (r : SideReg) (v : BitVec 32) : (s.setSide c p r v).cur = s.cur := rfl
@[simp] theorem State.setSide_free (s : State) (c : CoreId) (p : Nat) (r : SideReg) (v : BitVec 32) : (s.setSide c p r v).free = s.free := rfl
@[simp] theorem State.setSide_stamp (s : State) (c : CoreId) (p : Nat) (r : SideReg) (v : BitVec 32) : (s.setSide c p r v).stamp = s.stamp := rfl
@[simp] theorem State.setSide_clock (s : State) (c : CoreId) (p : Nat) (r : SideReg) (v : BitVec 32) : (s.setSide c p r v).clock = s.clock := rfl
@[simp] theorem State.setSide_cores (s : State) (c : CoreId) (p : Nat) (r : SideReg) (v : BitVec 32) : (s.setSide c p r v).cores = s.cores := rfl
@[simp] theorem State.setSide_sch (s : State) (c : CoreId) (p : Nat) (r : SideReg) (v : BitVec 32) : (s.setSide c p r v).sch = s.sch := rfl
@[simp] theorem State.setSide_fab (s : State) (c : CoreId) (p : Nat) (r : SideReg) (v : BitVec 32) : (s.setSide c p r v).fab = s.fab := rfl
@[simp] theorem State.setSide_hst (s : State) (c : CoreId) (p : Nat) (r : SideReg) (v : BitVec 32) : (s.setSide c p r v).hst = s.hst := rfl

@[simp] theorem State.count_agenda (s : State) (k : Nat) : (s.count k).agenda = s.agenda := rfl
@[simp] theorem State.count_cur (s : State) (k : Nat) : (s.count k).cur = s.cur := rfl
@[simp] theorem State.count_free (s : State) (k : Nat) : (s.count k).free = s.free := rfl
@[simp] theorem State.count_stamp (s : State) (k : Nat) : (s.count k).stamp = s.stamp := rfl
@[simp] theorem State.count_clock (s : State) (k : Nat) : (s.count k).clock = s.clock := rfl
@[simp] theorem State.count_cores (s : State) (k : Nat) : (s.count k).cores = s.cores := rfl
@[simp] theorem State.count_sch (s : State) (k : Nat) : (s.count k).sch = s.sch := rfl
@[simp] theorem State.count_fab (s : State) (k : Nat) : (s.count k).fab = s.fab := rfl
@[simp] theorem State.count_hst (s : State) (k : Nat) : (s.count k).hst = s.hst := rfl

@[simp] theorem State.setToken_agenda (s : State) (c : CoreId) (n : Fin 8) (f : BitVec 16 → BitVec 16) : (s.setToken c n f).agenda = s.agenda := rfl
@[simp] theorem State.setToken_cur (s : State) (c : CoreId) (n : Fin 8) (f : BitVec 16 → BitVec 16) : (s.setToken c n f).cur = s.cur := rfl
@[simp] theorem State.setToken_free (s : State) (c : CoreId) (n : Fin 8) (f : BitVec 16 → BitVec 16) : (s.setToken c n f).free = s.free := rfl
@[simp] theorem State.setToken_stamp (s : State) (c : CoreId) (n : Fin 8) (f : BitVec 16 → BitVec 16) : (s.setToken c n f).stamp = s.stamp := rfl
@[simp] theorem State.setToken_clock (s : State) (c : CoreId) (n : Fin 8) (f : BitVec 16 → BitVec 16) : (s.setToken c n f).clock = s.clock := rfl
@[simp] theorem State.setToken_hm (s : State) (c : CoreId) (n : Fin 8) (f : BitVec 16 → BitVec 16) : (s.setToken c n f).hm = s.hm := rfl
@[simp] theorem State.setToken_sch (s : State) (c : CoreId) (n : Fin 8) (f : BitVec 16 → BitVec 16) : (s.setToken c n f).sch = s.sch := rfl
@[simp] theorem State.setToken_fab (s : State) (c : CoreId) (n : Fin 8) (f : BitVec 16 → BitVec 16) : (s.setToken c n f).fab = s.fab := rfl
@[simp] theorem State.setToken_hst (s : State) (c : CoreId) (n : Fin 8) (f : BitVec 16 → BitVec 16) : (s.setToken c n f).hst = s.hst := rfl

@[simp] theorem State.putCmd_agenda (s : State) (c : CoreId) (q : SeqId) (x : Cmd) : (s.putCmd c q x).agenda = s.agenda := rfl
@[simp] theorem State.putCmd_cur (s : State) (c : CoreId) (q : SeqId) (x : Cmd) : (s.putCmd c q x).cur = s.cur := rfl
@[simp] theorem State.putCmd_free (s : State) (c : CoreId) (q : SeqId) (x : Cmd) : (s.putCmd c q x).free = s.free := rfl
@[simp] theorem State.putCmd_stamp (s : State) (c : CoreId) (q : SeqId) (x : Cmd) : (s.putCmd c q x).stamp = s.stamp := rfl
@[simp] theorem State.putCmd_clock (s : State) (c : CoreId) (q : SeqId) (x : Cmd) : (s.putCmd c q x).clock = s.clock := rfl
@[simp] theorem State.putCmd_hm (s : State) (c : CoreId) (q : SeqId) (x : Cmd) : (s.putCmd c q x).hm = s.hm := rfl
@[simp] theorem State.putCmd_sch (s : State) (c : CoreId) (q : SeqId) (x : Cmd) : (s.putCmd c q x).sch = s.sch := rfl
@[simp] theorem State.putCmd_fab (s : State) (c : CoreId) (q : SeqId) (x : Cmd) : (s.putCmd c q x).fab = s.fab := rfl
@[simp] theorem State.putCmd_hst (s : State) (c : CoreId) (q : SeqId) (x : Cmd) : (s.putCmd c q x).hst = s.hst := rfl

@[simp] theorem State.send_agenda (s : State) (p : Option (Fin 32)) (e : Event) : (s.send p e).agenda = s.agenda := rfl
@[simp] theorem State.send_cur (s : State) (p : Option (Fin 32)) (e : Event) : (s.send p e).cur = s.cur := rfl
@[simp] theorem State.send_free (s : State) (p : Option (Fin 32)) (e : Event) : (s.send p e).free = s.free := rfl
@[simp] theorem State.send_stamp (s : State) (p : Option (Fin 32)) (e : Event) : (s.send p e).stamp = s.stamp := rfl
@[simp] theorem State.send_clock (s : State) (p : Option (Fin 32)) (e : Event) : (s.send p e).clock = s.clock := rfl
@[simp] theorem State.send_cores (s : State) (p : Option (Fin 32)) (e : Event) : (s.send p e).cores = s.cores := rfl
@[simp] theorem State.send_hm (s : State) (p : Option (Fin 32)) (e : Event) : (s.send p e).hm = s.hm := rfl
@[simp] theorem State.send_sch (s : State) (p : Option (Fin 32)) (e : Event) : (s.send p e).sch = s.sch := rfl
@[simp] theorem State.send_fab (s : State) (p : Option (Fin 32)) (e : Event) : (s.send p e).fab = s.fab := rfl

@[simp] theorem State.setMx_agenda (s : State) (c : CoreId) (n : Nat) (o : MxOp) : (s.setMx c n o).agenda = s.agenda := rfl
@[simp] theorem State.setMx_cur (s : State) (c : CoreId) (n : Nat) (o : MxOp) : (s.setMx c n o).cur = s.cur := rfl
@[simp] theorem State.setMx_free (s : State) (c : CoreId) (n : Nat) (o : MxOp) : (s.setMx c n o).free = s.free := rfl
@[simp] theorem State.setMx_stamp (s : State) (c : CoreId) (n : Nat) (o : MxOp) : (s.setMx c n o).stamp = s.stamp := rfl
@[simp] theorem State.setMx_clock (s : State) (c : CoreId) (n : Nat) (o : MxOp) : (s.setMx c n o).clock = s.clock := rfl
@[simp] theorem State.setMx_hm (s : State) (c : CoreId) (n : Nat) (o : MxOp) : (s.setMx c n o).hm = s.hm := rfl
@[simp] theorem State.setMx_sch (s : State) (c : CoreId) (n : Nat) (o : MxOp) : (s.setMx c n o).sch = s.sch := rfl
@[simp] theorem State.setMx_fab (s : State) (c : CoreId) (n : Nat) (o : MxOp) : (s.setMx c n o).fab = s.fab := rfl
@[simp] theorem State.setMx_hst (s : State) (c : CoreId) (n : Nat) (o : MxOp) : (s.setMx c n o).hst = s.hst := rfl

@[simp] theorem State.setClass_agenda (s : State) (p : Fin 32) (h : Handle) (k : Fin 4) : (s.setClass p h k).agenda = s.agenda := rfl
@[simp] theorem State.setClass_cur (s : State) (p : Fin 32) (h : Handle) (k : Fin 4) : (s.setClass p h k).cur = s.cur := rfl
@[simp] theorem State.setClass_free (s : State) (p : Fin 32) (h : Handle) (k : Fin 4) : (s.setClass p h k).free = s.free := rfl
@[simp] theorem State.setClass_stamp (s : State) (p : Fin 32) (h : Handle) (k : Fin 4) : (s.setClass p h k).stamp = s.stamp := rfl
@[simp] theorem State.setClass_clock (s : State) (p : Fin 32) (h : Handle) (k : Fin 4) : (s.setClass p h k).clock = s.clock := rfl
@[simp] theorem State.setClass_cores (s : State) (p : Fin 32) (h : Handle) (k : Fin 4) : (s.setClass p h k).cores = s.cores := rfl
@[simp] theorem State.setClass_hm (s : State) (p : Fin 32) (h : Handle) (k : Fin 4) : (s.setClass p h k).hm = s.hm := rfl
@[simp] theorem State.setClass_fab (s : State) (p : Fin 32) (h : Handle) (k : Fin 4) : (s.setClass p h k).fab = s.fab := rfl
@[simp] theorem State.setClass_hst (s : State) (p : Fin 32) (h : Handle) (k : Fin 4) : (s.setClass p h k).hst = s.hst := rfl

@[simp] theorem State.beginFw_agenda (s : State) (e : FwEntry) (r : Word) : (s.beginFw e r).agenda = s.agenda := rfl
@[simp] theorem State.beginFw_cur (s : State) (e : FwEntry) (r : Word) : (s.beginFw e r).cur = s.cur := rfl
@[simp] theorem State.beginFw_free (s : State) (e : FwEntry) (r : Word) : (s.beginFw e r).free = s.free := rfl
@[simp] theorem State.beginFw_stamp (s : State) (e : FwEntry) (r : Word) : (s.beginFw e r).stamp = s.stamp := rfl
@[simp] theorem State.beginFw_clock (s : State) (e : FwEntry) (r : Word) : (s.beginFw e r).clock = s.clock := rfl
@[simp] theorem State.beginFw_cores (s : State) (e : FwEntry) (r : Word) : (s.beginFw e r).cores = s.cores := rfl
@[simp] theorem State.beginFw_hm (s : State) (e : FwEntry) (r : Word) : (s.beginFw e r).hm = s.hm := rfl
@[simp] theorem State.beginFw_sch (s : State) (e : FwEntry) (r : Word) : (s.beginFw e r).sch = s.sch := rfl
@[simp] theorem State.beginFw_fab (s : State) (e : FwEntry) (r : Word) : (s.beginFw e r).fab = s.fab := rfl

/-! ### Reading after an update -/

@[simp] theorem State.acc_setAcc (s : State) (c d : CoreId) (w x : Nat) (v : BitVec 32) :
    (s.setAcc c w v).acc d x = if accKey d x = accKey c w then v else s.acc d x := by
  simp only [State.acc, State.setAcc, sget_sset]

@[simp] theorem State.setSide_side (s : State) (c d : CoreId) (p x : Nat) (r u : SideReg) (v : BitVec 32) :
    (s.setSide c p r v).side d x u = if sideKey d x u = sideKey c p r then v else s.side d x u := by
  simp only [State.side, State.setSide, sget_sset]

@[simp] theorem State.setTries_tries (s : State) (p : Fin 16) (n : Nat) : (s.setTries p n).fab.tries[p.val] = n := by
  simp [State.setTries]

@[simp] theorem State.setReplays_tries (s : State) (k : Fin 8) (n : Nat) : (s.setReplays k n).hm.tries[k.val] = n := by
  simp [State.setReplays]

/-- A counter holds its value, raised by one and no further than its greatest (R369). -/
theorem State.count_self (s : State) (k : Nat) :
    (sget 0 (s.count k).hm.counts k).toNat = min (2 ^ 32 - 1) ((sget 0 s.hm.counts k).toNat + 1) := by
  simp only [State.count, sget_sset, if_pos]
  generalize sget 0 s.hm.counts k = v
  have := v.isLt
  split
  · omega
  · rw [BitVec.toNat_add, Nat.mod_eq_of_lt] <;> simp <;> omega

theorem State.count_other (s : State) {k j : Nat} (h : j ≠ k) : sget 0 (s.count k).hm.counts j = sget 0 s.hm.counts j := by
  simp [State.count, sget_sset, h]

/-- Counting at a home changes nothing but the counters. -/
theorem State.countHome_cases (s : State) (c : HomeCnt) (h : Fin 17) :
    s.countHome c h = s ∨ ∃ k, c.key h = some k ∧ s.countHome c h = s.count k := by
  unfold State.countHome
  split
  · exact .inr ⟨_, ‹_›, rfl⟩
  · exact .inl rfl

/-- Posting adds one record, with the next number of its source, and delivers nothing (R397, R400). -/
theorem State.post_posted (s : State) (p : Fin 32) (src cls code : Nat) (h : Handle) (addr detail : Word) :
    ∃ n, (s.post p src cls code h addr detail).hst.posted =
      s.hst.posted ++ [(some p, ⟨n, src, cls, code, h, p.val, addr, detail⟩)] :=
  ⟨(s.nextEvSeq src).1, rfl⟩

/-! ### Raising and taking a trap -/

/-- All that raising a trap can do: wait for loads, be a machine fault, or leave a frame and make the trap pending (R283, R323, R326). -/
theorem State.raise_cases (s : State) (c : CoreId) (q : SeqId) (pc : Word) (t : Trap) :
    ((s.seq c q).ldCount ≠ 0 ∧ s.raise c q pc t = s) ∨
    ((s.seq c q).ldCount = 0 ∧ q = .C ∧ (s.core c).c.sup = true ∧
      s.raise c q pc t = s.machineFault (srcCore c) 0x06 [(s.core c).partNo] 0) ∨
    ((s.seq c q).ldCount = 0 ∧ ¬(q = .C ∧ (s.core c).c.sup = true) ∧ ∃ k : Core,
      s.raise c q pc t = s.setCore c k ∧ k.seq q = (s.seq c q).raise pc t ∧ ∀ r, r ≠ q → k.seq r = s.seq c r) := by
  by_cases h0 : (s.seq c q).ldCount = 0
  · by_cases h1 : q = .C ∧ (s.core c).c.sup = true
    · exact .inr (.inl ⟨h0, h1.1, h1.2, by rw [State.raise, if_neg (by simp [h0]), if_pos h1]⟩)
    · refine .inr (.inr ⟨h0, h1, ?_⟩)
      simp only [State.raise, h0, h1, ne_eq, not_true_eq_false, if_false]
      split
      · refine ⟨_, by rw [State.setSeq, State.setCore_setCore], ?_, ?_⟩
        · simp [Core.seq, Core.setSeq, State.core, State.setCore]
        · intro r hr
          exact (congrArg (fun k : Core => k.seq r) (State.core_setCore s c _)).trans (Core.seq_setSeq_ne _ _ hr)
      · exact ⟨_, rfl, Core.seq_setSeq _ _ _, fun r hr => Core.seq_setSeq_ne _ _ hr⟩
  · exact .inl ⟨h0, by simp [State.raise, h0]⟩

/-- All that a trap entry can do: nothing, unless C may take a trap and one is pending (R283). -/
theorem State.trapEntry_cases (s : State) (c : CoreId) :
    (((s.core c).mayTake && (s.core c).trapWaits) = false ∧ s.trapEntry c = s) ∨
    ((s.core c).mayTake = true ∧ (s.core c).trapWaits = true ∧ s.trapEntry c = s.setCore c (s.core c).takeTrap) := by
  unfold State.trapEntry
  split
  · rename_i h
    exact .inr ⟨(Bool.and_eq_true _ _ ▸ h).1, (Bool.and_eq_true _ _ ▸ h).2, rfl⟩
  · rename_i h
    exact .inl ⟨by simpa using h, rfl⟩

end Sys2Proof.Machine
end

