-- ==== Sys2Proof/Laws/Granules.lean ====
section
/-! SUPPORT. Accesses that go granule by granule (R83, R95), and all that a step can do. -/

namespace Sys2Proof.Machine

/-! ### Granules -/

/-- The granules of a run hold its bytes, in order. -/
theorem granules_bytes (fuel ia : Nat) (bs : List Byte) (h : bs.length ≤ fuel) : (granules fuel ia bs).flatMap (·.2) = bs := by
  induction fuel generalizing ia bs with
  | zero => cases bs <;> simp_all [granules]
  | succ n ih =>
    cases bs with
    | nil => simp [granules]
    | cons b t =>
      have hk : 0 < 8 - ia % 8 := by omega
      simp only [granules, cutGranule, List.splitAt_eq, List.flatMap_cons]
      rw [ih, List.take_append_drop]
      simp only [List.length_drop, List.length_cons] at h ⊢
      omega

/-- No granule is longer than 8 bytes, and none crosses a multiple of 8 (R83). -/
theorem granules_whole (fuel ia : Nat) (bs : List Byte) : ∀ g ∈ granules fuel ia bs, g.1 % 8 + g.2.length ≤ 8 := by
  induction fuel generalizing ia bs with
  | zero => simp [granules]
  | succ n ih =>
    cases bs with
    | nil => simp [granules]
    | cons b t =>
      simp only [granules, cutGranule, List.splitAt_eq, List.mem_cons]
      rintro g (rfl | hg)
      · simp only [List.length_take]
        omega
      · exact ih _ _ g hg

/-- A granule that may be performed next is one of those that wait, with its home in service and no earlier one sharing a byte. -/
theorem State.mayPut_some {s : State} {gs : List (Nat × List Byte)} {k : Nat} {g : Nat × List Byte} (h : s.mayPut gs k = some g) :
    gs[k]? = some g ∧ s.homeDown g.1 = false ∧ ∀ e ∈ gs.take k, overlap e.1 e.2.length g.1 g.2.length = false := by
  unfold State.mayPut at h
  cases hk : gs[k]? with
  | none => simp [hk] at h
  | some e =>
    simp only [hk, Option.bind_some] at h
    split at h
    · cases h
    · rename_i hn
      cases h
      simp only [Bool.or_eq_true, not_or, Bool.not_eq_true, List.any_eq_false] at hn
      exact ⟨rfl, hn.2, fun e he => hn.1 e he⟩

/-- All that performing a granule of a command can do: nothing, or one granule that may go. -/
theorem State.runPiece_cases (s : State) (c : CoreId) (q : SeqId) (i k : Nat) :
    s.runPiece c q i k = s ∨ ∃ x g, (s.seq c q).cmds[i]? = some x ∧ s.mayPut x.pend k = some g ∧
      s.runPiece c q i k = (s.putGranule c x.depth g).putCmd c q { x with pend := x.pend.eraseIdx k } := by
  unfold State.runPiece
  cases hx : (s.seq c q).cmds[i]? with
  | none => exact .inl rfl
  | some x =>
    cases hg : s.mayPut x.pend k with
    | none => exact .inl (by simp [hg])
    | some g => exact .inr ⟨x, g, rfl, hg, by simp [hg]⟩

/-- A command whose last unit is settled has nothing left to write; nothing happens where there was nothing. -/
theorem State.settleCmd_some {s t : State} {c : CoreId} {q : SeqId} {x y : Cmd} (h : s.settleCmd c q x = some (t, y)) :
    (x.pend = [] ∧ t = s ∧ y = x) ∨ (y = { x with pend := [] } ∧ (∀ g ∈ x.pend, s.homeDown g.1 = false) ∧
      t = (s.putGranules c x.depth x.pend).putCmd c q y) := by
  unfold State.settleCmd at h
  split at h
  · rename_i he
    cases h
    exact .inl ⟨List.isEmpty_iff.mp he, rfl, rfl⟩
  · split at h
    · cases h
    · rename_i hn
      cases h
      exact .inr ⟨rfl, fun g hg => Bool.eq_false_iff.mpr (List.any_eq_false.mp (Bool.eq_false_iff.mpr hn) g hg), rfl⟩

/-! ### Standing of C -/

theorem State.holdC_cases (s : State) : s.holdC = s ∨ s.cur.sq = .C ∧ s.holdC = s.setC { s.c with held := true } := by
  unfold State.holdC
  split
  · exact .inr ⟨‹_›, rfl⟩
  · exact .inl rfl

/-! ### Steps (R4) -/

/-- All that a step can do: take the first move of the agenda, begin a round of what is under way, or wait. -/
theorem step_cases (s : State) :
    (∃ m rest, s.agenda = m :: rest ∧ step s = stepMove { s with agenda := rest } m) ∨
    (∃ m rest, s.agenda = [] ∧ s.standing = m :: rest ∧ step s = stepMove { s with agenda := rest } m) ∨
    (s.agenda = [] ∧ s.standing = [] ∧ step s = .next s) := by
  unfold step
  cases ha : s.agenda with
  | cons m rest => exact .inl ⟨m, rest, rfl, rfl⟩
  | nil =>
    cases hs : s.standing with
    | cons m rest => exact .inr (.inl ⟨m, rest, rfl, rfl, rfl⟩)
    | nil => exact .inr (.inr ⟨rfl, rfl, rfl⟩)

end Sys2Proof.Machine
end

