-- ==== Sys2Proof/Laws/Ops.lean ====
section
/-! SUPPORT. What the operations that every meaning shares can do: the outcome of a device instruction, completing it, taking a
branch, reading and writing scalar operands, raising a trap. -/

namespace Sys2Proof.Machine

/-! ### Outcomes -/

@[simp] theorem finish_ok (s t : State) : finish s (.ok t) = .next t := rfl

@[simp] theorem finish_error (s : State) (e : Stop) : finish s (.error e) = .next (s.halt e) := rfl

@[simp] theorem State.halt_stall (s : State) : s.halt .stall = s := rfl

@[simp] theorem State.halt_hold (s : State) : s.halt .hold = s.holdC := rfl

theorem device_run (who : Who) (s : State) (body : State → Except Stop State) (h : who.has s.cur.sq = true) :
    device who s body = finish s (body s) := by simp [device, h]

/-- A form that its sequencer may not execute raises cause 0x03 (R175). -/
theorem device_other (who : Who) (s : State) (body : State → Except Stop State) (h : who.has s.cur.sq = false) :
    device who s body = .next (s.raise s.cur.core s.cur.sq s.me.pc ⟨0x03, 0, s.cur.word⟩) := by
  simp [device, h, State.halt, State.wordTrap]

/-- Every device instruction answers a next state: it completes, or it leaves what its stop leaves. -/
theorem device_next (who : Who) (s : State) (body : State → Except Stop State) : ∃ t, device who s body = .next t := by
  unfold device
  split
  · cases h : body s <;> exact ⟨_, rfl⟩
  · exact ⟨_, rfl⟩

@[simp] theorem Who.has_all (q : SeqId) : Who.all.has q = true := rfl

@[simp] theorem Except.bind_ok {ε α β : Type} (a : α) (f : α → Except ε β) : (Except.ok a >>= f) = f a := rfl

@[simp] theorem Except.bind_error {ε α β : Type} (e : ε) (f : α → Except ε β) : ((Except.error e : Except ε α) >>= f) = .error e := rfl

/-! ### Scalar operands -/

@[simp] theorem State.readS_g (s : State) (n : Fin 32) : s.readS (.g n) = .ok (s.me.rd n, s) := rfl

@[simp] theorem State.writeS_g (s : State) (n : Fin 32) (v : Word) : s.writeS (.g n) v = .ok (s.setMe (s.me.wr n v)) := rfl

@[simp] theorem State.readB_reg (s : State) (r : SReg) : s.readB (.reg r) = s.readS r := rfl

@[simp] theorem State.readB_imm (s : State) (v : BitVec 19) : s.readB (.imm v) = .ok (v.signExtend 64, s) := rfl

@[simp] theorem State.readB_ext (s : State) (w : Word) : s.readB (.ext w) = .ok (w, s) := rfl

/-- A pop that succeeds takes the oldest message and counts it. -/
theorem State.pop_ok {s t : State} {n : Fin 8} {v : Word} (h : s.pop n = .ok (v, t)) :
    ∃ rest, s.here.queues[n.val].msgs = v :: rest ∧
      t = s.setHere { s.here with queues := s.here.queues.set n.val ⟨rest, (s.here.queues[n.val]).head + 1, (s.here.queues[n.val]).tail⟩ } := by
  unfold State.pop at h
  split at h
  split at h
  · cases h
  · dsimp only at h
    split at h
    · cases h
    · rename_i m t' hm
      cases h
      exact ⟨t', hm, rfl⟩

/-- A push that succeeds appends the message and counts it. -/
theorem State.push_ok {s t : State} {n : Fin 8} {v : Word} (h : s.push n v = .ok t) :
    t = s.setHere { s.here with queues := s.here.queues.set n.val ⟨(s.here.queues[n.val]).msgs ++ [v], (s.here.queues[n.val]).head, (s.here.queues[n.val]).tail + 1⟩ } := by
  unfold State.push at h
  split at h <;> cases h
  rfl

/-- Whether a scalar destination takes a value does not depend on the value. -/
theorem State.writeS_any (s : State) (d : SReg) (v w : Word) {t : State} (h : s.writeS d v = .ok t) : ∃ u, s.writeS d w = .ok u := by
  cases d with
  | g n => exact ⟨_, rfl⟩
  | q n =>
    simp only [State.writeS, State.push] at h ⊢
    split at h
    · cases h
    · exact ⟨_, rfl⟩

/-! ### Completing an instruction (R184, R187) -/

theorem State.setRot_cases (s : State) (r : BitVec 5) : s.setRot r = s ∨ s.setRot r = s.setX { s.x with rot := r } := by
  unfold State.setRot; split <;> simp

@[simp] theorem State.setRot_me (s : State) (r : BitVec 5) : (s.setRot r).me = s.me := by
  rcases s.setRot_cases r with h | h <;> simp [h]

@[simp] theorem State.setRot_c (s : State) (r : BitVec 5) : (s.setRot r).c = s.c := by
  rcases s.setRot_cases r with h | h <;> simp [h]

theorem State.setRot_core_ne (s : State) (r : BitVec 5) {d : CoreId} (hd : d ≠ s.cur.core) : (s.setRot r).core d = s.core d := by
  rcases s.setRot_cases r with h | h <;> rw [h]
  exact State.core_setHere_ne s _ hd

@[simp] theorem State.setRot_seq (s : State) (r : BitVec 5) (q : SeqId) : (s.setRot r).here.seq q = s.here.seq q := by
  rcases s.setRot_cases r with h | h <;> rw [h]
  simp [State.setX, Core.seq]

@[simp] theorem State.setRot_agenda (s : State) (r : BitVec 5) : (s.setRot r).agenda = s.agenda := by unfold State.setRot; split <;> rfl
@[simp] theorem State.setRot_cur (s : State) (r : BitVec 5) : (s.setRot r).cur = s.cur := by unfold State.setRot; split <;> rfl
@[simp] theorem State.setRot_free (s : State) (r : BitVec 5) : (s.setRot r).free = s.free := by unfold State.setRot; split <;> rfl
@[simp] theorem State.setRot_stamp (s : State) (r : BitVec 5) : (s.setRot r).stamp = s.stamp := by unfold State.setRot; split <;> rfl
@[simp] theorem State.setRot_clock (s : State) (r : BitVec 5) : (s.setRot r).clock = s.clock := by unfold State.setRot; split <;> rfl
@[simp] theorem State.setRot_hm (s : State) (r : BitVec 5) : (s.setRot r).hm = s.hm := by unfold State.setRot; split <;> rfl
@[simp] theorem State.setRot_sch (s : State) (r : BitVec 5) : (s.setRot r).sch = s.sch := by unfold State.setRot; split <;> rfl
@[simp] theorem State.setRot_fab (s : State) (r : BitVec 5) : (s.setRot r).fab = s.fab := by unfold State.setRot; split <;> rfl
@[simp] theorem State.setRot_hst (s : State) (r : BitVec 5) : (s.setRot r).hst = s.hst := by unfold State.setRot; split <;> rfl

@[simp] theorem State.passEnd_agenda (s : State) (pc : Word) (n : Nat) : (s.passEnd pc n).agenda = s.agenda := by
  unfold State.passEnd; dsimp only; split <;> simp
@[simp] theorem State.passEnd_cur (s : State) (pc : Word) (n : Nat) : (s.passEnd pc n).cur = s.cur := by
  unfold State.passEnd; dsimp only; split <;> simp
@[simp] theorem State.passEnd_free (s : State) (pc : Word) (n : Nat) : (s.passEnd pc n).free = s.free := by
  unfold State.passEnd; dsimp only; split <;> simp
@[simp] theorem State.passEnd_stamp (s : State) (pc : Word) (n : Nat) : (s.passEnd pc n).stamp = s.stamp := by
  unfold State.passEnd; dsimp only; split <;> simp
@[simp] theorem State.passEnd_clock (s : State) (pc : Word) (n : Nat) : (s.passEnd pc n).clock = s.clock := by
  unfold State.passEnd; dsimp only; split <;> simp
@[simp] theorem State.passEnd_hm (s : State) (pc : Word) (n : Nat) : (s.passEnd pc n).hm = s.hm := by
  unfold State.passEnd; dsimp only; split <;> simp
@[simp] theorem State.passEnd_sch (s : State) (pc : Word) (n : Nat) : (s.passEnd pc n).sch = s.sch := by
  unfold State.passEnd; dsimp only; split <;> simp
@[simp] theorem State.passEnd_fab (s : State) (pc : Word) (n : Nat) : (s.passEnd pc n).fab = s.fab := by
  unfold State.passEnd; dsimp only; split <;> simp
@[simp] theorem State.passEnd_hst (s : State) (pc : Word) (n : Nat) : (s.passEnd pc n).hst = s.hst := by
  unfold State.passEnd; dsimp only; split <;> simp

@[simp] theorem State.complete_agenda (s : State) : s.complete.agenda = s.agenda := by
  unfold State.complete; dsimp only; split
  · rfl
  · split <;> simp
@[simp] theorem State.complete_cur (s : State) : s.complete.cur = s.cur := by
  unfold State.complete; dsimp only; split
  · rfl
  · split <;> simp
@[simp] theorem State.complete_free (s : State) : s.complete.free = s.free := by
  unfold State.complete; dsimp only; split
  · rfl
  · split <;> simp
@[simp] theorem State.complete_stamp (s : State) : s.complete.stamp = s.stamp := by
  unfold State.complete; dsimp only; split
  · rfl
  · split <;> simp
@[simp] theorem State.complete_clock (s : State) : s.complete.clock = s.clock := by
  unfold State.complete; dsimp only; split
  · rfl
  · split <;> simp
@[simp] theorem State.complete_hm (s : State) : s.complete.hm = s.hm := by
  unfold State.complete; dsimp only; split
  · rfl
  · split <;> simp
@[simp] theorem State.complete_sch (s : State) : s.complete.sch = s.sch := by
  unfold State.complete; dsimp only; split
  · rfl
  · split <;> simp
@[simp] theorem State.complete_fab (s : State) : s.complete.fab = s.fab := by
  unfold State.complete; dsimp only; split
  · rfl
  · split <;> simp
@[simp] theorem State.complete_hst (s : State) : s.complete.hst = s.hst := by
  unfold State.complete; dsimp only; split
  · rfl
  · split <;> simp

theorem State.passEnd_me (s : State) (pc : Word) (n : Nat) : ∃ p l, (s.passEnd pc n).me = { s.me with pc := p, loops := l } := by
  unfold State.passEnd; dsimp only; split
  · exact ⟨_, s.me.loops, State.me_setMe _ _⟩
  · exact ⟨_, _, by rw [State.setRot_me, State.me_setMe]⟩

/-- Completing changes the pc, the loop stack and the repeat count of the issuing sequencer, and nothing else of it. -/
theorem State.complete_me (s : State) : ∃ p l r, s.complete.me = { s.me with pc := p, loops := l, repc := r } := by
  unfold State.complete; dsimp only; split
  · exact ⟨s.me.pc, s.me.loops, _, State.me_setMe _ _⟩
  · split
    · obtain ⟨p, l, h⟩ := s.passEnd_me s.me.pc s.cur.len
      exact ⟨p, l, s.me.repc, h⟩
    · obtain ⟨p, l, h⟩ := (s.setMe { s.me with repc := 0 }).passEnd_me s.me.pc s.cur.len
      rw [State.me_setMe] at h
      exact ⟨p, l, 0, h⟩

theorem State.passEnd_core_ne (s : State) (pc : Word) (n : Nat) {d : CoreId} (h : d ≠ s.cur.core) :
    (s.passEnd pc n).core d = s.core d := by
  unfold State.passEnd; dsimp only; split
  · exact State.core_setMe_ne s _ h
  · rw [State.setRot_core_ne _ _ (by simpa using h)]
    exact State.core_setMe_ne s _ h

/-- Completing changes no other core. -/
theorem State.complete_core_ne (s : State) {d : CoreId} (h : d ≠ s.cur.core) : s.complete.core d = s.core d := by
  unfold State.complete; dsimp only; split
  · exact State.core_setMe_ne s _ h
  · split
    · exact State.passEnd_core_ne s _ _ h
    · rw [State.passEnd_core_ne _ _ _ (by simpa using h)]
      exact State.core_setMe_ne s _ h

theorem State.passEnd_seq_ne (s : State) (pc : Word) (n : Nat) {q : SeqId} (h : q ≠ s.cur.sq) :
    (s.passEnd pc n).here.seq q = s.here.seq q := by
  unfold State.passEnd; dsimp only; split
  · rw [State.here_setMe, Core.seq_setSeq_ne _ _ h]
  · rw [State.setRot_seq, State.here_setMe, Core.seq_setSeq_ne _ _ h]

/-- Completing changes no other sequencer of the core. -/
theorem State.complete_seq_ne (s : State) {q : SeqId} (h : q ≠ s.cur.sq) : s.complete.here.seq q = s.here.seq q := by
  unfold State.complete; dsimp only; split
  · rw [State.here_setMe, Core.seq_setSeq_ne _ _ h]
  · split
    · exact State.passEnd_seq_ne s _ _ h
    · rw [State.passEnd_seq_ne _ _ _ (by simpa using h), State.here_setMe, Core.seq_setSeq_ne _ _ h]

@[simp] theorem State.passEnd_c (s : State) (pc : Word) (n : Nat) : (s.passEnd pc n).c = s.c := by
  unfold State.passEnd; dsimp only; split <;> simp

@[simp] theorem State.complete_c (s : State) : s.complete.c = s.c := by
  unfold State.complete; dsimp only; split
  · simp
  · split <;> simp

/-- With no loop and no repetition, completing moves the pc past the instruction. -/
theorem State.complete_plain (s : State) (h1 : s.me.repc = 0) (h2 : loopDepth s.me.loops = 0) :
    s.complete = s.setMe { s.me with pc := s.me.pc + word s.cur.len } := by
  simp [State.complete, State.passEnd, h1, h2]

/-! ### Branches and traps -/

@[simp] theorem State.branch_me_pc (s : State) (t : Word) : (s.branch t).me.pc = t := by simp [State.branch]

@[simp] theorem State.branch_agenda (s : State) (t : Word) : (s.branch t).agenda = s.agenda := rfl
@[simp] theorem State.branch_cur (s : State) (t : Word) : (s.branch t).cur = s.cur := rfl
@[simp] theorem State.branch_free (s : State) (t : Word) : (s.branch t).free = s.free := rfl
@[simp] theorem State.branch_stamp (s : State) (t : Word) : (s.branch t).stamp = s.stamp := rfl
@[simp] theorem State.branch_clock (s : State) (t : Word) : (s.branch t).clock = s.clock := rfl
@[simp] theorem State.branch_hm (s : State) (t : Word) : (s.branch t).hm = s.hm := rfl
@[simp] theorem State.branch_sch (s : State) (t : Word) : (s.branch t).sch = s.sch := rfl
@[simp] theorem State.branch_fab (s : State) (t : Word) : (s.branch t).fab = s.fab := rfl
@[simp] theorem State.branch_hst (s : State) (t : Word) : (s.branch t).hst = s.hst := rfl

@[simp] theorem State.branch_rd (s : State) (t : Word) (n : Fin 32) : (s.branch t).me.rd n = s.me.rd n := by
  simp [State.branch, Seq.rd]

@[simp] theorem Seq.raise_trapPend (q : Seq) (pc : Word) (t : Trap) : (q.raise pc t).trapPend = true := rfl

@[simp] theorem Seq.raise_frame (q : Seq) (pc : Word) (t : Trap) :
    (q.raise pc t).frame = ⟨pc, word t.cause, t.addr, t.det, q.repc⟩ := rfl

end Sys2Proof.Machine
end

