-- ==== Sys2Proof/Laws/PerInstr.lean ====
section
/-! SUPPORT. The family RoundTrip: for each constructor of `Instr`, the words of a well-formed instruction decode to
  it. -/

set_option Elab.async false

namespace Sys2Proof

/-- The words of an instruction under any guard, with any words after them, decode to that guard, the length in bytes
  of
those words, and the instruction (R154 to R174). -/
def Laws.RoundTrip.Statement (i : Instr) : Prop :=
  ∀ (g : Option Guard) (ws : List Word), i.WellFormed →
    decode ((encode g i).headD 0) ((encode g i).tail ++ ws) = .ok ⟨g, 8 * (encode g i).length, i⟩

theorem rt_of {i : Instr} (e : Enc) (he : encodeFields i = some e) (ho : opAssigned e.op.toNat = true)
    (h : i.wf = true → ∀ g, decodeGroup (e.fields g) e.tail = .ok i) : Laws.RoundTrip.Statement i := by
  intro g ws hw
  simp only [encode, he, List.headD_cons, List.tail_cons, List.length_cons]
  exact decode_enc e g ws i ho (h hw.2 g)

theorem rt_none {i : Instr} (he : encodeFields i = none) : Laws.RoundTrip.Statement i := by
  intro g ws hw
  simp [Instr.WellFormed, he] at hw

theorem Laws.RoundTrip.nop : Laws.RoundTrip.Statement .nop := by
  exact rt_of _ rfl rfl fun hw g => by
    simp_all [-Nat.reduceAdd, bit1, decodeGroup, decodeControl, formNone, Enc.fields, noTail, Instr.wf]

theorem Laws.RoundTrip.br (d : Off) : Laws.RoundTrip.Statement (.br d) := by
  cases d <;> exact rt_of _ rfl rfl fun hw g => by
    simp_all [-Nat.reduceAdd, bit1, decodeGroup, decodeControl, Enc.fields, Enc.off, whole, Instr.wf]

theorem Laws.RoundTrip.bcc (c : Cond) (a : SReg) (b : SReg) (d : Off) : Laws.RoundTrip.Statement (.bcc c a b d) := by
  cases d <;> exact rt_of _ rfl rfl fun hw g => by
    simp_all [-Nat.reduceAdd, chk, bit1, decodeGroup, decodeControl, Enc.fields, Enc.off, whole, notB63, Instr.wf]

theorem Laws.RoundTrip.bbitEq (a : SReg) (b : BitVec 6) (d : Off) : Laws.RoundTrip.Statement (.bbitEq a b d) := by
  cases d <;> exact rt_of _ rfl rfl fun hw g => by
    simp_all [-Nat.reduceAdd, chk, bit1, decodeGroup, decodeControl, formBbit, Enc.fields, Enc.off, whole, Instr.wf]

theorem Laws.RoundTrip.bbitNe (a : SReg) (b : BitVec 6) (d : Off) : Laws.RoundTrip.Statement (.bbitNe a b d) := by
  cases d <;> exact rt_of _ rfl rfl fun hw g => by
    simp_all [-Nat.reduceAdd, chk, bit1, decodeGroup, decodeControl, formBbit, Enc.fields, Enc.off, whole, Instr.wf]

theorem Laws.RoundTrip.call (d : Fin 32) (t : Off) : Laws.RoundTrip.Statement (.call d t) := by
  cases t <;> exact rt_of _ rfl rfl fun hw g => by
    simp_all [-Nat.reduceAdd, bit1, decodeGroup, decodeControl, Enc.fields, Enc.off, whole, Instr.wf]

theorem Laws.RoundTrip.jmp (a : SReg) (k : Off) : Laws.RoundTrip.Statement (.jmp a k) := by
  cases k <;> exact rt_of _ rfl rfl fun hw g => by
    simp_all [-Nat.reduceAdd, bit1, decodeGroup, decodeControl, Enc.fields, Enc.off, whole, Instr.wf]

theorem Laws.RoundTrip.loop (rot : Bool) (a : SReg) (d : BitVec 19) : Laws.RoundTrip.Statement (.loop rot a d) := by
  cases rot <;> exact rt_of _ rfl rfl fun hw g => by
    simp_all [-Nat.reduceAdd, chk, bit1, decodeGroup, decodeControl, Enc.fields, noTail, Instr.wf]

theorem Laws.RoundTrip.loopi (rot : Bool) (n : BitVec 12) (d : BitVec 19) :
    Laws.RoundTrip.Statement (.loopi rot n d) := by
  cases rot <;> exact rt_of _ rfl rfl fun hw g => by
    simp_all [-Nat.reduceAdd, chk, bit1, decodeGroup, decodeControl, Enc.fields, noTail, Instr.wf]

theorem Laws.RoundTrip.rep (a : SReg) (n : BitVec 19) : Laws.RoundTrip.Statement (.rep a n) := by
  exact rt_of _ rfl rfl fun hw g => by
    simp_all [-Nat.reduceAdd, bit1, decodeGroup, decodeControl, Enc.fields, noTail, Instr.wf]

theorem Laws.RoundTrip.lbrk (m : BitVec 2) : Laws.RoundTrip.Statement (.lbrk m) := by
  exact rt_of _ rfl rfl fun hw g => by
    simp_all [-Nat.reduceAdd, BitVec.extractLsb'_append_eq_left, BitVec.extractLsb'_append_eq_of_add_le, bit1,
      decodeGroup, decodeControl, Enc.fields, noTail, Instr.wf]

theorem Laws.RoundTrip.trap (c : BitVec 16) : Laws.RoundTrip.Statement (.trap c) := by
  exact rt_of _ rfl rfl fun hw g => by
    simp_all [-Nat.reduceAdd, BitVec.extractLsb'_append_eq_left, BitVec.extractLsb'_append_eq_of_add_le, bit1,
      decodeGroup, decodeControl, Enc.fields, noTail, Instr.wf]

theorem Laws.RoundTrip.ueret : Laws.RoundTrip.Statement .ueret := by
  exact rt_of _ rfl rfl fun hw g => by
    simp_all [-Nat.reduceAdd, bit1, decodeGroup, decodeControl, formNone, Enc.fields, noTail, Instr.wf]

theorem Laws.RoundTrip.waitc (ld : BitVec 4) (st : BitVec 4) (cp : BitVec 4) (mx : BitVec 3) (rm : BitVec 4) :
    Laws.RoundTrip.Statement (.waitc ld st cp mx rm) := by
  exact rt_of _ rfl rfl fun hw g => by
    simp_all [-Nat.reduceAdd, BitVec.extractLsb'_append_eq_left, BitVec.extractLsb'_append_eq_of_le,
      BitVec.extractLsb'_append_eq_of_add_le, bit1, decodeGroup, decodeControl, formWaitc, Enc.fields, noTail,
      Instr.wf]

theorem Laws.RoundTrip.notify : Laws.RoundTrip.Statement .notify := by
  exact rt_of _ rfl rfl fun hw g => by
    simp_all [-Nat.reduceAdd, bit1, decodeGroup, decodeControl, formNone, Enc.fields, noTail, Instr.wf]

theorem Laws.RoundTrip.yield : Laws.RoundTrip.Statement .yield := by
  exact rt_of _ rfl rfl fun hw g => by
    simp_all [-Nat.reduceAdd, bit1, decodeGroup, decodeControl, formNone, Enc.fields, noTail, Instr.wf]

theorem Laws.RoundTrip.add (d : SReg) (a : SReg) (b : SB) : Laws.RoundTrip.Statement (.add d a b) :=
  rt_of (encAlu 0x10 0 d a b) rfl (by cases b <;> rfl) fun _ g =>
    (show decodeGroup ((encAlu 0x10 0 d a b).fields g) (encAlu 0x10 0 d a b).tail = formAlu .add _ _ by cases b <;>
      rfl).trans
      (formAlu_enc .add _ d a b g)

theorem Laws.RoundTrip.sub (d : SReg) (a : SReg) (b : SB) : Laws.RoundTrip.Statement (.sub d a b) :=
  rt_of (encAlu 0x11 0 d a b) rfl (by cases b <;> rfl) fun _ g =>
    (show decodeGroup ((encAlu 0x11 0 d a b).fields g) (encAlu 0x11 0 d a b).tail = formAlu .sub _ _ by cases b <;>
      rfl).trans
      (formAlu_enc .sub _ d a b g)

theorem Laws.RoundTrip.mul (d : SReg) (a : SReg) (b : SB) : Laws.RoundTrip.Statement (.mul d a b) :=
  rt_of (encAlu 0x12 0 d a b) rfl (by cases b <;> rfl) fun _ g =>
    (show decodeGroup ((encAlu 0x12 0 d a b).fields g) (encAlu 0x12 0 d a b).tail = formAlu .mul _ _ by cases b <;>
      rfl).trans
      (formAlu_enc .mul _ d a b g)

theorem Laws.RoundTrip.mulh (d : SReg) (a : SReg) (b : SB) : Laws.RoundTrip.Statement (.mulh d a b) :=
  rt_of (encAlu 0x13 0 d a b) rfl (by cases b <;> rfl) fun _ g =>
    (show decodeGroup ((encAlu 0x13 0 d a b).fields g) (encAlu 0x13 0 d a b).tail = formAlu .mulh _ _ by cases b <;>
      rfl).trans
      (formAlu_enc .mulh _ d a b g)

theorem Laws.RoundTrip.mulhn (d : SReg) (a : SReg) (b : SB) : Laws.RoundTrip.Statement (.mulhn d a b) :=
  rt_of (encAlu 0x14 0 d a b) rfl (by cases b <;> rfl) fun _ g =>
    (show decodeGroup ((encAlu 0x14 0 d a b).fields g) (encAlu 0x14 0 d a b).tail = formAlu .mulhn _ _ by cases b <;>
      rfl).trans
      (formAlu_enc .mulhn _ d a b g)

theorem Laws.RoundTrip.div (d : SReg) (a : SReg) (b : SB) : Laws.RoundTrip.Statement (.div d a b) :=
  rt_of (encAlu 0x15 0 d a b) rfl (by cases b <;> rfl) fun _ g =>
    (show decodeGroup ((encAlu 0x15 0 d a b).fields g) (encAlu 0x15 0 d a b).tail = formAlu .div _ _ by cases b <;>
      rfl).trans
      (formAlu_enc .div _ d a b g)

theorem Laws.RoundTrip.divn (d : SReg) (a : SReg) (b : SB) : Laws.RoundTrip.Statement (.divn d a b) :=
  rt_of (encAlu 0x16 0 d a b) rfl (by cases b <;> rfl) fun _ g =>
    (show decodeGroup ((encAlu 0x16 0 d a b).fields g) (encAlu 0x16 0 d a b).tail = formAlu .divn _ _ by cases b <;>
      rfl).trans
      (formAlu_enc .divn _ d a b g)

theorem Laws.RoundTrip.rem (d : SReg) (a : SReg) (b : SB) : Laws.RoundTrip.Statement (.rem d a b) :=
  rt_of (encAlu 0x17 0 d a b) rfl (by cases b <;> rfl) fun _ g =>
    (show decodeGroup ((encAlu 0x17 0 d a b).fields g) (encAlu 0x17 0 d a b).tail = formAlu .rem _ _ by cases b <;>
      rfl).trans
      (formAlu_enc .rem _ d a b g)

theorem Laws.RoundTrip.remn (d : SReg) (a : SReg) (b : SB) : Laws.RoundTrip.Statement (.remn d a b) :=
  rt_of (encAlu 0x18 0 d a b) rfl (by cases b <;> rfl) fun _ g =>
    (show decodeGroup ((encAlu 0x18 0 d a b).fields g) (encAlu 0x18 0 d a b).tail = formAlu .remn _ _ by cases b <;>
      rfl).trans
      (formAlu_enc .remn _ d a b g)

theorem Laws.RoundTrip.and (d : SReg) (a : SReg) (b : SB) : Laws.RoundTrip.Statement (.and d a b) :=
  rt_of (encAlu 0x19 0 d a b) rfl (by cases b <;> rfl) fun _ g =>
    (show decodeGroup ((encAlu 0x19 0 d a b).fields g) (encAlu 0x19 0 d a b).tail = formAlu .and _ _ by cases b <;>
      rfl).trans
      (formAlu_enc .and _ d a b g)

theorem Laws.RoundTrip.or (d : SReg) (a : SReg) (b : SB) : Laws.RoundTrip.Statement (.or d a b) :=
  rt_of (encAlu 0x1A 0 d a b) rfl (by cases b <;> rfl) fun _ g =>
    (show decodeGroup ((encAlu 0x1A 0 d a b).fields g) (encAlu 0x1A 0 d a b).tail = formAlu .or _ _ by cases b <;>
      rfl).trans
      (formAlu_enc .or _ d a b g)

theorem Laws.RoundTrip.xor (d : SReg) (a : SReg) (b : SB) : Laws.RoundTrip.Statement (.xor d a b) :=
  rt_of (encAlu 0x1B 0 d a b) rfl (by cases b <;> rfl) fun _ g =>
    (show decodeGroup ((encAlu 0x1B 0 d a b).fields g) (encAlu 0x1B 0 d a b).tail = formAlu .xor _ _ by cases b <;>
      rfl).trans
      (formAlu_enc .xor _ d a b g)

theorem Laws.RoundTrip.andn (d : SReg) (a : SReg) (b : SB) : Laws.RoundTrip.Statement (.andn d a b) :=
  rt_of (encAlu 0x1C 0 d a b) rfl (by cases b <;> rfl) fun _ g =>
    (show decodeGroup ((encAlu 0x1C 0 d a b).fields g) (encAlu 0x1C 0 d a b).tail = formAlu .andn _ _ by cases b <;>
      rfl).trans
      (formAlu_enc .andn _ d a b g)

theorem Laws.RoundTrip.shl (d : SReg) (a : SReg) (b : SB) : Laws.RoundTrip.Statement (.shl d a b) :=
  rt_of (encAlu 0x1D 0 d a b) rfl (by cases b <;> rfl) fun _ g =>
    (show decodeGroup ((encAlu 0x1D 0 d a b).fields g) (encAlu 0x1D 0 d a b).tail = formAlu .shl _ _ by cases b <;>
      rfl).trans
      (formAlu_enc .shl _ d a b g)

theorem Laws.RoundTrip.shr (d : SReg) (a : SReg) (b : SB) : Laws.RoundTrip.Statement (.shr d a b) :=
  rt_of (encAlu 0x1E 0 d a b) rfl (by cases b <;> rfl) fun _ g =>
    (show decodeGroup ((encAlu 0x1E 0 d a b).fields g) (encAlu 0x1E 0 d a b).tail = formAlu .shr _ _ by cases b <;>
      rfl).trans
      (formAlu_enc .shr _ d a b g)

theorem Laws.RoundTrip.sar (d : SReg) (a : SReg) (b : SB) : Laws.RoundTrip.Statement (.sar d a b) :=
  rt_of (encAlu 0x1F 0 d a b) rfl (by cases b <;> rfl) fun _ g =>
    (show decodeGroup ((encAlu 0x1F 0 d a b).fields g) (encAlu 0x1F 0 d a b).tail = formAlu .sar _ _ by cases b <;>
      rfl).trans
      (formAlu_enc .sar _ d a b g)

theorem Laws.RoundTrip.ror (d : SReg) (a : SReg) (b : SB) : Laws.RoundTrip.Statement (.ror d a b) :=
  rt_of (encAlu 0x20 0 d a b) rfl (by cases b <;> rfl) fun _ g =>
    (show decodeGroup ((encAlu 0x20 0 d a b).fields g) (encAlu 0x20 0 d a b).tail = formAlu .ror _ _ by cases b <;>
      rfl).trans
      (formAlu_enc .ror _ d a b g)

theorem Laws.RoundTrip.min (d : SReg) (a : SReg) (b : SB) : Laws.RoundTrip.Statement (.min d a b) :=
  rt_of (encAlu 0x21 0 d a b) rfl (by cases b <;> rfl) fun _ g =>
    (show decodeGroup ((encAlu 0x21 0 d a b).fields g) (encAlu 0x21 0 d a b).tail = formAlu .min _ _ by cases b <;>
      rfl).trans
      (formAlu_enc .min _ d a b g)

theorem Laws.RoundTrip.max (d : SReg) (a : SReg) (b : SB) : Laws.RoundTrip.Statement (.max d a b) :=
  rt_of (encAlu 0x22 0 d a b) rfl (by cases b <;> rfl) fun _ g =>
    (show decodeGroup ((encAlu 0x22 0 d a b).fields g) (encAlu 0x22 0 d a b).tail = formAlu .max _ _ by cases b <;>
      rfl).trans
      (formAlu_enc .max _ d a b g)

theorem Laws.RoundTrip.minn (d : SReg) (a : SReg) (b : SB) : Laws.RoundTrip.Statement (.minn d a b) :=
  rt_of (encAlu 0x23 0 d a b) rfl (by cases b <;> rfl) fun _ g =>
    (show decodeGroup ((encAlu 0x23 0 d a b).fields g) (encAlu 0x23 0 d a b).tail = formAlu .minn _ _ by cases b <;>
      rfl).trans
      (formAlu_enc .minn _ d a b g)

theorem Laws.RoundTrip.maxn (d : SReg) (a : SReg) (b : SB) : Laws.RoundTrip.Statement (.maxn d a b) :=
  rt_of (encAlu 0x24 0 d a b) rfl (by cases b <;> rfl) fun _ g =>
    (show decodeGroup ((encAlu 0x24 0 d a b).fields g) (encAlu 0x24 0 d a b).tail = formAlu .maxn _ _ by cases b <;>
      rfl).trans
      (formAlu_enc .maxn _ d a b g)

theorem Laws.RoundTrip.cmp (c : Cond) (d : SReg) (a : SReg) (b : SB) : Laws.RoundTrip.Statement (.cmp c d a b) := by
  cases b <;> exact rt_of _ rfl rfl fun hw g => by
    simp_all [-Nat.reduceAdd, chk, bit1, decodeGroup, decodeAlu, Enc.fields, Enc.sb, encAlu, sbChk, sbOf, Instr.wf]

theorem Laws.RoundTrip.clz (d : SReg) (a : SReg) : Laws.RoundTrip.Statement (.clz d a) := by
  exact rt_of _ rfl rfl fun hw g => by
    simp_all [-Nat.reduceAdd, bit1, decodeGroup, decodeAlu, formDA, Enc.fields, noTail, Instr.wf]

theorem Laws.RoundTrip.ctz (d : SReg) (a : SReg) : Laws.RoundTrip.Statement (.ctz d a) := by
  exact rt_of _ rfl rfl fun hw g => by
    simp_all [-Nat.reduceAdd, bit1, decodeGroup, decodeAlu, formDA, Enc.fields, noTail, Instr.wf]

theorem Laws.RoundTrip.popc (d : SReg) (a : SReg) : Laws.RoundTrip.Statement (.popc d a) := by
  exact rt_of _ rfl rfl fun hw g => by
    simp_all [-Nat.reduceAdd, bit1, decodeGroup, decodeAlu, formDA, Enc.fields, noTail, Instr.wf]

theorem Laws.RoundTrip.ext (sgn : Bool) (d : SReg) (a : SReg) (b : SB) :
    Laws.RoundTrip.Statement (.ext sgn d a b) := by
  cases sgn <;> cases b <;> exact rt_of _ rfl rfl fun hw g => by
    simp_all [-Nat.reduceAdd, chk, bit1, decodeGroup, decodeAlu, Enc.fields, Enc.sb, encAlu, sbChk, sbOf, Instr.wf]

theorem Laws.RoundTrip.bfx (sgn : Bool) (d : SReg) (a : SReg) (lo : BitVec 6) (w : BitVec 7) :
    Laws.RoundTrip.Statement (.bfx sgn d a lo w) := by
  cases sgn <;> exact rt_of _ rfl rfl fun hw g => by
    simp_all [-Nat.reduceAdd, BitVec.extractLsb'_append_eq_left, bfChk, BitVec.extractLsb'_append_eq_of_le,
      BitVec.extractLsb'_append_eq_of_add_le, chk, bit1, decodeGroup, decodeAlu, Enc.fields, noTail, Instr.wf]

theorem Laws.RoundTrip.bfi (d : Fin 32) (a : SReg) (lo : BitVec 6) (w : BitVec 7) :
    Laws.RoundTrip.Statement (.bfi d a lo w) := by
  exact rt_of _ rfl rfl fun hw g => by
    simp_all [-Nat.reduceAdd, BitVec.extractLsb'_append_eq_left, bfChk, BitVec.extractLsb'_append_eq_of_le,
      BitVec.extractLsb'_append_eq_of_add_le, chk, bit1, decodeGroup, decodeAlu, Enc.fields, noTail, Instr.wf]

theorem Laws.RoundTrip.ldi (d : SReg) (v : Off) : Laws.RoundTrip.Statement (.ldi d v) := by
  cases v <;> exact rt_of _ rfl rfl fun hw g => by
    simp_all [-Nat.reduceAdd, chk, bit1, decodeGroup, decodeAlu, Enc.fields, Enc.off, whole, Instr.wf]

theorem Laws.RoundTrip.mov (d : SReg) (a : SReg) : Laws.RoundTrip.Statement (.mov d a) := by
  exact rt_of _ rfl rfl fun hw g => by
    simp_all [-Nat.reduceAdd, bit1, decodeGroup, decodeAlu, formMov, Enc.fields, noTail, Instr.wf]

theorem Laws.RoundTrip.mfsr (d : SReg) (i : BitVec 8) : Laws.RoundTrip.Statement (.mfsr d i) := by
  exact rt_of _ rfl rfl fun hw g => by
    simp_all [-Nat.reduceAdd, BitVec.extractLsb'_append_eq_left, BitVec.extractLsb'_append_eq_of_add_le, bit1,
      decodeGroup, decodeAlu, formMov, Enc.fields, noTail, Instr.wf]

theorem Laws.RoundTrip.mtsr (i : BitVec 8) (a : SReg) : Laws.RoundTrip.Statement (.mtsr i a) := by
  exact rt_of _ rfl rfl fun hw g => by
    simp_all [-Nat.reduceAdd, BitVec.extractLsb'_append_eq_left, BitVec.extractLsb'_append_eq_of_add_le, bit1,
      decodeGroup, decodeAlu, formMov, Enc.fields, noTail, Instr.wf]

theorem Laws.RoundTrip.bset (d : SReg) (a : SReg) (b : SB) : Laws.RoundTrip.Statement (.bset d a b) := by
  cases b <;> exact rt_of _ rfl rfl fun hw g => by
    simp_all [-Nat.reduceAdd, chk, bit1, decodeGroup, decodeAlu, Enc.fields, Enc.sb, encAlu, sbChk, sbOf, Instr.wf]

theorem Laws.RoundTrip.bclr (d : SReg) (a : SReg) (b : SB) : Laws.RoundTrip.Statement (.bclr d a b) := by
  cases b <;> exact rt_of _ rfl rfl fun hw g => by
    simp_all [-Nat.reduceAdd, chk, bit1, decodeGroup, decodeAlu, Enc.fields, Enc.sb, encAlu, sbChk, sbOf, Instr.wf]

theorem Laws.RoundTrip.crc (sz : Size) (d : SReg) (a : SReg) (b : SB) : Laws.RoundTrip.Statement (.crc sz d a b) := by
  cases b <;> exact rt_of _ rfl rfl fun hw g => by
    simp_all [-Nat.reduceAdd, BitVec.extractLsb'_append_eq_left, BitVec.extractLsb'_append_eq_of_add_le, chk, bit1,
      decodeGroup, decodeAlu, Enc.fields, Enc.sb, encAlu, sbChk, sbOf, Instr.wf]

theorem Laws.RoundTrip.ld (sgn : Bool) (sz : Size) (lm : Bool) (d : SReg) (a : SReg) (k : Off) :
    Laws.RoundTrip.Statement (.ld sgn sz lm d a k) := by
  cases k <;> exact rt_of _ rfl rfl fun hw g => by
    simp_all [-Nat.reduceAdd, BitVec.extractLsb'_append_eq_of_add_le, decodeGroup, decodeMem, formLd, Enc.fields,
      Enc.off, whole, Instr.wf]

theorem Laws.RoundTrip.st (sz : Size) (lm : Bool) (v : SReg) (a : SReg) (k : Off) :
    Laws.RoundTrip.Statement (.st sz lm v a k) := by
  cases k <;> exact rt_of _ rfl rfl fun hw g => by
    simp_all [-Nat.reduceAdd, BitVec.extractLsb'_append_eq_of_add_le, chk, decodeGroup, decodeMem, formSt, Enc.fields,
      Enc.off, whole, Instr.wf]

theorem Laws.RoundTrip.lda (sgn : Bool) (sz : Size) (sc : Scope) (d : SReg) (a : SReg) (k : Off) :
    Laws.RoundTrip.Statement (.lda sgn sz sc d a k) := by
  cases k <;> exact rt_of _ rfl rfl fun hw g => by
    simp_all [-Nat.reduceAdd, BitVec.extractLsb'_append_eq_left, BitVec.extractLsb'_append_eq_of_add_le, chk,
      decodeGroup, decodeMem, Enc.fields, Enc.off, whole, Instr.wf]

theorem Laws.RoundTrip.str (sz : Size) (sc : Scope) (v : SReg) (a : SReg) (k : Off) :
    Laws.RoundTrip.Statement (.str sz sc v a k) := by
  cases k <;> exact rt_of _ rfl rfl fun hw g => by
    simp_all [-Nat.reduceAdd, BitVec.extractLsb'_append_eq_left, BitVec.extractLsb'_append_eq_of_add_le, bit1,
      decodeGroup, decodeMem, Enc.fields, Enc.off, whole, Instr.wf]

theorem Laws.RoundTrip.ldm (lm : Bool) (d : Fin 32) (n : BitVec 5) (a : SReg) (k : Off) :
    Laws.RoundTrip.Statement (.ldm lm d n a k) := by
  cases lm <;> cases k <;> exact rt_of _ rfl rfl fun hw g => by
    simp_all [-Nat.reduceAdd, BitVec.extractLsb'_append_eq_of_add_le, chk, runOk, bit1, decodeGroup, decodeMem, formM,
      Enc.fields, Enc.off, whole, Instr.wf]

theorem Laws.RoundTrip.stm (lm : Bool) (d : Fin 32) (n : BitVec 5) (a : SReg) (k : Off) :
    Laws.RoundTrip.Statement (.stm lm d n a k) := by
  cases lm <;> cases k <;> exact rt_of _ rfl rfl fun hw g => by
    simp_all [-Nat.reduceAdd, BitVec.extractLsb'_append_eq_of_add_le, chk, runOk, bit1, decodeGroup, decodeMem, formM,
      Enc.fields, Enc.off, whole, Instr.wf]

theorem Laws.RoundTrip.amo (op : AtomOp) (w8 : Bool) (lm : Bool) (o : Order) (sc : Scope) (d : SReg) (a : SReg) (b : SReg) :
    Laws.RoundTrip.Statement (.amo op w8 lm o sc d a b) := by
  cases w8 <;> cases lm <;> exact rt_of _ rfl rfl fun hw g => by
    simp_all [-Nat.reduceAdd, atomChk, atomOk, chk, bit1, decodeGroup, decodeMem, formAmo, Enc.fields, noTail, notB63,
      Instr.wf]

theorem Laws.RoundTrip.cas (w8 : Bool) (lm : Bool) (o : Order) (sc : Scope) (d : SReg) (a : SReg) (b : SReg) :
    Laws.RoundTrip.Statement (.cas w8 lm o sc d a b) := by
  cases w8 <;> cases lm <;> exact rt_of _ rfl rfl fun hw g => by
    simp_all [-Nat.reduceAdd, atomChk, chk, bit1, decodeGroup, decodeMem, formCas, Enc.fields, noTail, notB63,
      Instr.wf]

theorem Laws.RoundTrip.red (op : AtomOp) (w8 : Bool) (lm : Bool) (o : Order) (sc : Scope) (a : SReg) (b : SReg) :
    Laws.RoundTrip.Statement (.red op w8 lm o sc a b) := by
  cases w8 <;> cases lm <;> exact rt_of _ rfl rfl fun hw g => by
    simp_all [-Nat.reduceAdd, atomChk, atomOk, chk, bit1, decodeGroup, decodeMem, formRed, Enc.fields, noTail, notB63,
      Instr.wf]

theorem Laws.RoundTrip.spill (s : BitVec 9) (a : Fin 32) (n : BitVec 5) :
    Laws.RoundTrip.Statement (.spill s a n) := by
  exact rt_of _ rfl rfl fun hw g => by
    simp_all [-Nat.reduceAdd, spillChk, BitVec.extractLsb'_append_eq_of_add_le, chk, runOk, bit1, decodeGroup,
      decodeMem, Enc.fields, noTail, Instr.wf]

theorem Laws.RoundTrip.fill (d : Fin 32) (s : BitVec 9) (n : BitVec 5) : Laws.RoundTrip.Statement (.fill d s n) := by
  exact rt_of _ rfl rfl fun hw g => by
    simp_all [-Nat.reduceAdd, spillChk, BitVec.extractLsb'_append_eq_of_add_le, chk, runOk, bit1, decodeGroup,
      decodeMem, Enc.fields, noTail, Instr.wf]

theorem Laws.RoundTrip.pref (l2 : Bool) (a : SReg) (k : Off) : Laws.RoundTrip.Statement (.pref l2 a k) := by
  cases l2 <;> cases k <;> exact rt_of _ rfl rfl fun hw g => by
    simp_all [-Nat.reduceAdd, chk, bit1, decodeGroup, decodeMem, Enc.fields, Enc.off, whole, Instr.wf]

theorem Laws.RoundTrip.invl1 : Laws.RoundTrip.Statement .invl1 := by
  exact rt_of _ rfl rfl fun hw g => by
    simp_all [-Nat.reduceAdd, bit1, decodeGroup, decodeMem, formNone, Enc.fields, noTail, Instr.wf]

theorem Laws.RoundTrip.layer (a : SReg) (n : BitVec 19) : Laws.RoundTrip.Statement (.layer a n) := by
  exact rt_of _ rfl rfl fun hw g => by
    simp_all [-Nat.reduceAdd, bit1, decodeGroup, decodeMem, Enc.fields, noTail, Instr.wf]

theorem Laws.RoundTrip.mark (k : MarkKind) (sc : Scope) : Laws.RoundTrip.Statement (.mark k sc) := by
  exact rt_of _ rfl rfl fun hw g => by
    simp_all [-Nat.reduceAdd, BitVec.extractLsb'_append_eq_left, BitVec.extractLsb'_append_eq_of_add_le, bit1,
      decodeGroup, decodeOrder, Enc.fields, noTail, Instr.wf]

theorem Laws.RoundTrip.tpost (t : Fin 8) (b : SB) : Laws.RoundTrip.Statement (.tpost t b) := by
  cases b <;> exact rt_of _ rfl rfl fun hw g => by
    simp_all [-Nat.reduceAdd, chk, bit1, decodeGroup, decodeOrder, Enc.fields, Enc.sb, sbChk, sbOf, Instr.wf]

theorem Laws.RoundTrip.twait (t : Fin 8) (b : SB) : Laws.RoundTrip.Statement (.twait t b) := by
  cases b <;> exact rt_of _ rfl rfl fun hw g => by
    simp_all [-Nat.reduceAdd, chk, bit1, decodeGroup, decodeOrder, Enc.fields, Enc.sb, sbChk, sbOf, Instr.wf]

theorem Laws.RoundTrip.qstat (d : SReg) (n : Fin 8) : Laws.RoundTrip.Statement (.qstat d n) := by
  exact rt_of _ rfl rfl fun hw g => by
    simp_all [-Nat.reduceAdd, bit1, decodeGroup, decodeOrder, Enc.fields, noTail, Instr.wf]
      <;> exact Fin.ext (by simp <;> omega)

theorem Laws.RoundTrip.bar (level : Fin 9) : Laws.RoundTrip.Statement (.bar level) := by
  exact rt_of _ rfl rfl fun hw g => by
    simp_all [-Nat.reduceAdd, bit1, decodeGroup, decodeOrder, Enc.fields, noTail, Instr.wf]

theorem Laws.RoundTrip.step (d : SReg) : Laws.RoundTrip.Statement (.step d) := by
  exact rt_of _ rfl rfl fun hw g => by
    simp_all [-Nat.reduceAdd, bit1, decodeGroup, decodeOrder, Enc.fields, noTail, Instr.wf]

theorem Laws.RoundTrip.flagw (d : SReg) (a : SReg) (t : FlagT) : Laws.RoundTrip.Statement (.flagw d a t) := by
  cases t <;> exact rt_of _ rfl rfl fun hw g => by
    simp_all [-Nat.reduceAdd, chk, bit1, decodeGroup, decodeOrder, formFlagw, Enc.fields, Instr.wf]

theorem Laws.RoundTrip.vadd (t : ElemT) (d : VR) (a : VR) (b : VB) : Laws.RoundTrip.Statement (.vadd t d a b) :=
  rt_of (encV3 0x60 t d a b) rfl (by cases b <;> rfl) fun hw g =>
    (show decodeGroup ((encV3 0x60 t d a b).fields g) (encV3 0x60 t d a b).tail = formV3 .all .vadd _ _ by cases b <;>
      rfl).trans
      (formV3_enc .all .vadd _ t d a b g rfl hw)

theorem Laws.RoundTrip.vsub (t : ElemT) (d : VR) (a : VR) (b : VB) : Laws.RoundTrip.Statement (.vsub t d a b) :=
  rt_of (encV3 0x61 t d a b) rfl (by cases b <;> rfl) fun hw g =>
    (show decodeGroup ((encV3 0x61 t d a b).fields g) (encV3 0x61 t d a b).tail = formV3 .all .vsub _ _ by cases b <;>
      rfl).trans
      (formV3_enc .all .vsub _ t d a b g rfl hw)

theorem Laws.RoundTrip.vmul (t : ElemT) (d : VR) (a : VR) (b : VB) : Laws.RoundTrip.Statement (.vmul t d a b) :=
  rt_of (encV3 0x62 t d a b) rfl (by cases b <;> rfl) fun hw g =>
    (show decodeGroup ((encV3 0x62 t d a b).fields g) (encV3 0x62 t d a b).tail = formV3 .all .vmul _ _ by cases b <;>
      rfl).trans
      (formV3_enc .all .vmul _ t d a b g rfl hw)

theorem Laws.RoundTrip.vfma (t : ElemT) (d : Fin 48) (a : VR) (b : VB) :
    Laws.RoundTrip.Statement (.vfma t d a b) := by
  cases b <;> exact rt_of _ rfl rfl fun hw g => by
    simp_all [-Nat.reduceAdd, VB.ok, chk, bit1, decodeGroup, decodeVecArith, Enc.fields, Enc.vb, encV3, vbChk, vbOf,
      Instr.wf]

theorem Laws.RoundTrip.vmin (t : ElemT) (d : VR) (a : VR) (b : VB) : Laws.RoundTrip.Statement (.vmin t d a b) :=
  rt_of (encV3 0x64 t d a b) rfl (by cases b <;> rfl) fun hw g =>
    (show decodeGroup ((encV3 0x64 t d a b).fields g) (encV3 0x64 t d a b).tail = formV3 .all .vmin _ _ by cases b <;>
      rfl).trans
      (formV3_enc .all .vmin _ t d a b g rfl hw)

theorem Laws.RoundTrip.vmax (t : ElemT) (d : VR) (a : VR) (b : VB) : Laws.RoundTrip.Statement (.vmax t d a b) :=
  rt_of (encV3 0x65 t d a b) rfl (by cases b <;> rfl) fun hw g =>
    (show decodeGroup ((encV3 0x65 t d a b).fields g) (encV3 0x65 t d a b).tail = formV3 .all .vmax _ _ by cases b <;>
      rfl).trans
      (formV3_enc .all .vmax _ t d a b g rfl hw)

theorem Laws.RoundTrip.vabs (t : ElemT) (d : VR) (a : VR) : Laws.RoundTrip.Statement (.vabs t d a) :=
  rt_of (encV2 0x66 t d a) rfl (by rfl) fun _ g =>
    (show decodeGroup ((encV2 0x66 t d a).fields g) (encV2 0x66 t d a).tail = formV2 .all .vabs _ _ by rfl).trans
      (formV2_enc .all .vabs _ t d a g rfl)

theorem Laws.RoundTrip.vneg (t : ElemT) (d : VR) (a : VR) : Laws.RoundTrip.Statement (.vneg t d a) :=
  rt_of (encV2 0x67 t d a) rfl (by rfl) fun _ g =>
    (show decodeGroup ((encV2 0x67 t d a).fields g) (encV2 0x67 t d a).tail = formV2 .all .vneg _ _ by rfl).trans
      (formV2_enc .all .vneg _ t d a g rfl)

theorem Laws.RoundTrip.vand (t : ElemT) (d : VR) (a : VR) (b : VB) : Laws.RoundTrip.Statement (.vand t d a b) :=
  rt_of (encV3 0x68 t d a b) rfl (by cases b <;> rfl) fun hw g =>
    (show decodeGroup ((encV3 0x68 t d a b).fields g) (encV3 0x68 t d a b).tail = formV3 .int .vand _ _ by cases b <;>
      rfl).trans
      (formV3_enc .int .vand _ t d a b g (by simpa [TSet.has, Instr.wf] using hw) (VB.ok_int t b
        (by simpa [Instr.wf] using hw)))

theorem Laws.RoundTrip.vor (t : ElemT) (d : VR) (a : VR) (b : VB) : Laws.RoundTrip.Statement (.vor t d a b) :=
  rt_of (encV3 0x69 t d a b) rfl (by cases b <;> rfl) fun hw g =>
    (show decodeGroup ((encV3 0x69 t d a b).fields g) (encV3 0x69 t d a b).tail = formV3 .int .vor _ _ by cases b <;>
      rfl).trans
      (formV3_enc .int .vor _ t d a b g (by simpa [TSet.has, Instr.wf] using hw) (VB.ok_int t b
        (by simpa [Instr.wf] using hw)))

theorem Laws.RoundTrip.vxor (t : ElemT) (d : VR) (a : VR) (b : VB) : Laws.RoundTrip.Statement (.vxor t d a b) :=
  rt_of (encV3 0x6A t d a b) rfl (by cases b <;> rfl) fun hw g =>
    (show decodeGroup ((encV3 0x6A t d a b).fields g) (encV3 0x6A t d a b).tail = formV3 .int .vxor _ _ by cases b <;>
      rfl).trans
      (formV3_enc .int .vxor _ t d a b g (by simpa [TSet.has, Instr.wf] using hw) (VB.ok_int t b
        (by simpa [Instr.wf] using hw)))

theorem Laws.RoundTrip.vnot (t : ElemT) (d : VR) (a : VR) : Laws.RoundTrip.Statement (.vnot t d a) :=
  rt_of (encV2 0x6B t d a) rfl (by rfl) fun hw g =>
    (show decodeGroup ((encV2 0x6B t d a).fields g) (encV2 0x6B t d a).tail = formV2 .int .vnot _ _ by rfl).trans
      (formV2_enc .int .vnot _ t d a g (by simpa [TSet.has, Instr.wf] using hw))

theorem Laws.RoundTrip.vshl (t : ElemT) (d : VR) (a : VR) (b : VB) : Laws.RoundTrip.Statement (.vshl t d a b) :=
  rt_of (encV3 0x6C t d a b) rfl (by cases b <;> rfl) fun hw g =>
    (show decodeGroup ((encV3 0x6C t d a b).fields g) (encV3 0x6C t d a b).tail = formV3 .int .vshl _ _ by cases b <;>
      rfl).trans
      (formV3_enc .int .vshl _ t d a b g (by simpa [TSet.has, Instr.wf] using hw) (VB.ok_int t b
        (by simpa [Instr.wf] using hw)))

theorem Laws.RoundTrip.vshr (t : ElemT) (d : VR) (a : VR) (b : VB) : Laws.RoundTrip.Statement (.vshr t d a b) :=
  rt_of (encV3 0x6D t d a b) rfl (by cases b <;> rfl) fun hw g =>
    (show decodeGroup ((encV3 0x6D t d a b).fields g) (encV3 0x6D t d a b).tail = formV3 .int .vshr _ _ by cases b <;>
      rfl).trans
      (formV3_enc .int .vshr _ t d a b g (by simpa [TSet.has, Instr.wf] using hw) (VB.ok_int t b
        (by simpa [Instr.wf] using hw)))

theorem Laws.RoundTrip.vsar (t : ElemT) (d : VR) (a : VR) (b : VB) : Laws.RoundTrip.Statement (.vsar t d a b) :=
  rt_of (encV3 0x6E t d a b) rfl (by cases b <;> rfl) fun hw g =>
    (show decodeGroup ((encV3 0x6E t d a b).fields g) (encV3 0x6E t d a b).tail = formV3 .int .vsar _ _ by cases b <;>
      rfl).trans
      (formV3_enc .int .vsar _ t d a b g (by simpa [TSet.has, Instr.wf] using hw) (VB.ok_int t b
        (by simpa [Instr.wf] using hw)))

theorem Laws.RoundTrip.vadds (t : ElemT) (d : VR) (a : VR) (b : VB) : Laws.RoundTrip.Statement (.vadds t d a b) :=
  rt_of (encV3 0x6F t d a b) rfl (by cases b <;> rfl) fun hw g =>
    (show decodeGroup ((encV3 0x6F t d a b).fields g) (encV3 0x6F t d a b).tail = formV3 .int .vadds _ _ by cases b
      <;> rfl).trans
      (formV3_enc .int .vadds _ t d a b g (by simpa [TSet.has, Instr.wf] using hw) (VB.ok_int t b
        (by simpa [Instr.wf] using hw)))

theorem Laws.RoundTrip.vsubs (t : ElemT) (d : VR) (a : VR) (b : VB) : Laws.RoundTrip.Statement (.vsubs t d a b) :=
  rt_of (encV3 0x70 t d a b) rfl (by cases b <;> rfl) fun hw g =>
    (show decodeGroup ((encV3 0x70 t d a b).fields g) (encV3 0x70 t d a b).tail = formV3 .int .vsubs _ _ by cases b
      <;> rfl).trans
      (formV3_enc .int .vsubs _ t d a b g (by simpa [TSet.has, Instr.wf] using hw) (VB.ok_int t b
        (by simpa [Instr.wf] using hw)))

theorem Laws.RoundTrip.vdiv (t : ElemT) (d : VR) (a : VR) (b : VB) : Laws.RoundTrip.Statement (.vdiv t d a b) :=
  rt_of (encV3 0x71 t d a b) rfl (by cases b <;> rfl) fun hw g =>
    (show decodeGroup ((encV3 0x71 t d a b).fields g) (encV3 0x71 t d a b).tail = formV3 .flt .vdiv _ _ by cases b <;>
      rfl).trans
      (formV3_enc .flt .vdiv _ t d a b g (by simp [Instr.wf] at hw; simp [TSet.has, hw])
        (by simp [Instr.wf] at hw; exact hw.2))

theorem Laws.RoundTrip.vsqrt (t : ElemT) (d : VR) (a : VR) : Laws.RoundTrip.Statement (.vsqrt t d a) :=
  rt_of (encV2 0x72 t d a) rfl (by rfl) fun hw g =>
    (show decodeGroup ((encV2 0x72 t d a).fields g) (encV2 0x72 t d a).tail = formV2 .flt .vsqrt _ _ by rfl).trans
      (formV2_enc .flt .vsqrt _ t d a g (by simp [Instr.wf] at hw; simp [TSet.has, hw]))

theorem Laws.RoundTrip.vrcp (t : ElemT) (d : VR) (a : VR) : Laws.RoundTrip.Statement (.vrcp t d a) :=
  rt_of (encV2 0x73 t d a) rfl (by rfl) fun hw g =>
    (show decodeGroup ((encV2 0x73 t d a).fields g) (encV2 0x73 t d a).tail = formV2 .flt .vrcp _ _ by rfl).trans
      (formV2_enc .flt .vrcp _ t d a g (by simp [Instr.wf] at hw; simp [TSet.has, hw]))

theorem Laws.RoundTrip.vrsq (t : ElemT) (d : VR) (a : VR) : Laws.RoundTrip.Statement (.vrsq t d a) :=
  rt_of (encV2 0x74 t d a) rfl (by rfl) fun hw g =>
    (show decodeGroup ((encV2 0x74 t d a).fields g) (encV2 0x74 t d a).tail = formV2 .flt .vrsq _ _ by rfl).trans
      (formV2_enc .flt .vrsq _ t d a g (by simp [Instr.wf] at hw; simp [TSet.has, hw]))

theorem Laws.RoundTrip.vexp2 (t : ElemT) (d : VR) (a : VR) : Laws.RoundTrip.Statement (.vexp2 t d a) :=
  rt_of (encV2 0x75 t d a) rfl (by rfl) fun hw g =>
    (show decodeGroup ((encV2 0x75 t d a).fields g) (encV2 0x75 t d a).tail = formV2 .flt .vexp2 _ _ by rfl).trans
      (formV2_enc .flt .vexp2 _ t d a g (by simp [Instr.wf] at hw; simp [TSet.has, hw]))

theorem Laws.RoundTrip.vlog2 (t : ElemT) (d : VR) (a : VR) : Laws.RoundTrip.Statement (.vlog2 t d a) :=
  rt_of (encV2 0x76 t d a) rfl (by rfl) fun hw g =>
    (show decodeGroup ((encV2 0x76 t d a).fields g) (encV2 0x76 t d a).tail = formV2 .flt .vlog2 _ _ by rfl).trans
      (formV2_enc .flt .vlog2 _ t d a g (by simp [Instr.wf] at hw; simp [TSet.has, hw]))

theorem Laws.RoundTrip.vcvt (t : ElemT) (u : ElemT) (d : VR) (a : VR) : Laws.RoundTrip.Statement (.vcvt t u d a) := by
  exact rt_of _ rfl rfl fun hw g => by
    simp_all [-Nat.reduceAdd, BitVec.extractLsb'_append_eq_left, BitVec.extractLsb'_append_eq_of_add_le, bit1,
      decodeGroup, decodeVecArith, Enc.fields, noTail, Instr.wf]

theorem Laws.RoundTrip.vcmp (t : ElemT) (c : Cond) (a : VR) (b : VB) : Laws.RoundTrip.Statement (.vcmp t c a b) := by
  cases b <;> exact rt_of _ rfl rfl fun hw g => by
    simp_all [-Nat.reduceAdd, BitVec.extractLsb'_append_eq_left, BitVec.extractLsb'_append_eq_of_add_le, vcondOk, chk,
      bit1, decodeGroup, decodeVecOther, formVcmp, Enc.fields, Enc.vb, Instr.wf]

theorem Laws.RoundTrip.minv : Laws.RoundTrip.Statement .minv := by
  exact rt_of _ rfl rfl fun hw g => by
    simp_all [-Nat.reduceAdd, bit1, decodeGroup, decodeVecOther, formNone, Enc.fields, noTail, Instr.wf]

theorem Laws.RoundTrip.mpop : Laws.RoundTrip.Statement .mpop := by
  exact rt_of _ rfl rfl fun hw g => by
    simp_all [-Nat.reduceAdd, bit1, decodeGroup, decodeVecOther, formNone, Enc.fields, noTail, Instr.wf]

theorem Laws.RoundTrip.mbr (d : BitVec 19) : Laws.RoundTrip.Statement (.mbr d) := by
  exact rt_of _ rfl rfl fun hw g => by
    simp_all [-Nat.reduceAdd, bit1, decodeGroup, decodeVecOther, Enc.fields, noTail, Instr.wf]

theorem Laws.RoundTrip.mrd (d : SReg) (w : Fin 4) : Laws.RoundTrip.Statement (.mrd d w) := by
  exact rt_of _ rfl rfl fun hw g => by
    simp_all [-Nat.reduceAdd, bit1, decodeGroup, decodeVecOther, Enc.fields, noTail, Instr.wf]
      <;> exact Fin.ext (by simp <;> omega)

theorem Laws.RoundTrip.mwr (w : Fin 4) (a : SReg) : Laws.RoundTrip.Statement (.mwr w a) := by
  exact rt_of _ rfl rfl fun hw g => by
    simp_all [-Nat.reduceAdd, bit1, decodeGroup, decodeVecOther, Enc.fields, noTail, Instr.wf]
      <;> exact Fin.ext (by simp <;> omega)

theorem Laws.RoundTrip.vsel (t : ElemT) (d : VR) (a : VR) (b : VB) : Laws.RoundTrip.Statement (.vsel t d a b) :=
  rt_of (encV3 0x7E t d a b) rfl (by cases b <;> rfl) fun hw g =>
    (show decodeGroup ((encV3 0x7E t d a b).fields g) (encV3 0x7E t d a b).tail = formV3 .all .vsel _ _ by cases b <;>
      rfl).trans
      (formV3_enc .all .vsel _ t d a b g rfl hw)

theorem Laws.RoundTrip.vred (t : ElemT) (op : RedOp) (d : VR) (a : VR) :
    Laws.RoundTrip.Statement (.vred t op d a) := by
  exact rt_of _ rfl rfl fun hw g => by
    simp_all [-Nat.reduceAdd, BitVec.extractLsb'_append_eq_left, BitVec.extractLsb'_append_eq_of_add_le, bit1,
      decodeGroup, decodeVecOther, Enc.fields, noTail, Instr.wf]

theorem Laws.RoundTrip.vbcast (t : ElemT) (d : VR) (a : SReg) : Laws.RoundTrip.Statement (.vbcast t d a) := by
  exact rt_of _ rfl rfl fun hw g => by
    simp_all [-Nat.reduceAdd, bit1, decodeGroup, decodeVecOther, Enc.fields, noTail, Instr.wf]

theorem Laws.RoundTrip.vmovs (t : ElemT) (d : SReg) (a : VR) (i : BitVec 8) :
    Laws.RoundTrip.Statement (.vmovs t d a i) := by
  exact rt_of _ rfl rfl fun hw g => by
    simp_all [-Nat.reduceAdd, BitVec.extractLsb'_append_eq_left, BitVec.extractLsb'_append_eq_of_add_le, bit1,
      decodeGroup, decodeVecOther, Enc.fields, noTail, Instr.wf]

theorem Laws.RoundTrip.vins (t : ElemT) (d : VR) (a : SReg) (i : BitVec 8) :
    Laws.RoundTrip.Statement (.vins t d a i) := by
  exact rt_of _ rfl rfl fun hw g => by
    simp_all [-Nat.reduceAdd, BitVec.extractLsb'_append_eq_left, BitVec.extractLsb'_append_eq_of_add_le, bit1,
      decodeGroup, decodeVecOther, Enc.fields, noTail, Instr.wf]

theorem Laws.RoundTrip.vperm (t : ElemT) (d : VR) (a : VR) (b : VR) : Laws.RoundTrip.Statement (.vperm t d a b) := by
  exact rt_of _ rfl rfl fun hw g => by
    simp_all [-Nat.reduceAdd, chk, bit1, decodeGroup, decodeVecOther, Enc.fields, noTail, notB63, Instr.wf]

theorem Laws.RoundTrip.vshuf (t : ElemT) (p : Shuf) (d : VR) (a : VR) :
    Laws.RoundTrip.Statement (.vshuf t p d a) := by
  cases p <;> cases d <;> exact rt_of _ rfl rfl fun hw g => by
    simp_all [-Nat.reduceAdd, chk, bit1, decodeGroup, decodeVecOther, formVshuf, Enc.fields, noTail, notB63, Instr.wf]

theorem Laws.RoundTrip.viota (t : ElemT) (d : VR) (a : SReg) : Laws.RoundTrip.Statement (.viota t d a) := by
  exact rt_of _ rfl rfl fun hw g => by
    simp_all [-Nat.reduceAdd, TSet.has, bit1, decodeGroup, decodeVecOther, Enc.fields, noTail, Instr.wf]

theorem Laws.RoundTrip.vld (t : ElemT) (d : VR) (a : SReg) (k : Off) : Laws.RoundTrip.Statement (.vld t d a k) := by
  cases k <;> exact rt_of _ rfl rfl fun hw g => by
    simp_all [-Nat.reduceAdd, bit1, decodeGroup, decodeVecOther, Enc.fields, Enc.off, whole, Instr.wf]

theorem Laws.RoundTrip.vst (t : ElemT) (v : VR) (a : SReg) (k : Off) : Laws.RoundTrip.Statement (.vst t v a k) := by
  cases k <;> exact rt_of _ rfl rfl fun hw g => by
    simp_all [-Nat.reduceAdd, bit1, decodeGroup, decodeVecOther, Enc.fields, Enc.off, whole, Instr.wf]

theorem Laws.RoundTrip.vgath (t : ElemT) (nr : Bool) (d : VR) (a : SReg) (b : VR) :
    Laws.RoundTrip.Statement (.vgath t nr d a b) := by
  cases nr <;> exact rt_of _ rfl rfl fun hw g => by
    simp_all [-Nat.reduceAdd, chk, bit1, decodeGroup, decodeVecOther, Enc.fields, noTail, notB63, Instr.wf]

theorem Laws.RoundTrip.vscat (t : ElemT) (v : VR) (a : SReg) (b : VR) :
    Laws.RoundTrip.Statement (.vscat t v a b) := by
  exact rt_of _ rfl rfl fun hw g => by
    simp_all [-Nat.reduceAdd, chk, bit1, decodeGroup, decodeVecOther, Enc.fields, noTail, notB63, Instr.wf]

theorem Laws.RoundTrip.vtopk (t : ElemT) (min : Bool) (k : BitVec 7) (new : Bool) (a : VR) (b : VR) :
    Laws.RoundTrip.Statement (.vtopk t min k new a b) := by
  exact rt_of _ rfl rfl fun hw g => by
    simp_all [-Nat.reduceAdd, BitVec.extractLsb'_append_eq_left, BitVec.extractLsb'_append_eq_of_le,
      BitVec.extractLsb'_append_eq_of_add_le, chk, decodeGroup, decodeVecOther, Enc.fields, noTail, notB63, Instr.wf]

theorem Laws.RoundTrip.vtopkr (d : VR) (idx : Bool) : Laws.RoundTrip.Statement (.vtopkr d idx) := by
  cases idx <;> exact rt_of _ rfl rfl fun hw g => by
    simp_all [-Nat.reduceAdd, bit1, decodeGroup, decodeVecOther, Enc.fields, noTail, Instr.wf]

theorem Laws.RoundTrip.pcfg (n : Fin 8) (b : Blk) : Laws.RoundTrip.Statement (.pcfg n b) := by
  exact rt_of _ rfl rfl fun hw g => by
    simp_all [-Nat.reduceAdd, chk, bit1, decodeGroup, decodeVecOther, Enc.fields, blockOf, Instr.wf]

theorem Laws.RoundTrip.prst (n : Fin 8) : Laws.RoundTrip.Statement (.prst n) := by
  exact rt_of _ rfl rfl fun hw g => by
    simp_all [-Nat.reduceAdd, bit1, decodeGroup, decodeVecOther, Enc.fields, noTail, Instr.wf]

theorem Laws.RoundTrip.vqnt (f : QFmt) (d : VR) (a : VR) : Laws.RoundTrip.Statement (.vqnt f d a) := by
  exact rt_of _ rfl rfl fun hw g => by
    simp_all [-Nat.reduceAdd, BitVec.extractLsb'_append_eq_left, BitVec.extractLsb'_append_eq_of_add_le, chk, bit1,
      decodeGroup, decodeVecOther, Enc.fields, noTail, Instr.wf]

theorem Laws.RoundTrip.vdq (f : QFmt) (d : VR) (a : VR) : Laws.RoundTrip.Statement (.vdq f d a) := by
  exact rt_of _ rfl rfl fun hw g => by
    simp_all [-Nat.reduceAdd, BitVec.extractLsb'_append_eq_left, BitVec.extractLsb'_append_eq_of_add_le, chk, bit1,
      decodeGroup, decodeVecOther, Enc.fields, noTail, Instr.wf]

theorem Laws.RoundTrip.bld (f : BFmt) (ev : Bool) (slot : Fin 2) (b : Blk) :
    Laws.RoundTrip.Statement (.bld f ev slot b) := by
  exact rt_of _ rfl rfl fun hw g => by
    simp_all [-Nat.reduceAdd, BitVec.extractLsb'_append_eq_of_add_le, chk, decodeGroup, decodeMatrix, Enc.fields,
      blockOf, Instr.wf]
      <;> exact Fin.ext (by simp <;> omega)

theorem Laws.RoundTrip.nset (level : Fin 6) (b : Blk) : Laws.RoundTrip.Statement (.nset level b) := by
  exact rt_of _ rfl rfl fun hw g => by
    simp_all [-Nat.reduceAdd, chk, bit1, decodeGroup, decodeMatrix, Enc.fields, blockOf, Instr.wf]

theorem Laws.RoundTrip.ngo (ev : Bool) : Laws.RoundTrip.Statement (.ngo ev) := by
  cases ev <;> exact rt_of _ rfl rfl fun hw g => by
    simp_all [-Nat.reduceAdd, bit1, decodeGroup, decodeMatrix, Enc.fields, noTail, Instr.wf]

theorem Laws.RoundTrip.acfg (f32 : Bool) (keep : Bool) (d : Fin 8) (base : BitVec 10) (rows : BitVec 11) (cols : BitVec 9) :
    Laws.RoundTrip.Statement (.acfg f32 keep d base rows cols) := by
  cases f32 <;> cases keep <;> exact rt_of _ rfl rfl fun hw g => by
    simp_all [-Nat.reduceAdd, chk, bit1, decodeGroup, decodeMatrix, Enc.fields, Instr.wf]

theorem Laws.RoundTrip.azero (d : Fin 8) : Laws.RoundTrip.Statement (.azero d) := by
  exact rt_of _ rfl rfl fun hw g => by
    simp_all [-Nat.reduceAdd, bit1, decodeGroup, decodeMatrix, Enc.fields, noTail, Instr.wf]

theorem Laws.RoundTrip.ald (ev : Bool) (d : Fin 8) (a : SReg) (k : Off) :
    Laws.RoundTrip.Statement (.ald ev d a k) := by
  cases ev <;> cases k <;> exact rt_of _ rfl rfl fun hw g => by
    simp_all [-Nat.reduceAdd, bit1, decodeGroup, decodeMatrix, Enc.fields, Enc.off, noTail, Instr.wf]

theorem Laws.RoundTrip.smxr (s : SideReg) (d : SReg) (a : Fin 8) (b : SReg) :
    Laws.RoundTrip.Statement (.smxr s d a b) := by
  exact rt_of _ rfl rfl fun hw g => by
    simp_all [-Nat.reduceAdd, BitVec.extractLsb'_append_eq_left, BitVec.extractLsb'_append_eq_of_add_le, chk, bit1,
      decodeGroup, decodeMatrix, Enc.fields, noTail, notB63, Instr.wf]

theorem Laws.RoundTrip.smxw (s : SideReg) (d : Fin 8) (a : SReg) (b : SReg) :
    Laws.RoundTrip.Statement (.smxw s d a b) := by
  exact rt_of _ rfl rfl fun hw g => by
    simp_all [-Nat.reduceAdd, BitVec.extractLsb'_append_eq_left, BitVec.extractLsb'_append_eq_of_add_le, chk, bit1,
      decodeGroup, decodeMatrix, Enc.fields, noTail, notB63, Instr.wf]

theorem Laws.RoundTrip.ftset (i : Fin 16) (a : SReg) : Laws.RoundTrip.Statement (.ftset i a) := by
  exact rt_of _ rfl rfl fun hw g => by
    simp_all [-Nat.reduceAdd, bit1, decodeGroup, decodeMatrix, Enc.fields, noTail, Instr.wf]
      <;> exact Fin.ext (by simp <;> omega)

theorem Laws.RoundTrip.adrn (ev : Bool) (a : Fin 8) (b : Blk) : Laws.RoundTrip.Statement (.adrn ev a b) := by
  cases ev <;> exact rt_of _ rfl rfl fun hw g => by
    simp_all [-Nat.reduceAdd, chk, bit1, decodeGroup, decodeMatrix, Enc.fields, blockOf, Instr.wf]

theorem Laws.RoundTrip.cpy (ev : Bool) (b : Blk) : Laws.RoundTrip.Statement (.cpy ev b) :=
  rt_of (encCmd 0xB0 ev b) rfl (by rfl) fun hw g =>
    (show decodeGroup ((encCmd 0xB0 ev b).fields g) (encCmd 0xB0 ev b).tail = formCmd cpyP3 .cpy _ _ by rfl).trans
      (formCmd_enc cpyP3 .cpy _ ev b g hw)

theorem Laws.RoundTrip.cpyx (ev : Bool) (b : Blk) : Laws.RoundTrip.Statement (.cpyx ev b) :=
  rt_of (encCmd 0xB1 ev b) rfl (by rfl) fun hw g =>
    (show decodeGroup ((encCmd 0xB1 ev b).fields g) (encCmd 0xB1 ev b).tail = formCmd cpyxP3 .cpyx _ _ by rfl).trans
      (formCmd_enc cpyxP3 .cpyx _ ev b g hw)

theorem Laws.RoundTrip.gath (ev : Bool) (b : Blk) : Laws.RoundTrip.Statement (.gath ev b) :=
  rt_of (encCmd 0xB2 ev b) rfl (by rfl) fun _ g =>
    (show decodeGroup ((encCmd 0xB2 ev b).fields g) (encCmd 0xB2 ev b).tail = formCmd anyP3 .gath _ _ by rfl).trans
      (formCmd_enc anyP3 .gath _ ev b g rfl)

theorem Laws.RoundTrip.walk (ev : Bool) (b : Blk) : Laws.RoundTrip.Statement (.walk ev b) :=
  rt_of (encCmd 0xB9 ev b) rfl (by rfl) fun hw g =>
    (show decodeGroup ((encCmd 0xB9 ev b).fields g) (encCmd 0xB9 ev b).tail = formCmd walkP3 .walk _ _ by rfl).trans
      (formCmd_enc walkP3 .walk _ ev b g hw)

theorem Laws.RoundTrip.pool (ev : Bool) (b : Blk) : Laws.RoundTrip.Statement (.pool ev b) :=
  rt_of (encCmd 0xB3 ev b) rfl (by rfl) fun hw g =>
    (show decodeGroup ((encCmd 0xB3 ev b).fields g) (encCmd 0xB3 ev b).tail = formCmd poolP3 .pool _ _ by rfl).trans
      (formCmd_enc poolP3 .pool _ ev b g hw)

theorem Laws.RoundTrip.decmp (ev : Bool) (b : Blk) : Laws.RoundTrip.Statement (.decmp ev b) :=
  rt_of (encCmd 0xB4 ev b) rfl (by rfl) fun hw g =>
    (show decodeGroup ((encCmd 0xB4 ev b).fields g) (encCmd 0xB4 ev b).tail = formCmd decmpP3 .decmp _ _ by rfl).trans
      (formCmd_enc decmpP3 .decmp _ ev b g hw)

theorem Laws.RoundTrip.buck (ev : Bool) (b : Blk) : Laws.RoundTrip.Statement (.buck ev b) :=
  rt_of (encCmd 0xB6 ev b) rfl (by rfl) fun hw g =>
    (show decodeGroup ((encCmd 0xB6 ev b).fields g) (encCmd 0xB6 ev b).tail = formCmd buckP3 .buck _ _ by rfl).trans
      (formCmd_enc buckP3 .buck _ ev b g hw)

theorem Laws.RoundTrip.supd (ev : Bool) (b : Blk) : Laws.RoundTrip.Statement (.supd ev b) :=
  rt_of (encCmd 0xB5 ev b) rfl (by rfl) fun hw g =>
    (show decodeGroup ((encCmd 0xB5 ev b).fields g) (encCmd 0xB5 ev b).tail = formCmd supdP3 .supd _ _ by rfl).trans
      (formCmd_enc supdP3 .supd _ ev b g hw)

theorem Laws.RoundTrip.xall (ev : Bool) (b : Blk) : Laws.RoundTrip.Statement (.xall ev b) :=
  rt_of (encCmd 0xB7 ev b) rfl (by rfl) fun hw g =>
    (show decodeGroup ((encCmd 0xB7 ev b).fields g) (encCmd 0xB7 ev b).tail = formCmd xallP3 .xall _ _ by rfl).trans
      (formCmd_enc xallP3 .xall _ ev b g hw)

theorem Laws.RoundTrip.coll (ev : Bool) (b : Blk) : Laws.RoundTrip.Statement (.coll ev b) :=
  rt_of (encCmd 0xB8 ev b) rfl (by rfl) fun hw g =>
    (show decodeGroup ((encCmd 0xB8 ev b).fields g) (encCmd 0xB8 ev b).tail = formCmd collP3 .coll _ _ by rfl).trans
      (formCmd_enc collP3 .coll _ ev b g hw)

theorem Laws.RoundTrip.rst (ev : Bool) (b : Blk) : Laws.RoundTrip.Statement (.rst ev b) :=
  rt_of (encCmd 0xC0 ev b) rfl (by rfl) fun _ g =>
    (show decodeGroup ((encCmd 0xC0 ev b).fields g) (encCmd 0xC0 ev b).tail = formCmd anyP3 .rst _ _ by rfl).trans
      (formCmd_enc anyP3 .rst _ ev b g rfl)

theorem Laws.RoundTrip.rld (ev : Bool) (b : Blk) : Laws.RoundTrip.Statement (.rld ev b) :=
  rt_of (encCmd 0xC1 ev b) rfl (by rfl) fun hw g =>
    (show decodeGroup ((encCmd 0xC1 ev b).fields g) (encCmd 0xC1 ev b).tail = formCmd rldP3 .rld _ _ by rfl).trans
      (formCmd_enc rldP3 .rld _ ev b g hw)

theorem Laws.RoundTrip.rred (ev : Bool) (b : Blk) : Laws.RoundTrip.Statement (.rred ev b) :=
  rt_of (encCmd 0xC2 ev b) rfl (by rfl) fun hw g =>
    (show decodeGroup ((encCmd 0xC2 ev b).fields g) (encCmd 0xC2 ev b).tail = formCmd rredP3 .rred _ _ by rfl).trans
      (formCmd_enc rredP3 .rred _ ev b g hw)

theorem Laws.RoundTrip.stepq (d : SReg) (g : Fin 16) : Laws.RoundTrip.Statement (.stepq d g) := by
  exact rt_of _ rfl rfl fun hw g => by
    simp_all [-Nat.reduceAdd, bit1, decodeGroup, decodeEngine, Enc.fields, noTail, Instr.wf]
      <;> exact Fin.ext (by simp <;> omega)

theorem Laws.RoundTrip.launch (d : SReg) (a : SReg) (q : BitVec 6) : Laws.RoundTrip.Statement (.launch d a q) := by
  exact rt_of _ rfl rfl fun hw g => by
    simp_all [-Nat.reduceAdd, BitVec.extractLsb'_append_eq_left, BitVec.extractLsb'_append_eq_of_add_le, bit1,
      decodeGroup, decodeTask, Enc.fields, noTail, Instr.wf]

theorem Laws.RoundTrip.cardw (a : SReg) : Laws.RoundTrip.Statement (.cardw a) := by
  exact rt_of _ rfl rfl fun hw g => by
    simp_all [-Nat.reduceAdd, bit1, decodeGroup, decodeTask, Enc.fields, noTail, Instr.wf]

theorem Laws.RoundTrip.warm (d : SReg) (a : SReg) : Laws.RoundTrip.Statement (.warm d a) := by
  exact rt_of _ rfl rfl fun hw g => by
    simp_all [-Nat.reduceAdd, bit1, decodeGroup, decodeTask, Enc.fields, noTail, Instr.wf]

theorem Laws.RoundTrip.wdis (a : SReg) : Laws.RoundTrip.Statement (.wdis a) := by
  exact rt_of _ rfl rfl fun hw g => by
    simp_all [-Nat.reduceAdd, bit1, decodeGroup, decodeTask, Enc.fields, noTail, Instr.wf]

theorem Laws.RoundTrip.trigrd (a : SReg) (b : SReg) (k : BitVec 19) : Laws.RoundTrip.Statement (.trigrd a b k) := by
  exact rt_of _ rfl rfl fun hw g => by
    simp_all [-Nat.reduceAdd, chk, bit1, decodeGroup, decodeTask, Enc.fields, noTail, notB63, Instr.wf]

theorem Laws.RoundTrip.pqpush (n : Fin 16) (a : SReg) : Laws.RoundTrip.Statement (.pqpush n a) := by
  exact rt_of _ rfl rfl fun hw g => by
    simp_all [-Nat.reduceAdd, bit1, decodeGroup, decodeTask, Enc.fields, noTail, Instr.wf]
      <;> exact Fin.ext (by simp <;> omega)

theorem Laws.RoundTrip.pqpop (d : SReg) (n : Fin 16) : Laws.RoundTrip.Statement (.pqpop d n) := by
  exact rt_of _ rfl rfl fun hw g => by
    simp_all [-Nat.reduceAdd, bit1, decodeGroup, decodeTask, Enc.fields, noTail, Instr.wf]
      <;> exact Fin.ext (by simp <;> omega)

theorem Laws.RoundTrip.prio (a : SReg) (c : Fin 4) : Laws.RoundTrip.Statement (.prio a c) := by
  exact rt_of _ rfl rfl fun hw g => by
    simp_all [-Nat.reduceAdd, bit1, decodeGroup, decodeTask, Enc.fields, noTail, Instr.wf]
      <;> exact Fin.ext (by simp <;> omega)

theorem Laws.RoundTrip.graph (d : SReg) (a : SReg) (b : SReg) : Laws.RoundTrip.Statement (.graph d a b) := by
  exact rt_of _ rfl rfl fun hw g => by
    simp_all [-Nat.reduceAdd, chk, bit1, decodeGroup, decodeTask, Enc.fields, noTail, notB63, Instr.wf]

theorem Laws.RoundTrip.uevset (a : SReg) (e : Bool) : Laws.RoundTrip.Statement (.uevset a e) := by
  cases e <;> exact rt_of _ rfl rfl fun hw g => by
    simp_all [-Nat.reduceAdd, bit1, decodeGroup, decodeTask, Enc.fields, noTail, Instr.wf]

theorem Laws.RoundTrip.sysrd (d : SReg) (a : SReg) (k : BitVec 19) : Laws.RoundTrip.Statement (.sysrd d a k) := by
  exact rt_of _ rfl rfl fun hw g => by
    simp_all [-Nat.reduceAdd, bit1, decodeGroup, decodeSystem, Enc.fields, noTail, Instr.wf]

theorem Laws.RoundTrip.syswr (a : SReg) (b : SReg) (k : BitVec 19) : Laws.RoundTrip.Statement (.syswr a b k) := by
  exact rt_of _ rfl rfl fun hw g => by
    simp_all [-Nat.reduceAdd, chk, bit1, decodeGroup, decodeSystem, Enc.fields, noTail, notB63, Instr.wf]

theorem Laws.RoundTrip.eret : Laws.RoundTrip.Statement .eret := by
  exact rt_of _ rfl rfl fun hw g => by
    simp_all [-Nat.reduceAdd, bit1, decodeGroup, decodeSystem, formNone, Enc.fields, noTail, Instr.wf]

theorem Laws.RoundTrip.idle : Laws.RoundTrip.Statement .idle := by
  exact rt_of _ rfl rfl fun hw g => by
    simp_all [-Nat.reduceAdd, bit1, decodeGroup, decodeSystem, formNone, Enc.fields, noTail, Instr.wf]

theorem Laws.RoundTrip.ctxsv (a : SReg) : Laws.RoundTrip.Statement (.ctxsv a) := by
  exact rt_of _ rfl rfl fun hw g => by
    simp_all [-Nat.reduceAdd, bit1, decodeGroup, decodeSystem, formA, Enc.fields, noTail, Instr.wf]

theorem Laws.RoundTrip.ctxld (a : SReg) : Laws.RoundTrip.Statement (.ctxld a) := by
  exact rt_of _ rfl rfl fun hw g => by
    simp_all [-Nat.reduceAdd, bit1, decodeGroup, decodeSystem, formA, Enc.fields, noTail, Instr.wf]

theorem Laws.RoundTrip.preempt (a : SReg) : Laws.RoundTrip.Statement (.preempt a) := by
  exact rt_of _ rfl rfl fun hw g => by
    simp_all [-Nat.reduceAdd, bit1, decodeGroup, decodeSystem, formA, Enc.fields, noTail, Instr.wf]

theorem Laws.RoundTrip.evrd (d : SReg) (a : SReg) : Laws.RoundTrip.Statement (.evrd d a) := by
  exact rt_of _ rfl rfl fun hw g => by
    simp_all [-Nat.reduceAdd, bit1, decodeGroup, decodeSystem, formDA, Enc.fields, noTail, Instr.wf]

theorem Laws.RoundTrip.trapEntry (core : CoreId) : Laws.RoundTrip.Statement (.trapEntry core) :=
  rt_none rfl

theorem Laws.RoundTrip.userEventEntry (core : CoreId) : Laws.RoundTrip.Statement (.userEventEntry core) :=
  rt_none rfl

theorem Laws.RoundTrip.loadComplete (core : CoreId) (sq : SeqId) : Laws.RoundTrip.Statement (.loadComplete core sq) :=
  rt_none rfl

theorem Laws.RoundTrip.storePerformedAtHome (core : CoreId) (sq : SeqId) :
    Laws.RoundTrip.Statement (.storePerformedAtHome core sq) :=
  rt_none rfl

theorem Laws.RoundTrip.atomicPerform (core : CoreId) : Laws.RoundTrip.Statement (.atomicPerform core) :=
  rt_none rfl

theorem Laws.RoundTrip.rateWindowExpiry (entry : Nat) : Laws.RoundTrip.Statement (.rateWindowExpiry entry) :=
  rt_none rfl

theorem Laws.RoundTrip.engineCommandComplete (core : CoreId) (sq : SeqId) (n : Nat) :
    Laws.RoundTrip.Statement (.engineCommandComplete core sq n) :=
  rt_none rfl

theorem Laws.RoundTrip.decmpFreeTokenTaken (core : CoreId) (sq : SeqId) (n : Nat) :
    Laws.RoundTrip.Statement (.decmpFreeTokenTaken core sq n) :=
  rt_none rfl

theorem Laws.RoundTrip.engineFault (core : CoreId) (sq : SeqId) (n : Nat) :
    Laws.RoundTrip.Statement (.engineFault core sq n) :=
  rt_none rfl

theorem Laws.RoundTrip.nestBecomesLive (core : CoreId) : Laws.RoundTrip.Statement (.nestBecomesLive core) :=
  rt_none rfl

theorem Laws.RoundTrip.nestComplete (core : CoreId) : Laws.RoundTrip.Statement (.nestComplete core) :=
  rt_none rfl

theorem Laws.RoundTrip.bldComplete (core : CoreId) (n : Nat) : Laws.RoundTrip.Statement (.bldComplete core n) :=
  rt_none rfl

theorem Laws.RoundTrip.adrnComplete (core : CoreId) (n : Nat) : Laws.RoundTrip.Statement (.adrnComplete core n) :=
  rt_none rfl

theorem Laws.RoundTrip.aldComplete (core : CoreId) (n : Nat) : Laws.RoundTrip.Statement (.aldComplete core n) :=
  rt_none rfl

theorem Laws.RoundTrip.cardQueueTake (q : QueueRef) : Laws.RoundTrip.Statement (.cardQueueTake q) :=
  rt_none rfl

theorem Laws.RoundTrip.cardPlacement (part : Fin 32) (x : Fin 32) (y : Fin 8) :
    Laws.RoundTrip.Statement (.cardPlacement part x y) :=
  rt_none rfl

theorem Laws.RoundTrip.agingLimitExpiry (part : Fin 32) (handle : BitVec 32) :
    Laws.RoundTrip.Statement (.agingLimitExpiry part handle) :=
  rt_none rfl

theorem Laws.RoundTrip.preemption (part : Fin 32) (handle : BitVec 32) :
    Laws.RoundTrip.Statement (.preemption part handle) :=
  rt_none rfl

theorem Laws.RoundTrip.cardResume (part : Fin 32) (x : Fin 32) (y : Fin 8) :
    Laws.RoundTrip.Statement (.cardResume part x y) :=
  rt_none rfl

theorem Laws.RoundTrip.cardCompletion (part : Fin 32) (handle : BitVec 32) :
    Laws.RoundTrip.Statement (.cardCompletion part handle) :=
  rt_none rfl

theorem Laws.RoundTrip.graphReplayRelease (part : Fin 32) (handle : BitVec 32) :
    Laws.RoundTrip.Statement (.graphReplayRelease part handle) :=
  rt_none rfl

theorem Laws.RoundTrip.steppedWriteArrival : Laws.RoundTrip.Statement .steppedWriteArrival :=
  rt_none rfl

theorem Laws.RoundTrip.stepBoundary (g : Fin 16) : Laws.RoundTrip.Statement (.stepBoundary g) :=
  rt_none rfl

theorem Laws.RoundTrip.multicastCopy : Laws.RoundTrip.Statement .multicastCopy :=
  rt_none rfl

theorem Laws.RoundTrip.multicastResponse : Laws.RoundTrip.Statement .multicastResponse :=
  rt_none rfl

theorem Laws.RoundTrip.peerRequest : Laws.RoundTrip.Statement .peerRequest :=
  rt_none rfl

theorem Laws.RoundTrip.peerResponse : Laws.RoundTrip.Statement .peerResponse :=
  rt_none rfl

theorem Laws.RoundTrip.retryAfterExpiry (id : Nat) : Laws.RoundTrip.Statement (.retryAfterExpiry id) :=
  rt_none rfl

theorem Laws.RoundTrip.requestTimeout (id : Nat) : Laws.RoundTrip.Statement (.requestTimeout id) :=
  rt_none rfl

theorem Laws.RoundTrip.failureNotice : Laws.RoundTrip.Statement .failureNotice :=
  rt_none rfl

theorem Laws.RoundTrip.packetReceive (p : Packet) : Laws.RoundTrip.Statement (.packetReceive p) :=
  rt_none rfl

theorem Laws.RoundTrip.linkFrameRetry (port : Fin 16) : Laws.RoundTrip.Statement (.linkFrameRetry port) :=
  rt_none rfl

theorem Laws.RoundTrip.linkDown (port : Fin 16) : Laws.RoundTrip.Statement (.linkDown port) :=
  rt_none rfl

theorem Laws.RoundTrip.interfaceReplay (stack : Fin 8) (failed : Bool) (ia : BitVec 52) :
    Laws.RoundTrip.Statement (.interfaceReplay stack failed ia) :=
  rt_none rfl

theorem Laws.RoundTrip.interfaceRetrain (stack : Fin 8) (ok : Bool) :
    Laws.RoundTrip.Statement (.interfaceRetrain stack ok) :=
  rt_none rfl

theorem Laws.RoundTrip.scrub (home : Fin 17) (pa : Nat) : Laws.RoundTrip.Statement (.scrub home pa) :=
  rt_none rfl

theorem Laws.RoundTrip.rowCaptureRelease (stack : Fin 8) : Laws.RoundTrip.Statement (.rowCaptureRelease stack) :=
  rt_none rfl

theorem Laws.RoundTrip.sketchHalving (skerry : Fin 8) : Laws.RoundTrip.Statement (.sketchHalving skerry) :=
  rt_none rfl

theorem Laws.RoundTrip.hotRowWriteback (part : Fin 32) (table : BitVec 12) (row : Nat) :
    Laws.RoundTrip.Statement (.hotRowWriteback part table row) :=
  rt_none rfl

theorem Laws.RoundTrip.pageMigration (part : Fin 32) (ia : BitVec 52) :
    Laws.RoundTrip.Statement (.pageMigration part ia) :=
  rt_none rfl

theorem Laws.RoundTrip.prefetchFill (part : Fin 32) : Laws.RoundTrip.Statement (.prefetchFill part) :=
  rt_none rfl

theorem Laws.RoundTrip.hostRead (vf : Fin 1024) (off : BitVec 48) (n : Nat) :
    Laws.RoundTrip.Statement (.hostRead vf off n) :=
  rt_none rfl

theorem Laws.RoundTrip.hostWrite (vf : Fin 1024) (off : BitVec 48) (data : List Byte) :
    Laws.RoundTrip.Statement (.hostWrite vf off data) :=
  rt_none rfl

theorem Laws.RoundTrip.cmdTailWrite (vf : Fin 1024) (v : BitVec 32) : Laws.RoundTrip.Statement (.cmdTailWrite vf v) :=
  rt_none rfl

theorem Laws.RoundTrip.qtailWrite (vf : Fin 1024) (v : BitVec 32) : Laws.RoundTrip.Statement (.qtailWrite vf v) :=
  rt_none rfl

theorem Laws.RoundTrip.cqheadWrite (vf : Fin 1024) (v : BitVec 32) : Laws.RoundTrip.Statement (.cqheadWrite vf v) :=
  rt_none rfl

theorem Laws.RoundTrip.evheadWrite (vf : Fin 1024) (v : BitVec 32) : Laws.RoundTrip.Statement (.evheadWrite vf v) :=
  rt_none rfl

theorem Laws.RoundTrip.region1RegisterWrite (vf : Fin 1024) (off : BitVec 14) (data : List Byte) :
    Laws.RoundTrip.Statement (.region1RegisterWrite vf off data) :=
  rt_none rfl

theorem Laws.RoundTrip.identify (c : FwCmd) : Laws.RoundTrip.Statement (.identify c) :=
  rt_none rfl

theorem Laws.RoundTrip.getCaps (c : FwCmd) : Laws.RoundTrip.Statement (.getCaps c) :=
  rt_none rfl

theorem Laws.RoundTrip.attest (c : FwCmd) : Laws.RoundTrip.Statement (.attest c) :=
  rt_none rfl

theorem Laws.RoundTrip.partCreate (c : FwCmd) : Laws.RoundTrip.Statement (.partCreate c) :=
  rt_none rfl

theorem Laws.RoundTrip.partDestroy (c : FwCmd) : Laws.RoundTrip.Statement (.partDestroy c) :=
  rt_none rfl

theorem Laws.RoundTrip.partReset (c : FwCmd) : Laws.RoundTrip.Statement (.partReset c) :=
  rt_none rfl

theorem Laws.RoundTrip.vfBind (c : FwCmd) : Laws.RoundTrip.Statement (.vfBind c) :=
  rt_none rfl

theorem Laws.RoundTrip.vfUnbind (c : FwCmd) : Laws.RoundTrip.Statement (.vfUnbind c) :=
  rt_none rfl

theorem Laws.RoundTrip.quotaSet (c : FwCmd) : Laws.RoundTrip.Statement (.quotaSet c) :=
  rt_none rfl

theorem Laws.RoundTrip.memMap (c : FwCmd) : Laws.RoundTrip.Statement (.memMap c) :=
  rt_none rfl

theorem Laws.RoundTrip.memUnmap (c : FwCmd) : Laws.RoundTrip.Statement (.memUnmap c) :=
  rt_none rfl

theorem Laws.RoundTrip.memSplit (c : FwCmd) : Laws.RoundTrip.Statement (.memSplit c) :=
  rt_none rfl

theorem Laws.RoundTrip.memPin (c : FwCmd) : Laws.RoundTrip.Statement (.memPin c) :=
  rt_none rfl

theorem Laws.RoundTrip.memProtect (c : FwCmd) : Laws.RoundTrip.Statement (.memProtect c) :=
  rt_none rfl

theorem Laws.RoundTrip.pageRestore (c : FwCmd) : Laws.RoundTrip.Statement (.pageRestore c) :=
  rt_none rfl

theorem Laws.RoundTrip.tableDefine (c : FwCmd) : Laws.RoundTrip.Statement (.tableDefine c) :=
  rt_none rfl

theorem Laws.RoundTrip.tableDrop (c : FwCmd) : Laws.RoundTrip.Statement (.tableDrop c) :=
  rt_none rfl

theorem Laws.RoundTrip.exportRegion (c : FwCmd) : Laws.RoundTrip.Statement (.exportRegion c) :=
  rt_none rfl

theorem Laws.RoundTrip.revokeRegion (c : FwCmd) : Laws.RoundTrip.Statement (.revokeRegion c) :=
  rt_none rfl

theorem Laws.RoundTrip.stepgroupJoin (c : FwCmd) : Laws.RoundTrip.Statement (.stepgroupJoin c) :=
  rt_none rfl

theorem Laws.RoundTrip.fabricRoutesLoad (c : FwCmd) : Laws.RoundTrip.Statement (.fabricRoutesLoad c) :=
  rt_none rfl

theorem Laws.RoundTrip.evqConfig (c : FwCmd) : Laws.RoundTrip.Statement (.evqConfig c) :=
  rt_none rfl

theorem Laws.RoundTrip.fwStage (c : FwCmd) : Laws.RoundTrip.Statement (.fwStage c) :=
  rt_none rfl

theorem Laws.RoundTrip.powerCap (c : FwCmd) : Laws.RoundTrip.Statement (.powerCap c) :=
  rt_none rfl

theorem Laws.RoundTrip.coldReset (imageOk : Bool) : Laws.RoundTrip.Statement (.coldReset imageOk) :=
  rt_none rfl

theorem Laws.RoundTrip.warmReset (imageOk : Bool) : Laws.RoundTrip.Statement (.warmReset imageOk) :=
  rt_none rfl

theorem Laws.RoundTrip.criticalTemperature : Laws.RoundTrip.Statement .criticalTemperature :=
  rt_none rfl

theorem Laws.RoundTrip.correctedMemoryEventWindow (home : Fin 17) :
    Laws.RoundTrip.Statement (.correctedMemoryEventWindow home) :=
  rt_none rfl

end Sys2Proof
end

