-- ==== Sys2Proof/Safety.lean ====
section
/-! DEFINITION. What counts as a safe step and a safe run, in the terms claims use. -/

namespace Sys2Proof

/-- A step answers a next state: it ends in no fault and is refused nothing. -/
def Goes (s t : Machine.State) : Prop := Machine.step s = .next t

/-- A state from which every run of `k` steps ends in neither a fault nor a refusal. -/
def SafeFor (k : Nat) (s : Machine.State) : Prop := ∃ t, core.run k s = .next t

/-- An invariant of the machine: every next state of a state that meets it meets it. -/
def Kept (inv : Machine.State → Prop) : Prop := ∀ s t, inv s → Machine.step s = .next t → inv t

end Sys2Proof
end

