-- ==== Sys2Proof/Tests/Slice0.lean ====
section
/-! SUPPORT. Tests: ill-formed terms that the checks refuse, words written out from the manual's encoding tables, a witness for the
hypotheses of each statement, and small checks of one step. -/

set_option Elab.async false

open Sys2Proof Sys2Proof.Machine

namespace Sys2Proof.Tests

/-- Core 0 with a bare card, on which a sequencer issues. -/
def at' (q : SeqId) : State := { State.reset.placed q with cur := ⟨0, q, 0, 8⟩ }

/-- Registers set in the issuing sequencer. -/
def regs (l : List (Nat × Nat)) (s : State) : State := s.setMe (l.foldl (fun q e => q.wr (Fin.ofNat 32 e.1) (word e.2)) s.me)

/-- The bare card's descriptor set. -/
def card (img : CardImg) (s : State) : State := { s with sch := { s.sch with cards := [(0, { bareCard 1 with img := img })] } }

/-- A result of an operation with a property, from its evaluation. -/
theorem ok_ex {ε α : Type} {e : Except ε α} (P : α → Bool)
    (h : (match e with | .ok b => P b | .error _ => false) = true) : ∃ a, e = .ok a ∧ P a = true := by
  cases e <;> simp_all

/-- The operation answers a result. -/
def good {ε α : Type} : Except ε α → Bool
  | .ok _ => true
  | .error _ => false

/-! ### Witnesses: scalar, control and special registers -/

theorem witness_ScalarCorners :
    (∃ s a b t d, Claims.Reads2 s a b Claims.lowest (-1) t ∧ Claims.Takes t d) ∧
    (∃ s a b t d, Claims.Reads2 s a b 7 0 t ∧ Claims.Takes t d) ∧
    (∃ s a b t d, Claims.Reads2 s a b (BitVec.ofInt 64 (-7)) 64 t ∧ Claims.Takes t d) :=
  ⟨⟨regs [(1, 2 ^ 63), (2, 2 ^ 64 - 1)] (at' .C), .g 1, .reg (.g 2), _, .g 3, ⟨_, rfl, rfl⟩, ⟨_, rfl⟩⟩,
   ⟨regs [(1, 7)] (at' .L), .g 1, .imm 0, _, .g 1, ⟨_, rfl, rfl⟩, ⟨_, rfl⟩⟩,
   ⟨regs [(1, 2 ^ 64 - 7)] (at' .S), .g 1, .ext 64, _, .g 0, ⟨_, rfl, rfl⟩, ⟨_, rfl⟩⟩⟩

theorem witness_ScalarResults :
    (∃ s a b t d, Claims.Reads2 s a b Claims.lowest (-1) t ∧ Claims.Takes t d) ∧ (∃ s d, Claims.Takes s d) ∧
    (∃ (s : State) (a : SReg) (t : State) (d : SReg), s.readS a = .ok (0, t) ∧ Claims.Takes t d) :=
  ⟨witness_ScalarCorners.1, ⟨at' .X, .g 4, ⟨_, rfl⟩⟩, ⟨at' .X, .g 0, _, .g 5, rfl, ⟨_, rfl⟩⟩⟩

theorem witness_ScalarResults_fields :
    (∃ s a b x t d, Claims.Reads2 s a b x 1 t ∧ Claims.Takes t d) ∧ (∃ s a b x t d, Claims.Reads2 s a b x 64 t ∧ Claims.Takes t d) ∧
    (∃ s a b x t, Claims.Reads2 s a b x 0 t) ∧ (∃ s a b x t, Claims.Reads2 s a b x 65 t) ∧
    (∃ (lo : BitVec 6) (w : BitVec 7) (s : State) (a : SReg) (x : Word) (t : State),
      1 ≤ w.toNat ∧ lo.toNat + w.toNat ≤ 64 ∧ lo.toNat + w.toNat = 64 ∧ s.readS a = .ok (x, t)) :=
  ⟨⟨at' .C, .g 1, .imm 1, _, _, .g 2, ⟨_, rfl, rfl⟩, ⟨_, rfl⟩⟩, ⟨at' .C, .g 1, .imm 64, _, _, .g 2, ⟨_, rfl, rfl⟩, ⟨_, rfl⟩⟩,
   ⟨at' .C, .g 1, .imm 0, _, _, ⟨_, rfl, rfl⟩⟩, ⟨at' .C, .g 1, .imm 65, _, _, ⟨_, rfl, rfl⟩⟩,
   ⟨63, 1, at' .C, .g 1, _, _, by decide, by decide, by decide, rfl⟩⟩

theorem witness_ScalarFrame :
    (∃ s d a b x y t u, Claims.Reads2 s a b x y t ∧ Claims.Takes t d ∧ exec (.sub d a b) s = .next u) ∧
    (∃ s d a b x y t u, Claims.Reads2 s a b x y t ∧ Claims.Takes t d ∧ exec (.cmp .lt d a b) s = .next u) ∧
    (∃ s d a b x y t u, Claims.Reads2 s a b x y t ∧ Claims.Takes t d ∧ exec (.crc .b1 d a b) s = .next u) ∧
    (∃ s d a b x y t u, Claims.Reads2 s a b x y t ∧ 1 ≤ y.toNat ∧ y.toNat ≤ 64 ∧ Claims.Takes t d ∧ exec (.ext true d a b) s = .next u) ∧
    (∃ (s : State) (d a : SReg) (x : Word) (t u : State), s.readS a = .ok (x, t) ∧ Claims.Takes t d ∧ exec (.clz d a) s = .next u) ∧
    (∃ (s : State) (d a : SReg) (x : Word) (t u : State), s.readS a = .ok (x, t) ∧ Claims.Takes t d ∧ exec (.bfx true d a 3 5) s = .next u) ∧
    (∃ (s : State) (d : Fin 32) (a : SReg) (x : Word) (t u : State), s.readS a = .ok (x, t) ∧ exec (.bfi d a 3 5) s = .next u) ∧
    (∃ s d u, Claims.Takes s d ∧ exec (.ldi d (.imm 3)) s = .next u) :=
  ⟨⟨at' .C, .g 3, .g 1, .imm 1, _, _, _, _, ⟨_, rfl, rfl⟩, ⟨_, rfl⟩, rfl⟩, ⟨at' .C, .g 3, .g 1, .imm 1, _, _, _, _, ⟨_, rfl, rfl⟩, ⟨_, rfl⟩, rfl⟩,
   ⟨at' .C, .g 3, .g 1, .imm 1, _, _, _, _, ⟨_, rfl, rfl⟩, ⟨_, rfl⟩, rfl⟩,
   ⟨at' .C, .g 3, .g 1, .imm 64, _, 64, _, _, ⟨_, rfl, rfl⟩, by decide, by decide, ⟨_, rfl⟩, rfl⟩,
   ⟨at' .C, .g 3, .g 1, _, _, _, rfl, ⟨_, rfl⟩, rfl⟩, ⟨at' .C, .g 3, .g 1, _, _, _, rfl, ⟨_, rfl⟩, rfl⟩,
   ⟨at' .C, 3, .g 1, _, _, _, rfl, rfl⟩, ⟨at' .C, .g 3, _, ⟨_, rfl⟩, rfl⟩⟩

theorem witness_ScalarFrame_zero : (31 : Fin 32) ≠ 0 ∧ (30 : Fin 32) ≠ 31 := by decide


/-- A bare card with words of its descriptor set. -/
def cardW (l : List (Nat × Nat)) (s : State) : State :=
  card (l.foldl (fun i e => vset i e.1 (word e.2)) (Vector.replicate 16 0)) s

/-- Messages in queue 1 of core 0. -/
def queued (n : Nat) (s : State) : State :=
  s.setHere { s.here with queues := s.here.queues.set 1 ⟨(upTo n).map word, 0, BitVec.ofNat 32 n⟩ }

/-- Queue 1 bound from C to X, from X to C, or from C to C. -/
def qCX (s : State) : State := cardW [(7, 0xC0)] s
def qXC (s : State) : State := cardW [(7, 0x30)] s

theorem witness_QueuesPass :
    (∃ (s : State) (k : Card), s.cardOn s.cur.core = some k ∧ (CardImg.qbind k.img 1).2 = s.cur.sq.idx.val ∧
      (CardImg.qbind k.img 1).1 ≠ (CardImg.qbind k.img 1).2 ∧ ∃ m rest, s.here.queues[1].msgs = m :: rest) ∧
    (∃ (s : State) (k : Card), s.cardOn s.cur.core = some k ∧ (CardImg.qbind k.img 1).2 = s.cur.sq.idx.val ∧
      (CardImg.qbind k.img 1).1 ≠ (CardImg.qbind k.img 1).2 ∧ s.here.queues[1].msgs = []) ∧
    (∃ (s : State) (k : Card), s.cardOn s.cur.core = some k ∧ (CardImg.qbind k.img 1).1 = (CardImg.qbind k.img 1).2) ∧
    (∃ (s : State) (k : Card), s.cardOn s.cur.core = some k ∧ (CardImg.qbind k.img 1).2 ≠ s.cur.sq.idx.val) ∧
    (∃ (s : State) (k : Card), s.cardOn s.cur.core = some k ∧ (CardImg.qbind k.img 1).1 ≠ (CardImg.qbind k.img 1).2 ∧
      (CardImg.qbind k.img 1).1 = s.cur.sq.idx.val ∧ s.me.atoms = [] ∧ s.me.loads = [] ∧ s.me.stores = [] ∧
      s.here.queues[1].msgs.length = 15) ∧
    (∃ (s : State) (k : Card), s.cardOn s.cur.core = some k ∧ (CardImg.qbind k.img 1).1 = s.cur.sq.idx.val ∧
      s.here.queues[1].msgs.length = 16 ∧ (CardImg.qpool k.img).testBit 1 = false) ∧
    (∃ (s : State) (k : Card), s.cardOn s.cur.core = some k ∧ (CardImg.qbind k.img 1).1 = s.cur.sq.idx.val ∧
      s.here.queues[1].msgs.length = 16 ∧ (CardImg.qpool k.img).testBit 1 = true ∧ CardImg.poolSize k.img = 1) ∧
    (∃ (s : State) (k : Card), s.cardOn s.cur.core = some k ∧ (CardImg.qbind k.img 1).1 = s.cur.sq.idx.val ∧
      16 ≤ s.here.queues[1].msgs.length ∧ (CardImg.qpool k.img).testBit 1 = true ∧
      CardImg.poolSize k.img ≤ (s.here.queues.toList.map fun x => x.msgs.length - 16).sum) :=
  ⟨⟨queued 1 (qXC (at' .C)), _, rfl, by decide +kernel, by decide +kernel, _, _, rfl⟩,
   ⟨qXC (at' .C), _, rfl, by decide +kernel, by decide +kernel, rfl⟩, ⟨at' .C, _, rfl, by decide +kernel⟩,
   ⟨qXC (at' .X), _, rfl, by decide +kernel⟩,
   ⟨queued 15 (qCX (at' .C)), _, rfl, by decide +kernel, by decide +kernel, rfl, rfl, rfl, by decide +kernel⟩,
   ⟨queued 16 (qCX (at' .C)), _, rfl, by decide +kernel, by decide +kernel, by decide +kernel⟩,
   ⟨queued 16 (cardW [(7, 0xC0), (3, 2 ^ 17 + 2 ^ 50)] (at' .C)), _, rfl, by decide +kernel, by decide +kernel, by decide +kernel,
     by decide +kernel⟩,
   ⟨queued 17 (cardW [(7, 0xC0), (3, 2 ^ 17 + 2 ^ 50)] (at' .C)), _, rfl, by decide +kernel, by decide +kernel, by decide +kernel,
     by decide +kernel⟩⟩

theorem witness_Branches :
    (∃ s a b x y u, Claims.Reads2 s a (.reg b) x y u ∧ Cond.holds .eq x y = true) ∧
    (∃ (s : State) (a : SReg) (x : Word) (u : State), s.readS a = .ok (x, u) ∧ x.getLsbD 63 = false) ∧
    (∃ (s : State) (a : SReg) (x : Word) (u : State), s.readS a = .ok (x, u) ∧ x.getLsbD 63 = true) ∧
    (∃ (s : State) (a : SReg) (x : Word) (u : State), s.readS a = .ok (x, u) ∧ (x + 8).toNat % 8 = 0) ∧
    (∃ (s : State) (a : SReg) (x : Word) (u : State), s.readS a = .ok (x, u) ∧ (x + 4).toNat % 8 ≠ 0) :=
  ⟨⟨at' .C, .g 1, .g 2, _, _, _, ⟨_, rfl, rfl⟩, by decide +kernel⟩, ⟨at' .C, .g 1, _, _, rfl, by decide +kernel⟩,
   ⟨regs [(1, 2 ^ 63)] (at' .C), .g 1, _, _, rfl, by decide +kernel⟩, ⟨at' .C, .g 1, _, _, rfl, by decide +kernel⟩,
   ⟨at' .C, .g 1, _, _, rfl, by decide +kernel⟩⟩

theorem witness_UntakenBranches :
    (∃ s a b x y u, Claims.Reads2 s a (.reg b) x y u ∧ Cond.holds .ne x y = false) ∧
    (∃ (s : State) (a : SReg) (x : Word) (u : State), s.readS a = .ok (x, u) ∧ x.getLsbD 0 = true) ∧
    (∃ (s : State) (a : SReg) (x : Word) (u : State), s.readS a = .ok (x, u) ∧ x.getLsbD 0 = false) ∧
    (∃ (s : State) (d : Decoded) (g : Guard), decode s.cur.word [] = .ok d ∧ d.guard = some g ∧ s.me.waitsFor g.gr.toFin = false ∧
      (s.me.rd g.gr.toFin).getLsbD g.gb.toNat = g.gn) :=
  ⟨⟨at' .C, .g 1, .g 2, _, _, _, ⟨_, rfl, rfl⟩, by decide +kernel⟩, ⟨regs [(1, 1)] (at' .C), .g 1, _, _, rfl, by decide +kernel⟩,
   ⟨at' .C, .g 1, _, _, rfl, by decide +kernel⟩,
   ⟨{ at' .C with cur := ⟨0, .C, 0x0000202503F49210, 8⟩ }, _, ⟨false, 9, 0⟩, rfl, rfl, by decide +kernel, by decide +kernel⟩⟩

theorem three_no_power (k : Int) : (3 : Rat) ≠ 2 ^ k := by
  intro h
  cases k with
  | ofNat n =>
    rw [Int.ofNat_eq_natCast, Rat.zpow_natCast] at h
    have h : ((3 : Nat) : Rat) = ((2 ^ n : Nat) : Rat) := by rw [Rat.natCast_pow]; exact h
    have h := Rat.natCast_inj.1 h
    match n with
    | 0 => simp at h
    | n + 1 => omega
  | negSucc n =>
    have e : (2 : Rat) ^ (Int.negSucc n) = (2 ^ (n + 1))⁻¹ := rfl
    rw [e] at h
    have h := congrArg (· * (2 : Rat) ^ (n + 1)) h
    have z : (2 : Rat) ^ (n + 1) ≠ 0 := Rat.ne_of_gt (Rat.pow_pos (by decide))
    simp only [Rat.inv_mul_cancel _ z] at h
    have h : ((3 * 2 ^ (n + 1) : Nat) : Rat) = ((1 : Nat) : Rat) := by rw [Rat.natCast_mul, Rat.natCast_pow]; exact h
    have h := Rat.natCast_inj.1 h
    omega

theorem witness_ExpAndLogRound :
    (∃ (f : Fmt) (rm a : Nat), f = ⟨8, 7⟩ ∧ rm = 3 ∧ Claims.isFinite f a ∧ Claims.magBits f a ≠ 0 ∧
      Claims.exact f a * (2 : Rat) ^ 1 = 1 ∧ Claims.size (Claims.exact f a) < 2 ^ 21) ∧
    (∃ (f : Fmt) (a : Nat), f = ⟨8, 23⟩ ∧ Claims.isFinite f a ∧ Claims.magBits f a ≠ 0 ∧ Claims.size (Claims.exact f a) = 2 ^ 21 ∧
      Claims.exact f a < 0) ∧
    (∃ (f : Fmt) (a : Nat), f = ⟨5, 10⟩ ∧ Claims.isFinite f a ∧ Claims.magBits f a ≠ 0 ∧ 0 < Claims.exact f a ∧
      Claims.exact f a = 2 ^ (-24 : Int)) ∧
    (∃ (f : Fmt) (a : Nat), f = ⟨8, 23⟩ ∧ Claims.isFinite f a ∧ Claims.magBits f a ≠ 0 ∧ 0 < Claims.exact f a ∧
      ∀ k : Int, Claims.exact f a ≠ 2 ^ k) := by
  have e : Claims.exact ⟨8, 23⟩ 0x40400000 = 3 := by decide +kernel
  refine ⟨⟨_, 3, 0x3F00, rfl, rfl, ?_, ?_, ?_, ?_⟩, ⟨_, 0xCA000000, rfl, ?_, ?_, ?_, ?_⟩, ⟨_, 1, rfl, ?_, ?_, ?_, ?_⟩,
    ⟨_, 0x40400000, rfl, ?_, ?_, ?_, fun k => e ▸ three_no_power k⟩⟩
  all_goals (try unfold Claims.isFinite) <;> decide +kernel

/-- Loop entries in the issuing sequencer. -/
def loops (l : List LoopEntry) (s : State) : State :=
  s.setMe { s.me with loops := Vector.ofFn fun i => l.getD i.val LoopEntry.empty }

def rep (n : Nat) (s : State) : State := s.setMe { s.me with repc := word n }

theorem witness_LoopsAndRepeats_ends :
    1 < (rep 2 (at' .C)).me.repc.toNat ∧ (at' .C).me.repc = 0 ∧ (rep 1 (at' .C)).me.repc = 1 ∧ loopDepth (at' .C).me.loops = 0 ∧
    (loopTop (loops [⟨0, 8, 2, true⟩] (at' .X)).me.loops).fin ≠ 0 ∧ loopDepth (loops [⟨0, 8, 2, true⟩] (at' .X)).me.loops ≠ 0 ∧
    (loopTop (loops [⟨0, 8, 2, true⟩] (at' .X)).me.loops).fin = 8 ∧ (loopTop (loops [⟨0, 8, 2, true⟩] (at' .X)).me.loops).count ≠ 1 ∧
    (loopTop (loops [⟨0, 8, 1, true⟩] (at' .X)).me.loops).count = 1 ∧
    Claims.Stack (loops [⟨0, 8, 1, true⟩, ⟨0, 8, 1, false⟩, ⟨8, 8, 3, false⟩, ⟨8, 8, 3, false⟩] (at' .C)).me.loops 4 ∧
    Claims.Stack (at' .C).me.loops 0 := by
  refine ⟨?_, rfl, rfl, ?_, ?_, ?_, ?_, ?_, ?_, ⟨by decide, ?_⟩, ⟨by decide, ?_⟩⟩ <;> decide +kernel

/-- Words at VA 0 up. -/
def code (ws : List Nat) (s : State) : State :=
  { s with hm := { s.hm with mem := Memory.write [] 0 (ws.flatMap (leBytes 8)) } }

/-- The word fetched at an address has a property. -/
def fetched (s : State) (va : Nat) (P : Fields → Bool) : Prop :=
  ∃ r : Word × State, s.fetchWord s.cur.core s.cur.sq va = .ok r ∧ P (fieldsOf r.1) = true

theorem fetched_of {s : State} {va : Nat} {P : Fields → Bool}
    (h : (match s.fetchWord s.cur.core s.cur.sq va with | .ok r => P (fieldsOf r.1) | .error _ => false) = true) : fetched s va P := by
  unfold fetched
  cases e : s.fetchWord s.cur.core s.cur.sq va <;> simp_all

theorem witness_LoopsAndRepeats :
    (∃ (s u : State) (a : SReg) (x : Word), s.cur.sq = .X ∧ s.readS a = .ok (x, u) ∧ x ≠ 0 ∧ loopDepth s.me.loops = 3) ∧
    (∃ (s u : State) (a : SReg) (x : Word), s.readS a = .ok (x, u) ∧ x ≠ 0 ∧ loopDepth s.me.loops = 4) ∧
    (∃ (s u : State) (a : SReg) (x : Word), s.readS a = .ok (x, u) ∧ x = 0 ∧ fetched u 16 (fun f => f.x != 3) ∧
      s.me.pc + 8 * (2 : BitVec 19).signExtend 64 = 16) ∧
    (at' .C).cur.sq ≠ .X ∧
    (∃ (s u : State) (a : SReg) (x : Word), s.readS a = .ok (x, u) ∧ s.me.endsLoop s.me.pc = false ∧ x ≠ 0 ∧
      fetched u (s.me.pc + 8).toNat (fun f => f.x != 3 && f.op.toNat == 0x10)) ∧
    (∃ (s u : State) (a : SReg) (x : Word), s.readS a = .ok (x, u) ∧ x = 0 ∧ s.me.endsLoop s.me.pc = false ∧
      fetched u (s.me.pc + 8).toNat (fun f => f.x != 3 && f.op.toNat == 0x8F)) ∧
    (∃ (s u : State) (a : SReg) (x : Word), s.readS a = .ok (x, u) ∧ s.me.endsLoop s.me.pc = false ∧
      fetched u (s.me.pc + 8).toNat (fun f => f.op.toNat == 0x01)) ∧
    (∃ (s u : State) (a : SReg) (x : Word), s.readS a = .ok (x, u) ∧ s.me.endsLoop s.me.pc = true) ∧
    (∃ (s : State), loopDepth s.me.loops = 4 ∧ (vget s.me.loops 0 LoopEntry.empty).fin = 16 ∧ fetched s 16 (fun f => f.x != 3)) ∧
    loopDepth (at' .C).me.loops < 1 :=
  ⟨⟨regs [(1, 5)] (loops [⟨8, 8, 1, false⟩, ⟨8, 8, 1, false⟩, ⟨8, 8, 1, false⟩] (at' .X)), _, .g 1, _, rfl, rfl, by decide +kernel, by decide +kernel⟩,
   ⟨regs [(1, 5)] (loops (List.replicate 4 ⟨8, 8, 1, false⟩) (at' .C)), _, .g 1, _, rfl, by decide +kernel, by decide +kernel⟩,
   ⟨code [1, 1, 1] (at' .C), _, .g 1, _, rfl, by decide +kernel, fetched_of (by decide +kernel), by decide +kernel⟩, by decide +kernel,
   ⟨regs [(1, 5)] (code [9, 0x10] (at' .C)), _, .g 1, _, rfl, by decide +kernel, by decide +kernel, fetched_of (by decide +kernel)⟩,
   ⟨code [9, 0x8F] (at' .C), _, .g 1, _, rfl, by decide +kernel, by decide +kernel, fetched_of (by decide +kernel)⟩,
   ⟨code [9, 1] (at' .C), _, .g 1, _, rfl, by decide +kernel, fetched_of (by decide +kernel)⟩,
   ⟨loops [⟨0, 0, 1, false⟩] (at' .C), _, .g 1, _, rfl, by decide +kernel⟩,
   ⟨loops (List.replicate 4 ⟨8, 16, 1, false⟩) (code [1, 1, 1] (at' .C)), by decide +kernel, by decide +kernel,
     fetched_of (by decide +kernel)⟩,
   by decide +kernel⟩

/-- The state of C of core 0. -/
def cst (f : CState → CState) (s : State) : State := s.setC (f s.c)

theorem witness_WaitNotifyYield :
    (at' .C).me.errs = [] ∧ (at' .C).me.ldCount ≤ min (0 : BitVec 4).toNat 14 ∧
    ¬(((at' .C).setMe { (at' .C).me with loads := [⟨0, [], none⟩] }).me.ldCount ≤ min (0 : BitVec 4).toNat 14) ∧
    (∃ (s : State) (e : CmdErr), e ∈ s.me.errs ∧ s.me.errs.length = 2 ∧ s.me.ldCount = 0 ∧ s.me.cpCount ≤ min (0 : BitVec 4).toNat 14 ∧
      ¬(s.cur.sq = .C ∧ s.c.sup = true) ∧ ∀ f ∈ s.me.errs, f ≠ e → e.stamp < f.stamp) ∧
    ((at' .X).me.ldCount = 0 ∧ (at' .X).me.stCount = 0 ∧ (at' .X).me.cpCount = 0 ∧ (at' .X).me.rmCount = 0 ∧ (at' .X).x.mx = [] ∧
      (at' .X).allHome = true) ∧
    (cst (fun c => { c with sup := true }) (at' .C)).c.sup = true ∧ (at' .C).c.yieldW = false ∧
    (∀ k, (at' .C).cardOn (at' .C).cur.core = some k → CardImg.npre k.img = false) ∧
    (∃ k, ({ at' .C with sch := { (at' .C).sch with cards := [(0, { bareCard 1 with img := (Vector.replicate 16 0).set 2 0x80000000000, pre := true })] } } : State).cardOn 0 = some k ∧
      k.pre = true ∧ CardImg.npre k.img = true) := by
  refine ⟨rfl, by decide +kernel, by decide +kernel,
    ⟨(at' .L).setMe { (at' .L).me with errs := [⟨4, 0xB0, 7, 0, false⟩, ⟨3, 0xB2, 1, 2, false⟩] }, ⟨3, 0xB2, 1, 2, false⟩, by decide, rfl,
      by decide +kernel, by decide +kernel, by decide +kernel, by decide⟩,
    ⟨by decide +kernel, by decide +kernel, by decide +kernel, by decide +kernel, rfl, by decide +kernel⟩, rfl, rfl, ?_, ⟨_, rfl, rfl, by decide +kernel⟩⟩
  intro k h
  have : k = bareCard 1 := by injection h with h; exact h.symm
  subst this; decide +kernel

theorem witness_TrapAndUserReturn :
    (at' .X).me.ldCount = 0 ∧ ¬((at' .X).cur.sq = .C ∧ (at' .X).c.sup = true) ∧
    (cst (fun c => { c with uevIn := true }) (at' .C)).c.uevIn = true ∧ (cst (fun c => { c with uevIn := true }) (at' .C)).c.sup = false ∧
    (at' .C).c.uevIn = false ∧ (at' .C).cur.sq = .C ∧ (at' .S).cur.sq ≠ .C := by
  refine ⟨?_, ?_, rfl, rfl, rfl, rfl, ?_⟩ <;> decide +kernel

theorem witness_SpecialRegisters :
    (∃ (s : State) (d : SReg), Claims.Takes s d ∧ s.me.fpcs = 0) ∧ (∃ (s u : State) (a : SReg) (x : Word), s.readS a = .ok (x, u)) ∧
    1 ≤ (4 : BitVec 8).toNat ∧ (4 : BitVec 8).toNat ≤ 4 ∧ 5 ≤ (5 : BitVec 8).toNat :=
  ⟨⟨at' .L, .g 31, ⟨_, rfl⟩, rfl⟩, ⟨at' .L, _, .g 31, _, rfl⟩, by decide, by decide, by decide⟩

/-! ### Witnesses: memory and order -/

theorem witness_Translation :
    (∃ rs : RangeSet, Claims.Matches rs[0] (2 ^ 30 - 1) 1 ∧ rs[0].getLsbD (Claims.permBit .ex) = true) ∧
    (∃ rs : RangeSet, Claims.Matches rs[1] 0 8 ∧ ¬Claims.Matches rs[0] 0 8 ∧ rs[1].getLsbD (Claims.permBit .wr) = false) ∧
    (∃ rs : RangeSet, ∀ i : Fin 16, ¬Claims.Matches rs[i.val] 0 8) ∧
    ¬((2 ^ 48 : Nat) / 2 ^ 48 = if (2 ^ 48 : Nat) / 2 ^ 47 % 2 = 1 then 0xFFFF else 0) := by
  refine ⟨⟨(Vector.replicate 16 0).set 0 bareRange, ?_, ?_⟩, ⟨(Vector.replicate 16 0).set 1 (bareRange &&& ~~~(7#128 <<< 124)), ?_, ?_, ?_⟩,
    ⟨Vector.replicate 16 0, ?_⟩, ?_⟩ <;> (try unfold Claims.Matches) <;> decide +kernel

/-- The access of a test at an address. -/
def tr (a : Nat) : Trans := ⟨a, 0, 0⟩

theorem reach_of {s : State} {k : AKind} {a n : Nat} {t : Trans}
    (h : (decide (a % n = 0) && (match translate s.here.partNo s.me.rng a n (if k = .load then .rd else .wr) with
      | .ok u => decide (u = t) | .error _ => false) && decide (iaTier t.ia ≤ 4) && !s.homeDown t.ia && !s.isStepped t.ia
      && good (s.confirmAll (k != .load) t.ia n)) = true) : Claims.Reaches s k a n t := by
  cases e : translate s.here.partNo s.me.rng a n (if k = .load then .rd else .wr) <;>
    cases f : s.confirmAll (k != .load) t.ia n <;> simp_all [good]
  exact ⟨h.1.1.1.1, e, h.1.1.2, h.1.2, h.2, f⟩

theorem local_of {s : State} {a n : Nat} (h : (decide (a % n = 0) && decide (a + n ≤ 0x200000)
      && !overlap a n (s.poolOf s.cur.core).lo (s.poolOf s.cur.core).len) = true) : Claims.InLocal s a n := by
  simp only [Bool.and_eq_true, decide_eq_true_eq, Bool.not_eq_true'] at h
  exact ⟨h.1.1, h.1.2, h.2⟩

theorem sound_of {s : State} (h : (s.hm.bad.isEmpty && s.hm.ptes.all fun e => !pteCmp e.2) = true) : Claims.Sound s := by
  simp only [Bool.and_eq_true, List.isEmpty_iff, List.all_eq_true, Bool.not_eq_true'] at h
  exact h

/-- Range register 0 of the issuing sequencer maps VA 0 to an IA, with all permissions. -/
def toIa (ia : Nat) (s : State) : State :=
  s.setMe { s.me with rng := s.me.rng.set 0 (bareRange ||| BitVec.ofNat 128 (ia / 4096 * 2 ^ 72)) }

theorem witness_AccessPlaces :
    (∃ (s u : State) (a : SReg) (x : Word), s.cur.sq = .C ∧ s.readS a = .ok (x, u) ∧ Claims.addr x (.imm 4) % Claims.width .b8 ≠ 0 ∧
      Claims.addr x (.imm 4) % Claims.width .b4 = 0 ∧ 0x200000 < Claims.addr x (.ext 0x200000) + 1 ∧
      translate u.here.partNo u.me.rng (2 ^ 30) 8 .rd = .error 6) ∧
    (∃ s : State, overlap 0 8 (s.poolOf s.cur.core).lo (s.poolOf s.cur.core).len = true) ∧
    (∃ s : State, (match translate s.here.partNo s.me.rng 0 8 .rd with
      | .ok t => iaTier t.ia == 5 && nbits (iaOff t.ia) 43 29 != 0 | .error _ => false) = true) ∧
    (∃ s : State, (match translate s.here.partNo s.me.rng 0 4 .rd with | .ok t => iaTier t.ia == 6 | .error _ => false) = true) ∧
    (∃ s : State, (match translate s.here.partNo s.me.rng 0 8 .wr with | .ok t => iaTier t.ia == 7 | .error _ => false) = true) := by
  refine ⟨⟨at' .C, _, .g 1, _, rfl, rfl, ?_, ?_, ?_, ?_⟩, ⟨cardW [(3, 2 ^ 50)] (at' .C), ?_⟩, ⟨toIa (5 * 2 ^ 44 + 2 ^ 43) (at' .C), ?_⟩,
    ⟨toIa (6 * 2 ^ 44) (at' .C), ?_⟩, ⟨toIa (7 * 2 ^ 44) (at' .C), ?_⟩⟩
  · decide +kernel
  · decide +kernel
  · decide +kernel
  · rfl
  all_goals decide +kernel

theorem free_of {s : State} {p : Place} {n : Nat} (h : (match p.ia? with
    | none => true
    | some ia => (clusterCores (clusterOf s.cur.core)).all fun d => allSeqs.all fun q => (s.seq d q).stores.all fun st => !st.meets ia n) = true) :
    Claims.NoStores s p n := by
  intro ia e d hd q st hst
  rw [e] at h
  have h := List.all_eq_true.1 (List.all_eq_true.1 (List.all_eq_true.1 h d hd) q (by cases q <;> decide)) st hst
  simpa using h

theorem witness_LoadsIssue :
    (∃ (s u : State) (a : SReg) (x : Word), s.cur.sq = .L ∧ s.readS a = .ok (x, u) ∧ u.me.ldCount < 14 ∧ u.me.atoms = [] ∧
      u.me.loads = [] ∧ Claims.InLocal u (2 ^ 21 - 8) 8 ∧ Claims.Sound u ∧ Claims.Reaches u .load 8 8 (tr 8) ∧
      Claims.NoStores u (.home 8 0) 8) ∧
    (∃ s : State, s.pushRoom 1 = .ok () ∧ s.me.loads = [] ∧ Claims.NoStores s (.lm s.cur.core 8) 8) ∧
    (∃ (s u : State) (a : SReg) (x : Word), s.cur.sq = .C ∧ s.readS a = .ok (x, u) ∧ Claims.addr x (.imm 0) + 8 * (31 : BitVec 5).toNat < 2 ^ 64 ∧
      (∀ i < 31, Claims.InLocal u (Claims.addr x (.imm 0) + 8 * i) 8) ∧
      ∀ i < 31, Claims.Reaches u .load (Claims.addr x (.imm 0) + 8 * i) 8 (tr (Claims.addr x (.imm 0) + 8 * i))) := by
  refine ⟨⟨at' .L, _, .g 1, _, rfl, rfl, by decide +kernel, rfl, rfl, local_of (by decide +kernel), sound_of (by decide +kernel),
    reach_of (by decide +kernel), free_of (by decide +kernel)⟩, ⟨qCX (at' .C), by rfl, rfl, free_of (by decide +kernel)⟩,
    ⟨at' .C, _, .g 1, _, rfl, rfl, by decide +kernel, ?_, ?_⟩⟩
  · have h : ∀ i < 31, (decide ((Claims.addr ((at' .C).me.rd 1) (.imm 0) + 8 * i) % 8 = 0) && decide ((Claims.addr ((at' .C).me.rd 1) (.imm 0) + 8 * i) + 8 ≤ 0x200000)
      && !overlap (Claims.addr ((at' .C).me.rd 1) (.imm 0) + 8 * i) 8 ((at' .C).poolOf (at' .C).cur.core).lo ((at' .C).poolOf (at' .C).cur.core).len) = true := by decide +kernel
    exact fun i hi => local_of (h i hi)
  · have h : ∀ i < 31, (decide ((8 * i) % 8 = 0) && (match translate (at' .C).here.partNo (at' .C).me.rng (8 * i) 8 .rd with
      | .ok u => decide (u = tr (8 * i)) | .error _ => false) && decide (iaTier (8 * i) ≤ 4) && !(at' .C).homeDown (8 * i) && !(at' .C).isStepped (8 * i)
      && good ((at' .C).confirmAll false (8 * i) 8)) = true := by decide +kernel
    intro i hi
    have e : Claims.addr ((at' .C).me.rd 1) (.imm 0) + 8 * i = 8 * i := by
      have : Claims.addr ((at' .C).me.rd 1) (.imm 0) = 0 := by decide +kernel
      omega
    rw [show Claims.addr ((at' .C).me.rd 1) (.imm 0) + 8 * i = 8 * i from e]
    exact reach_of (h i hi)

/-- A store in flight, the oldest of the issuing sequencer. -/
def stored (ia : Nat) (bs : List Byte) (s : State) : State :=
  s.setMe { s.me with stores := [⟨0, ia, bs, .issued, 0, [], 0, true, true⟩] }

/-- A load in flight, the oldest of the issuing sequencer. -/
def loading (p : Place) (v : Option (List Word)) (s : State) : State :=
  s.setMe { s.me with loads := [⟨0, [⟨5, p, 8, false⟩], v⟩] }

theorem witness_StoresIssue :
    (∃ (s u w : State) (d a : SReg) (x y : Word), s.cur.sq = .S ∧ s.readS a = .ok (x, u) ∧ u.readS d = .ok (y, w) ∧ w.me.stCount < 14 ∧
      w.me.atoms = [] ∧ Claims.InLocal w 8 8 ∧ Claims.Sound w ∧ Claims.Reaches w .store 8 8 (tr 8) ∧ w.me.loads = []) ∧
    (∃ (s u : State) (a : SReg) (x : Word), s.cur.sq = .C ∧ s.readS a = .ok (x, u) ∧ u.me.stCount < 14 ∧ u.me.atoms = [] ∧
      Claims.addr x (.imm 0) + 8 * (1 : BitVec 5).toNat < 2 ^ 64 ∧ (∀ i < 1, Claims.InLocal u (8 * i) 8) ∧
      ∀ i < 1, Claims.Reaches u .store (8 * i) 8 (tr (8 * i))) := by
  refine ⟨⟨at' .S, _, _, .g 2, .g 1, _, _, rfl, rfl, rfl, by decide +kernel, rfl, local_of (by decide +kernel), sound_of (by decide +kernel),
    reach_of (by decide +kernel), rfl⟩, ⟨at' .C, _, .g 1, _, rfl, rfl, by decide +kernel, rfl, by decide +kernel, ?_, ?_⟩⟩
  · intro i hi; obtain rfl : i = 0 := by omega
    exact local_of (by decide +kernel)
  · intro i hi; obtain rfl : i = 0 := by omega
    exact reach_of (by decide +kernel)

theorem witness_AtomicsIssue :
    (∃ (s u v w : State) (a b : SReg) (x y z : Word), s.cur.sq = .C ∧ s.readS a = .ok (x, u) ∧ u.readS b = .ok (y, v) ∧
      v.readS (.g 3) = .ok (z, w) ∧ v.me.atoms = [] ∧ Claims.InLocal v x.toNat 8 ∧ Claims.Sound v ∧ Claims.Reaches v .atom x.toNat 8 (tr 0) ∧
      v.me.ldCount < 14 ∧ v.me.stCount < 14 ∧ v.me.loads = [] ∧ v.me.stores = [] ∧ v.me.relWaits = []) ∧
    (∃ (s u v w : State) (a b : SReg) (x y z : Word), s.cur.sq = .C ∧ s.readS a = .ok (x, u) ∧ u.readS b = .ok (y, v) ∧
      v.readS (.g 3) = .ok (z, w) ∧ v.me.atoms = [] ∧ x.toNat % 4 ≠ 0) ∧
    (∃ s : State, s.pushRoom 1 = .ok ()) :=
  ⟨⟨at' .C, _, _, _, .g 1, .g 2, _, _, _, rfl, rfl, rfl, rfl, rfl, local_of (by decide +kernel), sound_of (by decide +kernel),
    reach_of (by decide +kernel), by decide +kernel, by decide +kernel, rfl, rfl, rfl⟩,
   ⟨regs [(1, 2)] (at' .C), _, _, _, .g 1, .g 2, _, _, _, rfl, rfl, rfl, rfl, rfl, by decide +kernel⟩, ⟨qCX (at' .C), by rfl⟩⟩

theorem witness_CoreMemoryOps :
    (1 : Fin 32).val + (31 : BitVec 5).toNat ≤ 32 ∧
    (∃ (s u : State) (a : SReg) (x : Word), s.cur.sq = .L ∧ s.readS a = .ok (x, u) ∧ s.me.loads = []) ∧
    (∃ (s u : State) (a : SReg) (x : Word), s.cur.sq = .C ∧ s.readS a = .ok (x, u) ∧ s.fusedAt s.cur.core = false) :=
  ⟨by decide, ⟨at' .L, _, .g 1, _, rfl, rfl, rfl⟩, ⟨at' .C, _, .g 1, _, rfl, rfl, by decide +kernel⟩⟩

theorem witness_LoadsComplete :
    (∃ (s : State) (l : PLoad), (s.seq 0 .C).loads = [l] ∧ l.vals = some [7] ∧ l.parts = [⟨5, .lm 0 8, 8, false⟩]) ∧
    (∃ (s : State) (l : PLoad), (s.seq 0 .C).loads = [l] ∧ l.vals = none ∧ l.parts = [⟨5, .lm 0 8, 8, false⟩] ∧
      (s.seq 0 .C).early = [] ∧ s.hm.found = [] ∧ s.partHeld 0 .C l.stamp ⟨5, .lm 0 8, 8, false⟩ = false) ∧
    (∃ (s : State) (l : PLoad), (s.seq 0 .C).loads = [l] ∧ l.vals = none ∧ l.parts = [⟨5, .home 8 2, 8, false⟩] ∧
      (s.seq 0 .C).early = [] ∧ s.hm.found = [] ∧ s.partHeld 0 .C l.stamp ⟨5, .home 8 2, 8, false⟩ = false ∧ s.overlay 0 8 8 = [] ∧
      s.lateLine 0 8 = none) :=
  ⟨⟨loading (.lm 0 8) (some [7]) (at' .C), _, rfl, rfl, rfl⟩, ⟨loading (.lm 0 8) none (at' .C), _, rfl, rfl, rfl, rfl, rfl, by decide +kernel⟩,
   ⟨loading (.home 8 2) none (at' .C), _, rfl, rfl, rfl, rfl, rfl, by decide +kernel, by decide +kernel, by decide +kernel⟩⟩

theorem witness_StoresPerform :
    (∃ (s : State) (st : PStore), (s.seq 0 .C).stores = [st] ∧ st.ia = lmIa 3 (2 ^ 21 - 8) ∧ st.bytes.length = 8 ∧
      s.storeReady 0 .C st = true ∧ s.storeFirst 0 .C st = true) ∧
    (∃ (s : State) (st : PStore), (s.seq 0 .C).stores = [st] ∧ iaTier st.ia ≤ 4 ∧ st.bytes.length = 8 ∧ st.ia % 8 = 0 ∧
      s.storeReady 0 .C st = true ∧ s.storeFirst 0 .C st = true ∧ s.homeDown st.ia = false ∧
      (match s.confirm st.ia true with | .ok h => !pteCmp h.pte | .error _ => false) = true ∧
      (∀ i < 8, s.rowAt (st.ia + i) = none) ∧ s.sch.watches = [] ∧ Claims.Sound s ∧ s.hm.found = []) :=
  ⟨⟨stored (lmIa 3 (2 ^ 21 - 8)) (leBytes 8 1) (at' .C), _, rfl, rfl, rfl, by decide +kernel, by decide +kernel⟩,
   ⟨stored 8 (leBytes 8 1) (at' .C), _, rfl, by decide +kernel, rfl, by decide +kernel, by decide +kernel, by decide +kernel,
     by decide +kernel, by decide +kernel, by decide +kernel, rfl, sound_of (by decide +kernel), rfl⟩⟩

theorem trans_of {p : Fin 32} {rs : RangeSet} {a n : Nat} {k : Perm} {t : Trans}
    (h : (match translate p rs a n k with | .ok u => decide (u = t) | .error _ => false) = true) : translate p rs a n k = .ok t := by
  cases e : translate p rs a n k <;> simp_all

theorem trans_err {p : Fin 32} {rs : RangeSet} {a n : Nat} {k : Perm} {c : Nat}
    (h : (match translate p rs a n k with | .ok _ => false | .error e => decide (e = c)) = true) : translate p rs a n k = .error c := by
  cases e : translate p rs a n k <;> simp_all

/-- Memory and homes of the package. -/
def homes (f : Homes → Homes) (s : State) : State := { s with hm := f s.hm }

/-- A page of tier 3 at IA 3 × 2^44 (R61), and one that a table's hot copy lies over. -/
def tier3 (psn : Bool) (heat : Nat) (s : State) : State :=
  let ia := 3 * 2 ^ 44
  let k := pteKey (Fin.ofNat 17 8) 0 0 ia
  homes (fun h => { h with ptes := sput h.ptes k (0xC000000000000000 ||| (if psn then 1 <<< 52 else 0)), heat := sput h.heat k heat }) s

theorem perform_of {s : State} {c : CoreId} {q : SeqId} {st : PStore} {rest : List PStore} (h : (s.seq c q).stores = st :: rest)
    (h2 : (decide (iaTier st.ia ≤ 4) && [1, 2, 4, 8].contains st.bytes.length && decide (st.ia % st.bytes.length = 0) &&
      s.storeReady c q st && s.storeFirst c q st && !s.homeDown st.ia && (s.hm.bad.isEmpty && s.hm.ptes.all fun e => !pteCmp e.2) &&
      s.hm.found.isEmpty && match s.confirm st.ia true with | .ok h => !pteCmp h.pte | .error _ => false) = true) :
    ∃ k, Claims.MayPerform s c q st rest k := by
  cases e : s.confirm st.ia true with
  | error _ => simp [e] at h2
  | ok k =>
    simp only [e, Bool.and_eq_true, decide_eq_true_eq, List.contains_iff_mem, Bool.not_eq_true', List.isEmpty_iff, List.all_eq_true] at h2
    obtain ⟨⟨⟨⟨⟨⟨⟨⟨a, b⟩, d⟩, f⟩, g⟩, i⟩, j⟩, l⟩, m⟩ := h2
    exact ⟨k, h, a, b, d, f, g, i, e, m, j, l⟩

/-- Table 1 of partition 0 in tier 3, with a hot area at 2^20; a hot copy of its row 0; an entry that watches the granule at IA 8, with a
trigger record of it. -/
def hotTable : Table := ⟨3 * 2 ^ 44, 8, 64, 16, 0, 0, 1, 2 ^ 21, 0, 0, 0, 0, 2 ^ 20⟩
def hotTabled (s : State) : State := s.setPart 0 { s.part 0 with tables := [(1, hotTable)] }
def copied (s : State) : State := homes (fun h => { h with hot := [⟨0, 1, 0, 0, 0, false, false, zeros 20, false⟩] }) s
def watch8 (limit : Nat) (once : Bool) : Watch :=
  ⟨0, true, 8, 8, .core, 0, limit, once, 0, Vector.replicate 3 0, Vector.replicate 16 0, Vector.replicate 16 0, 1, 0, false⟩
def watching (w : Watch) (rs : List (Fin 32 × Record)) (s : State) : State :=
  { s with sch := { s.sch with watches := [(5, w)], records := rs } }

theorem witness_StoresPerform_rows :
    (∃ (s : State) (st : PStore) (h : Hit), Claims.MayPerform s 0 .C st [] h ∧ s.sch.watches = [] ∧ st.bytes.length = 8 ∧
      (∀ i < 8, s.rowAt (st.ia + i) = some (1, hotTable, 0, 8 + i)) ∧ (s.hotCopy 0 1 0).isSome = true) ∧
    (∃ (s : State) (st : PStore) (h : Hit), Claims.MayPerform s 0 .C st [] h ∧ s.sch.watches = [] ∧ st.bytes.length = 8 ∧
      (∀ i < 8, s.rowAt (st.ia + i) = some (1, hotTable, 0, 8 + i)) ∧ s.hotCopy 0 1 0 = none ∧
      s.allocWay 0 1 hotTable 0 = some (0, none)) := by
  obtain ⟨h, a⟩ := perform_of (s := stored (3 * 2 ^ 44 + 8) (leBytes 8 1) (copied (hotTabled (tier3 false 0 (at' .C))))) (c := 0) (q := .C) rfl
    (by decide +kernel)
  obtain ⟨g, b⟩ := perform_of (s := stored (3 * 2 ^ 44 + 8) (leBytes 8 1) (hotTabled (tier3 false 0 (at' .C)))) (c := 0) (q := .C) rfl
    (by decide +kernel)
  exact ⟨⟨_, _, h, a, rfl, rfl, by decide +kernel, by decide +kernel⟩, ⟨_, _, g, b, rfl, rfl, by decide +kernel, by decide +kernel,
    by decide +kernel⟩⟩

/-- A store of v to the granule at IA 8, watched by an entry, with records pending. -/
def wstore (v : Nat) (w : Watch) (rs : List (Fin 32 × Record)) : State := watching w rs (stored 8 (leBytes 8 v) (at' .C))

theorem witness_StoresPerform_watches :
    (∀ i < 8, (wstore 1 (watch8 1 false) []).rowAt (8 + i) = none) ∧ (watch8 1 false).armed = true ∧ (watch8 1 false).base ≤ 8 / 8 * 8 ∧
    8 / 8 * 8 < (watch8 1 false).base + (watch8 1 false).len ∧
    (∃ h, Claims.MayPerform (wstore 0 (watch8 1 false) []) 0 .C ⟨0, 8, leBytes 8 0, .issued, 0, [], 0, true, true⟩ [] h) ∧
    (Claims.patched ((wstore 0 (watch8 1 false) []).homeBytes 8 8) 0 (leBytes 8 0) = (wstore 0 (watch8 1 false) []).homeBytes 8 8 ∧
      Claims.patched ((wstore 1 (watch8 1 false) []).homeBytes 8 8) 0 (leBytes 8 1) ≠ (wstore 1 (watch8 1 false) []).homeBytes 8 8) ∧
    (∃ h r, Claims.MayPerform (wstore 1 (watch8 1 false) [(0, r)]) 0 .C ⟨0, 8, leBytes 8 1, .issued, 0, [], 0, true, true⟩ [] h ∧
      Claims.pendingFor (wstore 1 (watch8 1 false) [(0, r)]) 5 (watch8 1 false) 8 = some r ∧ 0 + 1 ≤ (watch8 1 false).limit) ∧
    (∃ h, Claims.MayPerform (wstore 1 (watch8 1 true) []) 0 .C ⟨0, 8, leBytes 8 1, .issued, 0, [], 0, true, true⟩ [] h ∧
      Claims.pendingFor (wstore 1 (watch8 1 true) []) 5 (watch8 1 true) 8 = none ∧ 0 + 1 ≤ (watch8 1 true).limit ∧ (watch8 1 true).rate = 0 ∧
      (wstore 1 (watch8 1 true) []).sch.records.length < 16384) ∧
    (∃ h, Claims.MayPerform (wstore 1 (watch8 0 false) []) 0 .C ⟨0, 8, leBytes 8 1, .issued, 0, [], 0, true, true⟩ [] h ∧
      (watch8 0 false).limit < 0 + 1) := by
  refine ⟨by decide +kernel, rfl, by decide, by decide, perform_of rfl (by decide +kernel), ⟨by decide +kernel, by decide +kernel⟩, ?_, ?_, ?_⟩
  · obtain ⟨h, a⟩ := perform_of (s := wstore 1 (watch8 1 false) [(0, ⟨5, 8, 1, 2, 1, 0, 0, none⟩)]) (c := 0) (q := .C) rfl (by decide +kernel)
    exact ⟨h, ⟨5, 8, 1, 2, 1, 0, 0, none⟩, a, by decide +kernel, by decide⟩
  · obtain ⟨h, a⟩ := perform_of (s := wstore 1 (watch8 1 true) []) (c := 0) (q := .C) rfl (by decide +kernel)
    exact ⟨h, a, by decide +kernel, by decide, rfl, by decide +kernel⟩
  · obtain ⟨h, a⟩ := perform_of (s := wstore 1 (watch8 0 false) []) (c := 0) (q := .C) rfl (by decide +kernel)
    exact ⟨h, a, by decide⟩

theorem lookup_page (p : Sparse Word) (i : Nat) (hi : i < 4096) (e : Hit) (h : hitOf p 8 (3 * 2 ^ 44) 0 = some e) :
    lookup p (3 * 2 ^ 44 + i) = some e := by
  have a : homeOf (3 * 2 ^ 44 + i) = some 8 := by
    have t : iaTier (3 * 2 ^ 44 + i) = 3 := by unfold iaTier; omega
    have n1 : nbits (iaOff (3 * 2 ^ 44 + i)) 18 16 = 0 := by unfold nbits iaOff; simp; omega
    have n2 : nbits (iaOff (3 * 2 ^ 44 + i)) 27 25 = 0 := by unfold nbits iaOff; simp; omega
    have n3 : nbits (iaOff (3 * 2 ^ 44 + i)) 36 34 = 0 := by unfold nbits iaOff; simp; omega
    simp only [homeOf, t, n1, n2, n3]; rfl
  have b : hitOf p 8 (3 * 2 ^ 44 + i) 0 = some e := by
    rw [← h]
    have c : (3 * 2 ^ 44 + i) / pageSize 0 * pageSize 0 = 3 * 2 ^ 44 / pageSize 0 * pageSize 0 := by
      show (3 * 2 ^ 44 + i) / 4096 * 4096 = 3 * 2 ^ 44 / 4096 * 4096; omega
    have d : iaPart (3 * 2 ^ 44 + i) = iaPart (3 * 2 ^ 44) := by unfold iaPart; congr 1; omega
    unfold hitOf; simp only [c, d]
  simp only [lookup, a]
  rw [show upTo 10 = 0 :: [1, 2, 3, 4, 5, 6, 7, 8, 9] from rfl, List.findSome?_cons, b]

/-- One block of 64 bytes of zeros in 48, and a page of them. -/
def zblock : List Byte := leBytes 8 0x400001D3C0 ++ leBytes 8 (0x03C8EB67 * 2 ^ 32 + 32) ++ zeros 32
def zpage : List Byte := (List.replicate 64 zblock).flatten ++ zeros 1024

theorem zblock_decodes (r : List Byte) : decodeBlock (zblock ++ r) = .ok (zeros 64, 48) := by
  have a : (zblock ++ r).take 16 = zblock.take 16 := List.take_append_of_le_length (by decide)
  have b : (zblock ++ r).drop 16 = zblock.drop 16 ++ r := List.drop_append_of_le_length (by decide)
  have c : codedHeader (zblock.take 16) = some ⟨1, 64, 32, 0x03C8EB67⟩ := by decide +kernel
  have d : (zblock.drop 16 ++ r).take 32 = zeros 32 := by
    rw [List.take_append_of_le_length (by decide)]; decide
  have e : decodePayload ⟨1, 64, 32, 0x03C8EB67⟩ (zeros 32) = some (zeros 64) := by decide +kernel
  have f : crc32c (zeros 64) = 0x03C8EB67 := by decide +kernel
  simp only [decodeBlock, a, b, c, d, e, f, if_true]
  rfl

theorem zpage_decodes (n k : Nat) (r : List Byte) :
    decodePage (n + k) ((List.replicate n zblock).flatten ++ r) (64 * n) = some (zeros (64 * n)) := by
  induction n with
  | zero => cases k <;> simp [decodePage, zeros]
  | succ n ih =>
    have drop : (zblock ++ ((List.replicate n zblock).flatten ++ r)).drop 48 = (List.replicate n zblock).flatten ++ r :=
      List.drop_left' (by decide)
    rw [show n + 1 + k = (n + k) + 1 by omega, show 64 * (n + 1) = (64 * n + 63) + 1 by omega, List.replicate_succ, List.flatten_cons,
      List.append_assoc]
    simp only [decodePage, zblock_decodes, drop]
    rw [if_pos (by simp [zeros]), show 64 * n + 63 + 1 - (zeros 64).length = 64 * n by simp [zeros], ih]
    show some (zeros 64 ++ zeros (64 * n)) = _
    unfold zeros
    rw [List.replicate_append_replicate, Nat.add_comm]

theorem rawBytes_is (s : State) (bs : List Byte) (ia : Nat) (h : ∀ i < bs.length, ∃ k, lookup s.hm.ptes (ia + i) = some k ∧
    Memory.get s.hm.mem (k.memKey (ia + i)) = bs.getD i 0) : s.rawBytes ia bs.length = bs := by
  induction bs generalizing ia with
  | nil => rfl
  | cons b bs ih =>
    obtain ⟨k, e, f⟩ := h 0 (by simp)
    simp only [List.length_cons, State.rawBytes]
    rw [ih (ia + 1) fun i hi => by
      obtain ⟨k, e, f⟩ := h (i + 1) (by simpa using hi)
      exact ⟨k, by rw [show ia + 1 + i = ia + (i + 1) by omega]; exact e, by rw [show ia + 1 + i = ia + (i + 1) by omega]; simpa using f⟩]
    simp only [Nat.add_zero] at e f
    simp [e, f]

/-- A coded page of zeros at IA 3 × 2^44, of 64 blocks of 64 bytes (R255), and quotas for it. -/
def codedOver (m : List Host.Cell) (s : State) : State :=
  let s := tier3 false 0 s
  let s := s.setPart 0 { s.part 0 with quotas := Vector.replicate 6 4096 }
  homes (fun h => { h with
    ptes := sput h.ptes (pteKey 8 0 0 (3 * 2 ^ 44)) (0xC000000000000000 ||| 1 <<< 53), mem := m }) s
def codedPage (s : State) : State := codedOver (Memory.write [] (8 * 2 ^ 52) zpage) s

theorem toIa_codedOver (a : Nat) (m : List Host.Cell) (s : State) : (toIa a (codedOver m s)).hm.ptes = (codedOver m s).hm.ptes ∧
    (toIa a (codedOver m s)).hm.mem = m := ⟨rfl, rfl⟩

theorem zpage_read (s : State) (p : Sparse Word) (hp : s.hm.ptes = p) (e : Hit) (h : hitOf p 8 (3 * 2 ^ 44) 0 = some e)
    (k : e.arr = 8 ∧ pteFrame e.pte = 0 ∧ e.size = 4096 ∧ e.base = 3 * 2 ^ 44) (hm : s.hm.mem = Memory.write [] (8 * 2 ^ 52) zpage) :
    s.pageDecoded e = some (zeros 4096) := by
  have len : zpage.length = 4096 := by decide +kernel
  have raw : s.rawBytes (3 * 2 ^ 44) 4096 = zpage := by
    rw [← len]
    refine rawBytes_is s zpage _ fun i hi => ⟨e, by rw [hp]; exact lookup_page p i (by omega) e h, ?_⟩
    have key : e.memKey (3 * 2 ^ 44 + i) = 8 * 2 ^ 52 + i := by
      have t : iaTier (3 * 2 ^ 44 + i) = 3 := by unfold iaTier; omega
      have w : inPageSel 3 4096 = 0 := by decide +kernel
      have o : 3 * 2 ^ 44 + i - 3 * 2 ^ 44 = i := by omega
      simp only [Hit.memKey, Hit.phys, k.1, k.2.1, k.2.2.1, k.2.2.2, homeLocal, t, w, o, selLo]
      show 8 * 2 ^ 52 + (0 + (i / 2 ^ 16 * 2 ^ 16 + i % 2 ^ 16)) = _
      omega
    rw [key, hm, Memory.get_write, if_pos ⟨by omega, by omega⟩, Nat.add_sub_cancel_left]
  unfold State.pageDecoded State.pageBytes
  rw [k.2.2.1, k.2.2.2, raw]
  exact zpage_decodes 64 4032 (zeros 1024)

/-- On an HNX2-M, whose Skerries have 256 GiB each: how much stands behind those of an HNX2-P is its maker's (log 53). -/
theorem witness_StoresPerform_coded (maker : Config.modular = true) : ∃ (s u w : State) (d a : SReg) (x y : Word) (t : Trans) (h : Hit) (bs : List Byte) (f : Nat),
    s.cur.sq = .C ∧ s.readS a = .ok (x, u) ∧ u.readS d = .ok (y, w) ∧ w.me.stCount < 14 ∧ w.me.atoms = [] ∧
    Claims.addr x (.imm 0) % Claims.width .b8 = 0 ∧
    translate w.here.partNo w.me.rng (Claims.addr x (.imm 0)) (Claims.width .b8) .wr = .ok t ∧ iaTier t.ia = 3 ∧ w.homeDown t.ia = false ∧
    w.hm.bad = [] ∧ lookup w.hm.ptes t.ia = some h ∧ h.size = 4096 ∧ h.hbm = false ∧ pteBad h.pte = false ∧ pteW h.pte = true ∧
    pteStp h.pte = false ∧ pteRaw h.pte = false ∧ ptePsn h.pte = false ∧ pteCmp h.pte = true ∧ (∀ i < 8, w.rowAt (t.ia + i) = none) ∧
    w.pageDecoded h = some bs ∧ w.hm.dead.getLsbD h.home.val = false ∧ w.freeFrame h.home 4096 = some f ∧ f + 4096 ≤ 2 ^ 52 ∧
    vget (w.part (iaPart t.ia)).charges 2 0 + 4096 ≤ vget (w.part (iaPart t.ia)).quotas 2 0 := by
  have e : hitOf (codedPage (at' .C)).hm.ptes 8 (3 * 2 ^ 44) 0 =
    some ⟨8, pteKey 8 0 0 (3 * 2 ^ 44), 0xC000000000000000 ||| 1 <<< 53, 4096, 3 * 2 ^ 44, false⟩ := by decide +kernel
  have top : (toIa (3 * 2 ^ 44) (codedPage (at' .C))).frameTop 8 = 256 * 2 ^ 30 := by
    rw [State.frameTop, if_neg (by decide)]
    simp only [Config.frameLimit, Config.skerryBytes, maker, if_true]
    decide
  have used : (toIa (3 * 2 ^ 44) (codedPage (at' .C))).framesUsed 8 = [(0, 4096)] := by decide +kernel
  have free : (toIa (3 * 2 ^ 44) (codedPage (at' .C))).freeFrame 8 4096 = some 4096 := by
    simp only [State.freeFrame, top, used]
    decide
  exact ⟨toIa (3 * 2 ^ 44) (codedPage (at' .C)), _, _, .g 2, .g 1, _, _, tr (3 * 2 ^ 44),
    ⟨8, pteKey 8 0 0 (3 * 2 ^ 44), 0xC000000000000000 ||| 1 <<< 53, 4096, 3 * 2 ^ 44, false⟩, zeros 4096, 4096, rfl, rfl, rfl, by decide +kernel,
    rfl, by decide +kernel, trans_of (by decide +kernel), by decide +kernel, by decide +kernel, rfl, lookup_page _ 0 (by decide) _ e, rfl, rfl,
    by decide +kernel, by decide +kernel, by decide +kernel, by decide +kernel, by decide +kernel, by decide +kernel, by decide +kernel,
    zpage_read _ _ (toIa_codedOver _ _ _).1 _ e (by decide +kernel) (toIa_codedOver _ _ _).2, by decide +kernel, free, by decide, by decide +kernel⟩

/-- An atomic under way in C. -/
def atomic (k : AtomKind) (w8 : Bool) (s : State) : State :=
  s.setMe { s.me with atoms := [⟨0, k, w8, .lm 0 8, .rlx, .core, 5, [], 0⟩] }

/-- An atomic of C at a home that may be performed. -/
def atHome (k : AtomKind) (s : State) : State := s.setMe { s.me with atoms := [⟨0, k, true, .home 8 1, .rlx, .core, 5, [], 0⟩] }

theorem hitC_of {s : State} {ia : Nat} {w : Bool} (h : (match s.confirm ia w with | .ok h => !pteCmp h.pte | .error _ => false) = true) :
    ∃ h, s.confirm ia w = .ok h ∧ pteCmp h.pte = false := by
  cases e : s.confirm ia w with
  | error _ => simp [e] at h
  | ok k => exact ⟨k, rfl, by simpa [e] using h⟩

theorem witness_AtomicsPerform_home : ∀ k ∈ [AtomKind.amo .add 3, .red .fadd 3, .cas 3 0, .cas 3 1], ∃ (s : State) (a : PAtom),
    s.nextAtom 0 = some (.C, a) ∧ a.place = .home 8 1 ∧ a.kind = k ∧ iaTier 8 ≤ 4 ∧ (∃ h, s.confirm 8 true = .ok h ∧ pteCmp h.pte = false) ∧
    (∀ i < 8, s.rowAt (8 + i) = none) ∧ s.sch.watches = [] ∧ Claims.Sound s ∧ s.hm.found = [] ∧ leNat (s.homeBytes 8 8) = 0 := by
  intro k hk
  simp only [List.mem_cons, List.not_mem_nil, or_false] at hk
  obtain rfl | rfl | rfl | rfl := hk <;>
  exact ⟨atHome _ (at' .C), _, by rfl, rfl, rfl, by decide, hitC_of (by decide +kernel), by decide +kernel, rfl, sound_of (by decide +kernel), rfl,
    by decide +kernel⟩

theorem witness_AtomicsPerform_floats :
    Claims.isFinite fmtF32 0x80000000 ∧ Claims.isFinite fmtF32 0x7F7FFFFF ∧ fmtF32.infBits < Claims.magBits fmtF32 0x7F800001 ∧
    ¬fmtF32.infBits < Claims.magBits fmtF32 0x7F800000 ∧ Claims.magBits fmtF32 0xFF800000 = fmtF32.infBits ∧
    Claims.exact fmtF32 0x80000000 = Claims.exact fmtF32 0 := by
  unfold Claims.isFinite; decide +kernel

theorem witness_AtomicsPerform :
    (∃ (s : State) (a : PAtom), s.nextAtom 0 = some (.C, a) ∧ a.place = .lm 0 8 ∧ a.kind = .amo .add 3) ∧
    (∃ (s : State) (a : PAtom), s.nextAtom 0 = some (.C, a) ∧ a.place = .lm 0 8 ∧ a.kind = .red .add 3) ∧
    (∃ (s : State) (a : PAtom), s.nextAtom 0 = some (.C, a) ∧ a.place = .lm 0 8 ∧ a.kind = .cas 3 0) :=
  ⟨⟨atomic (.amo .add 3) true (at' .C), _, by rfl, rfl, rfl⟩, ⟨atomic (.red .add 3) false (at' .C), _, by rfl, rfl, rfl⟩,
   ⟨atomic (.cas 3 0) true (at' .C), _, by rfl, rfl, rfl⟩⟩

theorem witness_MarkOrders :
    ((loading (.lm 0 8) none (at' .C)).me.loads ≠ []) ∧ ((at' .C).me.loads = [] ∧ (at' .C).me.atoms = [] ∧ (at' .C).me.stores = []) ∧
    ((stored 8 [1] (at' .C)).me.loads = [] ∧ (stored 8 [1] (at' .C)).me.atoms = [] ∧
      ∃ st ∈ (stored 8 [1] (at' .C)).me.stores, st.moment = .issued) ∧
    (∃ a ∈ (atomic (.red .add 3) true (at' .C)).me.atoms, a.kind = .red .add 3) ∧
    (∃ a ∈ (atomic (.amo .add 3) true (at' .C)).me.atoms, a.kind = .amo .add 3) ∧ (at' .C).fusedAt (at' .C).cur.core = false := by
  refine ⟨by decide +kernel, ⟨rfl, rfl, rfl⟩, ⟨rfl, rfl, _, .head _, rfl⟩, ⟨_, .head _, rfl⟩, ⟨_, .head _, rfl⟩, by decide +kernel⟩

/-- Token 1 bound from C to X, or from X to C, with a count. -/
def token (b n : Nat) (s : State) : State :=
  let s := cardW [(7, b * 2 ^ 32)] s
  s.setHere { s.here with tokens := s.here.tokens.set 1 (BitVec.ofNat 16 n) }

theorem witness_TokensCount :
    (∃ (s u : State) (k : Card) (x : Word), s.cardOn s.cur.core = some k ∧ s.readN (.imm 1) = .ok (x, u) ∧ (CardImg.tbind k.img 1).1 = s.cur.sq.idx.val ∧
      (CardImg.tbind k.img 1).1 ≠ (CardImg.tbind k.img 1).2 ∧ s.here.tokens[1].toNat + x.toNat = 65535 ∧ s.me.loads = [] ∧ s.me.atoms = [] ∧
      s.me.stores = []) ∧
    (∃ (s u : State) (k : Card) (x : Word), s.cardOn s.cur.core = some k ∧ s.readN (.imm 1) = .ok (x, u) ∧ (CardImg.tbind k.img 1).1 = s.cur.sq.idx.val ∧
      (CardImg.tbind k.img 1).1 ≠ (CardImg.tbind k.img 1).2 ∧ s.here.tokens[1].toNat + x.toNat = 65536) ∧
    (∃ (s u : State) (k : Card) (x : Word), s.cardOn s.cur.core = some k ∧ s.readN (.imm 1) = .ok (x, u) ∧ (CardImg.tbind k.img 1).2 = s.cur.sq.idx.val ∧
      (CardImg.tbind k.img 1).1 ≠ (CardImg.tbind k.img 1).2 ∧ x.toNat ≤ s.here.tokens[1].toNat) ∧
    (∃ (s u : State) (k : Card) (x : Word), s.cardOn s.cur.core = some k ∧ s.readN (.ext 65536) = .ok (x, u) ∧ (CardImg.tbind k.img 1).2 = s.cur.sq.idx.val ∧
      (CardImg.tbind k.img 1).1 ≠ (CardImg.tbind k.img 1).2 ∧ s.here.tokens[1].toNat < x.toNat ∧ 65535 < x.toNat) ∧
    (∃ (s : State) (k : Card), s.cardOn s.cur.core = some k ∧ (CardImg.tbind k.img 1).1 = (CardImg.tbind k.img 1).2 ∧ Claims.Takes s (.g 4)) :=
  ⟨⟨token 0xC0 65534 (at' .C), _, _, _, by rfl, rfl, by decide +kernel, by decide +kernel, by decide +kernel, rfl, rfl, rfl⟩,
   ⟨token 0xC0 65535 (at' .C), _, _, _, by rfl, rfl, by decide +kernel, by decide +kernel, by decide +kernel⟩,
   ⟨token 0x30 1 (at' .C), _, _, _, by rfl, rfl, by decide +kernel, by decide +kernel, by decide +kernel⟩,
   ⟨token 0x30 0 (at' .C), _, _, _, by rfl, rfl, by decide +kernel, by decide +kernel, by decide +kernel, by decide +kernel⟩,
   ⟨at' .C, _, by rfl, by decide +kernel, ⟨_, rfl⟩⟩⟩

theorem witness_Barriers :
    (∃ (s : State) (k : Card), s.cur.sq = .C ∧ s.cardOn s.cur.core = some k ∧ s.me.loads = [] ∧ s.me.atoms = [] ∧
      s.coveredAt s.cur.core s.cur.sq (barScope (levelCores k 0 s.cur.core)) = true ∧ ∀ d ∈ levelCores k 0 s.cur.core, d = s.cur.core) ∧
    (∃ (s : State) (k : Card), s.cardOn s.cur.core = some k ∧ ∃ d ∈ levelCores k 1 s.cur.core, d ≠ s.cur.core ∧
      (s.core d).c.bar[1] = s.c.bar[1] ∧ (s.core d).c.barWait = none) ∧
    (∃ (s : State) (k : Card), s.cardOn s.cur.core = some k ∧ ∀ d ∈ levelCores k 1 s.cur.core, d ≠ s.cur.core →
      (s.core d).c.bar[1] = s.c.bar[1] ∧ (s.core d).c.barWait = some 1 ∧ (s.core d).c.barMet = false) ∧
    (∃ (s : State), s.cur.sq = .C ∧ s.c.barMet = true) ∧ CardImg.wlog (bareCard 1).img = 0 ∧
    (∃ (s : State), s.cur.sq = .C ∧ s.me.loads ≠ []) :=
  ⟨⟨at' .C, _, rfl, by rfl, rfl, rfl, by decide +kernel, by decide +kernel⟩,
   ⟨cardW [(2, 1)] (at' .C), _, by rfl, 1, by decide +kernel, by decide +kernel, by decide +kernel, by decide +kernel⟩,
   ⟨(cardW [(2, 1)] (at' .C)).setCore 1 { (at' .C).core 1 with c := { ((at' .C).core 1).c with barWait := some 1 } }, _, by rfl,
     by decide +kernel⟩,
   ⟨cst (fun c => { c with barMet := true }) (at' .C), rfl, rfl⟩, by decide +kernel, ⟨loading (.lm 0 8) none (at' .C), rfl, by decide +kernel⟩⟩

/-- Core 0's card participates in local group 2, which stands at a step; a stepped page may lie at IA 0. -/
def inGroup (step : Nat) (failed : Option (BitVec 16)) (s : State) : State :=
  let s := cardW [(2, 2 ^ 41 + 2 * 2 ^ 48)] s
  { s with fab := { s.fab with
    groups := s.fab.groups.set 2 ⟨true, 9, [0], step, [], false, failed, [], 0, [], []⟩
    regions := [(4, ⟨0, 0, 4096, 2, 0, 0, 0, none⟩)] } }

/-- Every page of core 0's range is stepped. -/
def steppedPages (s : State) : State := { s with hm := { s.hm with ptes := s.hm.ptes.map fun e => (e.1, e.2 ||| (1#64 <<< 60)) } }

theorem recorded_of {s : State} (g : Fin 16) (n : Nat) (h : s.fab.acks = []) : Claims.Recorded s g n := by
  intro a ha; rw [h] at ha; cases ha

theorem past_of {s : State} {g : Fin 16} {n : Nat} (h : n < (s.fab.groups[g.val]).step)
    (m : (s.fab.groups[g.val]).members = [s.fab.pkg]) : Claims.Past s g n :=
  .inr ⟨h, fun x hx hne => absurd (by rw [m] at hx; simpa using hx) hne⟩

theorem witness_StepsReturn :
    (∃ s : State, s.cur.sq = .C ∧ s.agentGroup s.cur.core = some 2 ∧ s.fab.groups[2].failed = none ∧ s.c.stpW = none ∧ s.me.loads = [] ∧
      s.me.atoms = [] ∧ s.coveredAt s.cur.core s.cur.sq .dev = true ∧ s.c.stepNo = 1 ∧ Claims.Past s 2 0 ∧ Claims.Takes s (.g 4)) ∧
    (∃ (s : State) (e : Stop), s.cur.sq = .C ∧ s.agentGroup s.cur.core = some 2 ∧ s.fab.groups[2].failed = none ∧ s.c.stpW = none ∧
      s.writeS (.q 1) 0 = .error e) ∧
    (∃ s : State, s.cur.sq = .C ∧ s.agentGroup s.cur.core = some 2 ∧ s.fab.groups[2].failed = none ∧ s.c.stpW = some 3 ∧
      Claims.Past s 2 3 ∧ Claims.Recorded s 2 3 ∧ good (s.writeS (.g 4) (BitVec.ofNat 64 4)) = true) ∧
    (∃ s : State, s.agentGroup s.cur.core = some 2 ∧ s.fab.groups[2].failed = none ∧ s.c.stpW = some 3 ∧ s.fab.groups[2].step ≤ 3) ∧
    (∃ s : State, s.agentGroup s.cur.core = some 2 ∧ s.fab.groups[2].failed = some 7) ∧
    (at' .C).agentGroup (at' .C).cur.core = none ∧
    (∃ (s : State) (a : SReg) (x : Word), s.cur.sq = .C ∧ s.readS a = .ok (x, s) ∧ (x + 0).toNat % 8 = 0 ∧
      (match translate s.here.partNo s.me.rng 0 8 .rd with | .ok t => t.ia == 0 | .error _ => false) = true ∧ s.homeDown 0 = false ∧
      good (s.confirm 0 false) = true ∧ s.isStepped 0 = true ∧ s.groupAt 0 = some 2 ∧ s.agentGroup s.cur.core = some 2 ∧
      s.fab.groups[2].failed = none ∧ Claims.Sound s ∧ s.me.loads = [] ∧
      ((BitVec.ofNat 64 (leNat (s.homeBytes 0 8)) - 0).toNat < 2 ^ 63) ∧ 2 ^ 63 ≤ (BitVec.ofNat 64 (leNat (s.homeBytes 0 8)) - 1).toNat) ∧
    (∃ (s u : State) (a : SReg) (x : Word), s.cur.sq = .C ∧ s.readS a = .ok (x, u) ∧ (x + (4 : BitVec 19).signExtend 64).toNat % 8 ≠ 0) := by
  refine ⟨⟨cst (fun c => { c with stepNo := 1 }) (inGroup 1 none (at' .C)), rfl, by decide +kernel, rfl, rfl, rfl, rfl, by decide +kernel, rfl,
      past_of (by decide +kernel) rfl, ⟨_, rfl⟩⟩, ⟨inGroup 0 none (at' .C), _, rfl, by decide +kernel, rfl, rfl, rfl⟩,
    ⟨cst (fun c => { c with stpW := some 3 }) (inGroup 4 none (at' .C)), rfl, by decide +kernel, rfl, rfl, past_of (by decide +kernel) rfl, recorded_of _ _ rfl,
      by decide +kernel⟩,
    ⟨cst (fun c => { c with stpW := some 3 }) (inGroup 3 none (at' .C)), by decide +kernel, rfl, rfl, by decide +kernel⟩,
    ⟨inGroup 3 (some 7) (at' .C), by decide +kernel, rfl⟩, by decide +kernel,
    ⟨steppedPages (inGroup 3 none (at' .C)), .g 0, 0, rfl, rfl, by decide +kernel, by decide +kernel, by decide +kernel, by decide +kernel, by decide +kernel,
      by decide +kernel, by decide +kernel, rfl, sound_of (by decide +kernel), rfl, by decide +kernel, by decide +kernel⟩,
    ⟨at' .C, _, .g 1, _, rfl, rfl, by decide +kernel⟩⟩

/-! ### Witnesses: vectors and matrices -/

/-- The state of X of core 0. -/
def xst (f : XState → XState) (s : State) : State := s.setX (f s.x)

/-- A mask entry and a port of X. -/
def masked (l : List Mask) (s : State) : State := xst (fun x => { x with masks := l }) s
def ported (p : Port) (s : State) : State := xst (fun x => { x with ports := x.ports.set 2 p }) s

/-- Sources that X reads: register 1, register 2, an immediate, an extension word, and a port that reads. -/
theorem reads_X :
    (∃ (s u w : State) (a : VR) (b : VB) (x : VReg) (y : Nat → Nat), s.cur.sq = .X ∧ s.readV a = .ok (x, u) ∧ Claims.ReadsB u .s8 b y w) ∧
    (∃ (s u w : State) (a : VR) (x : VReg) (y : Nat → Nat), s.cur.sq = .X ∧ s.readV a = .ok (x, u) ∧ Claims.ReadsB u .f32 (.imm 0x1F800) y w) ∧
    (∃ (s u w : State) (a : VR) (x : VReg) (y : Nat → Nat), s.cur.sq = .X ∧ s.readV a = .ok (x, u) ∧ Claims.ReadsB u .n64 (.ext 5) y w) ∧
    (∃ s : State, (s.x.ports[2]).conf = true ∧ (s.x.ports[2]).writes = true ∧ s.me.stores = []) :=
  ⟨⟨at' .X, _, _, .v 1, .reg (.v 2), _, _, rfl, rfl, ⟨_, rfl, rfl⟩⟩, ⟨at' .X, _, _, .v 1, _, _, rfl, rfl, ⟨rfl, rfl⟩⟩,
   ⟨at' .X, _, _, .v 1, _, _, rfl, rfl, ⟨rfl, rfl⟩⟩, ⟨ported ⟨⟨0, 2, 256, 1⟩, 0, true⟩ (at' .X), rfl, by decide +kernel, rfl⟩⟩

theorem witness_VectorIntegers : (.s8 : ElemT) ∈ Claims.intTypes ∧ (∃ (s u w : State) (a : VR) (b : VB) (x : VReg) (y : Nat → Nat),
    s.cur.sq = .X ∧ s.readV a = .ok (x, u) ∧ Claims.ReadsB u .s8 b y w) := ⟨by decide, reads_X.1⟩

theorem witness_VectorFloats : (.f32 : ElemT) ∈ Claims.floatTypes ∧ (∃ (s u w : State) (a : VR) (x : VReg) (y : Nat → Nat),
    s.cur.sq = .X ∧ s.readV a = .ok (x, u) ∧ Claims.ReadsB u .f32 (.imm 0x1F800) y w) := ⟨by decide, reads_X.2.1⟩

theorem witness_VectorFloats_finite :
    (∀ e ∈ [(ElemT.f32, 0x00000001, 0xFF7FFFFF), (.f16, 0x0001, 0xFBFF), (.bf16, 0x0001, 0xFF7F)], e.1 ∈ Claims.floatTypes ∧
      Claims.isFinite (Claims.fmtOf e.1) e.2.1 ∧ 0 < Claims.exact (Claims.fmtOf e.1) e.2.1 ∧ Claims.isFinite (Claims.fmtOf e.1) e.2.2 ∧
      Claims.exact (Claims.fmtOf e.1) e.2.2 < 0) ∧ (.s8 : ElemT) ∈ Claims.intTypes := by
  unfold Claims.isFinite; decide +kernel

theorem witness_RoundingIsCorrect : (.bf16 : ElemT) ∈ Claims.floatTypes ∧ (3 : Nat) < 4 ∧ 0 < 1 ∧
    ((Claims.fmtOf .bf16).round 3 false 1 0 false).flags.of = false ∧ ((Claims.fmtOf .bf16).round 3 false 1 200 false).flags.of = true ∧
    ((Claims.fmtOf .bf16).round 0 true 1 200 false).flags.of = true := by
  refine ⟨by decide, by decide, by decide, ?_, ?_, ?_⟩ <;> decide +kernel

theorem witness_FloatSpecials : (.f16 : ElemT) ∈ Claims.floatTypes ∧ (0 : Nat) < 4 ∧ ((Claims.fmtOf .f16).decode 0x7E00).isNan = true ∧
    (∃ m e, (Claims.fmtOf .f16).decode 0x3C00 = .fin false m e) ∧ (∃ m e, (Claims.fmtOf .f16).decode 0xBC00 = .fin true m e) ∧
    (∃ (s u w : State) (a : VR) (x : VReg) (y : Nat → Nat), s.cur.sq = .X ∧ s.readV a = .ok (x, u) ∧ Claims.ReadsB u .f16 (.imm 0x3C00) y w) :=
  ⟨by decide, by decide, by decide +kernel, ⟨_, _, rfl⟩, ⟨_, _, rfl⟩,
   ⟨at' .X, _, _, .v 1, _, _, rfl, rfl, ⟨rfl, rfl⟩⟩⟩

theorem witness_VectorMoves : (∃ (s u w : State) (a : VR) (b : VB) (x : VReg) (y : Nat → Nat), s.cur.sq = .X ∧ s.readV a = .ok (x, u) ∧
    Claims.ReadsB u .s8 b y w) ∧ (255 : BitVec 8).toNat < ElemT.s8.lanes ∧ ElemT.n16.lanes ≤ (128 : BitVec 8).toNat ∧
    (∃ s d, Claims.Takes s d) := ⟨reads_X.1, by decide, by decide, ⟨at' .X, .g 3, ⟨_, rfl⟩⟩⟩

theorem witness_MasksAndCompares :
    (∃ (s u w : State) (a : VR) (b : VB) (x : VReg) (y : Nat → Nat), s.cur.sq = .X ∧ s.readV a = .ok (x, u) ∧ Claims.ReadsB u .s8 b y w ∧
      s.x.masks.length < 16) ∧ 16 ≤ (masked (List.replicate 16 0) (at' .X)).x.masks.length ∧
    (∃ (s u : State) (m : Mask) (r : List Mask) (a : SReg) (g : Word), s.x.masks = m :: r ∧ s.readS a = .ok (g, u)) ∧
    (at' .X).x.masks = [] ∧ (∃ s d, Claims.Takes s d) ∧ (∃ r, (masked [0] (at' .X)).x.masks = 0 :: r) ∧ ¬(∃ r, (at' .X).x.masks = 0 :: r) := by
  refine ⟨⟨masked [5] (at' .X), _, _, .v 1, .reg (.v 2), _, _, rfl, rfl, ⟨_, rfl, rfl⟩, by decide +kernel⟩, by decide +kernel,
    ⟨masked [5] (at' .X), _, _, _, .g 1, _, rfl, rfl⟩, rfl, ⟨at' .X, .g 1, ⟨_, rfl⟩⟩, ⟨_, rfl⟩, ?_⟩
  rintro ⟨r, h⟩; exact absurd h (by have : (at' .X).x.masks = [] := rfl; simp [this])

/-- Range register 0 with CACHE = 1. -/
def cached (s : State) : State := s.setMe { s.me with rng := s.me.rng.set 0 (s.me.rng[0] ||| (1#128 <<< 122)) }

theorem ok_is {ε α : Type} [DecidableEq α] {e : Except ε α} {a : α}
    (h : (match e with | .ok b => decide (b = a) | .error _ => false) = true) : e = .ok a := by
  cases e <;> simp_all

theorem witness_VectorMemory :
    (∃ (s u w : State) (v : VR) (a : SReg) (x : Word) (y : VReg), s.cur.sq = .X ∧ s.readS a = .ok (x, u) ∧ u.readV v = .ok (y, w) ∧
      Claims.addr x (.ext 0x1FFF00) % ElemT.bytes .s64 = 0 ∧ Claims.addr x (.ext 0x1FFF00) + 256 ≤ 0x200000 ∧
      overlap (Claims.addr x (.ext 0x1FFF00)) 256 (s.poolOf s.cur.core).lo (s.poolOf s.cur.core).len = false ∧ s.me.stores = []) ∧
    (∃ (s u w : State) (a : SReg) (b : VR) (x : Word) (y : VReg) (t : Trans), s.cur.sq = .X ∧ s.readS a = .ok (x, u) ∧
      u.readV b = .ok (y, w) ∧ Claims.Sound s ∧ s.me.loads = [] ∧ s.me.atoms = [] ∧ s.me.lanes = [] ∧ s.lateIn s.cur.core = false ∧
      s.x.masks.length < 16 ∧
      ∀ j < ElemT.lanes .s64, t.cache ≠ 0 ∧ Claims.Reaches w .load (addOff x.toNat (Claims.signed .s64 (Claims.lane .s64 y j))) (ElemT.bytes .s64) t ∧
        Claims.NoStores s (.home t.ia t.cache) (ElemT.bytes .s64)) ∧
    (∃ (s : State) (t : Trans), translate s.here.partNo s.me.rng 0 8 .rd = .ok t ∧ t.cache ≠ 0 ∧ iaTier t.ia ≤ 4 ∧ s.homeDown t.ia = false ∧
      lookup s.hm.ptes t.ia = none) ∧
    (∃ (s u w z : State) (v b : VR) (a : SReg) (x : Word) (y d : VReg), s.cur.sq = .X ∧ s.readS a = .ok (x, u) ∧ u.readV b = .ok (y, w) ∧
      w.readV v = .ok (d, z) ∧ Claims.Sound s ∧ s.me.atoms = [] ∧ ∀ j < ElemT.lanes .s64,
      Claims.Reaches z .store (addOff x.toNat (Claims.signed .s64 (Claims.lane .s64 y j))) (ElemT.bytes .s64) (tr 0)) := by
  refine ⟨⟨at' .X, _, _, .v 1, .g 1, _, _, rfl, rfl, rfl, by decide +kernel, by decide +kernel, by decide +kernel, rfl⟩,
    ⟨cached (at' .X), _, _, .g 1, .v 2, _, _, ⟨0, 1, 0⟩, rfl, rfl, rfl, sound_of (by decide +kernel), rfl, rfl, rfl, by decide +kernel, by decide +kernel, ?_⟩,
    ⟨cached (toIa (2 ^ 31) (at' .X)), ⟨2 ^ 31, 1, 0⟩, ?_, by decide, by decide, by decide +kernel, by decide +kernel⟩,
    ⟨at' .X, _, _, _, .v 1, .v 2, .g 1, _, _, _, rfl, rfl, rfl, rfl, sound_of (by decide +kernel), rfl, ?_⟩⟩
  · have h : ∀ j < ElemT.lanes .s64, addOff ((cached (at' .X)).me.rd 1).toNat (Claims.signed .s64 (Claims.lane .s64 ((cached (at' .X)).x.v[2]) j)) = 0 := by
      decide +kernel
    intro j hj
    refine ⟨by decide, ?_, free_of (by decide +kernel)⟩
    exact (h j hj).symm ▸ reach_of (by decide +kernel)
  · exact trans_of (by decide +kernel)
  · have h : ∀ j < ElemT.lanes .s64, addOff ((at' .X).me.rd 1).toNat (Claims.signed .s64 (Claims.lane .s64 ((at' .X).x.v[2]) j)) = 0 := by
      decide +kernel
    intro j hj
    exact (h j hj).symm ▸ reach_of (by decide +kernel)

theorem witness_PortsAndTopK :
    (∃ (s : State) (b : Blk), s.cur.sq = .X ∧ (let k := s.me.substBlk b
      k.p1.toNat = 2 ^ 32 - 1 ∧ k.p0.toNat % 8 = 0 ∧ k.p2.toInt % 8 = 0 ∧ k.p0.toNat ≤ 0x1FFF00 ∧
      0 ≤ (k.p0.toNat : Int) + ((k.p1.toNat : Int) - 1) * k.p2.toInt ∧
      (k.p0.toNat : Int) + ((k.p1.toNat : Int) - 1) * k.p2.toInt ≤ 0x1FFF00 ∧ (s.poolOf s.cur.core).len = 0)) ∧
    (∃ (s : State) (b : Blk), (s.me.substBlk b).p1.toNat = 0) ∧ (∃ (s : State) (b : Blk), (s.me.substBlk b).p0.toNat % 8 ≠ 0) ∧
    (∃ (s : State) (b : Blk), 0x1FFF00 < (s.me.substBlk b).p0.toNat ∧ (s.me.substBlk b).p0.toNat % 8 = 0) ∧
    (∃ s : State, (s.x.ports[2]).conf = true ∧ (s.x.ports[2]).blk.p3.getLsbD 0 = false ∧ s.me.stores = []) ∧ ((at' .X).x.ports[2]).conf = false ∧
    (∃ (s u w : State) (a b : VR) (x y : VReg), s.cur.sq = .X ∧ s.readV a = .ok (x, u) ∧ u.readV b = .ok (y, w)) ∧
    1 ≤ (64 : BitVec 7).toNat ∧ (64 : BitVec 7).toNat ≤ 64 := by
  refine ⟨⟨at' .X, ⟨0x1FFF00, 2 ^ 32 - 1, 0, 0⟩, rfl, ?_⟩, ⟨at' .X, ⟨0, 0, 0, 0⟩, by decide +kernel⟩, ⟨at' .X, ⟨4, 1, 0, 0⟩, by decide +kernel⟩,
    ⟨at' .X, ⟨0x1FFF08, 1, 0, 0⟩, by decide +kernel⟩, ⟨ported ⟨⟨0, 2, 256, 0⟩, 0, true⟩ (at' .X), rfl, by decide +kernel, rfl⟩, rfl,
    ⟨at' .X, _, _, .v 1, .v 2, _, _, rfl, rfl, rfl⟩, by decide, by decide⟩
  decide +kernel

/-- Vector register 1 of X. -/
def vreg1 (v : VReg) (s : State) : State := xst (fun x => { x with v := x.v.set 1 v }) s

theorem witness_BlockQuantisation :
    (∃ (s w : State) (a : VR) (x : VReg), s.cur.sq = .X ∧ s.readV a = .ok (x, w) ∧ 0x7F800000 ≤ Claims.lane .f32 x 0 % 2 ^ 31) ∧
    (∃ (s w : State) (a : VR) (x : VReg), s.cur.sq = .X ∧ s.readV a = .ok (x, w) ∧ ∀ j < 64, Claims.lane .f32 x j % 2 ^ 31 = 0) ∧
    (∃ (s w : State) (a : VR) (x : VReg), s.cur.sq = .X ∧ s.readV a = .ok (x, w) ∧ (∀ j < 64, Claims.lane .f32 x j % 2 ^ 31 < 0x7F800000) ∧
      Claims.lane .f32 x 0 % 2 ^ 31 ≠ 0) :=
  ⟨⟨vreg1 0xFF800000 (at' .X), _, .v 1, _, rfl, rfl, by decide +kernel⟩, ⟨at' .X, _, .v 1, _, rfl, rfl, by decide +kernel⟩,
   ⟨vreg1 0x3F800000 (at' .X), _, .v 1, _, rfl, rfl, by decide +kernel, by decide +kernel⟩⟩

/-- Tile 1 of X: two rows of four columns from row 0. -/
def tiled (f32 : Bool) (s : State) : State := xst (fun x => { x with tiles := x.tiles.set 1 ⟨0, 2, 4, f32⟩ }) s

theorem witness_MatrixImmediate :
    (∃ (s u : State) (a : SReg) (v : Word), s.cur.sq = .X ∧ s.readS a = .ok (v, u) ∧ v.toNat = 127) ∧
    (∃ (s u : State) (a : SReg) (v : Word), s.cur.sq = .X ∧ s.readS a = .ok (v, u) ∧ v.toNat = 128) ∧
    (at' .X).mxFree { accW := [(⟨0, 2, 4, false⟩ : Tile).words], sideW := [(⟨0, 2, 4, false⟩ : Tile).sides] } = true ∧
    ((tiled true (at' .X)).x.tiles[1].rows ≠ 0 ∧ (tiled true (at' .X)).x.tiles[1].f32 = true) ∧
    (tiled true (at' .X)).mxFree { accW := [((tiled true (at' .X)).x.tiles[1]).words], sideW := [((tiled true (at' .X)).x.tiles[1]).sides] } = true ∧
    (at' .X).x.tiles[1].rows = 0 ∧
    (∃ (s u w : State) (a b : SReg) (v x : Word), s.cur.sq = .X ∧ s.readS a = .ok (v, u) ∧ u.readS b = .ok (x, w) ∧ s.x.tiles[1].rows ≠ 0 ∧
      x.toNat < s.x.tiles[1].rows ∧ s.mxFree { sideW := [⟨s.x.tiles[1].base + x.toNat, 1⟩] } = true ∧
      s.mxFree { sideR := [⟨s.x.tiles[1].base + x.toNat, 1⟩] } = true ∧ Claims.Takes w (.g 3)) ∧
    (∃ (s u w : State) (a b : SReg) (v x : Word), s.cur.sq = .X ∧ s.readS a = .ok (v, u) ∧ u.readS b = .ok (x, w) ∧ s.x.tiles[1].rows ≠ 0 ∧
      s.x.tiles[1].rows ≤ x.toNat) := by
  refine ⟨⟨regs [(1, 127)] (at' .X), _, .g 1, _, rfl, rfl, by decide +kernel⟩, ⟨regs [(1, 128)] (at' .X), _, .g 1, _, rfl, rfl, by decide +kernel⟩,
    by decide +kernel, ⟨by decide +kernel, rfl⟩, by decide +kernel, rfl,
    ⟨regs [(2, 1)] (tiled true (at' .X)), _, _, .g 1, .g 2, _, _, rfl, rfl, rfl, by decide +kernel, by decide +kernel, by decide +kernel,
      by decide +kernel, ⟨_, rfl⟩⟩,
    ⟨regs [(2, 2)] (tiled true (at' .X)), _, _, .g 1, .g 2, _, _, rfl, rfl, rfl, by decide +kernel, by decide +kernel⟩⟩

/-- A matrix operation of which nothing is performed yet. -/
def mop (k : MxKind) (ev : Bool) : MxOp := { kind := k, ev := ev }

/-- The nest set of X for one step on tile 1. -/
def nested (f : NestSet → NestSet) (s : State) : State :=
  xst (fun x => { x with ftab := x.ftab.set 0 1, shadow := f { x.shadow with levels := x.shadow.levels.map fun l => { l with n := 1 } } }) s

theorem witness_MatrixIssue :
    (∃ s : State, s.cur.sq = .X ∧ Claims.MxRoom s ∧ (s.poolOf s.cur.core).len = 0 ∧
      (let k := s.me.substBlk ⟨0x1FFFC0, 0xFFFFFFFFFFFFFFFF#64, 64, 1⟩
       k.p3.extractLsb' 0 9 = 1 ∧ k.p0.toNat % 8 = 0 ∧ k.p2.toNat % 8 = 0 ∧ k.p1 = 0xFFFFFFFFFFFFFFFF#64 ∧
         k.p0.toNat + Claims.weightRow .trit ≤ 0x200000)) ∧
    (∃ s : State, (s.me.substBlk ⟨4, 0, 0, 1⟩).p0.toNat % 8 ≠ 0 ∧ 0x200000 < (s.me.substBlk ⟨0x200000, 0, 0, 1⟩).p0.toNat + 64) ∧
    (∃ (s u : State) (a : SReg) (x : Word), s.cur.sq = .X ∧ s.readS a = .ok (x, u) ∧ s.x.tiles[1].rows ≠ 0 ∧ Claims.addr x (.imm 8) % 8 = 0 ∧
      Claims.addr x (.imm 8) + 4 * (s.x.tiles[1].rows * s.x.tiles[1].cols) ≤ 0x200000 ∧ Claims.addr x (.imm 4) % 8 ≠ 0 ∧
      0x200000 < Claims.addr x (.ext 0x1FFFF8) + 4 * (s.x.tiles[1].rows * s.x.tiles[1].cols)) ∧
    (at' .X).x.tiles[1].rows = 0 ∧ (tiled false (at' .X)).x.tiles[1].f32 = false ∧
    (∃ l ∈ (nested (fun n => { n with levels := n.levels.map fun l => { l with n := 2 ^ 32 } }) (at' .X)).x.shadow.levels.toList, 2 ^ 32 ≤ l.n.toNat) ∧
    (let s := nested id (at' .X)
     (match s.checkNest ⟨s.x.shadow, s.x.tiles, s.x.ftab⟩ with | .error (.trap _) => true | _ => false) = true) ∧
    (let s := nested id (tiled false (xst (fun x => { x with tiles := x.tiles.set 0 ⟨0, 2, 4, false⟩ }) (at' .X)))
     good (s.checkNest ⟨s.x.shadow, s.x.tiles, s.x.ftab⟩) = true ∧ s.x.mx = []) := by
  refine ⟨⟨at' .X, rfl, ⟨by decide +kernel, rfl, rfl, by decide +kernel⟩, by decide +kernel, by decide +kernel⟩, ⟨at' .X, by decide +kernel, by decide +kernel⟩,
    ⟨tiled false (at' .X), _, .g 1, _, rfl, rfl, by decide +kernel, by decide +kernel, by decide +kernel, by decide +kernel, by decide +kernel⟩, rfl, rfl,
    ?_, by decide +kernel, ⟨by decide +kernel, rfl⟩⟩
  decide +kernel

theorem witness_NestsStayInside :
    (let s := nested id (xst (fun x => { x with tiles := x.tiles.set 0 ⟨0, 2, 4, false⟩ }) (at' .X))
     good (s.checkNest ⟨s.x.shadow, s.x.tiles, s.x.ftab⟩) = true ∧ 0 < (⟨s.x.shadow, s.x.tiles, s.x.ftab⟩ : Nest).set.steps) := by
  exact ⟨by decide +kernel, by decide +kernel⟩

/-- Matrix operations in flight on core 0. -/
def inFlight (l : List MxOp) (s : State) : State := xst (fun x => { x with mx := l }) s

theorem witness_MatrixCompletes :
    (∃ (s : State) (n : Nest), ∃ e ∈ (s.core 0).x.mx, e.kind = .nest n true) ∧
    (∃ (s : State) (n : Nest), (s.core 0).x.mx = [] ++ (mop (.nest n false) true) :: []) ∧
    (∃ (s : State) (b : Blk), (s.core 0).x.mx[0]? = some (mop (.bld .trit 1 b) true) ∧ (s.core 0).mxReady 0 = true ∧ (b.p3.extractLsb' 0 9).toNat = 256) ∧
    (∃ (s : State) (t : Tile), (s.core 0).x.mx[0]? = some (mop (.ald t 8) false) ∧ (s.core 0).mxReady 0 = true) ∧
    (∃ (s : State) (t : Tile) (b : Blk), (s.core 0).x.mx[0]? = some (mop (.adrn t b) true) ∧ (s.core 0).mxReady 0 = true ∧ t.f32 = false ∧
      b.p1 = 0xFFFFFFFFFFFFFFFF#64 ∧ b.p3 = 0x7F0004#64 ∧ b.p2.toNat = 4 * t.cols) :=
  ⟨⟨inFlight [(mop (.nest ⟨NestSet.zero, Vector.replicate 8 Tile.unset, Vector.replicate 16 0⟩ true) false)] (at' .X), _, _, .head _, rfl⟩,
   ⟨inFlight [(mop (.nest ⟨NestSet.zero, Vector.replicate 8 Tile.unset, Vector.replicate 16 0⟩ false) true)] (at' .X), _, rfl⟩,
   ⟨inFlight [(mop (.bld .trit 1 ⟨0, 0xFFFFFFFFFFFFFFFF#64, 64, 256⟩) true)] (at' .X), _, rfl, by decide +kernel, by decide +kernel⟩,
   ⟨inFlight [(mop (.ald ⟨0, 2, 4, false⟩ 8) false)] (at' .X), _, rfl, by decide +kernel⟩,
   ⟨inFlight [(mop (.adrn ⟨0, 2, 4, false⟩ ⟨0, 0xFFFFFFFFFFFFFFFF#64, 16, 0x7F0004⟩) true)] (at' .X), _, _, rfl, by decide +kernel, rfl, rfl, rfl, rfl⟩⟩

/-- A drain of an f32 tile with biases in flight. -/
def drained (p3 : Nat) : State := inFlight [(mop (.adrn ⟨0, 2, 4, true⟩ ⟨0, 0, 16, word p3⟩) true)] (at' .X)

theorem witness_MatrixCompletes_drains : ∀ p3 ∈ [0x7F0000, 0x7F0041, 0x7F000A, 0xFF0003, 0x7F0020], ∃ (s : State) (t : Tile) (b : Blk),
    (s.core 0).x.mx[0]? = some (mop (.adrn t b) true) ∧ (s.core 0).mxReady 0 = true ∧ t.f32 = true ∧ b.p3.toNat = p3 ∧ b.p1 = 0 ∧
      b.p2 ≠ 0xFFFFFFFFFFFFFFFF#64 ∧ 0 < t.rows := by
  intro p3 h
  simp only [List.mem_cons, List.not_mem_nil, or_false] at h
  obtain rfl | rfl | rfl | rfl | rfl := h
  · exact ⟨drained 0x7F0000, _, _, rfl, by decide +kernel, rfl, by decide +kernel, rfl, by decide +kernel, by decide⟩
  · exact ⟨drained 0x7F0041, _, _, rfl, by decide +kernel, rfl, by decide +kernel, rfl, by decide +kernel, by decide⟩
  · exact ⟨drained 0x7F000A, _, _, rfl, by decide +kernel, rfl, by decide +kernel, rfl, by decide +kernel, by decide⟩
  · exact ⟨drained 0xFF0003, _, _, rfl, by decide +kernel, rfl, by decide +kernel, rfl, by decide +kernel, by decide⟩
  · exact ⟨drained 0x7F0020, _, _, rfl, by decide +kernel, rfl, by decide +kernel, rfl, by decide +kernel, by decide⟩

/-- A nest of two steps in level 0 and one step in the others, on tile 0, rescaled by fields. -/
def nest2 (f32 : Bool) (wide : Word) : Nest :=
  ⟨{ NestSet.zero with levels := (Vector.replicate 6 ⟨1, 0, 0, false⟩).set 0 ⟨2, 256, 1, true⟩, wide := wide },
    (Vector.replicate 8 Tile.unset).set 0 ⟨0, 2, 4, f32⟩, Vector.replicate 16 0⟩

theorem witness_NestsAccumulate_steps :
    (∀ e ∈ [(true, 0x800000), (false, 0x4000000), (true, 0x400000)], ∃ (s : State) (i : Nat) (op : MxOp) (n : Nest),
      (s.core 0).liveNest = some (i, op, n) ∧ (s.core 0).mxReady i = true ∧ op.done = 0 ∧ op.again = [] ∧ op.peeked = [] ∧ op.pend = [] ∧
      op.flags = 0 ∧ n.set.steps = 2 ∧ n.set.wide.toNat = e.2 ∧
      ∀ k < n.set.steps, (vget n.tiles (n.step k).f.acc Tile.unset).cols ≤ 256 ∧ (vget n.tiles (n.step k).f.acc Tile.unset).f32 = e.1 ∧
        (n.step k).f.rs = (e.2 == 0x800000)) ∧
    (∃ (n : Nest) (i : Fin 6 → Nat), (∀ l, i l < max 1 ((n.set.levels[l]).n.toNat % 2 ^ 32)) ∧ i 0 = 1) := by
  constructor
  · intro e h
    simp only [List.mem_cons, List.not_mem_nil, or_false] at h
    obtain rfl | rfl | rfl := h
    · exact ⟨inFlight [(mop (.nest (nest2 true 0x800000) true) false)] (at' .X), 0, _, _, by rfl, by decide +kernel, rfl, rfl, rfl, rfl, rfl,
        by decide +kernel, by decide +kernel, by decide +kernel⟩
    · exact ⟨inFlight [(mop (.nest (nest2 false 0x4000000) true) false)] (at' .X), 0, _, _, by rfl, by decide +kernel, rfl, rfl, rfl, rfl, rfl,
        by decide +kernel, by decide +kernel, by decide +kernel⟩
    · exact ⟨inFlight [(mop (.nest (nest2 true 0x400000) true) false)] (at' .X), 0, _, _, by rfl, by decide +kernel, rfl, rfl, rfl, rfl, rfl,
        by decide +kernel, by decide +kernel, by decide +kernel⟩
  · exact ⟨nest2 true 0, fun l => if l = 0 then 1 else 0, by decide +kernel, rfl⟩

theorem witness_NestsAccumulate :
    ∃ (s : State) (i : Nat) (op : MxOp) (n : Nest), (s.core 0).liveNest = some (i, op, n) ∧ (s.core 0).mxReady i = true ∧ n.set.steps = 1 ∧
      op.done = 0 ∧ (vget n.tiles (n.step 0).f.acc Tile.unset).f32 = false ∧ (n.step 0).f.rs = false ∧ 0 ≤ (n.step 0).r ∧ 0 ≤ (n.step 0).a :=
  ⟨inFlight [(mop (.nest ⟨{ NestSet.zero with levels := Vector.replicate 6 ⟨1, 0, 0, false⟩ }, (Vector.replicate 8 Tile.unset).set 0 ⟨0, 2, 4, false⟩,
      Vector.replicate 16 0⟩ true) false)] (at' .X), 0, _, _, by rfl, by decide +kernel, by decide +kernel, rfl, by decide +kernel, by decide +kernel,
    by decide +kernel, by decide +kernel⟩

/-! ### Witnesses: engines -/

/-- The base word of the issuing sequencer. -/
def op (n : Nat) (s : State) : State := { s with cur := { s.cur with word := word n } }

/-- A range may be used, as a Bool. -/
def usable (s : State) (u : EUse) : Bool :=
  u.addr % u.align == 0 && (u.n == 0 ||
    if u.lm then u.addr + u.n ≤ 2 ^ 21 && !overlap u.addr u.n (s.poolOf s.cur.core).lo (s.poolOf s.cur.core).len
    else match translate s.here.partNo s.me.rng u.addr u.n (if u.wr then .wr else .rd) with
      | .ok t => if u.peer then iaTier t.ia == 7 || (iaTier t.ia ≤ 4 && s.isStepped t.ia) else iaTier t.ia ≤ 4
      | .error _ => false)

theorem usable_of {s : State} {us : List EUse} (h : us.all (usable s) = true) : ∀ u ∈ us, Claims.Usable s u := by
  intro u hu
  have h := List.all_eq_true.mp h u hu
  simp only [usable, Bool.and_eq_true, beq_iff_eq, Bool.or_eq_true] at h
  refine ⟨h.1, h.2.imp id fun h => ?_⟩
  cases hl : u.lm <;> simp only [hl, if_true, if_false, Bool.false_eq_true] at h ⊢
  · cases e : translate s.here.partNo s.me.rng u.addr u.n (if u.wr then .wr else .rd) with
    | error _ => simp [e] at h
    | ok t =>
      simp only [e] at h
      refine ⟨t, rfl, ?_⟩
      cases hp : u.peer <;> simp_all
  · simpa using h

theorem room_of {s : State} {n : Nat} (h : (decide (s.opcode = n) && decide ((if n ∈ [0xC0, 0xC1, 0xC2, 0xB7, 0xB8] then s.me.rmCount
    else s.me.cpCount) < 14) && s.me.loads.isEmpty && s.me.atoms.isEmpty) = true) : Claims.CmdRoom s n := by
  simp only [Bool.and_eq_true, decide_eq_true_eq, List.isEmpty_iff] at h
  exact ⟨h.1.1.1, h.1.1.2, by simp [h.1.2], h.2⟩

/-- Table 1 of partition 0. -/
def tabled (s : State) : State := s.setPart 0 { s.part 0 with tables := [(1, ⟨2 ^ 20, 8, 64, 16, 0, 0, 1, 2 ^ 20, 0, 0, 0, 2 ^ 20, 0⟩)] }

/-- A command of the issuing sequencer in flight. -/
def cmd (n : BitVec 8) (b : Blk) : Cmd :=
  ⟨7, n, true, b, 0, 0, 0, 0, (Vector.replicate 16 0).set 0 bareRange, 0, [], [], none, [], [], [], .running, false, [], none, 0, 0, 0, 0, [], [],
    []⟩

def flying (xs : List Cmd) (s : State) : State := s.setMe { s.me with cmds := xs }

/-- The parts of a command's entry: its sequencer, its ranges and its room. -/
def ready (s : State) (us : List EUse) (n : Nat) : Prop := (∀ u ∈ us, Claims.Usable s u) ∧ Claims.CmdRoom s n

theorem ready_of {s : State} {us : List EUse} {n : Nat} (h : us.all (usable s) = true) (g : Claims.CmdRoom s n) : ready s us n :=
  ⟨usable_of h, g⟩

/-- L with a table and an opcode. -/
def eng (q : SeqId) (n : Nat) : State := op n (tabled (at' q))

theorem witness_EnginesIssue :
    (let b : Blk := ⟨0, 64, 2 ^ 21 - 64, 3 <<< 60⟩
     (eng .L 0xB0).cur.sq ∈ [SeqId.L, .S] ∧ (b.p2).toNat ≤ 2 ^ 40 ∧ (eng .L 0xB0).me.substBlk b = b ∧
     ready (eng .L 0xB0) [⟨Blk.lm b 0, b.p0.toNat, b.p2.toNat, 1, true, false⟩, ⟨Blk.lm b 1, b.p1.toNat, b.p2.toNat, 1, false, false⟩] 0xB0) ∧
    (Claims.Missing (eng .L 0xB0) ⟨true, 1, 2 ^ 21, 1, true, false⟩ ∧ Claims.Missing (eng .S 0xB0) ⟨false, 2 ^ 30, 1, 1, false, false⟩) ∧
    (¬(2 ^ 40 + 1 ≤ 2 ^ 40) ∧ (eng .C 0xB0).cur.sq ∉ [SeqId.L, .S]) ∧
    (flying (List.replicate 14 (cmd 0xB0 ⟨0, 0, 0, 0⟩)) (eng .L 0xB0)).me.cpCount = 14 ∧
    (let b : Blk := ⟨8, 1, 0, 4⟩
     b.p1.toNat ≤ 4095 ∧ b.p3.toNat ≤ 65536 ∧ Claims.rowOf (Claims.tableOf (eng .L 0xB2) 1) ≠ 0 ∧
     ready (eng .L 0xB2) [⟨true, 8, 4 * Claims.rowOf (Claims.tableOf (eng .L 0xB2) 1), 8, true, false⟩, ⟨true, 0, 32, 8, false, false⟩] 0xB2) ∧
    ready (eng .L 0xB9) [⟨true, 0, 64 * 2 ^ 13, 8, true, false⟩, ⟨false, 8, 0, 8, false, false⟩, ⟨true, 4, 256, 4, false, false⟩] 0xB9 ∧
    ready (eng .S 0xB5) [⟨false, 8, 4 * (((Claims.tableOf (eng .S 0xB5) 1).map fun t => align8 (16 + 4 * t.elems)).getD 0), 8, false, false⟩] 0xB5 ∧
    ready (eng .S 0xB6) [⟨true, 0, ((Claims.tableOf (eng .S 0xB6) 1).map fun t => align8 (4 * t.shcnt) + 4 * 8).getD 0, 8, true, false⟩,
      ⟨true, 8192, 32, 8, false, false⟩] 0xB6 ∧
    (∃ k, (cardW [(7, 0x7D * 2 ^ 32)] (eng .L 0xB4)).cardOn 0 = some k ∧ (CardImg.tbind k.img 0).1 ≠ (CardImg.tbind k.img 0).2 ∧
      (CardImg.tbind k.img 1).1 ≠ (CardImg.tbind k.img 1).2 ∧ (CardImg.tbind k.img 0).1 = SeqId.L.idx.val ∧ (CardImg.tbind k.img 1).2 = SeqId.L.idx.val) ∧
    ready (eng .L 0xB4) [⟨true, 0, 8 * 65535, 8, true, false⟩, ⟨false, 8, 16, 8, false, false⟩] 0xB4 ∧
    (let b : Blk := ⟨0, 4096, 1 + 2 ^ 16 + 2 ^ 32 + 2 ^ 48, 3 <<< 60⟩
     let h := inlineShape b
     b.p3.getLsbD 3 = false ∧ ready (eng .S 0xB1) [h.use dstStride (Blk.lm b 0) b.p0 true, h.use srcStride (Blk.lm b 1) b.p1 false] 0xB1) ∧
    (∃ ws, (eng .L 0xB3).bagList 0 = .ok ws ∧ bagsOf ws = [] ∧ ready (eng .L 0xB3) [⟨true, 0, 0, 8, true, false⟩] 0xB3) := by
  refine ⟨⟨by decide, by decide, by decide +kernel, ready_of (by decide +kernel) (room_of (by decide +kernel))⟩,
    ⟨⟨by decide, by show 2 ^ 21 < 1 + 2 ^ 21; decide⟩, ⟨by decide, trans_err (by decide +kernel)⟩⟩, ⟨by decide, by decide⟩, by decide +kernel,
    ⟨by decide, by decide, by decide +kernel, ready_of (by decide +kernel) (room_of (by decide +kernel))⟩,
    ready_of (by decide +kernel) (room_of (by decide +kernel)), ready_of (by decide +kernel) (room_of (by decide +kernel)),
    ready_of (by decide +kernel) (room_of (by decide +kernel)), ⟨_, by rfl, by decide +kernel⟩,
    ready_of (by decide +kernel) (room_of (by decide +kernel)),
    ⟨by decide, ready_of (by decide +kernel) (room_of (by decide +kernel))⟩,
    ⟨[], ?_, rfl, ready_of (by decide +kernel) (room_of (by decide +kernel))⟩⟩
  exact ok_is (by decide +kernel)

/-- The package's identifier, a route to package 5 and its capabilities. -/
def pkg0 (caps : Sparse Word) (s : State) : State := { s with fab := { s.fab with pkg := 0, caps := caps, routes := [(5, 2 ^ 63)], mcast := [(3, ⟨2 ^ 63 ||| 2 ^ 48 ||| 1, [0, 5]⟩)] } }

/-- A participant of group 2 with an opcode. -/
def rem (q : SeqId) (n : Nat) : State := op n (pkg0 [] (inGroup 0 none (tabled (at' q))))

/-- The target of a command: package 5, through range register 0. -/
def toPkg5 (s : State) : State := toIa (7 * 2 ^ 44 + 5 * 2 ^ 34) s

theorem witness_RemotesIssue :
    (steppedPages (rem .S 0xC0)).agentGroup 0 = some 2 ∧
    ready (steppedPages (rem .S 0xC0)) [⟨true, 0, 2 ^ 21, 8, false, false⟩, ⟨false, 8, 2 ^ 21, 1, true, true⟩, ⟨false, 16, 8, 8, true, true⟩] 0xC0 ∧
    (let b : Blk := ⟨2 <<< 62 ||| 3 <<< 54, 0, 8, 32⟩
     (b.p0.extractLsb' 62 2).toNat = 2 ∧ (b.p0.extractLsb' 54 8).toNat = 3 ∧
     ready (rem .S 0xC0) [⟨true, 0, 8, 8, false, false⟩, ⟨false, 32, 32, 32, true, false⟩] 0xC0 ∧
     translate (rem .S 0xC0).here.partNo (rem .S 0xC0).me.rng 32 32 .wr = .ok ⟨32, 0, 0⟩ ∧ (rem .S 0xC0).isStepped 32 = false ∧
     (steppedPages (rem .S 0xC0)).isStepped 32 = true ∧
     (∃ e, dget (rem .S 0xC0).fab.mcast 3 = some e ∧ e.hdr.getLsbD 63 = true ∧ e.hdr.getLsbD 48 = true) ∧
     dget (rem .S 0xC0).fab.mcast 4 = none) ∧
    ready (toPkg5 (rem .L 0xC1)) [⟨true, 2 ^ 21 - 8, 8, 8, true, false⟩, ⟨false, 0, 8, 8, false, true⟩] 0xC1 ∧
    ready (toPkg5 (rem .S 0xC2)) [⟨true, 0, 0, 8, false, false⟩, ⟨false, 8, 1, 8, true, true⟩] 0xC2 ∧
    translate (toPkg5 (rem .S 0xC2)).here.partNo (toPkg5 (rem .S 0xC2)).me.rng 8 1 .wr = .ok ⟨7 * 2 ^ 44 + 5 * 2 ^ 34 + 8, 0, 0⟩ ∧
    BitVec.ofNat 16 5 ≠ (toPkg5 (rem .S 0xC2)).fab.pkg ∧ (sget 0 (toPkg5 (rem .S 0xC2)).fab.caps 5).getLsbD 1 = false ∧
     (sget 0 (toPkg5 (rem .S 0xC2)).fab.routes 5).getLsbD 63 = true ∧ (sget 0 (rem .S 0xC2).fab.routes 6).getLsbD 63 = false ∧
    (sget 0 (pkg0 [(5, 2)] (rem .S 0xC2)).fab.caps 5).getLsbD 1 = true ∧
    ready (rem .S 0xB8) [⟨true, 0, 16, 8, false, false⟩] 0xB8 ∧ (at' .S).agentGroup 0 = none ∧
    (∃ e, dget (rem .S 0xB8).fab.mcast 3 = some e ∧ ∃ m ∈ e.members, m ≠ (rem .S 0xB8).fab.pkg ∧
      (sget 0 (rem .S 0xB8).fab.caps m.toNat).getLsbD 1 = false ∧ (sget 0 (rem .S 0xB8).fab.routes m.toNat).getLsbD 63 = true) ∧
    ready (rem .S 0xB7) [⟨true, 0, 8, 8, false, false⟩] 0xB7 ∧ (rem .S 0xB7).settled 0 8 = true ∧ Claims.Sound (rem .S 0xB7) ∧
    (good ((rem .S 0xB7).owners 0 ((rem .S 0xB7).newCmd true ⟨0, 0, 0, 0⟩) ⟨2 ^ 20, 8, 64, 16, 0, 0, 1, 2 ^ 20, 0, 0, 0, 2 ^ 20, 0⟩) = true) ∧
    ((rem .C 0xC8).fab.groups[2].joined = true ∧ (rem .C 0xC8).fab.groups[2].failed = none ∧ (rem .C 0xC8).fab.groups[3].joined = false ∧
      (inGroup 0 (some 7) (at' .C)).fab.groups[2].failed = some 7 ∧ ∃ u, (rem .C 0xC8).writeS (.g 4) 0 = .ok u) := by
  refine ⟨by decide +kernel, ready_of (by decide +kernel) (room_of (by decide +kernel)),
    ⟨by decide, by decide, ready_of (by decide +kernel) (room_of (by decide +kernel)), trans_of (by decide +kernel), by decide +kernel,
      by decide +kernel, ⟨_, rfl, by decide +kernel, by decide +kernel⟩, by decide +kernel⟩,
    ready_of (by decide +kernel) (room_of (by decide +kernel)), ready_of (by decide +kernel) (room_of (by decide +kernel)),
    trans_of (by decide +kernel), by decide +kernel, by decide +kernel, by decide +kernel, by decide +kernel, by decide +kernel, ready_of (by decide +kernel) (room_of (by decide +kernel)),
    by decide +kernel, ⟨_, rfl, 5, by decide, by decide +kernel, by decide +kernel, by decide +kernel⟩, ready_of (by decide +kernel) (room_of (by decide +kernel)),
    by decide +kernel, sound_of (by decide +kernel), by decide +kernel, ⟨by decide +kernel, by decide +kernel, by decide +kernel, by decide +kernel, _, rfl⟩⟩

/-- A command alone in its class and running. -/
theorem runs_one {s : State} {c : CoreId} {q : SeqId} {x : Cmd} (h : (s.seq c q).cmds = [x])
    (h2 : (decide (x.state = .running) && decide (x.stat = 0) && !(s.core c).c.engStop && x.waits.all fun w => s.waitMet c w) = true) :
    Claims.Runs s c q 0 x := by
  simp only [Bool.and_eq_true, decide_eq_true_eq, Bool.not_eq_true', List.all_eq_true] at h2
  refine ⟨by simp [h], fun j y hj _ => ?_, h2.1.1.1, h2.1.1.2, h2.1.2, fun w hw => h2.2 w hw, fun j y hj => by omega⟩
  rw [h] at hj
  match j with
  | 0 => rfl
  | j + 1 => simp at hj

/-- A CPY of n local bytes from b to a; a CPY from VA 0; a ring DECMP of a coded block at VA 0. -/
def cpy (a b n : Nat) : Cmd :=
  { cmd 0xB0 ⟨word a, word b, word n, 3 <<< 60⟩ with ias := [a, b], reads := [⟨b, n⟩], writes := [⟨a, n⟩] }
def cpyIn (n b : Nat) : Cmd := { cmd 0xB0 ⟨0, word b, word n, 1 <<< 60⟩ with ias := [0, b], writes := [⟨0, n⟩] }
def decmp : Cmd := cmd 0xB4 ⟨0, 0, 2, word (2 + 8 * 256 + 1 * 2 ^ 28)⟩

/-- A coded block of the bytes 1, 2, 3, 4, stored as they are, at VA 0 (R255), with one free slot. -/
def coded (tok : Nat) (s : State) : State :=
  let s := code [0x40000D3C0, 691047668 * 2 ^ 32 + 4, 0x04030201] (flying [decmp] (cardW [(7, 0x7D * 2 ^ 32)] s))
  s.setHere { s.here with tokens := s.here.tokens.set 1 (BitVec.ofNat 16 tok) }

/-- The ring DECMP's block can be read, and its slot's tokens stand so. -/
def slotOk (n : Nat) : Except UEnd (CodedHeader × List Byte × State) → Bool
  | .ok r => (r.2.2.core 0).tokens[1].toNat == n && (r.2.2.core 0).tokens[0].toNat < 65535 && (r.2.2.seq 0 .L).coreReleased &&
      r.1.outLen ≤ 2048 && decide (decodeInto r.1 r.2.1 = ([1, 2, 3, 4], 0))
  | .error _ => false

/-- A command alone in its class at its next unit. -/
theorem unit_one {s : State} {c : CoreId} {q : SeqId} {x : Cmd} (h : (s.seq c q).cmds = [x])
    (h2 : (decide (x.state = .running) && decide (x.stat = 0) && !(s.core c).c.engStop && x.waits.all fun w => s.waitMet c w) = true)
    (h3 : (x.held.isEmpty && x.peeked.isEmpty && x.pend.isEmpty && !rangesMeet x.reads x.writes && s.hm.bad.isEmpty &&
      (s.hm.ptes.all fun e => !pteCmp e.2) && decide (s.hm.out = 0)) = true) : Claims.AtUnit s c q 0 x := by
  simp only [Bool.and_eq_true, List.isEmpty_iff, Bool.not_eq_true', List.all_eq_true, decide_eq_true_eq] at h3
  obtain ⟨⟨⟨⟨⟨⟨a, b⟩, d⟩, e⟩, f⟩, g⟩, k⟩ := h3
  exact ⟨runs_one h h2, a, b, d, e, f, g, k⟩

theorem serves_of {s : State} {ia n : Nat} (h : (decide (iaTier ia ≤ 4) && (List.range n).all fun i =>
    match s.confirm (ia + i) false with | .ok h => !pteStp h.pte | .error _ => false) = true) : Claims.Serves s ia n := by
  simp only [Bool.and_eq_true, decide_eq_true_eq, List.all_eq_true, List.mem_range] at h
  refine ⟨h.1, fun i hi => ?_⟩
  have h := h.2 i hi
  cases e : s.confirm (ia + i) false with
  | error _ => simp [e] at h
  | ok a => exact ⟨a, rfl, by simpa [e] using h⟩

theorem serves_ok {s : State} {ia n : Nat} (h : Claims.Serves s ia n) : ∀ i < n, ∃ h, s.confirm (ia + i) false = .ok h := by
  intro i hi
  obtain ⟨a, e, -⟩ := h.2 i hi
  exact ⟨a, e⟩

/-- A row of a table that is not sharded. -/
theorem rowHere_of {s : State} {t : Table} {r : Nat} (h : (decide (t.shcnt = 1) && decide (t.shard = 0) && decide (r < t.rows)) = true)
    (h1 : Claims.Serves s t.owner (2 * t.shcnt)) (h2 : Claims.homeNum s (t.owner + 2 * 0) 2 = s.fab.pkg.toNat)
    (h3 : Claims.Serves s (t.base + r * t.stride) t.rowBytes) : Claims.RowHere s t r r := by
  simp only [Bool.and_eq_true, decide_eq_true_eq] at h
  obtain ⟨⟨a, b⟩, d⟩ := h
  exact ⟨0, ⟨by omega, fun _ => ⟨rfl, rfl⟩, by omega, by omega, by omega⟩, h1, h2, d, h3⟩

theorem writes_of {s : State} {w : List (Nat × Byte)} (h : (s.sch.watches.isEmpty && decide (w.map fun e => Claims.memAt s e.1).Nodup &&
    w.all fun e => decide (iaTier e.1 ≤ 4) && (s.rowAt e.1).isNone && match s.confirm e.1 true with
      | .ok h => !pteStp h.pte | .error _ => false) = true) : Claims.MayWrite s w := by
  simp only [Bool.and_eq_true, List.isEmpty_iff, decide_eq_true_eq, List.all_eq_true, Option.isNone_iff_eq_none] at h
  refine ⟨h.1.1, h.1.2, fun e he => ?_⟩
  obtain ⟨⟨a, b⟩, d⟩ := h.2 e he
  cases f : s.confirm e.1 true with
  | error _ => simp [f] at d
  | ok k => exact ⟨a, b, k, rfl, by simpa [f] using d⟩

theorem witness_EngineEvents_last :
    (∃ (s : State) (x : Cmd), Claims.AtUnit s 0 .L 0 x ∧ x.op = 0xB0 ∧ x.ias = [8, 2 ^ 20] ∧ Blk.lm x.blk 0 = true ∧ Blk.lm x.blk 1 = false ∧
      x.blk.p2.toNat - 256 * x.done = 256 ∧ Claims.Serves s (2 ^ 20 + 256 * x.done) 256) ∧
    (∃ (s : State) (x : Cmd), Claims.AtUnit s 0 .S 0 x ∧ x.op = 0xB0 ∧ x.ias = [2 ^ 20 + 1, 2 ^ 21 - 1] ∧ Blk.lm x.blk 0 = false ∧
      Blk.lm x.blk 1 = true ∧ x.blk.p2.toNat - 256 * x.done = 1 ∧
      Claims.MayWrite s [(2 ^ 20 + 1, Claims.lmByte s 0 (2 ^ 21 - 1))]) ∧
    (∃ (s : State) (x : Cmd), Claims.AtUnit s 0 .L 0 x ∧ x = decmp ∧ decmp.done < decmp.blk.p2.toNat ∧
      Fin.ofNat 8 (x.blk.p3.extractLsb' 28 3).toNat ≠ Fin.ofNat 8 (x.blk.p3.extractLsb' 24 3).toNat ∧
      (match s.codedAt 0 x with | .ok _ => true | .error _ => false) = true ∧ x.off ≠ 1) := by
  refine ⟨⟨flying [{ cmd 0xB0 ⟨0, 0, 256, 1 <<< 60⟩ with ias := [8, 2 ^ 20], writes := [⟨8, 256⟩] }] (at' .L), _,
      unit_one rfl (by decide +kernel) (by decide +kernel), rfl, rfl, by decide +kernel, by decide +kernel, by decide +kernel,
      serves_of (by decide +kernel)⟩,
    ⟨flying [{ cmd 0xB0 ⟨0, 0, 1, 2 <<< 60⟩ with ias := [2 ^ 20 + 1, 2 ^ 21 - 1], reads := [⟨2 ^ 21 - 1, 1⟩] }] (at' .S), _,
      unit_one rfl (by decide +kernel) (by decide +kernel), rfl, rfl, by decide +kernel, by decide +kernel, by decide +kernel,
      writes_of (by decide +kernel)⟩,
    ⟨coded 1 (at' .L), _, unit_one rfl (by decide +kernel) (by decide +kernel), rfl, by decide, by decide, by decide +kernel, by decide⟩⟩

theorem witness_EngineEvents :
    (∃ (s : State) (x : Cmd), Claims.Runs s 0 .L 0 x ∧ x = cpy 8 0 (2 ^ 21 - 8)) ∧
    (∃ (s : State) (x : Cmd), Claims.Runs s 0 .S 0 x ∧ x.op ∈ [0xB2#8, 0xB3, 0xB5, 0xB6, 0xB7] ∧ x.table = none) ∧
    (∃ (s : State) (x : Cmd), Claims.Runs s 0 .L 0 x ∧ x = cpyIn 257 (2 ^ 30 - 8) ∧ s.anyDown (2 ^ 30 - 8) 256 = false ∧
      (match s.confirmAll false (2 ^ 30 - 8) 256 with | .error _ => true | .ok _ => false) = true) ∧
    (∀ x, ((at' .L).seq 0 .L).cmds[0]? = some x → x.op ≠ 0xB4) ∧
    (∃ (s : State) (x : Cmd), Claims.Runs s 0 .L 0 x ∧ x = decmp ∧ x.done < x.blk.p2.toNat ∧ slotOk 0 (s.codedAt 0 x) = true) ∧
    (∃ (s : State) (x : Cmd), Claims.Runs s 0 .L 0 x ∧ x = decmp ∧ x.done < x.blk.p2.toNat ∧ slotOk 1 (s.codedAt 0 x) = true) ∧
    (∃ (s : State) (x : Cmd), Claims.Runs s 0 .L 0 x ∧ x = { decmp with off := 1 } ∧ x.done < x.blk.p2.toNat ∧ (s.core 0).tokens[0] ≠ 65535) := by
  refine ⟨⟨flying [cpy 8 0 (2 ^ 21 - 8)] (at' .L), _, runs_one rfl (by decide +kernel), rfl⟩,
    ⟨flying [cmd 0xB5 ⟨0, 0, 0, 0⟩] (at' .S), _, runs_one rfl (by decide +kernel), by decide, rfl⟩,
    ⟨flying [cpyIn 257 (2 ^ 30 - 8)] (at' .L), _, runs_one rfl (by decide +kernel), rfl, by decide +kernel, by decide +kernel⟩, ?_,
    ⟨coded 0 (at' .L), _, runs_one rfl (by decide +kernel), rfl, by decide, by decide +kernel⟩,
    ⟨coded 1 (at' .L), _, runs_one rfl (by decide +kernel), rfl, by decide, by decide +kernel⟩,
    ⟨flying [{ decmp with off := 1 }] (at' .L), _, runs_one rfl (by decide +kernel), rfl, by decide, by decide +kernel⟩⟩
  intro x h; cases h

/-- A table of one shard in package 0, its rows at 2^20. -/
def tab (fmt elems opt : Nat) : Table := ⟨2 ^ 20, 8, 64, elems, fmt, 0, 1, 2 ^ 21, 0, opt, 0, 2 ^ 22, 0⟩

/-- A command over that table, whole words of which stand behind its homes or in local memory. -/
def tcmd (n : BitVec 8) (b : Blk) (t : Table) : Cmd := { cmd n b with table := some (1, t) }
def homeW (l : List (Nat × Nat)) (s : State) : State :=
  { s with hm := { s.hm with mem := l.foldl (fun m e => Memory.write m (Claims.memAt s e.1) (leBytes 8 e.2)) s.hm.mem } }
def lmW (l : List (Nat × Nat)) (s : State) : State :=
  { s with hm := { s.hm with lm := l.foldl (fun m e => Memory.write m e.1 (leBytes 8 e.2)) s.hm.lm } }

def gathCmd : Cmd := tcmd 0xB2 ⟨2 ^ 21 - 24, 1, 0, 1⟩ (tab 0 16 0)
def walkCmd (va : Nat) : Cmd := cmd 0xB9 ⟨2 ^ 21 - 256, word va, 0, 1⟩
def poolCmd : Cmd := { tcmd 0xB3 ⟨2 ^ 21 - 8, 1, 0, 0⟩ (tab 0 1 0) with record := [2 ^ 42, 1] }
def buckCmd : Cmd := tcmd 0xB6 ⟨2 ^ 21 - 24, 0, 1, 16 * 2 ^ 12⟩ (tab 0 16 0)
def supdCmd (opt : Nat) : Cmd := { tcmd 0xB5 ⟨0, 1, 0, 0⟩ (tab 3 1 opt) with held := [(0, zeros 24)] }
def elemCmd : Cmd := { cmd 0xB1 ⟨0, 8, 0, 3 <<< 60⟩ with ias := [2 ^ 21 - 1, 0], record := [1, 1, 1, 1, 1] }
def decmpAt (va out : Nat) : Cmd := cmd 0xB4 ⟨2 ^ 21 - 4, word va, 1, word (out * 2 ^ 8)⟩
def block (crc : Nat) : State := flying [decmpAt 0 1] (code [0x40000D3C0, crc * 2 ^ 32 + 4, 0x04030201] (at' .L))

/-- The new rows of the optimisers for these operands. -/
def newRow (opt lr eps : Nat) (st' : Nat) : Nat :=
  let lg := (fmtF32.mul 0 lr 0).bits
  if opt = 0 then (fmtF32.sub 0 0 lg).bits
  else (fmtF32.sub 0 0 (fmtF32.div 0 lg (fmtF32.add 0 (fmtF32.sqrt 0 st').bits eps).bits).bits).bits
def newState (opt : Nat) : Nat :=
  let gg := (fmtF32.mul 0 0 0).bits
  if opt = 1 then (fmtF32.add 0 0 (fmtF32.div 0 (Claims.addAll 0 [gg]) (fmtF32.ofInt 0 1).bits).bits).bits else (fmtF32.add 0 0 gg).bits

theorem witness_TableEngines_gath : ∃ (s : State) (x : Cmd) (t : Table), Claims.AtUnit s 0 .L 0 x ∧ x.op = 0xB2 ∧ x.table = some (1, t) ∧
    x.blk.p3.toNat = x.done + 1 ∧ 7 = Claims.lmNum s 0 (x.blk.p2.toNat + 8 * x.done) 8 ∧ Claims.RowHere s t 7 7 ∧
    x.blk.p0.toNat + x.done * ((t.rowBytes + 7) / 8 * 8) + (t.rowBytes + 7) / 8 * 8 = 2 ^ 21 :=
  ⟨lmW [(0, 7)] (flying [gathCmd] (at' .L)), gathCmd, tab 0 16 0, unit_one rfl (by decide +kernel) (by decide +kernel), rfl, rfl,
    by decide +kernel, by decide +kernel,
    rowHere_of (by decide +kernel) (serves_of (by decide +kernel)) (by decide +kernel) (serves_of (by decide +kernel)), by decide +kernel⟩

theorem witness_TableEngines_walk :
    (∃ (s : State) (x : Cmd), Claims.AtUnit s 0 .L 0 x ∧ x.op = 0xB9 ∧ (x.blk.p3.extractLsb' 0 7).toNat = x.done + 1 ∧
      0xFFFFFFFF = Claims.lmNum s 0 (x.blk.p2.toNat + 4 * x.done) 4) ∧
    (∃ (s : State) (x : Cmd) (a b : Trans), Claims.AtUnit s 0 .L 0 x ∧ x.op = 0xB9 ∧ (x.blk.p3.extractLsb' 0 7).toNat = x.done + 1 ∧
      0 = Claims.lmNum s 0 (x.blk.p2.toNat + 4 * x.done) 4 ∧ translate (s.core 0).partNo x.rng x.blk.p1.toNat 8 .rd = .ok a ∧
      Claims.Serves s a.ia 8 ∧ Claims.homeNum s a.ia 8 % 8 = 0 ∧
      translate (s.core 0).partNo x.rng (Claims.homeNum s a.ia 8) 256 .rd = .ok b ∧ Claims.Serves s b.ia 256 ∧ b.ia = 2 ^ 20) :=
  ⟨⟨lmW [(0, 0xFFFFFFFF)] (flying [walkCmd 0] (at' .L)), walkCmd 0, unit_one rfl (by decide +kernel) (by decide +kernel), rfl,
      by decide +kernel, by decide +kernel⟩,
    ⟨homeW [(8, 2 ^ 20)] (flying [walkCmd 8] (at' .L)), walkCmd 8, tr 8, tr (2 ^ 20), unit_one rfl (by decide +kernel) (by decide +kernel),
      rfl, by decide +kernel, by decide +kernel, trans_of (by decide +kernel), serves_of (by decide +kernel), by decide +kernel,
      trans_of (by decide +kernel), serves_of (by decide +kernel), rfl⟩⟩

theorem elem_zero {row : Nat → Byte} (h : row 0 = 0 ∧ row 1 = 0 ∧ row 2 = 0 ∧ row 3 = 0 ∧ row 4 = 0) :
    Claims.ElemIs 0 1 row 0 (some 0) := by
  obtain ⟨h0, h1, h2, h3, h4⟩ := h
  have e : Claims.exact fmtF16 0 = 0 := by decide +kernel
  simp [Claims.ElemIs, Claims.isFinite, h0, h1, h2, h3, h4, e]
  decide +kernel

theorem elem_nan {row : Nat → Byte} (h : row 1 = 0 ∧ row 2 = 0x7E) : Claims.ElemIs 0 1 row 0 none := by
  simp [Claims.ElemIs, Claims.isFinite, h.1, h.2]
  exact .inl (by decide)

theorem witness_TableEngines_pool :
    (∃ (s : State) (x : Cmd) (t : Table) (b : Bag), Claims.AtUnit s 0 .L 0 x ∧ x.op = 0xB3 ∧ x.table = some (1, t) ∧ t.fmt < 3 ∧
      (bagsOf x.record).length = x.done + 1 ∧ (bagsOf x.record)[x.done]? = some b ∧ b.cnt = 1 ∧
      0 = Claims.lmNum s 0 (b.idx + 8 * 0) 8 ∧ Claims.RowHere s t 0 0 ∧ x.blk.p0.toNat + 8 = 2 ^ 21 ∧
      Claims.ElemIs t.fmt t.elems (fun m => s.homeByte (t.base + 0 * t.stride + m)) 0 (some 0)) ∧
    (∃ (s : State) (x : Cmd) (t : Table), Claims.AtUnit s 0 .L 0 x ∧ x = poolCmd ∧ x.table = some (1, t) ∧
      0 = Claims.lmNum s 0 0 8 ∧ Claims.RowHere s t 0 0 ∧
      Claims.ElemIs t.fmt t.elems (fun m => s.homeByte (t.base + 0 * t.stride + m)) 0 none) := by
  refine ⟨⟨flying [poolCmd] (at' .L), poolCmd, tab 0 1 0, ⟨0, none, 1⟩, unit_one rfl (by decide +kernel) (by decide +kernel), rfl, rfl, by decide,
      by decide +kernel, by decide +kernel, rfl,
      by decide +kernel, rowHere_of (by decide +kernel) (serves_of (by decide +kernel)) (by decide +kernel) (serves_of (by decide +kernel)),
      by decide +kernel, ?_⟩,
    ⟨homeW [(2 ^ 20, 0x7E0000)] (flying [poolCmd] (at' .L)), poolCmd, tab 0 1 0, unit_one rfl (by decide +kernel) (by decide +kernel), rfl, rfl,
      by decide +kernel, rowHere_of (by decide +kernel) (serves_of (by decide +kernel)) (by decide +kernel) (serves_of (by decide +kernel)), ?_⟩⟩
  · exact elem_zero (by decide +kernel)
  · exact elem_nan (by decide +kernel)

theorem witness_TableEngines_buck : ∃ (s : State) (x : Cmd) (t : Table), Claims.AtUnit s 0 .S 0 x ∧ x.op = 0xB6 ∧ x.table = some (1, t) ∧
    x.done = 0 ∧ x.blk.p2.toNat = 1 ∧ (x.blk.p3.extractLsb' 12 16).toNat = 16 ∧ t.shard ≠ 2 ∧
    Claims.ShardOf s t (Claims.lmNum s 0 (x.blk.p1.toNat + 0 * 16) 8) 0 0 ∧ 0 < t.rows ∧
    x.blk.p0.toNat + (4 * t.shcnt + 7) / 8 * 8 + 1 * 16 = 2 ^ 21 :=
  ⟨flying [buckCmd] (at' .S), buckCmd, tab 0 16 0, unit_one rfl (by decide +kernel) (by decide +kernel), rfl, rfl, rfl, by decide +kernel,
    by decide +kernel, by decide, ⟨by decide, fun _ => ⟨rfl, by decide +kernel⟩, fun h => absurd h (by decide), by decide, fun h => absurd h (by decide)⟩,
    by decide, by decide +kernel⟩

theorem witness_TableEngines_supd : ∀ opt, opt = 0 ∨ opt = 1 ∨ opt = 2 → ∃ (s : State) (x : Cmd) (t : Table) (w' st' : Nat → Nat),
    Claims.Runs s 0 .S 0 x ∧ x.op = 0xB5 ∧ x.table = some (1, t) ∧ t.fmt = 3 ∧ t.opt = opt ∧ x.held = [(0, zeros 24)] ∧ x.peeked = [] ∧
    x.pend = [] ∧ s.hm.bad = [] ∧ (∀ e ∈ s.hm.ptes, pteCmp e.2 = false) ∧ s.hm.out = 0 ∧ x.blk.p1.toNat = 1 ∧
    (zeros 24).length = 1 * ((16 + 4 * t.elems + 7) / 8 * 8) ∧
    ((List.range 1).map fun _ => leNat ((zeros 24).take 8)).eraseDups.length = x.done + 1 ∧ Claims.RowHere s t 0 0 ∧
    Claims.Serves s t.optBase (4 * t.elems) ∧
    Claims.MayWrite s (Claims.wordsAt t.base t.elems w' ++ (if t.opt = 1 then Claims.wordsAt (t.base + 4 * t.elems) 1 st'
      else if t.opt = 2 then Claims.wordsAt t.optBase t.elems st' else [])) ∧
    Claims.StepIs t.opt t.elems 0 0 (fun _ => 0) (fun _ => 0) (fun _ => 0) w' st' := by
  rintro opt (rfl | rfl | rfl)
  · refine ⟨flying [supdCmd 0] (at' .S), supdCmd 0, tab 3 1 0, fun _ => newRow 0 0 0 (newState 0), fun _ => newState 0,
      runs_one rfl (by decide +kernel), rfl, rfl, rfl, rfl, rfl, rfl, rfl, rfl, by decide +kernel, rfl, by decide +kernel, by decide +kernel,
      by decide +kernel, rowHere_of (by decide +kernel) (serves_of (by decide +kernel)) (by decide +kernel) (serves_of (by decide +kernel)),
      serves_of (by decide +kernel), writes_of (by decide +kernel), ?_, ?_, ?_⟩ <;> intro h <;>
      first | exact absurd h (by decide) | decide +kernel
  · refine ⟨flying [supdCmd 1] (at' .S), supdCmd 1, tab 3 1 1, fun _ => newRow 1 0 0 (newState 1), fun _ => newState 1,
      runs_one rfl (by decide +kernel), rfl, rfl, rfl, rfl, rfl, rfl, rfl, rfl, by decide +kernel, rfl, by decide +kernel, by decide +kernel,
      by decide +kernel, rowHere_of (by decide +kernel) (serves_of (by decide +kernel)) (by decide +kernel) (serves_of (by decide +kernel)),
      serves_of (by decide +kernel), writes_of (by decide +kernel), ?_, ?_, ?_⟩ <;> intro h <;>
      first | exact absurd h (by decide) | decide +kernel
  · refine ⟨flying [supdCmd 2] (at' .S), supdCmd 2, tab 3 1 2, fun _ => newRow 2 0 0 (newState 2), fun _ => newState 2,
      runs_one rfl (by decide +kernel), rfl, rfl, rfl, rfl, rfl, rfl, rfl, rfl, by decide +kernel, rfl, by decide +kernel, by decide +kernel,
      by decide +kernel, rowHere_of (by decide +kernel) (serves_of (by decide +kernel)) (by decide +kernel) (serves_of (by decide +kernel)),
      serves_of (by decide +kernel), writes_of (by decide +kernel), ?_, ?_, ?_⟩ <;> intro h <;>
      first | exact absurd h (by decide) | decide +kernel

theorem witness_TableEngines_cpyx : ∃ (s : State) (x : Cmd), Claims.AtUnit s 0 .S 0 x ∧ x.op = 0xB1 ∧ Blk.lm x.blk 0 = true ∧
    Blk.lm x.blk 1 = true ∧ x.ias = [2 ^ 21 - 1, 0] ∧ 0 < x.shape.esz ∧ [0].length = x.shape.dims.length ∧
    (∀ d ∈ x.shape.dims.zip [0], d.2 < d.1.1) ∧ x.done = Claims.placeOf x.shape.dims [0] ∧
    (x.shape.dims.map (·.1)).foldl (· * ·) 1 = x.done + 1 ∧ Claims.offsetOf (fun d => d.2.2) x.shape.dims [0] = 0 ∧
    2 ^ 21 - 1 + x.shape.esz = 2 ^ 21 :=
  ⟨flying [elemCmd] (at' .S), elemCmd, unit_one rfl (by decide +kernel) (by decide +kernel), rfl, by decide +kernel, by decide +kernel, rfl,
    by decide +kernel, by decide +kernel, by decide +kernel, by decide +kernel, by decide +kernel, by decide +kernel, by decide +kernel⟩

/-- A decoded block with a property. -/
def codedB (s : State) (x : Cmd) (P : CodedHeader → List Byte → Bool) : Bool :=
  match s.codedAt 0 x with | .ok r => P r.1 r.2.1 | .error _ => false

theorem coded_of {s : State} {x : Cmd} {P : CodedHeader → List Byte → Bool} (h : codedB s x P = true) :
    ∃ (h : CodedHeader) (p : List Byte) (v : State), s.codedAt 0 x = .ok (h, p, v) ∧ P h p = true := by
  unfold codedB at h
  generalize s.codedAt 0 x = e at h
  match e, h with
  | .ok (a, b, v), h => exact ⟨a, b, v, rfl, h⟩

theorem witness_TableEngines_decmp :
    (∀ st, st = 0 ∨ st = 5 → ∃ s : State, Claims.AtUnit s 0 .L 0 (decmpAt 0 1) ∧ (decmpAt 0 1).blk.p2.toNat = (decmpAt 0 1).done + 1 ∧
      ∃ h p v, s.codedAt 0 (decmpAt 0 1) = .ok (h, p, v) ∧ decide (h.outLen ≤ 8 ∧ decodeInto h p = ([1, 2, 3, 4], st)) = true) ∧
    (∃ s : State, Claims.AtUnit s 0 .L 0 (decmpAt 0 1) ∧
      ∃ h p v, s.codedAt 0 (decmpAt 0 1) = .ok (h, p, v) ∧ decide (8 * 1 < h.outLen) = true) ∧
    (∃ (h : CodedHeader) (p : List Byte), h.code = 0 ∧ p = [0] ∧ h.outLen = 1) ∧
    (∃ (h : CodedHeader) (p : List Byte) (ts : List Nat) (rest : List Bool), h.code = 1 ∧ (∀ t ∈ ts, t = 0 ∨ t = 1 ∨ t = 3) ∧
      ts.length = 4 * h.outLen ∧ (p.flatMap fun b => (List.range 8).map fun k => b.getLsbD k) =
        (ts.flatMap fun t => if t = 0 then [false] else [true, t == 3]) ++ rest ∧ rest.length = 2) := by
  refine ⟨?_, ⟨homeW [(0, 0x90000D3C0), (8, 9)] (block 0), unit_one rfl (by decide +kernel) (by decide +kernel), coded_of (by decide +kernel)⟩,
    ⟨⟨0, 1, 1, 0⟩, [0], rfl, rfl, rfl⟩, ⟨⟨1, 1, 1, 0⟩, [49], [1, 0, 0, 3], [false, false], rfl, by decide, rfl, by decide +kernel, rfl⟩⟩
  rintro st (rfl | rfl)
  · exact ⟨block 691047668, unit_one rfl (by decide +kernel) (by decide +kernel), by decide +kernel, coded_of (by decide +kernel)⟩
  · exact ⟨block 0, unit_one rfl (by decide +kernel) (by decide +kernel), by decide +kernel, coded_of (by decide +kernel)⟩

theorem witness_TableEngines_ends :
    (∃ (s : State) (x : Cmd) (t : Table), Claims.AtUnit s 0 .L 0 x ∧ x.op = 0xB2 ∧ x.table = some (1, t) ∧ x.done < x.blk.p3.toNat ∧
      8 = Claims.lmNum s 0 (x.blk.p2.toNat + 8 * x.done) 8 ∧ Claims.ShardOf s t 8 0 8 ∧ Claims.Serves s t.owner (2 * t.shcnt) ∧
      t.shard = 0 ∧ t.rows = 8) ∧
    (∃ (s : State) (x : Cmd) (t : Table), Claims.AtUnit s 0 .L 0 x ∧ x.op = 0xB2 ∧ x.table = some (1, t) ∧ x.done < x.blk.p3.toNat ∧
      7 = Claims.lmNum s 0 (x.blk.p2.toNat + 8 * x.done) 8 ∧ Claims.ShardOf s t 7 0 7 ∧ Claims.Serves s t.owner (2 * t.shcnt) ∧
      Claims.homeNum s (t.owner + 2 * 0) 2 ≠ s.fab.pkg.toNat ∧ 7 < t.rows) ∧
    (∃ (s : State) (x : Cmd) (t : Table), Claims.AtUnit s 0 .L 0 x ∧ x.op = 0xB3 ∧ x.table = some (1, t) ∧ t.fmt = 3 ∧
      Claims.ShardOf s t 0 0 0 ∧ Claims.Serves s t.owner (2 * t.shcnt)) ∧
    (∃ (s : State) (x : Cmd) (t : Table), Claims.AtUnit s 0 .S 0 x ∧ x.op = 0xB5 ∧ x.table = some (1, t) ∧ t.fmt ≠ 3 ∧
      Claims.ShardOf s t 0 0 0 ∧ Claims.Serves s t.owner (2 * t.shcnt)) := by
  have shard (s : State) (f r : Nat) : Claims.ShardOf s (tab f 16 0) r 0 r :=
    ⟨Nat.one_pos, fun _ => ⟨rfl, rfl⟩, fun h => absurd h.symm Nat.one_ne_zero, Nat.zero_le 2, fun h => absurd h.symm (Nat.succ_ne_zero 1)⟩
  exact ⟨⟨lmW [(0, 8)] (flying [gathCmd] (at' .L)), gathCmd, tab 0 16 0, unit_one rfl (by decide +kernel) (by decide +kernel), rfl, rfl,
      by decide +kernel, by decide +kernel, shard _ _ _, serves_of (by decide +kernel), rfl, rfl⟩,
    ⟨homeW [(2 ^ 21, 1)] (lmW [(0, 7)] (flying [gathCmd] (at' .L))), gathCmd, tab 0 16 0, unit_one rfl (by decide +kernel) (by decide +kernel),
      rfl, rfl, by decide +kernel, by decide +kernel, shard _ _ _, serves_of (by decide +kernel), by decide +kernel, by decide⟩,
    ⟨flying [tcmd 0xB3 ⟨0, 1, 0, 0⟩ (tab 3 16 0)] (at' .L), _, tab 3 16 0, unit_one rfl (by decide +kernel) (by decide +kernel), rfl, rfl, rfl,
      shard _ _ _, serves_of (by decide +kernel)⟩,
    ⟨flying [tcmd 0xB5 ⟨0, 1, 0, 0⟩ (tab 0 16 0)] (at' .S), _, tab 0 16 0, unit_one rfl (by decide +kernel) (by decide +kernel), rfl, rfl,
      by decide, shard _ _ _, serves_of (by decide +kernel)⟩⟩

/-! ### Witnesses: tasks and the supervisor -/

/-- Partition 0 with a device queue of 16 slots, a charge limit for watches, and slot 2 in use with a serial. -/
def tasked (cards : Nat) (use : SlotUse) (s : State) : State :=
  s.setPart 0 { s.part 0 with
    devqs := [⟨4, List.replicate cards (5 * 2 ^ 13 + 2, Vector.replicate 16 0, Vector.replicate 16 0), 0, 0, 0⟩]
    quotas := Vector.replicate 6 100
    slots := [(1, ⟨0, .live⟩), (2, ⟨5, use⟩)] }

/-- C with a device queue; a free slot 3 is found by search. -/
def tsk (n : Nat) : State := op n (tasked 0 .live (at' .C))

/-- LAUNCH can read an image at an address and queue its card. -/
def launches (s u : State) (x : Nat) (fault : Bool) : Bool :=
  match s.readRecord u x 128 128 with
  | .ok r => ((r.2.cardFault s.here.partNo (CardImg.ofBytes r.1)).isSome == fault) && (r.2.newHandle s.here.partNo).isSome
  | .error _ => false

theorem launches_of {s u : State} {x : Nat} (h : launches s u x false = true) :
    ∃ bs v, s.readRecord u x 128 128 = .ok (bs, v) ∧ v.cardFault s.here.partNo (CardImg.ofBytes bs) = none ∧
      (v.newHandle s.here.partNo).isSome = true := by
  unfold launches at h
  cases e : s.readRecord u x 128 128 with
  | error _ => simp [e] at h
  | ok r => simp only [e, Bool.and_eq_true, beq_iff_eq] at h; exact ⟨r.1, r.2, rfl, by simpa using h.1, h.2⟩

theorem refused_of {s u : State} {x : Nat} (h : launches s u x true = true) :
    ∃ bs v, s.readRecord u x 128 128 = .ok (bs, v) ∧ v.cardFault s.here.partNo (CardImg.ofBytes bs) ≠ none := by
  unfold launches at h
  cases e : s.readRecord u x 128 128 with
  | error _ => simp [e] at h
  | ok r => simp only [e, Bool.and_eq_true, beq_iff_eq] at h; exact ⟨r.1, r.2, rfl, by intro k; simp [k] at h⟩

/-- GRAPH can read its object, and no bound is reached. -/
def graphs (s u : State) (x : Nat) : Bool :=
  match s.readGraph u x none with
  | .ok r => !r.2.replaysFull s.here.partNo r.1.object && (r.2.newHandle s.here.partNo).isSome
  | .error _ => false

theorem graphs_of {s u : State} {x : Nat} (h : graphs s u x = true) :
    ∃ r v, s.readGraph u x none = .ok (r, v) ∧ v.replaysFull s.here.partNo r.object = false ∧ (v.newHandle s.here.partNo).isSome = true := by
  unfold graphs at h
  cases e : s.readGraph u x none with
  | error _ => simp [e] at h
  | ok r => simp only [e, Bool.and_eq_true, Bool.not_eq_true'] at h; exact ⟨r.1, r.2, rfl, h.1, h.2⟩

/-- A graph object of one bare card at VA 0 (R275). -/
def object (s : State) : State := code [0x00000001_6AF00001] s

theorem released_of {s : State} (h : (s.me.loads.isEmpty && s.me.atoms.isEmpty && s.coveredAt s.cur.core s.cur.sq .dev) = true) :
    Claims.Released s := by
  simp only [Bool.and_eq_true, List.isEmpty_iff] at h
  exact ⟨by simp [h.1.1], h.1.2, h.2⟩

theorem witness_CardInstructions :
    (∃ (s u : State) (a : SReg) (x : Word), s.cur.sq = .C ∧ s.readS a = .ok (x, u) ∧ Claims.Released s ∧ s.c.taken = none ∧
      ∃ bs v, s.readRecord u x.toNat 128 128 = .ok (bs, v) ∧ v.cardFault s.here.partNo (CardImg.ofBytes bs) = none ∧
        (v.newHandle s.here.partNo).isSome = true) ∧
    (∃ k, ((tsk 0x50).part 0).devqs[0]? = some k ∧ k.cards.length < 2 ^ k.sizeLog) ∧ ((tsk 0x50).part 0).devqs[1]? = none ∧
    (∃ (s u : State) (x : Word), s.readS (.g 1) = .ok (x, u) ∧ ∃ bs v, s.readRecord u x.toNat 128 128 = .ok (bs, v) ∧
      v.cardFault s.here.partNo (CardImg.ofBytes bs) ≠ none) ∧
    (∃ (s : State) (i : CardImg) (k : DevQueue), s.c.taken = some (.image i) ∧ (s.part 0).devqs[0]? = some k ∧ 2 ^ k.sizeLog ≤ k.cards.length) ∧
    (∃ (s u : State) (x : Word), s.readS (.g 1) = .ok (x, u) ∧ Claims.Released s ∧ s.c.taken = none ∧
      ∃ r v, s.readGraph u x.toNat none = .ok (r, v) ∧ v.replaysFull s.here.partNo r.object = false ∧
        (v.newHandle s.here.partNo).isSome = true) ∧
    (Claims.HandleLive (tsk 0) (5 * 2 ^ 13 + 2) ∧ Claims.HandleOver (tsk 0) (4 * 2 ^ 13 + 2) ∧
      Claims.HandleOver (tasked 0 .completed (at' .C)) (5 * 2 ^ 13 + 2) ∧
      ¬Claims.HandleLive (tsk 0) (6 * 2 ^ 13 + 2) ∧ ¬Claims.HandleOver (tsk 0) (6 * 2 ^ 13 + 2) ∧
      ¬Claims.HandleLive (tsk 0) 1 ∧ (tsk 0).here.card.setWidth 64 = 1) := by
  refine ⟨⟨tsk 0x50, _, .g 1, _, rfl, rfl, released_of (by decide +kernel), rfl, launches_of (by decide +kernel)⟩, ⟨_, rfl, by decide +kernel⟩, rfl,
    ⟨code [1] (tsk 0x50), _, _, rfl, refused_of (by decide +kernel)⟩,
    ⟨cst (fun c => { c with taken := some (.image (Vector.replicate 16 0)) }) (tasked 16 .live (at' .C)), _, _, rfl, rfl, by decide +kernel⟩,
    ⟨object (tsk 0x51), _, _, rfl, released_of (by decide +kernel), rfl, graphs_of (by decide +kernel)⟩, ?_⟩
  refine ⟨?_, ?_, ?_, ?_, ?_, ?_, rfl⟩ <;> (first | unfold Claims.HandleLive | unfold Claims.HandleOver) <;> decide +kernel

/-- A watch descriptor at VA 0 (R278): 8 bytes at IA 0 of partition 0, changes, chain limit 1, template at VA 128. -/
def warmed (tmpl : Nat) (s : State) : State := code [0, 8 + 2 * 2 ^ 32 + 2 ^ 48, 0, tmpl] s

/-- WARM reads its descriptor and its template. -/
def warms (s : State) : Bool :=
  match s.markFull .dev with
  | .ok v =>
    match s.readRecord v 0 64 64 with
    | .ok r =>
      let tmpl := leNat ((r.1.drop 0x18).take 8)
      watchOk s.here.partNo r.1 && iaPart (leNat (r.1.take 8) % 2 ^ 52) == s.here.partNo && iaPart (tmpl % 2 ^ 52) == s.here.partNo &&
        hasHome tmpl &&
        match s.readPieces r.2 (.home tmpl 1) tmpl 4 128 with
        | .ok (ts, y) =>
          let img := CardImg.ofBytes ts
          (y.cardFault s.here.partNo img).isNone && scopeFits (leNat ((r.1.drop 0x0C).take 1)) img &&
            decide (vget (y.part s.here.partNo).charges 4 0 < vget (y.part s.here.partNo).quotas 4 0) && (y.watch? 0).isNone
        | .error _ => false
    | .error _ => false
  | .error _ => false

/-- A watch of partition 0 with a pending record, and one with none. -/
def watch : Watch :=
  ⟨0, true, 0, 8, .core, 0, 1, false, 0, Vector.replicate 3 0, Vector.replicate 16 0, Vector.replicate 16 0, 1, 0, false⟩

def watched (s : State) : State :=
  { s with sch := { s.sch with
    watches := [(5, watch), (4095, watch)], records := [(0, ⟨5, 0, 1, 2, 1, 0, 0, none⟩)]
    pqs := (s.sch.pqs.set 0 ⟨some 0, [7, 3]⟩).set 1 ⟨some 0, []⟩ } }

theorem rec_of {s : State} (h : (match s.markFull .dev with
    | .ok v => match s.readRecord v 0 64 64 with | .ok r => !watchOk s.here.partNo r.1 && iaPart (leNat (r.1.take 8) % 2 ^ 52) != s.here.partNo | .error _ => false
    | .error _ => false) = true) :
    ∃ (s v w : State) (bs : List Byte), s.markFull .dev = .ok v ∧ s.readRecord v 0 64 64 = .ok (bs, w) ∧ watchOk s.here.partNo bs = false ∧
      iaPart (leNat (bs.take 8) % 2 ^ 52) ≠ s.here.partNo := by
  cases e : s.markFull .dev with
  | error _ => simp [e] at h
  | ok v =>
    cases f : s.readRecord v 0 64 64 with
    | error _ => simp [e, f] at h
    | ok r =>
      simp only [e, f, Bool.and_eq_true, Bool.not_eq_true', bne_iff_ne] at h
      exact ⟨s, v, r.2, r.1, e, f, h.1, h.2⟩

theorem witness_WatchesAndQueues :
    warms (warmed 128 (tsk 0x56)) = true ∧
    (∃ (s v w : State) (bs : List Byte), s.markFull .dev = .ok v ∧ s.readRecord v 0 64 64 = .ok (bs, w) ∧ watchOk s.here.partNo bs = false ∧
      iaPart (leNat (bs.take 8) % 2 ^ 52) ≠ s.here.partNo) ∧
    (∃ (s u : State) (a : SReg) (x : Word) (e : Watch), s.cur.sq = .C ∧ s.readS a = .ok (x, u) ∧ x.toNat = 4095 ∧ s.watch? x.toNat = some e ∧
      e.part = s.here.partNo) ∧
    ((watched (at' .C)).watch? 6 = none ∧ 4095 < (4096 : Word).toNat) ∧
    (∃ (s u v : State) (a b : SReg) (x y : Word), s.cur.sq = .C ∧ s.readS a = .ok (x, u) ∧ u.readS b = .ok (y, v) ∧ y.toNat ≤ 4095 ∧
      (s.recordsOf y.toNat).head?.isSome = true ∧ (x + (0 : BitVec 19).signExtend 64).toNat + 40 < 2 ^ 64 ∧ v.me.stCount < 14 ∧ v.me.atoms = [] ∧
      Claims.Sound v ∧ ∀ i < 5, Claims.Reaches v .store ((x + (0 : BitVec 19).signExtend 64).toNat + 8 * i) 8 (tr (8 * i))) ∧
    (∃ (s u : State) (a : SReg) (x : Word), s.cur.sq = .C ∧ s.readS a = .ok (x, u) ∧ (s.sch.pqs[0]).owner = some s.here.partNo ∧
      x ≠ BitVec.allOnes 64 ∧ (s.sch.pqs[0]).entries.length < 8192 ∧ Claims.Released s ∧ (s.sch.pqs[0]).entries ≠ [] ∧
      (s.sch.pqs[1]).owner = some s.here.partNo ∧ (s.sch.pqs[1]).entries = [] ∧ (s.sch.pqs[2]).owner ≠ some s.here.partNo) ∧
    (∃ (s u : State) (a : SReg) (x : Word), s.cur.sq = .C ∧ s.readS a = .ok (x, u) ∧ x.toNat % 8 = 0) ∧
    (∃ (s u : State) (a : SReg) (x : Word), s.cur.sq = .C ∧ s.readS a = .ok (x, u) ∧ x.toNat % 8 ≠ 0) := by
  refine ⟨by decide +kernel, rec_of (s := code [2 ^ 51] (at' .C)) (by decide +kernel),
    ⟨regs [(1, 4095)] (watched (at' .C)), _, .g 1, _, watch, rfl, rfl, by decide +kernel, by decide +kernel, by decide +kernel⟩,
    ⟨by decide +kernel, by decide⟩,
    ⟨regs [(2, 5)] (watched (at' .C)), _, _, .g 1, .g 2, _, _, rfl, rfl, rfl, by decide +kernel, by decide +kernel, by decide +kernel,
      by decide +kernel, rfl, sound_of (by decide +kernel), ?_⟩,
    ⟨watched (at' .C), _, .g 1, _, rfl, rfl, by decide +kernel, by decide +kernel, by decide +kernel, released_of (by decide +kernel),
      by decide +kernel, by decide +kernel, by decide +kernel, by decide +kernel⟩,
    ⟨at' .C, _, .g 1, _, rfl, rfl, by decide +kernel⟩, ⟨regs [(1, 4)] (at' .C), _, .g 1, _, rfl, rfl, by decide +kernel⟩⟩
  have h : ∀ i < 5, ((regs [(2, 5)] (watched (at' .C))).me.rd 1 + (0 : BitVec 19).signExtend 64).toNat + 8 * i = 8 * i ∧
      (decide ((8 * i) % 8 = 0) && (match translate (regs [(2, 5)] (watched (at' .C))).here.partNo (regs [(2, 5)] (watched (at' .C))).me.rng (8 * i) 8 .wr with
        | .ok u => decide (u = tr (8 * i)) | .error _ => false) && decide (iaTier (8 * i) ≤ 4) && !(regs [(2, 5)] (watched (at' .C))).homeDown (8 * i) && !(regs [(2, 5)] (watched (at' .C))).isStepped (8 * i)
        && good ((regs [(2, 5)] (watched (at' .C))).confirmAll true (8 * i) 8)) = true := by decide +kernel
  intro i hi
  exact (h i hi).1.symm ▸ reach_of (h i hi).2

/-- Core 0 with a state of its own. -/
def core0 (f : Core → Core) (s : State) : State := s.setCore 0 (f (s.core 0))

theorem witness_TrapsAndReturn_fault : ∃ s : State, (s.seq 0 .C).ldCount = 0 ∧ (s.core 0).c.sup = true ∧ (s.core 0).partNo = 0 ∧
    (∀ id, (s.core id).pendGrans = [] ∧ ∀ q, (s.seq id q).stores = []) ∧ (s.core 0).part = some 0 ∧ (s.core 1).part ≠ some 0 ∧
    ∀ e ∈ s.sch.cards, e.1 = 0 → 1 ∉ e.2.cores := by
  refine ⟨cst (fun c => { c with sup := true }) (at' .C), by decide +kernel, rfl, rfl, fun id => ?_, rfl, by decide +kernel, by decide +kernel⟩
  have h : ∀ id : CoreId, (((cst (fun c => { c with sup := true }) (at' .C)).core id).pendGrans.isEmpty && allSeqs.all fun q =>
      ((cst (fun c => { c with sup := true }) (at' .C)).seq id q).stores.isEmpty) = true := by decide +kernel
  have h := h id
  simp only [Bool.and_eq_true, List.isEmpty_iff, List.all_eq_true] at h
  exact ⟨h.1, fun q => h.2 q (by cases q <;> decide)⟩

theorem witness_TrapsAndReturn :
    ((at' .X).seq 0 .X).ldCount = 0 ∧ ¬(SeqId.X = .C ∧ ((at' .X).core 0).c.sup = true) ∧
    ((loading (.lm 0 8) none (at' .X)).seq 0 .X).ldCount ≠ 0 ∧
    (let s := (at' .C).setMe { (at' .C).me with trapPend := true }
     (s.core 0).c.sup = false ∧ (s.core 0).c.stand = false ∧ (s.core 0).c.stpW = none ∧ (s.core 0).c.flgW = false ∧
       (s.core 0).c.barMet = false ∧ (s.seq 0 .C).ldCount = 0 ∧ (s.seq 0 .C).trapPend = true) ∧
    (let s := (at' .X).setMe { (at' .X).me with trapPend := true }
     (s.seq 0 .X).trapPend = true ∧ (∀ q : SeqId, q.idx.val < SeqId.X.idx.val → (s.seq 0 q).trapPend = false) ∧ (s.core 0).c.async = []) ∧
    (let s := cst (fun c => { c with async := [⟨0x0B, 0, 0⟩] }) (at' .C)
     (s.core 0).c.async ≠ [] ∧ ∀ q, (s.seq 0 q).trapPend = false) ∧
    ((cst (fun c => { c with sup := true }) (at' .C)).cur.sq = .C ∧ (cst (fun c => { c with sup := true }) (at' .C)).c.sup = true ∧
      (cst (fun c => { c with sup := true }) (at' .C)).me.ldCount = 0) ∧
    (let s := cst (fun c => { c with uevEn := true, uevq := [(1, 2)] }) (at' .C)
     (s.core 0).c.uevEn = true ∧ (s.core 0).c.uevIn = false ∧ (s.core 0).c.sup = false ∧ (s.core 0).c.stand = false ∧
       (s.core 0).c.stpW = none ∧ (s.core 0).c.flgW = false ∧ (s.core 0).c.held = false ∧ (s.core 0).c.barMet = false ∧
       (s.seq 0 .C).done = false ∧ (s.seq 0 .C).trapPend = false ∧
       (s.core 0).card ≠ 0 ∧ (s.seq 0 .C).ldCount = 0 ∧ (s.core 0).c.async = [] ∧ (s.core 0).c.uevq = (1, 2) :: []) := by
  refine ⟨?_, ?_, ?_, ⟨?_, ?_, ?_, ?_, ?_, ?_, ?_⟩, ⟨?_, ?_, ?_⟩, ⟨?_, ?_⟩, ⟨?_, ?_, ?_⟩, ?_, ?_, ?_, ?_, ?_, ?_, ?_, ?_, ?_, ?_, ?_, ?_, ?_, ?_⟩
  all_goals first | decide +kernel | (intro q; cases q <;> decide +kernel)

/-- C in its supervisor handler, with L running. -/
def super (s : State) : State := cst (fun c => { c with sup := true }) s
def withL (s : State) : State := core0 (fun k => k.setSeq .L bareSeq) s

/-- An event that waits for the supervisor. -/
def supEvent (s : State) : State := s.setPart 0 { s.part 0 with supq := [⟨0, 0, 1, 0, 0, 0, 0, 0⟩] }

/-- A second card, with handle 1 of slot 1 serial 5, in a phase. -/
def second (ph : CardPhase) (s : State) : State :=
  { s with sch := { s.sch with cards := s.sch.cards ++ [(0, { bareCard (5 * 2 ^ 13 + 2) with phase := ph, oy := 1 })] } }

theorem stored_of {s u : State} {x : Nat} (h : (match (s.part s.here.partNo).supq with
    | e :: _ => good (s.storeNow u x 32 e.bytes)
    | [] => false) = true) : ∃ e rest w, (s.part s.here.partNo).supq = e :: rest ∧ s.storeNow u x 32 e.bytes = .ok w := by
  cases e : (s.part s.here.partNo).supq with
  | nil => simp [e] at h
  | cons a r =>
    cases f : s.storeNow u x 32 a.bytes with
    | error _ => simp [e, f, good] at h
    | ok w => exact ⟨a, r, w, rfl, f⟩

theorem witness_SystemInstructions :
    (at' .L).cur.sq ≠ .C ∧ ((at' .C).cur.sq = .C ∧ (at' .C).c.sup = false) ∧
    (∃ (s u : State) (a : SReg) (x : Word), s.cur.sq = .C ∧ s.c.sup = true ∧ s.readS a = .ok (x, u) ∧
      (x + (0x4000 : BitVec 19).setWidth 64).toNat = 0x4000 ∧ Claims.SysVal s 0x4000 s.here.tvec) ∧
    (∀ (v : Word), ¬Claims.SysVal (super (at' .C)) 0x4006 v) ∧
    (Claims.Stands (super (withL (at' .C))).here .C ∧ Claims.Stands (super (withL (at' .C))).here .X ∧
      ¬Claims.Stands (super (withL (at' .C))).here .L) ∧ (∀ i : Fin 4, (super (at' .C)).me.loops[i.val].rot = false) ∧
    ((super (supEvent (at' .C))).part 0).supq ≠ [] ∧
    (¬((super (at' .C)).here.trapWaits = true ∨ ((super (at' .C)).part (super (at' .C)).here.partNo).supq ≠ [])) ∧
    (∃ (s u : State) (a : SReg) (x : Word) (t : Trans), s.cur.sq = .C ∧ s.c.sup = true ∧ s.readS a = .ok (x, u) ∧ x.toNat % 32 = 0 ∧
      translate s.here.partNo s.me.rng x.toNat 32 .wr = .ok t ∧ iaTier t.ia ≤ 4 ∧ (s.part s.here.partNo).supq = []) ∧
    (∃ (s u : State) (a : SReg) (x : Word), s.cur.sq = .C ∧ s.c.sup = true ∧ s.readS a = .ok (x, u) ∧
      ∃ e rest w, (s.part s.here.partNo).supq = e :: rest ∧ s.storeNow u x.toNat 32 e.bytes = .ok w) ∧
    (∃ (s : State) (c : Card), Claims.HandleLive s (5 * 2 ^ 13 + 2) ∧ s.card? 0 (5 * 2 ^ 13 + 2) = some c ∧ c.phase = .running) ∧
    (∃ (s : State) (c : Card), Claims.HandleLive s (5 * 2 ^ 13 + 2) ∧ s.card? 0 (5 * 2 ^ 13 + 2) = some c ∧ c.phase ≠ .running) ∧
    ((super (at' .C)).here.maySave = true ∧ (core0 (fun k => k.setSeq .S { bareSeq with loads := [⟨0, [], none⟩] }) (super (at' .C))).here.maySave = false ∧
      ∃ k, (super (at' .C)).cardOn 0 = some k) := by
  refine ⟨by decide, ⟨rfl, rfl⟩, ⟨super (at' .C), _, .g 1, _, rfl, rfl, rfl, by decide +kernel, ?_⟩, ?_, ⟨Or.inl rfl, ?_, ?_⟩, by decide +kernel, by decide +kernel,
    by decide +kernel, ⟨super (at' .C), _, .g 1, _, tr 0, rfl, rfl, rfl, by decide +kernel, trans_of (by decide +kernel), by decide, by decide +kernel⟩,
    ⟨super (supEvent (at' .C)), _, .g 1, _, rfl, rfl, rfl, stored_of (by decide +kernel)⟩,
    ⟨second .running (super (tsk 0)), _, ?_, rfl, rfl⟩, ⟨second .waiting (super (tsk 0)), _, ?_, rfl, by decide⟩,
    by decide +kernel, by decide +kernel, _, rfl⟩
  · simp [Claims.SysVal]
  · intro v h
    simp only [Claims.SysVal] at h
    obtain ⟨q, n, h, -⟩ | ⟨q, i, j, h, -⟩ | ⟨q, h⟩ | ⟨q, i, h⟩ | ⟨q, h⟩ | h | h | h | h | h | h | ⟨i, h, -⟩ := h <;>
      first | omega | (cases q <;> simp [SeqId.idx] at h <;> omega)
  · unfold Claims.Stands; decide +kernel
  · unfold Claims.Stands; decide +kernel
  · unfold Claims.HandleLive; decide +kernel
  · unfold Claims.HandleLive; decide +kernel

/-! ### Witnesses: scheduler, steps and fabric, arrays -/

/-- Partition 0 on cluster 0 with one card, whose handle lies in slot 2, and core 0 without a card. -/
def sched (c : Card) (s : State) : State :=
  let s := core0 (fun k => { k with card := if c.phase == .running then c.handle else 0 }) s
  { s with sch := { s.sch with cards := [(0, c)] } }

def aCard (ph : CardPhase) : Card := { bareCard (5 * 2 ^ 13 + 2) with phase := ph }

/-- Every sequencer of core 0 is done. -/
def idle (s : State) : State := core0 (fun k => k.setSeq .C { k.seq .C with done := true }) s

theorem place_of {s : State} {p : Fin 32} {l : List (Card × Nat)} {c : Card}
    (h : (match s.pick p l with | .place d => decide (d = c) | _ => false) = true) : s.pick p l = .place c := by
  cases e : s.pick p l <;> simp_all

/-- Function 1 bound to partition 0, with a card queue at IA 0. -/
def bound (s : State) : State :=
  { s with hst := { s.hst with vfs := [(1, { s.vf 1 with part := some 0, qlog := 4, qtail := 1, rng := (Vector.replicate 16 0).set 0 bareRange })] } }

/-- A replay of one card, held. -/
def replay (held : Bool) : Replay :=
  ⟨9 * 2 ^ 13 + 3, 0, [Vector.replicate 16 0], 0, false, 0, 0, 0, none, held, Vector.replicate 16 0, [], [], 1⟩

theorem slot_of {s : State} {a : Nat} {p : Fin 32} (h : (match s.readSlot a with
    | some (.ok r) => (r.2.cardFault p r.1).isNone && (r.2.newHandle p).isSome | _ => false) = true) :
    ∃ i t h u, s.readSlot a = some (.ok (i, t)) ∧ t.cardFault p i = none ∧ t.newHandle p = some (h, u) := by
  split at h
  · rename_i r e
    simp only [Bool.and_eq_true, Option.isNone_iff_eq_none, Option.isSome_iff_exists] at h
    obtain ⟨h1, x, h2⟩ := h
    exact ⟨r.1, r.2, x.1, x.2, e, h1, h2⟩
  · simp at h

theorem hit_of {ε α : Type} {e : Except ε α} (h : good e = true) : ∃ k, e = .ok k := by
  cases e <;> simp_all [good]

/-- A card with reserved bits in its image at the head of a queue (R29). -/
def badQueue (s : State) : State :=
  let s := tasked 1 .live s
  s.setPart 0 { s.part 0 with devqs := [⟨4, [(5 * 2 ^ 13 + 2, Vector.replicate 16 1, Vector.replicate 16 0)], 0, 0, 0⟩] }

theorem witness_SchedulerEvents :
    (∃ (s : State) (d : DevQueue) (h : Handle) (i : CardImg) (r : RangeSet), (s.part 0).devqs[0]? = some d ∧ d.cards = (h, i, r) :: [] ∧
      s.card? 0 h = none ∧ s.cardFault 0 i = none ∧ ((s.part 0).slot (handleSlot h)).use = .live ∧
      ((s.part 0).slot (handleSlot h)).serial = handleSerial h) ∧
    (∃ (s : State) (d : DevQueue) (h : Handle) (i : CardImg) (r : RangeSet), (s.part 0).devqs[0]? = some d ∧ d.cards = (h, i, r) :: [] ∧
      s.card? 0 h = none ∧ s.cardFault 0 i ≠ none ∧ ((s.part 0).slot (handleSlot h)).use = .live ∧
      ((s.part 0).slot (handleSlot h)).serial = handleSerial h) ∧
    (((tasked 1 .discarded (at' .C)).part 0).slot (handleSlot (5 * 2 ^ 13 + 2))).use = .discarded ∧
    ((tasked 1 .live (at' .C)).part 0).slot (handleSlot (4 * 2 ^ 13 + 2)) = ⟨5, .live⟩ ∧
    (∃ s : State, (s.vf 1).part = some 0 ∧ (s.vf 1).qhead ≠ (s.vf 1).qtail ∧
      ∃ i t h u, s.readSlot ((s.vf 1).qring + 128 * ((s.vf 1).qhead.toNat % 2 ^ (s.vf 1).qlog)) = some (.ok (i, t)) ∧ t.cardFault 0 i = none ∧
        t.newHandle 0 = some (h, u)) ∧
    ((at' .C).vf 1).part = none ∧
    (∃ (s : State) (c : Card), s.pick 0 (s.seekers 0) = .place c ∧ s.card? 0 c.handle = some c ∧ c.phase = .waiting ∧ s.hst.pstate = 0 ∧
      s.placeableAt 0 c (0, 0) = true ∧ s.placeableAt 0 c (31, 7) = false ∧ s.seeks c = true) ∧
    (∃ (s : State) (c : Card), s.card? 0 (5 * 2 ^ 13 + 2) = some c ∧ c.phase = .running ∧ c.forced = true ∧ s.mayPreempt 0 c = true ∧
      s.seeks c = false) ∧
    (∃ (s : State) (c : Card), s.pick 0 (s.seekers 0) = .place c ∧ s.card? 0 c.handle = some c ∧ c.phase = .preempted ∧ c.saved.length = 1 ∧
      s.placeableAt 0 c (1, 0) = true ∧ (c.saved.map fun k => (k.x, k.y)).Nodup) ∧
    (∃ (s : State) (c : Card), s.card? 0 (5 * 2 ^ 13 + 2) = some c ∧ c.handle = 5 * 2 ^ 13 + 2 ∧ s.finished c = true ∧ c.replay = none ∧
      s.sch.watches = [] ∧ CardImg.cact c.img % 2 = 0) ∧
    (∃ (s : State) (c : Card), s.card? 0 (5 * 2 ^ 13 + 2) = some c ∧ s.finished c = true ∧ CardImg.cact c.img % 2 = 1 ∧
      (CardImg.cwaddr c.img).toNat = 2 ^ 20 ∧ s.anyDown (2 ^ 20) 8 = false ∧ Claims.Sound s ∧ s.isStepped (2 ^ 20) = false ∧
      (∀ i < 8, s.rowAt (2 ^ 20 + i) = none) ∧ ∃ k, s.confirm (2 ^ 20) true = .ok k) ∧
    (∃ (s : State) (r : Replay) (d : DevQueue), (s.sch.replays.find? fun e => e.1 = 0 && e.2.handle = r.handle) = some (0, r) ∧ r.held = true ∧
      mayRelease r (s.replaysOf 0 r.object) = true ∧ (s.handlesFor 0 r.cards.length).isSome = true ∧ (s.part 0).devqs[r.queue]? = some d ∧
      d.cards.length + r.cards.length ≤ 2 ^ d.sizeLog) ∧
    ((watched (at' .C)).watch? 5).isSome = true := by
  refine ⟨⟨tasked 1 .live (at' .C), _, _, _, _, rfl, rfl, by decide +kernel, by decide +kernel, by decide +kernel, by decide +kernel⟩,
    ⟨badQueue (at' .C), _, _, _, _, rfl, rfl, by decide +kernel, by decide +kernel, by decide +kernel, by decide +kernel⟩, by decide +kernel,
    by decide +kernel,
    ⟨bound (at' .C), by rfl, by decide +kernel, slot_of (by decide +kernel)⟩, by decide +kernel,
    ⟨sched (aCard .waiting) (idle (tsk 0)), aCard .waiting, place_of (by decide +kernel), by rfl, rfl, rfl, by decide +kernel, by decide +kernel,
      by decide +kernel⟩,
    ⟨sched { aCard .running with forced := true } (idle (tsk 0)), _, by rfl, rfl, rfl, by decide +kernel, by decide +kernel⟩,
    ⟨sched { aCard .preempted with saved := [⟨0, 0, Core.reset, [], [], []⟩] } (idle (tsk 0)),
      { aCard .preempted with saved := [⟨0, 0, Core.reset, [], [], []⟩] }, place_of (by decide +kernel), by rfl, rfl, rfl, by decide +kernel,
      by decide⟩,
    ⟨sched (aCard .running) (idle (tsk 0)), _, by rfl, rfl, by decide +kernel, rfl, rfl, by decide +kernel⟩, ?_,
    ⟨{ tsk 0 with sch := { (tsk 0).sch with replays := [(0, replay true)] } }, replay true, _, by decide +kernel, rfl, by decide +kernel,
      by decide +kernel, by rfl, by decide +kernel⟩, by decide +kernel⟩
  exact ⟨sched { aCard .running with img := ((Vector.replicate 16 (0 : Word)).set 2 (1 <<< 56)).set 4 (1 <<< 20) } (idle (tsk 0)), _, by rfl, by decide +kernel,
    by decide +kernel, by decide +kernel, by decide +kernel, sound_of (by decide +kernel), by decide +kernel, by decide +kernel,
    hit_of (by decide +kernel)⟩


/-- Group 2 with members 0 and 5, which stands at step 3, with a region over the first page and a buffered write. -/
def stepping (ws : List Buffered) (rule : Nat) (heard : List (BitVec 16)) (s : State) : State :=
  let s := pkg0 [] s
  { s with fab := { s.fab with
    groups := s.fab.groups.set 2 ⟨true, 9, [0, 5], 3, heard, false, none, [], 0, [], []⟩
    regions := [(4, ⟨0, 0, 4096, 2, rule, 4, 0, none⟩)]
    sbuf := ws } }

def wr8 (k : WKind) (data : List Byte) : Buffered := ⟨4, 2, 3, ⟨5, 0, 7⟩, 0, data, k, false, 0, []⟩

theorem stepReady_base : (stepping [] 0 [] (at' .C)).stepReady 2 = true := by decide +kernel
theorem stepReady_any (ws : List Buffered) (hw : ∀ b ∈ ws, b.waits = []) (r : Nat) (h : List (BitVec 16)) :
    (stepping ws r h (at' .C)).stepReady 2 = true := by
  have hb := stepReady_base
  simp only [State.stepReady, Bool.and_eq_true] at hb ⊢
  refine ⟨hb.1, ?_⟩
  simp only [State.stepReleased, List.all_eq_true]
  intro b hm
  simp [hw b hm]

/-- What BoundariesApply asks of a state, but for its writes. -/
def Stands (s : State) (heard : Bool) : Prop :=
  s.fab.groups[2].joined = true ∧ s.fab.groups[2].failed = none ∧ s.stepAwaited 2 = true ∧
  ((s.others 2).all fun m => s.fab.groups[2].heard.contains m) = heard ∧ s.sch.watches = [] ∧ s.hm.found = [] ∧ s.fab.acks = [] ∧ s.hm.out = 0 ∧
  (∀ e ∈ s.fab.regions, e.2.begins ≠ 4 ∧ e.2.untilStep ≠ some 3) ∧ (dget s.fab.regions 4).map (·.base) = some 0 ∧
  (s.stepWrites 2 3).length = 1 ∧ good (s.confirm 0 true) = true ∧ ∀ i < 8, s.rowAt i = none

theorem stands_plain : Stands (stepping [wr8 .plain (leBytes 8 1)] 2 [5] (at' .C)) true := by
  unfold Stands; decide +kernel
theorem stands_rred : Stands (stepping [wr8 (.rred .add true) (leBytes 8 1)] 2 [5] (at' .C)) true := by
  unfold Stands; decide +kernel
theorem stands_flag : Stands (stepping [wr8 .flag []] 2 [5] (at' .C)) true := by
  unfold Stands; decide +kernel
theorem stands_unheard : Stands (stepping [wr8 .plain (leBytes 8 1)] 5 [] (at' .C)) false := by
  unfold Stands; decide +kernel

theorem witness_BoundariesApply :
    (∃ (r : Region), r.rule = 5 ∧ r.etype ≠ 2 ∧ r.elem = 8) ∧ (∃ (r : Region), r.rule = 0) ∧
    (∃ (r : Region), r.rule = 4 ∧ r.etype ≠ 2) ∧ (∀ a ∈ [255, 1], a < 2 ^ (8 * (⟨0, 0, 4096, 2, 2, 4, 0, none⟩ : Region).elem)) ∧
    (∀ b ∈ [wr8 .plain (leBytes 8 1), wr8 (.rred .add true) (leBytes 8 1), wr8 .flag []],
      Stands (stepping [b] 2 [5] (at' .C)) true ∧ (stepping [b] 2 [5] (at' .C)).stepReady 2 = true) ∧
    Claims.Sound (stepping [] 2 [5] (at' .C)) ∧ (stepping [] 0 [] (at' .C)).stepAwaited 2 = false ∧ (at' .C).fab.groups[2].joined = false ∧
    Stands (stepping [wr8 .plain (leBytes 8 1)] 5 [] (at' .C)) false := by
  refine ⟨⟨⟨0, 0, 4096, 2, 5, 4, 0, none⟩, rfl, by decide, rfl⟩, ⟨⟨0, 0, 4096, 2, 0, 5, 0, none⟩, rfl⟩, ⟨⟨0, 0, 4096, 2, 4, 1, 0, none⟩, rfl, by decide⟩,
    by decide, ?_, sound_of (by decide +kernel), by decide +kernel, by decide +kernel, stands_unheard⟩
  intro b hb
  simp only [List.mem_cons, List.not_mem_nil, or_false] at hb
  obtain rfl | rfl | rfl := hb
  · exact ⟨stands_plain, stepReady_any _ (by decide) _ _⟩
  · exact ⟨stands_rred, stepReady_any _ (by decide) _ _⟩
  · exact ⟨stands_flag, stepReady_any _ (by decide) _ _⟩

/-! ### Witnesses: the units of remote commands -/

/-- Partition 0 may hold 100 bytes of stepped writes. -/
def stepQuota (s : State) : State := s.setPart 0 { s.part 0 with quotas := Vector.replicate 6 4096, migr := 100 }

/-- A remote command of step n in group 2 at a unit, with what it took at issue, and the machine on which it runs. -/
def rcmd (n : BitVec 8) (b : Blk) (step dst exp off : Nat) : Cmd := { cmd n b with stepOf := some (2, step), ias := [dst, exp, off] }
def onStep (x : Cmd) : State := flying [x] (stepping [] 0 [] (at' .S))
def answered (x : Cmd) (a : UnitAnswer) : Cmd := { x with sent := [⟨1, 0, a⟩] }

theorem tosend_of {s : State} {x : Cmd} {dst : BitVec 16} (h : (decide (dst ≠ s.fab.pkg) && (s.route dst).getLsbD 63 && !(s.peer dst).lost &&
    x.sent.all fun u => decide (u.member ≠ x.done)) = true) : Claims.ToSend s x dst := by
  simp only [Bool.and_eq_true, decide_eq_true_eq, Bool.not_eq_true', List.all_eq_true] at h
  exact ⟨h.1.1.1, h.1.1.2, h.1.2, h.2⟩

theorem witness_RemoteUnits_unicast :
    (∃ (s : State) (x : Cmd), Claims.AtUnit s 0 .S 0 x ∧ x.op = 0xC0 ∧ (x.blk.p0.extractLsb' 62 2).toNat ≠ 2 ∧ x.stepOf = some (2, 3) ∧
      s.fab.groups[2].failed = none ∧ x.ias = [5, 63, 0] ∧ 256 * x.done < x.blk.p2.toNat ∧ x.blk.p2.toNat ≤ 256 * x.done + 256 ∧
      Claims.ToSend s x 5) ∧
    (∃ (s : State) (x : Cmd), Claims.AtUnit s 0 .S 0 x ∧ x.op = 0xC1 ∧ x.stepOf = some (2, 3) ∧ x.ias = [5, 4, 0] ∧ Claims.ToSend s x 5) ∧
    (∃ (s : State) (x : Cmd) (u : StepUnit), Claims.AtUnit s 0 .S 0 x ∧ x.op = 0xC2 ∧ x.stepOf = some (2, 3) ∧ x.ias = [0, 5, 0] ∧
      0 = s.fab.pkg ∧ u.exp = 5 ∧ u.step = 3 ∧ u.gid = 9 ∧ u.off = 0 ∧ u.data.length = 8 ∧ s.targetOf s.fab.pkg u = none) ∧
    (∃ (s : State) (x : Cmd) (u : StepUnit) (r : Region), Claims.AtUnit s 0 .S 0 x ∧ x.op = 0xC0 ∧ x.stepOf = some (2, 3) ∧ x.ias = [0, 4, 4088] ∧
      0 = s.fab.pkg ∧ u.exp = 4 ∧ u.step = 3 ∧ u.gid = 9 ∧ u.off = 4088 ∧ u.data.length = 8 ∧ u.flag = none ∧
      s.targetOf s.fab.pkg u = some r ∧ s.room r u.data.length = some true ∧ s.fab.full = [] ∧ s.fab.sbuf = []) ∧
    (∃ (s : State) (x : Cmd) (r : Region), Claims.AtUnit s 0 .S 0 x ∧ x.op = 0xC1 ∧ x.stepOf = some (2, 3) ∧ x.ias = [0, 4, 4088] ∧
      s.readTarget s.fab.pkg 9 3 4 4088 8 = some r ∧ 3 ≤ s.fab.groups[2].step ∧ iaTier (r.base + 4088) ≤ 4 ∧
      s.foreignStep 0 (r.base + 4088) 8 = none ∧ (∀ j < 8, ∃ h, s.confirm (r.base + 4088 + j) false = .ok h) ∧
      x.blk.p0.toNat + 8 = 2 ^ 21) ∧
    (∃ (s : State) (x : Cmd) (r : Region), Claims.AtUnit s 0 .S 0 x ∧ x.op = 0xC1 ∧ x.stepOf = some (2, 4) ∧
      s.readTarget s.fab.pkg 9 4 4 4088 8 = some r ∧ s.fab.groups[2].step < 4) := by
  refine ⟨⟨onStep (rcmd 0xC0 ⟨0, 0, 256, 0⟩ 3 5 63 0), rcmd 0xC0 ⟨0, 0, 256, 0⟩ 3 5 63 0, unit_one rfl (by decide +kernel) (by decide +kernel), rfl,
      by decide +kernel, rfl, rfl, rfl, by decide +kernel, by decide +kernel, tosend_of (by decide +kernel)⟩,
    ⟨onStep (rcmd 0xC1 ⟨0, 0, 8, 0⟩ 3 5 4 0), rcmd 0xC1 ⟨0, 0, 8, 0⟩ 3 5 4 0, unit_one rfl (by decide +kernel) (by decide +kernel), rfl, rfl, rfl,
      tosend_of (by decide +kernel)⟩,
    ⟨onStep (rcmd 0xC2 ⟨0, 0, 8, 0⟩ 3 0 5 0), rcmd 0xC2 ⟨0, 0, 8, 0⟩ 3 0 5 0, ⟨9, 3, 5, 0, zeros 8, .rred .add false, ⟨0, 0, 0⟩, 0, none, 0, 0⟩,
      unit_one rfl (by decide +kernel) (by decide +kernel), rfl, rfl, rfl, rfl, rfl, rfl, rfl, rfl, by decide, by decide +kernel⟩,
    ⟨stepQuota (onStep (rcmd 0xC0 ⟨0, 0, 8, 0⟩ 3 0 4 4088)), rcmd 0xC0 ⟨0, 0, 8, 0⟩ 3 0 4 4088, ⟨9, 3, 4, 4088, zeros 8, .plain, ⟨0, 0, 0⟩, 0, none, 0, 0⟩,
      ⟨0, 0, 4096, 2, 0, 4, 0, none⟩, unit_one rfl (by decide +kernel) (by decide +kernel), rfl, rfl, rfl, rfl, rfl, rfl, rfl, rfl, by decide, rfl,
      by decide +kernel, by decide +kernel, rfl, rfl⟩,
    ⟨onStep (rcmd 0xC1 ⟨2 ^ 21 - 8, 0, 8, 0⟩ 3 0 4 4088), rcmd 0xC1 ⟨2 ^ 21 - 8, 0, 8, 0⟩ 3 0 4 4088, ⟨0, 0, 4096, 2, 0, 4, 0, none⟩,
      unit_one rfl (by decide +kernel) (by decide +kernel), rfl, rfl, rfl, by decide +kernel, by decide +kernel, by decide +kernel,
      by decide +kernel, (serves_ok (serves_of (by decide +kernel))), by decide +kernel⟩,
    ⟨onStep (rcmd 0xC1 ⟨0, 0, 8, 0⟩ 4 0 4 4088), rcmd 0xC1 ⟨0, 0, 8, 0⟩ 4 0 4 4088, ⟨0, 0, 4096, 2, 0, 4, 0, none⟩,
      unit_one rfl (by decide +kernel) (by decide +kernel), rfl, rfl, by decide +kernel, by decide +kernel⟩⟩

theorem witness_RemoteUnits_answers : ∀ a ∈ [UnitAnswer.pending, .refused, .lost, .accepted, .data (zeros 8)], ∃ (s : State) (x : Cmd),
    Claims.AtUnit s 0 .S 0 x ∧ x.op = (if a = .data (zeros 8) then 0xC1 else 0xC0) ∧ x.stepOf = some (2, 3) ∧ x.ias = [5, 4, 0] ∧
      (5 : BitVec 16) ≠ s.fab.pkg ∧ x.blk.p2.toNat ≤ 256 ∧ Claims.Answered x a ∧ x.blk.p0.toNat + 8 = 2 ^ 21 := by
  intro a ha
  simp only [List.mem_cons, List.not_mem_nil, or_false] at ha
  obtain rfl | rfl | rfl | rfl | rfl := ha
  iterate 4
    exact ⟨onStep (answered (rcmd 0xC0 ⟨2 ^ 21 - 8, 0, 8, 0⟩ 3 5 4 0) _), _, unit_one rfl (by decide +kernel) (by decide +kernel), rfl, rfl, rfl,
      by decide +kernel, by decide +kernel, ⟨1, rfl⟩, by decide +kernel⟩
  exact ⟨onStep (answered (rcmd 0xC1 ⟨2 ^ 21 - 8, 0, 8, 0⟩ 3 5 4 0) _), _, unit_one rfl (by decide +kernel) (by decide +kernel), by decide, rfl, rfl,
    by decide +kernel, by decide +kernel, ⟨1, rfl⟩, by decide +kernel⟩

theorem witness_RemoteUnits_multicast : ∃ (s : State) (x : Cmd) (e : McEntry), Claims.AtUnit s 0 .S 0 x ∧ x.op = 0xC0 ∧
    (x.blk.p0.extractLsb' 62 2).toNat = 2 ∧ x.done = 0 ∧ 0 < x.blk.p2.toNat ∧ x.off = 0 ∧ x.stepOf = some (2, 3) ∧
    s.fab.groups[2].failed = none ∧ dget s.fab.mcast (x.blk.p0.extractLsb' 54 8).toNat = some e ∧ e.hdr.getLsbD 0 = true :=
  ⟨onStep (rcmd 0xC0 ⟨2 <<< 62 ||| 3 <<< 54, 0, 8, 0⟩ 3 0 0 0), rcmd 0xC0 ⟨2 <<< 62 ||| 3 <<< 54, 0, 8, 0⟩ 3 0 0 0, ⟨2 ^ 63 ||| 2 ^ 48 ||| 1, [0, 5]⟩,
    unit_one rfl (by decide +kernel) (by decide +kernel), rfl, by decide +kernel, rfl, by decide +kernel, rfl, rfl, rfl, by decide +kernel,
    by decide +kernel⟩

/-- An exchange over two shards, of which packages a and b own one each, whose inbox areas have n bytes; k members are served. -/
def xall (async : Bool) (a b n k : Nat) : Cmd :=
  { cmd 0xB7 ⟨0, 0, word n, if async then 0x44000 else 0x4000⟩ with
    stepOf := if async then none else some (2, 3), table := some (1, { tab 0 16 0 with shcnt := 2 }), done := k,
    record := [a, b, 0, 0].map word, aux := 7 }
def areas (l : List (BitVec 16 × Nat × Nat)) (s : State) : State := { s with fab := { s.fab with areas := l } }

theorem witness_RemoteUnits_xall :
    (∀ async : Bool, ∃ (s : State) (x : Cmd) (own : Nat → Nat), Claims.AtUnit s 0 .S 0 x ∧ x.op = 0xB7 ∧ x.off = 0 ∧
      x.record = [0, 5, 0, 0] ∧ own 0 = 0 ∧ own 1 = 5 ∧ x.blk.p3.getLsbD 18 = async ∧ (async = false → x.stepOf = some (2, 3)) ∧
      s.fab.groups[2].failed = none ∧ own 0 = s.fab.pkg.toNat ∧ ((List.range 1).map own).eraseDups.length = x.done ∧ x.blk.p2.toNat = 8 ∧
      Claims.ToSend s x 5) ∧
    (∃ (s : State) (x : Cmd), Claims.AtUnit s 0 .S 0 x ∧ x = xall true 0 5 7 1) ∧
    (∃ (s : State) (x : Cmd), Claims.AtUnit s 0 .S 0 x ∧ x = xall false 5 5 8 0 ∧ 5 ≠ s.fab.pkg.toNat) ∧
    (∃ (s : State) (x : Cmd), Claims.AtUnit s 0 .S 0 x ∧ x = xall true 0 5 8 2 ∧ ((5 : BitVec 16), 4, x.aux) ∈ s.fab.areas ∧
      (x.blk.p3.extractLsb' 12 6).toNat = 4) ∧
    (∃ (s : State) (x : Cmd), Claims.AtUnit s 0 .S 0 x ∧ x = xall true 0 5 8 2 ∧ ((5 : BitVec 16), 4, x.aux) ∉ s.fab.areas ∧
      (s.route 5).getLsbD 63 = true ∧ (s.peer 5).lost = false) ∧
    (∃ (s : State) (x : Cmd), Claims.AtUnit s 0 .S 0 x ∧ x = xall true 0 6 8 2 ∧ ((6 : BitVec 16), 4, x.aux) ∉ s.fab.areas ∧
      (s.route 6).getLsbD 63 = false) := by
  refine ⟨?_, ⟨onStep (xall true 0 5 7 1), _, unit_one rfl (by decide +kernel) (by decide +kernel), rfl⟩,
    ⟨onStep (xall false 5 5 8 0), _, unit_one rfl (by decide +kernel) (by decide +kernel), rfl, by decide +kernel⟩,
    ⟨areas [(5, 4, 7)] (onStep (xall true 0 5 8 2)), _, unit_one rfl (by decide +kernel) (by decide +kernel), rfl, by decide, by decide +kernel⟩,
    ⟨onStep (xall true 0 5 8 2), _, unit_one rfl (by decide +kernel) (by decide +kernel), rfl, by decide +kernel, by decide +kernel,
      by decide +kernel⟩,
    ⟨onStep (xall true 0 6 8 2), _, unit_one rfl (by decide +kernel) (by decide +kernel), rfl, by decide +kernel, by decide +kernel⟩⟩
  rintro (_ | _)
  · exact ⟨onStep (xall false 0 5 8 1), xall false 0 5 8 1, fun j => 5 * j, unit_one rfl (by decide +kernel) (by decide +kernel), rfl, rfl,
      by decide +kernel, rfl, rfl, by decide +kernel, fun _ => rfl, rfl, by decide +kernel, by decide +kernel, by decide +kernel,
      tosend_of (by decide +kernel)⟩
  · exact ⟨onStep (xall true 0 5 8 1), xall true 0 5 8 1, fun j => 5 * j, unit_one rfl (by decide +kernel) (by decide +kernel), rfl, rfl,
      by decide +kernel, rfl, rfl, by decide +kernel, fun h => absurd h (by decide), rfl, by decide +kernel, by decide +kernel, by decide +kernel,
      tosend_of (by decide +kernel)⟩

/-- A collective of 8 bytes in multicast group 3 at a member, and the contributions that have come. -/
def coll (async : Bool) (kind k : Nat) : Cmd :=
  { cmd 0xB8 ⟨0, 0, 8, word (kind + 3 * 64 + 4 * 256 + 3 * 2 ^ 15 + if async then 2 ^ 14 else 0)⟩ with
    stepOf := if async then none else some (2, 3), done := k, aux := 7 }
def contribs (l : List Contrib) (s : State) : State := { s with fab := { s.fab with contrib := l } }

theorem witness_RemoteUnits_coll :
    (∀ async : Bool, ∃ (s : State) (x : Cmd) (e : McEntry), Claims.AtUnit s 0 .S 0 x ∧ x.op = 0xB8 ∧ x.off = 0 ∧
      dget s.fab.mcast (x.blk.p3.extractLsb' 15 8).toNat = some e ∧ e.hdr.getLsbD 63 = true ∧ (e.hdr.extractLsb' 56 7).toNat ≠ 127 ∧
      x.blk.p3.getLsbD 14 = async ∧ (async = false → x.stepOf = some (2, 3)) ∧ s.fab.groups[2].failed = none ∧
      e.members[x.done]? = some 5 ∧ Claims.ToSend s x 5) ∧
    (∀ kind, kind = 0 ∨ kind = 1 ∨ kind = 2 → ∃ (s : State) (x : Cmd) (e : McEntry) (r : Region) (parts : List Contrib),
      Claims.AtUnit s 0 .S 0 x ∧ x = coll true kind 2 ∧ dget s.fab.mcast 3 = some e ∧ e.members = [0, 5] ∧
      x.done = e.members.length ∧ dget s.fab.regions (x.blk.p3.extractLsb' 8 6).toNat = some r ∧ s.isStepped r.base = false ∧
      s.fab.contrib.filter (fun k => k.grp = 3 && k.n = x.aux) = parts ∧ parts.Pairwise (fun a b => a.src.toNat < b.src.toNat) ∧
      e.members.Nodup ∧ (∀ p, (if kind = 2 then e.members[0]? = some p else p ∈ e.members) ↔ ∃ k ∈ parts, k.src = p) ∧
      (∀ k ∈ parts, k.data.length = 8) ∧ parts.length * 8 ≤ r.bytes ∧ parts ≠ [] ∧
      Claims.MayWrite s ((List.range (8 * if kind = 1 then 2 else 1)).map fun j => (r.base + j, 0))) := by
  constructor
  · rintro (_ | _)
    · exact ⟨onStep (coll false 0 1), coll false 0 1, ⟨2 ^ 63 ||| 2 ^ 48 ||| 1, [0, 5]⟩, unit_one rfl (by decide +kernel) (by decide +kernel), rfl, rfl,
        by decide +kernel, by decide +kernel, by decide +kernel, by decide +kernel, fun _ => rfl, rfl, rfl, tosend_of (by decide +kernel)⟩
    · exact ⟨onStep (coll true 0 1), coll true 0 1, ⟨2 ^ 63 ||| 2 ^ 48 ||| 1, [0, 5]⟩, unit_one rfl (by decide +kernel) (by decide +kernel), rfl, rfl,
        by decide +kernel, by decide +kernel, by decide +kernel, by decide +kernel, fun h => absurd h (by decide), rfl, rfl,
        tosend_of (by decide +kernel)⟩
  · have both (p : BitVec 16) : p ∈ [(0 : BitVec 16), 5] ↔ ∃ k ∈ [Contrib.mk 0 3 7 (zeros 8), ⟨5, 3, 7, zeros 8⟩], k.src = p := by
      constructor
      · intro h
        obtain rfl | rfl : p = 0 ∨ p = 5 := by simpa using h
        · exact ⟨_, .head _, rfl⟩
        · exact ⟨_, .tail _ (.head _), rfl⟩
      · rintro ⟨k, hk, rfl⟩
        obtain rfl | rfl : k = ⟨0, 3, 7, zeros 8⟩ ∨ k = ⟨5, 3, 7, zeros 8⟩ := by simpa only [List.mem_cons, List.not_mem_nil, or_false] using hk
        · exact .head _
        · exact .tail _ (.head _)
    have one (p : BitVec 16) : some (0 : BitVec 16) = some p ↔ ∃ k ∈ [Contrib.mk 0 3 7 (zeros 8)], k.src = p := by
      constructor
      · intro h; cases h; exact ⟨_, .head _, rfl⟩
      · rintro ⟨k, hk, rfl⟩
        obtain rfl : k = ⟨0, 3, 7, zeros 8⟩ := by simpa only [List.mem_cons, List.not_mem_nil, or_false] using hk
        rfl
    rintro kind (rfl | rfl | rfl)
    · exact ⟨contribs [⟨0, 3, 7, zeros 8⟩, ⟨5, 3, 7, zeros 8⟩] (onStep (coll true 0 2)), _, ⟨2 ^ 63 ||| 2 ^ 48 ||| 1, [0, 5]⟩,
        ⟨0, 0, 4096, 2, 0, 4, 0, none⟩, [⟨0, 3, 7, zeros 8⟩, ⟨5, 3, 7, zeros 8⟩], unit_one rfl (by decide +kernel) (by decide +kernel), rfl,
        by decide +kernel, rfl, rfl, by decide +kernel, by decide +kernel, by decide +kernel, by decide, by decide, both, by decide, by decide,
        by decide, writes_of (by decide +kernel)⟩
    · exact ⟨contribs [⟨0, 3, 7, zeros 8⟩, ⟨5, 3, 7, zeros 8⟩] (onStep (coll true 1 2)), _, ⟨2 ^ 63 ||| 2 ^ 48 ||| 1, [0, 5]⟩,
        ⟨0, 0, 4096, 2, 0, 4, 0, none⟩, [⟨0, 3, 7, zeros 8⟩, ⟨5, 3, 7, zeros 8⟩], unit_one rfl (by decide +kernel) (by decide +kernel), rfl,
        by decide +kernel, rfl, rfl, by decide +kernel, by decide +kernel, by decide +kernel, by decide, by decide, both, by decide, by decide,
        by decide, writes_of (by decide +kernel)⟩
    · exact ⟨contribs [⟨0, 3, 7, zeros 8⟩] (onStep (coll true 2 2)), _, ⟨2 ^ 63 ||| 2 ^ 48 ||| 1, [0, 5]⟩,
        ⟨0, 0, 4096, 2, 0, 4, 0, none⟩, [⟨0, 3, 7, zeros 8⟩], unit_one rfl (by decide +kernel) (by decide +kernel), rfl,
        by decide +kernel, rfl, rfl, by decide +kernel, by decide +kernel, by decide +kernel, by decide, by decide, one, by decide, by decide,
        by decide, writes_of (by decide +kernel)⟩


/-! ### Witnesses: the fabric -/

/-- Packets that have arrived, requests sent, and what is known of package 5. -/
def heard (ib : List (BitVec 16 × PBody)) (s : State) : State :=
  let s := stepping [] 0 [] s
  { s with fab := { s.fab with inbox := ib, inc := 4, peers := [(5, ⟨2, false⟩)] } }

def sent (d : Send) (s : State) : State := { s with fab := { s.fab with sends := [d] } }

def unit (step : Nat) : StepUnit := ⟨9, step, 4, 0, leBytes 8 1, .plain, ⟨5, 0, 7⟩, 7, none, 0, 0⟩

theorem target_of {s u : State} {x : StepUnit} (h : (match u.targetOf 5 x with
    | some r => s.fab.full.isEmpty && s.fab.sbuf.isEmpty && (u.room r 8).isSome
    | none => false) = true) :
    ∃ r b, u.targetOf 5 x = some r ∧ (x.gid, x.step, unitCmdKey x) ∉ s.fab.full ∧ (∀ b ∈ s.fab.sbuf, b.key ≠ x.key) ∧ u.room r 8 = some b := by
  split at h
  · rename_i r e
    simp only [Bool.and_eq_true, List.isEmpty_iff, Option.isSome_iff_exists] at h
    obtain ⟨⟨h1, h2⟩, b, h3⟩ := h
    exact ⟨r, b, e, by simp [h1], by simp [h2], h3⟩
  · simp at h

theorem stepReady_heard : (heard [] (at' .C)).stepReady 2 = true := by
  rw [← stepReady_base]
  rfl

/-- A merging of responses with ports to answer; a copy of a multicast; a route to package 5 through port 2, one hop long. -/
def merging (left : List (Fin 16)) (s : State) : State :=
  { s with fab := { s.fab with acks := [⟨3, none, 3, ⟨0, 0, 7⟩, left, 0, 0, none, 0, []⟩] } }
def aCopy : McCopy := { grp := 3, gid := 9, step := 3, exp := 4, off := 0, flag := none, data := leBytes 8 1, key := ⟨0, 0, 7⟩ }
def routed (s : State) : State := { s with fab := { s.fab with routes := [(5, 2 ^ 63 ||| 2 ||| 1 <<< 56)] } }

theorem witness_FabricEvents_commands :
    (∃ (s : State) (r : Region), s.fab.inbox = [(5, .req 1 (.write 4 4088 (zeros 8) 0 7))] ∧ ((5 : BitVec 16), 4, 7) ∉ s.fab.areas ∧
      s.fab.landing = [] ∧ dget s.fab.regions 4 = some r ∧ s.isStepped r.base = false ∧ 4088 + (zeros 8).length = r.bytes ∧ Claims.Sound s ∧
      s.hm.out = 0 ∧ Claims.MayWrite s ((List.range 8).map fun j => (r.base + 4088 + j, 0))) ∧
    (∃ s : State, s.fab.inbox = [(5, .req 1 (.contrib 3 7 (zeros 8)))] ∧ ∀ k ∈ s.fab.contrib, ¬(k.src = 5 ∧ k.grp = 3 ∧ k.n = 7)) ∧
    (∃ (s : State) (x : Cmd), s.fab.inbox = [(5, .req 1 (.notice 9 5))] ∧ (5 : BitVec 16) ≠ s.fab.pkg ∧ s.fab.groups[2].failed = none ∧
      (s.seq 0 .S).cmds = [x] ∧ x.op = 0xC1 ∧ x.ias.head? = some 5 ∧ x.stat = 0) ∧
    (∃ s : State, s.fab.inbox = [(5, .req 1 (.boundary 9 4 [0, 5] 0))] ∧ s.fab.groups[2].step < 4 ∧ 4 < s.fab.groups[2].step + 2) ∧
    (∃ s : State, s.fab.inbox = [(5, .req 1 (.boundary 9 2 [0, 5] 0))] ∧ 2 < s.fab.groups[2].step ∧ s.fab.groups[2].step ≤ 2 + 1) ∧
    (∃ s : State, s.fab.inbox = [(5, .req 1 (.boundary 9 3 [0, 6] 0))] ∧ s.fab.groups[2].members ≠ [0, 6]) :=
  ⟨⟨heard [(5, .req 1 (.write 4 4088 (zeros 8) 0 7))] (at' .C), ⟨0, 0, 4096, 2, 0, 4, 0, none⟩, rfl, by decide +kernel, rfl, by decide +kernel,
      by decide +kernel, by decide, sound_of (by decide +kernel), rfl, writes_of (by decide +kernel)⟩,
    ⟨heard [(5, .req 1 (.contrib 3 7 (zeros 8)))] (at' .C), rfl, by decide +kernel⟩,
    ⟨flying [rcmd 0xC1 ⟨0, 0, 8, 0⟩ 3 5 4 0] (heard [(5, .req 1 (.notice 9 5))] (at' .S)), _, rfl, by decide +kernel, rfl, rfl, rfl, rfl, rfl⟩,
    ⟨heard [(5, .req 1 (.boundary 9 4 [0, 5] 0))] (at' .C), rfl, by decide +kernel, by decide +kernel⟩,
    ⟨heard [(5, .req 1 (.boundary 9 2 [0, 5] 0))] (at' .C), rfl, by decide +kernel, by decide +kernel⟩,
    ⟨heard [(5, .req 1 (.boundary 9 3 [0, 6] 0))] (at' .C), rfl, by decide +kernel⟩⟩

theorem witness_FabricEvents :
    (let s := heard [] (at' .C)
     s.fab.pkg = 0 ∧ s.fab.inc = 4 ∧ dget s.fab.peers 5 = some ⟨2, (s.peer 5).lost⟩ ∧ (3 : BitVec 16) ≠ s.fab.inc ∧ (6 : BitVec 16) ≠ s.fab.pkg ∧
       dget s.fab.peers 7 = none ∧ (2 : BitVec 16) ≠ 3) ∧
    (∃ (s : State) (w : Word), s.route 6 = w ∧ w.getLsbD 63 = true ∧ s.fab.down.getLsbD (w.extractLsb' 0 4).toNat = false ∧
      s.fab.uet.getLsbD (w.extractLsb' 0 4).toNat = false ∧ (6 : BitVec 16) ≠ s.fab.pkg) ∧
    (let s := heard [(5, .req 1 (.stepped (unit 2)))] (stepQuota (at' .C))
     (({ s with fab := { s.fab with inbox := [] } } : State).targetOf 5 (unit 2)) = none) ∧
    (let s := heard [(5, .req 1 (.stepped (unit 3)))] (stepQuota (at' .C))
     ∃ r b, (({ s with fab := { s.fab with inbox := [] } } : State).targetOf 5 (unit 3)) = some r ∧
       ((unit 3).gid, (unit 3).step, unitCmdKey (unit 3)) ∉ s.fab.full ∧ (∀ b ∈ s.fab.sbuf, b.key ≠ (unit 3).key) ∧
       ({ s with fab := { s.fab with inbox := [] } } : State).room r 8 = some b) ∧
    (let s := heard [(5, .req 1 (.copy aCopy))] (at' .C)
     s.fab.acks = [] ∧ s.localGroup 9 = some 2 ∧ s.fab.groups[2].step = 3 ∧
       (∃ e, ((dget s.fab.mcast 3).getD ⟨0, []⟩) = e ∧ e.hdr.getLsbD 63 = true ∧ (e.hdr.extractLsb' 56 7).toNat ≠ 127) ∧
       ((dget s.fab.mcast 4).getD ⟨0, []⟩).hdr.getLsbD 63 = false) ∧
    (let s : State := { at' .C with fab := { (at' .C).fab with mcast := [(3, ⟨2 ^ 63 ||| 127 <<< 56 ||| 2, [0, 5]⟩)] } }
     ((dget s.fab.mcast 3).getD ⟨0, []⟩).hdr.getLsbD 63 = true ∧ (((dget s.fab.mcast 3).getD ⟨0, []⟩).hdr.extractLsb' 56 7).toNat = 127) ∧
    (let s := routed (merging [2] (at' .C))
     s.neighbour 2 = 5 ∧ ([2].filter fun p => s.neighbour p != 5) = [] ∧ ([2, 1].filter fun p => s.neighbour p != 5) = [1] ∧
       ([1].filter fun p => s.neighbour p != 5) = [1]) ∧
    (∃ (s : State) (a : Ack), s.fab.acks = [a] ∧ a.left = [1] ∧ a.group = none ∧ a.record = none ∧ a.grp = 3 ∧ a.step = 3 ∧ a.key = ⟨0, 0, 7⟩) ∧
    (∀ k : Fin 16, ((heard [] (at' .C)).fab.groups[k.val].joined = true ∧ (heard [] (at' .C)).fab.groups[k.val].gid = 9) ↔ k = 2) ∧
    ((heard [] (at' .C)).fab.groups[2].members = [0, 5] ∧ (heard [] (at' .C)).stepReady 2 = true ∧ (heard [] (at' .C)).fab.groups[2].step = 3 ∧
      (heard [] (at' .C)).fab.groups[2].failed = none ∧ sget 0 (heard [] (at' .C)).fab.groups[2].lives 5 = 0) ∧
    (∃ (s : State) (d : Send), s.fab.sends = [d] ∧ d.req = .boundary 9 3 [0, 5] 0 ∧ d.dst = 5 ∧ s.localGroup 9 = some 2 ∧ s.fab.groups[2].heard = [] ∧
      s.fab.groups[2].step = 3 ∧ sget 0 s.fab.groups[2].lives 5 = 0) ∧
    (∃ (s : State) (d : Send) (x : Cmd), s.fab.sends = [d] ∧ d.core = some (0, .S, x.stamp) ∧ (s.seq 0 .S).cmds = [x]) ∧
    (∃ (s : State) (d : Send), s.fab.sends = [d] ∧ d.wait = true ∧ d.sends = 15) ∧ (∃ (s : State) (d : Send), s.fab.sends = [d] ∧ d.wait = true ∧ d.sends = 16) ∧
    (∃ (s : State) (d : Send), s.fab.sends = [d] ∧ (∀ m, d.req ≠ .copy m) ∧ (∀ gid p, d.req ≠ .notice gid p) ∧ d.wait = false ∧ d.timed = 2 ∧ d.sends = 15) ∧
    (∃ (s : State) (d : Send), s.fab.sends = [d] ∧ d.wait = false ∧ d.timed = 3) ∧
    (∃ (s : State), s.fab.inbox = (5, .req 1 (.notice 9 5)) :: [] ∧ s.localGroup 9 = some 2 ∧ (5 : BitVec 16) ∉ s.fab.groups[2].gone) ∧
    ((at' .C).fab.down.getLsbD 15 = false ∧ ({ at' .C with fab := { (at' .C).fab with down := 1 } } : State).fab.down.getLsbD 0 = true ∧
      (at' .C).fab.wire = [] ∧ (at' .C).fab.tries[15] < 7) ∧
    (∃ (s : State) (q : Packet), (15, q) ∈ s.fab.wire ∧ s.fab.down.getLsbD 15 = false ∧ s.fab.tries[15] = 7) := by
  refine ⟨by decide +kernel, ⟨{ heard [] (at' .C) with fab := { (heard [] (at' .C)).fab with routes := [(6, 2 ^ 63 ||| 3)] } }, _, rfl, by decide +kernel,
      by decide +kernel, by decide +kernel, by decide +kernel⟩, by decide +kernel,
    target_of (by decide +kernel), ⟨rfl, by decide +kernel, by decide +kernel, ⟨_, rfl, by decide +kernel, by decide +kernel⟩, by decide +kernel⟩,
    by decide +kernel, by decide +kernel, ⟨merging [1] (at' .C), _, rfl, rfl, rfl, rfl, rfl, rfl, rfl⟩,
    by decide +kernel, ⟨by decide +kernel, stepReady_heard, by decide +kernel, by decide +kernel, by decide +kernel⟩,
    ⟨sent ⟨1, none, 5, .boundary 9 3 [0, 5] 0, 1, 0, false⟩ (heard [] (at' .C)), _, rfl, rfl, rfl, by decide +kernel, by decide +kernel, by decide +kernel, by decide +kernel⟩,
    ⟨flying [cmd 0xC0 ⟨0, 0, 8, 0⟩] (sent ⟨1, some (0, .S, 7), 5, .stepped (unit 3), 1, 0, false⟩ (at' .S)), _, _, rfl, rfl, rfl⟩,
    ⟨sent ⟨1, none, 5, .boundary 9 3 [0, 5] 0, 15, 0, true⟩ (at' .C), _, rfl, rfl, rfl⟩,
    ⟨sent ⟨1, none, 5, .boundary 9 3 [0, 5] 0, 16, 0, true⟩ (at' .C), _, rfl, rfl, rfl⟩,
    ⟨sent ⟨1, none, 5, .boundary 9 3 [0, 5] 0, 15, 2, false⟩ (at' .C), _, rfl, (fun _ h => nomatch h), (fun _ _ h => nomatch h), rfl, rfl, rfl⟩,
    ⟨sent ⟨1, none, 5, .boundary 9 3 [0, 5] 0, 15, 3, false⟩ (at' .C), _, rfl, rfl, rfl⟩,
    ⟨heard [(5, .req 1 (.notice 9 5))] (at' .C), rfl, by decide +kernel, by decide +kernel⟩, by decide +kernel,
    ⟨{ at' .C with fab := { (at' .C).fab with wire := [(15, ⟨0, 5, 4, 2, 0, .rep 1 .accepted⟩)], tries := Vector.replicate 16 7 } }, _, .head _, by decide +kernel,
      by decide +kernel⟩⟩

/-- A hot copy of row 2 of table 1. -/
def hotCopy (dirty lost back : Bool) (s : State) : State :=
  homes (fun h => { h with hot := [⟨0, 1, 2, 0, 0, dirty, lost, List.replicate 64 7, back⟩] }) (tabled s)

theorem mov_of {s : State} {a : Nat} {P : Hit → Prop} [DecidablePred P]
    (h : (match s.movable 0 a with | some h => decide (P h) | none => false) = true) : ∃ h, s.movable 0 a = some h ∧ P h := by
  cases e : s.movable 0 a <;> simp_all

/-- An error in the word at 64 of stack 1's array, whose page may be poisoned. -/
def scrubbed (u psn : Bool) (s : State) : State :=
  let ps : Sparse Word := s.hm.ptes.map fun e => (e.1, if psn then e.2 ||| (1#64 <<< 52) else e.2)
  { s with hm.bad := sput [] (badKey (2 ^ 52 + 64)) u, hm.ptes := ps }

theorem mapper_of {s : State} {P : PteAt → Hit → Bool} (h : (match s.mappers 1 64 with
    | e :: _ => (match hitOf s.hm.ptes e.home (e.iaOf 64) e.code with | some x => P e x | none => false)
    | [] => false) = true) : ∃ e rest x, s.mappers 1 64 = e :: rest ∧ hitOf s.hm.ptes e.home (e.iaOf 64) e.code = some x ∧ P e x = true := by
  cases m : s.mappers 1 64 with
  | nil => simp [m] at h
  | cons e rest =>
    cases k : hitOf s.hm.ptes e.home (e.iaOf 64) e.code with
    | none => simp [m, k] at h
    | some x => exact ⟨e, rest, x, rfl, k, by simpa [m, k] using h⟩

theorem witness_ArrayEvents_scrub :
    (∀ u psn : Bool, dget (scrubbed u psn (at' .C)).hm.bad (badKey ((1 : Fin 17).val * 2 ^ 52 + 64)) = some u) ∧
    (scrubbed true false (at' .C)).hm.out.getLsbD 1 = false ∧ (scrubbed true false (at' .C)).hm.dead.getLsbD 1 = false ∧
    (let s := scrubbed true true (at' .C)
     ∃ e rest x, s.mappers 1 64 = e :: rest ∧ hitOf s.hm.ptes e.home (e.iaOf 64) e.code = some x ∧ ptePsn x.pte = true) ∧
    (let s := scrubbed false false (at' .C)
     ∃ e rest x, s.mappers 1 64 = e :: rest ∧ hitOf s.hm.ptes e.home (e.iaOf 64) e.code = some x ∧
       (!ptePsn x.pte && !s.hm.corrWin.getLsbD x.arr.val) = true) ∧
    (let s := homes (fun h => { h with corrWin := 2 }) (scrubbed false false (at' .C))
     ∃ e rest x, s.mappers 1 64 = e :: rest ∧ hitOf s.hm.ptes e.home (e.iaOf 64) e.code = some x ∧
       (!ptePsn x.pte && s.hm.corrWin.getLsbD x.arr.val) = true) ∧
    (let s := scrubbed true false (at' .C)
     ∃ e rest x, s.mappers 1 64 = e :: rest ∧ hitOf s.hm.ptes e.home (e.iaOf 64) e.code = some x ∧
       (!ptePsn x.pte && (s.hotAt (e.iaOf 64)).isNone && swf 0 s.hm.ptes && match s.mappers x.arr (x.phys (e.iaOf 64)) with
         | [g] => !s.pendingAt g && !pteStp g.pte && !ptePsn g.pte && (s.rowsIn g.part g.base (pageSize g.code)).isEmpty
         | _ => false) = true) := by
  refine ⟨by decide +kernel, by decide +kernel, by decide +kernel, mapper_of (by decide +kernel), mapper_of (by decide +kernel),
    mapper_of (by decide +kernel), mapper_of (by decide +kernel)⟩

theorem witness_ArrayEvents :
    ((homes (fun h => { h with out := 1 }) (at' .C)).hm.out.getLsbD (0 : Fin 8).val = true ∧
      (homes (fun h => { h with dead := 128 }) (at' .C)).hm.dead.getLsbD (7 : Fin 8).val = true ∧
      (at' .C).hm.out.getLsbD 7 = false ∧ (at' .C).hm.dead.getLsbD 7 = false ∧ (at' .C).hst.stalled = [] ∧
      (at' .C).hm.tries[7] < 6 ∧ 6 ≤ (homes (fun h => { h with tries := h.tries.set 7 6 }) (at' .C)).hm.tries[7]) ∧
    (dget (homes (fun h => { h with bad := sput [] (badKey (2 ^ 52 + 64)) false }) (at' .C)).hm.bad (badKey (2 ^ 52 + 64)) = some false ∧
      (State.reset).mappers 1 64 = [] ∧ dget (at' .C).hm.bad (badKey (2 ^ 52 + 64)) = none) ∧
    ((at' .C).hm.capture = [] ∧ (homes (fun h => { h with capture := [(7, 9)] }) (at' .C)).hm.capture = (7, 9) :: []) ∧
    ((at' .C).hm.looks[7] < 2 ^ 20 ∧ 2 ^ 20 ≤ (homes (fun h => { h with looks := h.looks.set 7 (2 ^ 20) }) (at' .C)).hm.looks[7] ∧
      swf 0 (at' .C).hm.sketch = true) ∧
    ((at' .C).hotCopy 0 1 2 = none ∧ (∃ c, (hotCopy true false false (at' .C)).hotCopy 0 1 2 = some c ∧ c.back = false) ∧
      (∃ t, dget ((hotCopy true false true (at' .C)).part 0).tables 1 = some t) ∧
      (∃ c, (hotCopy false false true (at' .C)).hotCopy 0 1 2 = some c ∧ c.back = true ∧ c.dirty = false) ∧
      (∃ c, (hotCopy true true true (at' .C)).hotCopy 0 1 2 = some c ∧ c.back = true ∧ c.lost = true)) ∧
    ((at' .C).movable 0 0 = none ∧
      (∃ h, (tier3 false 99 (stepQuota (at' .C))).movable 0 (3 * 2 ^ 44) = some h ∧ h.migrated = false ∧
        (tier3 false 99 (stepQuota (at' .C))).hotPage 0 h = false) ∧
      (∃ h, (tier3 true 100 (stepQuota (at' .C))).movable 0 (3 * 2 ^ 44) = some h ∧ h.migrated = false ∧
        (tier3 true 100 (stepQuota (at' .C))).hotPage 0 h = true ∧ (tier3 true 100 (stepQuota (at' .C))).skipsPage 0 h = true) ∧
      (∃ h, (tier3 false 100 (stepQuota (at' .C))).movable 0 (3 * 2 ^ 44) = some h ∧ h.migrated = false ∧
        (tier3 false 100 (stepQuota (at' .C))).hotPage 0 h = true ∧ (tier3 false 100 (stepQuota (at' .C))).skipsPage 0 h = false)) ∧
    (((at' .C).part 0).layers = [] ∧ (((at' .C).setPart 0 { (at' .C).part 0 with layers := [4] }).part 0).layers = 4 :: []) := by
  refine ⟨⟨by decide +kernel, by decide +kernel, by decide +kernel, by decide +kernel, rfl, by decide +kernel, by decide +kernel⟩,
    ⟨by decide +kernel, by decide +kernel, by decide +kernel⟩, ⟨rfl, rfl⟩, ⟨by decide +kernel, by decide +kernel, by decide +kernel⟩,
    ⟨by decide +kernel, ⟨_, by rfl, rfl⟩, ⟨_, by rfl⟩, ⟨_, by rfl, rfl, rfl⟩, ⟨_, by rfl, rfl, rfl⟩⟩, ⟨by decide +kernel, ?_, ?_, ?_⟩, by decide +kernel, by decide +kernel⟩
  all_goals exact mov_of (by decide +kernel)

/-- A page of tier 3 that an entry of the prefetch table for layer 5 names, and layer 4 announced. -/
def prefetching (s : State) : State :=
  let s := tier3 false 0 (stepQuota s)
  s.setPart 0 { s.part 0 with layers := [4], pft := [(0, 5 ||| 2 <<< 16), (1, word (3 * 2 ^ 44)), (2, 4096)] }

theorem entries_of {s : State} (h : ((List.range 256).all fun j => (let e := (s.part 0).prefetch j
    decide (e.dest = 2 ∧ 4 < e.lyr ∧ e.lyr ≤ 4 + e.lead)) == decide (j = 0)) = true) :
    ∀ j < 256, let e := (s.part 0).prefetch j
      (e.dest = 2 ∧ 4 < e.lyr ∧ e.lyr ≤ 4 + e.lead) ↔ j = 0 := by
  intro j hj
  have h := List.all_eq_true.1 h j (List.mem_range.2 hj)
  simp only [beq_iff_eq, decide_eq_decide] at h
  exact h

theorem witness_PrefetchMoves :
    (∃ (s : State) (h : Hit) (fs : List (Fin 17 × Nat)), (s.part 0).layers = [4] ∧ Claims.Sound s ∧
      (∀ j < 256, let e := (s.part 0).prefetch j
        (e.dest = 2 ∧ 4 < e.lyr ∧ e.lyr ≤ 4 + e.lead) ↔ j = 0) ∧ 0 < ((s.part 0).prefetch 0).len ∧
      (s.movable 0 ((s.part 0).prefetch 0).base = some h ∧ ((s.part 0).prefetch 0).base + ((s.part 0).prefetch 0).len ≤ h.base + h.size ∧
        h.migrated = false ∧ ptePin h.pte = false ∧ s.skipsPage 0 h = false ∧ s.framesFor h.base h.size true = some fs)) := by
  have m : ∃ h, (prefetching (at' .C)).movable 0 (3 * 2 ^ 44) = some h ∧ 3 * 2 ^ 44 + 4096 ≤ h.base + h.size ∧ h.migrated = false ∧
      ptePin h.pte = false ∧ (prefetching (at' .C)).skipsPage 0 h = false ∧ ((prefetching (at' .C)).framesFor h.base h.size true).isSome = true := by
    have := mov_of (s := prefetching (at' .C)) (a := 3 * 2 ^ 44) (P := fun h => 3 * 2 ^ 44 + 4096 ≤ h.base + h.size ∧ h.migrated = false ∧
      ptePin h.pte = false ∧ (prefetching (at' .C)).skipsPage 0 h = false ∧ ((prefetching (at' .C)).framesFor h.base h.size true).isSome = true)
      (by decide +kernel)
    exact this
  obtain ⟨h, h1, h2, h3, h4, h5, h6⟩ := m
  obtain ⟨fs, h6⟩ := Option.isSome_iff_exists.1 h6
  have b : ((prefetching (at' .C)).part 0).prefetch 0 = ⟨5, 2, 1, 3 * 2 ^ 44, 4096⟩ := by decide +kernel
  exact ⟨prefetching (at' .C), h, fs, by decide +kernel, sound_of (by decide +kernel), entries_of (by decide +kernel), by rw [b]; decide,
    by rw [b]; exact h1, by rw [b]; exact h2, h3, h4, h5, h6⟩

/-! ### Witnesses: host, firmware, the step -/

/-- A host access waits. -/
def waiting (i : Instr) (ps : Nat) (s : State) : State := { s with hst := { s.hst with stalled := [i], pstate := ps } }

/-- A watched granule at IA 8 under a bound function. -/
def hostWatched (w : Watch) (rs : List (Fin 32 × Record)) : State := watching w rs (bound (at' .C))

theorem free_bound (w : Watch) (rs : List (Fin 32 × Record)) : Claims.FreeVf (hostWatched w rs) 1 :=
  ⟨.inl rfl, fun j hj => by cases hj⟩

theorem witness_HostAccesses_watches :
    (∀ e ∈ [(false, ([] : List (Fin 32 × Record))), (true, []), (false, [(0, ⟨5, 8, 1, 2, 1, 0, 0, none⟩)])],
      (hostWatched (watch8 1 e.1) e.2).hst.pstate ≠ 2 ∧ (hostWatched (watch8 1 e.1) e.2).hostIa 1 8 4 .wr = some 8 ∧
      (hostWatched (watch8 1 e.1) e.2).anyDown 8 4 = false ∧ good ((hostWatched (watch8 1 e.1) e.2).confirm 8 true) = true ∧
      (hostWatched (watch8 1 e.1) e.2).isStepped 8 = false ∧ (hostWatched (watch8 1 e.1) e.2).sch.watches = [(5, watch8 1 e.1)] ∧
      (∀ i < 8, (hostWatched (watch8 1 e.1) e.2).rowAt (8 / 8 * 8 + i) = none) ∧ (hostWatched (watch8 1 e.1) e.2).hm.found = [] ∧
      (watch8 1 e.1).armed = true ∧ (watch8 1 e.1).base ≤ 8 ∧ 8 < (watch8 1 e.1).base + (watch8 1 e.1).len ∧
      Claims.patched ((hostWatched (watch8 1 e.1) e.2).homeBytes 8 8) 0 [0, 0, 0, 0] = (hostWatched (watch8 1 e.1) e.2).homeBytes 8 8 ∧
      Claims.patched ((hostWatched (watch8 1 e.1) e.2).homeBytes 8 8) 0 [1, 0, 0, 0] ≠ (hostWatched (watch8 1 e.1) e.2).homeBytes 8 8 ∧
      (Claims.pendingFor (hostWatched (watch8 1 e.1) e.2) 5 (watch8 1 e.1) 8).isSome = !e.2.isEmpty) ∧
    Claims.Sound (hostWatched (watch8 1 false) []) :=
  ⟨by decide +kernel, sound_of (by decide +kernel)⟩

theorem witness_HostAccesses :
    (Claims.FreeVf (bound (at' .C)) 1 ∧ (bound (at' .C)).hst.pstate ≠ 2 ∧ (bound (at' .C)).hostIa 1 (2 ^ 30 - 8) 8 .rd = some (2 ^ 30 - 8) ∧
      (bound (at' .C)).anyDown (2 ^ 30 - 8) 8 = false ∧ (bound (at' .C)).confirmAll false (2 ^ 30 - 8) 8 = .ok () ∧ Claims.Sound (bound (at' .C)) ∧
      (bound (at' .C)).hostIa 1 (2 ^ 30) 1 .rd = none ∧ (at' .C).hostIa 1 0 8 .rd = none ∧ ∀ e ∈ (bound (at' .C)).hst.vfs, e.2.evlog = 0) ∧
    ((bound (at' .C)).hostIa 1 8 [(1 : Byte), 2, 3, 4].length .wr = some 8 ∧ (∃ h, (bound (at' .C)).confirm 8 true = .ok h) ∧
      (bound (at' .C)).isStepped 8 = false ∧ (bound (at' .C)).sch.watches = [] ∧ (∀ i < 4, (bound (at' .C)).rowAt (8 + i) = none) ∧ (bound (at' .C)).hm.found = [] ∧
      (steppedPages (bound (at' .C))).confirmAll true 8 4 = .ok () ∧ (steppedPages (bound (at' .C))).isStepped 8 = true) ∧
    (∃ s : State, (∀ j ∈ s.hst.stalled, s.hostReady j = false) ∧ s.hostReady (.hostRead 1 0 8) = false ∧
      ∃ j ∈ s.hst.stalled, hostVf j = some 1) ∧
    ((bound (at' .C)).vf 1).tail ≠ 65 ∧ ((bound (at' .C)).vf 1).part ≠ none ∧ ((bound (at' .C)).vf 2).part = none ∧
    ((8184 : BitVec 14).toNat ≤ 0x2010 + 7 ∧ 0x2010 + 7 < (8184 : BitVec 14).toNat + (List.replicate 40 (0 : Byte)).length) := by
  refine ⟨⟨?_, by decide +kernel, by decide +kernel, by decide +kernel, ok_is (by decide +kernel), sound_of (by decide +kernel), by decide +kernel,
      by decide +kernel, by decide +kernel⟩,
    ⟨by decide +kernel, hit_of (by decide +kernel), by decide +kernel, rfl, by decide +kernel, rfl, ok_is (by decide +kernel), by decide +kernel⟩,
    ⟨waiting (.hostRead 1 0 8) 2 (bound State.reset), ?_, by decide +kernel, _, .head _, rfl⟩, by decide +kernel, by decide +kernel, by decide +kernel,
    by decide +kernel⟩
  · exact ⟨by decide +kernel, fun j hj => by cases hj⟩
  · intro j hj
    have : j = .hostRead 1 0 8 := by simpa [waiting] using hj
    subst this
    decide +kernel

/-- A command and its entry in the firmware's queue; a function of partition 0. -/
def fcmd (vf : Fin 1024) (a0 a1 a2 a3 a4 a5 : Nat) : FwCmd := ⟨vf, 7, false, word a0, word a1, word a2, word a3, word a4, word a5⟩

def fw (i : Instr) (c : FwCmd) (s : State) : State := { s with hst := { s.hst with fwq := [⟨some i, c, word (4 * 2 ^ 44), 4, none⟩] } }

theorem turn_of {s : State} {i : Instr} {c : FwCmd} (h : (BitVec.ofNat 32 (s.vf c.vf).cqcount - (s.vf c.vf).cqhead == BitVec.ofNat 32 (2 ^ 4)) = false) :
    ∃ e, Claims.FwTurn (fw i c s) i c e := by
  refine ⟨⟨some i, c, word (4 * 2 ^ 44), 4, none⟩, ?_, rfl, h⟩
  simp [State.fwHead, fw]

/-- Firmware reads an argument, as a Bool. -/
def fwMem (s : State) (p : Option (Fin 32)) (ia : Word) (n : Nat) : Bool :=
  decide (ia.toNat < 2 ^ 52) && decide (ia.toNat % 2 ^ 44 + n ≤ 2 ^ 44) && !s.anyDown ia.toNat n &&
    (iaTier ia.toNat == 4 || (iaTier ia.toNat ≤ 3 && (match p with | some q => iaPart ia.toNat == q | none => true) &&
      (List.range n).all fun i => (lookup s.hm.ptes (ia.toNat + i)).isSome)) &&
    (List.range n).all fun i => (lookup s.hm.ptes (ia.toNat + i)).all fun h => !ptePsn h.pte

theorem fwMem_of {s : State} {p : Option (Fin 32)} {ia : Word} {n : Nat} (h : fwMem s p ia n = true) : Claims.FwMem s p ia n := by
  simp only [fwMem, Bool.and_eq_true, decide_eq_true_eq, Bool.not_eq_true', Bool.or_eq_true, beq_iff_eq, List.all_eq_true, List.mem_range,
    Option.isSome_iff_ne_none] at h
  obtain ⟨⟨⟨⟨h1, h2⟩, h3⟩, h4⟩, h5⟩ := h
  refine ⟨h1, h2, h3, h4.imp id fun h => ⟨h.1.1, ?_, h.2⟩, fun i hi k hk => ?_⟩
  · rintro q rfl; simpa using h.1.2
  · have := h5 i hi; simpa [hk] using this

/-- Partition 1 exists; function 1 is bound to it. -/
def part1 (s : State) : State := s.setPart 1 { s.part 1 with live := true, clusters := 2, quotas := Vector.replicate 6 (2 ^ 40) }

theorem lookup_nil (ia : Nat) : lookup [] ia = none := by
  unfold lookup
  cases homeOf ia with
  | none => rfl
  | some h => simp [hitOf, sget, pteP, Word.bit]

theorem fwMem_image : Claims.FwMem State.reset none (word (4 * 2 ^ 44)) imgLen :=
  ⟨by decide, by decide, rfl, Or.inl (by decide), fun i _ h e => by rw [show State.reset.hm.ptes = [] from rfl, lookup_nil] at e; cases e⟩

theorem parts_of {s : State} {g : Fin 16} (h : (s.participants g).isEmpty = false) : s.participants g ≠ [] := by
  intro e; simp [e] at h

theorem pend_of {b : Bool} (h : b = false) : b = false := h

theorem look_of {s : State} {c a : Nat} (h : (s.pteOf c a).isSome = true) : ∃ x, s.pteOf c a = some x := Option.isSome_iff_exists.mp h

theorem witness_FirmwareCommands :
    (∃ e, Claims.FwTurn (fw (.identify (fcmd 0 (4 * 2 ^ 44) 0 0 0 0 0)) (fcmd 0 (4 * 2 ^ 44) 0 0 0 0 0) (at' .C)) (.identify (fcmd 0 (4 * 2 ^ 44) 0 0 0 0 0))
      (fcmd 0 (4 * 2 ^ 44) 0 0 0 0 0) e) ∧
    (at' .C).fwHead 0 = none ∧ (∃ c : FwCmd, c.vf ≠ 0 ∧ fwInstr 0x60 c = some (.powerCap c)) ∧
    (Claims.ByAny (at' .C) (fcmd 0 (4 * 2 ^ 44) 0 0 0 0 0) [0] none ∧ Claims.FwOut (at' .C) none (word (4 * 2 ^ 44)) 64) ∧
    (Claims.ByAny (bound (at' .C)) (fcmd 1 0 0 0 0 0 0) [0] (some 0) ∧ Claims.FwMem (bound (at' .C)) (some 0) 0 48) ∧
    (Claims.ByAdmin (fcmd 0 8 16 0 0 0 0) [0] ∧ Claims.FwMem (at' .C) none (word (5 * 2 ^ 44 - 16)) 16) ∧
    (((at' .C).part 1).live = false ∧ inTiers 1 (word (2 ^ 47)) 0 2 = true ∧ ((at' .C).part 0).live = true ∧
      (∀ q ∈ (at' .C).sch.parts.toList, q.live = true → q.clusters &&& 2 = 0) ∧ (at' .C).pqTaken 1 = false ∧ (at' .C).devqsUsed = 0 ∧
      (∃ q ∈ (at' .C).sch.parts.toList, q.live = true ∧ q.clusters &&& 1 ≠ 0)) ∧
    (((part1 (at' .C)).vf 1023).part = none ∧ Claims.FwMem (part1 (at' .C)) none (word (4 * 2 ^ 44)) 256 ∧
      vget ((part1 (at' .C)).part 1).charges 5 0 + 2 ^ 16 ≤ vget ((part1 (at' .C)).part 1).quotas 5 0 ∧
      vget ((at' .C).part 0).quotas 5 0 < vget ((at' .C).part 0).charges 5 0 + 2 ^ 4) ∧
    ((∃ p, ((bound (at' .C)).vf 1).part = some p) ∧ ((bound (at' .C)).vf 1).qhead ≠ ((bound (at' .C)).vf 1).qtail) ∧
    ((at' .C).participants 2 = [] ∧ (at' .C).fab.groups[2].joined = false ∧ (stepping [] 0 [] (at' .C)).fab.groups[2].joined = true ∧
      (inGroup 0 none (at' .C)).participants 2 ≠ [] ∧ Claims.FwMem (at' .C) none (word (4 * 2 ^ 44 + 2)) 4 ∧ Claims.Sound (at' .C)) ∧
    Claims.FwMem State.reset none (word (4 * 2 ^ 44)) imgLen ∧
    ((at' .C).hst.crit = none ∧ (at' .C).hst.stalled = [] ∧ 600 ≤ 600 ∧ ¬(600 ≤ 599) ∧ 1600 ≤ 1600 ∧ ¬(1601 ≤ 1600)) := by
  refine ⟨turn_of (by decide +kernel), rfl, ⟨fcmd 1 0 0 0 0 0 0, by decide +kernel, rfl⟩, ⟨⟨by simp, Or.inl ⟨rfl, rfl, rfl⟩⟩, ?_⟩,
    ⟨⟨by simp, Or.inr (Or.inr ⟨by decide, rfl, by decide, by decide +kernel⟩)⟩, fwMem_of (by decide +kernel)⟩,
    ⟨⟨rfl, by simp⟩, fwMem_of (by decide +kernel)⟩, by decide +kernel,
    ⟨by decide +kernel, fwMem_of (by decide +kernel), by decide +kernel, by decide +kernel⟩, ⟨⟨0, by decide +kernel⟩, by decide +kernel⟩,
    ⟨by rfl, by decide +kernel, by decide +kernel, parts_of (by decide +kernel), fwMem_of (by decide +kernel), sound_of (by decide +kernel)⟩,
    fwMem_image, by decide +kernel⟩
  exact ⟨by decide +kernel, by decide +kernel, by decide +kernel, fun q hq => by cases hq⟩

/-- Partition 1 with a page of tier 4. -/
def part1Page (s : State) : State :=
  homes (fun h => { h with ptes := sput h.ptes (pteKey 16 1 0 (2 ^ 47 + 4 * 2 ^ 44)) 0xC000000000000000 }) (part1 s)

/-- A frame of HBM stack 1 is retired. -/
def retired (a : Nat) (s : State) : State := homes (fun h => { h with quar := [(1, a, 4096)] }) s

theorem witness_FirmwareCommands_rooms :
    (Claims.ByAny (part1Page (at' .C)) (fcmd 0 (2 ^ 47 + 4 * 2 ^ 44) 0 0 0 0 1) [0] (some 1) ∧
      Claims.FwOut (part1Page (at' .C)) (some 1) (word (2 ^ 47 + 4 * 2 ^ 44)) 64) ∧
    (at' .C).poolRoom 2 = true ∧ (retired (48 * 2 ^ 30 - 4096) (at' .C)).poolRoom 2 = false ∧
    (∃ s : State, s.hst.stalled ≠ [] ∧ s.hst.stalled.length ≤ s.hst.slept) := by
  refine ⟨⟨⟨by simp, Or.inr (Or.inl ⟨rfl, by decide, 1, rfl, rfl, rfl⟩)⟩, by decide, by decide, by decide, ?_⟩, by decide +kernel, by decide +kernel,
    { at' .C with hst.stalled := [.hostRead 1 0 8], hst.slept := 1 }, by decide, by decide⟩
  intro q hq
  cases hq
  refine ⟨rfl, fun i hi => ?_⟩
  have : ∀ i < 64, ((lookup (part1Page (at' .C)).hm.ptes ((word (2 ^ 47 + 4 * 2 ^ 44)).toNat + i)).any fun h => !ptePsn h.pte) = true := by decide +kernel
  obtain ⟨h, e, hp⟩ := Option.any_eq_true _ _ |>.mp (this i hi)
  exact ⟨h, e, by simpa using hp⟩

/-- An export of a page, and its revocation. -/
def exported (s : State) : State := stepping [] 0 [] s

/-- A page of tier 4, poisoned. -/
def hostPage (psn : Bool) (s : State) : State :=
  homes (fun h => { h with ptes := sput h.ptes (pteKey 16 0 0 (4 * 2 ^ 44)) (0xC000000000000000 ||| if psn then 1 <<< 52 else 0) }) s

/-- A table descriptor (R72): 8 rows of 64 bytes at IA 0, no hot area. -/
def desc : List Nat := [0, 8, 64 + 16 * 2 ^ 32, 1, 0, 0, 0xFF00, 0]

theorem witness_MemoryCommands :
    (Claims.ByPart (at' .C) (fcmd 0 (4 * 2 ^ 44) 16 2 0 0 0) [0] 0 ∧ Claims.ByPart (bound (at' .C)) (fcmd 1 0 0 1 0 0 0) [0] 0 ∧
      Claims.PagesOk 0 (word (4 * 2 ^ 44)) 0 2 ∧ (∀ e ∈ (at' .C).hm.ptes, overlap (pteAt e.1 e.2).base (pageSize (pteAt e.1 e.2).code) (4 * 2 ^ 44) 8192 = false) ∧
      ((at' .C).mapPages 0 0 (mapPte 0 16) 0 [4 * 2 ^ 44, 4 * 2 ^ 44 + 4096]).isSome = true ∧ Claims.PagesOk 0 0 9 1 ∧
      (∃ e ∈ (at' .C).hm.ptes, (pteAt e.1 e.2).part = 0 ∧ pteP e.2 = true ∧ overlap (pteAt e.1 e.2).base (pageSize (pteAt e.1 e.2).code) 0 4096 = true)) ∧
    ((hostPage false (at' .C)).pagesPresent ⟨0, 4 * 2 ^ 44, 1⟩ = true ∧ (hostPage false (at' .C)).steppedPage ⟨0, 4 * 2 ^ 44, 1⟩ = false ∧
      (hostPage false (at' .C)).pendingIn (4 * 2 ^ 44) 4096 = false ∧ (at' .C).pagesPresent ⟨0, 4 * 2 ^ 44, 1⟩ = false ∧
      (steppedPages (at' .C)).steppedPage ⟨9, 0, 1⟩ = true ∧ (stored 8 [1] (at' .C)).pendingIn 0 4096 = true) ∧
    (∃ h, (at' .C).pteOf 9 0 = some h) ∧ (at' .C).pteOf 8 0 = none ∧
    (∃ h, lookup (hostPage true (at' .C)).hm.ptes (4 * 2 ^ 44) = some h ∧ ptePsn h.pte = true ∧ h.base = 4 * 2 ^ 44 ∧
      ((hostPage true (at' .C)).dropCopies h).freshFrames h ≠ none ∧ (hostPage true (at' .C)).pendingIn h.base h.size = false) ∧ inTiers 0 (word (4 * 2 ^ 44)) 0 4 = true ∧
    (∃ h, lookup (hostPage false (at' .C)).hm.ptes (4 * 2 ^ 44) = some h ∧ ptePsn h.pte = false) ∧ lookup (at' .C).hm.ptes (4 * 2 ^ 44) = none ∧
    (let s := code desc (at' .C)
     Claims.FwMem s (some 0) 0 64 ∧ Claims.Sound s ∧ descClean (s.hostBytes 0 64) = true ∧ (Machine.tableOf (s.hostBytes 0 64)).ok 0 = true ∧
       (Machine.tableOf (s.hostBytes 0 64)).areaBytes = 0 ∧ dget (s.part 0).tables 4095 = none ∧ (s.hotAssign 0 0).isSome = true) ∧
    (let s := code [8] (at' .C)
     descClean (s.hostBytes 0 64) = true ∧ (Machine.tableOf (s.hostBytes 0 64)).ok 0 = false) ∧
    ((∃ d, dget ((hotCopy true false false (at' .C)).part 0).tables 1 = some d) ∧
      ((hotCopy true false false (at' .C)).hm.hot.filter fun h => h.part = 0 && h.table = 1 && h.dirty && !h.lost).length = 1 ∧
        (∀ h ∈ (hotCopy true false false (at' .C)).hm.hot, ∀ d, dget ((hotCopy true false false (at' .C)).part 0).tables 1 = some d →
          (hotCopy true false false (at' .C)).homeDown (d.rowIa h.row) = false)) ∧
    ((exported (at' .C)).fab.groups[2].joined = true ∧ dget (exported (at' .C)).fab.regions 63 = none ∧
      (∃ r, dget (exported (at' .C)).fab.regions 4 = some r ∧ r.part = 0) ∧ inTiers 0 0 0 0 = true ∧
      (∀ i < 1, lookup (exported (at' .C)).hm.ptes (8192 + 4096 * i) ≠ none) ∧
      (∀ r ∈ (exported (at' .C)).fab.regions, overlap r.2.base r.2.bytes 8192 4096 = false)) := by
  refine ⟨⟨⟨by simp, by intro _; exact ⟨rfl, by decide +kernel⟩, by intro h; exact absurd rfl h⟩,
      ⟨by simp, fun h => absurd h (by decide), by intro _; exact ⟨by decide +kernel, rfl⟩⟩, ⟨by decide +kernel, by decide +kernel, by decide +kernel, by decide +kernel, by decide +kernel, by decide +kernel⟩,
      by decide +kernel, by decide +kernel, ⟨by decide +kernel, by decide +kernel, by decide +kernel, by decide +kernel, by decide +kernel, by decide +kernel⟩, by decide +kernel⟩,
    ⟨by decide +kernel, by decide +kernel, pend_of (by decide +kernel), by decide +kernel, by decide +kernel, by decide +kernel⟩, look_of (by decide +kernel), by decide +kernel,
    ⟨_, by rfl, by decide +kernel, by decide +kernel, by decide +kernel, by decide +kernel⟩, by decide +kernel, ⟨_, by rfl, by decide +kernel⟩, by decide +kernel,
    ⟨fwMem_of (by decide +kernel), sound_of (by decide +kernel), by decide +kernel, by decide +kernel, by decide +kernel, by decide +kernel, by decide +kernel⟩,
    ⟨by decide +kernel, by decide +kernel⟩, ⟨⟨_, by rfl⟩, by decide +kernel, ?_⟩,
    ⟨by decide +kernel, by decide +kernel, ⟨_, by rfl, rfl⟩, by decide +kernel, by decide +kernel, by decide +kernel⟩⟩
  intro h hh d hd
  have : (hotCopy true false false (at' .C)).hm.out = 0 := rfl
  simp [State.homeDown, this]

/-- An export that its command is still making. -/
def exporting (s : State) : State :=
  let c : FwCmd := fcmd 0 0 4096 (4 + 64 * 2) 0 0 0
  { exported s with
    fab.regions := [(4, ⟨0, 0, 4096, 2, 0, 4, 4, none⟩)]
    hst := { s.hst with fwq := [⟨some (.exportRegion c), c, word (4 * 2 ^ 44), 4, some 3⟩] } }

theorem witness_MemoryCommands_exports :
    ((exporting (at' .C)).exportingIn 0 4096 = true ∧ (exporting (at' .C)).exportingIn 4096 4096 = false ∧
      (at' .C).exportingIn 0 4096 = false ∧ (exported (at' .C)).exportingIn 0 4096 = false) ∧
    (∃ r, dget (exporting (at' .C)).fab.regions 4 = some r ∧ r.part = 0 ∧ (exporting (at' .C)).exporting 4 r = true) ∧
    (∃ r, dget (exported (at' .C)).fab.regions 4 = some r ∧ (exported (at' .C)).exporting 4 r = false) ∧
    (∃ d e, Claims.FwTurn (exporting (at' .C)) (.exportRegion d) d e ∧ e.begun = some 3) ∧
    ((at' .C).hm.uncoded = [] ∧ 0 ∉ (at' .C).hm.areaPages ∧ (∃ s : State, 0 ∈ s.hm.areaPages) ∧
      (∀ h, (at' .C).pteOf 9 0 = some h → h.migrated = false)) ∧
    (∃ h, lookup (hostPage true (at' .C)).hm.ptes (4 * 2 ^ 44) = some h ∧ ptePsn h.pte = true ∧ (hostPage true (at' .C)).pageOut h = false ∧
      (homes (fun m => { m with out := 0x10000 }) (hostPage true (at' .C))).pageOut h = true) ∧
    ((∃ d, dget ((hotCopy true false false (at' .C)).part 0).tables 1 = some d ∧
        (hotCopy true false false (at' .C)).pendingIn d.hotArea d.areaSpan = false ∧
        (stored 0 [1] (hotCopy true false false (at' .C))).pendingIn d.hotArea d.areaSpan = true) ∧
      (∃ d, dget ((hotCopy true false false (at' .C)).part 0).tables 1 = some d ∧
        ∃ h ∈ (hotCopy true false false (at' .C)).hm.hot, h.dirty = true ∧
          (homes (fun m => { m with out := 0xFFFF }) (hotCopy true false false (at' .C))).homeDown (d.rowIa h.row) = true)) := by
  refine ⟨⟨by decide +kernel, by decide +kernel, by decide +kernel, by decide +kernel⟩, ⟨_, rfl, rfl, by decide +kernel⟩, ⟨_, rfl, by decide +kernel⟩,
    ⟨fcmd 0 0 4096 (4 + 64 * 2) 0 0 0, ⟨some (.exportRegion (fcmd 0 0 4096 (4 + 64 * 2) 0 0 0)), fcmd 0 0 4096 (4 + 64 * 2) 0 0 0, word (4 * 2 ^ 44), 4, some 3⟩,
      ⟨rfl, rfl, by decide +kernel⟩, rfl⟩, ⟨by decide +kernel, by decide +kernel, ⟨homes (fun h => { h with areaPages := [0] }) (at' .C), by decide⟩, ?_⟩,
    ⟨_, by rfl, by decide +kernel, by decide +kernel, by decide +kernel⟩,
    ⟨⟨_, rfl, by decide +kernel, by decide +kernel⟩, ⟨_, rfl, _, .head _, rfl, by decide +kernel⟩⟩⟩
  intro h e
  have : ((at' .C).pteOf 9 0).all (fun h => !h.migrated) = true := by decide +kernel
  simpa [e] using this

/-- Words at VA 0, from which C of core 0 is about to issue. -/
def atWord (ws : List Nat) : State := code ws { State.reset.placed .C with agenda := [] }

theorem next_of {s : State} (h : (match step s with | .next _ => true | _ => false) = true) : ∃ t, step s = .next t := by
  cases e : step s <;> simp_all

theorem standing_next {s : State} {m : Move} (ha : s.agenda = []) (h : s.standing.head? = some m) :
    Claims.NextMove s m { s with agenda := s.standing.tail } := by
  refine ⟨s.standing.tail, Or.inr ⟨ha, ?_⟩, rfl⟩
  cases e : s.standing with
  | nil => simp [e] at h
  | cons a l => simp_all

theorem witness_StepRunsDecoded :
    (∃ s u : State, Claims.NextMove s (.issue 0 .C) u ∧ s.agenda = [] ∧ ({ u with cur := ⟨0, .C, 0, 8⟩ } : State).mayIssue 0 .C = true) ∧
    (∃ s u : State, Claims.NextMove s (.issue 0 .X) u ∧ ∃ rest, s.agenda = .issue 0 .X :: rest) ∧
    (∃ s u : State, Claims.NextMove s (.issue 0 .C) u ∧ ({ u with cur := ⟨0, .C, 0, 8⟩ } : State).mayIssue 0 .C = false) ∧
    (∃ s u : State, Claims.NextMove s (.issue 0 .C) u ∧ ({ u with cur := ⟨0, .C, 0, 8⟩ } : State).mayIssue 0 .C = true ∧ u.c.held = true) ∧
    (State.reset.agenda = [] ∧ State.reset.standing = []) ∧
    (((at' .C).core 0).card ≠ 0 ∧ ((at' .C).seq 0 .C).done = false ∧ ((at' .C).seq 0 .C).ctxStop = false ∧
      0 < ((flying [cpy 8 0 8] (at' .L)).seq 0 .L).cmds.length ∧ ((stored 0 [] (at' .S)).seq 0 .S).stores ≠ []) ∧
    (∃ (s : State) (w : Word) (u : State), (match s.fetchWord 0 .C 0 with | .ok r => decide (r.1 = w) | .error _ => false) = true ∧
      decodeLen w = .ok 8 ∧ decode w [] = .ok ⟨some ⟨false, 9, 0⟩, 8, .add (.g 18) (.g 18) (.imm 1)⟩ ∧ guardOn u.me (some ⟨false, 9, 0⟩) = false ∧
      guardOn u.me (some ⟨true, 9, 0⟩) = true ∧ (∀ r ∈ (Instr.add (.g 18) (.g 18) (.imm 1)).regs, u.me.waitsFor r = false)) ∧
    (∃ (s : State), (match s.fetchWord 0 .C (2 ^ 30) with | .ok _ => false | .error _ => true) = true) ∧
    (∃ e, decodeLen 0 = .error e) ∧
    (∃ (s : State) (w : Word), s.me.repeated = some (w :: []) ∧ s.mayIssue 0 .C = true) ∧
    (∃ s : State, s.agenda = .occur .criticalTemperature :: [] ∧ encodeFields .criticalTemperature = none) ∧
    (∃ i, encodeFields .nop = some i) ∧
    (∃ s : State, s.agenda = .firmware 0 :: [] ∧ ∃ e, s.fwHead 0 = some e ∧ e.instr = some (.powerCap e.cmd) ∧ encodeFields (.powerCap e.cmd) = none) := by
  refine ⟨⟨{ at' .C with agenda := [] }, _, standing_next rfl (by decide +kernel), rfl, by decide +kernel⟩, ⟨at' .X, _, ⟨_, Or.inl rfl, rfl⟩, _, rfl⟩,
    ⟨idle (at' .C), _, ⟨_, Or.inl rfl, rfl⟩, by decide +kernel⟩,
    ⟨(at' .C).setC { (at' .C).c with held := true }, _, ⟨_, Or.inl rfl, rfl⟩, by decide +kernel, by decide +kernel⟩, ⟨rfl, by decide +kernel⟩,
    ⟨by decide +kernel, by decide +kernel, by decide +kernel, by decide +kernel, by decide +kernel⟩,
    ⟨code [0x0000202503F49210] (at' .C), 0x0000202503F49210, at' .C, by decide +kernel, rfl, rfl, by decide +kernel, by decide +kernel, by decide +kernel⟩,
    ⟨at' .C, by decide +kernel⟩, ⟨_, rfl⟩,
    ⟨(at' .C).setMe { (at' .C).me with repc := 2, rep := some ⟨0, 2, [0x10]⟩ }, 0x10, by rfl, by decide +kernel⟩, ⟨{ at' .C with agenda := [.occur .criticalTemperature] }, rfl, rfl⟩, ⟨_, rfl⟩,
    ⟨fw (.powerCap (fcmd 0 600 0 0 0 0 0)) (fcmd 0 600 0 0 0 0 0) { at' .C with agenda := [.firmware 0] }, rfl, _, rfl, rfl, rfl⟩⟩

theorem witness_DecodeInvertsEncode :
    (Instr.add (.g 18) (.g 18) (.imm 262143)).WellFormed ∧ (Instr.cpy true ⟨0, 0, 0, 3 <<< 60⟩).WellFormed ∧
    decode 0x0000202503F49210 [7] = .ok ⟨some ⟨false, 9, 0⟩, 8, .add (.g 18) (.g 18) (.imm 1)⟩ := by
  refine ⟨⟨?_, ?_⟩, ⟨?_, ?_⟩, rfl⟩ <;> decide

theorem witness_StepKeepsMemory : Claims.MemInv State.reset ∧ ∃ t, step (atWord [0x0000202503F49210]) = .next t := by
  refine ⟨by unfold Claims.MemInv; decide +kernel, ?_⟩
  exact next_of (by decide +kernel)

/-! ### CTXSV stores its image -/

theorem leBytes_length (n v : Nat) : (leBytes n v).length = n := by
  induction n generalizing v <;> simp_all [leBytes]

theorem flatMap_length {α : Type} (l : List α) (f : α → List Byte) (k : Nat) (h : ∀ x, (f x).length = k) : (l.flatMap f).length = l.length * k := by
  induction l with
  | nil => simp
  | cons a t ih => simp [List.flatMap_cons, h, ih, Nat.succ_mul, Nat.add_comm]

theorem bslot_length (b : BSlot) : b.bytes.length = 0x800 + 2048 + 6 * 16384 := by
  have h1 : (leBytes 8 b.fmt.code.toNat).length = 8 := leBytes_length _ _
  simp only [BSlot.bytes, List.length_append, zeroTo, zeros, List.length_replicate, h1]
  rw [flatMap_length _ _ 2 fun _ => leBytes_length _ _,
    flatMap_length _ _ 16384 fun k => by rw [flatMap_length _ _ 64 fun _ => leBytes_length _ _]; simp [upTo]]
  simp [upTo]

theorem upTo_length (n : Nat) : (upTo n).length = n := List.length_range

theorem zeroTo_length (n : Nat) (l : List Byte) (h : l.length = 0) : (zeroTo n l).length = n := by simp [zeroTo, zeros, h]

theorem head_length (p : Fin 32) (h : Handle) (d : Nat) (x : SavedCore) (n : Nat) : (headBytes p h d x n).length = 64 := by
  simp [headBytes, leBytes_length, zeros]

theorem sums {a b c d e f g h : List Byte} (ha : a.length = 0xFC0) (hb : b.length = 0x8000) (hc : c.length = 0x9000) (hd : d.length = 0x4000)
    (he : e.length = 2 * (0x800 + 2048 + 6 * 16384)) (hf : f.length = 1024 * 16) (hg : g.length = 262144 * 4) (hh : h.length = 2097152) :
    (a ++ b ++ c ++ d ++ e ++ f ++ g ++ h).length = 0x34C000 - 64 := by
  simp only [List.length_append, ha, hb, hc, hd, he, hf, hg, hh]

theorem image_length (p : Fin 32) (h : Handle) (d : Nat) (x : SavedCore)
    (h1 : (coreBytes x.core).length = 0xFC0) (h2 : (allSeqs.flatMap fun q => zeroTo 0x2000 (seqBytes q (x.core.seq q) x.core.c)).length = 0x8000)
    (h3 : (x.core.queues.toList.flatMap fun q => q.msgs.flatMap w8).length = 0) (h4 : x.core.x.bytes.length = 0x4000) :
    (imageBytes p h d x).length = 0x34C000 := by
  have hb : (x.core.bslots.toList.flatMap BSlot.bytes).length = 2 * (0x800 + 2048 + 6 * 16384) := by
    rw [flatMap_length _ _ _ bslot_length, Vector.length_toList]
  have hs : ((upTo 1024).flatMap fun p => ((upTo 3).flatMap fun r => leBytes 4 (sget 0 x.side (3 * p + r)).toNat) ++ zeros 4).length = 1024 * 16 := by
    rw [flatMap_length _ _ 16 fun _ => ?_, upTo_length]
    rw [List.length_append, flatMap_length _ _ 4 fun _ => leBytes_length _ _, upTo_length, zeros, List.length_replicate]
  have ha : ((upTo 262144).flatMap fun w => leBytes 4 (sget 0 x.acc w).toNat).length = 262144 * 4 := by
    rw [flatMap_length _ _ 4 fun _ => leBytes_length _ _, upTo_length]
  have hl : ((upTo 2097152).map fun o => Memory.get x.lm o).length = 2097152 := by rw [List.length_map, upTo_length]
  have hk : (bodyBytes x).length = 0x34C000 - 64 := sums h1 h2 (zeroTo_length _ _ h3) h4 hb hs ha hl
  rw [imageBytes, List.length_append, head_length, hk]

theorem pieces_lm (xs : List (Req × Place × List Byte)) (h : ∀ x ∈ xs, ∃ c o, x.2.1 = .lm c o) (s0 s : State) :
    s0.askPieces s xs = .ok s ∧ ∀ n, ∃ t, s0.putPieces s n xs = .ok t := by
  induction xs generalizing s with
  | nil => exact ⟨rfl, fun _ => ⟨s, rfl⟩⟩
  | cons x t ih =>
    obtain ⟨r, p, bs⟩ := x
    obtain ⟨c, o, rfl⟩ : ∃ c o, p = .lm c o := h _ (.head _)
    have ih := ih fun y hy => h y (.tail _ hy)
    exact ⟨by simpa [State.askPieces, State.askStore] using (ih s).1, fun n => by simpa [State.putPieces, State.putPiece] using (ih _).2 n⟩

theorem writePieces_lm (c : CoreId) (fuel va off : Nat) (bs : List Byte) : ∀ x ∈ writePieces (.lm c off) va fuel bs, ∃ c o, x.2.1 = .lm c o := by
  induction fuel generalizing va off bs with
  | zero => simp [writePieces]
  | succ n ih =>
    cases bs with
    | nil => simp [writePieces]
    | cons b t =>
      intro x hx
      simp only [writePieces, List.mem_cons] at hx
      rcases hx with rfl | hx
      · exact ⟨c, off, rfl⟩
      · exact ih _ _ _ x hx

theorem places_of {s : State} {r : Req} {p : Place} (h : (match s.places .store false 4096 [r] with
    | .ok [(a, b)] => decide (a.lane = r.lane) && decide (a.va = r.va) && decide (a.n = r.n) && decide (b = p)
    | _ => false) = true) : s.places .store false 4096 [r] = .ok [(r, p)] := by
  split at h
  · rename_i a b e
    simp only [Bool.and_eq_true, decide_eq_true_eq] at h
    obtain ⟨⟨⟨h1, h2⟩, h3⟩, h4⟩ := h
    rw [e, h4]
    congr
    cases a; cases r; simp_all
  · simp at h

/-- C in its handler, with VA 0 at the local memory of core 0 (R66). -/
def window : State := super (toIa (5 * 2 ^ 44) (at' .C))

theorem saved_of {s0 s : State} {bs : List Byte} (hl : bs.length = 0x34C000)
    (hp : s.places .store false 4096 [⟨0, 0, 0x34C000⟩] = .ok [(⟨0, 0, 0x34C000⟩, .lm 0 0)])
    (hc : (!s.me.loaded || !s.ownAt .dev) = false) :
    s0.storeAsk s 0 4096 bs = .ok (.lm 0 0, s) ∧ ∀ u, ∃ w, s0.storePut u (.lm 0 0) 0 bs = .ok w := by
  have hw := (pieces_lm _ (writePieces_lm 0 (0x34C000 / 64 + 2) 0 0 bs) s0 s).1
  refine ⟨by simp only [State.storeAsk, hl, hp, bind, Except.bind, pure, Except.pure, hc, Bool.false_eq_true, if_false, hw], fun u => ?_⟩
  obtain ⟨t, ht⟩ := (pieces_lm _ (writePieces_lm 0 (0x34C000 / 64 + 2) 0 0 bs) s0 u).2 0
  exact ⟨t, by simp only [State.storePut, hl, ht]⟩


theorem zeroTo_fits (n : Nat) (l : List Byte) (h : l.length ≤ n) : (zeroTo n l).length = n := by
  simp [zeroTo, zeros]; omega

theorem w8_length (w : Word) : (w8 w).length = 8 := leBytes_length _ _

theorem x_length (x : XState) (hm : x.masks = []) (hp : x.topk.pairs = []) : x.bytes.length = 0x4000 := by
  rw [XState.bytes, zeroTo_fits]
  simp only [List.length_append, hm, hp, List.reverse_nil, List.flatMap_nil, leBytes_length, w8_length, zeros, List.length_replicate,
    zeroTo_fits _ [] (Nat.zero_le _)]
  rw [flatMap_length _ _ 256 fun _ => leBytes_length _ _, flatMap_length _ _ 48 fun _ => by simp [leBytes_length, w8_length],
    flatMap_length _ _ 8 fun _ => w8_length _, flatMap_length _ _ 8 fun _ => w8_length _,
    flatMap_length _ _ 32 fun _ => by simp [leBytes_length, w8_length]]
  simp

theorem loop_length (e : LoopEntry) : e.bytes.length = 32 := by
  rw [LoopEntry.bytes]; split <;> simp [zeros, leBytes_length, w8_length]

theorem cstate_length (c : CState) : c.bytes.length = 8 * 8 + 8 + 9 * 4 := by
  rw [CState.bytes, List.length_append, List.length_append, flatMap_length _ _ 8 fun _ => w8_length _,
    flatMap_length _ _ 4 fun _ => leBytes_length _ _, leBytes_length]
  simp

theorem seq_length (q : SeqId) (x : Seq) (c : CState) (h : x.cmds = []) : (seqBytes q x c).length = 0x2000 := by
  have hu : (upTo 512).length = 512 := upTo_length _
  have hc : (if q = .C then c.bytes else []).length ≤ 108 := by split <;> simp [cstate_length]
  rw [seqBytes, List.length_append, flatMap_length _ _ 8 fun _ => w8_length _, hu, zeroTo_fits]
  simp only [List.length_append, h, List.flatMap_nil, w8_length, zeros, List.length_replicate, zeroTo_fits _ [] (Nat.zero_le _)]
  rw [flatMap_length _ _ 8 fun _ => w8_length _, flatMap_length _ _ 32 loop_length, flatMap_length _ _ 16 fun _ => leBytes_length _ _]
  simp only [List.length_drop, Vector.length_toList]
  omega

def saved : SavedCore := (window.setHere window.here.ctxStop).saveCore 0 (bareCard 1).ox (bareCard 1).oy

theorem saved_core : (coreBytes saved.core).length = 0xFC0 := by decide +kernel
theorem saved_cmds : (saved.core.seq .C).cmds = [] ∧ (saved.core.seq .L).cmds = [] ∧ (saved.core.seq .X).cmds = [] ∧ (saved.core.seq .S).cmds = [] :=
  ⟨by decide +kernel, by decide +kernel, by decide +kernel, by decide +kernel⟩
theorem saved_seqs : (allSeqs.flatMap fun q => zeroTo 0x2000 (seqBytes q (saved.core.seq q) saved.core.c)).length = 0x8000 := by
  obtain ⟨h1, h2, h3, h4⟩ := saved_cmds
  simp only [allSeqs, List.flatMap_cons, List.flatMap_nil, List.length_append, List.length_nil, zeroTo_fits 0x2000 _ (Nat.le_of_eq (seq_length _ _ _ h1)),
    zeroTo_fits 0x2000 _ (Nat.le_of_eq (seq_length _ _ _ h2)), zeroTo_fits 0x2000 _ (Nat.le_of_eq (seq_length _ _ _ h3)),
    zeroTo_fits 0x2000 _ (Nat.le_of_eq (seq_length _ _ _ h4))]
theorem saved_queues : (saved.core.queues.toList.flatMap fun q => q.msgs.flatMap w8).length = 0 := by decide +kernel
theorem saved_x : saved.core.x.bytes.length = 0x4000 := x_length _ rfl rfl
theorem window_drained : window.here.maySave = true := by decide +kernel
theorem window_places : (window.setHere window.here.ctxStop).places .store false 4096 [⟨0, 0, 0x34C000⟩] = .ok [(⟨0, 0, 0x34C000⟩, .lm 0 0)] :=
  places_of (by decide +kernel)
theorem window_own : (!(window.setHere window.here.ctxStop).me.loaded || !(window.setHere window.here.ctxStop).ownAt .dev) = false := by decide +kernel
theorem window_card : window.cardOn 0 = some (bareCard 1) := by rfl

theorem witness_ContextSaved : window.cur.sq = .C ∧ window.c.sup = true ∧ window.here.maySave = true ∧ window.c.image = none ∧
    ∃ k, window.cardOn 0 = some k ∧
      (let v := window.setHere window.here.ctxStop
       let img := imageBytes window.here.partNo window.here.card (window.depthOf 0) (v.saveCore 0 k.ox k.oy)
       ∃ pl w, window.storeAsk v 0 4096 img = .ok (pl, w) ∧ w.steppedAt pl img.length = false ∧
         ∃ s u y : State, s.cur.sq = .C ∧ s.c.sup = true ∧ s.readS (.g 1) = .ok (0, u) ∧ s.c.image = some (pl, 0, img) ∧
           s.storePut u pl 0 img = .ok y) :=
  have h := fun s0 => saved_of (s0 := s0) (image_length _ _ _ saved saved_core saved_seqs saved_queues saved_x) window_places window_own
  ⟨rfl, rfl, window_drained, rfl, bareCard 1, window_card, _, _, (h window).1, rfl,
    let s := window.setC { window.c with image := some (.lm 0 0, 0, imageBytes 0 1 0 saved) }
    have ⟨y, hy⟩ := (h s).2 s
    ⟨s, s, y, rfl, rfl, by rfl, rfl, hy⟩⟩

/-! ### CTXLD loads an image -/

theorem leBytes_zero (n : Nat) : leBytes n 0 = zeros n := by
  induction n <;> simp_all [leBytes, zeros, List.replicate_succ]

theorem leNat_zeros (n : Nat) : leNat (zeros n) = 0 := by
  induction n <;> simp_all [leNat, zeros, List.replicate_succ]

theorem wordAt_zeros (m off n : Nat) : wordAt (zeros m) off n = 0 := by
  rw [wordAt, zeros, List.drop_replicate, List.take_replicate]; exact leNat_zeros _

theorem wd_zeros (m off : Nat) : wd (zeros m) off = 0 := by rw [wd, wordAt_zeros]; rfl

theorem flatMap_zeros {α : Type} (l : List α) (f : α → List Byte) (k : Nat) (h : ∀ x ∈ l, f x = zeros k) : l.flatMap f = zeros (l.length * k) := by
  induction l with
  | nil => simp [zeros]
  | cons a t ih =>
    rw [List.flatMap_cons, h a (.head _), ih fun x m => h x (.tail _ m)]
    simp [zeros, Nat.succ_mul, Nat.add_comm]

theorem zeroTo_zeros {m n : Nat} (h : m ≤ n) : zeroTo n (zeros m) = zeros n := by
  simp [zeroTo, zeros]; omega

theorem sparseOf_zero {α : Type} [DecidableEq α] (z : α) (n : Nat) : (sparseOf z n fun _ => z) = [] := by simp [sparseOf]

theorem bits_zero (hi lo : Nat) : (0 : Word).bits hi lo = 0 := by simp [Word.bits]

theorem seqOf_zeros (m : Nat) : seqOf (zeros m) = seqOf [] := by
  rw [show ([] : List Byte) = zeros 0 from rfl]; simp only [seqOf, wd_zeros, wordAt_zeros]

theorem xOf_zeros (m : Nat) : xOf (zeros m) = xOf [] := by
  rw [show ([] : List Byte) = zeros 0 from rfl]; simp only [xOf, wd_zeros, wordAt_zeros]

theorem bslotOf_zeros (m : Nat) : bslotOf (zeros m) = bslotOf [] := by
  rw [show ([] : List Byte) = zeros 0 from rfl]; simp only [bslotOf, wordAt_zeros]

theorem ports_nil : (xOf []).ports = Vector.replicate 8 Port.empty := by decide +kernel

theorem xOk_zeros (pool : LocalRange) (m : Nat) : xOk pool (zeros m) = true := by
  have h : (xOf []).ports.toList.all (fun p =>
      if p.conf then p.blk.p3.bits 63 1 == 0 && (p.fault pool).isNone && decide (p.pos < p.count) else p == Port.empty) = true := by
    rw [ports_nil]; rfl
  simp only [xOk, xOf_zeros, wd_zeros, wordAt_zeros, h, bits_zero]
  decide +kernel

theorem bslotOk_zeros (m : Nat) : bslotOk (zeros m) = true := by
  rw [bslotOk, bslotOf_zeros]; decide +kernel

theorem recordsIn_zeros (m : Nat) : recordsIn (zeros m) = [] := by
  simp only [recordsIn, wd_zeros, bits_zero]; rfl

theorem drop_head {h : List Byte} (hh : h.length = 64) (m k : Nat) (hk : 64 ≤ k) : (h ++ zeros m).drop k = zeros (m - (k - 64)) := by
  rw [List.drop_append, List.drop_eq_nil_of_le (by omega), List.nil_append, zeros, List.drop_replicate, hh]; rfl

theorem wordAt_tail {h : List Byte} (hh : h.length = 64) (m k n : Nat) (hk : 64 ≤ k) : wordAt (h ++ zeros m) k n = 0 := by
  have e := wordAt_zeros (m - (k - 64)) 0 n
  rwa [← drop_head hh m k hk, wordAt, List.drop_zero] at e

theorem wordAt_front {h : List Byte} (hh : h.length = 64) (m k n : Nat) (hk : k + n ≤ 64) : wordAt (h ++ zeros m) k n = wordAt h k n := by
  rw [wordAt, wordAt, List.drop_append_of_le_length (by omega), List.take_append_of_le_length (by simp; omega)]

theorem wd_tail {h : List Byte} (hh : h.length = 64) (m k : Nat) (hk : 64 ≤ k) : wd (h ++ zeros m) k = 0 := by
  rw [wd, wordAt_tail hh m k 8 hk]; rfl

theorem getD_tail {h : List Byte} (hh : h.length = 64) (m k : Nat) (hk : 64 ≤ k) : (h ++ zeros m).getD k 0 = 0 := by
  have e : (h ++ zeros m)[k]? = (zeros m)[k - 64]? := by rw [List.getElem?_append_right (by omega), hh]
  rw [List.getD_eq_getElem?_getD, e, zeros, List.getElem?_replicate]
  split <;> rfl

theorem sum_zero (n : Nat) (f : Nat → Nat) (h : ∀ i, f i = 0) : ((upTo n).map f).sum = 0 := by
  rw [show f = fun _ => 0 from funext h]
  induction n <;> simp_all [upTo, List.range_succ]

theorem queueOf_head {h : List Byte} (hh : h.length = 64) (m n : Nat) : queueOf (h ++ zeros m) n = Queue.empty := by
  have hb : ∀ k, msgsBefore (h ++ zeros m) k = 0 := fun k => by
    refine sum_zero _ _ fun i => ?_
    simp (disch := omega) only [wordAt_tail hh] <;> rfl
  simp (disch := omega) only [queueOf, hb, wordAt_tail hh]
  rfl

theorem cOf_head {h : List Byte} (hh : h.length = 64) (m n : Nat) : cOf (h ++ zeros m) n = cOf [] n := by
  have hd := drop_head hh m 0x1000 (by decide)
  have hw : ∀ o, wd [] o = 0 := wd_zeros 0
  have ho : ∀ o k, wordAt [] o k = 0 := wordAt_zeros 0
  simp (disch := omega) only [cOf, hd, List.drop_nil, wd_zeros, wordAt_zeros, wd_tail hh, wordAt_tail hh, hw, ho]

/-- The core that an image of zeros loads. -/
def zeroCore : SavedCore := { savedOf [] 0 with x := 0, y := 0 }

theorem savedOf_head {h : List Byte} (hh : h.length = 64) (m : Nat) (h7 : wordAt h 7 1 = 0) : savedOf (h ++ zeros m) 0 = zeroCore := by
  have ho : ∀ o k, wordAt [] o k = 0 := wordAt_zeros 0
  have hq : ∀ n, queueOf [] n = Queue.empty := fun n => by
    have hb : ∀ k, msgsBefore [] k = 0 := fun k => sum_zero _ _ fun i => by simp only [ho] <;> rfl
    simp only [queueOf, hb, ho]
    rfl
  have hg : ∀ o, ([] : List Byte).getD o 0 = 0 := fun _ => rfl
  simp (disch := omega) only [savedOf, zeroCore, List.drop_nil, hg, drop_head hh, seqOf_zeros, xOf_zeros, bslotOf_zeros, queueOf_head hh, hq, cOf_head hh, wordAt_tail hh,
    getD_tail hh, wordAt_front hh, h7, ho]

/-- The bytes after the header of the image of zeros. -/
def tail0 : List Byte := zeros (0x34C000 - 64)

theorem sget_nil {α : Type} (z : α) (k : Nat) : sget z [] k = z := rfl

theorem le0 (w n : Nat) : leBytes n ((0 : BitVec w).toNat) = zeros n := by
  rw [show (0 : BitVec w).toNat = 0 by simp]; exact leBytes_zero n

theorem bslot_zeros (b : BSlot) (h1 : b.fmt.code = 0) (h2 : b.rows = []) (h3 : b.scales = []) :
    b.bytes = zeros (0x800 + 2048 + 6 * 16384) := by
  rw [BSlot.bytes, h1, h2, h3]
  simp only [sget_nil, le0]
  rw [zeroTo_zeros (by decide), flatMap_zeros _ _ 2 fun _ _ => rfl, flatMap_zeros _ _ 16384 fun k _ => by
    rw [flatMap_zeros _ _ 64 fun _ _ => rfl, upTo_length], upTo_length, upTo_length]
  simp only [zeros, List.replicate_append_replicate]

/-- A core whose registers are all zero has a body of zeros. -/
theorem body_zeros (x : SavedCore) (h1 : coreBytes x.core = zeros 0xFC0)
    (h2 : ∀ q, seqBytes q (x.core.seq q) x.core.c = zeros 0x2000) (h3 : x.core.queues.toList.flatMap (fun q => q.msgs.flatMap w8) = [])
    (h4 : x.core.x.bytes = zeros 0x4000)
    (h5 : ∀ b ∈ x.core.bslots.toList, b.fmt.code = 0 ∧ b.rows = [] ∧ b.scales = [])
    (h6 : x.side = []) (h7 : x.acc = []) (h8 : x.lm = []) : bodyBytes x = tail0 := by
  have hm : ∀ o, Memory.get [] o = 0 := fun _ => rfl
  have e1 : (allSeqs.flatMap fun q => zeroTo 0x2000 (seqBytes q (x.core.seq q) x.core.c)) = zeros (4 * 0x2000) :=
    flatMap_zeros allSeqs _ 0x2000 fun q _ => by rw [h2, zeroTo_zeros (Nat.le_refl _)]
  have e2 : zeroTo 0x9000 (x.core.queues.toList.flatMap fun q => q.msgs.flatMap w8) = zeros 0x9000 := by rw [h3]; rfl
  have e3 : x.core.bslots.toList.flatMap BSlot.bytes = zeros (2 * (0x800 + 2048 + 6 * 16384)) := by
    rw [flatMap_zeros _ _ _ fun b hb => bslot_zeros b (h5 b hb).1 (h5 b hb).2.1 (h5 b hb).2.2, Vector.length_toList]
  have e4 : ((upTo 1024).flatMap fun p => ((upTo 3).flatMap fun r => leBytes 4 (sget 0 x.side (3 * p + r)).toNat) ++ zeros 4) = zeros (1024 * 16) := by
    rw [h6, flatMap_zeros _ _ 16 fun p _ => ?_, upTo_length]
    simp only [sget_nil, le0]
    rw [flatMap_zeros _ _ 4 fun _ _ => rfl, upTo_length]; rfl
  have e5 : ((upTo 262144).flatMap fun w => leBytes 4 (sget 0 x.acc w).toNat) = zeros (262144 * 4) := by
    rw [h7, flatMap_zeros _ _ 4 fun w _ => ?_, upTo_length]
    simp only [sget_nil, le0]
  have e6 : ((upTo 2097152).map fun o => Memory.get x.lm o) = zeros 2097152 := by
    simp only [h8, hm]
    rw [List.map_const', upTo_length]; rfl
  rw [bodyBytes]
  simp only [h1, e1, e2, h4, e3, e4, e5, e6]
  simp only [zeros, List.replicate_append_replicate, tail0]

theorem w8_zero : w8 0 = zeros 8 := le0 64 8

theorem joined (a b : Nat) : zeros a ++ zeros b = zeros (a + b) := by simp [zeros, List.replicate_append_replicate]

theorem cstate_zeros (c : CState) (h1 : ∀ w ∈ c.shadow.toList, w = 0) (h2 : c.uevec = 0 ∧ c.uevEn = false) (h3 : ∀ n ∈ c.bar.toList, n = 0) :
    c.bytes = zeros 108 := by
  rw [CState.bytes, h2.1, h2.2, flatMap_zeros _ _ 8 fun w hw => by rw [h1 w hw, w8_zero], flatMap_zeros _ _ 4 fun n hn => by rw [h3 n hn, le0],
    show leBytes 8 ((0 : Word).toNat + bitNat false) = zeros 8 from rfl, joined, joined, Vector.length_toList, Vector.length_toList]

theorem seq_zeros (q : SeqId) (x : Seq) (c : CState) (hg : ∀ w ∈ x.g.toList, w = 0) (hp : x.pc = 0 ∧ x.repc = 0 ∧ x.fpcs = 0)
    (hf : (pendFrame q x c).2 = ⟨0, 0, 0, 0, 0⟩) (hl : ∀ e ∈ x.loops.toList, e.count = 0) (hr : ∀ r ∈ x.rng.toList, r = 0) (hx : x.cmds = [])
    (hs : x.spill = []) (hw : stateWord q x c = 0) (hc : c.bytes = zeros 108) : seqBytes q x c = zeros 0x2000 := by
  have e1 : (x.g.toList.drop 1).flatMap w8 = zeros 248 := by
    rw [flatMap_zeros _ _ 8 fun w m => by rw [hg w (List.mem_of_mem_drop m), w8_zero], List.length_drop, Vector.length_toList]
  have e2 : x.loops.toList.flatMap LoopEntry.bytes = zeros (4 * 32) := by
    rw [flatMap_zeros _ _ 32 fun e m => by rw [LoopEntry.bytes, if_pos (hl e m)], Vector.length_toList]
  have e3 : x.rng.toList.flatMap (fun r => leBytes 16 r.toNat) = zeros (16 * 16) := by
    rw [flatMap_zeros _ _ 16 fun r m => by rw [hr r m, le0], Vector.length_toList]
  have e4 : ((upTo 512).flatMap fun i => w8 (sget 0 x.spill i)) = zeros (512 * 8) := by
    rw [hs, flatMap_zeros _ _ 8 fun i _ => by rw [sget_nil, w8_zero], upTo_length]
  have e5 : ∃ n ≤ 108, (if q = .C then c.bytes else []) = zeros n := by
    split
    · exact ⟨108, Nat.le_refl _, hc⟩
    · exact ⟨0, Nat.zero_le _, rfl⟩
  obtain ⟨n, hn, e5⟩ := e5
  rw [seqBytes, e1, e2, e3, e4, e5, hp.1, hp.2.1, hp.2.2, hf, hx, hw]
  simp only [w8_zero, List.flatMap_nil, show zeroTo (14 * 64) ([] : List Byte) = zeros (14 * 64) from zeroTo_zeros (Nat.zero_le _), joined]
  rw [zeroTo_zeros (by omega), joined]

theorem x_zeros (x : XState) (hv : ∀ v ∈ x.v.toList, v = 0) (hm : x.masks = []) (hr : x.rot = 0) (ht : x.topk = ⟨false, false, false, 0, []⟩)
    (hp : ∀ p ∈ x.ports.toList, p = ⟨⟨0, 0, 0, 0⟩, 0, false⟩) (hi : ∀ t ∈ x.tiles.toList, t.rows = 0) (hf : ∀ w ∈ x.ftab.toList, w = 0)
    (hl : ∀ l ∈ x.shadow.levels.toList, l = ⟨0, 0, 0, false⟩) (ha : x.shadow.abase = 0) (hw : x.shadow.wide = 0) : x.bytes = zeros 0x4000 := by
  rw [XState.bytes, hm, hr, ht, ha, hw, flatMap_zeros x.v.toList _ 256 fun v m => by rw [hv v m, le0],
    flatMap_zeros x.ports.toList _ 48 fun p m => by rw [hp p m]; rfl,
    flatMap_zeros x.tiles.toList _ 8 fun t m => by rw [Tile.image, if_pos (hi t m), w8_zero],
    flatMap_zeros x.ftab.toList _ 8 fun w m => by rw [hf w m, w8_zero],
    flatMap_zeros x.shadow.levels.toList _ 32 fun l m => by rw [hl l m]; rfl]
  simp only [List.reverse_nil, List.flatMap_nil, show zeroTo 0x200 ([] : List Byte) = zeros 0x200 from zeroTo_zeros (Nat.zero_le _), le0, w8_zero,
    show ∀ n, leBytes n ([] : List (BitVec 256)).length = zeros n from leBytes_zero, show leBytes 8 (bitNat false + 2 * bitNat false + 4 * bitNat false + 8 * 0 + 1024 * ([] : List (BitVec 32 × BitVec 32)).length) = zeros 8 from rfl, joined, Vector.length_toList]
  rw [zeroTo_zeros (by decide)]

theorem all_are {α : Type} [DecidableEq α] {l : List α} {z : α} (h : l.all (fun x => decide (x = z)) = true) : ∀ x ∈ l, x = z := by simpa using h

theorem all_have {α β : Type} [DecidableEq β] {l : List α} {f : α → β} {z : β} (h : l.all (fun x => decide (f x = z)) = true) :
    ∀ x ∈ l, f x = z := by simpa using h

theorem zero_cells : zeroCore.lm = [] ∧ zeroCore.acc = [] ∧ zeroCore.side = [] := by
  have ho : ∀ o k, wordAt [] o k = 0 := wordAt_zeros 0
  have hg : ∀ o, ([] : List Byte).getD o 0 = 0 := fun _ => rfl
  have hb : BitVec.ofNat 32 0 = 0 := rfl
  simp only [zeroCore, savedOf, ho, hg, hb, sparseOf_zero, and_self]

/-- The core that an image of zeros loads, with its commands. -/
def loadedCore : Core :=
  allSeqs.foldl (fun (k : Core) q => k.setSeq q { k.seq q with cmds := [] }) zeroCore.core

theorem loaded_core : coreBytes loadedCore = zeros 0xFC0 := by decide +kernel

theorem loaded_c : loadedCore.c.bytes = zeros 108 :=
  cstate_zeros _ (all_are (by decide +kernel)) ⟨by decide +kernel, by decide +kernel⟩ (all_are (by decide +kernel))

theorem loaded_queues : (loadedCore.queues.toList.flatMap fun q => q.msgs.flatMap w8) = [] := by decide +kernel

theorem loaded_slots : ∀ b ∈ loadedCore.bslots.toList, b.fmt.code = 0 ∧ b.rows = [] ∧ b.scales = [] := by
  have h : loadedCore.bslots.toList.all (fun b => decide (b.fmt.code = 0 ∧ b.rows = [] ∧ b.scales = [])) = true := by decide +kernel
  simpa only [List.all_eq_true, decide_eq_true_eq] using h

theorem loaded_x : loadedCore.x.bytes = zeros 0x4000 :=
  x_zeros _ (all_are (by decide +kernel)) (by decide +kernel) (by decide +kernel) (by decide +kernel) (all_are (by decide +kernel))
    (all_have (by decide +kernel)) (all_are (by decide +kernel)) (all_are (by decide +kernel)) (by decide +kernel) (by decide +kernel)

theorem loaded_seq (q : SeqId) : seqBytes q (loadedCore.seq q) loadedCore.c = zeros 0x2000 := by
  cases q <;> exact seq_zeros _ _ _ (all_are (by decide +kernel)) (by decide +kernel) (by decide +kernel) (all_have (by decide +kernel))
    (all_are (by decide +kernel)) (by decide +kernel) (by decide +kernel) (by decide +kernel) loaded_c

theorem loaded_body : bodyBytes { zeroCore with core := loadedCore } = tail0 :=
  body_zeros _ loaded_core loaded_seq loaded_queues loaded_x loaded_slots (by simp only [zero_cells.2.2])
    (by simp only [zero_cells.2.1]) (by simp only [zero_cells.1])

/-- Bytes as cells from a key up. -/
def cells : Nat → List Byte → List Host.Cell
  | _, [] => []
  | k, b :: t => (k, b) :: cells (k + 1) t

theorem cells_get (l : List Byte) (k i : Nat) : Memory.get (cells k l) (k + i) = l.getD i 0 := by
  induction l generalizing k i with
  | nil => rfl
  | cons b t ih =>
    cases i with
    | zero => simp [cells, Memory.get, sget]
    | succ j =>
      have h := ih (k + 1) j
      rw [show k + 1 + j = k + (j + 1) by omega] at h
      simpa [cells, Memory.get, sget] using h

theorem cells_read (l : List Byte) (m a n : Nat) (h : a + n ≤ l.length + m) : Memory.read (cells 0 l) a n = ((l ++ zeros m).drop a).take n := by
  induction n generalizing a with
  | zero => simp [Memory.read]
  | succ n ih =>
    have hg : Memory.get (cells 0 l) a = (l ++ zeros m)[a]'(by simp [zeros]; omega) := by
      have e := cells_get l 0 a
      rw [Nat.zero_add] at e
      rw [e, List.getElem_append]
      split
      · simp [*]
      · rw [List.getD_eq_getElem?_getD, List.getElem?_eq_none (by omega)]; simp [zeros]
    rw [Memory.read, ih (a + 1) (by omega), hg, List.drop_eq_getElem_cons (i := a) (by simp [zeros]; omega), List.take_succ_cons]

theorem not_held {s : State} {c : CoreId} {q : SeqId} (stamp : Nat) (ha : (s.seq c q).atoms = [])
    (hs : ∀ r ∈ allSeqs, (s.seq c r).stores = []) (o k : Nat) : s.loadHeld c q stamp (.lm 0 o) k = false := by
  rw [State.loadHeld, Seq.atomBefore, ha]
  simp only [List.any_nil, Bool.false_or]
  split
  · rfl
  · rw [List.any_eq_false]
    intro r m
    simp [hs r m]

theorem Memory_read_append (m : List Host.Cell) (a k n : Nat) : Memory.read m a k ++ Memory.read m (a + k) n = Memory.read m a (k + n) := by
  induction k generalizing a with
  | zero => simp [Memory.read]
  | succ k ih =>
    have h := ih (a + 1)
    rw [show a + 1 + k = a + (k + 1) by omega] at h
    rw [show k + 1 + n = k + n + 1 by omega, Memory.read, Memory.read, ← h]; rfl

theorem readPieces_lm (s0 s : State) (h : ∀ o k, s.loadHeld s.cur.core s.cur.sq s.stamp (.lm 0 o) k = false) (fuel va o n : Nat) (hv : va % 128 = 0) (hn : n ≤ 128 * fuel) :
    s0.readPieces s (.lm 0 o) va fuel n = .ok (Memory.read s.hm.lm o n, s) := by
  have hr : ∀ o k, s.readPlace s.cur.core (.lm 0 o) k = (Memory.read s.hm.lm o k, s) := fun o k => by
    rw [State.readPlace, lmRead, lmKey]; simp
  induction fuel generalizing va o n with
  | zero => rw [show n = 0 by omega]; rfl
  | succ f ih =>
    cases n with
    | zero => rfl
    | succ n =>
      have hk : min (n + 1) (128 - va % 128) = min (n + 1) 128 := by rw [hv]
      by_cases hc : n + 1 ≤ 128
      · have i := ih (va + (n + 1)) (o + (n + 1)) 0
        have z : s0.readPieces s (.lm 0 (o + (n + 1))) (va + (n + 1)) f 0 = .ok ([], s) := by cases f <;> rfl
        simp only [State.readPieces, State.askLoad, hk, Nat.min_eq_left hc, hr, h, Bool.false_eq_true, if_false, Place.plus, Nat.sub_self, z, List.append_nil]
      · have i := ih (va + 128) (o + 128) (n + 1 - 128) (by omega) (by omega)
        simp only [State.readPieces, State.askLoad, hk, Nat.min_eq_right (by omega : 128 ≤ n + 1), hr, h, Bool.false_eq_true, if_false, Place.plus, i, Memory_read_append]
        rw [show 128 + (n + 1 - 128) = n + 1 by omega]

/-- The header of the image of zeros with a checksum. -/
def head0 (v : Nat) : List Byte := headBytes 0 (bareCard 1).handle 0 zeroCore v

theorem head0_length (v : Nat) : (head0 v).length = 64 := head_length _ _ _ _ _

/-- The image of zeros. -/
def image0 : List Byte := head0 (crc32c (head0 0 ++ tail0)).toNat ++ tail0

theorem head_same (k : Core) (v : Nat) : headBytes 0 (bareCard 1).handle 0 { zeroCore with core := k } v = head0 v := rfl

theorem image0_of : imageBytes 0 (bareCard 1).handle 0 { zeroCore with core := loadedCore } = image0 := by
  simp only [imageBytes, loaded_body, head_same, image0]

theorem reissue_zeros {h : List Byte} (hh : h.length = 64) (m : Nat) (s : State) (c : CoreId) :
    s.reissueSeqs c (h ++ zeros m) allSeqs = some ([(.C, []), (.L, []), (.X, []), (.S, [])], s) := by
  simp (disch := omega) only [allSeqs, State.reissueSeqs, drop_head hh, recordsIn_zeros, State.reissueAll]
  rfl

theorem header_ok (v : Nat) (m : Nat) : headerOk 0 0 (bareCard 1) (head0 v ++ zeros m) = true := by
  have hl := head0_length v
  simp (disch := omega) only [headerOk, wordAt_front hl]
  rfl

theorem blockOk_zeros (m : Nat) : blockOk (zeros m) = true := by
  rw [blockOk]
  simp only [wd_zeros, wordAt_zeros, bits_zero]
  decide

theorem blocks_ok {h : List Byte} (hh : h.length = 64) (m : Nat) :
    (allSeqs.all fun q => blockOk ((h ++ zeros m).drop (0x1000 + 0x2000 * q.idx.val))) = true := by
  simp (disch := omega) only [allSeqs, List.all_cons, List.all_nil, drop_head hh, blockOk_zeros, Bool.and_self]

theorem loaded_async (n : Nat) : loadedCore.withAsync n [] = loadedCore := by
  have h : asyncOf n (loadedCore.seq .C) [] = [] := if_neg (by decide +kernel)
  rw [Core.withAsync, h]; rfl

theorem image0_loads (s : State) (hp : (s.core 0).partNo = 0) (hn : (s.core 0).c.stepNo = 0) :
    ∃ y, s.loadImage 0 (bareCard 1) image0 = some y := by
  have hl := fun v => head0_length v
  have h7 : wordAt (head0 (crc32c (head0 0 ++ tail0)).toNat) 7 1 = 0 := rfl
  have hc : wordAt image0 0x0C 1 = 0 := by rw [image0, tail0, wordAt_front (hl _) _ _ _ (by decide)]; rfl
  have hs : savedOf image0 0 = zeroCore := savedOf_head (hl _) _ h7
  have ho : headerOk 0 0 (bareCard 1) image0 = true := header_ok _ _
  have hq : queuesFit (bareCard 1).img zeroCore.core = true := by decide +kernel
  have hr : ∀ t : State, t.reissueSeqs 0 image0 allSeqs = some ([(.C, []), (.L, []), (.X, []), (.S, [])], t) := fun t => reissue_zeros (hl _) _ t 0
  have hb : (allSeqs.all fun q => blockOk (image0.drop (0x1000 + 0x2000 * q.idx.val))) = true := blocks_ok (hl _) _
  have hx : xOk (s.poolOf 0) (image0.drop 0x12000) = true := by
    rw [image0, tail0, drop_head (hl _) _ _ (by decide)]; exact xOk_zeros _ _
  have hsl : ((upTo 2).all fun i => bslotOk (image0.drop (0x16000 + 0x19000 * i))) = true := List.all_eq_true.mpr fun i _ => by
    rw [image0, tail0, drop_head (hl _) _ _ (by omega)]; exact bslotOk_zeros _
  have hw := loaded_async (s.free + 2)
  have hi : imageBytes 0 (bareCard 1).handle 0 { zeroCore with core := loadedCore.withAsync (s.free + 2) [] } = image0 := by rw [hw, image0_of]
  rw [State.loadImage]
  simp only [hp, hn, hs, ho, hb, hq, hr, hc, hx, hsl, Bool.not_true, Bool.or_self, Bool.false_eq_true, if_false]
  exact ⟨_, if_pos hi⟩

/-- C in its handler, with the image of zeros and a checksum in local memory at VA 0. -/
def holding (v : Nat) : State := { window with hm := { window.hm with lm := cells 0 (head0 v) } }

theorem load_places {s : State} {r : Req} {p : Place} (h : (match s.places .load false 4096 [r] with
    | .ok [(a, b)] => decide (a.lane = r.lane) && decide (a.va = r.va) && decide (a.n = r.n) && decide (b = p)
    | _ => false) = true) : s.places .load false 4096 [r] = .ok [(r, p)] := by
  split at h
  · rename_i a b e
    simp only [Bool.and_eq_true, decide_eq_true_eq] at h
    obtain ⟨⟨⟨h1, h2⟩, h3⟩, h4⟩ := h
    rw [e, h4]
    congr
    cases a; cases r; simp_all
  · simp at h

theorem reads_of {s : State} {h : List Byte} {n m : Nat} (hp : s.places .load false 4096 [⟨0, 0, n⟩] = .ok [(⟨0, 0, n⟩, .lm 0 0)])
    (hs : ∀ o k, s.loadHeld s.cur.core s.cur.sq s.stamp (.lm 0 o) k = false) (hm : s.hm.lm = cells 0 h) (hn : n = h.length + m) :
    s.readRecord s 0 4096 n = .ok (h ++ zeros m, s) := by
  have hr : Memory.read s.hm.lm 0 n = h ++ zeros m := by
    rw [hm, cells_read h m 0 n (by omega), List.drop_zero, List.take_of_length_le (by simp [zeros, hn])]
  have hq := readPieces_lm s s hs (n / 64 + 2) 0 0 n rfl (by omega)
  simp only [State.readRecord, hp, bind, Except.bind, hq, hr]

/-- The checksum of the image of zeros. -/
def sum0 : Nat := (crc32c (head0 0 ++ tail0)).toNat

theorem holding_places : (holding sum0).places .load false 4096 [⟨0, 0, 0x34C000⟩] = .ok [(⟨0, 0, 0x34C000⟩, .lm 0 0)] :=
  load_places (by decide +kernel)

theorem holding_reads : (holding sum0).readRecord (holding sum0) 0 4096 0x34C000 = .ok (image0, holding sum0) :=
  reads_of holding_places (not_held _ rfl (by decide +kernel)) rfl (by rw [head0_length])

theorem witness_ContextLoaded : ∃ (s : State) (bs : List Byte) (w y : State), s.cur.sq = .C ∧ s.c.sup = true ∧
    s.readS (.g 1) = .ok (0, s) ∧ s.cardOn s.cur.core = some (bareCard 1) ∧ s.here.maySave = true ∧
    s.readRecord s (0 : Word).toNat 4096 0x34C000 = .ok (bs, w) ∧ w.cardOn s.cur.core = some (bareCard 1) ∧
    w.loadImage s.cur.core (bareCard 1) bs = some y := by
  obtain ⟨y, hy⟩ := image0_loads (holding sum0) (by decide +kernel) (by decide +kernel)
  exact ⟨holding sum0, image0, holding sum0, y, rfl, rfl, by rfl, by rfl, by decide +kernel, holding_reads, by rfl, hy⟩

theorem window_loads : window.places .load false 4096 [⟨0, 0, 0x34C000⟩] = .ok [(⟨0, 0, 0x34C000⟩, .lm 0 0)] := load_places (by decide +kernel)

theorem window_reads : window.readRecord window 0 4096 0x34C000 = .ok (zeros 0x34C000, window) :=
  reads_of (s := window) (h := []) (n := 0x34C000) window_loads (not_held _ rfl (by decide +kernel)) rfl (Nat.zero_add _).symm

theorem zeros_refused (s : State) (m : Nat) : s.loadImage 0 (bareCard 1) (zeros m) = none := by
  have h : ∀ p, headerOk p 0 (bareCard 1) (zeros m) = false := fun p => by simp only [headerOk, wordAt_zeros]; rfl
  rw [State.loadImage]
  simp only [h, Bool.not_false, Bool.true_or, if_true]

theorem witness_ContextRefused : ∃ (s : State) (bs : List Byte) (w : State), s.cur.sq = .C ∧ s.c.sup = true ∧
    s.readS (.g 1) = .ok (0, s) ∧ s.cardOn s.cur.core = some (bareCard 1) ∧ s.here.maySave = true ∧
    s.readRecord s (0 : Word).toNat 4096 0x34C000 = .ok (bs, w) ∧ w.cardOn s.cur.core = some (bareCard 1) ∧
    w.loadImage s.cur.core (bareCard 1) bs = none ∧ Claims.BadImage s (bareCard 1) bs :=
  ⟨window, zeros 0x34C000, window, rfl, rfl, by rfl, by rfl, by decide +kernel, window_reads, by rfl, zeros_refused _ _,
    .inl fun h => absurd ((wordAt_zeros 0x34C000 0 4).symm.trans h) (by decide)⟩

/-! ### WellFormed: a term that each check refuses -/

theorem test_wf_control : Instr.wf (.loop false (.g 1) 0) = false ∧ Instr.wf (.loopi true 5 (-1)) = false ∧ Instr.wf (.loop false (.g 1) 1) = true := by
  decide

theorem test_wf_bit_fields : Instr.wf (.bfx true (.g 1) (.g 2) 0 0) = false ∧ Instr.wf (.bfx false (.g 1) (.g 2) 1 64) = false ∧
    Instr.wf (.bfi 1 (.g 2) 63 2) = false ∧ Instr.wf (.bfi 1 (.g 2) 3 0) = false ∧ Instr.wf (.bfx false (.g 1) (.g 2) 0 64) = true := by decide

theorem test_wf_runs : Instr.wf (.ldm false 2 31 (.g 1) (.imm 0)) = false ∧ Instr.wf (.ldm false 2 0 (.g 1) (.imm 0)) = false ∧
    Instr.wf (.stm true 31 2 (.g 1) (.imm 0)) = false ∧ Instr.wf (.spill 511 0 2) = false ∧ Instr.wf (.spill 0 1 0) = false ∧
    Instr.wf (.fill 31 0 2) = false ∧ Instr.wf (.fill 0 510 3) = false ∧ Instr.wf (.ldm false 1 31 (.g 1) (.imm 0)) = true := by decide

theorem test_wf_atomics : Instr.wf (.amo .fadd true false .rlx .dev (.g 1) (.g 2) (.g 3)) = false ∧
    Instr.wf (.amo .fmax true false .rlx .dev (.g 1) (.g 2) (.g 3)) = false ∧ Instr.wf (.red .swp true false .rlx .dev (.g 2) (.g 3)) = false ∧
    Instr.wf (.red .fadd true false .rlx .dev (.g 2) (.g 3)) = false ∧ Instr.wf (.amo .swp true false .rlx .dev (.g 1) (.g 2) (.g 3)) = true := by decide

/-- An immediate of f16 and bf16 has 16 bits (R171). -/
theorem test_wf_vector_immediates : ∀ i ∈ [Instr.vadd .f16 (.v 0) (.v 1) (.imm 0x10000), .vsub .bf16 (.v 0) (.v 1) (.imm 0x10000),
    .vmul .f16 (.v 0) (.v 1) (.imm 0x40000), .vfma .f16 0 (.v 1) (.imm 0x20000), .vmin .bf16 (.v 0) (.v 1) (.imm 0x10000),
    .vmax .f16 (.v 0) (.v 1) (.imm 0x10000), .vdiv .f16 (.v 0) (.v 1) (.imm 0x10000), .vsel .bf16 (.v 0) (.v 1) (.imm 0x10000)], i.wf = false := by
  decide

/-- The type sets I and Fl of R170. -/
theorem test_wf_vector_types : ∀ i ∈ [Instr.vand .f32 (.v 0) (.v 1) (.reg (.v 2)), .vor .f16 (.v 0) (.v 1) (.reg (.v 2)),
    .vxor .bf16 (.v 0) (.v 1) (.reg (.v 2)), .vnot .f32 (.v 0) (.v 1), .vshl .f32 (.v 0) (.v 1) (.reg (.v 2)), .vshr .f32 (.v 0) (.v 1) (.reg (.v 2)),
    .vsar .f32 (.v 0) (.v 1) (.reg (.v 2)), .vadds .f32 (.v 0) (.v 1) (.reg (.v 2)), .vsubs .f32 (.v 0) (.v 1) (.reg (.v 2)),
    .viota .f32 (.v 0) (.g 1), .vdiv .s32 (.v 0) (.v 1) (.reg (.v 2)), .vsqrt .s32 (.v 0) (.v 1), .vrcp .n8 (.v 0) (.v 1), .vrsq .s64 (.v 0) (.v 1),
    .vexp2 .n64 (.v 0) (.v 1), .vlog2 .s8 (.v 0) (.v 1), .vtopk .s64 false 1 true (.v 0) (.v 1)], i.wf = false := by decide

theorem test_wf_compares_and_shuffles : Instr.wf (.vcmp .s32 .ltn (.v 0) (.reg (.v 1))) = false ∧ Instr.wf (.vcmp .s32 .gen (.v 0) (.reg (.v 1))) = false ∧
    Instr.wf (.vcmp .s32 .len (.v 0) (.reg (.v 1))) = false ∧ Instr.wf (.vcmp .s32 .gtn (.v 0) (.reg (.v 1))) = false ∧
    Instr.wf (.vcmp .s32 .eq (.v 0) (.imm 1)) = false ∧ Instr.wf (.vshuf .s8 .ilo (.p 0) (.v 1)) = false ∧ Instr.wf (.vshuf .s8 .ihi (.p 0) (.v 1)) = false := by
  decide

theorem test_wf_tiles : Instr.wf (.acfg false false 0 0 0 1) = false ∧ Instr.wf (.acfg false false 0 0 1025 1) = false ∧
    Instr.wf (.acfg false false 0 0 1 0) = false ∧ Instr.wf (.acfg false false 0 0 1 257) = false ∧ Instr.wf (.acfg true false 0 1000 25 1) = false ∧
    Instr.wf (.ald false 0 (.g 1) (.ext 0)) = false ∧ Instr.wf (.acfg true true 7 1000 24 256) = true := by decide

/-- A block whose fixed word P3 has a reserved bit or a value out of its limits. -/
theorem test_wf_blocks : ∀ i ∈ [Instr.pcfg 0 ⟨0, 0, 0, 2 ^ 63⟩, .bld .trit false 0 ⟨0, 0, 0, 0⟩, .nset 0 ⟨0, 0, 0, 2 ^ 62⟩, .adrn false 0 ⟨0, 0, 0, 2 ^ 63⟩,
    .cpy false ⟨0, 0, 0, 2⟩, .cpyx false ⟨0, 0, 0, 2 ^ 63⟩, .walk false ⟨0, 0, 0, 128⟩, .pool false ⟨0, 0, 0, 2 ^ 63⟩, .decmp false ⟨0, 0, 0, 2 ^ 63⟩,
    .buck false ⟨0, 0, 0, 2 ^ 63⟩, .supd false ⟨0, 0, 0, 2 ^ 63⟩, .xall false ⟨0, 0, 0, 2 ^ 63⟩, .coll false ⟨0, 0, 0, 2 ^ 63⟩, .rld false ⟨0, 0, 0, 1⟩,
    .rred false ⟨0, 0, 0, 2 ^ 63⟩], i.wf = false := by decide +kernel

/-! ### Decoding: words written out from the tables of R154 to R174, and the manual's worked words -/

/-- A base word from its fields (R154): OP [7:0], D [13:8], A [19:14], B [25:20], F [29:26], X [31:30], IMM [63:45]; no guard. -/
def w (op d a b f x imm : Nat) : Word :=
  word (op + d * 2 ^ 8 + a * 2 ^ 14 + b * 2 ^ 20 + f * 2 ^ 26 + x * 2 ^ 30 + imm * 2 ^ 45)

/-- The words decode to an instruction of so many bytes without a guard. -/
def reads (ws : List Word) (i : Instr) : Prop :=
  decode (ws.headD 0) ws.tail = .ok ⟨none, 8 * ws.length, i⟩

theorem test_decode_worked : decode 0x0000202503F49210 [] = .ok ⟨some ⟨false, 9, 0⟩, 8, .add (.g 18) (.g 18) (.imm 1)⟩ ∧
    reads [0x000000000C211432] (.lda false .b8 .dev (.g 20) (.g 4) (.imm 0)) ∧ reads [0x000800000C050E31] (.st .b8 false (.g 14) (.g 20) (.imm 64)) ∧
    reads [0xEE0DC0000000000D] (.waitc 14 14 0 6 14) ∧ reads [0x0000000043F0052C, 0x0000000100000000] (.ldi (.g 5) (.ext 0x100000000)) ∧
    reads [0x0000600002400108] (.loopi false 100 3) ∧ reads [0x0000600000200008] (.loopi false 2 3) ∧ reads [0x0000600000000009] (.rep (.g 0) 3) ∧
    reads [0x0007C00004511436] (.amo .add true false .acqrel .dev (.g 20) (.g 4) (.g 5)) ∧ reads [0x0000000018000040] (.mark .rel .clu) ∧
    reads [0x0000200003F00142] (.twait 1 (.imm 1)) ∧ reads [0x0000200000000044] (.bar 1) :=
  ⟨rfl, rfl, rfl, rfl, rfl, rfl, rfl, rfl, rfl, rfl, rfl, rfl⟩

theorem test_decode_worked_vector_matrix : reads [0x00000000231C3260] (.vadd .f32 (.p 2) (.p 0) (.reg (.p 1))) ∧
    reads [0x3F00000023F04362] (.vmul .f32 (.v 3) (.v 1) (.imm 0x1F800)) ∧ reads [0x0000400020204078] (.vcmp .f32 .lt (.v 1) (.reg (.v 2))) ∧
    reads [0x0000000020039086] (.vld .f32 (.v 16) (.g 14) (.imm 0)) ∧ reads [0x000000002000817F] (.vred .f32 .add (.v 1) (.v 2)) ∧
    reads [0x002200002020408A] (.vtopk .f32 false 8 true (.v 1) (.v 2)) ∧
    reads [0x000000008000028C, 0x10000, 0xF400000000000001, 0x100, 1] (.pcfg 2 ⟨0x10000, 0xF400000000000001, 0x100, 1⟩) ∧
    reads [0x00000000400001A3, 0x60010000] (.acfg true false 1 0 64 256) ∧ reads [0x00000000400000A3, 0x20000400] (.acfg false false 0 0 1 256) ∧
    reads [0x00000000400001A3, 0x20000401] (.acfg false false 1 1 1 256) ∧ reads [0x00002000000380A8] (.ftset 1 (.g 14)) ∧
    reads [0x0000A000800000A1, 2, 0, 0x100, 0x05020000] (.nset 5 ⟨2, 0, 0x100, 0x05020000⟩) ∧ reads [0x00000000000000A2] (.ngo false) ∧
    reads [0x00000000040000A2] (.ngo true) ∧ reads [0x00002000005054A6] (.smxr .l (.g 20) 1 (.g 5)) :=
  ⟨rfl, rfl, rfl, rfl, rfl, rfl, rfl, rfl, rfl, rfl, rfl, rfl, rfl, rfl, rfl⟩

theorem test_decode_worked_tasks : reads [0x000000000000000E] .notify ∧ reads [0x000000000000000F] .yield ∧ reads [0x000000000000000C] .ueret ∧
    reads [0x00000000000000E2] .eret ∧ reads [0x00000000000000E3] .idle ∧ reads [0x0000400000051550] (.launch (.g 21) (.g 20) 2) ∧
    reads [0x0000000000054051] (.cardw (.g 21)) ∧ reads [0x0000600000000057] (.prio (.g 0) 3) ∧
    reads [0x0000000001551658] (.graph (.g 22) (.g 20) (.g 21)) ∧ reads [0x0000000000051552] (.warm (.g 21) (.g 20)) ∧
    reads [0x0000000000550054] (.trigrd (.g 20) (.g 5) 0) ∧ reads [0x0000400000018055] (.pqpush 2 (.g 6)) ∧
    reads [0x0000400000000556] (.pqpop (.g 5) 2) ∧ reads [0x0000200000050059] (.uevset (.g 20) true) ∧
    reads [0x00040000000005E0] (.sysrd (.g 5) (.g 0) 0x20) ∧ reads [0x00000000000505E7] (.evrd (.g 5) (.g 20)) ∧
    reads [0x00000000000540E6] (.preempt (.g 21)) :=
  ⟨rfl, rfl, rfl, rfl, rfl, rfl, rfl, rfl, rfl, rfl, rfl, rfl, rfl, rfl, rfl, rfl, rfl⟩

theorem test_decode_control : reads [w 0x01 0 0 0 0 0 0] .nop ∧ reads [w 0x02 0 0 0 0 0 0x7FFFF] (.br (.imm (-1))) ∧
    reads [w 0x02 0 0 0 0 1 0, 5] (.br (.ext 5)) ∧ reads [w 0x03 0 3 36 9 0 2] (.bcc .gtn (.g 3) (.q 4) (.imm 2)) ∧
    reads [w 0x04 0 3 63 0 0 2] (.bbitEq (.g 3) 63 (.imm 2)) ∧ reads [w 0x04 0 3 1 1 0 2] (.bbitNe (.g 3) 1 (.imm 2)) ∧
    reads [w 0x05 31 0 0 0 0 4] (.call 31 (.imm 4)) ∧ reads [w 0x06 0 31 0 0 0 8] (.jmp (.g 31) (.imm 8)) ∧
    reads [w 0x07 0 7 0 1 0 3] (.loop true (.g 7) 3) ∧ reads [w 0x08 63 0 62 1 0 3] (.loopi true 4094 3) ∧
    reads [w 0x09 0 2 0 0 0 0x7FFFF] (.rep (.g 2) 0x7FFFF) ∧ reads [w 0x0A 0 0 0 0 0 3] (.lbrk 3) ∧ reads [w 0x0B 0 0 0 0 0 0xFFFF] (.trap 0xFFFF) ∧
    reads [w 0x0D 0 0 0 0 0 (1 * 2 ^ 15 + 2 * 2 ^ 11 + 3 * 2 ^ 7 + 4 * 2 ^ 4 + 5)] (.waitc 1 2 3 4 5) :=
  ⟨rfl, rfl, rfl, rfl, rfl, rfl, rfl, rfl, rfl, rfl, rfl, rfl, rfl, rfl⟩

theorem test_decode_alu : reads [w 0x11 1 2 3 0 0 0] (.sub (.g 1) (.g 2) (.reg (.g 3))) ∧ reads [w 0x12 39 32 33 0 0 0] (.mul (.q 7) (.q 0) (.reg (.q 1))) ∧
    reads [w 0x13 1 2 63 0 1 0, 9] (.mulh (.g 1) (.g 2) (.ext 9)) ∧ reads [w 0x14 1 2 3 0 0 0] (.mulhn (.g 1) (.g 2) (.reg (.g 3))) ∧
    reads [w 0x15 1 2 3 0 0 0] (.div (.g 1) (.g 2) (.reg (.g 3))) ∧ reads [w 0x16 1 2 3 0 0 0] (.divn (.g 1) (.g 2) (.reg (.g 3))) ∧
    reads [w 0x17 1 2 3 0 0 0] (.rem (.g 1) (.g 2) (.reg (.g 3))) ∧ reads [w 0x18 1 2 3 0 0 0] (.remn (.g 1) (.g 2) (.reg (.g 3))) ∧
    reads [w 0x19 1 2 63 0 0 0x7FFFF] (.and (.g 1) (.g 2) (.imm (-1))) ∧ reads [w 0x1A 1 2 3 0 0 0] (.or (.g 1) (.g 2) (.reg (.g 3))) ∧
    reads [w 0x1B 1 2 3 0 0 0] (.xor (.g 1) (.g 2) (.reg (.g 3))) ∧ reads [w 0x1C 1 2 3 0 0 0] (.andn (.g 1) (.g 2) (.reg (.g 3))) ∧
    reads [w 0x1D 1 2 3 0 0 0] (.shl (.g 1) (.g 2) (.reg (.g 3))) ∧ reads [w 0x1E 1 2 3 0 0 0] (.shr (.g 1) (.g 2) (.reg (.g 3))) ∧
    reads [w 0x1F 1 2 3 0 0 0] (.sar (.g 1) (.g 2) (.reg (.g 3))) ∧ reads [w 0x20 1 2 3 0 0 0] (.ror (.g 1) (.g 2) (.reg (.g 3))) ∧
    reads [w 0x21 1 2 3 0 0 0] (.min (.g 1) (.g 2) (.reg (.g 3))) ∧ reads [w 0x22 1 2 3 0 0 0] (.max (.g 1) (.g 2) (.reg (.g 3))) ∧
    reads [w 0x23 1 2 3 0 0 0] (.minn (.g 1) (.g 2) (.reg (.g 3))) ∧ reads [w 0x24 1 2 3 0 0 0] (.maxn (.g 1) (.g 2) (.reg (.g 3))) ∧
    reads [w 0x25 1 2 3 4 0 0] (.cmp .ltn (.g 1) (.g 2) (.reg (.g 3))) ∧ reads [w 0x26 1 2 0 0 0 0] (.clz (.g 1) (.g 2)) ∧
    reads [w 0x27 1 2 0 0 0 0] (.ctz (.g 1) (.g 2)) ∧ reads [w 0x28 1 2 0 0 0 0] (.popc (.g 1) (.g 2)) ∧
    reads [w 0x29 1 2 63 1 0 8] (.ext true (.g 1) (.g 2) (.imm 8)) ∧ reads [w 0x2A 1 2 63 1 0 (3 + 5 * 2 ^ 6)] (.bfx true (.g 1) (.g 2) 3 5) ∧
    reads [w 0x2B 1 2 63 0 0 (3 + 5 * 2 ^ 6)] (.bfi 1 (.g 2) 3 5) ∧ reads [w 0x2C 1 0 63 0 0 0x40000] (.ldi (.g 1) (.imm 0x40000)) ∧
    reads [w 0x2D 1 2 0 0 0 0] (.mov (.g 1) (.g 2)) ∧ reads [w 0x2D 1 0 0 1 0 3] (.mfsr (.g 1) 3) ∧ reads [w 0x2D 0 2 0 2 0 0] (.mtsr 0 (.g 2)) ∧
    reads [w 0x2E 1 2 63 0 0 5] (.bset (.g 1) (.g 2) (.imm 5)) ∧ reads [w 0x2E 1 2 3 1 0 0] (.bclr (.g 1) (.g 2) (.reg (.g 3))) ∧
    reads [w 0x2F 1 2 3 2 0 0] (.crc .b4 (.g 1) (.g 2) (.reg (.g 3))) := by
  repeat' apply And.intro
  all_goals rfl

theorem test_decode_memory : reads [w 0x30 1 2 0 14 0 0x7FFF8] (.ld true .b4 true (.g 1) (.g 2) (.imm (-8))) ∧
    reads [w 0x31 1 2 0 9 1 0, 8] (.st .b2 true (.g 1) (.g 2) (.ext 8)) ∧ reads [w 0x33 1 2 3 0 0 4] (.str .b1 .pod (.g 1) (.g 2) (.imm 4)) ∧
    reads [w 0x34 1 2 31 8 0 8] (.ldm true 1 31 (.g 2) (.imm 8)) ∧ reads [w 0x35 1 2 3 0 0 8] (.stm false 1 3 (.g 2) (.imm 8)) ∧
    reads [w 0x37 1 2 3 0 0 (0x40 + 0x20 + 4 + 1)] (.cas false true .acq .clu (.g 1) (.g 2) (.g 3)) ∧
    reads [w 0x38 0 2 3 9 0 (0x20 + 8)] (.red .fadd false false .rel .core (.g 2) (.g 3)) ∧ reads [w 0x39 0 5 7 0 0 505] (.spill 505 5 7) ∧
    reads [w 0x3A 5 0 7 0 0 505] (.fill 5 505 7) ∧ reads [w 0x3B 0 2 0 1 0 64] (.pref true (.g 2) (.imm 64)) ∧ reads [w 0x3C 0 0 0 0 0 0] .invl1 ∧
    reads [w 0x3D 0 2 0 0 0 0x7FFFF] (.layer (.g 2) 0x7FFFF) ∧ reads [w 0x41 7 0 63 0 1 0, 65535] (.tpost 7 (.ext 65535)) ∧
    reads [w 0x43 4 0 0 0 0 7] (.qstat (.g 4) 7) ∧ reads [w 0x45 4 0 0 0 0 0] (.step (.g 4)) ∧
    reads [w 0x46 4 5 6 0 0 8] (.flagw (.g 4) (.g 5) (.reg (.g 6) 8)) ∧ reads [w 0x46 4 5 63 0 1 0, 9] (.flagw (.g 4) (.g 5) (.ext 9)) := by
  repeat' apply And.intro
  all_goals rfl

theorem test_decode_vector : reads [w 0x61 0 1 2 0 0 0] (.vsub .s8 (.v 0) (.v 1) (.reg (.v 2))) ∧ reads [w 0x63 47 1 63 6 0 0x3C00] (.vfma .f16 47 (.v 1) (.imm 0x3C00)) ∧
    reads [w 0x64 0 1 63 4 0 0x7FFFF] (.vmin .s32 (.v 0) (.v 1) (.imm (-1))) ∧ reads [w 0x65 0 1 63 10 1 0, 7] (.vmax .n64 (.v 0) (.v 1) (.ext 7)) ∧
    reads [w 0x66 0 55 0 2 0 0] (.vabs .s16 (.v 0) (.p 7)) ∧ reads [w 0x67 48 1 0 7 0 0] (.vneg .bf16 (.p 0) (.v 1)) ∧
    reads [w 0x68 0 1 2 1 0 0] (.vand .n8 (.v 0) (.v 1) (.reg (.v 2))) ∧ reads [w 0x69 0 1 2 3 0 0] (.vor .n16 (.v 0) (.v 1) (.reg (.v 2))) ∧
    reads [w 0x6A 0 1 2 5 0 0] (.vxor .n32 (.v 0) (.v 1) (.reg (.v 2))) ∧ reads [w 0x6B 0 1 0 9 0 0] (.vnot .s64 (.v 0) (.v 1)) ∧
    reads [w 0x6C 0 1 2 4 0 0] (.vshl .s32 (.v 0) (.v 1) (.reg (.v 2))) ∧ reads [w 0x6D 0 1 2 4 0 0] (.vshr .s32 (.v 0) (.v 1) (.reg (.v 2))) ∧
    reads [w 0x6E 0 1 63 4 0 3] (.vsar .s32 (.v 0) (.v 1) (.imm 3)) ∧ reads [w 0x6F 0 1 2 0 0 0] (.vadds .s8 (.v 0) (.v 1) (.reg (.v 2))) ∧
    reads [w 0x70 0 1 2 1 0 0] (.vsubs .n8 (.v 0) (.v 1) (.reg (.v 2))) ∧ reads [w 0x71 0 1 2 8 0 0] (.vdiv .f32 (.v 0) (.v 1) (.reg (.v 2))) ∧
    reads [w 0x72 0 1 0 8 0 0] (.vsqrt .f32 (.v 0) (.v 1)) ∧ reads [w 0x73 0 1 0 6 0 0] (.vrcp .f16 (.v 0) (.v 1)) ∧
    reads [w 0x74 0 1 0 7 0 0] (.vrsq .bf16 (.v 0) (.v 1)) ∧ reads [w 0x75 0 1 0 8 0 0] (.vexp2 .f32 (.v 0) (.v 1)) ∧
    reads [w 0x76 0 1 0 8 0 0] (.vlog2 .f32 (.v 0) (.v 1)) ∧ reads [w 0x77 0 1 0 8 0 10] (.vcvt .f32 .n64 (.v 0) (.v 1)) ∧
    reads [w 0x79 0 0 0 0 0 0] .minv ∧ reads [w 0x7A 0 0 0 0 0 0] .mpop ∧ reads [w 0x7B 0 0 0 0 0 0x7FFFE] (.mbr (-2)) ∧
    reads [w 0x7C 4 0 0 0 0 3] (.mrd (.g 4) 3) ∧ reads [w 0x7D 0 4 0 0 0 2] (.mwr 2 (.g 4)) ∧
    reads [w 0x7E 0 1 2 4 0 0] (.vsel .s32 (.v 0) (.v 1) (.reg (.v 2))) ∧ reads [w 0x80 0 4 0 4 0 0] (.vbcast .s32 (.v 0) (.g 4)) ∧
    reads [w 0x81 4 1 0 0 0 255] (.vmovs .s8 (.g 4) (.v 1) 255) ∧ reads [w 0x82 1 4 0 10 0 31] (.vins .n64 (.v 1) (.g 4) 31) ∧
    reads [w 0x83 0 1 2 4 0 0] (.vperm .s32 (.v 0) (.v 1) (.v 2)) ∧ reads [w 0x84 0 1 3 4 0 5] (.vshuf .s32 (.rot (.g 3)) (.v 0) (.v 1)) ∧
    reads [w 0x84 0 1 0 4 0 2] (.vshuf .s32 .ihi (.v 0) (.v 1)) ∧ reads [w 0x85 0 4 0 4 0 0] (.viota .s32 (.v 0) (.g 4)) ∧
    reads [w 0x87 0 4 0 4 1 0, 256] (.vst .s32 (.v 0) (.g 4) (.ext 256)) ∧ reads [w 0x88 0 4 2 4 0 1] (.vgath .s32 true (.v 0) (.g 4) (.v 2)) ∧
    reads [w 0x89 0 4 2 4 0 0] (.vscat .s32 (.v 0) (.g 4) (.v 2)) ∧ reads [w 0x8B 0 0 0 0 0 1] (.vtopkr (.v 0) true) ∧
    reads [w 0x8D 7 0 0 0 0 0] (.prst 7) ∧ reads [w 0x8E 0 1 0 8 0 2] (.vqnt .bq16 (.v 0) (.v 1)) ∧ reads [w 0x8F 0 1 0 8 0 1] (.vdq .bq4 (.v 0) (.v 1)) := by
  repeat' apply And.intro
  all_goals rfl

theorem test_decode_matrix : reads [w 0xA0 1 0 0 6 2 0, 0, 0, 64, 256] (.bld .s8 true 1 ⟨0, 0, 64, 256⟩) ∧ reads [w 0xA4 7 0 0 0 0 0] (.azero 7) ∧
    reads [w 0xA5 0 3 0 1 2 0, 0, 1, 2, 4] (.adrn true 3 ⟨0, 1, 2, 4⟩) ∧ reads [w 0xA7 2 4 5 0 0 1] (.smxw .l 2 (.g 4) (.g 5)) ∧
    reads [w 0xA9 6 4 0 1 0 8] (.ald true 6 (.g 4) (.imm 8)) := by
  repeat' apply And.intro
  all_goals rfl

/-- The base words of R243: 0x0000_0000_8000_00OP, and 0x0000_0000_8400_00OP with .ev. -/
theorem test_decode_commands : reads [0x800000B0, 1, 2, 3, 0] (.cpy false ⟨1, 2, 3, 0⟩) ∧ reads [0x840000B1, 1, 2, 3, 8] (.cpyx true ⟨1, 2, 3, 8⟩) ∧
    reads [0x800000B2, 1, 2, 3, 4] (.gath false ⟨1, 2, 3, 4⟩) ∧ reads [0x800000B3, 0x4000, 0xF400000000000002, 0x3000, 0] (.pool false ⟨0x4000, 0xF400000000000002, 0x3000, 0⟩) ∧
    reads [0x840000B4, 1, 2, 3, 0x100] (.decmp true ⟨1, 2, 3, 0x100⟩) ∧ reads [0x800000B5, 1, 2, 0, 4] (.supd false ⟨1, 2, 0, 4⟩) ∧
    reads [0x800000B6, 1, 2, 3, 0x10004] (.buck false ⟨1, 2, 3, 0x10004⟩) ∧ reads [0x840000B7, 1, 2, 3, 0x800004] (.xall true ⟨1, 2, 3, 0x800004⟩) ∧
    reads [0x800000B8, 1, 2, 3, 0] (.coll false ⟨1, 2, 3, 0⟩) ∧ reads [0x800000B9, 1, 2, 3, 1] (.walk false ⟨1, 2, 3, 1⟩) ∧
    reads [0x840000C0, 1, 2, 3, 4] (.rst true ⟨1, 2, 3, 4⟩) ∧ reads [0x800000C1, 1, 2, 3, 0] (.rld false ⟨1, 2, 3, 0⟩) ∧
    reads [0x840000C2, 1, 2, 3, 0x31] (.rred true ⟨1, 2, 3, 0x31⟩) ∧ reads [w 0xC3 4 0 0 0 0 15] (.stepq (.g 4) 15) := by
  repeat' apply And.intro
  all_goals rfl

theorem test_decode_system : reads [w 0x53 0 4 0 0 0 0] (.wdis (.g 4)) ∧ reads [w 0xE1 0 4 5 0 0 0x7FFFF] (.syswr (.g 4) (.g 5) 0x7FFFF) ∧
    reads [w 0xE4 0 4 0 0 0 0] (.ctxsv (.g 4)) ∧ reads [w 0xE5 0 4 0 0 0 0] (.ctxld (.g 4)) := by
  repeat' apply And.intro
  all_goals rfl

/-- Reserved encodings do not fall through: opcode 0, X = 11, a reserved register, an F value, an unassigned opcode, a stray field. -/
theorem test_decode_rejects : ∀ e ∈ [(0, []), (w 0x10 1 2 3 0 3 0, []), (w 0x10 40 2 3 0 0 0, []), (w 0x10 1 63 3 0 0 0, []), (w 0x25 1 2 3 10 0 0, []),
    (w 0x90 0 0 0 0 0 0, []), (w 0x01 1 0 0 0 0 0, []), (w 0x30 1 2 1 0 0 0, []), (w 0x44 0 0 0 0 0 9, []), (w 0x60 0 1 2 11 0 0, []),
    (w 0x10 1 2 3 0 1 0, [0]), (w 0x36 1 2 3 0 0 0x10, []), (w 0xA1 0 0 0 0 2 6, [0, 0, 0, 0])],
    (match decode e.1 e.2 with | .ok _ => false | .error _ => true) = true := by decide +kernel

/-! ### One step on a small state -/

/-- The state after one step of a sequencer of core 0 on the words at VA 0, with some registers set, has a property. -/
def stepGives (q : SeqId) (rs : List (Nat × Nat)) (pre : State → State) (ws : List Word) (P : State → Bool) : Bool :=
  match step (code (ws.map (·.toNat)) (pre (regs rs (at' q)))) with
  | .next t => P t
  | _ => false

/-- The value of a general register of the sequencer that issued. -/
def gets (n : Nat) (v : Nat) (t : State) : Bool := (t.me.rd (Fin.ofNat 32 n)).toNat == v && t.me.pc.toNat % 8 == 0 && !t.me.trapPend

/-- A trap with a cause is pending. -/
def trapped (n : Nat) (t : State) : Bool := t.me.trapPend && t.me.frame.cause.toNat == n

/-- A lane of a vector register of X. -/
def lane (n : Nat) (e : ElemT) (j : Nat) (t : State) : Nat := Claims.lane e (vget t.x.v n 0) j

/-- Corner results of R120 and R165. -/
theorem test_alu_corners :
    stepGives .C [(1, 2 ^ 64 - 1)] id [w 0x10 3 1 63 0 0 1] (gets 3 0) = true ∧
    stepGives .L [(1, 0)] id [w 0x11 3 1 63 0 0 1] (gets 3 (2 ^ 64 - 1)) = true ∧
    stepGives .C [(1, 2 ^ 63), (2, 2 ^ 64 - 1)] id [w 0x15 3 1 2 0 0 0] (gets 3 (2 ^ 63)) = true ∧
    stepGives .C [(1, 7)] id [w 0x15 3 1 2 0 0 0] (gets 3 (2 ^ 64 - 1)) = true ∧
    stepGives .C [(1, 2 ^ 64 - 7), (2, 2)] id [w 0x17 1 1 2 0 0 0] (gets 1 (2 ^ 64 - 1)) = true ∧
    stepGives .S [(1, 2 ^ 64 - 2), (2, 3)] id [w 0x13 3 1 2 0 0 0] (gets 3 (2 ^ 64 - 1)) = true ∧
    stepGives .S [(1, 2 ^ 64 - 2), (2, 3)] id [w 0x14 3 1 2 0 0 0] (gets 3 2) = true ∧
    stepGives .X [(1, 1)] id [w 0x20 3 1 63 0 0 65] (gets 3 (2 ^ 63)) = true ∧
    stepGives .C [(1, 0x80)] id [w 0x29 3 1 63 1 0 8] (gets 3 (2 ^ 64 - 128)) = true ∧
    stepGives .C [(3, 0xFFFF), (1, 5)] id [w 0x2B 3 1 63 0 0 (4 + 4 * 2 ^ 6)] (gets 3 0xFF5F) = true ∧
    stepGives .C [(1, 5)] id [w 0x2A 3 1 63 1 0 (0 + 3 * 2 ^ 6)] (gets 3 (2 ^ 64 - 3)) = true ∧
    stepGives .C [] id [w 0x26 3 1 0 0 0 0] (gets 3 64) = true ∧
    stepGives .C [(1, 5)] id [w 0x10 0 1 63 0 0 1] (gets 0 0) = true := by decide +kernel

/-- The check value of CRC-32C, 0xE306_9283 of the digits 1 to 9: its first eight bytes, then the last (R166). -/
theorem test_crc : stepGives .C [(1, 0xFFFFFFFF), (2, 0x3837363534333231)] id [w 0x2F 3 1 2 3 0 0, w 0x2F 4 3 2 0 0 0] (fun t =>
      match step (regs [(2, 0x39)] { t with agenda := [.issue 0 .C] }) with
      | .next u => gets 4 (0xFFFFFFFF - 0xE3069283) u
      | _ => false) = true := by decide +kernel

/-- Branches, calls and loops (R182, R183, R186, R189). -/
theorem test_control :
    stepGives .C [(1, 2 ^ 64 - 1), (2, 0)] id [w 0x03 0 1 2 2 0 4] (fun t => t.me.pc == 32) = true ∧
    stepGives .C [(1, 2 ^ 64 - 1), (2, 0)] id [w 0x03 0 1 2 4 0 4] (fun t => t.me.pc == 8) = true ∧
    stepGives .C [] id [w 0x05 31 0 0 0 0 3] (fun t => t.me.pc == 24 && t.me.rd 31 == 8) = true ∧
    stepGives .C [(1, 4)] id [w 0x06 0 1 0 0 0 0] (trapped 0x05) = true ∧
    stepGives .C [] id [0x0000600000200008] (fun t => t.me.pc == 8 && (loopTop t.me.loops).count == 2 && (loopTop t.me.loops).fin == 24) = true ∧
    stepGives .C [] id [0x0000600000000009, w 0x10 5 5 63 0 0 1] (fun t => t.me.repc == 3 && t.me.pc == 8) = true ∧
    stepGives .C [] id [0x0000600000000009, w 0x02 0 0 0 0 0 0] (trapped 0x01) = true ∧
    stepGives .C [] id [w 0x0B 0 0 0 0 0 77] (fun t => trapped 0x11 t && t.me.frame.det.toNat == 77 && t.me.frame.pc == 8) = true ∧
    stepGives .C [] id [0] (trapped 0x01) = true ∧ stepGives .C [] id [w 0x10 40 0 0 0 0 0] (trapped 0x02) = true ∧
    stepGives .L [] id [w 0x31 1 0 0 3 0 0] (trapped 0x03) = true ∧ stepGives .C [] id [0x00000000000000E2] (trapped 0x04) = true := by
  decide +kernel

/-- A load of the bytes at VA 0, sign-extended once it completes, and a store that is performed (R84, R192, R194). -/
theorem test_memory :
    stepGives .C [] id [w 0x30 3 0 0 6 0 0] (fun t => match exec (.loadComplete 0 .C) t with
      | .next u => (match exec (.loadComplete 0 .C) u with
        | .next v => v.me.rd 3 == 0x18000330
        | _ => false)
      | _ => false) = true ∧
    stepGives .S [(3, 0x1122334455667788)] id [w 0x31 3 0 0 1 0 64] (fun t => match exec (.storePerformedAtHome 0 .S) t with
      | .next u => u.homeBytes 64 4 == [0x88, 0x77, 0, 0]
      | _ => false) = true ∧
    stepGives .C [(1, 2)] id [w 0x30 3 1 0 2 0 0] (trapped 0x05) = true ∧ stepGives .C [(1, 2 ^ 30)] id [w 0x30 3 1 0 3 0 0] (trapped 0x06) = true ∧
    stepGives .C [(1, 2 ^ 21)] id [w 0x30 3 1 0 11 0 0] (trapped 0x06) = true := by decide +kernel

/-- Tokens, spill and special registers (R160, R197, R200). -/
theorem test_tokens_and_specials :
    stepGives .C [] (token 0xC0 5) [w 0x41 1 0 63 0 0 3] (fun t => t.here.tokens[1].toNat == 8) = true ∧
    stepGives .C [] (token 0x30 5) [w 0x42 1 0 63 0 0 3] (fun t => t.here.tokens[1].toNat == 2) = true ∧
    stepGives .C [] (token 0x30 2) [w 0x42 1 0 63 0 0 3] (fun t => t.here.tokens[1].toNat == 2 && t.me.pc == 0) = true ∧
    stepGives .C [] (token 0xC0 65535) [w 0x41 1 0 63 0 0 1] (trapped 0x10) = true ∧
    stepGives .X [] id [w 0x2D 3 0 0 1 0 1] (gets 3 2) = true ∧
    stepGives .C [] id [w 0x2D 3 0 0 1 0 5] (trapped 0x01) = true ∧
    stepGives .C [(1, 9), (2, 8)] id [w 0x39 0 1 2 0 0 510] (fun t => sget 0 t.me.spill 510 == 9 && sget 0 t.me.spill 511 == 8) = true := by
  decide +kernel

/-- Vectors and masks (R122, R204, R206, R208, R209, R212). -/
theorem test_vector :
    stepGives .X [] (vreg1 0x3F8000003F000000) [0x3F00000023F04362] (fun t => lane 3 .f32 0 t == 0x3E800000 && lane 3 .f32 1 t == 0x3F000000) = true ∧
    stepGives .X [] (vreg1 0x80FF) [w 0x60 2 1 63 0 0 0x7FFFF] (fun t => lane 2 .s8 0 t == 0xFE && lane 2 .s8 1 t == 0x7F && lane 2 .s8 2 t == 0xFF) = true ∧
    stepGives .X [] (vreg1 0x7F) [w 0x6F 2 1 1 0 0 0] (fun t => lane 2 .s8 0 t == 0x7F) = true ∧
    stepGives .X [] (vreg1 0xBF800000) [0x0000400020204078] (fun t => t.x.masks.length == 1 && (t.x.masks.headD 0).getLsbD 0 && !(t.x.masks.headD 0).getLsbD 4) = true ∧
    stepGives .X [] (fun s => masked [0xF] (vreg1 5 s)) [w 0x60 2 1 63 4 0 1] (fun t => lane 2 .s32 0 t == 6 && lane 2 .s32 1 t == 0) = true ∧
    stepGives .X [] (vreg1 3) [w 0x7F 2 1 0 4 0 0] (fun t => lane 2 .s32 0 t == 3) = true ∧
    stepGives .X [] (masked [7]) [w 0x7A 0 0 0 0 0 0] (fun t => t.x.masks.length == 0) = true ∧
    stepGives .X [(4, 7)] id [w 0x80 2 4 0 4 0 0] (fun t => lane 2 .s32 0 t == 7 && lane 2 .s32 63 t == 7) = true := by decide +kernel

/-- Tiles and side registers (R138, R227, R229). -/
theorem test_matrix :
    stepGives .X [] id [0x00000000400001A3, 0x60010000] (fun t => decide (t.x.tiles[1] = ⟨0, 64, 256, true⟩)) = true ∧
    stepGives .X [(4, 9)] id [w 0xA8 0 4 0 0 0 3] (fun t => t.x.ftab[3].toNat == 9) = true ∧
    stepGives .X [(5, 2)] (tiled true) [0x00002000005054A6] (fun t => t.me.trapPend) = true := by decide +kernel

/-- Tasks (R282, R285): the user-event vector; a system register at supervisor privilege. -/
theorem test_tasks :
    stepGives .C [(20, 64)] id [0x0000200000050059] (fun t => t.c.uevec == 64 && t.c.uevEn) = true ∧
    stepGives .C [(20, 60)] id [0x0000200000050059] (trapped 0x05) = true ∧
    stepGives .C [(1, 0x1006), (2, 99)] (fun s => super s) [w 0xE1 0 1 2 0 0 0] (fun t => (t.here.seq .L).rd 6 == 99) = true ∧
    stepGives .C [] (fun s => super s) [w 0xE0 5 0 0 0 0 0x4004] (gets 5 1) = true := by decide +kernel

end Sys2Proof.Tests
end

section
/-! SUPPORT. Address translation through a range set (R57, R58): when a VA is canonical, what the search of the range
registers answers, and the IA of a register that matches. -/

namespace Sys2Proof.Machine

/-! ### One range register -/

theorem canonical_iff {va : Nat} (hva : va < 2 ^ 64) :
    canonical va = true ↔ va / 2 ^ 48 = if va / 2 ^ 47 % 2 = 1 then 0xFFFF else 0 := by
  have hhi : nbits va 63 48 = va / 2 ^ 48 := by
    rw [nbits, Nat.shiftRight_eq_div_pow]
    omega
  have hbit : nbits va 47 47 = va / 2 ^ 47 % 2 := by
    rw [nbits, Nat.shiftRight_eq_div_pow, Nat.add_sub_cancel_left, Nat.pow_one]
  simp only [canonical, hhi, hbit, beq_iff_eq]

/-- `Range.hits` decides the match of R58. -/
theorem hits_iff_matches (r : Range) (v n : Nat) : Range.hits r v n = true ↔ Claims.Matches r v n := by
  simp only [Range.hits, Bool.and_eq_true, decide_eq_true_eq, and_assoc]
  rfl

theorem permOf_eq_getLsbD_permBit (k : Perm) (r : Range) : k.of r = r.getLsbD (Claims.permBit k) := by
  cases k <;> rfl

/-- The IA that a register gives to VA bits `v`, in a partition (R58). -/
def rangeIa (part : Nat) (r : Range) (v : Nat) : Nat :=
  part * 2 ^ 47 + (Range.iabase r * 4096 + (v - Range.vbase r * 4096)) % 2 ^ 47

/-- The tier and offset of a matching register never carry into the partition field: the last byte of the span stays in
the tier that bits [46:44] of its first byte name. -/
theorem rangeIa_of_matches {r : Range} {v n : Nat} (part : Nat) (h : Claims.Matches r v n) (hn : 0 < n) :
    rangeIa part r v =
      part * 2 ^ 47 + ((r.extractLsb' 72 35).toNat * 4096 + (v - (r.extractLsb' 0 36).toNat * 4096)) := by
  obtain ⟨_, hlo, hhi, htier⟩ := h
  have hia : (r.extractLsb' 72 35).toNat < 2 ^ 35 := BitVec.isLt _
  have hoff : (r.extractLsb' 72 35).toNat * 4096 + (v - (r.extractLsb' 0 36).toNat * 4096) < 2 ^ 47 := by omega
  rw [rangeIa, Range.iabase, Range.vbase, Nat.mod_eq_of_lt hoff]

/-! ### The search of a range set -/

/-- The search answers the first register that hits, with its IA. -/
theorem rangeFind_eq_find? (part : Nat) (rs : List Range) (v n : Nat) :
    rangeFind part rs v n = (rs.find? (Range.hits · v n)).map fun r => (r, rangeIa part r v) := by
  induction rs with
  | nil => rfl
  | cons r rs ih =>
    cases h : Range.hits r v n with
    | true => simp [rangeFind, h, rangeIa]
    | false => simp [rangeFind, h, ih]

theorem rangeFind_eq_none {rs : RangeSet} {v n : Nat} (part : Nat)
    (hmiss : ∀ i : Fin 16, ¬Claims.Matches rs[i.val] v n) : rangeFind part rs.toList v n = none := by
  rw [rangeFind_eq_find?, Option.map_eq_none_iff, List.find?_eq_none]
  intro r hr
  obtain ⟨i, hi, rfl⟩ := Vector.getElem_of_mem (Vector.mem_toList_iff.mp hr)
  rw [hits_iff_matches]
  exact hmiss ⟨i, hi⟩

theorem rangeFind_eq_some {rs : RangeSet} {v n : Nat} (part : Nat) (i : Fin 16)
    (hit : Claims.Matches rs[i.val] v n) (hfirst : ∀ j : Fin 16, j.val < i.val → ¬Claims.Matches rs[j.val] v n) :
    rangeFind part rs.toList v n = some (rs[i.val], rangeIa part rs[i.val] v) := by
  have hfind : rs.toList.find? (Range.hits · v n) = some rs[i.val] := by
    rw [List.find?_eq_some_iff_getElem]
    refine ⟨(hits_iff_matches ..).mpr hit, i.val, by simp, by simp, fun j hj => ?_⟩
    have hmiss := hfirst ⟨j, Nat.lt_trans hj i.isLt⟩ hj
    rw [← hits_iff_matches] at hmiss
    simpa using hmiss
  rw [rangeFind_eq_find?, hfind, Option.map_some]

/-! ### Translation -/

theorem translate_of_not_canonical {va : Nat} (p : Fin 32) (rs : RangeSet) (n : Nat) (k : Perm)
    (h : canonical va = false) : translate p rs va n k = .error 0x06 := by
  rw [translate, h, if_neg Bool.false_ne_true]

/-- A range miss, for a canonical VA and for one that is not. -/
theorem translate_of_no_match {rs : RangeSet} {va n : Nat} (p : Fin 32) (k : Perm)
    (hmiss : ∀ i : Fin 16, ¬Claims.Matches rs[i.val] (va % 2 ^ 48) n) : translate p rs va n k = .error 0x06 := by
  rw [translate, rangeFind_eq_none p.val hmiss, ite_self]

/-- A canonical VA goes where its first matching register sends it, if that register has the permission. -/
theorem translate_of_first_match {rs : RangeSet} {va n : Nat} (p : Fin 32) (k : Perm) (i : Fin 16)
    (hcanon : canonical va = true) (hit : Claims.Matches rs[i.val] (va % 2 ^ 48) n)
    (hfirst : ∀ j : Fin 16, j.val < i.val → ¬Claims.Matches rs[j.val] (va % 2 ^ 48) n) :
    translate p rs va n k =
      if rs[i.val].getLsbD (Claims.permBit k) then
        .ok ⟨rangeIa p.val rs[i.val] (va % 2 ^ 48), Range.cache rs[i.val], Range.hint rs[i.val]⟩
      else .error 0x07 := by
  rw [translate, if_pos hcanon, rangeFind_eq_some p.val i hit hfirst, ← permOf_eq_getLsbD_permBit]

/-- Settles O14: the search of the range set answers the first register that matches, and the IA span of a matching
register stays below the partition field. -/
theorem translation : Obligations.Translation := by
  intro p rs va n k hva hn
  refine ⟨fun hcanon => ?notCanonical, fun hmiss => translate_of_no_match p k hmiss,
    fun i hcanon hit hfirst => ?firstMatch⟩
  case notCanonical =>
    rw [← canonical_iff hva, Bool.not_eq_true] at hcanon
    exact translate_of_not_canonical p rs n k hcanon
  case firstMatch =>
    have htrans := translate_of_first_match p k i ((canonical_iff hva).mpr hcanon) hit hfirst
    refine ⟨fun hperm => ?_, fun hperm => ?_⟩
    · rw [if_pos hperm] at htrans
      exact ⟨_, htrans, rangeIa_of_matches p.val hit hn⟩
    · rwa [hperm, if_neg Bool.false_ne_true] at htrans

end Sys2Proof.Machine
end

section
/-! SUPPORT. Scalar integer arithmetic (R120): that a form of the shape of `alu3` completes on every operand it can read, and
what the results of R120 are as exact integers. -/

namespace Sys2Proof.Machine

/-! ### What the parts of a scalar form leave of the flags -/

/-- A pop changes no sequencer. -/
theorem State.me_of_pop {s t : State} {n : Fin 8} {v : Word} (h : s.pop n = .ok (v, t)) : t.me = s.me := by
  obtain ⟨rest, -, rfl⟩ := State.pop_ok h
  rw [State.me_setHere]
  rfl

/-- A push changes no sequencer. -/
theorem State.me_of_push {s t : State} {n : Fin 8} {v : Word} (h : s.push n v = .ok t) : t.me = s.me := by
  rw [State.push_ok h, State.me_setHere]
  rfl

theorem State.me_of_readS {s t : State} {r : SReg} {v : Word} (h : s.readS r = .ok (v, t)) : t.me = s.me := by
  cases r with
  | g n => cases h; rfl
  | q n => exact State.me_of_pop h

theorem State.me_of_readB {s t : State} {b : SB} {v : Word} (h : s.readB b = .ok (v, t)) : t.me = s.me := by
  cases b with
  | reg r => exact State.me_of_readS h
  | imm c => cases h; rfl
  | ext w => cases h; rfl

theorem State.fpcs_of_writeS {s t : State} {d : SReg} {v : Word} (h : s.writeS d v = .ok t) : t.me.fpcs = s.me.fpcs := by
  cases d with
  | g n =>
    cases h
    rw [State.me_setMe, Seq.wr_fpcs]
  | q n => rw [State.me_of_push h]

theorem State.complete_fpcs (s : State) : s.complete.me.fpcs = s.me.fpcs := by
  obtain ⟨p, l, r, h⟩ := s.complete_me
  rw [h]

/-! ### The form with two sources -/

/-- A form that all sequencers have completes when its two reads and its write succeed (R190). -/
theorem alu3_of_ok {f : Word → Word → Word} {d a : SReg} {b : SB} {s r t u : State} {x y : Word}
    (ha : s.readS a = .ok (x, r)) (hb : r.readB b = .ok (y, t)) (hd : t.writeS d (f x y) = .ok u) :
    alu3 f d a b s = .next u.complete := by
  rw [alu3, device_run _ _ _ (Who.has_all _)]
  simp only [ha, hb, hd, Except.bind_ok]
  rfl

/-- A form with the meaning of `alu3` writes what its function gives, so it meets a specification that the function meets. -/
theorem writes3_of_alu3 {mk : SReg → SReg → SB → Instr} {f : Word → Word → Word} {spec : Word → Word → Word → Prop}
    (hexec : ∀ d a b s, exec (mk d a b) s = alu3 f d a b s) (hspec : ∀ x y, spec x y (f x y)) :
    Claims.Writes3 mk spec := by
  rintro s d a b x y t ⟨r, ha, hb⟩ ⟨t0, htakes⟩
  obtain ⟨u, hd⟩ := State.writeS_any t d 0 (f x y) htakes
  refine ⟨f x y, u, hspec x y, hd, ?_, ?_⟩
  · rw [hexec, alu3_of_ok ha hb hd]
  · rw [State.complete_fpcs, State.fpcs_of_writeS hd, State.me_of_readB hb, State.me_of_readS ha]

/-! ### The results as exact integers (R120) -/

theorem add_eq_ofInt (x y : Word) : x + y = BitVec.ofInt 64 (x.toInt + y.toInt) := by
  rw [BitVec.ofInt_add, BitVec.ofInt_toInt, BitVec.ofInt_toInt]

theorem sub_eq_ofInt (x y : Word) : x - y = BitVec.ofInt 64 (x.toInt - y.toInt) :=
  BitVec.eq_of_toInt_eq (by rw [BitVec.toInt_sub, BitVec.toInt_ofInt])

theorem mul_eq_ofInt (x y : Word) : x * y = BitVec.ofInt 64 (x.toInt * y.toInt) := by
  rw [BitVec.ofInt_mul, BitVec.ofInt_toInt, BitVec.ofInt_toInt]

theorem sdiv_eq_ofInt_tdiv (x y : Word) : x.sdiv y = BitVec.ofInt 64 (x.toInt.tdiv y.toInt) :=
  BitVec.eq_of_toInt_eq (by rw [BitVec.toInt_sdiv, BitVec.toInt_ofInt])

theorem srem_eq_ofInt_sub (x y : Word) : x.srem y = BitVec.ofInt 64 (x.toInt - x.toInt.tdiv y.toInt * y.toInt) := by
  rw [Int.mul_comm, ← Int.tmod_def, ← BitVec.toInt_srem, BitVec.ofInt_toInt]

/-- A signed remainder other than 0 has the dividend's sign. -/
theorem srem_eq_zero_or_msb_eq (x y : Word) : x.srem y = 0 ∨ (x.srem y).msb = x.msb := by
  refine Classical.or_iff_not_imp_left.mpr fun hne => ?_
  rw [BitVec.msb_srem, decide_eq_true hne, Bool.and_true]

theorem udiv_eq_ofNat (x y : Word) : x / y = BitVec.ofNat 64 (x.toNat / y.toNat) := by
  rw [← BitVec.toNat_udiv, BitVec.ofNat_toNat, BitVec.setWidth_eq]

theorem umod_eq_ofNat_sub (x y : Word) : x % y = BitVec.ofNat 64 (x.toNat - x.toNat / y.toNat * y.toNat) := by
  rw [← Nat.mod_eq_sub_div_mul, ← BitVec.toNat_umod, BitVec.ofNat_toNat, BitVec.setWidth_eq]

theorem shiftLeft_eq_ofNat (x : Word) (n : Nat) : x <<< n = BitVec.ofNat 64 (x.toNat * 2 ^ n) :=
  BitVec.eq_of_toNat_eq (by rw [BitVec.toNat_shiftLeft, BitVec.toNat_ofNat, Nat.shiftLeft_eq])

theorem ushiftRight_eq_ofNat (x : Word) (n : Nat) : x >>> n = BitVec.ofNat 64 (x.toNat / 2 ^ n) := by
  rw [← Nat.shiftRight_eq_div_pow, ← BitVec.toNat_ushiftRight, BitVec.ofNat_toNat, BitVec.setWidth_eq]

theorem sshiftRight_eq_ofInt (x : Word) (n : Nat) : x.sshiftRight n = BitVec.ofInt 64 (x.toInt / 2 ^ n) := by
  rw [BitVec.sshiftRight_eq, Int.shiftRight_eq_div_pow, Int.natCast_pow, Int.cast_ofNat_Int]

/-- A rotation right moves every bit n places down, and the bits below n to the top. -/
theorem getLsbD_rotateRight_eq_mod (x : Word) {n i : Nat} (hn : n < 64) (hi : i < 64) :
    (x.rotateRight n).getLsbD i = x.getLsbD ((i + n) % 64) := by
  rw [BitVec.getLsbD_rotateRight_of_lt hn]
  by_cases hlow : i < 64 - n
  · have hmod : (i + n) % 64 = n + i := by omega
    rw [hmod, decide_eq_true hlow, cond_true]
  · have hmod : (i + n) % 64 = i - (64 - n) := by omega
    rw [hmod, decide_eq_false hlow, cond_false, decide_eq_true hi, Bool.true_and]

/-! ### The results with corners, as the model gives them -/

theorem divVal_spec (x y : Word) :
    if y = 0 then divVal x y = 0xFFFFFFFFFFFFFFFF#64
    else if x = Claims.lowest ∧ y = -1 then divVal x y = Claims.lowest
    else divVal x y = BitVec.ofInt 64 (x.toInt.tdiv y.toInt) := by
  unfold divVal
  split
  · rfl
  · split
    next h =>
      obtain ⟨rfl, rfl⟩ := h
      exact BitVec.intMin_sdiv_neg_one
    next => exact sdiv_eq_ofInt_tdiv x y

theorem divnVal_spec (x y : Word) :
    if y = 0 then divnVal x y = 0xFFFFFFFFFFFFFFFF#64 else divnVal x y = BitVec.ofNat 64 (x.toNat / y.toNat) := by
  unfold divnVal
  split
  · rfl
  · exact udiv_eq_ofNat x y

theorem remVal_spec (x y : Word) :
    if y = 0 then remVal x y = x
    else if x = Claims.lowest ∧ y = -1 then remVal x y = 0
    else remVal x y = BitVec.ofInt 64 (x.toInt - x.toInt.tdiv y.toInt * y.toInt) ∧
      (remVal x y = 0 ∨ (remVal x y).msb = x.msb) := by
  unfold remVal
  split
  · rfl
  · split
    next h =>
      obtain ⟨rfl, rfl⟩ := h
      decide
    next => exact ⟨srem_eq_ofInt_sub x y, srem_eq_zero_or_msb_eq x y⟩

theorem remnVal_spec (x y : Word) :
    if y = 0 then remnVal x y = x
    else remnVal x y = BitVec.ofNat 64 (x.toNat - x.toNat / y.toNat * y.toNat) := by
  unfold remnVal
  split
  · rfl
  · exact umod_eq_ofNat_sub x y

theorem shAmt_lt (y : Word) : shAmt y < 64 := Nat.mod_lt _ (by decide)

/-! ### What each form does: `exec` at its constructor -/

section

variable (d a : SReg) (b : SB) (s : State)

theorem exec_add : exec (.add d a b) s = alu3 (· + ·) d a b s := rfl
theorem exec_sub : exec (.sub d a b) s = alu3 (· - ·) d a b s := rfl
theorem exec_mul : exec (.mul d a b) s = alu3 (· * ·) d a b s := rfl
theorem exec_div : exec (.div d a b) s = alu3 divVal d a b s := rfl
theorem exec_divn : exec (.divn d a b) s = alu3 divnVal d a b s := rfl
theorem exec_rem : exec (.rem d a b) s = alu3 remVal d a b s := rfl
theorem exec_remn : exec (.remn d a b) s = alu3 remnVal d a b s := rfl
theorem exec_shl : exec (.shl d a b) s = alu3 (fun x y => x <<< shAmt y) d a b s := rfl
theorem exec_shr : exec (.shr d a b) s = alu3 (fun x y => x >>> shAmt y) d a b s := rfl
theorem exec_sar : exec (.sar d a b) s = alu3 (fun x y => x.sshiftRight (shAmt y)) d a b s := rfl
theorem exec_ror : exec (.ror d a b) s = alu3 (fun x y => x.rotateRight (shAmt y)) d a b s := rfl

end

/-- Settles O1: each form has the meaning of `alu3`, whose function gives the exact result modulo 2^64 or R120's corner. -/
theorem scalarCorners : Obligations.ScalarCorners :=
  ⟨writes3_of_alu3 exec_add add_eq_ofInt,
   writes3_of_alu3 exec_sub sub_eq_ofInt,
   writes3_of_alu3 exec_mul mul_eq_ofInt,
   writes3_of_alu3 exec_div divVal_spec,
   writes3_of_alu3 exec_divn divnVal_spec,
   writes3_of_alu3 exec_rem remVal_spec,
   writes3_of_alu3 exec_remn remnVal_spec,
   writes3_of_alu3 exec_shl fun x y => shiftLeft_eq_ofNat x (shAmt y),
   writes3_of_alu3 exec_shr fun x y => ushiftRight_eq_ofNat x (shAmt y),
   writes3_of_alu3 exec_sar fun x y => sshiftRight_eq_ofInt x (shAmt y),
   writes3_of_alu3 exec_ror fun x y _ hi => getLsbD_rotateRight_eq_mod x (shAmt_lt y) hi⟩

end Sys2Proof.Machine
end

section
/-! SUPPORT. Branches that are not taken (R181, R182), and instructions whose guard is off (R157, R331, R332). -/

namespace Sys2Proof.Machine

/-! ### The conditional branches on operands that can be read -/

@[simp] theorem State.branchIf_false (s : State) (d : Off) : s.branchIf false d = s.complete := rfl

/-- BCC on readable operands goes by its condition, on the state that the reads left (R181). -/
theorem exec_bcc_of_reads {s u : State} {a b : SReg} {x y : Word} (c : Cond) (d : Off)
    (h : Claims.Reads2 s a (.reg b) x y u) : exec (.bcc c a b d) s = .next (u.branchIf (c.holds x y) d) := by
  obtain ⟨r, ha, hb : r.readS b = .ok (y, u)⟩ := h
  change execBcc c a b d s = _
  rw [execBcc, device_run _ _ _ (Who.has_all _)]
  simp only [ha, hb, Except.bind_ok]
  rfl

/-- BBIT.EQ on a readable operand branches when the bit is 0 (R181). -/
theorem exec_bbitEq_of_readS {s u : State} {a : SReg} {x : Word} (k : BitVec 6) (d : Off) (h : s.readS a = .ok (x, u)) :
    exec (.bbitEq a k d) s = .next (u.branchIf (!x.getLsbD k.toNat) d) := by
  change execBbitEq a k d s = _
  rw [execBbitEq, device_run _ _ _ (Who.has_all _), h]
  rfl

/-- BBIT.NE on a readable operand branches when the bit is 1 (R181). -/
theorem exec_bbitNe_of_readS {s u : State} {a : SReg} {x : Word} (k : BitVec 6) (d : Off) (h : s.readS a = .ok (x, u)) :
    exec (.bbitNe a k d) s = .next (u.branchIf (x.getLsbD k.toNat) d) := by
  change execBbitNe a k d s = _
  rw [execBbitNe, device_run _ _ _ (Who.has_all _), h]
  rfl

/-! ### The words kept under a REP (R332) -/

theorem State.keepRep_of_no_rep {s : State} (ws : List Word) (hcount : s.me.repc = 0) (hkept : s.me.rep = none) :
    s.keepRep ws = s :=
  if_pos ⟨hcount, hkept⟩

/-- Keeping words changes nothing of the issuing sequencer but what it keeps. -/
theorem State.keepRep_me (s : State) (ws : List Word) : ∃ r, (s.keepRep ws).me = { s.me with rep := r } := by
  unfold State.keepRep
  dsimp only
  split
  · exact ⟨s.me.rep, rfl⟩
  · exact ⟨_, State.me_setMe _ _⟩

@[simp] theorem State.keepRep_waitsFor (s : State) (ws : List Word) (n : Fin 32) :
    (s.keepRep ws).me.waitsFor n = s.me.waitsFor n := by
  obtain ⟨r, h⟩ := s.keepRep_me ws
  rw [h]
  rfl

@[simp] theorem State.keepRep_rd (s : State) (ws : List Word) (n : Fin 32) : (s.keepRep ws).me.rd n = s.me.rd n := by
  obtain ⟨r, h⟩ := s.keepRep_me ws
  rw [h]
  rfl

/-! ### An instruction whose guard is off -/

/-- The guard is off when its bit equals GN (R157). -/
theorem guardOn_some_eq_false_iff (q : Seq) (g : Guard) :
    guardOn q (some g) = false ↔ (q.rd g.gr.toFin).getLsbD g.gb.toNat = g.gn := by
  rw [guardOn, bne_eq_false_iff_eq]

@[simp] theorem guardOn_keepRep (s : State) (ws : List Word) (g : Option Guard) :
    guardOn (s.keepRep ws).me g = guardOn s.me g := by
  cases g with
  | none => rfl
  | some g => rw [guardOn, guardOn, State.keepRep_rd]

/-- Steps 4 to 6 of R331 pass an instruction as completed when its guard can be read and is off. -/
theorem State.judge_of_guard_off {s : State} {ws : List Word} {d : Decoded} {g : Guard}
    (hdecode : decode s.cur.word ws = .ok d) (hguard : d.guard = some g) (hready : s.me.waitsFor g.gr.toFin = false)
    (hoff : guardOn s.me (some g) = false) : s.judge ws = .over (s.keepRep (s.cur.word :: ws)).complete := by
  rw [State.judge, hdecode]
  simp [hguard, hready, hoff]

/-- Settles O8: a branch whose condition is false completes on the state its reads left, and the guard is tested before
the instruction runs. -/
theorem untakenBranches : Obligations.UntakenBranches := by
  refine ⟨?bcc, ?bbit, ?guardOff, fun s ws => State.keepRep_of_no_rep ws⟩
  case bcc =>
    intro s c a b d x y u hreads hfalse
    rw [exec_bcc_of_reads c d hreads, hfalse, State.branchIf_false]
  case bbit =>
    intro s a k d x u hread
    refine ⟨fun hone => ?_, fun hzero => ?_⟩
    · rw [exec_bbitEq_of_readS k d hread, hone, Bool.not_true, State.branchIf_false]
    · rw [exec_bbitNe_of_readS k d hread, hzero, State.branchIf_false]
  case guardOff =>
    intro s ws d g hdecode hguard hready hoff
    exact State.judge_of_guard_off hdecode hguard hready ((guardOn_some_eq_false_iff s.me g).mpr hoff)

end Sys2Proof.Machine
end
